-- ==== Sys2Proof/Word.lean ====
section
/-! DEFINITION. Bytes, the eight content bytes of a frame, exact fractions, and a register file of fixed length. -/

namespace Sys2Proof

/-- One byte of a frame. -/
abbrev Byte := BitVec 8

/-- A 16-bit request field (section 10.3). -/
abbrev Word16 := BitVec 16

/-- The eight content bytes of a request, an answer or a broadcast (R178). -/
structure Content where
  b0 : Byte
  b1 : Byte
  b2 : Byte
  b3 : Byte
  b4 : Byte
  b5 : Byte
  b6 : Byte
  b7 : Byte
  deriving DecidableEq, Repr

/-- The bytes in the order sent. -/
def Content.toList (c : Content) : List Byte :=
  [c.b0, c.b1, c.b2, c.b3, c.b4, c.b5, c.b6, c.b7]

/-- An exact fraction, kept in lowest terms (the residue of the distance counter, R12). -/
structure Fraction where
  num : Int
  den : Nat
  deriving DecidableEq, Repr

/-- Read one place of a register file. -/
def rd {α : Type} {n : Nat} (v : Vector α n) (i : Fin n) : α := v[i.val]

/-- Write one place of a register file. -/
def wr {α : Type} {n : Nat} (v : Vector α n) (i : Fin n) (x : α) : Vector α n := v.set i.val x i.isLt

/-- Change one place of a register file. -/
def upd {α : Type} {n : Nat} (v : Vector α n) (i : Fin n) (f : α → α) : Vector α n := wr v i (f (rd v i))

/-- Write the place with number `i`, if there is one. -/
def wrN {α : Type} {n : Nat} (v : Vector α n) (i : Nat) (x : α) : Vector α n :=
  if h : i < n then wr v ⟨i, h⟩ x else v

/-- Change every place of a register file. -/
def mapF {α β : Type} {n : Nat} (v : Vector α n) (f : Fin n → α → β) : Vector β n :=
  Vector.ofFn fun i => f i (rd v i)

@[simp] theorem rd_wr_same {α : Type} {n : Nat} (v : Vector α n) (i : Fin n) (x : α) : rd (wr v i x) i = x := by
  simp [rd, wr]

theorem rd_wr_other {α : Type} {n : Nat} (v : Vector α n) (i j : Fin n) (x : α) (h : i ≠ j) :
    rd (wr v i x) j = rd v j := by
  have h' : i.val ≠ j.val := fun e => h (Fin.ext e)
  simp [rd, wr, h']

theorem rd_wr {α : Type} {n : Nat} (v : Vector α n) (i j : Fin n) (x : α) :
    rd (wr v i x) j = if i = j then x else rd v j := by
  by_cases h : i = j
  · subst h; simp
  · simp [h, rd_wr_other v i j x h]

@[simp] theorem rd_upd_same {α : Type} {n : Nat} (v : Vector α n) (i : Fin n) (f : α → α) :
    rd (upd v i f) i = f (rd v i) := by simp [upd]

theorem rd_upd_other {α : Type} {n : Nat} (v : Vector α n) (i j : Fin n) (f : α → α) (h : i ≠ j) :
    rd (upd v i f) j = rd v j := by simp [upd, rd_wr_other, h]

theorem rd_upd {α : Type} {n : Nat} (v : Vector α n) (i j : Fin n) (f : α → α) :
    rd (upd v i f) j = if i = j then f (rd v i) else rd v j := by simp [upd, rd_wr]

@[simp] theorem rd_ofFn {α : Type} {n : Nat} (f : Fin n → α) (i : Fin n) : rd (Vector.ofFn f) i = f i := by
  simp [rd]

@[simp] theorem rd_mapF {α β : Type} {n : Nat} (v : Vector α n) (f : Fin n → α → β) (i : Fin n) :
    rd (mapF v f) i = f i (rd v i) := by simp [mapF]

@[simp] theorem rd_replicate {α : Type} {n : Nat} (x : α) (i : Fin n) : rd (Vector.replicate n x) i = x := by
  simp [rd]

theorem wr_rd_self {α : Type} {n : Nat} (v : Vector α n) (i : Fin n) : wr v i (rd v i) = v := by
  ext j hj
  simp only [wr, rd, Vector.getElem_set]
  split
  · rename_i h; simp [h]
  · rfl

/-- Two register files that read alike are equal. -/
theorem ext_rd {α : Type} {n : Nat} {v w : Vector α n} (h : ∀ i, rd v i = rd w i) : v = w := by
  ext j hj
  exact h ⟨j, hj⟩

end Sys2Proof
end

