-- ==== Sys2Proof/Syntax.lean ====
section
/-! DEFINITION. The commands of the block: one constructor for each row of spec/opcode_table.json, with the row's operands. -/

namespace Sys2Proof

/-- Who sends a request, and so which partner it is taken from (section 3.1). `can n` is the sender whose frames carry the
identifier REQ_BASE + n. `line command` is the fallback decoder, carrying out its command 1 to 4 as partner 14 (R80, R81). -/
inductive Sender where
  | host
  | can (n : Nat)
  | line (command : Nat)
  deriving DecidableEq, Repr

/-- A frame as it arrives on the chassis CAN (section 10.1). -/
structure CanFrame where
  remote     : Bool
  extended   : Bool
  identifier : Nat
  dlc        : Nat
  data       : List Byte
  deriving DecidableEq, Repr

/-- The rotation that a wheel's direction line shows (section 1.2), and the vehicle direction (R11). -/
inductive Direction where
  | forward
  | reverse
  deriving DecidableEq, Repr

/-- The three lines from the driveline (section 1.5). -/
inductive DriveLine where
  | selFwd
  | selRev
  | driveReq
  deriving DecidableEq, Repr

/-- One constructor per row of the table. Analog channels are numbered 0 to 20 (AN0 to AN19, PED as 20), wheels 0 to 3 (A1L, A1R,
A3L, A3R), corners 0 to 5, valve channels 0 to 17; doors 1 to 4 are 0 to 3 here. Bytes of a request are as section 10.3 lays
them out, so that every value a partner can send is a value here. A level is `true` when the line stands high. -/
inductive Instr where
  | coldReset
  | canFrameArrival (frame : CanFrame)
  | canFrameSent
  | answerAbandonTimeout
  | spiSelectAssert
  | spiSelectWithdraw (received : List Byte)
  | nop (sender : Sender) (tag : Byte)
  | openEntry (sender : Sender) (tag kind scope : Byte) (parameter : Word16) (handle : Byte)
  | amend (sender : Sender) (tag handle : Byte) (parameter : Word16)
  | refresh (sender : Sender) (tag handle : Byte)
  | retire (sender : Sender) (tag handle : Byte)
  | query (sender : Sender) (tag handle group : Byte)
  | list (sender : Sender) (tag : Byte) (index : Word16)
  | readMotion (sender : Sender) (tag part : Byte)
  | readCorner (sender : Sender) (tag corner group : Byte)
  | readAxle (sender : Sender) (tag axle group part : Byte)
  | readSteer (sender : Sender) (tag group part : Byte)
  | readNotices (sender : Sender) (tag flag : Byte)
  | clearNotices (sender : Sender) (tag : Byte) (flags : Word16)
  | setNoticeMask (sender : Sender) (tag : Byte) (mask : Word16)
  | clearCorner (sender : Sender) (tag corner : Byte)
  | clearChannel (sender : Sender) (tag channel : Byte)
  | clearSteerFault (sender : Sender) (tag : Byte)
  | swapBank (sender : Sender) (tag : Byte)
  | writeBankRow (sender : Sender) (tag bankField row : Byte) (value : Word16)
  | writeSetting (sender : Sender) (tag number place : Byte) (value : Word16)
  | writeRegistry (sender : Sender) (tag record rank kinds : Byte) (window : Word16)
  | start (sender : Sender) (tag : Byte)
  | restart (sender : Sender) (tag : Byte)
  | enterSafe (sender : Sender) (tag : Byte)
  | broadcastEvent
  | sampleEvent (channel : Fin 21) (raw : BitVec 12)
  | analogChannelFaulty (channel : Fin 21) (raw : BitVec 12)
  | analogChannelRecovery (channel : Fin 21) (raw : BitVec 12)
  | wheelPulseEdge (wheel : Fin 4) (rotation : Direction)
  | speedUpdate
  | wheelZeroTimeout (wheel : Fin 4)
  | wheelAgreementRecovery (wheel : Fin 4)
  | settleTimerExpiry
  | driveLineChange (line : DriveLine) (level : Bool)
  | driveLineDebounceExpiry (line : DriveLine)
  | refreshDeadlineExpiry (handle : Byte)
  | doorContactChange (door : Fin 4) (level : Bool)
  | doorContactDebounceExpiry (door : Fin 4)
  | driveInhReleaseExpiry
  | fblEdge (level : Bool)
  | fblPhaseTimeout
  | cornerUpdate (corner : Fin 6)
  | cornerQualified (corner : Fin 6)
  | actionTimeout (corner : Fin 6)
  | stallWatchSpan (corner : Fin 6)
  | brakeUpdate
  | holdConfirmed
  | holdUnconfirmedTimeout
  | holdLost
  | holdRampEnd
  | steeringUpdate
  | disagreementTimeout
  | trackingErrorTimeout
  | centringTimeout
  | blankingEnd (channel : Fin 18)
  | hardShort (channel : Fin 18)
  | overCurrentStart (channel : Fin 18)
  | overCurrentEnd (channel : Fin 18)
  | qualifyTimeExpiry (channel : Fin 18)
  | retryExpiry (channel : Fin 18)
  | cleanTimerExpiry (channel : Fin 18)
  | diagnosticCheck (channel : Fin 18) (load : Bool)
  | temperatureSample (degrees : Int)
  | supplyVoltageSample (tenths : Nat)
  | undervoltageGateClose (tenths : Nat)
  | undervoltageGateOpen (tenths : Nat)
  deriving DecidableEq, Repr

end Sys2Proof
end

