-- ==== Sys2Proof/WellFormed.lean ====
section
/-! DEFINITION. Which commands can be sent: the senders and CAN frames that exist. -/

namespace Sys2Proof

/-- The senders of section 3.1: the host, CAN partners 1 to 13, the fallback line's commands 1 to 4 (R79). -/
def Sender.wf : Sender → Bool
  | .host => true
  | .can n => decide (1 ≤ n ∧ n ≤ 13)
  | .line command => decide (1 ≤ command ∧ command ≤ 4)

/-- A classical CAN frame: an 11-bit or a 29-bit identifier, at most 8 data bytes, none in a remote frame (section 10.1). -/
def CanFrame.wf (f : CanFrame) : Bool :=
  decide (f.identifier < (if f.extended then 536870912 else 2048)) && decide (f.dlc ≤ 8)
    && decide (f.data.length = if f.remote then 0 else f.dlc)

/-- The sender of a request; none for the events that are no request. -/
def Instr.sender? : Instr → Option Sender
  | .nop s _ => some s
  | .openEntry s _ _ _ _ _ => some s
  | .amend s _ _ _ => some s
  | .refresh s _ _ => some s
  | .retire s _ _ => some s
  | .query s _ _ _ => some s
  | .list s _ _ => some s
  | .readMotion s _ _ => some s
  | .readCorner s _ _ _ => some s
  | .readAxle s _ _ _ _ => some s
  | .readSteer s _ _ _ => some s
  | .readNotices s _ _ => some s
  | .clearNotices s _ _ => some s
  | .setNoticeMask s _ _ => some s
  | .clearCorner s _ _ => some s
  | .clearChannel s _ _ => some s
  | .clearSteerFault s _ => some s
  | .swapBank s _ => some s
  | .writeBankRow s _ _ _ _ => some s
  | .writeSetting s _ _ _ _ => some s
  | .writeRegistry s _ _ _ _ _ => some s
  | .start s _ => some s
  | .restart s _ => some s
  | .enterSafe s _ => some s
  | .coldReset => none
  | .canFrameArrival _ => none
  | .canFrameSent => none
  | .answerAbandonTimeout => none
  | .spiSelectAssert => none
  | .spiSelectWithdraw _ => none
  | .broadcastEvent => none
  | .sampleEvent _ _ => none
  | .analogChannelFaulty _ _ => none
  | .analogChannelRecovery _ _ => none
  | .wheelPulseEdge _ _ => none
  | .speedUpdate => none
  | .wheelZeroTimeout _ => none
  | .wheelAgreementRecovery _ => none
  | .settleTimerExpiry => none
  | .driveLineChange _ _ => none
  | .driveLineDebounceExpiry _ => none
  | .refreshDeadlineExpiry _ => none
  | .doorContactChange _ _ => none
  | .doorContactDebounceExpiry _ => none
  | .driveInhReleaseExpiry => none
  | .fblEdge _ => none
  | .fblPhaseTimeout => none
  | .cornerUpdate _ => none
  | .cornerQualified _ => none
  | .actionTimeout _ => none
  | .stallWatchSpan _ => none
  | .brakeUpdate => none
  | .holdConfirmed => none
  | .holdUnconfirmedTimeout => none
  | .holdLost => none
  | .holdRampEnd => none
  | .steeringUpdate => none
  | .disagreementTimeout => none
  | .trackingErrorTimeout => none
  | .centringTimeout => none
  | .blankingEnd _ => none
  | .hardShort _ => none
  | .overCurrentStart _ => none
  | .overCurrentEnd _ => none
  | .qualifyTimeExpiry _ => none
  | .retryExpiry _ => none
  | .cleanTimerExpiry _ => none
  | .diagnosticCheck _ _ => none
  | .temperatureSample _ => none
  | .supplyVoltageSample _ => none
  | .undervoltageGateClose _ => none
  | .undervoltageGateOpen _ => none

/-- The frame of a CAN_FRAME_ARRIVAL. -/
def Instr.frame? : Instr → Option CanFrame
  | .canFrameArrival f => some f
  | _ => none

/-- A command that can be sent: its sender exists, and its frame is a classical CAN frame. Every other operand is in its range
by its type. -/
def Instr.wf (i : Instr) : Bool :=
  (match i.sender? with
    | some s => s.wf
    | none => true)
  && (match i.frame? with
    | some f => f.wf
    | none => true)

end Sys2Proof
end

