-- ==== Sys2Proof/Decode.lean ====
section
/-! DEFINITION. The decoder of the table's words. No row of spec/opcode_table.json gives bits ("n_rows_with_fixed": 0 in
spec/98_reader.md), so no word spells a command. The decoding of request frames (section 10.3, R177) is Machine/Link.lean. -/

namespace Sys2Proof

/-- No row of the table has bits, so there is no word that spells a command. -/
def decodeTableWord (_nbits _w : Nat) : Option Instr := none

end Sys2Proof
end

