-- ==== Sys2Proof/Config.lean ====
section
/-! DEFINITION. What an implementation fixes and the manual does not: the free values. -/

namespace Sys2Proof

/-- FREE VALUE (DESIGN CHOICE, log 7, safe). The quotient of R6 when the effective period is 0 microseconds: R6 states no
result there. The argument is the model's counter `fresh`. -/
opaque Config.wheelSpeedAtZeroPeriod : Nat → Nat

/-- FREE VALUE (DESIGN CHOICE, log 8, safe). What READ_AXLE reports as the blended share while there is none (R137, R138): the
layout of section 10.5.3 gives no mark for it. The argument is the model's counter `fresh`. -/
opaque Config.unformedBlendedShare : Nat → Nat

end Sys2Proof
end

