-- ==== Sys2Proof/Machine/State.lean ====
section
/-! DEFINITION. The state of the block: every register, queue, counter, mark and pin the manual gives it, as plain data, and the
state after a cold reset. Times are microseconds of the model's clock `now` (log 2). A timer that the rules start, and that runs
by the clock, is held as the instant it started or falls due; a timer that the rules let grow by an update's period is a number
of milliseconds. -/

namespace Sys2Proof.Machine

/-! ## CFG -/

/-- R183. -/
inductive DeviceState where
  | config
  | run
  | safe
  deriving DecidableEq, Repr

/-- The bank mode, setting 20 (R155). -/
inductive BankMode where
  | fixedA
  | fixedB
  | follow
  deriving DecidableEq, Repr

/-- The settings of section 11.2, in the order of their numbers. The curb side is RIGHT when `curbRight`. -/
structure Settings where
  threshold : Nat
  band      : Nat
  doorCount : Nat
  curbRight : Bool
  ppm       : Vector Nat 4
  offset    : Vector Nat 21
  gain      : Vector Int 21
  low       : Vector Nat 21
  high      : Vector Nat 21
  halfWidth : Vector Nat 6
  stopLevel : Vector Nat 6
  area      : Vector Nat 3
  unsprung  : Vector Nat 3
  share     : Vector Nat 3
  weight    : Nat
  doorHold  : Nat
  curbGuard : Nat
  rateGain  : Nat
  reqBase   : Nat
  ansBase   : Nat
  bankMode  : BankMode
  deriving DecidableEq, Repr

structure Cfg where
  device   : DeviceState
  settings : Settings
  deriving DecidableEq, Repr

/-! ## ILT -/

/-- The eight kinds (section 2.4), in the order of their codes (section 10.5.1). -/
inductive Kind where
  | doorOpen
  | rampOut
  | kneel
  | stopHold
  | raise
  | steerCentre
  | serviceLock
  | override
  deriving DecidableEq, Repr

/-- What an entry applies to (R26). Door n is `door (n - 1)`; `target` holds a handle. -/
inductive Scope where
  | door (d : Fin 4)
  | curb
  | full
  | vehicle
  | target (handle : Nat)
  deriving DecidableEq, Repr

/-- The four states of an entry (section 2.5). -/
inductive EntryState where
  | waiting
  | active
  | stale
  | covered
  deriving DecidableEq, Repr

/-- The refresh deadline (R31): none; counting down to the instant `due`; or stopped with time remaining (R41), which is 0 once
it has run out. -/
inductive Deadline where
  | none
  | running (due : Nat)
  | stopped (remaining : Nat)
  deriving DecidableEq, Repr

/-- An entry (section 2.3, R23). `underlying` is true when the activation condition held at its last evaluation. -/
structure Entry where
  handle     : Nat
  kind       : Kind
  owner      : Fin 16
  authority  : Nat
  scope      : Scope
  parameter  : Option Nat
  state      : EntryState
  underlying : Bool
  deadline   : Deadline
  coveredBy  : Option Nat
  deriving DecidableEq, Repr

/-- A slot of the table (section 2.1). -/
structure Slot where
  generation : Fin 8
  entry      : Option Entry
  deriving DecidableEq, Repr

/-- A record of the partner registry (R45). The port follows from the number. `permitted` holds kind n at bit n; the window is
in milliseconds. -/
structure PartnerRecord where
  enabled   : Bool
  authority : Nat
  permitted : BitVec 8
  window    : Nat
  deriving DecidableEq, Repr

/-- `contacts` is the debounced contact state that ILT last took from DSV (R53), true for CLOSED. -/
structure Ilt where
  slots    : Vector Slot 24
  order    : List (Fin 24)
  registry : Vector PartnerRecord 16
  contacts : Vector Bool 4
  deriving DecidableEq, Repr

/-- Why the part retires an entry (R36), in the order of section 10.5.4. -/
inductive RetireReason where
  | speed
  | stale
  | targetRevived
  | targetGone
  | contactOpen
  | causeCleared
  deriving DecidableEq, Repr

/-- What a hand-off from ILT is about (R23, R24, R29, R30, R56). -/
inductive EntryEvent where
  | opened
  | retired
  | changed
  deriving DecidableEq, Repr

/-! ## MOT -/

/-- R2; the order is that of section 10.5.1. -/
inductive Validity where
  | valid
  | held
  | faulty
  deriving DecidableEq, Repr

/-- The record of an analog channel (section 1.1). `lastSample` is the instant of its last sample event. -/
structure AnalogChannel where
  raw        : BitVec 12
  value      : Int
  validity   : Validity
  bad        : Nat
  good       : Nat
  lastSample : Nat
  deriving DecidableEq, Repr

/-- The record of a wheel channel (section 1.2). The validity is FAULTY when `faulty`. -/
structure WheelChannel where
  period         : Option Nat
  lastEdge       : Option Nat
  speed          : Nat
  direction      : Direction
  tally          : Int
  faulty         : Bool
  zeroTimer      : Nat
  agreementTimer : Nat
  deriving DecidableEq, Repr

/-- A debounced input: the level the line stands at, the debounced level, and the instant since which the line stands at its
level (R14, R66). -/
structure InputLine where
  level     : Bool
  debounced : Bool
  since     : Nat
  deriving DecidableEq, Repr

/-- R15. -/
inductive MotionState where
  | unknown
  | rolling
  | settling
  | standstill
  deriving DecidableEq, Repr

/-- The selected direction (R14). -/
inductive Selected where
  | forward
  | reverse
  | neutral
  deriving DecidableEq, Repr

/-- `speed` is the vehicle speed, absent while INVALID (R10). -/
structure Mot where
  analog      : Vector AnalogChannel 21
  wheels      : Vector WheelChannel 4
  speed       : Option Nat
  direction   : Direction
  counter     : BitVec 32
  residue     : Fraction
  selFwd      : InputLine
  selRev      : InputLine
  driveReq    : InputLine
  motion      : MotionState
  settleTimer : Nat
  armed       : Bool
  reference   : BitVec 32
  lastUpdate  : Nat
  deriving DecidableEq, Repr

/-! ## DSV -/

/-- R68, R72; the order is that of section 10.5.1. -/
inductive Supervision where
  | dormant
  | shut
  | authorised
  | unclaimed
  | resettable
  deriving DecidableEq, Repr

/-- A door input: its contact (the debounced level is CLOSED when true), its supervision state, the handle of its SELF
DOOR_OPEN, and its release line DOOR_RELn. -/
structure Door where
  contact     : InputLine
  supervision : Supervision
  selfHandle  : Option Nat
  release     : Bool
  deriving DecidableEq, Repr

/-- The drive-inhibit cause set (R75). -/
structure InhibitCauses where
  notRun      : Bool
  doorEntry   : Bool
  contactOpen : Bool
  service     : Bool
  curbLow     : Bool
  deriving DecidableEq, Repr

/-- The drive-inhibit machine (R76); RELEASING holds the instant at which its 300 ms run out. -/
inductive InhibitMachine where
  | inhibited
  | releasing (due : Nat)
  | free
  deriving DecidableEq, Repr

/-- The states of the fallback decoder (R78). -/
inductive FblState where
  | idle
  | start
  | gap
  | pulse
  | space
  | recover
  deriving DecidableEq, Repr

/-- The phases of a malformed train, in the order of section 10.5.4. -/
inductive FblPhase where
  | start
  | gap
  | pulse
  | space
  | count
  deriving DecidableEq, Repr

/-- The fallback decoder: the line's level (true for high), the state, the instant its phase timer started, and N. -/
structure Fbl where
  level : Bool
  state : FblState
  since : Nat
  count : Nat
  deriving DecidableEq, Repr

structure Dsv where
  doors   : Vector Door 4
  causes  : InhibitCauses
  machine : InhibitMachine
  fbl     : Fbl
  deriving DecidableEq, Repr

/-! ## CRN -/

/-- Section 5.3; the order is that of section 10.5.1. -/
inductive CornerState where
  | inBand
  | fillWait
  | filling
  | exhausting
  | holding
  | fault
  deriving DecidableEq, Repr

/-- Section 5.6; the order is that of section 10.5.1. -/
inductive FreezeReason where
  | ramp
  | service
  | config
  | artic
  | brake
  | valvesOff
  | stall
  | supply
  deriving DecidableEq, Repr

/-- The set of freeze reasons of a corner (R94). -/
structure FreezeSet where
  ramp      : Bool
  service   : Bool
  config    : Bool
  artic     : Bool
  brake     : Bool
  valvesOff : Bool
  stall     : Bool
  supply    : Bool
  deriving DecidableEq, Repr

/-- R97; the order is that of section 10.5.1, after "none". -/
inductive CornerFault where
  | heightSensor
  | fillValve
  | exhaustValve
  | fillTimeout
  | exhaustTimeout
  deriving DecidableEq, Repr

/-- The qualify side (R86). -/
inductive Side where
  | none
  | low
  | high
  deriving DecidableEq, Repr

/-- The record of a corner (section 5.1); d and k are settings. -/
structure Corner where
  measured     : Int
  target       : Int
  state        : CornerState
  reasons      : FreezeSet
  side         : Side
  qualifyTimer : Nat
  actionTimer  : Nat
  fault        : Option CornerFault
  load         : Nat
  loadValid    : Bool
  lastUpdate   : Nat
  deriving DecidableEq, Repr

/-- An axle load (R101). -/
structure AxleLoad where
  load  : Nat
  valid : Bool
  deriving DecidableEq, Repr

structure Crn where
  corners  : Vector Corner 6
  queue    : List (Fin 6)
  gateOpen : Bool
  axles    : Vector AxleLoad 3
  deriving DecidableEq, Repr

/-! ## RLU -/

/-- R107. -/
inductive KneelState where
  | level
  | lowering
  | kneeled
  | raising
  | stalled
  deriving DecidableEq, Repr

/-- A corner's stall watch and its STALL mark (R109, R110). -/
structure StallWatch where
  running   : Bool
  reference : Int
  timer     : Nat
  mark      : Bool
  deriving DecidableEq, Repr

structure Rlu where
  ride       : Nat
  kneel      : Vector Nat 6
  held       : Bool
  targets    : Vector Int 6
  kneelState : KneelState
  watches    : Vector StallWatch 6
  curbLow    : Bool
  deriving DecidableEq, Repr

/-! ## BRK -/

/-- Section 7.4. -/
inductive HoldState where
  | released
  | applying
  | held
  | waitDrive
  | ramping
  deriving DecidableEq, Repr

/-- The record of an axle (chapter 7). `demand` is the demand in force; `demandAtUpdate`, the measured pressure and its channel's
validity stand as the last brake update left them (R138). -/
structure AxleBrake where
  loadShare      : Option Nat
  blended        : Option Nat
  demand         : Nat
  demandAtUpdate : Nat
  measured       : Int
  validity       : Validity
  deriving DecidableEq, Repr

structure Brk where
  driver            : Nat
  base              : Nat
  axles             : Vector AxleBrake 3
  hold              : HoldState
  target            : Nat
  confirmed         : Bool
  confirmTimer      : Nat
  lossTimer         : Nat
  unconfirmed       : Nat
  unconfirmedPosted : Bool
  doorSeen          : Bool
  windowOpen        : Bool
  windowRef         : BitVec 32
  selfHandle        : Option Nat
  lastUpdate        : Nat
  deriving DecidableEq, Repr

/-- Why HOLD_UNCONFIRMED is posted (R124, R125). -/
inductive UnconfirmedCause where
  | timeout
  | lost
  deriving DecidableEq, Repr

/-! ## STC -/

/-- Section 8.4. -/
inductive SteerState where
  | parked
  | frozen
  | tracking
  | centring
  | locked
  | passive
  deriving DecidableEq, Repr

/-- The causes of the fault latch (R141), in the order of section 10.5.1 after "none". -/
inductive LatchCause where
  | artASensor
  | artBSensor
  | frontSensor
  | actuatorSensor
  | disagree
  | speedInvalid
  | trackingError
  | lockChannel
  | centringTimeout
  deriving DecidableEq, Repr

inductive BankId where
  | a
  | b
  deriving DecidableEq, Repr

/-- A row of a calibration bank (R154). -/
structure Row where
  v      : Int
  gArt   : Int
  gFront : Int
  lim    : Int
  slew   : Int
  damp   : Int
  deriving DecidableEq, Repr

structure Bank where
  count : Nat
  rows  : Vector Row 16
  deriving DecidableEq, Repr

/-- The schedule values in use (R144). -/
structure Schedule where
  gArt   : Int
  gFront : Int
  lim    : Int
  slew   : Int
  damp   : Int
  deriving DecidableEq, Repr

/-- The fields that READ_STEER COMMAND reports, as they stood at the last steering update (R159). -/
structure SteerReport where
  state      : SteerState
  command    : Int
  delta3     : Int
  gamma      : Int
  delta1     : Int
  lower      : Int
  upper      : Int
  damper     : Nat
  jointLimit : Bool
  windowOpen : Bool
  deriving DecidableEq, Repr

structure Stc where
  state         : SteerState
  command       : Int
  lower         : Int
  upper         : Int
  schedule      : Option Schedule
  gamma         : Int
  gammaFormed   : Bool
  prevGamma     : Option Int
  delta1        : Int
  delta3        : Int
  latch         : Option LatchCause
  selfHandle    : Option Nat
  disagreeTimer : Nat
  trackTimer    : Nat
  centringTimer : Nat
  damper        : Nat
  jointLimit    : Bool
  windowOpen    : Bool
  bankA         : Bank
  bankB         : Bank
  inUse         : BankId
  pendingSwap   : Option BankId
  report        : SteerReport
  lastUpdate    : Nat
  deriving DecidableEq, Repr

/-! ## VDA -/

/-- Section 9.2; the order is that of section 10.5.1. -/
inductive ChannelState where
  | off
  | blanking
  | on
  | qualifying
  | tripped
  | lockedOut
  | openLoad
  | disabled
  deriving DecidableEq, Repr

/-- The record of a valve channel (R161). An on/off channel is commanded on by any value above 0. A timer is absent while it is
stopped at 0 and otherwise the instant it started. `overCurrent` is the comparator of R161 (a pin, log 23). -/
structure Channel where
  command      : Nat
  state        : ChannelState
  thermal      : Bool
  undervoltage : Bool
  trips        : Nat
  series       : Option Nat
  blanking     : Option Nat
  qualify      : Option Nat
  retry        : Option Nat
  clean        : Option Nat
  overCurrent  : Bool
  lastCheck    : Nat
  deriving DecidableEq, Repr

/-- `thermalClosed` and `underClosed` are the two group gates; `lows` and `highs` the sample counts of R169. -/
structure Vda where
  channels      : Vector Channel 18
  thermalClosed : Bool
  underClosed   : Bool
  lows          : Nat
  highs         : Nat
  lastTemp      : Nat
  lastSupply    : Nat
  deriving DecidableEq, Repr

/-! ## LNK -/

/-- Where a CHANNEL_FAULT comes from (section 10.5.4). -/
inductive FaultSource where
  | analog
  | wheel
  | valve
  deriving DecidableEq, Repr

/-- The state that a CHANNEL_FAULT reports. -/
inductive FaultKind where
  | faulty
  | lockedOut
  | openLoad
  deriving DecidableEq, Repr

/-- The cause that a SUPPLY notice reports. -/
inductive SupplyCause where
  | reservoir
  | thermal
  | undervoltage
  deriving DecidableEq, Repr

/-- A notice event with its detail (section 10.5.4): one constructor per flag, in the order of section 10.5.1. FALLBACK has two,
for its two forms. -/
inductive Notice where
  | staleEntry (handle : Nat)
  | partRetired (handle : Nat) (reason : RetireReason)
  | doorUnclaimed (door : Fin 4) (handle : Option Nat)
  | holdUnconfirmed (cause : UnconfirmedCause) (target : Nat) (a2 a3 : Int)
  | rollbackHold (direction : Selected) (handle : Option Nat)
  | cornerFault (corner : Fin 6) (reason : CornerFault)
  | kneelStall (corner : Fin 6) (offset : Nat) (height : Int)
  | steerFault (cause : LatchCause) (state : SteerState) (handle : Option Nat)
  | jointLimit (gamma : Int)
  | channelFault (source : FaultSource) (number : Nat) (kind : FaultKind) (trips : Nat)
  | supply (cause : SupplyCause) (value : Int)
  | bankSwapped (bank : BankId) (taken : Bool)
  | linkOverrun (partner : Nat)
  | fallbackMalformed (phase : FblPhase) (count : Nat)
  | fallbackRefused (command code detail : Nat)
  deriving DecidableEq, Repr

/-- A notice flag: the raw flag, its repeated marker, its first-cause record (R180). -/
structure NoticeFlag where
  raised   : Bool
  repeated : Bool
  record   : Option Notice
  deriving DecidableEq, Repr

/-- A frame in a transmit buffer. -/
structure TxFrame where
  identifier : Nat
  content    : Content
  deriving DecidableEq, Repr

/-- The answer buffer's frame and the instant it was placed (R175). -/
structure PendingAnswer where
  frame    : TxFrame
  placedAt : Nat
  deriving DecidableEq, Repr

/-- A frame of the input queue with its partner number (R174). -/
structure QueuedFrame where
  partner : Nat
  content : Content
  deriving DecidableEq, Repr

/-- `shifting` holds the nine bytes of the transaction in progress (R176); `onBus` is the frame last sent (log 16). -/
structure Lnk where
  queue         : List QueuedFrame
  answer        : Option PendingAnswer
  broadcast     : Option TxFrame
  steering      : Option TxFrame
  onBus         : Option TxFrame
  slot          : Content
  shifting      : Option (List Byte)
  rotation      : Nat
  steerCount    : Byte
  notices       : Vector NoticeFlag 14
  mask          : BitVec 14
  attn          : Bool
  lastBroadcast : Nat
  deriving DecidableEq, Repr

/-! ## The answers that owners return to LNK -/

/-- The refusal codes of section 10.5.1. -/
inductive RefusalCode where
  | unknownPartner
  | notReady
  | kindNotPermitted
  | authority
  | badScope
  | condition
  | duplicate
  | conflict
  | tableFull
  | staleHandle
  | entryStale
  | notOwner
  | notClearable
  | requestInvalid
  | configOnly
  | bankActive
  | bankPending
  | bankFixed
  | bankInvalid
  | startInvalid
  | frameError
  | noAnswer
  deriving DecidableEq, Repr

/-- The sub-reasons of section 10.5.1. -/
inductive SubReason where
  | none
  | speed
  | speedInvalid
  | notStandstill
  | rampPresent
  | serviceLock
  | contactOpen
  | targetInvalid
  | targetCovered
  | ownerOnly
  | authorityRank
  | notStale
  | disagree
  | artASensor
  | artBSensor
  | frontSensor
  | actuatorSensor
  | heightSensor
  | fillValve
  | exhaustValve
  deriving DecidableEq, Repr

/-- The answer flags of byte 4 (section 10.5.1). -/
structure AnswerFlags where
  clamped    : Bool
  revived    : Bool
  cancelled  : Bool
  noDeadline : Bool
  deriving DecidableEq, Repr

/-- The outcome of a request (R178). -/
inductive Answer where
  | accepted (handle : Option Nat) (entry : Option EntryState) (flags : AnswerFlags) (d5 d6 d7 : Nat)
  | body (bits : BitVec 48)
  | refused (code : RefusalCode) (handle : Option Nat) (sub : SubReason) (d5 d6 : Nat)
  deriving DecidableEq, Repr

/-! ## The whole state -/

/-- `pending` is the queue of commands, first in first out (log 1); `now` the clock in microseconds (log 2); `fresh` the
MODEL's own counter that indexes free values (logs 7 and 8). -/
structure State where
  pending : List Instr
  now     : Nat
  fresh   : Nat
  cfg     : Cfg
  lnk     : Lnk
  ilt     : Ilt
  mot     : Mot
  dsv     : Dsv
  crn     : Crn
  rlu     : Rlu
  brk     : Brk
  stc     : Stc
  vda     : Vda
  deriving DecidableEq, Repr

/-- The reasons a command can stop the block. There is none: no rule of the manual stops the part, and every fault of a sensor, a
corner, a valve or the steering is state. Nothing raises a constructor of this type, which is safe. -/
inductive Fault where
  deriving DecidableEq, Repr

/-- The reasons the model answers no state. -/
inductive Refusal where
  /-- Raised by an arm of exec whose command has no meaning yet, by the row's mnemonic. No arm does so now. Safe: the model stops
  where the block goes on. -/
  | notModelled (mnemonic : String)
  deriving DecidableEq, Repr

/-! ## The state after a reset

Each block's values after a reset taken at the instant `now`. Pins are not moved by a reset, so they are arguments (log 5). -/

/-- The defaults of section 11.2 (R185). -/
def Settings.default : Settings where
  threshold := 5
  band := 1
  doorCount := 0
  curbRight := true
  ppm := Vector.replicate 4 100
  offset := Vector.replicate 21 0
  gain := Vector.replicate 21 0
  low := Vector.replicate 21 100
  high := Vector.replicate 21 3995
  halfWidth := Vector.replicate 6 10
  stopLevel := Vector.replicate 6 2
  area := Vector.replicate 3 80
  unsprung := Vector.replicate 3 800
  share := wr (Vector.replicate 3 300) 1 400
  weight := 32
  doorHold := 300
  curbGuard := 10
  rateGain := 20
  reqBase := 1280
  ansBase := 768
  bankMode := .follow

/-- R46: records 1 to 13 at a cold reset; R45: the fixed records 0, 14 and 15. Bits 2, 3 and 5 are KNEEL, STOP_HOLD and
STEER_CENTRE. -/
def PartnerRecord.default (p : Fin 16) : PartnerRecord :=
  if p = 0 ∨ p = 15 then { enabled := true, authority := 0, permitted := 0xFF, window := 0 }
  else if p = 14 then { enabled := true, authority := 1, permitted := 0x2C, window := 0 }
  else { enabled := false, authority := 3, permitted := 0, window := 0 }

/-- R20, R22, R42, R46, R53 after a cold reset. -/
def Ilt.initial : Ilt where
  slots := Vector.replicate 24 { generation := 0, entry := none }
  order := []
  registry := Vector.ofFn PartnerRecord.default
  contacts := Vector.replicate 4 false

/-- R4. -/
def AnalogChannel.initial (now : Nat) : AnalogChannel where
  raw := 0
  value := 0
  validity := .held
  bad := 0
  good := 0
  lastSample := now

/-- R9. -/
def WheelChannel.initial : WheelChannel where
  period := none
  lastEdge := none
  speed := 0
  direction := .forward
  tally := 0
  faulty := false
  zeroTimer := 0
  agreementTimer := 0

/-- A debounced input after a reset: the debounced level given, the pin's own level, its time counted from the reset (R14, R67). -/
def InputLine.initial (now : Nat) (debounced level : Bool) : InputLine where
  level := level
  debounced := debounced
  since := now

/-- Section 1.8; the reference of the disarmed rollback measurement is DESIGN CHOICE 0 (log 6). -/
def Mot.initial (now : Nat) (selFwd selRev driveReq : Bool) : Mot where
  analog := Vector.replicate 21 (AnalogChannel.initial now)
  wheels := Vector.replicate 4 WheelChannel.initial
  speed := none
  direction := .forward
  counter := 0
  residue := { num := 0, den := 1 }
  selFwd := InputLine.initial now false selFwd
  selRev := InputLine.initial now false selRev
  driveReq := InputLine.initial now false driveReq
  motion := .unknown
  settleTimer := 0
  armed := false
  reference := 0
  lastUpdate := now

/-- R83: IDLE, but a line that is low at the reset is met as a low already begun, so START is entered at the reset. -/
def Fbl.initial (now : Nat) (level : Bool) : Fbl where
  level := level
  state := if level then .idle else .start
  since := now
  count := 0

/-- Section 4.6; CONTACT_OPEN stands when a door is fitted, since every contact starts OPEN (R77). -/
def Dsv.initial (now doorCount : Nat) (contacts : Vector Bool 4) (fbl : Bool) : Dsv where
  doors := mapF contacts fun _ level =>
    { contact := InputLine.initial now false level, supervision := .dormant, selfHandle := none, release := false }
  causes := { notRun := true, doorEntry := false, contactOpen := decide (0 < doorCount), service := false, curbLow := false }
  machine := .inhibited
  fbl := Fbl.initial now fbl

/-- The empty set of freeze reasons. -/
def FreezeSet.empty : FreezeSet where
  ramp := false
  service := false
  config := false
  artic := false
  brake := false
  valvesOff := false
  stall := false
  supply := false

/-- Section 5.12; heights and loads are DESIGN CHOICE 0 until the first corner update (log 6). -/
def Corner.initial (now : Nat) : Corner where
  measured := 0
  target := 0
  state := .holding
  reasons := { FreezeSet.empty with config := true }
  side := .none
  qualifyTimer := 0
  actionTimer := 0
  fault := none
  load := 0
  loadValid := false
  lastUpdate := now

/-- R91, R93, R99, R101. -/
def Crn.initial (now : Nat) : Crn where
  corners := Vector.replicate 6 (Corner.initial now)
  queue := []
  gateOpen := false
  axles := Vector.replicate 3 { load := 0, valid := false }

/-- R115. -/
def Rlu.initial : Rlu where
  ride := 0
  kneel := Vector.replicate 6 0
  held := false
  targets := Vector.replicate 6 0
  kneelState := .level
  watches := Vector.replicate 6 { running := false, reference := 0, timer := 0, mark := false }
  curbLow := false

/-- R137; the measured pressures are DESIGN CHOICE 0, HELD (log 6). -/
def Brk.initial (now : Nat) : Brk where
  driver := 0
  base := 0
  axles := Vector.replicate 3
    { loadShare := none, blended := none, demand := 0, demandAtUpdate := 0, measured := 0, validity := .held }
  hold := .released
  target := 0
  confirmed := false
  confirmTimer := 0
  lossTimer := 0
  unconfirmed := 0
  unconfirmedPosted := false
  doorSeen := false
  windowOpen := false
  windowRef := 0
  selfHandle := none
  lastUpdate := now

/-- R154. -/
def Bank.initial : Bank where
  count := 0
  rows := Vector.replicate 16 { v := 0, gArt := 0, gFront := 0, lim := 0, slew := 1, damp := 0 }

/-- The reported fields before the first steering update (log 6). -/
def SteerReport.initial : SteerReport where
  state := .parked
  command := 0
  delta3 := 0
  gamma := 0
  delta1 := 0
  lower := 0
  upper := 0
  damper := 1000
  jointLimit := false
  windowOpen := false

/-- R160. A warm restart keeps the banks and the bank in use. -/
def Stc.initial (now : Nat) (bankA bankB : Bank) (inUse : BankId) : Stc where
  state := .parked
  command := 0
  lower := 0
  upper := 0
  schedule := none
  gamma := 0
  gammaFormed := false
  prevGamma := none
  delta1 := 0
  delta3 := 0
  latch := none
  selfHandle := none
  disagreeTimer := 0
  trackTimer := 0
  centringTimer := 0
  damper := 1000
  jointLimit := false
  windowOpen := false
  bankA := bankA
  bankB := bankB
  inUse := inUse
  pendingSwap := none
  report := SteerReport.initial
  lastUpdate := now

/-- R173. -/
def Channel.initial (now : Nat) (overCurrent : Bool) : Channel where
  command := 0
  state := .off
  thermal := false
  undervoltage := false
  trips := 0
  series := none
  blanking := none
  qualify := none
  retry := none
  clean := none
  overCurrent := overCurrent
  lastCheck := now

/-- R173. -/
def Vda.initial (now : Nat) (overCurrent : Vector Bool 18) : Vda where
  channels := mapF overCurrent fun _ o => Channel.initial now o
  thermalClosed := false
  underClosed := false
  lows := 0
  highs := 0
  lastTemp := now
  lastSupply := now

/-- The NO_ANSWER answer with tag 0 (R176): code 31, and 255 for no handle (R178). -/
def Content.noAnswer : Content :=
  { b0 := 31, b1 := 0, b2 := 255, b3 := 0, b4 := 0, b5 := 0, b6 := 0, b7 := 0 }

/-- R182. -/
def Lnk.initial (now : Nat) (mask : BitVec 14) (onBus : Option TxFrame) : Lnk where
  queue := []
  answer := none
  broadcast := none
  steering := none
  onBus := onBus
  slot := Content.noAnswer
  shifting := none
  rotation := 0
  steerCount := 0
  notices := Vector.replicate 14 { raised := false, repeated := false, record := none }
  mask := mask
  attn := false
  lastBroadcast := now

/-- The block right after a cold reset, with its inputs at their idle levels (section 7 of 00_scope.md; log 5). -/
def State.reset : State where
  pending := []
  now := 0
  fresh := 0
  cfg := { device := .config, settings := Settings.default }
  lnk := Lnk.initial 0 (BitVec.allOnes 14) none
  ilt := Ilt.initial
  mot := Mot.initial 0 false false false
  dsv := Dsv.initial 0 0 (Vector.replicate 4 true) true
  crn := Crn.initial 0
  rlu := Rlu.initial
  brk := Brk.initial 0
  stc := Stc.initial 0 Bank.initial Bank.initial .a
  vda := Vda.initial 0 (Vector.replicate 18 false)

/-! ## One update for each block's part of the state -/

def State.modLnk (s : State) (f : Lnk → Lnk) : State := { s with lnk := f s.lnk }
def State.modIlt (s : State) (f : Ilt → Ilt) : State := { s with ilt := f s.ilt }
def State.modMot (s : State) (f : Mot → Mot) : State := { s with mot := f s.mot }
def State.modDsv (s : State) (f : Dsv → Dsv) : State := { s with dsv := f s.dsv }
def State.modCrn (s : State) (f : Crn → Crn) : State := { s with crn := f s.crn }
def State.modRlu (s : State) (f : Rlu → Rlu) : State := { s with rlu := f s.rlu }
def State.modBrk (s : State) (f : Brk → Brk) : State := { s with brk := f s.brk }
def State.modStc (s : State) (f : Stc → Stc) : State := { s with stc := f s.stc }
def State.modVda (s : State) (f : Vda → Vda) : State := { s with vda := f s.vda }
def State.modCfg (s : State) (f : Cfg → Cfg) : State := { s with cfg := f s.cfg }

end Sys2Proof.Machine
end

