-- ==== Sys2Proof/Machine/Flags.lean ====
section
/-! DEFINITION. The notice flags and ATTN (section 10.7). -/

namespace Sys2Proof.Machine

/-- The flag that a notice names, in the order of section 10.5.1. -/
def Notice.flag : Notice → Fin 14
  | .staleEntry _ => 0
  | .partRetired _ _ => 1
  | .doorUnclaimed _ _ => 2
  | .holdUnconfirmed _ _ _ _ => 3
  | .rollbackHold _ _ => 4
  | .cornerFault _ _ => 5
  | .kneelStall _ _ _ => 6
  | .steerFault _ _ _ => 7
  | .jointLimit _ => 8
  | .channelFault _ _ _ _ => 9
  | .supply _ _ => 10
  | .bankSwapped _ _ => 11
  | .linkOverrun _ => 12
  | .fallbackMalformed _ _ => 13
  | .fallbackRefused _ _ _ => 13

/-- A clear flag: no repeated marker, no record (R181). -/
def NoticeFlag.clear : NoticeFlag where
  raised := false
  repeated := false
  record := none

/-- R180: a clear flag is set and latches the record; a set one is marked repeated and keeps its record. -/
def NoticeFlag.take (n : Notice) (f : NoticeFlag) : NoticeFlag :=
  if f.raised then { f with repeated := true } else { raised := true, repeated := false, record := some n }

/-- R181: ATTN is asserted while at least one flag is both set and enabled. -/
def attnFor (notices : Vector NoticeFlag 14) (mask : BitVec 14) : Bool :=
  (List.finRange 14).any fun i => (rd notices i).raised && mask.getLsbD i.val

/-- Judge ATTN (R181). -/
def Lnk.judgeAttn (l : Lnk) : Lnk := { l with attn := attnFor l.notices l.mask }

/-- Post a notice event to LNK (R180). -/
def State.post (n : Notice) (s : State) : State :=
  s.modLnk fun l => { l with notices := upd l.notices n.flag (NoticeFlag.take n) }.judgeAttn

/-- The raw flag set, flag n at bit n. -/
def Lnk.rawFlags (l : Lnk) : Nat :=
  (List.finRange 14).foldl (fun acc i => if (rd l.notices i).raised then acc + 2 ^ i.val else acc) 0

/-- R181: CLEAR_NOTICES clears each flag of the set with its record and its repeated marker. -/
def State.clearFlags (set : Word16) (s : State) : State :=
  s.modLnk fun l =>
    { l with notices := mapF l.notices fun i f => if set.getLsbD i.val then NoticeFlag.clear else f }.judgeAttn

/-- R181: SET_NOTICE_MASK; bits 15 and 14 are not examined (log 24). -/
def State.setMask (mask : Word16) (s : State) : State :=
  s.modLnk fun l => { l with mask := mask.setWidth 14 }.judgeAttn

end Sys2Proof.Machine
end

