-- ==== Sys2Proof/Machine/Operands.lean ====
section
/-! DEFINITION. The forms of operands and answers: codes of named sets (section 10.5.1), ranges, packing of fields into bits, the
CRC of the SPI port, first-cause records, the encoding of answers, the settings table, and exact fractions. -/

namespace Sys2Proof

/-! ## Exact fractions (R12) -/

/-- A fraction in lowest terms. -/
def Fraction.reduce (num : Int) (den : Nat) : Fraction :=
  let g := max 1 (Nat.gcd num.natAbs den)
  { num := num / (g : Int), den := den / g }

/-- The exact sum. -/
def Fraction.add (a b : Fraction) : Fraction :=
  Fraction.reduce (a.num * b.den + b.num * a.den) (a.den * b.den)

/-- The integer part, toward zero. -/
def Fraction.trunc (a : Fraction) : Int := Int.tdiv a.num a.den

/-- What truncation leaves, of the same sign as the fraction. -/
def Fraction.rest (a : Fraction) : Fraction := Fraction.reduce (a.num - a.trunc * a.den) a.den

/-- The 16-bit parameter of a request, most significant byte first. -/
def Content.parameter (c : Content) : Word16 := c.b4 ++ c.b5

end Sys2Proof

namespace Sys2Proof.Machine

/-! ## Numbers -/

/-- "Clamp to a range" (section 5.4 of 00_scope.md), signed. -/
def clampInt (lo hi v : Int) : Int := max lo (min hi v)

/-- Clamp to a range, unsigned. -/
def clampNat (lo hi v : Nat) : Nat := max lo (min hi v)

/-- The two's complement of a signed value in a field of the width given. -/
def signedField (width : Nat) (v : Int) : Nat := (v % (2 ^ width : Nat)).toNat

/-- A Boolean as a one-bit field. -/
def bit (b : Bool) : Nat := if b then 1 else 0

/-- A timer that grows and stays at its bound once it has reached it (log 26). -/
def grow (step bound t : Nat) : Nat := min bound (t + step)

/-! ## Codes (section 10.5.1) -/

def DeviceState.code : DeviceState → Nat
  | .config => 0
  | .run => 1
  | .safe => 2

def MotionState.code : MotionState → Nat
  | .unknown => 0
  | .rolling => 1
  | .settling => 2
  | .standstill => 3

def directionCode : Direction → Nat
  | .forward => 0
  | .reverse => 1

def Selected.code : Selected → Nat
  | .forward => 0
  | .reverse => 1
  | .neutral => 2

def Validity.code : Validity → Nat
  | .valid => 0
  | .held => 1
  | .faulty => 2

def EntryState.code : EntryState → Nat
  | .waiting => 0
  | .active => 1
  | .stale => 2
  | .covered => 3

def Kind.code : Kind → Nat
  | .doorOpen => 0
  | .rampOut => 1
  | .kneel => 2
  | .stopHold => 3
  | .raise => 4
  | .steerCentre => 5
  | .serviceLock => 6
  | .override => 7

/-- The kind that a kind byte names, if it names one of the eight (R49). -/
def Kind.ofCode : Nat → Option Kind
  | 0 => some .doorOpen
  | 1 => some .rampOut
  | 2 => some .kneel
  | 3 => some .stopHold
  | 4 => some .raise
  | 5 => some .steerCentre
  | 6 => some .serviceLock
  | 7 => some .override
  | _ => none

/-- The scope byte; for a target, the code 11. -/
def Scope.code : Scope → Nat
  | .door d => d.val + 1
  | .curb => 8
  | .full => 9
  | .vehicle => 10
  | .target _ => 11

def HoldState.code : HoldState → Nat
  | .released => 0
  | .applying => 1
  | .held => 2
  | .waitDrive => 3
  | .ramping => 4

def KneelState.code : KneelState → Nat
  | .level => 0
  | .lowering => 1
  | .kneeled => 2
  | .raising => 3
  | .stalled => 4

def CornerState.code : CornerState → Nat
  | .inBand => 0
  | .fillWait => 1
  | .filling => 2
  | .exhausting => 3
  | .holding => 4
  | .fault => 5

def FreezeSet.code (f : FreezeSet) : Nat :=
  bit f.ramp + 2 * bit f.service + 4 * bit f.config + 8 * bit f.artic + 16 * bit f.brake + 32 * bit f.valvesOff
    + 64 * bit f.stall + 128 * bit f.supply

/-- The corner fault reasons; 0 is "none". -/
def CornerFault.code : Option CornerFault → Nat
  | none => 0
  | some .heightSensor => 1
  | some .fillValve => 2
  | some .exhaustValve => 3
  | some .fillTimeout => 4
  | some .exhaustTimeout => 5

def SteerState.code : SteerState → Nat
  | .parked => 0
  | .frozen => 1
  | .tracking => 2
  | .centring => 3
  | .locked => 4
  | .passive => 5

/-- The latch causes; 0 is "none". -/
def LatchCause.code : Option LatchCause → Nat
  | none => 0
  | some .artASensor => 1
  | some .artBSensor => 2
  | some .frontSensor => 3
  | some .actuatorSensor => 4
  | some .disagree => 5
  | some .speedInvalid => 6
  | some .trackingError => 7
  | some .lockChannel => 8
  | some .centringTimeout => 9

def BankMode.code : BankMode → Nat
  | .fixedA => 0
  | .fixedB => 1
  | .follow => 2

def BankId.code (x : BankId) : Nat := match x with
  | .a => 0
  | .b => 1

def ChannelState.code : ChannelState → Nat
  | .off => 0
  | .blanking => 1
  | .on => 2
  | .qualifying => 3
  | .tripped => 4
  | .lockedOut => 5
  | .openLoad => 6
  | .disabled => 7

def Supervision.code : Supervision → Nat
  | .dormant => 0
  | .shut => 1
  | .authorised => 2
  | .unclaimed => 3
  | .resettable => 4

def InhibitMachine.code : InhibitMachine → Nat
  | .inhibited => 0
  | .releasing _ => 1
  | .free => 2

def InhibitCauses.code (c : InhibitCauses) : Nat :=
  bit c.notRun + 2 * bit c.doorEntry + 4 * bit c.contactOpen + 8 * bit c.service + 16 * bit c.curbLow

def AnswerFlags.code (f : AnswerFlags) : Nat :=
  bit f.clamped + 2 * bit f.revived + 4 * bit f.cancelled + 8 * bit f.noDeadline

def RefusalCode.code : RefusalCode → Nat
  | .unknownPartner => 1
  | .notReady => 2
  | .kindNotPermitted => 3
  | .authority => 4
  | .badScope => 5
  | .condition => 6
  | .duplicate => 7
  | .conflict => 8
  | .tableFull => 9
  | .staleHandle => 10
  | .entryStale => 11
  | .notOwner => 12
  | .notClearable => 13
  | .requestInvalid => 14
  | .configOnly => 15
  | .bankActive => 16
  | .bankPending => 17
  | .bankFixed => 18
  | .bankInvalid => 19
  | .startInvalid => 20
  | .frameError => 30
  | .noAnswer => 31

def SubReason.code : SubReason → Nat
  | .none => 0
  | .speed => 1
  | .speedInvalid => 2
  | .notStandstill => 3
  | .rampPresent => 4
  | .serviceLock => 5
  | .contactOpen => 6
  | .targetInvalid => 7
  | .targetCovered => 8
  | .ownerOnly => 9
  | .authorityRank => 10
  | .notStale => 11
  | .disagree => 12
  | .artASensor => 13
  | .artBSensor => 14
  | .frontSensor => 15
  | .actuatorSensor => 16
  | .heightSensor => 17
  | .fillValve => 18
  | .exhaustValve => 19

def RetireReason.code : RetireReason → Nat
  | .speed => 0
  | .stale => 1
  | .targetRevived => 2
  | .targetGone => 3
  | .contactOpen => 4
  | .causeCleared => 5

def UnconfirmedCause.code : UnconfirmedCause → Nat
  | .timeout => 0
  | .lost => 1

def FaultSource.code : FaultSource → Nat
  | .analog => 0
  | .wheel => 1
  | .valve => 2

def FaultKind.code : FaultKind → Nat
  | .faulty => 0
  | .lockedOut => 1
  | .openLoad => 2

def SupplyCause.code : SupplyCause → Nat
  | .reservoir => 0
  | .thermal => 1
  | .undervoltage => 2

def FblPhase.code : FblPhase → Nat
  | .start => 0
  | .gap => 1
  | .pulse => 2
  | .space => 3
  | .count => 4

/-! ## Packing (R178) -/

/-- The value of fields (width, value) packed from the most significant bit down. -/
def packNat (fields : List (Nat × Nat)) : Nat :=
  fields.foldl (fun acc f => acc * 2 ^ f.1 + f.2 % 2 ^ f.1) 0

/-- The number of bits that the fields take. -/
def packWidth (fields : List (Nat × Nat)) : Nat := fields.foldl (fun acc f => acc + f.1) 0

/-- Fields packed from the top bit downward with no gaps; the bits left at the end are 0 (R178). -/
def pack (n : Nat) (fields : List (Nat × Nat)) : BitVec n :=
  BitVec.ofNat n (packNat fields * 2 ^ (n - packWidth fields))

/-- The first-cause record of a notice (section 10.5.4). -/
def Notice.bits : Notice → BitVec 32
  | .staleEntry h => pack 32 [(8, h)]
  | .partRetired h r => pack 32 [(8, h), (3, r.code)]
  | .doorUnclaimed d h => pack 32 [(3, d.val + 1), (8, h.getD 255)]
  | .holdUnconfirmed c t a2 a3 => pack 32 [(1, c.code), (9, t), (11, signedField 11 a2), (11, signedField 11 a3)]
  | .rollbackHold d h => pack 32 [(2, d.code), (8, h.getD 255)]
  | .cornerFault c r => pack 32 [(3, c.val), (3, CornerFault.code (some r))]
  | .kneelStall c o m => pack 32 [(3, c.val), (7, o), (10, signedField 10 m)]
  | .steerFault c st h => pack 32 [(4, LatchCause.code (some c)), (3, st.code), (8, h.getD 255)]
  | .jointLimit g => pack 32 [(11, signedField 11 g)]
  | .channelFault src n k t => pack 32 [(2, src.code), (5, n), (2, k.code), (2, t)]
  | .supply c v => pack 32 [(2, c.code), (12, signedField 12 v)]
  | .bankSwapped bank taken => pack 32 [(1, bank.code), (1, bit (!taken))]
  | .linkOverrun p => pack 32 [(4, p)]
  | .fallbackMalformed ph n => pack 32 [(1, 0), (3, ph.code), (4, n)]
  | .fallbackRefused c code d => pack 32 [(1, 1), (3, c), (8, code), (8, d)]

/-! ## Answers (R178, sections 10.5.1 and 10.5.2) -/

/-- No answer flag. -/
def AnswerFlags.none : AnswerFlags where
  clamped := false
  revived := false
  cancelled := false
  noDeadline := false

/-- Only CLAMPED, when it is due. -/
def AnswerFlags.ofClamped (b : Bool) : AnswerFlags := { AnswerFlags.none with clamped := b }

/-- An accepted answer that names no entry. -/
def Answer.ok (flags : AnswerFlags) (d5 d6 : Nat) : Answer := .accepted none none flags d5 d6 0

/-- A refusal by a code alone. -/
def Answer.no (code : RefusalCode) : Answer := .refused code none .none 0 0

/-- A refusal with a sub-reason. -/
def Answer.because (code : RefusalCode) (sub : SubReason) : Answer := .refused code none sub 0 0

/-- A refusal whose detail is one number. -/
def Answer.withDetail (code : RefusalCode) (d5 : Nat) : Answer := .refused code none .none d5 0

/-- The eight content bytes of an answer (R178; log 14 for the bytes of an answer that names no entry). -/
def Answer.encode (tag : Byte) : Answer → Content
  | .accepted h e f d5 d6 d7 =>
    { b0 := 0
      b1 := tag
      b2 := BitVec.ofNat 8 (h.getD 255)
      b3 := BitVec.ofNat 8 ((e.map EntryState.code).getD 255)
      b4 := BitVec.ofNat 8 f.code
      b5 := BitVec.ofNat 8 d5
      b6 := BitVec.ofNat 8 d6
      b7 := BitVec.ofNat 8 d7 }
  | .body bits =>
    { b0 := 0
      b1 := tag
      b2 := bits.extractLsb' 40 8
      b3 := bits.extractLsb' 32 8
      b4 := bits.extractLsb' 24 8
      b5 := bits.extractLsb' 16 8
      b6 := bits.extractLsb' 8 8
      b7 := bits.extractLsb' 0 8 }
  | .refused c h sub d5 d6 =>
    { b0 := BitVec.ofNat 8 c.code
      b1 := tag
      b2 := BitVec.ofNat 8 (h.getD 255)
      b3 := BitVec.ofNat 8 sub.code
      b4 := 0
      b5 := BitVec.ofNat 8 d5
      b6 := BitVec.ofNat 8 d6
      b7 := 0 }

/-! ## Requests (section 10.3) -/

/-- The high byte of a 16-bit field. -/
def hiByte (w : Word16) : Byte := w.extractLsb' 8 8

/-- The low byte of a 16-bit field. -/
def loByte (w : Word16) : Byte := w.extractLsb' 0 8

/-- The eight content bytes of a request of a type, with its fields (section 10.3). -/
def requestBytes (type tag kind scope : Byte) (parameter : Word16) (handle : Byte) : Content where
  b0 := type
  b1 := tag
  b2 := kind
  b3 := scope
  b4 := hiByte parameter
  b5 := loByte parameter
  b6 := handle
  b7 := 0

/-- The content in eight bytes received, if there are eight or more. -/
def contentOf : List Byte → Option Content
  | b0 :: b1 :: b2 :: b3 :: b4 :: b5 :: b6 :: b7 :: _ =>
    some { b0 := b0, b1 := b1, b2 := b2, b3 := b3, b4 := b4, b5 := b5, b6 := b6, b7 := b7 }
  | _ => none

/-! ## CRC-8 of the SPI port (R176) -/

/-- One bit of the CRC with polynomial 0x1D. -/
def crcBit (c : Byte) : Byte := if c.msb then (c <<< 1) ^^^ 0x1D else c <<< 1

/-- One byte of the CRC. -/
def crcByte (c b : Byte) : Byte :=
  crcBit (crcBit (crcBit (crcBit (crcBit (crcBit (crcBit (crcBit (c ^^^ b))))))))

/-- The CRC-8 of R176: initial value 0xFF, final XOR 0xFF, no reflection. -/
def crc8 (bytes : List Byte) : Byte := bytes.foldl crcByte 0xFF ^^^ 0xFF

/-! ## The parameter of an entry (R25, R55) -/

/-- The range and the default of a kind's parameter; none for the five kinds without one (R25). -/
def Kind.parameterRange : Kind → Option (Nat × Nat × Nat)
  | .kneel => some (0, 100, 70)
  | .stopHold => some (150, 500, 300)
  | .raise => some (0, 80, 50)
  | .doorOpen => none
  | .rampOut => none
  | .steerCentre => none
  | .serviceLock => none
  | .override => none

/-- R55: the parameter an entry of the kind takes for the value given, and whether it was clamped. -/
def Kind.fitParameter (k : Kind) (given : Nat) : Option Nat × Bool :=
  match k.parameterRange with
  | none => (none, false)
  | some (lo, hi, dflt) =>
    if given = 65535 then (some dflt, false) else (some (clampNat lo hi given), decide (clampNat lo hi given ≠ given))

/-- The authority that a kind needs (R50). -/
def Kind.neededAuthority : Kind → Nat
  | .doorOpen => 2
  | .rampOut => 2
  | .kneel => 2
  | .stopHold => 2
  | .raise => 2
  | .steerCentre => 1
  | .serviceLock => 0
  | .override => 1

/-! ## The settings table (section 11.2, R184) -/

/-- The band b in 0.1 km/h: level 0 to 3 gives 2, 4, 8, 16. -/
def Settings.bandWidth (c : Settings) : Nat := 2 * 2 ^ c.band

/-- Write one instance of a setting with several, numbered from 0. -/
def writeAt {α : Type} {n : Nat} (v : Vector α n) (place : Nat) (x : α) : Option (Vector α n) :=
  if h : place < n then some (wr v ⟨place, h⟩ x) else none

/-- Write one instance of an axle setting, numbered 1 to 3. -/
def writeAxle (v : Vector Nat 3) (place : Nat) (x : Nat) : Option (Vector Nat 3) :=
  if place = 0 then none else writeAt v (place - 1) x

/-- Write a setting that has instance 0 alone. -/
def writeOne (place : Nat) (c : Settings) : Option Settings := if place = 0 then some c else none

/-- The bank mode of a stored value. -/
def BankMode.ofValue (v : Nat) : BankMode := if v = 0 then .fixedA else if v = 1 then .fixedB else .follow

/-- R184, the table of section 11.2: the settings with one value stored after clamping, and the stored value as it compares with
the value given; none when the number or the instance is not one of the table's. -/
def Settings.write (number place : Nat) (value : Word16) (c : Settings) : Option (Settings × Int) :=
  let u := value.toNat
  let put (lo hi : Nat) (f : Nat → Option Settings) : Option (Settings × Int) :=
    (f (clampNat lo hi u)).map fun c' => (c', ((clampNat lo hi u : Nat) : Int))
  match number with
  | 0 => put 3 10 fun v => writeOne place { c with threshold := v }
  | 1 => put 0 3 fun v => writeOne place { c with band := v }
  | 2 => put 0 4 fun v => writeOne place { c with doorCount := v }
  | 3 => put 0 1 fun v => writeOne place { c with curbRight := decide (v = 1) }
  | 4 => put 20 500 fun v => (writeAt c.ppm place v).map fun x => { c with ppm := x }
  | 5 => put 0 4095 fun v => (writeAt c.offset place v).map fun x => { c with offset := x }
  | 6 =>
    let v := clampInt (-16384) 16384 value.toInt
    (writeAt c.gain place v).map fun x => ({ c with gain := x }, v)
  | 7 => put 0 4095 fun v => (writeAt c.low place v).map fun x => { c with low := x }
  | 8 => put 0 4095 fun v => (writeAt c.high place v).map fun x => { c with high := x }
  | 9 => put 2 63 fun v => (writeAt c.halfWidth place v).map fun x => { c with halfWidth := x }
  | 10 => put 0 3 fun v => (writeAt c.stopLevel place v).map fun x => { c with stopLevel := x }
  | 11 => put 10 400 fun v => (writeAxle c.area place v).map fun x => { c with area := x }
  | 12 => put 0 3000 fun v => (writeAxle c.unsprung place v).map fun x => { c with unsprung := x }
  | 13 => put 100 600 fun v => (writeAxle c.share place v).map fun x => { c with share := x }
  | 14 => put 0 63 fun v => writeOne place { c with weight := v }
  | 15 => put 150 500 fun v => writeOne place { c with doorHold := v }
  | 16 => put 0 50 fun v => writeOne place { c with curbGuard := v }
  | 17 => put 0 100 fun v => writeOne place { c with rateGain := v }
  | 18 => put 1024 2034 fun v => writeOne place { c with reqBase := v }
  | 19 => put 0 1008 fun v => writeOne place { c with ansBase := v }
  | 20 => put 0 2 fun v => writeOne place { c with bankMode := BankMode.ofValue v }
  | _ => none

/-- The value given to WRITE_SETTING, signed for setting 6 (R184). -/
def givenSetting (number : Nat) (value : Word16) : Int := if number = 6 then value.toInt else (value.toNat : Int)

/-- Whether every place of a register file lies in a range. -/
def allIn {n : Nat} (lo hi : Nat) (v : Vector Nat n) : Bool :=
  (List.finRange n).all fun i => decide (lo ≤ rd v i ∧ rd v i ≤ hi)

/-- R186, validation check 4: every setting lies in its range (section 11.2). -/
def Settings.inRange (c : Settings) : Bool :=
  decide (3 ≤ c.threshold ∧ c.threshold ≤ 10) && decide (c.band ≤ 3) && decide (c.doorCount ≤ 4)
    && allIn 20 500 c.ppm && allIn 0 4095 c.offset
    && ((List.finRange 21).all fun i => decide (-16384 ≤ rd c.gain i ∧ rd c.gain i ≤ 16384))
    && allIn 0 4095 c.low && allIn 0 4095 c.high && allIn 2 63 c.halfWidth && allIn 0 3 c.stopLevel
    && allIn 10 400 c.area && allIn 0 3000 c.unsprung && allIn 100 600 c.share
    && decide (c.weight ≤ 63) && decide (150 ≤ c.doorHold ∧ c.doorHold ≤ 500) && decide (c.curbGuard ≤ 50)
    && decide (c.rateGain ≤ 100) && decide (1024 ≤ c.reqBase ∧ c.reqBase ≤ 2034) && decide (c.ansBase ≤ 1008)

/-- The sum of the three static shares (R118, R186). -/
def Settings.shareSum (c : Settings) : Nat := rd c.share 0 + rd c.share 1 + rd c.share 2

/-! ## Calibration banks (R154, R156) -/

/-- Whether v strictly increases over the rows 0 to n, as far as row n is below the count. -/
def Bank.ascends (b : Bank) : Bool :=
  (List.finRange 15).all fun i =>
    decide (b.count ≤ i.val + 1) || decide ((rd b.rows i.castSucc).v < (rd b.rows i.succ).v)

/-- R154: VALID. -/
def Bank.valid (b : Bank) : Bool :=
  decide (2 ≤ b.count ∧ b.count ≤ 16) && decide ((rd b.rows 0).v = 0) && b.ascends

/-- R156: one field of a row written, brought into its range (R154), with the value stored; none for a field code that is no
field of a row. -/
def Row.write (field : Nat) (v : Int) (r : Row) : Option (Row × Int) :=
  match field with
  | 0 => some ({ r with v := clampInt 0 1200 v }, clampInt 0 1200 v)
  | 1 => some ({ r with gArt := clampInt (-2048) 2048 v }, clampInt (-2048) 2048 v)
  | 2 => some ({ r with gFront := clampInt (-2048) 2048 v }, clampInt (-2048) 2048 v)
  | 3 => some ({ r with lim := clampInt 0 150 v }, clampInt 0 150 v)
  | 4 => some ({ r with slew := clampInt 1 20 v }, clampInt 1 20 v)
  | 5 => some ({ r with damp := clampInt 0 1000 v }, clampInt 0 1000 v)
  | _ => none

/-- R156: a bank after a write of field 0 to 6 at a row, and the value stored. COUNT does not examine the row. -/
def Bank.write (field row : Nat) (v : Int) (b : Bank) : Option (Bank × Int) :=
  if field = 6 then some ({ b with count := (clampInt 0 16 v).toNat }, clampInt 0 16 v)
  else if h : row < 16 then
    (Row.write field v (rd b.rows ⟨row, h⟩)).map fun p => ({ b with rows := wr b.rows ⟨row, h⟩ p.1 }, p.2)
  else none

/-- The bank of an identity. -/
def Stc.bank (x : Stc) : BankId → Bank
  | .a => x.bankA
  | .b => x.bankB

/-- Replace one bank. -/
def Stc.setBank (x : Stc) (id : BankId) (b : Bank) : Stc :=
  match id with
  | .a => { x with bankA := b }
  | .b => { x with bankB := b }

/-- The other bank. -/
def BankId.other : BankId → BankId
  | .a => .b
  | .b => .a

/-! ## Channels, corners and axles by number -/

/-- The analog channel of a corner's height (section 5.1). -/
def heightChannel (c : Fin 6) : Fin 21 := ⟨c.val, by omega⟩

/-- The analog channel of a corner's bellows pressure. -/
def pressureChannel (c : Fin 6) : Fin 21 := ⟨c.val + 6, by omega⟩

/-- The fill channel of a corner. -/
def fillChannel (c : Fin 6) : Fin 18 := ⟨c.val, by omega⟩

/-- The exhaust channel of a corner. -/
def exhaustChannel (c : Fin 6) : Fin 18 := ⟨c.val + 6, by omega⟩

/-- SI1. -/
def supplyChannel : Fin 18 := 12

/-- The brake channel of an axle, numbered from 0. -/
def brakeChannel (a : Fin 3) : Fin 18 := ⟨a.val + 13, by omega⟩

/-- PD1. -/
def damperChannel : Fin 18 := 16

/-- CL1. -/
def lockChannel : Fin 18 := 17

/-- The axle of a corner, numbered from 0. -/
def cornerAxle (c : Fin 6) : Fin 3 := ⟨c.val / 2, by omega⟩

/-- The left corner of an axle. -/
def leftCorner (a : Fin 3) : Fin 6 := ⟨2 * a.val, by omega⟩

/-- The right corner of an axle. -/
def rightCorner (a : Fin 3) : Fin 6 := ⟨2 * a.val + 1, by omega⟩

/-- Whether a corner is on the curb side: 1R, 2R, 3R when it is RIGHT (R26). -/
def curbSide (curbRight : Bool) (c : Fin 6) : Bool := decide ((c.val % 2 = 1) = (curbRight = true))

/-- The engineering range of an analog channel (section 1.1). -/
def engineeringRange (c : Fin 21) : Int × Int :=
  if c.val ≤ 5 then (-300, 300)
  else if c.val ≤ 11 then (0, 1500)
  else if c.val ≤ 13 then (-900, 900)
  else if c.val = 14 then (-600, 600)
  else if c.val = 15 then (-300, 300)
  else if c.val ≤ 18 then (0, 1200)
  else if c.val = 19 then (0, 1500)
  else (0, 1000)

/-- Whether a channel is proportional: PB1 to PB3 and PD1 (section 9.1). -/
def proportional (c : Fin 18) : Bool := decide (13 ≤ c.val ∧ c.val ≤ 16)

/-- The qualify time in microseconds: 2 ms, or 5 ms for a proportional channel (R164). -/
def qualifyTime (c : Fin 18) : Nat := if proportional c then 5000 else 2000

end Sys2Proof.Machine
end

