-- ==== Sys2Proof/Machine/Ops.lean ====
section
/-! DEFINITION. The named operations over State that every block uses: the clock, reading and changing the Interlock Table, the
values that MOT publishes, and the two resets. -/

namespace Sys2Proof.Machine

/-! ## The clock (logs 2 and 3) -/

/-- Move the clock on to an instant, if it has not passed it. -/
def State.advanceTo (t : Nat) (s : State) : State := { s with now := max s.now t }

/-- The device is in RUN. -/
def State.inRun (s : State) : Bool := decide (s.cfg.device = .run)

/-! ## Reading the Interlock Table -/

/-- The live entries, oldest first (R22). -/
def State.live (s : State) : List Entry := s.ilt.order.filterMap fun i => (rd s.ilt.slots i).entry

/-- The entry to which a handle resolves (R21). -/
def State.resolve (s : State) (handle : Nat) : Option Entry :=
  if h : handle / 8 < 24 then
    let slot := rd s.ilt.slots ⟨handle / 8, h⟩
    if handle % 8 = slot.generation.val then slot.entry else none
  else none

/-- Whether some live entry is of the kind, in any state. -/
def State.anyLive (s : State) (k : Kind) : Bool := s.live.any fun e => decide (e.kind = k)

/-- DOOR_OPEN and RAMP_OUT. -/
def Kind.isDoor (k : Kind) : Bool := decide (k = .doorOpen ∨ k = .rampOut)

/-- Owned by the part itself, partner 15. -/
def Entry.isSelf (e : Entry) : Bool := decide (e.owner = 15)

/-- Whether the entry is a partner's DOOR_OPEN or RAMP_OUT. -/
def Entry.partnerDoor (e : Entry) : Bool := !e.isSelf && e.kind.isDoor

/-- Whether a partner DOOR_OPEN or RAMP_OUT for the door is live, in any state (R68). -/
def State.partnerClaims (s : State) (d : Fin 4) : Bool :=
  s.live.any fun e => e.partnerDoor && decide (e.scope = .door d)

/-- Whether a SELF DOOR_OPEN for the door is live (R68). -/
def State.selfClaims (s : State) (d : Fin 4) : Bool :=
  s.live.any fun e => e.isSelf && decide (e.kind = .doorOpen ∧ e.scope = .door d)

/-- Whether a KNEEL of the scope covers the corner (R26). -/
def Scope.covers (curbRight : Bool) (c : Fin 6) : Scope → Bool
  | .curb => curbSide curbRight c
  | .full => true
  | .door _ => false
  | .vehicle => false
  | .target _ => false

/-- Whether the door is fitted (R67). -/
def State.fitted (s : State) (d : Fin 4) : Bool := decide (d.val < s.cfg.settings.doorCount)

/-! ## What MOT publishes -/

/-- The motion state is STANDSTILL. -/
def State.standing (s : State) : Bool := decide (s.mot.motion = .standstill)

/-- The selected direction (R14). -/
def State.selected (s : State) : Selected :=
  match s.mot.selFwd.debounced, s.mot.selRev.debounced with
  | true, false => .forward
  | false, true => .reverse
  | false, false => .neutral
  | true, true => .neutral

/-- The vehicle speed is valid and at most a bound. -/
def State.speedAtMost (s : State) (bound : Nat) : Bool :=
  match s.mot.speed with
  | some v => decide (v ≤ bound)
  | none => false

/-- The vehicle speed is valid and above a bound. -/
def State.speedAbove (s : State) (bound : Nat) : Bool :=
  match s.mot.speed with
  | some v => decide (bound < v)
  | none => false

/-- The engineering value that an analog channel publishes. -/
def State.analogValue (s : State) (c : Fin 21) : Int := (rd s.mot.analog c).value

/-- An analog channel is FAULTY. -/
def State.analogFaulty (s : State) (c : Fin 21) : Bool := decide ((rd s.mot.analog c).validity = .faulty)

/-! ## Changing the Interlock Table -/

/-- Change the entry in the slot of a handle, if the handle resolves. -/
def State.updEntry (handle : Nat) (f : Entry → Entry) (s : State) : State :=
  if h : handle / 8 < 24 then
    s.modIlt fun t =>
      { t with slots := upd t.slots ⟨handle / 8, h⟩ fun slot =>
          if handle % 8 = slot.generation.val then { slot with entry := slot.entry.map f } else slot }
  else s

/-- R24, R20, R22: free the slot of a live handle, advance its generation, and take it out of the arrival order. -/
def State.dropEntry (handle : Nat) (s : State) : State :=
  if h : handle / 8 < 24 then
    if (s.resolve handle).isSome then
      s.modIlt fun t =>
        { t with
          slots := upd t.slots ⟨handle / 8, h⟩ fun slot => { generation := slot.generation + 1, entry := none }
          order := t.order.erase ⟨handle / 8, h⟩ }
    else s
  else s

/-- The lowest-numbered free slot of a range (R19). -/
def State.freeSlot (s : State) (lo hi : Nat) : Option (Fin 24) :=
  (List.finRange 24).find? fun i => decide (lo ≤ i.val ∧ i.val < hi) && (rd s.ilt.slots i).entry.isNone

/-- Place an entry in a slot, with the slot's handle, at the back of the arrival order (R21, R22, R23). -/
def State.placeEntry (slot : Fin 24) (e : Nat → Entry) (s : State) : State :=
  s.modIlt fun t =>
    { t with
      slots := upd t.slots slot fun x => { x with entry := some (e (slot.val * 8 + x.generation.val)) }
      order := t.order ++ [slot] }

/-- The handle that an entry opened in a slot takes (R21). -/
def State.handleOf (s : State) (slot : Fin 24) : Nat := slot.val * 8 + (rd s.ilt.slots slot).generation.val

/-! ## Activation (R28) -/

/-- The activation condition of an entry's kind and scope on the values published now (R28). -/
def State.activates (s : State) (k : Kind) (scope : Scope) : Bool :=
  match k with
  | .doorOpen => s.standing && s.brk.confirmed
  | .rampOut =>
    s.standing && s.brk.confirmed && decide (s.rlu.kneelState = .level ∨ s.rlu.kneelState = .kneeled)
  | .kneel =>
    s.standing && (List.finRange 6).all fun c =>
      !(scope.covers s.cfg.settings.curbRight c && decide ((rd s.crn.corners c).state = .fault))
  | .stopHold => s.standing
  | .raise => true
  | .steerCentre => true
  | .serviceLock => true
  | .override => true

/-- The state that an activation result shows. -/
def shownState (active : Bool) : EntryState := if active then .active else .waiting

/-! ## The two resets (R183, R188, section 5.6 of 00_scope.md) -/

/-- Cold reset: every block at its reset values; the pins, the queue of commands, the clock and the MODEL's own counter are not
moved by it (log 5). -/
def State.coldReset (s : State) : State where
  pending := s.pending
  now := s.now
  fresh := s.fresh
  cfg := { device := .config, settings := Settings.default }
  lnk := Lnk.initial s.now (BitVec.allOnes 14) s.lnk.onBus
  ilt := Ilt.initial
  mot := Mot.initial s.now s.mot.selFwd.level s.mot.selRev.level s.mot.driveReq.level
  dsv := Dsv.initial s.now Settings.default.doorCount (mapF s.dsv.doors fun _ d => d.contact.level) s.dsv.fbl.level
  crn := Crn.initial s.now
  rlu := Rlu.initial
  brk := Brk.initial s.now
  stc := Stc.initial s.now Bank.initial Bank.initial .a
  vda := Vda.initial s.now (mapF s.vda.channels fun _ c => c.overCurrent)

/-- R42, R20: every live entry retired silently, the generation of its slot advanced; the registry kept. -/
def Ilt.emptied (t : Ilt) : Ilt where
  slots := mapF t.slots fun _ x =>
    { generation := if x.entry.isSome then x.generation + 1 else x.generation, entry := none }
  order := []
  registry := t.registry
  contacts := Vector.replicate 4 false

/-- Warm restart: as a cold reset, but the settings, the registry, the notice mask, the banks and the bank in use are kept
(R188), and the generations go on (R42). -/
def State.warmRestart (s : State) : State where
  pending := s.pending
  now := s.now
  fresh := s.fresh
  cfg := { device := .config, settings := s.cfg.settings }
  lnk := Lnk.initial s.now s.lnk.mask s.lnk.onBus
  ilt := s.ilt.emptied
  mot := Mot.initial s.now s.mot.selFwd.level s.mot.selRev.level s.mot.driveReq.level
  dsv := Dsv.initial s.now s.cfg.settings.doorCount (mapF s.dsv.doors fun _ d => d.contact.level) s.dsv.fbl.level
  crn := Crn.initial s.now
  rlu := Rlu.initial
  brk := Brk.initial s.now
  stc := Stc.initial s.now s.stc.bankA s.stc.bankB s.stc.inUse
  vda := Vda.initial s.now (mapF s.vda.channels fun _ c => c.overCurrent)

end Sys2Proof.Machine
end

