-- ==== Sys2Proof/Machine/Channels.lean ====
section
/-! DEFINITION. Valve channels: the moves of one channel's record (sections 9.2 and 9.3), and the command of an owner. What the
owners do at a change of state is Machine/Valves.lean. -/

namespace Sys2Proof.Machine

/-- The states in which the output is driven (section 9.2). -/
def ChannelState.driven (st : ChannelState) : Bool := decide (st = .blanking ∨ st = .on ∨ st = .qualifying)

/-- The largest command of a channel: 1 for an on/off channel, 850 kPa for PB1 to PB3, 1000 per mille for PD1 (R161). -/
def fullCommand (ch : Fin 18) : Nat := if proportional ch then (if ch = damperChannel then 1000 else 850) else 1

/-- R161: the duty of a channel's output as a part of full duty: off out of the driven states, and in them in proportion to the command,
or full for an on/off channel. -/
def Channel.duty (ch : Fin 18) (c : Channel) : Fraction :=
  if c.state.driven then { num := if proportional ch then (c.command : Int) else 1, den := fullCommand ch }
  else { num := 0, den := fullCommand ch }

/-- R161: above this current, in 0.1 A, a channel shows over-current. -/
def overCurrentAbove (ch : Fin 18) : Nat := if proportional ch then 30 else 20

/-- R161: above this current, in 0.1 A, a channel of either type is in a hard short. -/
def hardShortAbove : Nat := 80

/-- A channel carries a gate mark. -/
def Channel.marked (c : Channel) : Bool := c.thermal || c.undervoltage

/-- Into BLANKING, its timer from 0 (R162). -/
def Channel.switchOn (now : Nat) (c : Channel) : Channel := { c with state := .blanking, blanking := some now }

/-- Into OFF, its blanking, qualify and clean timers at 0 (R162). -/
def Channel.switchOff (c : Channel) : Channel := { c with state := .off, blanking := none, qualify := none, clean := none }

/-- A channel in OFF follows its command (R162, R170, R172). -/
def Channel.follow (now : Nat) (c : Channel) : Channel := if 0 < c.command then c.switchOn now else c

/-- R161, R162: the owner hands a new command. -/
def Channel.take (now value : Nat) (c : Channel) : Channel :=
  let c := { c with command := value }
  if c.state = .off then c.follow now
  else if c.state.driven && decide (value = 0) then c.switchOff
  else c

/-- R163: the end of the blanking; over-current present then goes on into QUALIFYING. -/
def Channel.endBlanking (now : Nat) (c : Channel) : Channel :=
  if c.overCurrent then { c with state := .qualifying, blanking := none, qualify := some now, clean := none }
  else { c with state := .on, blanking := none, clean := some now }

/-- R166: the trip count after a trip at this instant. -/
def Channel.tripCount (now : Nat) (c : Channel) : Nat :=
  match c.series with
  | none => 1
  | some t => if c.trips = 0 ∨ 10000000 < now - t then 1 else c.trips + 1

/-- R164, R166: a trip, into TRIPPED, or into LOCKED_OUT at the third of a series. -/
def Channel.trip (now : Nat) (c : Channel) : Channel :=
  let n := c.tripCount now
  { c with
    state := if 3 ≤ n then .lockedOut else .tripped
    trips := n
    series := if n = 1 then some now else c.series
    blanking := none
    qualify := none
    clean := none
    retry := if 3 ≤ n then none else some now }

/-- R163, R164: the start of a hard short; the comparator shows over-current from then on (log 23). -/
def Channel.hardShort (now : Nat) (c : Channel) : Channel :=
  let c := { c with overCurrent := true }
  if c.state.driven then c.trip now else c

/-- R164: the start of over-current. -/
def Channel.currentRises (now : Nat) (c : Channel) : Channel :=
  let c := { c with overCurrent := true }
  if c.state = .on then { c with state := .qualifying, qualify := some now, clean := none } else c

/-- R164: the end of over-current. -/
def Channel.currentFalls (now : Nat) (c : Channel) : Channel :=
  let c := { c with overCurrent := false }
  if c.state = .qualifying then { c with state := .on, qualify := none, clean := some now } else c

/-- R165: the end of the retry time. -/
def Channel.endRetry (now : Nat) (c : Channel) : Channel := { c with state := .off, retry := none }.follow now

/-- R166: the clean timer reaches its bound, so the series ends. -/
def Channel.endSeries (c : Channel) : Channel := { c with trips := 0, series := none }

/-- R167: a diagnostic check. -/
def Channel.diagnose (load : Bool) (c : Channel) : Channel :=
  if c.state = .off ∧ load = false then { c with state := .openLoad } else c

/-- R170: what the first gate mark does to the state. -/
def Channel.disable (c : Channel) : Channel :=
  if c.state = .lockedOut ∨ c.state = .openLoad then c
  else { c with state := .disabled, blanking := none, qualify := none, retry := none, clean := none }

/-- R170: what the loss of a mark does to the state, once no mark is left. -/
def Channel.enable (now : Nat) (c : Channel) : Channel :=
  if c.state = .disabled ∧ c.marked = false then { c with state := .off }.follow now else c

/-- R168, R170: the mark THERMAL given. -/
def Channel.markThermal (c : Channel) : Channel := { c with thermal := true }.disable

/-- R168, R170: the mark THERMAL removed. -/
def Channel.unmarkThermal (now : Nat) (c : Channel) : Channel := { c with thermal := false }.enable now

/-- R169, R170: the mark UNDERVOLTAGE given. -/
def Channel.markUnder (c : Channel) : Channel := { c with undervoltage := true }.disable

/-- R169, R170: the mark UNDERVOLTAGE removed. -/
def Channel.unmarkUnder (now : Nat) (c : Channel) : Channel := { c with undervoltage := false }.enable now

/-- R172: CLEAR_CHANNEL for a channel in LOCKED_OUT or OPEN_LOAD; any other is left. -/
def Channel.clear (now : Nat) (c : Channel) : Channel :=
  if c.state = .lockedOut ∨ c.state = .openLoad then
    let c := { c with trips := 0, series := none, retry := none, clean := none }
    if c.marked then { c with state := .disabled } else { c with state := .off }.follow now
  else c

/-- An owner's command to VDA (R161, R162, R171). A command moves no channel into a state that its owner acts on. -/
def State.command (ch : Fin 18) (value : Nat) (s : State) : State :=
  s.modVda fun v => { v with channels := upd v.channels ch (Channel.take s.now value) }

/-- TRIPPED, LOCKED_OUT, OPEN_LOAD or DISABLED (R93, R141). -/
def ChannelState.unusable (st : ChannelState) : Bool :=
  decide (st = .tripped ∨ st = .lockedOut ∨ st = .openLoad ∨ st = .disabled)

/-- LOCKED_OUT or OPEN_LOAD (R97, R171). -/
def ChannelState.failed (st : ChannelState) : Bool := decide (st = .lockedOut ∨ st = .openLoad)

/-- The state of a valve channel. -/
def State.channelState (s : State) (ch : Fin 18) : ChannelState := (rd s.vda.channels ch).state

end Sys2Proof.Machine
end

