-- ==== Sys2Proof/Machine/Brakes.lean ====
section
/-! DEFINITION. Axle braking and the stop hold (07_axle_braking_and_the_stop_hold.md), but for the rollback hold, which opens an
entry and stands in Machine/Motion.lean. -/

namespace Sys2Proof.Machine

/-! ## The distribution computation (section 7.2) -/

/-- R116. -/
def State.driverDemand (s : State) : Nat :=
  if s.analogFaulty 20 then 0 else (clampInt 0 1000 (s.analogValue 20)).toNat

/-- The lowest-numbered axle of the largest load (R117). -/
def largestAxle (load : Vector Nat 3) : Fin 3 :=
  if rd load 1 ≤ rd load 0 ∧ rd load 2 ≤ rd load 0 then 0 else if rd load 2 ≤ rd load 1 then 1 else 2

/-- The load shares of three valid loads whose sum is above 0 (R117). -/
def loadShares (load : Vector Nat 3) : Vector Nat 3 :=
  let total := rd load 0 + rd load 1 + rd load 2
  let floors := mapF load fun _ l => 1000 * l / total
  upd floors (largestAxle load) fun x => x + (1000 - (rd floors 0 + rd floors 1 + rd floors 2))

/-- R117: the load shares of this update, or none. -/
def State.loadSharesNow (s : State) : Option (Vector Nat 3) :=
  let load := mapF s.crn.axles fun _ a => a.load
  if (rd s.crn.axles 0).valid && (rd s.crn.axles 1).valid && (rd s.crn.axles 2).valid
      && decide (0 < rd load 0 + rd load 1 + rd load 2) then some (loadShares load) else none

/-- R118: the blended share from the weight, the load share (if formed) and the static share. -/
def blendedShare (w : Nat) (load : Option Nat) (static : Nat) : Nat :=
  match load with
  | none => static
  | some l => if w = 63 then l else (w * l + (64 - w) * static + 32) / 64

/-- R119 before the floor. -/
def axleDemand (base share static : Nat) : Nat := min 850 (base * share / static)

/-- The states in which the floor is applied (R119). -/
def HoldState.floors (h : HoldState) : Bool := decide (h ≠ .released)

/-- R119: A2 and A3 are raised to H while the floor is applied; A1 is not held. -/
def flooredDemand (hold : HoldState) (target : Nat) (a : Fin 3) (demand : Nat) : Nat :=
  if hold.floors ∧ a ≠ 0 then max demand target else demand

/-- R116, R117, R118: take D, the base pressure and the shares. -/
def Brk.takeShares (s : State) : State :=
  let shares := s.loadSharesNow
  s.modBrk fun b =>
    { b with
      driver := s.driverDemand
      base := s.driverDemand * 850 / 1000
      axles := mapF b.axles fun a x =>
        { x with
          loadShare := shares.map fun v => rd v a
          blended := some (blendedShare s.cfg.settings.weight (shares.map fun v => rd v a) (rd s.cfg.settings.share a)) } }

/-- R119: form the three demands from the base pressure, the blended shares and the floor. -/
def Brk.formDemands (s : State) : State :=
  s.modBrk fun b =>
    { b with
      axles := mapF b.axles fun a x =>
        let c := rd s.cfg.settings.share a
        { x with demand := flooredDemand b.hold b.target a (axleDemand b.base (x.blended.getD c) c) } }

/-- Hand P1, P2 and P3 to VDA (R119, R134). -/
def Brk.command (s : State) : State :=
  let d := s.brk.axles
  ((s.command (brakeChannel 0) (rd d 0).demand).command (brakeChannel 1) (rd d 1).demand).command
    (brakeChannel 2) (rd d 2).demand

/-- R119: raise the commanded P2 and P3 to H at this event. -/
def Brk.raiseFloor (s : State) : State :=
  Brk.command (s.modBrk fun b =>
    { b with axles := mapF b.axles fun a x => { x with demand := if a = 0 then x.demand else max x.demand b.target } })

/-- The values that READ_AXLE reports as they stood at the last brake update (R138). -/
def Brk.snapshot (s : State) : State :=
  s.modBrk fun b =>
    { b with
      axles := mapF b.axles fun a x =>
        let c : Fin 21 := ⟨a.val + 16, by omega⟩
        { x with demandAtUpdate := x.demand, measured := s.analogValue c, validity := (rd s.mot.analog c).validity } }

/-! ## Contributors (section 7.3) -/

/-- Whether a live entry contributes to the hold in a motion state (R120). -/
def Entry.contributes (e : Entry) (m : MotionState) : Bool :=
  decide (e.kind = .doorOpen ∨ e.kind = .rampOut ∨ e.kind = .stopHold ∨ e.kind = .serviceLock)
    && decide (e.state ≠ .covered)
    && (decide (m = .settling ∨ m = .standstill) || (e.isSelf && decide (e.kind = .stopHold)))

/-- The pressure of a contributor (R121). -/
def Entry.holdPressure (e : Entry) (doorHold : Nat) : Nat :=
  match e.kind with
  | .stopHold => e.parameter.getD 0
  | .serviceLock => 500
  | .doorOpen => doorHold
  | .rampOut => doorHold
  | .kneel => 0
  | .raise => 0
  | .steerCentre => 0
  | .override => 0

/-- The contributors as the table stands (R120). -/
def State.contributors (s : State) : List Entry := s.live.filter fun e => e.contributes s.mot.motion

/-- The contributor maximum, or none when the set is empty (R121). -/
def State.contributorMax (s : State) : Option Nat :=
  if s.contributors.isEmpty then none
  else some (s.contributors.foldl (fun acc e => max acc (e.holdPressure s.cfg.settings.doorHold)) 0)

/-! ## The hold machine (section 7.4) -/

/-- R122: a measured pressure is at least 90 % of a target. -/
def AnalogChannel.atLeast90 (c : AnalogChannel) (target : Nat) : Bool :=
  decide (c.validity ≠ .faulty) && decide (9 * (target : Int) ≤ 10 * c.value)

/-- R122: a measured pressure is below 80 % of a target. -/
def AnalogChannel.below80 (c : AnalogChannel) (target : Nat) : Bool :=
  decide (c.validity = .faulty) || decide (10 * c.value < 8 * (target : Int))

/-- Both AN17 and AN18 are at least 90 % of H. -/
def State.holdBuilt (s : State) : Bool :=
  (rd s.mot.analog 17).atLeast90 s.brk.target && (rd s.mot.analog 18).atLeast90 s.brk.target

/-- Either AN17 or AN18 is below 80 % of H. -/
def State.holdFallen (s : State) : Bool :=
  (rd s.mot.analog 17).below80 s.brk.target || (rd s.mot.analog 18).below80 s.brk.target

/-- R130, R131: move the departure window and hand it to STC. -/
def Brk.setWindow (isOpen : Bool) (s : State) : State :=
  (s.modBrk fun b => { b with windowOpen := isOpen }).modStc fun x => { x with windowOpen := isOpen }

/-- R123. -/
def Brk.enterApplying (target : Nat) (s : State) : State :=
  Brk.raiseFloor (Brk.setWindow false (s.modBrk fun b =>
    { b with
      hold := .applying
      target := target
      confirmed := false
      confirmTimer := 0
      unconfirmed := 0
      unconfirmedPosted := false
      doorSeen := s.live.any Entry.partnerDoor }))

/-- R124, R129: into HELD, confirmed. -/
def Brk.enterHeld (s : State) : State :=
  s.modBrk fun b => { b with hold := .held, confirmed := true, lossTimer := 0 }

/-- R127, R130: into RAMPING; the departure window opens when the door-seen mark is set. -/
def Brk.enterRamping (s : State) : State :=
  let s := s.modBrk fun b => { b with hold := .ramping, confirmed := false }
  if s.brk.doorSeen then Brk.setWindow true (s.modBrk fun b => { b with windowRef := s.mot.counter }) else s

/-- R127: WAIT_DRIVE is left at any event at which DRIVE_REQ is asserted or the motion state is ROLLING. -/
def Brk.leaveWait (s : State) : State :=
  if s.brk.hold = .waitDrive ∧ (s.mot.driveReq.debounced ∨ s.mot.motion = .rolling) then Brk.enterRamping s else s

/-- R127: the set becomes empty under a hold. -/
def Brk.enterWait (s : State) : State :=
  Brk.leaveWait (s.modBrk fun b => { b with hold := .waitDrive, confirmTimer := 0, lossTimer := 0 })

/-- R129: the set becomes non-empty in WAIT_DRIVE or RAMPING; pressures that stand at the hold pass it on to HELD. -/
def Brk.reapply (target : Nat) (s : State) : State :=
  let s := Brk.enterApplying target s
  if s.holdBuilt then Brk.enterHeld s else s

/-- R121, R126: a change of H in APPLYING or HELD. -/
def Brk.moveTarget (target : Nat) (s : State) : State :=
  if target = s.brk.target then s
  else
    let moved := s.modBrk fun b => { b with target := target, confirmTimer := 0, lossTimer := 0 }
    if s.brk.target < target then Brk.raiseFloor moved else moved

/-- R120: re-judge the contributor set, and what follows (R121, R123, R127, R129). The machine is frozen outside RUN (R136). -/
def Brk.judge (s : State) : State :=
  if s.inRun then
    match s.contributorMax, s.brk.hold with
    | some m, .released => Brk.enterApplying m s
    | some m, .applying => Brk.moveTarget m s
    | some m, .held => Brk.moveTarget m s
    | some m, .waitDrive => Brk.reapply m s
    | some m, .ramping => Brk.reapply m s
    | none, .applying => Brk.enterWait s
    | none, .held => Brk.enterWait s
    | none, .waitDrive => Brk.leaveWait s
    | none, .released => s
    | none, .ramping => s
  else s

/-- R130: the opening of a partner's DOOR_OPEN or RAMP_OUT sets the door-seen mark. -/
def Brk.markDoor (e : Entry) (s : State) : State :=
  if e.partnerDoor then s.modBrk fun b => { b with doorSeen := true } else s

/-! ## The brake update -/

/-- R128: one step of the ramp. -/
def Brk.rampStep (s : State) : State :=
  s.modBrk fun b =>
    if b.target ≤ 6 then { b with target := 0, hold := .released, confirmed := false } else { b with target := b.target - 6 }

/-- R124: HOLD_UNCONFIRMED with cause TIMEOUT, once for each entry into APPLYING. -/
def Brk.reportTimeout (s : State) : State :=
  (s.modBrk fun b => { b with unconfirmed := 1000, unconfirmedPosted := true }).post
    (.holdUnconfirmed .timeout s.brk.target (s.analogValue 17) (s.analogValue 18))

/-- R124: the unconfirmed watch grows. -/
def Brk.watchUnconfirmed (s : State) : State :=
  if s.brk.unconfirmedPosted then s
  else if 1000 ≤ s.brk.unconfirmed + 10 then Brk.reportTimeout s
  else s.modBrk fun b => { b with unconfirmed := b.unconfirmed + 10 }

/-- R124 at a brake update in APPLYING (log 21). -/
def Brk.judgeApplying (s : State) : State :=
  let timer := if s.holdBuilt then grow 10 100 s.brk.confirmTimer else 0
  let s := s.modBrk fun b => { b with confirmTimer := timer }
  if 100 ≤ timer then Brk.enterHeld s else Brk.watchUnconfirmed s

/-- R125: the hold is lost. -/
def Brk.lose (s : State) : State :=
  let t := Brk.enterApplying (s.contributorMax.getD s.brk.target) s
  t.post (.holdUnconfirmed .lost t.brk.target (s.analogValue 17) (s.analogValue 18))

/-- R125 at a brake update in HELD. -/
def Brk.judgeHeld (s : State) : State :=
  let timer := if s.holdFallen then grow 10 100 s.brk.lossTimer else 0
  let s := s.modBrk fun b => { b with lossTimer := timer }
  if 100 ≤ timer then Brk.lose s else s

/-- R131: the travel since the opening, in the wrapping arithmetic of R12. -/
def State.windowTravel (s : State) : Int := (s.mot.counter - s.brk.windowRef).toInt

/-- R131 at a brake update. -/
def Brk.judgeWindow (s : State) : State :=
  if s.brk.windowOpen && (decide (1200 ≤ s.windowTravel) || s.speedAbove 150) then Brk.setWindow false s else s

/-- The hold's part of a brake update after the demands, in RUN (R136). -/
def Brk.judgeHold (s : State) : State :=
  match s.brk.hold with
  | .applying => Brk.judgeApplying s
  | .held => Brk.judgeHeld s
  | .released => s
  | .waitDrive => s
  | .ramping => s

/-- R128 comes before the floor, in RUN alone (R136). -/
def Brk.ramp (s : State) : State := if s.inRun ∧ s.brk.hold = .ramping then Brk.rampStep s else s

/-- The brake update (R116 to R119, R124, R125, R128, R131, R135). -/
def Brk.update (s : State) : State :=
  let s := Brk.snapshot (Brk.command (Brk.formDemands (Brk.ramp (Brk.takeShares s))))
  if s.inRun then Brk.judgeWindow (Brk.judgeHold s) else s

end Sys2Proof.Machine
end

