-- ==== Sys2Proof/Machine/Inhibit.lean ====
section
/-! DEFINITION. DSV's outputs: the release lines (R73, R74), the drive-inhibit cause set (R75, R77) and its machine (R76). -/

namespace Sys2Proof.Machine

/-- The cause set of R75 as everything stands. -/
def State.inhibitCauses (s : State) : InhibitCauses where
  notRun := !s.inRun
  doorEntry := s.live.any fun e => e.kind.isDoor && decide (e.state ≠ .covered)
  contactOpen := (List.finRange 4).any fun d => s.fitted d && !(rd s.dsv.doors d).contact.debounced
  service := s.anyLive .serviceLock
  curbLow := s.rlu.curbLow

/-- No cause is present. -/
def InhibitCauses.none : InhibitCauses where
  notRun := false
  doorEntry := false
  contactOpen := false
  service := false
  curbLow := false

/-- R76 at a judgement of the cause set. -/
def InhibitMachine.judge (now : Nat) (causes : InhibitCauses) (m : InhibitMachine) : InhibitMachine :=
  if causes = InhibitCauses.none then
    match m with
    | .inhibited => .releasing (now + 300000)
    | .releasing due => .releasing due
    | .free => .free
  else .inhibited

/-- R73: DOOR_RELn is asserted. -/
def State.releases (s : State) (d : Fin 4) : Bool :=
  s.inRun && s.fitted d && s.standing && s.brk.confirmed
    && s.live.any fun e => e.partnerDoor && decide (e.scope = .door d) && decide (e.state = .active)

/-- R73, R75, R76: DSV judges its outputs, at the end of an event (log 9). -/
def Dsv.judge (s : State) : State :=
  s.modDsv fun x =>
    { x with
      doors := mapF x.doors fun d y => { y with release := s.releases d }
      causes := s.inhibitCauses
      machine := x.machine.judge s.now s.inhibitCauses }

/-- DRIVE_INH (R76). -/
def State.driveInh (s : State) : Bool := decide (s.dsv.machine ≠ .free)

end Sys2Proof.Machine
end

