-- ==== Sys2Proof/Machine/Corners.lean ====
section
/-! DEFINITION. Corner levelling (05_corner_levelling.md). What RLU does after a corner update is Machine/Ride.lean. -/

namespace Sys2Proof.Machine

/-! ## Freeze reasons (section 5.6) -/

/-- Whether a set holds a reason. -/
def FreezeSet.has (f : FreezeSet) : FreezeReason → Bool
  | .ramp => f.ramp
  | .service => f.service
  | .config => f.config
  | .artic => f.artic
  | .brake => f.brake
  | .valvesOff => f.valvesOff
  | .stall => f.stall
  | .supply => f.supply

/-- Add or remove a reason. -/
def FreezeSet.put (f : FreezeSet) (r : FreezeReason) (present : Bool) : FreezeSet :=
  match r with
  | .ramp => { f with ramp := present }
  | .service => { f with service := present }
  | .config => { f with config := present }
  | .artic => { f with artic := present }
  | .brake => { f with brake := present }
  | .valvesOff => { f with valvesOff := present }
  | .stall => { f with stall := present }
  | .supply => { f with supply := present }

/-- Into a state, the qualify side NONE and the timers 0 (R86, R95, R97; log 26). -/
def Corner.enter (st : CornerState) (c : Corner) : Corner :=
  { c with state := st, side := .none, qualifyTimer := 0, actionTimer := 0 }

/-- R95: a corner gains a reason; one that may act goes to HOLDING. -/
def Corner.gain (r : FreezeReason) (c : Corner) : Corner :=
  if c.reasons.has r then c
  else
    let c := { c with reasons := c.reasons.put r true }
    if c.state = .holding ∨ c.state = .fault then c else c.enter .holding

/-- R95: a corner loses a reason; HOLDING without one goes to IN_BAND. -/
def Corner.lose (r : FreezeReason) (c : Corner) : Corner :=
  if c.reasons.has r then
    let c := { c with reasons := c.reasons.put r false }
    if c.state = .holding ∧ c.reasons = FreezeSet.empty then c.enter .inBand else c
  else c

/-- A reason is judged present or absent. -/
def Corner.judge (r : FreezeReason) (present : Bool) (c : Corner) : Corner := if present then c.gain r else c.lose r

/-! ## The fill queue, grants and valve commands (R90 to R92) -/

/-- The number of corners FILLING. -/
def Crn.fillingCount (x : Crn) : Nat := ((List.finRange 6).filter fun c => decide ((rd x.corners c).state = .filling)).length

/-- R92: the corner at the front of the queue is granted while fewer than three fill. -/
def Crn.grantOne (x : Crn) : Crn :=
  match x.queue with
  | [] => x
  | c :: rest =>
    if x.fillingCount < 3 then { x with corners := upd x.corners c (Corner.enter .filling), queue := rest } else x

/-- R92: grants until three corners are FILLING or the queue is empty. -/
def Crn.grant (x : Crn) : Crn := x.grantOne.grantOne.grantOne

/-- R91: only corners in FILL_WAIT stand in the queue. -/
def Crn.leaveQueue (x : Crn) : Crn :=
  { x with queue := x.queue.filter fun c => decide ((rd x.corners c).state = .fillWait) }

/-- R90: a corner's two valve commands by its state. -/
def State.commandCorner (c : Fin 6) (s : State) : State :=
  let st := (rd s.crn.corners c).state
  (s.command (fillChannel c) (bit (decide (st = .filling)))).command (exhaustChannel c) (bit (decide (st = .exhausting)))

/-- R90, R92: every corner valve by the corner's state, and SI1 on exactly while a corner is FILLING. -/
def State.commandCorners (s : State) : State :=
  ((List.finRange 6).foldl (fun s c => s.commandCorner c) s).command supplyChannel (bit (decide (0 < s.crn.fillingCount)))

/-- What every change of corner states ends with: the queue, the grants and the valve commands (R90 to R92). -/
def Crn.settle (s : State) : State := (s.modCrn fun x => x.leaveQueue.grant).commandCorners

/-- Change some corners at one event, and settle. -/
def Crn.change (f : Fin 6 → Corner → Corner) (s : State) : State :=
  Crn.settle (s.modCrn fun x => { x with corners := mapF x.corners f })

/-- Change one corner, and settle. -/
def Crn.changeOne (c : Fin 6) (f : Corner → Corner) (s : State) : State :=
  Crn.settle (s.modCrn fun x => { x with corners := upd x.corners c f })

/-! ## Freezes of all corners -/

/-- R94: RAMP and SERVICE by the table as it stands. -/
def Crn.fromTable (s : State) : State :=
  let ramp := s.anyLive .rampOut
  let service := s.anyLive .serviceLock
  Crn.change (fun _ c => (c.judge .ramp ramp).judge .service service) s

/-- R94, R171: VALVES_OFF while the corner's fill or exhaust channel is DISABLED. -/
def Crn.fromChannels (s : State) : State :=
  Crn.change (fun i c => c.judge .valvesOff
    (decide (s.channelState (fillChannel i) = .disabled) || decide (s.channelState (exhaustChannel i) = .disabled))) s

/-- R99: CONFIG for every corner while the device is not in RUN. -/
def Crn.fromDevice (s : State) : State := Crn.change (fun _ c => c.judge .config (!s.inRun)) s

/-! ## The supply gate (R93) -/

/-- SI1 is usable. -/
def State.supplyUsable (s : State) : Bool := !(s.channelState supplyChannel).unusable

/-- R93, R96: the gate closes; every corner in FILL_WAIT or FILLING gains SUPPLY. The notice is posted whenever the reservoir is low
or AN19 is FAULTY, SI1 usable or not (log 37, the model's choice). -/
def Crn.closeGate (s : State) : State :=
  let low := decide (s.analogValue 19 < 650) || s.analogFaulty 19
  let s := Crn.change (fun _ c => if c.state = .fillWait ∨ c.state = .filling then c.gain .supply else c)
    (s.modCrn fun x => { x with gateOpen := false })
  if low then s.post (.supply .reservoir 0) else s

/-- R93, R96: the gate opens; every corner loses SUPPLY. -/
def Crn.openGate (s : State) : State :=
  Crn.change (fun _ c => c.lose .supply) (s.modCrn fun x => { x with gateOpen := true })

/-- R93: the gate is judged. -/
def Crn.judgeGate (s : State) : State :=
  if s.crn.gateOpen then
    if decide (s.analogValue 19 < 650) || s.analogFaulty 19 || !s.supplyUsable then Crn.closeGate s else s
  else if decide (700 ≤ s.analogValue 19) && !s.analogFaulty 19 && s.supplyUsable then Crn.openGate s
  else s

/-! ## Faults (section 5.7) -/

/-- R97: a corner enters FAULT, in RUN, unless it is in FAULT already. -/
def Crn.fault (c : Fin 6) (r : CornerFault) (s : State) : State :=
  if s.inRun ∧ (rd s.crn.corners c).state ≠ .fault then
    (Crn.changeOne c (fun x => { x.enter .fault with fault := some r }) s).post (.cornerFault c r)
  else s

/-- The first standing cause of a corner's fault, in the order of R98. -/
def State.cornerCause (s : State) (c : Fin 6) : Option CornerFault :=
  if s.analogFaulty (heightChannel c) then some .heightSensor
  else if (s.channelState (fillChannel c)).failed then some .fillValve
  else if (s.channelState (exhaustChannel c)).failed then some .exhaustValve
  else none

/-- R97: the standing causes are judged at the entry into RUN; a corner takes its first in the order of R98 (log 38, the model's
choice). -/
def Crn.judgeCauses (s : State) : State :=
  (List.finRange 6).foldl (fun s c =>
    match s.cornerCause c with
    | some r => Crn.fault c r s
    | none => s) s

/-- R98: a corner's fault is cleared. -/
def Crn.clearFault (c : Fin 6) (s : State) : State :=
  Crn.changeOne c (fun x =>
    { x.enter (if x.reasons = FreezeSet.empty then .inBand else .holding) with fault := none }) s

/-! ## The corner update (R84 to R89, R100, R101) -/

/-- The error e (R85). -/
def Corner.error (c : Corner) : Int := c.measured - c.target

/-- The stop margin m (R85). -/
def State.stopMargin (s : State) (c : Fin 6) : Int :=
  ((rd s.cfg.settings.halfWidth c * rd s.cfg.settings.stopLevel c / 4 : Nat) : Int)

/-- The qualify time in force, in ms (R86). -/
def State.qualifySpan (s : State) : Nat :=
  if s.mot.motion = .settling ∨ s.mot.motion = .standstill then 200 else 2000

/-- R86: the qualify side and timer at an update in IN_BAND. -/
def Corner.qualify (d : Int) (c : Corner) : Corner :=
  if c.error < -d then
    { c with side := .low, qualifyTimer := if c.side = .low then grow 20 2000 c.qualifyTimer else 0 }
  else if d < c.error then
    { c with side := .high, qualifyTimer := if c.side = .high then grow 20 2000 c.qualifyTimer else 0 }
  else { c with side := .none, qualifyTimer := 0 }

/-- R87, R96: a corner qualified on its side acts. -/
def Crn.act (c : Fin 6) (s : State) : State :=
  match (rd s.crn.corners c).side with
  | .none => s
  | .high => Crn.changeOne c (Corner.enter .exhausting) s
  | .low =>
    if s.crn.gateOpen then
      Crn.changeOne c (Corner.enter .fillWait) (s.modCrn fun x => { x with queue := x.queue ++ [c] })
    else Crn.changeOne c (Corner.gain .supply) s

/-- R86, R87: the step of a corner in IN_BAND. -/
def Crn.stepInBand (c : Fin 6) (s : State) : State :=
  let s := s.modCrn fun x => { x with corners := upd x.corners c (Corner.qualify ((rd s.cfg.settings.halfWidth c : Nat) : Int)) }
  if s.qualifySpan ≤ (rd s.crn.corners c).qualifyTimer then Crn.act c s else s

/-- R88: the action timer grows, and reaches its bound in FAULT. -/
def Crn.growAction (c : Fin 6) (r : CornerFault) (s : State) : State :=
  let s := s.modCrn fun x =>
    { x with corners := upd x.corners c fun y => { y with actionTimer := grow 20 8000 y.actionTimer } }
  if 8000 ≤ (rd s.crn.corners c).actionTimer then Crn.fault c r s else s

/-- The need of a fill has gone, or its end is met: e ≥ −m. -/
def State.fillDone (s : State) (c : Fin 6) : Bool := decide (-(s.stopMargin c) ≤ (rd s.crn.corners c).error)

/-- The end of an exhaust is met: e ≤ m. -/
def State.exhaustDone (s : State) (c : Fin 6) : Bool := decide ((rd s.crn.corners c).error ≤ s.stopMargin c)

/-- R96: SUPPLY as the only reason goes with the need; a corner in HOLDING enters IN_BAND by it, and one in FAULT stays there. -/
def Crn.judgeNeed (c : Fin 6) (s : State) : State :=
  if (rd s.crn.corners c).reasons = FreezeSet.empty.put .supply true ∧ s.fillDone c then
    Crn.changeOne c (Corner.lose .supply) s
  else s

/-- The step of the corner machine (R87 to R89, R96). -/
def Crn.step (c : Fin 6) (s : State) : State :=
  match (rd s.crn.corners c).state with
  | .inBand => Crn.stepInBand c s
  | .fillWait => if s.fillDone c then Crn.changeOne c (Corner.enter .inBand) s else s
  | .filling => if s.fillDone c then Crn.changeOne c (Corner.enter .inBand) s else Crn.growAction c .fillTimeout s
  | .exhausting =>
    if s.exhaustDone c then Crn.changeOne c (Corner.enter .inBand) s else Crn.growAction c .exhaustTimeout s
  | .holding => Crn.judgeNeed c s
  | .fault => Crn.judgeNeed c s

/-- R94: ARTIC. -/
def State.articulated (s : State) : Bool :=
  decide (s.mot.motion = .rolling) && (decide (150 < s.stc.gamma.natAbs) || s.analogFaulty 12 || s.analogFaulty 13)

/-- R94: BRAKE. -/
def State.braking (s : State) : Bool := decide (s.mot.motion = .rolling) && decide (100 < s.brk.driver)

/-- R84: the measured height and the target of this update. -/
def Crn.takeHeights (c : Fin 6) (s : State) : State :=
  s.modCrn fun x =>
    { x with corners := upd x.corners c fun y =>
        { y with measured := s.analogValue (heightChannel c), target := rd s.rlu.targets c } }

/-- R100: the corner load. -/
def Crn.takeLoad (c : Fin 6) (s : State) : State :=
  if s.inRun ∧ (rd s.crn.corners c).state = .inBand ∧ (rd s.mot.analog (pressureChannel c)).validity = .valid
      ∧ s.rlu.kneelState = .level then
    let load := (s.analogValue (pressureChannel c)).toNat * rd s.cfg.settings.area (cornerAxle c) / 10
    s.modCrn fun x => { x with corners := upd x.corners c fun y => { y with load := load, loadValid := true } }
  else s

/-- R101: the load of an axle. -/
def Crn.takeAxle (a : Fin 3) (s : State) : State :=
  s.modCrn fun x =>
    let l := rd x.corners (leftCorner a)
    let r := rd x.corners (rightCorner a)
    let sum := l.load + r.load + rd s.cfg.settings.unsprung a
    { x with axles := wr x.axles a (AxleLoad.mk (min 15000 sum) (l.loadValid && r.loadValid)) }

/-- R84, R93, R94: the gate, the heights and the reasons ARTIC and BRAKE of a corner update, before its machine steps. -/
def Crn.measure (c : Fin 6) (s : State) : State :=
  let s := Crn.takeHeights c (Crn.judgeGate s)
  Crn.changeOne c (fun x => (x.judge .artic s.articulated).judge .brake s.braking) s

/-- The corner update up to the hand-off to RLU, in the order of R84. -/
def Crn.update (c : Fin 6) (s : State) : State :=
  Crn.takeAxle (cornerAxle c) (Crn.takeLoad c (Crn.step c (Crn.measure c s)))

/-- R99, R100: every corner load and axle load is INVALID from the entry into RUN. -/
def Crn.forgetLoads (s : State) : State :=
  s.modCrn fun x =>
    { x with
      corners := mapF x.corners fun _ c => { c with loadValid := false }
      axles := mapF x.axles fun _ a => { a with valid := false } }

end Sys2Proof.Machine
end

