-- ==== Sys2Proof/Machine/Ride.lean ====
section
/-! DEFINITION. Ride level and kneeling (06_ride_level_and_kneeling.md). -/

namespace Sys2Proof.Machine

/-! ## Offsets (section 6.1) -/

/-- R103: the computed ride offset. -/
def State.rideOffset (s : State) : Nat :=
  (s.live.filter fun e => decide (e.kind = .raise ∧ e.state = .active)).foldl (fun acc e => max acc (e.parameter.getD 0)) 0

/-- R103: the computed kneel offset of a corner. -/
def State.kneelOffset (s : State) (c : Fin 6) : Nat :=
  (s.live.filter fun e =>
      decide (e.kind = .kneel ∧ e.state = .active) && e.scope.covers s.cfg.settings.curbRight c).foldl
    (fun acc e => max acc (e.parameter.getD 0)) 0

/-- R104: the hold condition. -/
def State.offsetsHeld (s : State) : Bool :=
  s.anyLive .rampOut || s.live.any fun e => decide (e.kind = .kneel ∧ e.state = .stale)

/-- R106: a corner's target. -/
def cornerTarget (ride kneel : Nat) : Int := clampInt (-120) 80 ((ride : Int) - (kneel : Int))

/-! ## The kneel state (R107) -/

/-- R107: a corner is at rest. -/
def State.atRest (s : State) (c : Fin 6) : Bool :=
  let x := rd s.crn.corners c
  decide (x.state = .inBand ∨ x.state = .holding)
    && decide ((x.measured - rd s.rlu.targets c).natAbs ≤ rd s.cfg.settings.halfWidth c)

/-- R107: some corner has a kneel offset in force. -/
def State.kneeling (s : State) : Bool := (List.finRange 6).any fun c => decide (0 < rd s.rlu.kneel c)

/-- R107. -/
def State.kneelNow (s : State) : KneelState :=
  if (List.finRange 6).any fun c => (rd s.rlu.watches c).mark then .stalled
  else if s.kneeling then
    if (List.finRange 6).all fun c => !decide (0 < rd s.rlu.kneel c) || s.atRest c then .kneeled else .lowering
  else if (List.finRange 6).any fun c =>
      decide ((rd s.crn.corners c).measured < (s.rlu.ride : Int) - (rd s.cfg.settings.halfWidth c : Nat)) then .raising
  else .level

/-- R108: derive the kneel state. -/
def Rlu.deriveKneel (s : State) : State := s.modRlu fun r => { r with kneelState := s.kneelNow }

/-! ## Curb-low (R112) -/

/-- R112. -/
def State.curbLowNow (s : State) : Bool :=
  (List.finRange 6).any fun c =>
    curbSide s.cfg.settings.curbRight c && decide ((rd s.crn.corners c).measured < (s.rlu.ride : Int) - 30)

/-- R112: judge curb-low. -/
def Rlu.judgeCurbLow (s : State) : State := s.modRlu fun r => { r with curbLow := s.curbLowNow }

/-! ## Offsets into force (R104, R105, R111) -/

/-- A stopped watch, its mark kept (R109). -/
def StallWatch.stop (w : StallWatch) : StallWatch := { w with running := false, timer := 0 }

/-- R105, R106, R111: the offsets in force take new values. -/
def Rlu.takeOffsets (ride : Nat) (kneel : Vector Nat 6) (s : State) : State :=
  let old := s.rlu.kneel
  let s := s.modRlu fun r =>
    { r with
      ride := ride
      kneel := kneel
      targets := mapF kneel fun _ k => cornerTarget ride k
      watches := mapF r.watches fun c w => if rd kneel c = rd old c then w else { w.stop with mark := false } }
  let s := Crn.change (fun c x => if rd kneel c = rd old c then x else x.lose .stall) s
  Rlu.deriveKneel (Rlu.judgeCurbLow s)

/-- R103, R104: what RLU does at a hand-off of a RAISE, KNEEL or RAMP_OUT. -/
def Rlu.fromTable (s : State) : State :=
  let held := s.offsetsHeld
  let ride := s.rideOffset
  let kneel := Vector.ofFn fun c : Fin 6 => s.kneelOffset c
  let s := s.modRlu fun r => { r with held := held }
  if held ∨ (ride = s.rlu.ride ∧ kneel = s.rlu.kneel) then s else Rlu.takeOffsets ride kneel s

/-! ## Stalls (R109, R110) -/

/-- R109: the watch condition. -/
def State.watched (s : State) (c : Fin 6) : Bool :=
  decide ((rd s.crn.corners c).state = .exhausting) && decide (0 < rd s.rlu.kneel c) && !(rd s.rlu.watches c).mark

/-- Change one watch. -/
def Rlu.changeWatch (c : Fin 6) (f : StallWatch → StallWatch) (s : State) : State :=
  s.modRlu fun r => { r with watches := upd r.watches c f }

/-- R110: the STALL mark is set. -/
def Rlu.stall (c : Fin 6) (s : State) : State :=
  let s := Rlu.changeWatch c (fun w => { w.stop with mark := true }) s
  let s := Crn.changeOne c (Corner.gain .stall) s
  Rlu.deriveKneel (s.post (.kneelStall c (rd s.rlu.kneel c) (rd s.crn.corners c).measured))

/-- R109: the end of a span of 1,000 ms. -/
def Rlu.endSpan (c : Fin 6) (s : State) : State :=
  let measured := (rd s.crn.corners c).measured
  if 5 ≤ (rd s.rlu.watches c).reference - measured then
    Rlu.changeWatch c (fun w => { w with reference := measured, timer := 0 }) s
  else Rlu.stall c s

/-- R109: the stall watch at the hand-off that ends a corner update. -/
def Rlu.watch (c : Fin 6) (s : State) : State :=
  let w := rd s.rlu.watches c
  if s.watched c then
    if w.running then
      if w.timer + 20 < 1000 then Rlu.changeWatch c (fun w => { w with timer := w.timer + 20 }) s else Rlu.endSpan c s
    else
      Rlu.changeWatch c (fun w => { w with running := true, reference := (rd s.crn.corners c).measured, timer := 0 }) s
  else Rlu.changeWatch c StallWatch.stop s

/-- R108, R109, R112: the hand-off that ends a corner's update. -/
def Rlu.afterUpdate (c : Fin 6) (s : State) : State :=
  let s := Rlu.watch c s
  Rlu.deriveKneel (if curbSide s.cfg.settings.curbRight c then Rlu.judgeCurbLow s else s)

end Sys2Proof.Machine
end

