-- ==== Sys2Proof/Machine/Table.lean ====
section
/-! DEFINITION. The Interlock Table at work: hand-offs to the other blocks, entries opened and retired by the part, supervision of
the doors, and what ends an event (02_the_interlock_table.md, sections 4.2 and 8.2 to 8.4). The order of hand-offs inside one event
is log 9. -/

namespace Sys2Proof.Machine

/-! ## Hand-offs that ask for nothing (R23, R24, R29, R30) -/

/-- R148: CL1 by the steering state. -/
def SteerState.lockOn (st : SteerState) : Bool := decide (st = .frozen ∨ st = .tracking ∨ st = .centring)

/-- R148: hand CL1's command to VDA. -/
def Stc.commandLock (s : State) : State := s.command lockChannel (bit s.stc.state.lockOn)

/-- R150: with a STEER_CENTRE live, FROZEN and TRACKING enter CENTRING. -/
def Stc.startCentring (s : State) : State :=
  if (s.stc.state = .frozen ∨ s.stc.state = .tracking) ∧ s.anyLive .steerCentre then
    Stc.commandLock (s.modStc fun x => { x with state := .centring, centringTimer := 0 })
  else s

/-- Kinds whose entries BRK reads (R120). -/
def Kind.holds (k : Kind) : Bool := decide (k = .doorOpen ∨ k = .rampOut ∨ k = .stopHold ∨ k = .serviceLock)

/-- Kinds whose entries RLU reads (R103). -/
def Kind.rides (k : Kind) : Bool := decide (k = .raise ∨ k = .kneel ∨ k = .rampOut)

/-- Kinds whose entries CRN reads (R94). -/
def Kind.freezes (k : Kind) : Bool := decide (k = .rampOut ∨ k = .serviceLock)

/-- The hand-off of an entry to BRK, RLU, CRN and STC. -/
def handOff (ev : EntryEvent) (e : Entry) (s : State) : State :=
  let s := if ev = .opened then Brk.markDoor e s else s
  let s := if e.kind.holds then Brk.judge s else s
  let s := if e.kind.rides then Rlu.fromTable s else s
  let s := if e.kind.freezes then Crn.fromTable s else s
  if e.kind = .steerCentre then Stc.startCentring s else s

/-! ## Opening (R19, R23, R37, R38, R39) -/

/-- R31: the deadline of an entry whose owner has the window, in ms. -/
def State.deadlineFor (s : State) (window : Nat) : Deadline :=
  if window = 0 then .none else .running (s.now + window * 1000)

/-- R23: the record of an entry. -/
def State.newEntry (s : State) (k : Kind) (owner : Fin 16) (authority : Nat) (scope : Scope) (parameter : Option Nat)
    (window handle : Nat) : Entry where
  handle := handle
  kind := k
  owner := owner
  authority := authority
  scope := scope
  parameter := parameter
  state := shownState (s.activates k scope)
  underlying := s.activates k scope
  deadline := s.deadlineFor window
  coveredBy := none

/-- R37 to R39: an OPEN on the internal path, and the handle it answers. -/
def openSelf (k : Kind) (scope : Scope) (parameter : Option Nat) (s : State) : State × Option Nat :=
  if s.inRun then
    match s.live.find? fun e => e.isSelf && decide (e.kind = k ∧ e.scope = scope) with
    | some e => (s, some e.handle)
    | none =>
      match s.freeSlot 18 24 with
      | none => (s, none)
      | some slot =>
        let h := s.handleOf slot
        let e := s.newEntry k 15 0 scope parameter 0
        (handOff .opened (e h) (s.placeEntry slot e), some h)
  else (s, none)

/-! ## The fault latch (R141, R142) and the steering states (R149 to R151) -/

/-- R142: STC asks for the SELF STEER_CENTRE, in RUN, when it holds none. -/
def Stc.askEntry (s : State) : State :=
  if s.inRun ∧ s.stc.selfHandle = none then
    let r := openSelf .steerCentre .vehicle none s
    r.1.modStc fun x => { x with selfHandle := r.2 }
  else s

/-- R141, R142: an event that sets the latch (log 11 for the record's state and handle). -/
def Stc.setLatch (cause : LatchCause) (s : State) : State :=
  if s.stc.latch.isSome then s
  else
    let st := s.stc.state
    let s := Stc.askEntry (s.modStc fun x => { x with latch := some cause })
    s.post (.steerFault cause st s.stc.selfHandle)

/-- R141: CL1 judged in TRACKING. -/
def Stc.judgeLock (s : State) : State :=
  if s.inRun ∧ s.stc.state = .tracking ∧ (s.channelState lockChannel).unusable then Stc.setLatch .lockChannel s else s

/-- R148, R149, R151: into FROZEN or TRACKING by the motion state, and on into CENTRING when a STEER_CENTRE is live (R150). -/
def Stc.enterMoving (s : State) : State :=
  let s := s.modStc fun x =>
    if s.standing then { x with state := .frozen } else { x with state := .tracking, trackTimer := 0 }
  Stc.startCentring (Stc.judgeLock (Stc.commandLock s))

/-- R151: LOCKED is left once no STEER_CENTRE is live. -/
def Stc.leaveLocked (s : State) : State :=
  if s.stc.state = .locked ∧ s.anyLive .steerCentre = false then
    Stc.enterMoving (s.modStc fun x => { x with command := 0 })
  else s

/-! ## Supervision of the doors (R68, R69) -/

/-- R68. -/
def State.supervisionOf (s : State) (d : Fin 4) : Supervision :=
  if s.partnerClaims d then .authorised
  else if (rd s.dsv.doors d).contact.debounced = false then .unclaimed
  else if s.selfClaims d then .resettable
  else .shut

/-- Change one door's record. -/
def Dsv.changeDoor (d : Fin 4) (f : Door → Door) (s : State) : State :=
  s.modDsv fun x => { x with doors := upd x.doors d f }

/-- R69: DSV asks for the SELF DOOR_OPEN when it holds none. -/
def Dsv.askEntry (d : Fin 4) (s : State) : State :=
  if (rd s.dsv.doors d).selfHandle = none then
    let r := openSelf .doorOpen (.door d) none s
    Dsv.changeDoor d (fun x => { x with selfHandle := r.2 }) r.1
  else s

/-- R68, R69: derive a fitted door's supervision in RUN; the entry into UNCLAIMED asks for an entry and posts. -/
def Dsv.supervise (d : Fin 4) (s : State) : State :=
  if s.inRun ∧ s.fitted d then
    let old := (rd s.dsv.doors d).supervision
    let new := s.supervisionOf d
    let s := Dsv.changeDoor d (fun x => { x with supervision := new }) s
    if new = .unclaimed ∧ old ≠ .unclaimed then
      let s := Dsv.askEntry d s
      s.post (.doorUnclaimed d (rd s.dsv.doors d).selfHandle)
    else s
  else s

/-- The door that a scope names. -/
def Scope.door? : Scope → Option (Fin 4)
  | .door d => some d
  | .curb => none
  | .full => none
  | .vehicle => none
  | .target _ => none

/-- Derive the door that a door entry names. -/
def Dsv.superviseFor (e : Entry) (s : State) : State :=
  match e.scope.door? with
  | some d => if e.kind.isDoor then Dsv.supervise d s else s
  | none => s

/-! ## Retirement (R24, R36, R39, R61, R65) -/

/-- R39, R61 step 4: the opening block forgets the handle. -/
def forgetHandle (h : Nat) (s : State) : State :=
  let s := s.modDsv fun x =>
    { x with doors := mapF x.doors fun _ d => if d.selfHandle = some h then { d with selfHandle := none } else d }
  let s := s.modBrk fun b => if b.selfHandle = some h then { b with selfHandle := none } else b
  s.modStc fun x => if x.selfHandle = some h then { x with selfHandle := none } else x

/-- The retirement handed to BRK, RLU, CRN, STC and DSV. -/
def handOffRetired (e : Entry) (s : State) : State :=
  let s := forgetHandle e.handle (handOff .retired e s)
  Dsv.superviseFor e (if e.kind = .steerCentre then Stc.leaveLocked s else s)

/-- R65: a covered target returns to STALE. -/
def uncover (target : Nat) (s : State) : State :=
  match s.resolve target with
  | some e =>
    if e.state = .covered then
      handOff .changed e (s.updEntry target fun x => { x with state := .stale, coveredBy := none })
    else s
  | none => s

/-- An OVERRIDE retired for the sake of its target; nothing else reads an OVERRIDE. -/
def dropOverride (handle : Nat) (reason : RetireReason) (s : State) : State :=
  (s.dropEntry handle).post (.partRetired handle reason)

/-- R24, R36, R61: retire a live entry; a reason of the part's own posts PART_RETIRED. -/
def retireEntry (reason : Option RetireReason) (e : Entry) (s : State) : State :=
  let s := s.dropEntry e.handle
  let s := match reason with
    | some r => s.post (.partRetired e.handle r)
    | none => s
  let s := match e.coveredBy with
    | some o => dropOverride o .targetGone s
    | none => s
  let s := match e.scope with
    | .target t => uncover t s
    | .door _ => s
    | .curb => s
    | .full => s
    | .vehicle => s
  handOffRetired e s

/-- R39: a retirement on the internal path. -/
def retireSelf (h : Nat) (s : State) : State :=
  if s.inRun then
    match s.resolve h with
    | some e => if e.isSelf then retireEntry (some .causeCleared) e s else s
    | none => s
  else s

/-- R70: a partner claims an UNCLAIMED door, so DSV retires its own entry. -/
def Dsv.claim (e : Entry) (s : State) : State :=
  match e.scope.door? with
  | some d =>
    if e.partnerDoor ∧ (rd s.dsv.doors d).supervision = .unclaimed then
      let h := (rd s.dsv.doors d).selfHandle
      let s := Dsv.supervise d s
      match h with
      | some h => retireSelf h s
      | none => s
    else Dsv.superviseFor e s
  | none => s

/-- The opening of a partner's entry handed to BRK, RLU, CRN, STC and DSV. -/
def handOffOpened (e : Entry) (s : State) : State := Dsv.claim e (handOff .opened e s)

/-! ## Evaluation, and the end of an event (R29, R30, log 9) -/

/-- WAITING or ACTIVE: the entry shows its underlying state (R29, R30). -/
def EntryState.follows (st : EntryState) : Bool := decide (st = .waiting ∨ st = .active)

/-- An entry with its activation evaluated (R29, R30). -/
def Entry.evaluated (active : Bool) (e : Entry) : Entry :=
  { e with underlying := active, state := if e.state.follows then shownState active else e.state }

/-- R29: evaluate every live entry, and hand on each change of shown state. -/
def evaluate (s : State) : State :=
  let changed := s.live.filter fun e => decide ((e.evaluated (s.activates e.kind e.scope)).state ≠ e.state)
  let after := s.modIlt fun t =>
    { t with slots := mapF t.slots fun _ x =>
        { x with entry := x.entry.map fun e => e.evaluated (s.activates e.kind e.scope) } }
  changed.foldl (fun s e => handOff .changed e s) after

/-- Every live entry stands as its activation condition gives it (R23, R29, R30). -/
def State.evaluated (s : State) : Bool := s.live.all fun e => decide (e.evaluated (s.activates e.kind e.scope) = e)

/-- R29: evaluate when a live entry no longer stands as its condition gives it. -/
def evaluateOnce (s : State) : State := if s.evaluated then s else evaluate s

/-- R29 in RUN, for the inputs that the event moved. An evaluation can itself move the hold confirmation once and the kneel state
once, so the third is the last (log 9). -/
def reevaluate (s : State) : State := if s.inRun then evaluateOnce (evaluateOnce (evaluateOnce s)) else s

/-- What ends an event: ILT's evaluation and DSV's outputs. -/
def State.finish (s : State) : State := Dsv.judge (reevaluate s)

/-! ## Expiry and the retirements of the part (R31, R33 to R35, R63) -/

/-- R31, R34, R35: the refresh deadline of an entry runs out. -/
def expireEntry (e : Entry) (s : State) : State :=
  if e.kind = .raise ∨ e.kind = .override then retireEntry (some .stale) e s
  else if e.state.follows then
    (handOff .changed e (s.updEntry e.handle fun x => { x with state := .stale, deadline := .stopped 0 })).post
      (.staleEntry e.handle)
  else s

/-- Retire the live entries of a sort, oldest first, for a reason of the part's (log 36 for the order). -/
def retireAll (reason : RetireReason) (which : Entry → Bool) (s : State) : State :=
  (s.live.filter which).foldl (fun s e => retireEntry (some reason) e s) s

/-- R33, R34: the speed retirements of a speed update. -/
def retireForSpeed (s : State) : State :=
  if s.inRun then
    retireAll .speed (fun e => (decide (e.kind = .kneel) && s.speedAbove 50)
      || (decide (e.kind = .raise) && s.speedAbove 350)) s
  else s

/-- Whether an OVERRIDE's target names a door (R63). -/
def State.overridesDoor (s : State) (d : Fin 4) (e : Entry) : Bool :=
  match e.scope with
  | .target t =>
    match s.resolve t with
    | some x => decide (x.scope = .door d)
    | none => false
  | .door _ => false
  | .curb => false
  | .full => false
  | .vehicle => false

/-- R63: a debounced opening of a door's contact retires every OVERRIDE on the door. -/
def retireOverrides (d : Fin 4) (s : State) : State :=
  if s.inRun then retireAll .contactOpen (s.overridesDoor d) s else s

end Sys2Proof.Machine
end

