-- ==== Sys2Proof/Machine/Steering.lean ====
section
/-! DEFINITION. Rear-axle steering and joint damping: the steering update, the device states, the bank swap
(08_rear_axle_steering_and_joint_damping.md). The fault latch and the entries into FROZEN, TRACKING and CENTRING stand in
Machine/Table.lean, since they open entries. -/

namespace Sys2Proof.Machine

/-! ## Inputs and plausibility (R140, R141) -/

/-- R140: the articulation angle γ. -/
def State.gammaNow (s : State) : Int :=
  let a := s.analogValue 12
  let b := s.analogValue 13
  if s.analogFaulty 12 ∧ s.analogFaulty 13 = false then b
  else if s.analogFaulty 13 ∧ s.analogFaulty 12 = false then a
  else Int.tdiv (a + b) 2

/-- R140: the inputs of a steering update. -/
def Stc.takeInputs (s : State) : State :=
  s.modStc fun x =>
    { x with
      prevGamma := if x.gammaFormed then some x.gamma else none
      gamma := s.gammaNow
      gammaFormed := true
      delta1 := s.analogValue 14
      delta3 := s.analogValue 15 }

/-- R141: the latch cause of a FAULTY steering sensor. -/
def sensorCause (c : Fin 21) : LatchCause :=
  if c = 12 then .artASensor else if c = 13 then .artBSensor else if c = 14 then .frontSensor else .actuatorSensor

/-- R141: a steering update finds the sensor FAULTY. -/
def Stc.judgeSensor (c : Fin 21) (s : State) : State := if s.analogFaulty c then Stc.setLatch (sensorCause c) s else s

/-- |γa − γb| is above 2.0°. -/
def State.anglesDisagree (s : State) : Bool := decide (20 < (s.analogValue 12 - s.analogValue 13).natAbs)

/-- R141: the disagreement timer at a steering update. -/
def Stc.judgeDisagreement (s : State) : State :=
  let timer :=
    if !s.analogFaulty 12 && !s.analogFaulty 13 && s.anglesDisagree then grow 10 100 s.stc.disagreeTimer else 0
  let s := s.modStc fun x => { x with disagreeTimer := timer }
  if 100 ≤ timer then Stc.setLatch .disagree s else s

/-- R141: TRACKING without a speed, in RUN. -/
def Stc.judgeSpeed (s : State) : State :=
  if s.inRun ∧ s.stc.state = .tracking ∧ s.mot.speed = none then Stc.setLatch .speedInvalid s else s

/-- R141 at a steering update, before the command. Where several causes first hold at one update, the first of AN12, AN13, AN14, AN15,
DISAGREE, SPEED_INVALID sets the latch (log 39, the model's choice). -/
def Stc.judgePlausibility (s : State) : State :=
  let s := Stc.judgeSensor 15 (Stc.judgeSensor 14 (Stc.judgeSensor 13 (Stc.judgeSensor 12 s)))
  Stc.judgeSpeed (Stc.judgeDisagreement s)

/-! ## The schedule (R144) -/

/-- R144: one value between two rows. -/
def interpolate (v v0 v1 x0 x1 : Int) : Int := x0 + Int.tdiv ((x1 - x0) * (v - v0)) (v1 - v0)

/-- The schedule values of a row. -/
def Row.schedule (r : Row) : Schedule where
  gArt := r.gArt
  gFront := r.gFront
  lim := r.lim
  slew := r.slew
  damp := r.damp

/-- R144: the five values between two rows. -/
def Row.between (v : Int) (r0 r1 : Row) : Schedule where
  gArt := interpolate v r0.v r1.v r0.gArt r1.gArt
  gFront := interpolate v r0.v r1.v r0.gFront r1.gFront
  lim := interpolate v r0.v r1.v r0.lim r1.lim
  slew := interpolate v r0.v r1.v r0.slew r1.slew
  damp := interpolate v r0.v r1.v r0.damp r1.damp

/-- The last row below the row count. -/
def Bank.last (b : Bank) : Row := rd b.rows ⟨min (b.count - 1) 15, by omega⟩

/-- R144: look up a bank at a speed. -/
def Bank.lookup (b : Bank) (v : Int) : Schedule :=
  if b.last.v ≤ v then b.last.schedule
  else
    match (List.finRange 15).find? fun i =>
        decide (i.val + 1 < b.count ∧ (rd b.rows i.castSucc).v ≤ v ∧ v < (rd b.rows i.succ).v) with
    | some i => Row.between v (rd b.rows i.castSucc) (rd b.rows i.succ)
    | none => b.last.schedule

/-- The bank in use (R155). -/
def Stc.bankInUse (x : Stc) : Bank := x.bank x.inUse

/-- R144 at a steering update: in RUN, at a valid speed. -/
def Stc.lookUp (s : State) : State :=
  match s.mot.speed with
  | some v => if s.inRun then s.modStc fun x => { x with schedule := some (x.bankInUse.lookup v) } else s
  | none => s

/-! ## The command (R145 to R147) -/

/-- R145: the kinematic target in TRACKING. -/
def State.kinematicTarget (s : State) (u : Schedule) : Int :=
  if s.selected = .reverse ∧ s.mot.motion = .rolling then 0
  else Int.tdiv (u.gArt * s.stc.gamma + u.gFront * s.stc.delta1) 1024

/-- R146: the lower and upper bounds of the limit in force. -/
def steerBounds (windowOpen curbRight : Bool) (lim curbGuard : Int) : Int × Int :=
  if windowOpen then
    if curbRight then (-lim, min lim curbGuard) else (-(min lim curbGuard), lim)
  else (-lim, lim)

/-- R147: the command from the command of the previous update. -/
def steerCommand (prev target slew lower upper : Int) : Int :=
  clampInt lower upper (prev + clampInt (-slew) slew (target - prev))

/-- R146, R147: form the limit in force and the command toward a target. -/
def Stc.formCommand (target : Int) (u : Schedule) (s : State) : State :=
  let b := steerBounds s.stc.windowOpen s.cfg.settings.curbRight u.lim (s.cfg.settings.curbGuard : Nat)
  s.modStc fun x => { x with command := steerCommand x.command target u.slew b.1 b.2, lower := b.1, upper := b.2 }

/-- R141: the tracking error at a steering update: the command handed at the previous update against this update's δ3. -/
def State.trackingOff (s : State) : Bool := decide (30 < (s.stc.report.command - s.stc.delta3).natAbs)

/-- R141: the tracking error timer, after the command. -/
def Stc.judgeTracking (s : State) : State :=
  let timer := if s.trackingOff then grow 10 300 s.stc.trackTimer else 0
  let s := s.modStc fun x => { x with trackTimer := timer }
  if 300 ≤ timer then Stc.setLatch .trackingError s else s

/-- R151: into LOCKED, which is left at once when no STEER_CENTRE is live. -/
def Stc.enterLocked (s : State) : State :=
  Stc.commandLock (Stc.leaveLocked (s.modStc fun x => { x with state := .locked, command := 0 }))

/-- R151: into PASSIVE; a clear latch is set by it, and the notice is posted once. -/
def Stc.enterPassive (s : State) : State :=
  let s := Stc.commandLock (s.modStc fun x => { x with state := .passive, command := 0 })
  let s :=
    if s.stc.latch.isSome then s
    else Stc.askEntry (s.modStc fun x => { x with latch := some .centringTimeout })
  s.post (.steerFault .centringTimeout .passive s.stc.selfHandle)

/-- R150: the axle is at centre. -/
def State.centred (s : State) : Bool := !s.analogFaulty 15 && decide (s.stc.delta3.natAbs ≤ 5)

/-- R150, R151: the centring judged, after the command. -/
def Stc.judgeCentring (s : State) : State :=
  if s.centred then Stc.enterLocked s
  else
    let timer := grow 10 2000 s.stc.centringTimer
    let s := s.modStc fun x => { x with centringTimer := timer }
    if 2000 ≤ timer then Stc.enterPassive s else s

/-- The command's part of a steering update, by the state (R139, R145 to R147, R150). -/
def Stc.steer (s : State) : State :=
  match s.stc.schedule with
  | none => s
  | some u =>
    match s.stc.state with
    | .tracking => Stc.judgeTracking (Stc.formCommand (s.kinematicTarget u) u s)
    | .centring => Stc.judgeCentring (Stc.formCommand 0 u s)
    | .parked => s
    | .frozen => s
    | .locked => s
    | .passive => s

/-! ## Joint damping (R152, R153) -/

/-- R153: the joint limit condition. -/
def Stc.judgeJoint (s : State) : State :=
  let entered := decide (480 ≤ s.stc.gamma.natAbs) && !s.stc.jointLimit
  let holds := if 480 ≤ s.stc.gamma.natAbs then true else if s.stc.gamma.natAbs < 450 then false else s.stc.jointLimit
  let t := s.modStc fun x => { x with jointLimit := holds }
  if entered then t.post (.jointLimit s.stc.gamma) else t

/-- R152: the rate of γ from one update to the next. -/
def Stc.gammaRate (x : Stc) : Nat :=
  match x.prevGamma with
  | some p => (x.gamma - p).natAbs
  | none => 0

/-- R152: the damper command. -/
def State.damperNow (s : State) : Nat :=
  if s.stc.state = .parked then 1000
  else if s.analogFaulty 12 ∨ s.analogFaulty 13 then 1000
  else if s.stc.jointLimit then 1000
  else if s.mot.speed = none then 1000
  else
    match s.stc.schedule with
    | some u => min 1000 (u.damp.toNat + s.cfg.settings.rateGain * s.stc.gammaRate)
    | none => 1000

/-- R152, R161: form the damper command and hand it to PD1. -/
def Stc.damp (s : State) : State :=
  let d := s.damperNow
  (s.modStc fun x => { x with damper := d }).command damperChannel d

/-! ## The hand-off to LNK and the report (R147, R159, section 10.1) -/

/-- A signed 16-bit value, most significant byte first. -/
def hiLo (v : Int) : Byte × Byte :=
  let w := BitVec.ofInt 16 v
  (w.extractLsb' 8 8, w.extractLsb' 0 8)

/-- The steering command frame (section 10.1). -/
def State.steeringFrame (s : State) : TxFrame where
  identifier := s.cfg.settings.ansBase + 15
  content :=
    { b0 := (hiLo s.stc.command).1
      b1 := (hiLo s.stc.command).2
      b2 := BitVec.ofNat 8 s.stc.state.code
      b3 := BitVec.ofNat 8 (bit s.stc.state.lockOn)
      b4 := s.lnk.steerCount
      b5 := 0
      b6 := 0
      b7 := 0 }

/-- R175: place the steering frame; the counter then grows by one (log 32). -/
def Stc.placeFrame (s : State) : State :=
  s.modLnk fun l => { l with steering := some s.steeringFrame, steerCount := l.steerCount + 1 }

/-- R159: the fields as they stand at this steering update. -/
def Stc.takeReport (s : State) : State :=
  s.modStc fun x =>
    { x with
      report :=
        { state := x.state, command := x.command, delta3 := x.delta3, gamma := x.gamma, delta1 := x.delta1
          lower := x.lower, upper := x.upper, damper := x.damper, jointLimit := x.jointLimit
          windowOpen := x.windowOpen } }

/-- The steering update, in the order of R139. -/
def Stc.update (s : State) : State :=
  let s := Stc.lookUp (Stc.judgePlausibility (Stc.takeInputs s))
  Stc.takeReport (Stc.placeFrame (Stc.damp (Stc.judgeJoint (Stc.steer s))))

/-! ## Device states (R148) -/

/-- R148: the schedule at the entry into RUN, at row 0 when the speed is INVALID. -/
def State.scheduleAtStart (s : State) : Schedule :=
  match s.mot.speed with
  | some v => s.stc.bankInUse.lookup v
  | none => (rd s.stc.bankInUse.rows 0).schedule

/-- R148: the entry into RUN (log 19 for the measured δ3). -/
def Stc.enterRun (s : State) : State :=
  let u := s.scheduleAtStart
  let s := Stc.enterMoving (s.modStc fun x =>
    { x with schedule := some u, command := clampInt (-u.lim) u.lim (s.analogValue 15), lower := -u.lim, upper := u.lim })
  if s.stc.latch.isSome then Stc.askEntry s else s

/-- R148, R144: the exit from RUN; PD1 goes to full damping (log 28). -/
def Stc.exitRun (s : State) : State :=
  (Stc.commandLock (s.modStc fun x =>
    { x with
      state := .parked
      command := 0
      windowOpen := false
      schedule := none
      disagreeTimer := 0
      trackTimer := 0
      centringTimer := 0
      damper := 1000 })).command damperChannel 1000

/-! ## Bank swaps and the motion state (R149, R158) -/

/-- R158: a pending swap is judged. -/
def Stc.judgeSwap (s : State) : State :=
  match s.stc.pendingSwap with
  | none => s
  | some id =>
    if (s.stc.bank id).valid then
      (s.modStc fun x => { x with inUse := id, pendingSwap := none }).post (.bankSwapped id true)
    else (s.modStc fun x => { x with pendingSwap := none }).post (.bankSwapped s.stc.inUse false)

/-- R149, R158: STC at a change of the motion state. -/
def Stc.onMotion (s : State) : State :=
  if s.inRun then
    let s := if s.standing then Stc.judgeSwap s else s
    if (s.stc.state = .frozen ∧ s.standing = false) ∨ (s.stc.state = .tracking ∧ s.standing) then Stc.enterMoving s else s
  else s

end Sys2Proof.Machine
end

