-- ==== Sys2Proof/Machine/Motion.lean ====
section
/-! DEFINITION. Vehicle signals and the motion state (01_vehicle_signals_and_the_motion_state.md), with the rollback hold of BRK
(section 7.6). -/

namespace Sys2Proof.Machine

/-! ## Analog channels (R1 to R3) -/

/-- R1: the sample is in the channel's window. -/
def Settings.inWindow (g : Settings) (c : Fin 21) (raw : BitVec 12) : Bool :=
  decide (rd g.low c ≤ raw.toNat ∧ raw.toNat ≤ rd g.high c)

/-- R1: the converted value, clamped to the engineering range. -/
def Settings.convert (g : Settings) (c : Fin 21) (raw : BitVec 12) : Int :=
  clampInt (engineeringRange c).1 (engineeringRange c).2
    (Int.tdiv (((raw.toNat : Int) - (rd g.offset c : Nat)) * rd g.gain c) 1024)

/-- R2: the record after a sample, in window with its converted value or out of window (none). -/
def AnalogChannel.sample (value : Option Int) (x : AnalogChannel) : AnalogChannel :=
  match x.validity, value with
  | .valid, some v => { x with value := v, bad := 0 }
  | .valid, none => { x with validity := .held, bad := 1 }
  | .held, some v => { x with validity := .valid, value := v, bad := 0 }
  | .held, none =>
    if 2 ≤ x.bad then { x with validity := .faulty, bad := 3, good := 0 } else { x with bad := x.bad + 1 }
  | .faulty, some v =>
    if 4 ≤ x.good then { x with validity := .valid, value := v, bad := 0, good := 0 } else { x with good := x.good + 1 }
  | .faulty, none => { x with good := 0 }

/-- R1, R2: a sample event of a channel, on its record. -/
def Mot.sample (c : Fin 21) (raw : BitVec 12) (s : State) : State :=
  let value := if s.cfg.settings.inWindow c raw then some (s.cfg.settings.convert c raw) else none
  s.modMot fun m =>
    { m with analog := upd m.analog c fun x => AnalogChannel.sample value { x with raw := raw, lastSample := s.now } }

/-- R3, R97, R141: an analog channel enters FAULTY. The record's trip count is 0 (log 33, the model's choice). -/
def analogFails (c : Fin 21) (s : State) : State :=
  let s := s.post (.channelFault .analog c.val .faulty 0)
  let s := if h : c.val < 6 then Crn.fault ⟨c.val, h⟩ .heightSensor s else s
  if c = 12 ∨ c = 13 ∨ c = 14 then Stc.setLatch (sensorCause c) s else s

/-- A sample event (R1 to R3). -/
def sampleAnalog (c : Fin 21) (raw : BitVec 12) (s : State) : State :=
  let t := Mot.sample c raw s
  State.finish (if s.analogFaulty c = false ∧ t.analogFaulty c then analogFails c t else t)

/-! ## Wheel channels (R5 to R8) -/

/-- R5: a rising edge with the rotation its direction line shows. -/
def WheelChannel.edge (now : Nat) (rotation : Direction) (w : WheelChannel) : WheelChannel :=
  { w with
    direction := rotation
    tally := if rotation = .forward then w.tally + 1 else w.tally - 1
    period := match w.lastEdge with
      | some t => some (now - t)
      | none => w.period
    lastEdge := some now }

/-- R6: the wheel speed of a record; the quotient at an effective period of 0 is a free value (log 7). -/
def wheelSpeed (now ppm fresh : Nat) (w : WheelChannel) : Nat :=
  match w.period, w.lastEdge with
  | some p, some t =>
    if 2000000 < now - t then 0
    else
      let eff := max p (now - t)
      if eff = 0 then min 1200 (Config.wheelSpeedAtZeroPeriod fresh) else min 1200 (36000000 / (ppm * eff))
  | some _, none => 0
  | none, _ => 0

/-- A speed lies within 20 % of a reference (R8). -/
def within20 (speed reference : Nat) : Bool := decide (5 * ((speed : Int) - (reference : Int)).natAbs ≤ reference)

/-- R8: the channel agrees, from the vehicle speed of the previous update and the wheel speeds. -/
def agrees (prev : Option Nat) (speeds : Vector Nat 4) (i : Fin 4) : Bool :=
  match prev with
  | some v => decide (0 < v) && within20 (rd speeds i) v
  | none =>
    decide (0 < rd speeds i)
      && (List.finRange 4).any fun j => decide (j ≠ i ∧ 0 < rd speeds j) && within20 (rd speeds i) (rd speeds j)

/-- A channel whose validity changes: both timers 0 (R7, R8). -/
def WheelChannel.become (faulty : Bool) (w : WheelChannel) : WheelChannel :=
  { w with faulty := faulty, zeroTimer := 0, agreementTimer := 0 }

/-- R7: the channel reads 0 above 10.0 km/h. -/
def stuck (prev : Option Nat) (speed : Nat) : Bool :=
  decide (speed = 0) && (match prev with
    | some v => decide (100 < v)
    | none => false)

/-- R7, R8: the validity and the timers at a speed update. -/
def WheelChannel.judge (prev : Option Nat) (speeds : Vector Nat 4) (i : Fin 4) (w : WheelChannel) : WheelChannel :=
  let w := { w with speed := rd speeds i }
  if w.faulty then
    let timer := if agrees prev speeds i then w.agreementTimer + 20 else 0
    if 5000 ≤ timer then w.become false else { w with agreementTimer := timer }
  else
    let timer := if stuck prev w.speed then w.zeroTimer + 20 else 0
    if 2000 ≤ timer then w.become true else { w with zeroTimer := timer }

/-! ## Vehicle speed, direction and distance (R10 to R12) -/

/-- R10: the vehicle speed from the speeds of the VALID channels. -/
def vehicleSpeed (speeds : List Nat) : Option Nat :=
  let top := speeds.foldl max 0
  let bottom := speeds.foldl min 1200
  match speeds.length with
  | 4 => some ((speeds.sum - top - bottom) / 2)
  | 3 => some (speeds.sum - top - bottom)
  | 2 => some top
  | _ => none

/-- The VALID channels. -/
def validWheels (w : Vector WheelChannel 4) : List (Fin 4) := (List.finRange 4).filter fun i => !(rd w i).faulty

/-- R11. -/
def vehicleDirection (w : Vector WheelChannel 4) : Direction :=
  let moving := (validWheels w).filter fun i => decide (0 < (rd w i).speed)
  let back := moving.filter fun i => decide ((rd w i).direction = .reverse)
  if moving.length < 2 * back.length then .reverse else .forward

/-- R12: the travel of the interval in 0.01 m with the residue before, exactly. -/
def intervalTravel (w : Vector WheelChannel 4) (ppm : Vector Nat 4) (residue : Fraction) : Fraction :=
  let valid := validWheels w
  valid.foldl (fun acc i => acc.add (Fraction.reduce (100 * (rd w i).tally) (rd ppm i * valid.length))) residue

/-- R15: the motion state and the settle timer after an update at speed v. -/
def motionAfter (threshold band : Nat) (v : Option Nat) (m : MotionState) (timer : Nat) : MotionState × Nat :=
  match v with
  | none => (.unknown, 0)
  | some v =>
    match m with
    | .unknown => if v < threshold then (.settling, 0) else (.rolling, timer)
    | .rolling => if v < threshold then (.settling, 0) else (.rolling, timer)
    | .settling =>
      if v < threshold then (if timer + 20 < 300 then (.settling, timer + 20) else (.standstill, 0))
      else if v < threshold + band then (.settling, 0)
      else (.rolling, 0)
    | .standstill => if v < threshold + band then (.standstill, timer) else (.rolling, timer)

/-! ## What MOT forms at a speed update (R6 to R15) -/

/-- The wheel speeds of this update. -/
def State.wheelSpeeds (s : State) : Vector Nat 4 :=
  mapF s.mot.wheels fun i w => wheelSpeed s.now (rd s.cfg.settings.ppm i) (s.fresh + i.val) w

/-- R6 to R8: the wheel channels judged; the MODEL's counter moves past the free values used. -/
def Mot.judgeWheels (s : State) : State :=
  let speeds := s.wheelSpeeds
  let prev := s.mot.speed
  { s.modMot fun m => { m with wheels := mapF m.wheels fun i w => w.judge prev speeds i } with fresh := s.fresh + 4 }

/-- R10, R11: the speed and the direction; a channel that returned at this update counts toward the speed from the next one
(log 20). -/
def Mot.formSpeed (before : Vector WheelChannel 4) (s : State) : State :=
  s.modMot fun m =>
    { m with
      speed := vehicleSpeed (((List.finRange 4).filter fun i =>
        !(rd before i).faulty && !(rd m.wheels i).faulty).map fun i => (rd m.wheels i).speed)
      direction := vehicleDirection m.wheels }

/-- R12: the distance counter, its residue, and every tally to 0. -/
def Mot.formDistance (s : State) : State :=
  s.modMot fun m =>
    let travel := intervalTravel m.wheels s.cfg.settings.ppm m.residue
    { m with
      counter := if (validWheels m.wheels).isEmpty then m.counter else m.counter + BitVec.ofInt 32 travel.trunc
      residue := if (validWheels m.wheels).isEmpty then m.residue else travel.rest
      wheels := mapF m.wheels fun _ w => { w with tally := 0 } }

/-- R15. -/
def Mot.formMotion (s : State) : State :=
  s.modMot fun m =>
    let r := motionAfter s.cfg.settings.threshold s.cfg.settings.bandWidth m.speed m.motion m.settleTimer
    { m with motion := r.1, settleTimer := r.2 }

/-- R7: the notices of the wheels that entered FAULTY, in the order A1L, A1R, A3L, A3R (log 34) and with the trip count 0 (log 33),
both the model's choices. -/
def reportWheels (before : Vector WheelChannel 4) (s : State) : State :=
  (List.finRange 4).foldl (fun s i =>
    if (rd before i).faulty = false ∧ (rd s.mot.wheels i).faulty then s.post (.channelFault .wheel i.val .faulty 0)
    else s) s

/-! ## The motion state handed on (R15) -/

/-- R17: armed at an entry into STANDSTILL in RUN. -/
def Mot.arm (s : State) : State :=
  if s.inRun ∧ s.standing then s.modMot fun m => { m with armed := true, reference := m.counter } else s

/-- R15: a change of the motion state handed to BRK and STC; ILT and DSV take it at the end of the event, and CRN and RLU hold
nothing that moves with it. -/
def motionChanged (s : State) : State := Stc.onMotion (Brk.judge (Mot.arm s))

/-! ## Rollback (R17, R18, R132, R133) -/

/-- R17: a hold is in force. -/
def HoldState.inForce (h : HoldState) : Bool := decide (h = .applying ∨ h = .held ∨ h = .waitDrive)

/-- R17: the watch condition. -/
def State.rollWatched (s : State) : Bool := s.speedAtMost 29 && !s.brk.hold.inForce

/-- The wrapping difference of a counter value over a reference (R12). -/
def counterPast (counter reference : BitVec 32) : Int := (counter - reference).toInt

/-- R17: the reference moved at a speed update. -/
def movedReference (watched : Bool) (sel : Selected) (counter reference : BitVec 32) : BitVec 32 :=
  if watched then
    match sel with
    | .forward => if 0 < counterPast counter reference then counter else reference
    | .reverse => if counterPast counter reference < 0 then counter else reference
    | .neutral => reference
  else counter

/-- R18: 0.30 m against the selected direction. -/
def rolledBack (sel : Selected) (counter reference : BitVec 32) : Bool :=
  match sel with
  | .forward => decide (counterPast counter reference ≤ -30)
  | .reverse => decide (30 ≤ counterPast counter reference)
  | .neutral => decide (counterPast counter reference ≤ -30) || decide (30 ≤ counterPast counter reference)

/-- R132: BRK answers a rollback. -/
def Brk.rollback (s : State) : State :=
  let s :=
    if s.brk.selfHandle = none then
      let r := openSelf .stopHold .vehicle (some 450) s
      r.1.modBrk fun b => { b with selfHandle := r.2 }
    else s
  s.post (.rollbackHold s.selected s.brk.selfHandle)

/-- R17, R18: the rollback measurement at a speed update. -/
def Mot.judgeRollback (s : State) : State :=
  if s.mot.armed then
    let watched := s.rollWatched
    let s := s.modMot fun m => { m with reference := movedReference watched s.selected m.counter m.reference }
    if watched && rolledBack s.selected s.mot.counter s.mot.reference then
      Brk.rollback (s.modMot fun m => { m with armed := false })
    else s
  else s

/-- R133: DRIVE_REQ asserted with a gear selected retires the SELF STOP_HOLD. -/
def Brk.release (s : State) : State :=
  if s.mot.driveReq.debounced ∧ s.selected ≠ .neutral then
    match s.brk.selfHandle with
    | some h => retireSelf h s
    | none => s
  else s

/-! ## The speed update, whole -/

/-- The speed update (R6 to R18, R33, R34), in the order of log 27. -/
def speedUpdate (s : State) : State :=
  let formed := Mot.formMotion (Mot.formDistance (Mot.formSpeed s.mot.wheels (Mot.judgeWheels s)))
  let t := reportWheels s.mot.wheels formed
  let t := if t.mot.motion ≠ s.mot.motion then motionChanged t else t
  State.finish (retireForSpeed (Mot.judgeRollback t))

/-! ## Selector and drive lines (R14) -/

/-- A line's level changes (R14, R66): the time at the new level starts. -/
def InputLine.setLevel (now : Nat) (level : Bool) (l : InputLine) : InputLine :=
  if l.level = level then l else { l with level := level, since := now }

/-- The line has stood off its debounced level: the instant at which the change is due (R14, R66). -/
def InputLine.due (l : InputLine) : Option Nat := if l.level = l.debounced then none else some (l.since + 50000)

/-- The debounced level follows the line (R14, R66). -/
def InputLine.settle (l : InputLine) : InputLine := { l with debounced := l.level }

/-- The record of a line. -/
def Mot.line (m : Mot) : DriveLine → InputLine
  | .selFwd => m.selFwd
  | .selRev => m.selRev
  | .driveReq => m.driveReq

/-- Change the record of a line. -/
def Mot.changeLine (line : DriveLine) (f : InputLine → InputLine) (m : Mot) : Mot :=
  match line with
  | .selFwd => { m with selFwd := f m.selFwd }
  | .selRev => { m with selRev := f m.selRev }
  | .driveReq => { m with driveReq := f m.driveReq }

/-- R14, R17, R133: a change of the selected direction. -/
def selectionChanged (s : State) : State :=
  Brk.release (if s.mot.armed then s.modMot fun m => { m with reference := m.counter } else s)

/-- R14, R127, R133: a change of DRIVE_REQ. -/
def driveChanged (s : State) : State :=
  if s.mot.driveReq.debounced ∧ s.inRun then Brk.leaveWait (Brk.release s) else s

/-- R14: a line's debounced state changes. -/
def lineSettles (line : DriveLine) (s : State) : State :=
  let t := s.modMot (Mot.changeLine line InputLine.settle)
  State.finish (
    if line = .driveReq then driveChanged t
    else if t.selected ≠ s.selected then selectionChanged t
    else t)

end Sys2Proof.Machine
end

