-- ==== Sys2Proof/Machine/ChassisCommands.lean ====
section
/-! DEFINITION. The meanings of the events of the corners, the brakes and the steering. A row for one moment
of an update is the whole update, when it brings the moment, and has no effect otherwise (log 4). -/

namespace Sys2Proof.Machine

/-! ## Corners -/

/-- A corner's next update as it begins: 20 ms after its last or later (log 3). -/
def cornerBegins (corner : Fin 6) (s : State) : State :=
  let s := s.advanceTo ((rd s.crn.corners corner).lastUpdate + 20000)
  s.modCrn fun x => { x with corners := upd x.corners corner fun c => { c with lastUpdate := s.now } }

/-- A corner update, whole (R84, R108, R109). -/
def cornerUpdateAt (corner : Fin 6) (s : State) : State :=
  State.finish (Rlu.afterUpdate corner (Crn.update corner (cornerBegins corner s)))

/-- CORNER_UPDATE (R84). -/
def execCornerUpdate (corner : Fin 6) (s : State) : Host.Outcome State Fault Refusal := .next (cornerUpdateAt corner s)

/-- R86: with the heights of this update the corner qualifies. -/
def State.qualifies (s : State) (corner : Fin 6) : Bool :=
  let c := rd s.crn.corners corner
  decide (c.state = .inBand)
    && decide (s.qualifySpan ≤ (c.qualify ((rd s.cfg.settings.halfWidth corner : Nat) : Int)).qualifyTimer)

/-- CORNER_QUALIFIED (R86, R87): the corner update that qualifies the corner. -/
def execCornerQualified (corner : Fin 6) (s : State) : Host.Outcome State Fault Refusal :=
  .next (if (Crn.measure corner (cornerBegins corner s)).qualifies corner then cornerUpdateAt corner s else s)

/-- R88: with the heights of this update the action reaches its bound without its end. -/
def State.timedOut (s : State) (corner : Fin 6) : Bool :=
  let c := rd s.crn.corners corner
  decide (8000 ≤ c.actionTimer + 20)
    && ((decide (c.state = .filling) && !s.fillDone corner) || (decide (c.state = .exhausting) && !s.exhaustDone corner))

/-- ACTION_TIMEOUT (R88, R97): the corner update at which the action times out. -/
def execActionTimeout (corner : Fin 6) (s : State) : Host.Outcome State Fault Refusal :=
  .next (if (Crn.measure corner (cornerBegins corner s)).timedOut corner then cornerUpdateAt corner s else s)

/-- R109: this hand-off to RLU ends a span of the stall watch. -/
def State.spanEnds (s : State) (corner : Fin 6) : Bool :=
  let w := rd s.rlu.watches corner
  s.watched corner && w.running && decide (1000 ≤ w.timer + 20)

/-- STALL_WATCH_SPAN (R109): the corner update that ends a span. -/
def execStallWatchSpan (corner : Fin 6) (s : State) : Host.Outcome State Fault Refusal :=
  .next (if (Crn.update corner (cornerBegins corner s)).spanEnds corner then cornerUpdateAt corner s else s)

/-! ## Brakes -/

/-- The brake update of BRK at its time, 10 ms after the last or later (log 3), before the event ends. -/
def brakesMove (s : State) : State :=
  let s := s.advanceTo (s.brk.lastUpdate + 10000)
  Brk.update (s.modBrk fun b => { b with lastUpdate := s.now })

/-- BRAKE_UPDATE (R119). -/
def execBrakeUpdate (s : State) : Host.Outcome State Fault Refusal := .next (State.finish (brakesMove s))

/-- The next brake update takes the hold from the one state to the other. -/
def holdTurns (before after : HoldState) (s : State) : Bool :=
  decide (s.brk.hold = before ∧ (brakesMove s).brk.hold = after)

/-- HOLD_CONFIRMED (R124): the brake update that confirms the hold. -/
def execHoldConfirmed (s : State) : Host.Outcome State Fault Refusal :=
  .next (if holdTurns .applying .held s then State.finish (brakesMove s) else s)

/-- R124: the next brake update ends the unconfirmed watch. -/
def State.watchEnds (s : State) : Bool := !s.brk.unconfirmedPosted && (brakesMove s).brk.unconfirmedPosted

/-- HOLD_UNCONFIRMED_TIMEOUT (R124): the brake update that ends the unconfirmed watch. -/
def execHoldUnconfirmedTimeout (s : State) : Host.Outcome State Fault Refusal :=
  .next (if s.watchEnds then State.finish (brakesMove s) else s)

/-- HOLD_LOST (R125): the brake update that loses the hold. -/
def execHoldLost (s : State) : Host.Outcome State Fault Refusal :=
  .next (if holdTurns .held .applying s then State.finish (brakesMove s) else s)

/-- HOLD_RAMP_END (R128): the brake update that ends the ramp. -/
def execHoldRampEnd (s : State) : Host.Outcome State Fault Refusal :=
  .next (if holdTurns .ramping .released s then State.finish (brakesMove s) else s)

/-! ## Steering -/

/-- The steering update of STC at its time, 10 ms after the last or later (log 3), before the event ends. -/
def steeringMoves (s : State) : State :=
  let s := s.advanceTo (s.stc.lastUpdate + 10000)
  Stc.update (s.modStc fun x => { x with lastUpdate := s.now })

/-- STEERING_UPDATE (R139). -/
def execSteeringUpdate (s : State) : Host.Outcome State Fault Refusal := .next (State.finish (steeringMoves s))

/-- The next steering update brings a timer of STC to its bound. -/
def steeringTimerEnds (timer : Stc → Nat) (bound : Nat) (s : State) : Bool :=
  decide (timer s.stc < bound ∧ bound ≤ timer (steeringMoves s).stc)

/-- DISAGREEMENT_TIMEOUT (R141, R142): the steering update that ends the disagreement timer. -/
def execDisagreementTimeout (s : State) : Host.Outcome State Fault Refusal :=
  .next (if steeringTimerEnds (fun x => x.disagreeTimer) 100 s then State.finish (steeringMoves s) else s)

/-- TRACKING_ERROR_TIMEOUT (R141, R142): the steering update that ends the tracking error timer. -/
def execTrackingErrorTimeout (s : State) : Host.Outcome State Fault Refusal :=
  .next (if steeringTimerEnds (fun x => x.trackTimer) 300 s then State.finish (steeringMoves s) else s)

/-- CENTRING_TIMEOUT (R151): the steering update that ends the centring timer. -/
def execCentringTimeout (s : State) : Host.Outcome State Fault Refusal :=
  .next (if steeringTimerEnds (fun x => x.centringTimer) 2000 s then State.finish (steeringMoves s) else s)

end Sys2Proof.Machine
end

