-- ==== Sys2Proof/Machine/Doors.lean ====
section
/-! DEFINITION. Door contacts (R66, R67) and the end of the drive-inhibit debounce (R76). -/

namespace Sys2Proof.Machine

/-- R66, R53: a fitted door's debounced contact handed to ILT, which takes none in SAFE (R41). -/
def handContact (d : Fin 4) (s : State) : State :=
  if s.cfg.device = .safe then s
  else
    let closed := (rd s.dsv.doors d).contact.debounced
    let s := s.modIlt fun t => { t with contacts := wr t.contacts d closed }
    if closed then s else retireOverrides d s

/-- R66: a contact's debounced state changes; R67: an input above the door count is debounced and no more. -/
def contactSettles (d : Fin 4) (s : State) : State :=
  let t := Dsv.changeDoor d (fun x => { x with contact := x.contact.settle }) s
  if s.fitted d then State.finish (Dsv.supervise d (handContact d t)) else t

/-- R76: the release timer runs out with the set still empty. -/
def releaseDrive (s : State) : State :=
  match s.dsv.machine with
  | .releasing due =>
    let s := s.advanceTo due
    if s.dsv.causes = InhibitCauses.none then s.modDsv fun x => { x with machine := .free } else s
  | .inhibited => s
  | .free => s

end Sys2Proof.Machine
end

