-- ==== Sys2Proof/Machine/Valves.lean ====
section
/-! DEFINITION. VDA and the owners: what a change of a channel's state does (R171), and the two gates (R168 to R170). -/

namespace Sys2Proof.Machine

/-- R171: the notice of an entry into LOCKED_OUT or OPEN_LOAD. -/
def reportChannel (ch : Fin 18) (s : State) : State :=
  let c := rd s.vda.channels ch
  if c.state = .lockedOut then s.post (.channelFault .valve ch.val .lockedOut c.trips)
  else if c.state = .openLoad then s.post (.channelFault .valve ch.val .openLoad c.trips)
  else s

/-- R97: a fill or exhaust channel that entered LOCKED_OUT or OPEN_LOAD faults its corner. -/
def faultFromChannel (ch : Fin 18) (s : State) : State :=
  if (s.channelState ch).failed then
    if h : ch.val < 6 then Crn.fault ⟨ch.val, h⟩ .fillValve s
    else if h : ch.val < 12 then Crn.fault ⟨ch.val - 6, by omega⟩ .exhaustValve s
    else s
  else s

/-- R171: a channel's new state handed to its owner. -/
def handToOwner (ch : Fin 18) (s : State) : State :=
  if ch.val < 12 then faultFromChannel ch (Crn.fromChannels s)
  else if ch = lockChannel then Stc.judgeLock s
  else s

/-- An event at one channel: its record moves, and a change of state is reported and handed on. -/
def atChannel (ch : Fin 18) (f : Channel → Channel) (s : State) : State :=
  let old := s.channelState ch
  let s := s.modVda fun v => { v with channels := upd v.channels ch f }
  if s.channelState ch = old then s else handToOwner ch (reportChannel ch s)

/-- A gate's event: the records of a group move, and the changes are handed to CRN and STC. -/
def atGate (group : Fin 18 → Bool) (f : Channel → Channel) (s : State) : State :=
  Stc.judgeLock (Crn.fromChannels (s.modVda fun v =>
    { v with channels := mapF v.channels fun i c => if group i then f c else c }))

/-- The channels of the thermal gate: 0 to 12 (R168). -/
def thermalGroup (ch : Fin 18) : Bool := decide (ch.val ≤ 12)

/-- R168: a sample of the die temperature. -/
def sampleTemperature (degrees : Int) (s : State) : State :=
  if s.vda.thermalClosed = false ∧ 150 ≤ degrees then
    (atGate thermalGroup Channel.markThermal (s.modVda fun v => { v with thermalClosed := true })).post
      (.supply .thermal degrees)
  else if s.vda.thermalClosed ∧ degrees ≤ 130 then
    atGate thermalGroup (Channel.unmarkThermal s.now) (s.modVda fun v => { v with thermalClosed := false })
  else s

/-- R169: the undervoltage gate closes. -/
def closeUnderGate (tenths : Nat) (s : State) : State :=
  (atGate (fun _ => true) Channel.markUnder (s.modVda fun v => { v with underClosed := true })).post
    (.supply .undervoltage tenths)

/-- R169: the undervoltage gate opens. -/
def openUnderGate (s : State) : State :=
  atGate (fun _ => true) (Channel.unmarkUnder s.now) (s.modVda fun v => { v with underClosed := false })

/-- R169: the sample counts (log 12). -/
def countSupply (tenths : Nat) (v : Vda) : Vda :=
  { v with
    lows := if tenths < 160 then grow 1 10 v.lows else 0
    highs := if 180 ≤ tenths then grow 1 50 v.highs else 0 }

/-- R169: a sample of the supply voltage. -/
def sampleSupply (tenths : Nat) (s : State) : State :=
  let s := s.modVda (countSupply tenths)
  if s.vda.underClosed = false ∧ 10 ≤ s.vda.lows then closeUnderGate tenths s
  else if s.vda.underClosed ∧ 50 ≤ s.vda.highs then openUnderGate s
  else s

end Sys2Proof.Machine
end

