-- ==== Sys2Proof/Machine/Start.lean ====
section
/-! DEFINITION. The device states: the entry into RUN, the entry into SAFE (11_configuration_and_start_up.md), and the status
broadcast (sections 10.5.5 and 10.6). -/

namespace Sys2Proof.Machine

/-! ## The status broadcast (R179) -/

/-- DSV reports doors above the door count as DORMANT (R179). -/
def State.reportedSupervision (s : State) (d : Fin 4) : Nat :=
  if s.fitted d then (rd s.dsv.doors d).supervision.code else 0

/-- The place in the arrival order that this broadcast reports (R179). -/
def State.reportedPlace (s : State) : Nat := if s.ilt.order.length ≤ s.lnk.rotation then 0 else s.lnk.rotation

/-- The reported entry, or none when the table is empty. -/
def State.reportedEntry (s : State) : Option Entry := s.live[s.reportedPlace]?

/-- The content of a status broadcast (section 10.5.5). -/
def State.broadcastContent (s : State) : Content :=
  let e := s.reportedEntry
  let low (b : BitVec 64) (k : Nat) : Byte := b.extractLsb' (56 - 8 * k) 8
  let bits := pack 64
    [(2, s.cfg.device.code), (2, s.mot.motion.code), (3, s.brk.hold.code), (1, bit s.brk.confirmed),
     (3, s.rlu.kneelState.code), (1, bit s.brk.windowOpen), (2, s.dsv.machine.code), (1, bit s.stc.latch.isSome),
     (1, bit s.lnk.attn),
     (3, s.stc.state.code), (5, s.dsv.causes.code),
     (3, s.reportedSupervision 0), (3, s.reportedSupervision 1), (3, s.reportedSupervision 2),
     (3, s.reportedSupervision 3), (4, 0),
     (5, s.live.length), (2, (e.map fun x => x.state.code).getD 0), (1, 0),
     (8, (e.map fun x => x.handle).getD 255),
     (8, (s.mot.speed.map fun v => v / 10).getD 255)]
  { b0 := low bits 0, b1 := low bits 1, b2 := low bits 2, b3 := low bits 3
    b4 := low bits 4, b5 := low bits 5, b6 := low bits 6, b7 := low bits 7 }

/-- A broadcast event: the frame placed, and the rotation index moved (R175, R179). -/
def placeBroadcast (s : State) : State :=
  s.modLnk fun l =>
    { l with
      broadcast := some { identifier := s.cfg.settings.ansBase, content := s.broadcastContent }
      rotation := if s.reportedEntry.isSome then s.reportedPlace + 1 else 0
      lastBroadcast := s.now }

/-! ## Entry into RUN (R186 and the chapters; log 19) -/

/-- R53, R72: DSV hands ILT the contact of every fitted door. -/
def handContacts (s : State) : State :=
  s.modIlt fun t =>
    { t with contacts := mapF t.contacts fun d c => if s.fitted d then (rd s.dsv.doors d).contact.debounced else c }

/-- R72: every fitted door derived, in door order: R72 gives no order among them (log 40, the model's choice). -/
def superviseAll (s : State) : State := (List.finRange 4).foldl (fun s d => Dsv.supervise d s) s

/-- The entry into RUN, from the state before START. -/
def enterRun (s : State) : State :=
  let t := s.modCfg fun c => { c with device := .run }
  let t := superviseAll (handContacts t)
  let t := Crn.fromDevice (Crn.judgeCauses (Crn.forgetLoads t))
  let t := Mot.arm (Stc.enterRun t)
  placeBroadcast (State.finish (t.modLnk fun l => { l with rotation := 0 }))

/-- R186: the number of the first failing validation check, or none. -/
def State.startFailure (s : State) : Option Nat :=
  if s.cfg.settings.doorCount < 2 ∨ 4 < s.cfg.settings.doorCount then some 1
  else if s.cfg.settings.shareSum ≠ 1000 then some 2
  else if s.stc.bankInUse.valid = false then some 3
  else if s.cfg.settings.inRange = false then some 4
  else none

/-! ## Entry into SAFE (R187 and the chapters) -/

/-- R41: a deadline stops and keeps its remaining time. -/
def Deadline.stop (now : Nat) : Deadline → Deadline
  | .none => .none
  | .running due => .stopped (due - now)
  | .stopped r => .stopped r

/-- R41: the table frozen. -/
def freezeTable (s : State) : State :=
  s.modIlt fun t =>
    { t with slots := mapF t.slots fun _ x =>
        { x with entry := x.entry.map fun e => { e with deadline := e.deadline.stop s.now } } }

/-- The entry into SAFE, from the state before ENTER_SAFE. -/
def enterSafe (s : State) : State :=
  let t := freezeTable (s.modCfg fun c => { c with device := .safe })
  let t := Stc.exitRun (Brk.setWindow false t)
  let t := Crn.fromDevice (t.modMot fun m => { m with armed := false })
  State.finish t

end Sys2Proof.Machine
end

