-- ==== Sys2Proof/Machine/Requests.lean ====
section
/-! DEFINITION. The requests, each taken whole by its owner with the checks in the order of its rule: the state after it and the
answer (02, 03, 05, 07, 08, 09, 10 and 11 of spec/). -/

namespace Sys2Proof.Machine

/-! ## The checks that requests share -/

/-- The registry record of a partner (R45). -/
def State.record (s : State) (p : Fin 16) : PartnerRecord := rd s.ilt.registry p

/-- R48. -/
def ifEnabled (p : Fin 16) (s : State) (next : State × Answer) : State × Answer :=
  if (s.record p).enabled then next else (s, .no .unknownPartner)

/-- The refusal NOT_READY, with the device state. -/
def State.notReady (s : State) : Answer := .withDetail .notReady s.cfg.device.code

/-- The refusal CONFIG_ONLY, with the device state. -/
def State.configOnly (s : State) : Answer := .withDetail .configOnly s.cfg.device.code

/-- The refusal AUTHORITY, with the sender's authority and the needed one. -/
def State.lacksAuthority (s : State) (p : Fin 16) (needed : Nat) : Answer :=
  .refused .authority none .none (s.record p).authority needed

/-- The first two checks of a service request: enabled, and of authority 0. -/
def ifRoot (p : Fin 16) (s : State) (next : State × Answer) : State × Answer :=
  ifEnabled p s (if (s.record p).authority = 0 then next else (s, s.lacksAuthority p 0))

/-- The first three checks of AMEND, REFRESH and RETIRE: enabled, in RUN, and the handle resolves. -/
def ifEntry (p : Fin 16) (handle : Nat) (s : State) (next : Entry → State × Answer) : State × Answer :=
  ifEnabled p s (
    if s.inRun then
      match s.resolve handle with
      | some e => next e
      | none => (s, .no .staleHandle)
    else (s, s.notReady))

/-- The state that the entry of a handle shows. -/
def State.entryState (s : State) (handle : Nat) : Option EntryState := (s.resolve handle).map fun e => e.state

/-! ## OPEN (R49 to R55, R62) -/

/-- R51: the scope that a scope byte names for a kind; none when it is not legal. -/
def State.scopeOf (s : State) (k : Kind) (code handle : Nat) : Option Scope :=
  match k with
  | .doorOpen =>
    if h : 1 ≤ code ∧ code ≤ 4 then (if code ≤ s.cfg.settings.doorCount then some (.door ⟨code - 1, by omega⟩) else none)
    else none
  | .rampOut =>
    if h : 1 ≤ code ∧ code ≤ 4 then (if code ≤ s.cfg.settings.doorCount then some (.door ⟨code - 1, by omega⟩) else none)
    else none
  | .kneel => if code = 8 then some .curb else if code = 9 then some .full else none
  | .stopHold => if code = 10 then some .vehicle else none
  | .raise => if code = 10 then some .vehicle else none
  | .steerCentre => if code = 10 then some .vehicle else none
  | .serviceLock => if code = 10 then some .vehicle else none
  | .override => if code = 11 then some (.target handle) else none

/-- R52: the parts of a speed condition. -/
def State.speedCheck (s : State) (bound : Nat) : Option Answer :=
  match s.mot.speed with
  | none => some (.because .condition .speedInvalid)
  | some v => if v ≤ bound then none else some (.because .condition .speed)

/-- R52: the part that wants STANDSTILL. -/
def State.standCheck (s : State) : Option Answer :=
  if s.standing then none else some (.because .condition .notStandstill)

/-- R52: the part that wants no live entry of a kind; the refusal names the oldest. -/
def State.absentCheck (s : State) (k : Kind) (sub : SubReason) : Option Answer :=
  match s.live.find? fun e => decide (e.kind = k) with
  | some e => some (.refused .condition (some e.handle) sub 0 0)
  | none => none

/-- The contact that ILT judges for the door of an entry reads CLOSED (R53). -/
def State.contactClosed (s : State) (e : Entry) : Bool :=
  match e.scope.door? with
  | some d => rd s.ilt.contacts d
  | none => false

/-- R53: check 6 of an OVERRIDE. -/
def State.targetCheck (s : State) (target : Nat) : Option Answer :=
  match s.resolve target with
  | none => some (.no .staleHandle)
  | some e =>
    if e.kind.isDoor = false then some (.because .condition .targetInvalid)
    else if e.state = .covered then some (.refused .condition e.coveredBy .targetCovered 0 0)
    else if e.state ≠ .stale then some (.because .condition .targetInvalid)
    else if s.contactClosed e = false then some (.because .condition .contactOpen)
    else none

/-- R52, R53: check 6; none when it passes. -/
def State.admission (s : State) (k : Kind) (scope : Scope) : Option Answer :=
  match k with
  | .doorOpen => s.speedCheck 30
  | .rampOut => s.standCheck
  | .kneel => (s.speedCheck 50).or ((s.absentCheck .rampOut .rampPresent).or (s.absentCheck .serviceLock .serviceLock))
  | .stopHold => s.speedCheck 30
  | .raise => s.speedCheck 300
  | .steerCentre => none
  | .serviceLock => s.standCheck
  | .override =>
    match scope with
    | .target t => s.targetCheck t
    | .door _ => none
    | .curb => none
    | .full => none
    | .vehicle => none

/-- R54: check 7; the live entry of the same kind, owner and scope. -/
def State.duplicate (s : State) (k : Kind) (p : Fin 16) (scope : Scope) : Option Entry :=
  s.live.find? fun e => decide (e.kind = k ∧ e.owner = p ∧ e.scope = scope)

/-- R54: whether a live entry of the second kind conflicts with an OPEN of the first. -/
def Kind.conflicts (k other : Kind) : Bool :=
  match k with
  | .raise => decide (other = .kneel ∨ other = .rampOut)
  | .kneel => decide (other = .raise)
  | .rampOut => decide (other = .raise)
  | .doorOpen => false
  | .stopHold => false
  | .steerCentre => false
  | .serviceLock => false
  | .override => false

/-- R54: check 8; the oldest conflicting entry. -/
def State.conflict (s : State) (k : Kind) : Option Entry := s.live.find? fun e => k.conflicts e.kind

/-- R62: the target of an OVERRIDE leaves STALE for COVERED. -/
def coverTarget (scope : Scope) (by' : Nat) (s : State) : State :=
  match scope with
  | .target t =>
    match s.resolve t with
    | some e => handOff .changed e (s.updEntry t fun x => { x with state := .covered, coveredBy := some by' })
    | none => s
  | .door _ => s
  | .curb => s
  | .full => s
  | .vehicle => s

/-- R23, R62: an admitted OPEN carried out in a free slot. -/
def carryOpen (p : Fin 16) (k : Kind) (scope : Scope) (given : Nat) (slot : Fin 24) (s : State) : State × Answer :=
  let r := s.record p
  let fit := k.fitParameter given
  let h := s.handleOf slot
  let e := s.newEntry k p r.authority scope fit.1 r.window
  let t := State.finish (coverTarget scope h (handOffOpened (e h) (s.placeEntry slot e)))
  (t, .accepted (some h) (t.entryState h) (AnswerFlags.ofClamped fit.2) 0 0 0)

/-- R49: checks 5 to 9, of a kind that the sender may open. -/
def openChecked (p : Fin 16) (k : Kind) (scopeByte given handle : Nat) (s : State) : State × Answer :=
  match s.scopeOf k scopeByte handle with
  | none => (s, .withDetail .badScope scopeByte)
  | some scope =>
    match s.admission k scope with
    | some refusal => (s, refusal)
    | none =>
      match s.duplicate k p scope with
      | some e => (s, .refused .duplicate (some e.handle) .none 0 0)
      | none =>
        match s.conflict k with
        | some e => (s, .refused .conflict (some e.handle) .none 0 0)
        | none =>
          match s.freeSlot 0 18 with
          | none => (s, .withDetail .tableFull 18)
          | some slot => carryOpen p k scope given slot s

/-- OPEN (R49). -/
def requestOpen (p : Fin 16) (kindByte scopeByte given handle : Nat) (s : State) : State × Answer :=
  ifEnabled p s (
    match Kind.ofCode kindByte with
    | none => (s, .no .requestInvalid)
    | some k =>
      if s.inRun = false then (s, s.notReady)
      else if (s.record p).permitted.getLsbD k.code = false then (s, .withDetail .kindNotPermitted k.code)
      else if k.neededAuthority < (s.record p).authority then (s, s.lacksAuthority p k.neededAuthority)
      else openChecked p k scopeByte given handle s)

/-! ## AMEND (R56) -/

/-- R56: a changed parameter handed to BRK or RLU. -/
def handAmended (e : Entry) (s : State) : State :=
  if e.kind = .stopHold then Brk.judge s else Rlu.fromTable s

/-- AMEND (R56). -/
def requestAmend (p : Fin 16) (handle given : Nat) (s : State) : State × Answer :=
  ifEntry p handle s fun e =>
    if e.owner ≠ p then (s, .because .notOwner .ownerOnly)
    else if e.kind.parameterRange.isNone then (s, .no .requestInvalid)
    else if e.state.follows = false then (s, .no .entryStale)
    else
      let fit := e.kind.fitParameter given
      let t := s.updEntry handle fun x => { x with parameter := fit.1 }
      let t := if fit.1 = e.parameter then t else State.finish (handAmended e t)
      (t, .accepted (some handle) (t.entryState handle) (AnswerFlags.ofClamped fit.2) 0 0 0)

/-! ## REFRESH (R31, R32, R57, R64) -/

/-- The full refresh window of an entry's owner (R31, R46). -/
def State.fullWindow (s : State) (e : Entry) : Deadline := s.deadlineFor (s.record e.owner).window

/-- R32, R64: revive a STALE or COVERED entry. -/
def revive (e : Entry) (s : State) : State :=
  let active := s.activates e.kind e.scope
  let t := s.updEntry e.handle fun x =>
    { x with state := shownState active, underlying := active, deadline := s.fullWindow e, coveredBy := none }
  let t := match e.coveredBy with
    | some o => dropOverride o .targetRevived t
    | none => t
  State.finish (handOff .changed e t)

/-- REFRESH (R57). -/
def requestRefresh (p : Fin 16) (handle : Nat) (s : State) : State × Answer :=
  ifEntry p handle s fun e =>
    if e.owner ≠ p then (s, .because .notOwner .ownerOnly)
    else if e.deadline = .none then
      (s, .accepted (some handle) (some e.state) { AnswerFlags.none with noDeadline := true } 0 0 0)
    else if e.state.follows then
      let t := s.updEntry handle fun x => { x with deadline := s.fullWindow e }
      (t, .accepted (some handle) (t.entryState handle) AnswerFlags.none 0 0 0)
    else
      let t := revive e s
      (t, .accepted (some handle) (t.entryState handle) { AnswerFlags.none with revived := true } 0 0 0)

/-! ## RETIRE (R58 to R61) -/

/-- R59: the right of a non-owner; none when it is given. -/
def State.partnerRight (s : State) (authority : Nat) (e : Entry) : Option Answer :=
  match e.kind with
  | .serviceLock => some (.because .notOwner .ownerOnly)
  | .override =>
    if authority < e.authority ∧ authority = 0 then none else some (.because .notOwner .authorityRank)
  | .doorOpen =>
    if e.authority ≤ authority then some (.because .notOwner .authorityRank)
    else if e.state.follows then some (.because .notOwner .notStale)
    else if s.contactClosed e then none
    else some (.because .notOwner .contactOpen)
  | .rampOut =>
    if e.authority ≤ authority then some (.because .notOwner .authorityRank)
    else if e.state.follows then some (.because .notOwner .notStale)
    else if s.contactClosed e then none
    else some (.because .notOwner .contactOpen)
  | .kneel => if authority < e.authority then none else some (.because .notOwner .authorityRank)
  | .stopHold => if authority < e.authority then none else some (.because .notOwner .authorityRank)
  | .raise => if authority < e.authority then none else some (.because .notOwner .authorityRank)
  | .steerCentre => if authority < e.authority then none else some (.because .notOwner .authorityRank)

/-- R60: the right over a SELF entry; none when it is given. SELF holds no entry of the other kinds. -/
def State.selfRight (s : State) (authority : Nat) (e : Entry) : Option Answer :=
  match e.kind with
  | .doorOpen =>
    if 1 < authority then some (.because .notOwner .authorityRank)
    else if s.contactClosed e then none
    else some (.because .notOwner .contactOpen)
  | .stopHold => if 1 < authority then some (.because .notOwner .authorityRank) else none
  | .steerCentre =>
    if s.stc.latch.isSome then some (.no .notClearable) else some (.because .notOwner .ownerOnly)
  | .rampOut => some (.because .notOwner .ownerOnly)
  | .kneel => some (.because .notOwner .ownerOnly)
  | .raise => some (.because .notOwner .ownerOnly)
  | .serviceLock => some (.because .notOwner .ownerOnly)
  | .override => some (.because .notOwner .ownerOnly)

/-- R58, step 4. -/
def State.retireRight (s : State) (p : Fin 16) (e : Entry) : Option Answer :=
  if e.isSelf then s.selfRight (s.record p).authority e
  else if e.owner = p then none
  else s.partnerRight (s.record p).authority e

/-- RETIRE (R58). The answer names the retired handle and 255, none, as its entry state: the entry is no longer live (log 41, the model's
choice). -/
def requestRetire (p : Fin 16) (handle : Nat) (s : State) : State × Answer :=
  ifEntry p handle s fun e =>
    match s.retireRight p e with
    | some refusal => (s, refusal)
    | none => (State.finish (retireEntry none e s), .accepted (some handle) none AnswerFlags.none 0 0 0)

/-! ## QUERY and LIST (R43, R44) -/

/-- R43: the remaining deadline in units of 10 ms. -/
def Deadline.remaining (now : Nat) : Deadline → Nat
  | .none => 0
  | .running due => (due - now) / 10000
  | .stopped r => r / 10000

/-- R43: what byte 7 of CONDITION holds. -/
def Entry.conditionByte (now : Nat) (e : Entry) : Nat :=
  match e.state, e.coveredBy with
  | .covered, some h => h
  | .covered, none => 0
  | .stale, _ => 0
  | .waiting, _ => e.deadline.remaining now
  | .active, _ => e.deadline.remaining now

/-- R43: what byte 7 of IDENTITY holds. -/
def Entry.scopeByte (e : Entry) : Nat :=
  match e.scope with
  | .target h => h
  | .door d => d.val + 1
  | .curb => 8
  | .full => 9
  | .vehicle => 10

/-- QUERY (R43). -/
def requestQuery (p : Fin 16) (handle group : Nat) (s : State) : State × Answer :=
  ifEnabled p s (
    match s.resolve handle with
    | none => (s, .no .staleHandle)
    | some e =>
      if group = 0 then
        (s, .accepted (some handle) (some e.state) AnswerFlags.none e.kind.code (e.owner.val * 16 + e.authority) e.scopeByte)
      else if group = 1 then
        let w := e.parameter.getD 65535
        (s, .accepted (some handle) (some e.state) { AnswerFlags.none with noDeadline := decide (e.deadline = .none) }
          (w / 256) (w % 256) (e.conditionByte s.now))
      else (s, .no .requestInvalid))

/-- LIST (R44); index 65535, of which the rule is silent, is an index with no entry (log 35, the model's choice). -/
def requestList (p : Fin 16) (index : Nat) (s : State) : State × Answer :=
  ifEnabled p s (
    match s.live[index]? with
    | some e =>
      (s, .accepted (some e.handle) (some e.state) AnswerFlags.none s.live.length e.kind.code e.owner.val)
    | none => (s, .accepted none none AnswerFlags.none s.live.length 0 0))

/-! ## WRITE_REGISTRY (R47) -/

/-- R47: a window brought into its range. -/
def fitWindow (w : Nat) : Nat :=
  if w = 0 then 0 else if w < 100 then 100 else if 2000 < w then 2000 else w / 100 * 100

/-- WRITE_REGISTRY (R47). -/
def requestWriteRegistry (p : Fin 16) (number : Nat) (rank kinds : Byte) (window : Nat) (s : State) : State × Answer :=
  ifRoot p s (
    if s.cfg.device ≠ .config then (s, s.configOnly)
    else if number < 1 ∨ 13 < number then (s, .no .requestInvalid)
    else
      let authority := (rank.extractLsb' 0 4).toNat
      let r : PartnerRecord :=
        { enabled := rank.getLsbD 7, authority := min 3 authority, permitted := kinds, window := fitWindow window }
      (s.modIlt fun t => { t with registry := wrN t.registry number r },
        .ok (AnswerFlags.ofClamped (decide (3 < authority ∨ fitWindow window ≠ window))) 0 0))

/-! ## Reads (R178, R102, R138, R159, section 10.5.3) -/

/-- READ_MOTION (R178). -/
def requestReadMotion (p : Fin 16) (part : Nat) (s : State) : State × Answer :=
  ifEnabled p s (
    if part = 0 then
      (s, .body (pack 48
        [(11, s.mot.speed.getD 2047), (1, directionCode s.mot.direction), (2, s.mot.motion.code), (2, s.selected.code),
         (1, bit s.mot.driveReq.debounced), (1, bit (rd s.mot.wheels 0).faulty), (1, bit (rd s.mot.wheels 1).faulty),
         (1, bit (rd s.mot.wheels 2).faulty), (1, bit (rd s.mot.wheels 3).faulty)]))
    else if part = 1 then (s, .body (pack 48 [(32, s.mot.counter.toNat)]))
    else (s, .no .requestInvalid))

/-- The place of a corner in the fill queue, from 1; 0 when it is not queued. -/
def Crn.place (x : Crn) (c : Fin 6) : Nat := if c ∈ x.queue then x.queue.idxOf c + 1 else 0

/-- READ_CORNER (R102). -/
def requestReadCorner (p : Fin 16) (corner group : Nat) (s : State) : State × Answer :=
  ifEnabled p s (
    if h : corner < 6 then
      let c : Fin 6 := ⟨corner, h⟩
      let x := rd s.crn.corners c
      let a := rd s.crn.axles (cornerAxle c)
      if group = 0 then
        (s, .body (pack 48
          [(3, x.state.code), (10, signedField 10 x.measured), (8, signedField 8 x.target), (8, x.reasons.code),
           (3, s.crn.place c), (3, CornerFault.code x.fault)]))
      else if group = 1 then
        (s, .body (pack 48
          [(3, x.state.code), (16, x.load), (1, bit x.loadValid), (14, a.load), (1, bit a.valid),
           (1, bit s.crn.gateOpen)]))
      else (s, .no .requestInvalid)
    else (s, .no .requestInvalid))

/-- READ_AXLE (R138; log 8 for a blended share that has not been formed). -/
def requestReadAxle (p : Fin 16) (axle group part : Nat) (s : State) : State × Answer :=
  ifEnabled p s (
    if h : 1 ≤ axle ∧ axle ≤ 3 then
      let x := rd s.brk.axles ⟨axle - 1, by omega⟩
      if group = 0 ∧ part = 0 then
        (s, .body (pack 48
          [(10, x.demandAtUpdate), (11, signedField 11 x.measured), (2, x.validity.code), (10, s.brk.driver)]))
      else if group = 0 ∧ part = 1 then
        match x.blended with
        | some b => (s, .body (pack 48 [(10, b), (10, x.loadShare.getD 1023)]))
        | none =>
          ({ s with fresh := s.fresh + 1 },
            .body (pack 48 [(10, Config.unformedBlendedShare s.fresh), (10, x.loadShare.getD 1023)]))
      else if group = 1 ∧ part = 0 then
        (s, .body (pack 48
          [(3, s.brk.hold.code), (9, s.brk.target), (1, bit s.brk.confirmed), (1, bit s.brk.windowOpen),
           (8, s.brk.selfHandle.getD 255)]))
      else (s, .no .requestInvalid)
    else (s, .no .requestInvalid))

/-- READ_STEER (R159). -/
def requestReadSteer (p : Fin 16) (group part : Nat) (s : State) : State × Answer :=
  ifEnabled p s (
    let r := s.stc.report
    if group = 0 ∧ part = 0 then
      (s, .body (pack 48
        [(3, r.state.code), (9, signedField 9 r.command), (10, signedField 10 r.delta3), (9, signedField 9 r.lower),
         (9, signedField 9 r.upper)]))
    else if group = 0 ∧ part = 1 then
      (s, .body (pack 48
        [(11, signedField 11 r.gamma), (11, signedField 11 r.delta1), (10, r.damper), (1, bit r.jointLimit),
         (1, bit r.windowOpen)]))
    else if group = 1 ∧ part = 0 then
      (s, .body (pack 48
        [(1, bit s.stc.latch.isSome), (4, LatchCause.code s.stc.latch), (8, s.stc.selfHandle.getD 255),
         (2, s.cfg.settings.bankMode.code), (1, s.stc.inUse.code), (1, bit s.stc.pendingSwap.isSome),
         (1, bit s.stc.bankA.valid), (5, s.stc.bankA.count), (1, bit s.stc.bankB.valid), (5, s.stc.bankB.count)]))
    else (s, .no .requestInvalid))

/-! ## Notices (R181) -/

/-- READ_NOTICES (R181). -/
def requestReadNotices (p : Fin 16) (flag : Nat) (s : State) : State × Answer :=
  ifEnabled p s (
    if h : flag < 14 then
      let f := rd s.lnk.notices ⟨flag, h⟩
      (s, .body (pack 48
        [(14, s.lnk.rawFlags), (1, bit f.repeated), (1, bit f.record.isSome),
         (32, match f.record with
           | some n => n.bits.toNat
           | none => 0)]))
    else (s, .no .requestInvalid))

/-- CLEAR_NOTICES (R181). -/
def requestClearNotices (p : Fin 16) (flags : Word16) (s : State) : State × Answer :=
  ifRoot p s (
    let t := s.clearFlags flags
    (t, .ok AnswerFlags.none (t.lnk.rawFlags / 256) (t.lnk.rawFlags % 256)))

/-- SET_NOTICE_MASK (R181). -/
def requestSetMask (p : Fin 16) (mask : Word16) (s : State) : State × Answer :=
  ifRoot p s (
    let t := s.setMask mask
    (t, .ok AnswerFlags.none (t.lnk.mask.toNat / 256) (t.lnk.mask.toNat % 256)))

/-! ## CLEAR_CORNER, CLEAR_CHANNEL, CLEAR_STEER_FAULT (R98, R172, R143) -/

/-- R98: the sub-reason of a standing cause. -/
def CornerFault.sub : CornerFault → SubReason
  | .heightSensor => .heightSensor
  | .fillValve => .fillValve
  | .exhaustValve => .exhaustValve
  | .fillTimeout => .none
  | .exhaustTimeout => .none

/-- R98, step 5: the cause that stands against the clear of a corner in FAULT. -/
def State.standingCause (s : State) (c : Fin 6) : Option CornerFault :=
  if (rd s.crn.corners c).state = .fault then s.cornerCause c else none

/-- CLEAR_CORNER (R98). -/
def requestClearCorner (p : Fin 16) (corner : Nat) (s : State) : State × Answer :=
  ifRoot p s (
    if s.inRun = false then (s, s.notReady)
    else if h : corner < 6 then
      let c : Fin 6 := ⟨corner, h⟩
      match s.standingCause c with
      | some r => (s, .because .condition r.sub)
      | none =>
        let t := if (rd s.crn.corners c).state = .fault then State.finish (Crn.clearFault c s) else s
        (t, .ok AnswerFlags.none (rd t.crn.corners c).state.code 0)
    else (s, .no .requestInvalid))

/-- CLEAR_CHANNEL (R172). -/
def requestClearChannel (p : Fin 16) (channel : Nat) (s : State) : State × Answer :=
  ifRoot p s (
    if s.cfg.device = .safe then (s, s.notReady)
    else if h : channel < 18 then
      let ch : Fin 18 := ⟨channel, h⟩
      let t := if (s.channelState ch).failed then State.finish (atChannel ch (Channel.clear s.now) s) else s
      (t, .ok AnswerFlags.none (t.channelState ch).code (rd t.vda.channels ch).trips)
    else (s, .no .requestInvalid))

/-- R143, step 4: the first failing sensor, or DISAGREE. -/
def State.steerFailure (s : State) : Option SubReason :=
  if (rd s.mot.analog 12).validity ≠ .valid then some .artASensor
  else if (rd s.mot.analog 13).validity ≠ .valid then some .artBSensor
  else if (rd s.mot.analog 14).validity ≠ .valid then some .frontSensor
  else if (rd s.mot.analog 15).validity ≠ .valid then some .actuatorSensor
  else if s.anglesDisagree then some .disagree
  else none

/-- R143, R151: the latch is cleared; the SELF STEER_CENTRE is retired, and PASSIVE goes to CENTRING. -/
def Stc.clearLatch (s : State) : State :=
  let t := s.modStc fun x => { x with latch := none, disagreeTimer := 0, trackTimer := 0 }
  let t :=
    if t.stc.state = .passive then Stc.commandLock (t.modStc fun x => { x with state := .centring, centringTimer := 0 })
    else t
  match t.stc.selfHandle with
  | some h => retireSelf h t
  | none => t

/-- CLEAR_STEER_FAULT (R143). -/
def requestClearSteerFault (p : Fin 16) (s : State) : State × Answer :=
  ifRoot p s (
    if s.cfg.device = .safe then (s, s.notReady)
    else
      match s.steerFailure with
      | some sub => (s, .because .condition sub)
      | none =>
        let t := if s.stc.latch.isSome then State.finish (Stc.clearLatch s) else s
        (t, .ok AnswerFlags.none (bit t.stc.latch.isSome) t.stc.state.code))

/-! ## Banks (R156, R157) -/

/-- R157: the answer of SWAP_BANK. -/
def Stc.swapAnswer (flags : AnswerFlags) (s : State) : Answer :=
  .ok flags s.stc.inUse.code (bit s.stc.pendingSwap.isSome)

/-- SWAP_BANK (R157). -/
def requestSwapBank (p : Fin 16) (s : State) : State × Answer :=
  ifRoot p s (
    if s.cfg.device = .safe then (s, s.notReady)
    else if s.cfg.settings.bankMode ≠ .follow then (s, .no .bankFixed)
    else if s.stc.pendingSwap.isSome then
      let t := s.modStc fun x => { x with pendingSwap := none }
      (t, Stc.swapAnswer { AnswerFlags.none with cancelled := true } t)
    else
      let other := s.stc.inUse.other
      if (s.stc.bank other).valid = false then (s, .no .bankInvalid)
      else
        let t :=
          if s.cfg.device = .config ∨ s.standing then
            (s.modStc fun x => { x with inUse := other }).post (.bankSwapped other true)
          else s.modStc fun x => { x with pendingSwap := some other }
        (t, Stc.swapAnswer AnswerFlags.none t))

/-- WRITE_BANK_ROW (R156): the kind byte holds the bank (bit 4) and the field (bits 2 to 0). -/
def requestWriteBankRow (p : Fin 16) (bankField : Byte) (row : Nat) (value : Word16) (s : State) : State × Answer :=
  ifRoot p s (
    if s.cfg.device = .safe then (s, s.notReady)
    else
      let id : BankId := if bankField.getLsbD 4 then .b else .a
      match (s.stc.bank id).write (bankField.extractLsb' 0 3).toNat row value.toInt with
      | none => (s, .no .requestInvalid)
      | some (bank, stored) =>
        if s.inRun ∧ s.stc.inUse = id then (s, .no .bankActive)
        else if s.inRun ∧ s.stc.pendingSwap = some id then (s, .no .bankPending)
        else
          (s.modStc fun x => x.setBank id bank,
            .ok (AnswerFlags.ofClamped (decide (stored ≠ value.toInt))) (bit bank.valid) bank.count))

/-! ## CFG (R184 to R188) -/

/-- R155: a write of the bank mode moves the bank in use. -/
def bankForMode (mode : BankMode) (inUse : BankId) : BankId :=
  match mode with
  | .fixedA => .a
  | .fixedB => .b
  | .follow => inUse

/-- R155, R185: what a write of the bank mode, the door count or the curb side does at its event (log 22). -/
def settingWritten (number : Nat) (s : State) : State :=
  if number = 20 then s.modStc fun x => { x with inUse := bankForMode s.cfg.settings.bankMode x.inUse }
  else if number = 2 then Dsv.judge s
  else if number = 3 then Dsv.judge (Rlu.judgeCurbLow s)
  else s

/-- WRITE_SETTING (R184). -/
def requestWriteSetting (p : Fin 16) (number place : Nat) (value : Word16) (s : State) : State × Answer :=
  ifRoot p s (
    if s.cfg.device ≠ .config then (s, s.configOnly)
    else
      match s.cfg.settings.write number place value with
      | none => (s, .no .requestInvalid)
      | some (g, stored) =>
        (settingWritten number (s.modCfg fun c => { c with settings := g }),
          .ok (AnswerFlags.ofClamped (decide (stored ≠ givenSetting number value))) s.cfg.device.code 0))

/-- The answer that carries the device state after the request. -/
def State.deviceAnswer (s : State) : Answer := .ok AnswerFlags.none s.cfg.device.code 0

/-- START (R186). -/
def requestStart (p : Fin 16) (s : State) : State × Answer :=
  ifRoot p s (
    if s.cfg.device ≠ .config then (s, s.configOnly)
    else
      match s.startFailure with
      | some check => (s, .withDetail .startInvalid check)
      | none =>
        let t := enterRun s
        (t, t.deviceAnswer))

/-- RESTART (R188). -/
def requestRestart (p : Fin 16) (s : State) : State × Answer :=
  ifRoot p s (
    if s.inRun then (s, s.notReady)
    else
      let t := s.warmRestart
      (t, t.deviceAnswer))

/-- ENTER_SAFE (R187). -/
def requestEnterSafe (p : Fin 16) (s : State) : State × Answer :=
  ifRoot p s (
    match s.cfg.device with
    | .config => (s, s.notReady)
    | .run =>
      let t := enterSafe s
      (t, t.deviceAnswer)
    | .safe => (s, s.deviceAnswer))

/-- NOP (R177). -/
def requestNop (p : Fin 16) (s : State) : State × Answer := ifEnabled p s (s, .ok AnswerFlags.none 0 0)

end Sys2Proof.Machine
end

