-- ==== Sys2Proof/Machine/Link.lean ====
section
/-! DEFINITION. The link: decoding and routing (R177), the CAN input queue and transmit buffers (R174, R175), the SPI port (R176),
and the sender of a request command. -/

namespace Sys2Proof.Machine

/-! ## Decoding and routing (section 10.3) -/

/-- R177: a request of partner p taken, handed to its owner, and the answer. -/
def takeRequest (p : Fin 16) (c : Content) (s : State) : State × Answer :=
  let kind := c.b2.toNat
  let scope := c.b3.toNat
  let w := c.parameter
  let handle := c.b6.toNat
  if c.b7 ≠ 0 then (s, .no .requestInvalid)
  else
    match c.b0.toNat with
    | 0 => requestNop p s
    | 1 => requestOpen p kind scope w.toNat handle s
    | 2 => requestAmend p handle w.toNat s
    | 3 => requestRefresh p handle s
    | 4 => requestRetire p handle s
    | 5 => requestQuery p handle kind s
    | 6 => requestList p w.toNat s
    | 16 => requestReadMotion p handle s
    | 17 => requestReadCorner p scope kind s
    | 18 => requestReadAxle p scope kind handle s
    | 19 => requestReadSteer p kind handle s
    | 20 => requestReadNotices p kind s
    | 24 => requestClearNotices p w s
    | 25 => requestSetMask p w s
    | 32 => requestClearCorner p scope s
    | 33 => requestClearChannel p scope s
    | 34 => requestClearSteerFault p s
    | 35 => requestSwapBank p s
    | 36 => requestWriteBankRow p c.b2 scope w s
    | 40 => requestWriteSetting p handle scope w s
    | 41 => requestWriteRegistry p scope c.b2 c.b6 w.toNat s
    | 42 => requestStart p s
    | 43 => requestRestart p s
    | 44 => requestEnterSafe p s
    | _ => (s, .no .requestInvalid)

/-! ## The CAN side (R174, R175) -/

/-- R175: the frame at the front of the queue is taken when the answer buffer is empty; the answer is placed on
ANS_BASE + n, by the ANS_BASE that stands when the answer is placed: the answer to a write of ANS_BASE itself is placed on the new base
(log 42, the model's choice). -/
def takeFrame (s : State) : State :=
  match s.lnk.queue, s.lnk.answer with
  | f :: rest, none =>
    let r := takeRequest (Fin.ofNat 16 f.partner) f.content (s.modLnk fun l => { l with queue := rest })
    let frame : TxFrame := { identifier := r.1.cfg.settings.ansBase + f.partner, content := r.2.encode f.content.b1 }
    r.1.modLnk fun l => { l with answer := some { frame := frame, placedAt := r.1.now } }
  | _ :: _, some _ => s
  | [], _ => s

/-- R174, R175: a frame of partner n arrives; it is dropped, queued, or queued and taken at once. -/
def arrive (n : Nat) (c : Content) (s : State) : State :=
  if 4 ≤ s.lnk.queue.length then s.post (.linkOverrun n)
  else
    let t := s.modLnk fun l => { l with queue := l.queue ++ [{ partner := n, content := c }] }
    if s.lnk.queue.isEmpty ∧ s.lnk.answer = none then takeFrame t else t

/-- R174: the partner of a frame that LNK accepts. -/
def CanFrame.partner (f : CanFrame) (reqBase : Nat) : Option Nat :=
  if f.remote = false ∧ f.extended = false ∧ f.dlc = 8 ∧ reqBase + 1 ≤ f.identifier ∧ f.identifier ≤ reqBase + 13 then
    some (f.identifier - reqBase)
  else none

/-- R174: a received CAN frame; every frame that is not accepted is ignored. -/
def receiveFrame (f : CanFrame) (s : State) : State :=
  match CanFrame.partner f s.cfg.settings.reqBase, contentOf f.data with
  | some n, some c => arrive n c s
  | some _, none => s
  | none, _ => s

/-- The transmit buffers (R175). -/
inductive TxBuffer where
  | broadcast
  | answer
  | steering
  deriving DecidableEq, Repr

/-- The frame in a transmit buffer. -/
def Lnk.held (l : Lnk) : TxBuffer → Option TxFrame
  | .broadcast => l.broadcast
  | .answer => l.answer.map fun a => a.frame
  | .steering => l.steering

/-- Of two buffers, the one that LNK offers the bus first: the one whose frame has the lower identifier (R175). -/
def Lnk.first (l : Lnk) (a b : TxBuffer) : TxBuffer :=
  match l.held a, l.held b with
  | some x, some y => if y.identifier < x.identifier then b else a
  | some _, none => a
  | none, _ => b

/-- R175: the buffer that LNK offers the bus. -/
def Lnk.offered (l : Lnk) : TxBuffer := l.first (l.first .broadcast .answer) .steering

/-- R175: a transmit buffer's frame has been sent; an emptied answer buffer lets the next queued frame be taken (log 16). -/
def frameSent (s : State) : State :=
  match s.lnk.held s.lnk.offered with
  | none => s
  | some f =>
    match s.lnk.offered with
    | .broadcast => s.modLnk fun l => { l with broadcast := none, onBus := some f }
    | .steering => s.modLnk fun l => { l with steering := none, onBus := some f }
    | .answer => takeFrame (s.modLnk fun l => { l with answer := none, onBus := some f })

/-- R175: the answer has stood unsent for 100 ms and is abandoned. -/
def abandonAnswer (s : State) : State :=
  match s.lnk.answer with
  | some a => takeFrame ((s.advanceTo (a.placedAt + 100000)).modLnk fun l => { l with answer := none })
  | none => s

/-! ## The SPI side (R176) -/

/-- R176: the host's request taken; the answer replaces the answer slot. -/
def takeFromHost (c : Content) (s : State) : State :=
  let r := takeRequest 0 c s
  r.1.modLnk fun l => { l with slot := r.2.encode c.b1 }

/-- R176: select is asserted; the slot and its CRC start to shift out. -/
def selectAsserted (s : State) : State :=
  s.modLnk fun l => { l with shifting := some (l.slot.toList ++ [crc8 l.slot.toList]) }

/-- R176: exactly nine bytes with a correct CRC. -/
def frameGood (received : List Byte) : Bool :=
  decide (received.length = 9) && decide (received[8]? = some (crc8 (received.take 8)))

/-- The FRAME_ERROR answer with tag 0 (R176). -/
def frameError : Content := (Answer.no .frameError).encode 0

/-- R176: select is withdrawn; without a transaction in progress nothing is judged (log 25). -/
def selectWithdrawn (received : List Byte) (s : State) : State :=
  if s.lnk.shifting = none then s
  else
    let s := s.modLnk fun l => { l with shifting := none }
    match frameGood received, contentOf received with
    | true, some c => takeFromHost c s
    | true, none => s.modLnk fun l => { l with slot := frameError }
    | false, _ => s.modLnk fun l => { l with slot := frameError }

/-! ## The line side (R82), and the sender of a request command -/

/-- R82: the first detail of a refusal: the sub-reason when it is not 0, and otherwise byte 5. -/
def firstDetail (sub : SubReason) (d5 : Nat) : Nat := if sub = .none then d5 else sub.code

/-- R82: a request of the fallback decoder, for its command; a refused answer posts FALLBACK. -/
def takeFromLine (command : Nat) (c : Content) (s : State) : State :=
  let r := takeRequest 14 c s
  match r.2 with
  | .refused code _ sub d5 _ => r.1.post (.fallbackRefused command code.code (firstDetail sub d5))
  | .accepted _ _ _ _ _ _ => r.1
  | .body _ => r.1

/-- A request command from its sender: the host's is taken from partner 0, a CAN partner's arrives as a frame, and the fallback
line's is taken from partner 14 (section 3.1). A CAN number outside 1 to 13 is no partner, and its frame is ignored. -/
def submit (sender : Sender) (c : Content) (s : State) : State :=
  match sender with
  | .host => takeFromHost c s
  | .can n => if 1 ≤ n ∧ n ≤ 13 then arrive n c s else s
  | .line command => takeFromLine command c s

end Sys2Proof.Machine
end

