-- ==== Sys2Proof/Machine/Fallback.lean ====
section
/-! DEFINITION. The console fallback line: its decoder (R78, R79, R83) and its commands (R80 to R82). -/

namespace Sys2Proof.Machine

/-! ## The commands -/

/-- R80: the live entry of partner 14 of a kind. -/
def State.lineEntry (s : State) (k : Kind) : Option Entry := s.live.find? fun e => decide (e.kind = k ∧ e.owner = 14)

/-- R80: a toggle retires the line's own entry of the kind, or opens one. -/
def toggle (command : Nat) (k : Kind) (scope : Scope) (s : State) : State :=
  match s.lineEntry k with
  | some e => takeFromLine command (requestBytes 4 0 0 0 0 (BitVec.ofNat 8 e.handle)) s
  | none => takeFromLine command (requestBytes 1 0 (BitVec.ofNat 8 k.code) (BitVec.ofNat 8 scope.code) 65535 0) s

/-- R81: the acknowledgement at one door. -/
def acknowledgeDoor (d : Fin 4) (s : State) : State :=
  match (rd s.dsv.doors d).selfHandle with
  | some h =>
    if s.fitted d ∧ (rd s.dsv.doors d).contact.debounced then
      takeFromLine 3 (requestBytes 4 0 0 0 0 (BitVec.ofNat 8 h)) s
    else s
  | none => s

/-- R80, R81: a command of the fallback line is carried out. -/
def carryOut (command : Nat) (s : State) : State :=
  match command with
  | 1 => toggle 1 .kneel .curb s
  | 2 => toggle 2 .stopHold .vehicle s
  | 3 => (List.finRange 4).foldl (fun s d => acknowledgeDoor d s) s
  | 4 => toggle 4 .steerCentre .vehicle s
  | _ => s

/-! ## The decoder (R78, R79; log 13) -/

/-- Change the decoder's record. -/
def Dsv.changeFbl (f : Fbl → Fbl) (s : State) : State := s.modDsv fun x => { x with fbl := f x.fbl }

/-- Into a state with the phase timer from 0. -/
def Fbl.enter (now : Nat) (st : FblState) (f : Fbl) : Fbl := { f with state := st, since := now }

/-- R79: a malformed train met in START, GAP, PULSE or SPACE. -/
def malformed (phase : FblPhase) (s : State) : State :=
  (Dsv.changeFbl (Fbl.enter s.now .recover) s).post (.fallbackMalformed phase s.dsv.fbl.count)

/-- R79: the end of a command. -/
def endCommand (s : State) : State :=
  let n := s.dsv.fbl.count
  let s := Dsv.changeFbl (Fbl.enter s.now .idle) s
  if 5 ≤ n then s.post (.fallbackMalformed .count n) else carryOut n s

/-- R78: how long the phase timer runs in a state, in microseconds; none while no run-out is pending. -/
def Fbl.bound (f : Fbl) : Option Nat :=
  match f.state with
  | .idle => none
  | .start => some 40000
  | .gap => some 15000
  | .pulse => some 15000
  | .space => some 60000
  | .recover => if f.level then some 60000 else none

/-- R78: what a run-out of the phase timer does. -/
def runOut (s : State) : State :=
  match s.dsv.fbl.state with
  | .idle => s
  | .start => malformed .start s
  | .gap => malformed .gap s
  | .pulse => malformed .pulse s
  | .space => endCommand s
  | .recover => Dsv.changeFbl (Fbl.enter s.now .idle) s

/-- The length of the phase so far in 0.1 ms (section 4.5). -/
def Fbl.phase (now : Nat) (f : Fbl) : Nat := (now - f.since) / 100

/-- R78: the run-out of the phase has passed when an edge comes, so that it is taken first (log 13). -/
def Fbl.overdue (now : Nat) (f : Fbl) : Bool :=
  match f.state with
  | .idle => false
  | .start => decide (400 < f.phase now)
  | .gap => decide (150 < f.phase now)
  | .pulse => decide (150 < f.phase now)
  | .space => decide (600 ≤ f.phase now)
  | .recover => f.level && decide (600 ≤ f.phase now)

/-- R78: a falling edge. -/
def lineFalls (s : State) : State :=
  let t := Dsv.changeFbl (fun f => { f with level := false }) s
  let length := s.dsv.fbl.phase s.now
  match s.dsv.fbl.state with
  | .idle => Dsv.changeFbl (fun f => { f.enter s.now .start with count := 0 }) t
  | .gap => if length < 80 then malformed .gap t else Dsv.changeFbl (Fbl.enter s.now .pulse) t
  | .space =>
    if 80 ≤ length ∧ length ≤ 150 then Dsv.changeFbl (Fbl.enter s.now .pulse) t else malformed .space t
  | .recover => Dsv.changeFbl (Fbl.enter s.now .recover) t
  | .start => t
  | .pulse => t

/-- R78: a rising edge. -/
def lineRises (s : State) : State :=
  let t := Dsv.changeFbl (fun f => { f with level := true }) s
  let length := s.dsv.fbl.phase s.now
  match s.dsv.fbl.state with
  | .start =>
    if length ≤ 50 then Dsv.changeFbl (Fbl.enter s.now .idle) t
    else if length < 200 then malformed .start t
    else Dsv.changeFbl (fun f => { f.enter s.now .gap with count := 0 }) t
  | .pulse =>
    if length < 80 then malformed .pulse t
    else Dsv.changeFbl (fun f => { f.enter s.now .space with count := min 15 (f.count + 1) }) t
  | .recover => Dsv.changeFbl (Fbl.enter s.now .recover) t
  | .idle => t
  | .gap => t
  | .space => t

/-- R78: an edge of the line. -/
def lineEdge (level : Bool) (s : State) : State :=
  if s.dsv.fbl.level = level then s
  else
    let s := if s.dsv.fbl.overdue s.now then runOut s else s
    if level then lineRises s else lineFalls s

/-- R78: the phase timer reaches its bound. -/
def phaseTimeout (s : State) : State :=
  match s.dsv.fbl.bound with
  | some b => runOut (s.advanceTo (s.dsv.fbl.since + b))
  | none => s

end Sys2Proof.Machine
end

