-- ==== Sys2Proof/Machine/DoorCommands.lean ====
section
/-! DEFINITION. The meanings of the events of the table's deadlines, the doors, the drive inhibit and the fallback line. -/

namespace Sys2Proof.Machine

/-- R31: a deadline runs out at its instant, in RUN. -/
def deadlineRunsOut (handle : Nat) (s : State) : State :=
  match s.resolve handle with
  | none => s
  | some e =>
    match s.inRun, e.deadline with
    | true, .running due =>
      let t := s.advanceTo due
      State.finish (expireEntry e t)
    | true, .stopped _ => s
    | true, .none => s
    | false, _ => s

/-- REFRESH_DEADLINE_EXPIRY (R31, R34, R35). -/
def execRefreshDeadlineExpiry (handle : Byte) (s : State) : Host.Outcome State Fault Refusal :=
  .next (deadlineRunsOut handle.toNat s)

/-- DOOR_CONTACT_CHANGE (R66). -/
def execDoorContactChange (door : Fin 4) (level : Bool) (s : State) : Host.Outcome State Fault Refusal :=
  .next (Dsv.changeDoor door (fun x => { x with contact := x.contact.setLevel s.now level }) s)

/-- DOOR_CONTACT_DEBOUNCE_EXPIRY (R66). -/
def execDoorContactDebounceExpiry (door : Fin 4) (s : State) : Host.Outcome State Fault Refusal :=
  .next (
    match (rd s.dsv.doors door).contact.due with
    | some t => contactSettles door (s.advanceTo t)
    | none => s)

/-- DRIVE_INH_RELEASE_EXPIRY (R76). -/
def execDriveInhReleaseExpiry (s : State) : Host.Outcome State Fault Refusal := .next (releaseDrive s)

/-- FBL_EDGE (R78). -/
def execFblEdge (level : Bool) (s : State) : Host.Outcome State Fault Refusal := .next (lineEdge level s)

/-- FBL_PHASE_TIMEOUT (R78). -/
def execFblPhaseTimeout (s : State) : Host.Outcome State Fault Refusal := .next (phaseTimeout s)

end Sys2Proof.Machine
end

