-- ==== Sys2Proof/Machine/LinkCommands.lean ====
section
/-! DEFINITION. The meanings of the reset and of the link's events. -/

namespace Sys2Proof.Machine

/-- COLD_RESET (R183). -/
def execColdReset (s : State) : Host.Outcome State Fault Refusal := .next s.coldReset

/-- CAN_FRAME_ARRIVAL (R174, R175). -/
def execCanFrameArrival (frame : CanFrame) (s : State) : Host.Outcome State Fault Refusal := .next (receiveFrame frame s)

/-- CAN_FRAME_SENT (R175). -/
def execCanFrameSent (s : State) : Host.Outcome State Fault Refusal := .next (frameSent s)

/-- ANSWER_ABANDON_TIMEOUT (R175). -/
def execAnswerAbandonTimeout (s : State) : Host.Outcome State Fault Refusal := .next (abandonAnswer s)

/-- SPI_SELECT_ASSERT (R176). -/
def execSpiSelectAssert (s : State) : Host.Outcome State Fault Refusal := .next (selectAsserted s)

/-- SPI_SELECT_WITHDRAW (R176). -/
def execSpiSelectWithdraw (received : List Byte) (s : State) : Host.Outcome State Fault Refusal :=
  .next (selectWithdrawn received s)

/-- BROADCAST_EVENT (R179): every 100 ms in RUN and SAFE. -/
def execBroadcastEvent (s : State) : Host.Outcome State Fault Refusal :=
  .next (if s.cfg.device = .config then s else placeBroadcast (s.advanceTo (s.lnk.lastBroadcast + 100000)))

end Sys2Proof.Machine
end

