-- ==== Sys2Proof/Machine/RequestCommands.lean ====
section
/-! DEFINITION. The meanings of the request commands: a request of the type's content bytes (section 10.3), taken from its
sender (Machine/Link.lean) by its owner's rule (Machine/Requests.lean). -/

namespace Sys2Proof.Machine

/-- NOP, type 0 (R177). -/
def execNop (sender : Sender) (tag : Byte) (s : State) : Host.Outcome State Fault Refusal :=
  .next (submit sender (requestBytes 0 tag 0 0 0 0) s)

/-- OPEN, type 1 (R49). -/
def execOpenEntry (sender : Sender) (tag kind scope : Byte) (parameter : Word16) (handle : Byte) (s : State) : Host.Outcome State Fault Refusal :=
  .next (submit sender (requestBytes 1 tag kind scope parameter handle) s)

/-- AMEND, type 2 (R56). -/
def execAmend (sender : Sender) (tag handle : Byte) (parameter : Word16) (s : State) : Host.Outcome State Fault Refusal :=
  .next (submit sender (requestBytes 2 tag 0 0 parameter handle) s)

/-- REFRESH, type 3 (R57). -/
def execRefresh (sender : Sender) (tag handle : Byte) (s : State) : Host.Outcome State Fault Refusal :=
  .next (submit sender (requestBytes 3 tag 0 0 0 handle) s)

/-- RETIRE, type 4 (R58). -/
def execRetire (sender : Sender) (tag handle : Byte) (s : State) : Host.Outcome State Fault Refusal :=
  .next (submit sender (requestBytes 4 tag 0 0 0 handle) s)

/-- QUERY, type 5 (R43). -/
def execQuery (sender : Sender) (tag handle group : Byte) (s : State) : Host.Outcome State Fault Refusal :=
  .next (submit sender (requestBytes 5 tag group 0 0 handle) s)

/-- LIST, type 6 (R44). -/
def execList (sender : Sender) (tag : Byte) (index : Word16) (s : State) : Host.Outcome State Fault Refusal :=
  .next (submit sender (requestBytes 6 tag 0 0 index 0) s)

/-- READ_MOTION, type 16 (R178). -/
def execReadMotion (sender : Sender) (tag part : Byte) (s : State) : Host.Outcome State Fault Refusal :=
  .next (submit sender (requestBytes 16 tag 0 0 0 part) s)

/-- READ_CORNER, type 17 (R102). -/
def execReadCorner (sender : Sender) (tag corner group : Byte) (s : State) : Host.Outcome State Fault Refusal :=
  .next (submit sender (requestBytes 17 tag group corner 0 0) s)

/-- READ_AXLE, type 18 (R138). -/
def execReadAxle (sender : Sender) (tag axle group part : Byte) (s : State) : Host.Outcome State Fault Refusal :=
  .next (submit sender (requestBytes 18 tag group axle 0 part) s)

/-- READ_STEER, type 19 (R159). -/
def execReadSteer (sender : Sender) (tag group part : Byte) (s : State) : Host.Outcome State Fault Refusal :=
  .next (submit sender (requestBytes 19 tag group 0 0 part) s)

/-- READ_NOTICES, type 20 (R181). -/
def execReadNotices (sender : Sender) (tag flag : Byte) (s : State) : Host.Outcome State Fault Refusal :=
  .next (submit sender (requestBytes 20 tag flag 0 0 0) s)

/-- CLEAR_NOTICES, type 24 (R181). -/
def execClearNotices (sender : Sender) (tag : Byte) (flags : Word16) (s : State) : Host.Outcome State Fault Refusal :=
  .next (submit sender (requestBytes 24 tag 0 0 flags 0) s)

/-- SET_NOTICE_MASK, type 25 (R181). -/
def execSetNoticeMask (sender : Sender) (tag : Byte) (mask : Word16) (s : State) : Host.Outcome State Fault Refusal :=
  .next (submit sender (requestBytes 25 tag 0 0 mask 0) s)

/-- CLEAR_CORNER, type 32 (R98). -/
def execClearCorner (sender : Sender) (tag corner : Byte) (s : State) : Host.Outcome State Fault Refusal :=
  .next (submit sender (requestBytes 32 tag 0 corner 0 0) s)

/-- CLEAR_CHANNEL, type 33 (R172). -/
def execClearChannel (sender : Sender) (tag channel : Byte) (s : State) : Host.Outcome State Fault Refusal :=
  .next (submit sender (requestBytes 33 tag 0 channel 0 0) s)

/-- CLEAR_STEER_FAULT, type 34 (R143). -/
def execClearSteerFault (sender : Sender) (tag : Byte) (s : State) : Host.Outcome State Fault Refusal :=
  .next (submit sender (requestBytes 34 tag 0 0 0 0) s)

/-- SWAP_BANK, type 35 (R157). -/
def execSwapBank (sender : Sender) (tag : Byte) (s : State) : Host.Outcome State Fault Refusal :=
  .next (submit sender (requestBytes 35 tag 0 0 0 0) s)

/-- WRITE_BANK_ROW, type 36 (R156). -/
def execWriteBankRow (sender : Sender) (tag bankField row : Byte) (value : Word16) (s : State) : Host.Outcome State Fault Refusal :=
  .next (submit sender (requestBytes 36 tag bankField row value 0) s)

/-- WRITE_SETTING, type 40 (R184). -/
def execWriteSetting (sender : Sender) (tag number place : Byte) (value : Word16) (s : State) : Host.Outcome State Fault Refusal :=
  .next (submit sender (requestBytes 40 tag 0 place value number) s)

/-- WRITE_REGISTRY, type 41 (R47). -/
def execWriteRegistry (sender : Sender) (tag record rank kinds : Byte) (window : Word16) (s : State) : Host.Outcome State Fault Refusal :=
  .next (submit sender (requestBytes 41 tag rank record window kinds) s)

/-- START, type 42 (R186). -/
def execStart (sender : Sender) (tag : Byte) (s : State) : Host.Outcome State Fault Refusal :=
  .next (submit sender (requestBytes 42 tag 0 0 0 0) s)

/-- RESTART, type 43 (R188). -/
def execRestart (sender : Sender) (tag : Byte) (s : State) : Host.Outcome State Fault Refusal :=
  .next (submit sender (requestBytes 43 tag 0 0 0 0) s)

/-- ENTER_SAFE, type 44 (R187). -/
def execEnterSafe (sender : Sender) (tag : Byte) (s : State) : Host.Outcome State Fault Refusal :=
  .next (submit sender (requestBytes 44 tag 0 0 0 0) s)

end Sys2Proof.Machine
end

