-- ==== Sys2Proof/Machine/SignalCommands.lean ====
section
/-! DEFINITION. The meanings of the events of vehicle signals (01_vehicle_signals_and_the_motion_state.md). A row for one
moment of a speed update or of a sample event is the whole of it, when it brings the moment (log 4). -/

namespace Sys2Proof.Machine

/-- A sample event of a channel at its time: 5 ms after the last, or later (log 3). -/
def sampleAt (channel : Fin 21) (raw : BitVec 12) (s : State) : State :=
  sampleAnalog channel raw (s.advanceTo ((rd s.mot.analog channel).lastSample + 5000))

/-- SAMPLE_EVENT (R1, R2). -/
def execSampleEvent (channel : Fin 21) (raw : BitVec 12) (s : State) : Host.Outcome State Fault Refusal :=
  .next (sampleAt channel raw s)

/-- R2: the next out-of-window sample makes the channel FAULTY. -/
def AnalogChannel.failing (x : AnalogChannel) : Bool := decide (x.validity = .held ∧ 2 ≤ x.bad)

/-- R2: the next in-window sample makes the FAULTY channel VALID. -/
def AnalogChannel.recovering (x : AnalogChannel) : Bool := decide (x.validity = .faulty ∧ 4 ≤ x.good)

/-- ANALOG_CHANNEL_FAULTY (R2, R3): the sample event that makes a channel FAULTY. -/
def execAnalogChannelFaulty (channel : Fin 21) (raw : BitVec 12) (s : State) : Host.Outcome State Fault Refusal :=
  .next (if (rd s.mot.analog channel).failing && !s.cfg.settings.inWindow channel raw then sampleAt channel raw s else s)

/-- ANALOG_CHANNEL_RECOVERY (R2): the sample event that makes a FAULTY channel VALID. -/
def execAnalogChannelRecovery (channel : Fin 21) (raw : BitVec 12) (s : State) : Host.Outcome State Fault Refusal :=
  .next (if (rd s.mot.analog channel).recovering && s.cfg.settings.inWindow channel raw then sampleAt channel raw s else s)

/-- WHEEL_PULSE_EDGE (R5). -/
def execWheelPulseEdge (wheel : Fin 4) (rotation : Direction) (s : State) : Host.Outcome State Fault Refusal :=
  .next (s.modMot fun m => { m with wheels := upd m.wheels wheel (WheelChannel.edge s.now rotation) })

/-- A speed update at its time: 20 ms after the last or later (log 3). -/
def speedUpdateAt (s : State) : State :=
  let s := s.advanceTo (s.mot.lastUpdate + 20000)
  speedUpdate (s.modMot fun m => { m with lastUpdate := s.now })

/-- SPEED_UPDATE (R6 to R18, R33, R34). -/
def execSpeedUpdate (s : State) : Host.Outcome State Fault Refusal := .next (speedUpdateAt s)

/-- The validity of a wheel channel at a speed update goes from the one to the other. -/
def wheelTurns (wheel : Fin 4) (before after : Bool) (s : State) : Bool :=
  decide ((rd s.mot.wheels wheel).faulty = before ∧ (rd (speedUpdateAt s).mot.wheels wheel).faulty = after)

/-- WHEEL_ZERO_TIMEOUT (R7): the speed update that makes the channel FAULTY. -/
def execWheelZeroTimeout (wheel : Fin 4) (s : State) : Host.Outcome State Fault Refusal :=
  .next (if wheelTurns wheel false true s then speedUpdateAt s else s)

/-- WHEEL_AGREEMENT_RECOVERY (R8): the speed update that makes the channel VALID again. -/
def execWheelAgreementRecovery (wheel : Fin 4) (s : State) : Host.Outcome State Fault Refusal :=
  .next (if wheelTurns wheel true false s then speedUpdateAt s else s)

/-- R15: the next speed update goes from SETTLING to STANDSTILL. -/
def State.settles (s : State) : Bool :=
  decide (s.mot.motion = .settling ∧ (speedUpdateAt s).mot.motion = .standstill)

/-- SETTLE_TIMER_EXPIRY (R15): the speed update that enters STANDSTILL from SETTLING. -/
def execSettleTimerExpiry (s : State) : Host.Outcome State Fault Refusal :=
  .next (if s.settles then speedUpdateAt s else s)

/-- DRIVE_LINE_CHANGE (R14). -/
def execDriveLineChange (line : DriveLine) (level : Bool) (s : State) : Host.Outcome State Fault Refusal :=
  .next (s.modMot (Mot.changeLine line (InputLine.setLevel s.now level)))

/-- DRIVE_LINE_DEBOUNCE_EXPIRY (R14). -/
def execDriveLineDebounceExpiry (line : DriveLine) (s : State) : Host.Outcome State Fault Refusal :=
  .next (
    match (s.mot.line line).due with
    | some t => lineSettles line (s.advanceTo t)
    | none => s)

end Sys2Proof.Machine
end

