-- ==== Sys2Proof/Machine/ValveCommands.lean ====
section
/-! DEFINITION. The meanings of the events of the valve channels and the gates (09_valve_channels.md). -/

namespace Sys2Proof.Machine

/-- An event at one channel, whole (R171). -/
def channelEvent (channel : Fin 18) (f : Channel → Channel) (s : State) : State := State.finish (atChannel channel f s)

/-- An event that a channel's timer brings `span` microseconds after its start, in the one state in which it runs; nothing while
the timer is stopped. -/
def timerEvent (channel : Fin 18) (st : ChannelState) (timer : Channel → Option Nat) (span : Nat)
    (f : Nat → Channel → Channel) (s : State) : State :=
  match timer (rd s.vda.channels channel) with
  | some t =>
    if s.channelState channel = st then
      let u := s.advanceTo (t + span)
      channelEvent channel (f u.now) u
    else s
  | none => s

/-- BLANKING_END (R163). -/
def execBlankingEnd (channel : Fin 18) (s : State) : Host.Outcome State Fault Refusal :=
  .next (timerEvent channel .blanking (fun c => c.blanking) 3000 Channel.endBlanking s)

/-- HARD_SHORT (R163, R164). -/
def execHardShort (channel : Fin 18) (s : State) : Host.Outcome State Fault Refusal :=
  .next (channelEvent channel (Channel.hardShort s.now) s)

/-- OVER_CURRENT_START (R164). -/
def execOverCurrentStart (channel : Fin 18) (s : State) : Host.Outcome State Fault Refusal :=
  .next (channelEvent channel (Channel.currentRises s.now) s)

/-- OVER_CURRENT_END (R164). -/
def execOverCurrentEnd (channel : Fin 18) (s : State) : Host.Outcome State Fault Refusal :=
  .next (channelEvent channel (Channel.currentFalls s.now) s)

/-- QUALIFY_TIME_EXPIRY (R164, R166). -/
def execQualifyTimeExpiry (channel : Fin 18) (s : State) : Host.Outcome State Fault Refusal :=
  .next (timerEvent channel .qualifying (fun c => c.qualify) (qualifyTime channel) Channel.trip s)

/-- RETRY_EXPIRY (R165). -/
def execRetryExpiry (channel : Fin 18) (s : State) : Host.Outcome State Fault Refusal :=
  .next (timerEvent channel .tripped (fun c => c.retry) 200000 Channel.endRetry s)

/-- CLEAN_TIMER_EXPIRY (R166). -/
def execCleanTimerExpiry (channel : Fin 18) (s : State) : Host.Outcome State Fault Refusal :=
  .next (timerEvent channel .on (fun c => c.clean) 5000000 (fun _ => Channel.endSeries) s)

/-- A diagnostic check at its time: 100 ms after the channel's last or later (log 3). -/
def checkAt (channel : Fin 18) (load : Bool) (s : State) : State :=
  let s := s.advanceTo ((rd s.vda.channels channel).lastCheck + 100000)
  channelEvent channel (fun c => { c with lastCheck := s.now }.diagnose load) s

/-- DIAGNOSTIC_CHECK (R167); the checks of a channel in OPEN_LOAD stop, so the row has no effect there. -/
def execDiagnosticCheck (channel : Fin 18) (load : Bool) (s : State) : Host.Outcome State Fault Refusal :=
  .next (if s.channelState channel = .openLoad then s else checkAt channel load s)

/-- TEMPERATURE_SAMPLE (R168), 10 ms after the last or later. -/
def execTemperatureSample (degrees : Int) (s : State) : Host.Outcome State Fault Refusal :=
  let s := s.advanceTo (s.vda.lastTemp + 10000)
  .next (State.finish (sampleTemperature degrees (s.modVda fun v => { v with lastTemp := s.now })))

/-- A sample of the supply voltage, whole: 1 ms after the last or later (R169). -/
def supplyAt (tenths : Nat) (s : State) : State :=
  let s := s.advanceTo (s.vda.lastSupply + 1000)
  State.finish (sampleSupply tenths (s.modVda fun v => { v with lastSupply := s.now }))

/-- SUPPLY_VOLTAGE_SAMPLE (R169). -/
def execSupplyVoltageSample (tenths : Nat) (s : State) : Host.Outcome State Fault Refusal := .next (supplyAt tenths s)

/-- UNDERVOLTAGE_GATE_CLOSE (R169): the sample that closes the gate. -/
def execUndervoltageGateClose (tenths : Nat) (s : State) : Host.Outcome State Fault Refusal :=
  .next (if !s.vda.underClosed && decide (tenths < 160 ∧ 10 ≤ s.vda.lows + 1) then supplyAt tenths s else s)

/-- UNDERVOLTAGE_GATE_OPEN (R169): the sample that opens the gate. -/
def execUndervoltageGateOpen (tenths : Nat) (s : State) : Host.Outcome State Fault Refusal :=
  .next (if s.vda.underClosed && decide (180 ≤ tenths ∧ 50 ≤ s.vda.highs + 1) then supplyAt tenths s else s)

end Sys2Proof.Machine
end

