-- ==== Sys2Proof/Machine/Dispatch.lean ====
section
/-! DEFINITION. The meaning of each command: one arm per constructor of Instr. -/

namespace Sys2Proof.Machine

def exec (i : Instr) (s : State) : Host.Outcome State Fault Refusal :=
  match i with
  | .coldReset => Sys2Proof.Machine.execColdReset s
  | .canFrameArrival frame => Sys2Proof.Machine.execCanFrameArrival frame s
  | .canFrameSent => Sys2Proof.Machine.execCanFrameSent s
  | .answerAbandonTimeout => Sys2Proof.Machine.execAnswerAbandonTimeout s
  | .spiSelectAssert => Sys2Proof.Machine.execSpiSelectAssert s
  | .spiSelectWithdraw received => Sys2Proof.Machine.execSpiSelectWithdraw received s
  | .nop sender tag => Sys2Proof.Machine.execNop sender tag s
  | .openEntry sender tag kind scope parameter handle => Sys2Proof.Machine.execOpenEntry sender tag kind scope parameter handle s
  | .amend sender tag handle parameter => Sys2Proof.Machine.execAmend sender tag handle parameter s
  | .refresh sender tag handle => Sys2Proof.Machine.execRefresh sender tag handle s
  | .retire sender tag handle => Sys2Proof.Machine.execRetire sender tag handle s
  | .query sender tag handle group => Sys2Proof.Machine.execQuery sender tag handle group s
  | .list sender tag index => Sys2Proof.Machine.execList sender tag index s
  | .readMotion sender tag part => Sys2Proof.Machine.execReadMotion sender tag part s
  | .readCorner sender tag corner group => Sys2Proof.Machine.execReadCorner sender tag corner group s
  | .readAxle sender tag axle group part => Sys2Proof.Machine.execReadAxle sender tag axle group part s
  | .readSteer sender tag group part => Sys2Proof.Machine.execReadSteer sender tag group part s
  | .readNotices sender tag flag => Sys2Proof.Machine.execReadNotices sender tag flag s
  | .clearNotices sender tag flags => Sys2Proof.Machine.execClearNotices sender tag flags s
  | .setNoticeMask sender tag mask => Sys2Proof.Machine.execSetNoticeMask sender tag mask s
  | .clearCorner sender tag corner => Sys2Proof.Machine.execClearCorner sender tag corner s
  | .clearChannel sender tag channel => Sys2Proof.Machine.execClearChannel sender tag channel s
  | .clearSteerFault sender tag => Sys2Proof.Machine.execClearSteerFault sender tag s
  | .swapBank sender tag => Sys2Proof.Machine.execSwapBank sender tag s
  | .writeBankRow sender tag bankField row value => Sys2Proof.Machine.execWriteBankRow sender tag bankField row value s
  | .writeSetting sender tag number place value => Sys2Proof.Machine.execWriteSetting sender tag number place value s
  | .writeRegistry sender tag record rank kinds window => Sys2Proof.Machine.execWriteRegistry sender tag record rank kinds window s
  | .start sender tag => Sys2Proof.Machine.execStart sender tag s
  | .restart sender tag => Sys2Proof.Machine.execRestart sender tag s
  | .enterSafe sender tag => Sys2Proof.Machine.execEnterSafe sender tag s
  | .broadcastEvent => Sys2Proof.Machine.execBroadcastEvent s
  | .sampleEvent channel raw => Sys2Proof.Machine.execSampleEvent channel raw s
  | .analogChannelFaulty channel raw => Sys2Proof.Machine.execAnalogChannelFaulty channel raw s
  | .analogChannelRecovery channel raw => Sys2Proof.Machine.execAnalogChannelRecovery channel raw s
  | .wheelPulseEdge wheel rotation => Sys2Proof.Machine.execWheelPulseEdge wheel rotation s
  | .speedUpdate => Sys2Proof.Machine.execSpeedUpdate s
  | .wheelZeroTimeout wheel => Sys2Proof.Machine.execWheelZeroTimeout wheel s
  | .wheelAgreementRecovery wheel => Sys2Proof.Machine.execWheelAgreementRecovery wheel s
  | .settleTimerExpiry => Sys2Proof.Machine.execSettleTimerExpiry s
  | .driveLineChange line level => Sys2Proof.Machine.execDriveLineChange line level s
  | .driveLineDebounceExpiry line => Sys2Proof.Machine.execDriveLineDebounceExpiry line s
  | .refreshDeadlineExpiry handle => Sys2Proof.Machine.execRefreshDeadlineExpiry handle s
  | .doorContactChange door level => Sys2Proof.Machine.execDoorContactChange door level s
  | .doorContactDebounceExpiry door => Sys2Proof.Machine.execDoorContactDebounceExpiry door s
  | .driveInhReleaseExpiry => Sys2Proof.Machine.execDriveInhReleaseExpiry s
  | .fblEdge level => Sys2Proof.Machine.execFblEdge level s
  | .fblPhaseTimeout => Sys2Proof.Machine.execFblPhaseTimeout s
  | .cornerUpdate corner => Sys2Proof.Machine.execCornerUpdate corner s
  | .cornerQualified corner => Sys2Proof.Machine.execCornerQualified corner s
  | .actionTimeout corner => Sys2Proof.Machine.execActionTimeout corner s
  | .stallWatchSpan corner => Sys2Proof.Machine.execStallWatchSpan corner s
  | .brakeUpdate => Sys2Proof.Machine.execBrakeUpdate s
  | .holdConfirmed => Sys2Proof.Machine.execHoldConfirmed s
  | .holdUnconfirmedTimeout => Sys2Proof.Machine.execHoldUnconfirmedTimeout s
  | .holdLost => Sys2Proof.Machine.execHoldLost s
  | .holdRampEnd => Sys2Proof.Machine.execHoldRampEnd s
  | .steeringUpdate => Sys2Proof.Machine.execSteeringUpdate s
  | .disagreementTimeout => Sys2Proof.Machine.execDisagreementTimeout s
  | .trackingErrorTimeout => Sys2Proof.Machine.execTrackingErrorTimeout s
  | .centringTimeout => Sys2Proof.Machine.execCentringTimeout s
  | .blankingEnd channel => Sys2Proof.Machine.execBlankingEnd channel s
  | .hardShort channel => Sys2Proof.Machine.execHardShort channel s
  | .overCurrentStart channel => Sys2Proof.Machine.execOverCurrentStart channel s
  | .overCurrentEnd channel => Sys2Proof.Machine.execOverCurrentEnd channel s
  | .qualifyTimeExpiry channel => Sys2Proof.Machine.execQualifyTimeExpiry channel s
  | .retryExpiry channel => Sys2Proof.Machine.execRetryExpiry channel s
  | .cleanTimerExpiry channel => Sys2Proof.Machine.execCleanTimerExpiry channel s
  | .diagnosticCheck channel load => Sys2Proof.Machine.execDiagnosticCheck channel load s
  | .temperatureSample degrees => Sys2Proof.Machine.execTemperatureSample degrees s
  | .supplyVoltageSample tenths => Sys2Proof.Machine.execSupplyVoltageSample tenths s
  | .undervoltageGateClose tenths => Sys2Proof.Machine.execUndervoltageGateClose tenths s
  | .undervoltageGateOpen tenths => Sys2Proof.Machine.execUndervoltageGateOpen tenths s

end Sys2Proof.Machine
end

