-- ==== Sys2Proof/Machine/Step.lean ====
section
/-! DEFINITION. One step of the block: the command at the front of the queue (log 1). -/

namespace Sys2Proof.Machine

/-- One step. The command at the front of the queue is taken and has its effect with the queue's rest; on an empty queue one
microsecond passes and nothing else happens (log 2). -/
def step (s : State) : Host.Outcome State Fault Refusal :=
  match s.pending with
  | [] => .next { s with now := s.now + 1 }
  | c :: rest => exec c { s with pending := rest }

/-- The command that a word of the table spells, at the front of the queue; no row of the table has bits, so every word leaves
the state as it is (log 31). -/
def State.withFetchWord (s : State) (nbits w : Nat) : State :=
  match decodeTableWord nbits w with
  | some c => { s with pending := c :: s.pending }
  | none => s

end Sys2Proof.Machine
end

