-- ==== Sys2Proof/Safety.lean ====
section
/-! DEFINITION. What the statements speak of: when a request is taken at its own event and what its sender is given, and the
properties that every step keeps. -/

namespace Sys2Proof

/-! ## Requests and their senders (sections 3.1 and 10.3) -/

/-- The partner that a sender's requests are taken from. -/
def Sender.partner : Sender → Fin 16
  | .host => 0
  | .can n => Fin.ofNat 16 n
  | .line _ => 14

/-- The sender and the content bytes of a request command; none for the events that are no request. -/
def Instr.request? : Instr → Option (Sender × Content)
  | .nop x t => some (x, Machine.requestBytes 0 t 0 0 0 0)
  | .openEntry x t k sc w h => some (x, Machine.requestBytes 1 t k sc w h)
  | .amend x t h w => some (x, Machine.requestBytes 2 t 0 0 w h)
  | .refresh x t h => some (x, Machine.requestBytes 3 t 0 0 0 h)
  | .retire x t h => some (x, Machine.requestBytes 4 t 0 0 0 h)
  | .query x t h g => some (x, Machine.requestBytes 5 t g 0 0 h)
  | .list x t i => some (x, Machine.requestBytes 6 t 0 0 i 0)
  | .readMotion x t p => some (x, Machine.requestBytes 16 t 0 0 0 p)
  | .readCorner x t c g => some (x, Machine.requestBytes 17 t g c 0 0)
  | .readAxle x t a g p => some (x, Machine.requestBytes 18 t g a 0 p)
  | .readSteer x t g p => some (x, Machine.requestBytes 19 t g 0 0 p)
  | .readNotices x t f => some (x, Machine.requestBytes 20 t f 0 0 0)
  | .clearNotices x t w => some (x, Machine.requestBytes 24 t 0 0 w 0)
  | .setNoticeMask x t w => some (x, Machine.requestBytes 25 t 0 0 w 0)
  | .clearCorner x t c => some (x, Machine.requestBytes 32 t 0 c 0 0)
  | .clearChannel x t c => some (x, Machine.requestBytes 33 t 0 c 0 0)
  | .clearSteerFault x t => some (x, Machine.requestBytes 34 t 0 0 0 0)
  | .swapBank x t => some (x, Machine.requestBytes 35 t 0 0 0 0)
  | .writeBankRow x t b r v => some (x, Machine.requestBytes 36 t b r v 0)
  | .writeSetting x t n i v => some (x, Machine.requestBytes 40 t 0 i v n)
  | .writeRegistry x t n r k w => some (x, Machine.requestBytes 41 t r n w k)
  | .start x t => some (x, Machine.requestBytes 42 t 0 0 0 0)
  | .restart x t => some (x, Machine.requestBytes 43 t 0 0 0 0)
  | .enterSafe x t => some (x, Machine.requestBytes 44 t 0 0 0 0)
  | _ => none

end Sys2Proof

namespace Sys2Proof.Machine

/-- A request of the sender is taken at its own event: the sender exists, and a CAN partner finds the input queue and the answer
buffer empty (R174, R175). -/
def State.hears (s : State) (x : Sender) : Prop :=
  x.wf = true ∧ match x with
    | .host => True
    | .can _ => s.lnk.queue = [] ∧ s.lnk.answer = none
    | .line _ => True

/-- The registry record of the sender is enabled (R48). -/
def State.knows (s : State) (x : Sender) : Prop := (s.record x.partner).enabled = true

/-- The sender is heard, enabled and of authority 0, as a service request needs. -/
def State.serves (s : State) (x : Sender) : Prop := s.hears x ∧ s.knows x ∧ (s.record x.partner).authority = 0

/-- The answer given to the sender: in the answer slot for the host (R176), in the answer buffer on ANS_BASE + n for CAN partner n (R175),
with the ANS_BASE of the state answered from (log 42, the model's choice, where the request wrote it); the fallback line sees none, and a
refusal posts FALLBACK with the command, the code and its first detail (R82). -/
def State.reply (x : Sender) (tag : Byte) (a : Answer) (s : State) : State :=
  match x with
  | .host => s.modLnk fun l => { l with slot := a.encode tag }
  | .can n =>
    s.modLnk fun l =>
      { l with
        answer := some (PendingAnswer.mk (TxFrame.mk (s.cfg.settings.ansBase + n) (a.encode tag)) s.now) }
  | .line command =>
    match a with
    | .refused code _ sub d5 _ => s.post (.fallbackRefused command code.code (firstDetail sub d5))
    | .accepted _ _ _ _ _ _ => s
    | .body _ => s

/-! ## Properties that every step keeps -/

/-- R180, R181: ATTN is asserted exactly while a flag is both set and enabled; a flag has a record exactly while it is set, the
record is of that flag, and only a set flag is marked repeated. -/
structure Lnk.NoticesFit (l : Lnk) : Prop where
  attn : l.attn = true ↔ ∃ i : Fin 14, (rd l.notices i).raised = true ∧ l.mask.getLsbD i.val = true
  record : ∀ i, (rd l.notices i).raised = true ↔ (rd l.notices i).record.isSome = true
  flag : ∀ i n, (rd l.notices i).record = some n → n.flag = i
  repeated : ∀ i, (rd l.notices i).repeated = true → (rd l.notices i).raised = true

/-- R174: the frames of the input queue are of partners 1 to 13. -/
def Lnk.partnersFit (l : Lnk) : Prop := ∀ f ∈ l.queue, 1 ≤ f.partner ∧ f.partner ≤ 13

/-- R174, R175: at most four frames wait, each of a CAN partner, and only while the answer buffer is full. -/
structure Lnk.QueueFits (l : Lnk) : Prop where
  depth : l.queue.length ≤ 4
  partners : l.partnersFit
  full : l.queue ≠ [] → l.answer.isSome = true

/-- A registry record holds an authority of 0 to 3 and a window of 0, or of 100 to 2,000 ms in steps of 100 ms (R45). -/
def PartnerRecord.inRange (r : PartnerRecord) : Prop :=
  r.authority ≤ 3 ∧ (r.window = 0 ∨ (100 ≤ r.window ∧ r.window ≤ 2000 ∧ r.window % 100 = 0))

/-- R45: the records of the host, the fallback line and SELF hold their fixed values, and every record is in its range. -/
structure Ilt.RegistryFits (t : Ilt) : Prop where
  host : rd t.registry 0 = { enabled := true, authority := 0, permitted := 0xFF, window := 0 }
  line : rd t.registry 14 = { enabled := true, authority := 1, permitted := 0x2C, window := 0 }
  self : rd t.registry 15 = { enabled := true, authority := 0, permitted := 0xFF, window := 0 }
  ranges : ∀ p, (rd t.registry p).inRange

/-- The parameter of an entry lies in its kind's range, and is there exactly for the kinds that have one (R25). -/
def Entry.parameterFits (e : Entry) : Prop :=
  match e.kind.parameterRange with
  | none => e.parameter = none
  | some (lo, hi, _) => ∃ p, e.parameter = some p ∧ lo ≤ p ∧ p ≤ hi

/-- R19 to R22, R25, R38, R54: the handle of a live entry is its slot and the slot's generation, the part's own entries stand in
slots 18 to 23 and the others below, each parameter lies in its range, no two live entries agree in kind, owner and scope, and the
arrival order lists each occupied slot once and no other. -/
structure Ilt.Fits (t : Ilt) : Prop where
  handle : ∀ i e, (rd t.slots i).entry = some e → e.handle = i.val * 8 + (rd t.slots i).generation.val
  owner : ∀ i e, (rd t.slots i).entry = some e → (e.owner = 15 ↔ 18 ≤ i.val)
  parameter : ∀ i e, (rd t.slots i).entry = some e → e.parameterFits
  alone : ∀ i j e f, (rd t.slots i).entry = some e → (rd t.slots j).entry = some f →
    e.kind = f.kind → e.owner = f.owner → e.scope = f.scope → i = j
  once : t.order.Nodup
  lists : ∀ i, i ∈ t.order ↔ (rd t.slots i).entry.isSome = true

/-- R26: the scopes that the entries of a kind may name. -/
def Kind.names (k : Kind) (scope : Scope) : Prop :=
  match k with
  | .doorOpen => ∃ d, scope = .door d
  | .rampOut => ∃ d, scope = .door d
  | .kneel => scope = .curb ∨ scope = .full
  | .stopHold => scope = .vehicle
  | .raise => scope = .vehicle
  | .steerCentre => scope = .vehicle
  | .serviceLock => scope = .vehicle
  | .override => ∃ handle, scope = .target handle

/-- R26: the scope of every live entry is one that its kind may name, so it is another entry's handle exactly for an OVERRIDE. -/
def Ilt.ScopesFit (t : Ilt) : Prop := ∀ i e, (rd t.slots i).entry = some e → e.kind.names e.scope

/-- R90, R92: at most three corners fill; a corner's fill channel is commanded on exactly while it is FILLING, its exhaust channel
exactly while it is EXHAUSTING, and SI1 exactly while some corner is FILLING. -/
structure State.CornersFit (s : State) : Prop where
  few : s.crn.fillingCount ≤ 3
  fill : ∀ c, (rd s.vda.channels (fillChannel c)).command = if (rd s.crn.corners c).state = .filling then 1 else 0
  exhaust : ∀ c, (rd s.vda.channels (exhaustChannel c)).command = if (rd s.crn.corners c).state = .exhausting then 1 else 0
  supply : (rd s.vda.channels supplyChannel).command = if ∃ c, (rd s.crn.corners c).state = .filling then 1 else 0

/-- R170: a channel with a gate mark is DISABLED, LOCKED_OUT or OPEN_LOAD, and a DISABLED one has a mark. -/
def Channel.gated (c : Channel) : Prop :=
  (c.marked = true → c.state = .disabled ∨ c.state = .lockedOut ∨ c.state = .openLoad) ∧ (c.state = .disabled → c.marked = true)

/-- R170, for every channel. -/
def Vda.Gated (v : Vda) : Prop := ∀ c, (rd v.channels c).gated

/-- R154: every field of a row lies in its range. -/
def Row.inRange (r : Row) : Prop :=
  (0 ≤ r.v ∧ r.v ≤ 1200) ∧ (-2048 ≤ r.gArt ∧ r.gArt ≤ 2048) ∧ (-2048 ≤ r.gFront ∧ r.gFront ≤ 2048)
    ∧ (0 ≤ r.lim ∧ r.lim ≤ 150) ∧ (1 ≤ r.slew ∧ r.slew ≤ 20) ∧ (0 ≤ r.damp ∧ r.damp ≤ 1000)

/-- R154. -/
def Bank.inRange (b : Bank) : Prop := b.count ≤ 16 ∧ ∀ i, (rd b.rows i).inRange

/-- R154, R184: every setting and every field of both banks lies in its range. -/
def State.RangesFit (s : State) : Prop :=
  s.cfg.settings.inRange = true ∧ s.stc.bankA.inRange ∧ s.stc.bankB.inRange

/-- R73, R75, R76: the release lines and the drive-inhibit causes are what they are derived from, and the machine is INHIBITED
exactly while a cause is present. -/
structure State.OutputsFit (s : State) : Prop where
  release : ∀ d, (rd s.dsv.doors d).release = true ↔
    s.cfg.device = .run ∧ d.val < s.cfg.settings.doorCount ∧ s.mot.motion = .standstill ∧ s.brk.confirmed = true ∧
      ∃ e ∈ s.live, e.owner ≠ 15 ∧ (e.kind = .doorOpen ∨ e.kind = .rampOut) ∧ e.scope = .door d ∧ e.state = .active
  notRun : s.dsv.causes.notRun = true ↔ s.cfg.device ≠ .run
  doorEntry : s.dsv.causes.doorEntry = true ↔
    ∃ e ∈ s.live, (e.kind = .doorOpen ∨ e.kind = .rampOut) ∧ e.state ≠ .covered
  contactOpen : s.dsv.causes.contactOpen = true ↔
    ∃ d : Fin 4, d.val < s.cfg.settings.doorCount ∧ (rd s.dsv.doors d).contact.debounced = false
  service : s.dsv.causes.service = true ↔ ∃ e ∈ s.live, e.kind = .serviceLock
  curbLow : s.dsv.causes.curbLow = s.rlu.curbLow
  inhibited : s.dsv.machine = .inhibited ↔ (s.dsv.causes.notRun || s.dsv.causes.doorEntry || s.dsv.causes.contactOpen
    || s.dsv.causes.service || s.dsv.causes.curbLow) = true

/-- R28: the activation condition of an entry, on the values published now. -/
def State.ActiveWhen (s : State) (e : Entry) : Prop :=
  match e.kind with
  | .doorOpen => s.mot.motion = .standstill ∧ s.brk.confirmed = true
  | .rampOut =>
    s.mot.motion = .standstill ∧ s.brk.confirmed = true ∧ (s.rlu.kneelState = .level ∨ s.rlu.kneelState = .kneeled)
  | .kneel =>
    s.mot.motion = .standstill ∧ ∀ c,
      e.scope = .full ∨ (e.scope = .curb ∧ curbSide s.cfg.settings.curbRight c = true) → (rd s.crn.corners c).state ≠ .fault
  | .stopHold => s.mot.motion = .standstill
  | .raise => True
  | .steerCentre => True
  | .serviceLock => True
  | .override => True

/-- R29, R30: in RUN the underlying state of every live entry is its activation condition, and a WAITING or ACTIVE entry shows it. -/
structure State.Evaluated (s : State) : Prop where
  underlying : s.cfg.device = .run → ∀ e ∈ s.live, e.underlying = true ↔ s.ActiveWhen e
  shown : s.cfg.device = .run → ∀ e ∈ s.live, e.state = .waiting ∨ e.state = .active →
    e.state = if e.underlying then .active else .waiting

/-- R106: every target is the ride offset less the corner's kneel offset, held to -120 to 80 mm. -/
def Rlu.TargetsFit (r : Rlu) : Prop := ∀ c, rd r.targets c = max (-120) (min 80 ((r.ride : Int) - rd r.kneel c))

/-- R103, R104: the hold condition, and while it is not met the offsets in force: the largest parameter of an ACTIVE RAISE, and for
each corner the largest parameter of an ACTIVE KNEEL that covers it; 0 without one. -/
structure State.RidesFit (s : State) : Prop where
  held : s.rlu.held = true ↔
    (∃ e ∈ s.live, e.kind = .rampOut) ∨ ∃ e ∈ s.live, e.kind = .kneel ∧ e.state = .stale
  ride : s.rlu.held = false →
    (∀ e ∈ s.live, e.kind = .raise → e.state = .active → e.parameter.getD 0 ≤ s.rlu.ride)
      ∧ (s.rlu.ride = 0 ∨ ∃ e ∈ s.live, e.kind = .raise ∧ e.state = .active ∧ e.parameter.getD 0 = s.rlu.ride)
  kneel : s.rlu.held = false → ∀ c,
    let covers := fun e : Entry => e.scope = .full ∨ (e.scope = .curb ∧ curbSide s.cfg.settings.curbRight c = true)
    (∀ e ∈ s.live, e.kind = .kneel → e.state = .active → covers e → e.parameter.getD 0 ≤ rd s.rlu.kneel c)
      ∧ (rd s.rlu.kneel c = 0
        ∨ ∃ e ∈ s.live, e.kind = .kneel ∧ e.state = .active ∧ covers e ∧ e.parameter.getD 0 = rd s.rlu.kneel c)

/-- R94: every corner holds RAMP exactly while a RAMP_OUT is live, and SERVICE exactly while a SERVICE_LOCK is. -/
def State.FreezesFit (s : State) : Prop := ∀ c,
  ((rd s.crn.corners c).reasons.ramp = true ↔ ∃ e ∈ s.live, e.kind = .rampOut)
    ∧ ((rd s.crn.corners c).reasons.service = true ↔ ∃ e ∈ s.live, e.kind = .serviceLock)

/-- R95: a corner that was HOLDING for some reason is IN_BAND when it has lost its last one, and HOLDING while it has one; and a
corner in FAULT stays there. -/
def Corner.FollowsReasons (before after : Corner) : Prop :=
  (before.state = .holding → before.reasons ≠ FreezeSet.empty →
      after.state = if after.reasons = FreezeSet.empty then .inBand else .holding)
    ∧ (before.state = .fault → after.state = .fault)

/-- R120: a live entry contributes to the hold in a motion state. -/
def Entry.HoldsIn (m : MotionState) (e : Entry) : Prop :=
  (e.kind = .doorOpen ∨ e.kind = .rampOut ∨ e.kind = .stopHold ∨ e.kind = .serviceLock) ∧ e.state ≠ .covered
    ∧ (m = .settling ∨ m = .standstill ∨ (e.owner = 15 ∧ e.kind = .stopHold))

/-- R121: the pressure of a contributor, by the door hold pressure. -/
def Entry.pressure (doorHold : Nat) (e : Entry) : Nat :=
  if e.kind = .stopHold then e.parameter.getD 0 else if e.kind = .serviceLock then 500 else doorHold

/-- R120, R121, R123, R127, R129: what BRK makes of the table in RUN. With a contributor the hold is APPLYING or HELD, and H is the
largest pressure; without one it is not, and WAIT_DRIVE stands only while DRIVE_REQ is clear and the bus does not roll. -/
structure State.HoldsFit (s : State) : Prop where
  held : s.cfg.device = .run → (∃ e ∈ s.live, e.HoldsIn s.mot.motion) →
    (s.brk.hold = .applying ∨ s.brk.hold = .held)
      ∧ (∀ e ∈ s.live, e.HoldsIn s.mot.motion → e.pressure s.cfg.settings.doorHold ≤ s.brk.target)
      ∧ ∃ e ∈ s.live, e.HoldsIn s.mot.motion ∧ e.pressure s.cfg.settings.doorHold = s.brk.target
  free : s.cfg.device = .run → (∀ e ∈ s.live, ¬ e.HoldsIn s.mot.motion) →
    s.brk.hold = .released ∨ s.brk.hold = .ramping
      ∨ (s.brk.hold = .waitDrive ∧ s.mot.driveReq.debounced = false ∧ s.mot.motion ≠ .rolling)

/-- R127, R130: from the first state to the second the hold has entered RAMPING: H stands, the confirmation is gone, and the departure
window is open from the counter's value when the door-seen mark was set, and as it was without it. -/
def State.EntersRamp (s t : State) : Prop :=
  t.brk.hold = .ramping ∧ t.brk.confirmed = false ∧ t.brk.target = s.brk.target
    ∧ (s.brk.doorSeen = true → t.brk.windowOpen = true ∧ t.brk.windowRef = t.mot.counter ∧ t.stc.windowOpen = true)
    ∧ (s.brk.doorSeen = false → t.brk.windowOpen = s.brk.windowOpen ∧ t.brk.windowRef = s.brk.windowRef)

/-- R119, R121, R124, R127 to R129: PB1 to PB3 are commanded at the demands, no demand is above 850 kPa and H not above 500, A2 and A3 are
demanded at least H while the hold is not RELEASED, a HELD hold is confirmed, and H is 0 in RELEASED. -/
structure State.BrakesFit (s : State) : Prop where
  command : ∀ a, (rd s.vda.channels (brakeChannel a)).command = (rd s.brk.axles a).demand
  demand : ∀ a, (rd s.brk.axles a).demand ≤ 850
  target : s.brk.target ≤ 500
  floor : s.brk.hold ≠ .released → ∀ a, a ≠ 0 → s.brk.target ≤ (rd s.brk.axles a).demand
  confirmed : (s.brk.hold = .held → s.brk.confirmed = true) ∧ (s.brk.confirmed = true → s.brk.hold = .held ∨ s.brk.hold = .waitDrive)
  released : s.brk.hold = .released → s.brk.target = 0

/-- R144: the schedule values lie between the values of rows. -/
def Schedule.inRange (u : Schedule) : Prop :=
  (-2048 ≤ u.gArt ∧ u.gArt ≤ 2048) ∧ (-2048 ≤ u.gFront ∧ u.gFront ≤ 2048) ∧ (0 ≤ u.lim ∧ u.lim ≤ 150)
    ∧ (1 ≤ u.slew ∧ u.slew ≤ 20) ∧ (0 ≤ u.damp ∧ u.damp ≤ 1000)

/-- R144, R147, R148, R156: the steering is PARKED exactly out of RUN and has a schedule exactly in RUN, the command lies within the limit
in force at the last update and is 0 in PARKED, LOCKED and PASSIVE, CL1 is commanded on exactly in FROZEN, TRACKING and CENTRING, and the
bank in use is VALID in RUN. -/
structure State.SteeringFits (s : State) : Prop where
  parked : s.stc.state = .parked ↔ s.cfg.device ≠ .run
  schedule : s.stc.schedule.isSome = true ↔ s.cfg.device = .run
  values : ∀ u, s.stc.schedule = some u → u.inRange
  bounds : -150 ≤ s.stc.lower ∧ s.stc.lower ≤ 0 ∧ 0 ≤ s.stc.upper ∧ s.stc.upper ≤ 150
  command : s.stc.lower ≤ s.stc.command ∧ s.stc.command ≤ s.stc.upper
  still : s.stc.state = .parked ∨ s.stc.state = .locked ∨ s.stc.state = .passive → s.stc.command = 0
  lock : (rd s.vda.channels lockChannel).command
    = if s.stc.state = .frozen ∨ s.stc.state = .tracking ∨ s.stc.state = .centring then 1 else 0
  bank : s.cfg.device = .run → (s.stc.bank s.stc.inUse).valid = true

/-! ## What a command leaves -/

/-- What no hand-off between the blocks changes: the settings, the signals of MOT, the clock, the buffers of LNK, the registry, the
door contacts, the banks, and the trip records, marks and samples of VDA. -/
structure SameBase (s t : State) : Prop where
  pending : t.pending = s.pending
  now : t.now = s.now
  fresh : t.fresh = s.fresh
  cfg : t.cfg = s.cfg
  mot : t.mot = s.mot
  queue : t.lnk.queue = s.lnk.queue
  answer : t.lnk.answer = s.lnk.answer
  broadcast : t.lnk.broadcast = s.lnk.broadcast
  steering : t.lnk.steering = s.lnk.steering
  onBus : t.lnk.onBus = s.lnk.onBus
  slot : t.lnk.slot = s.lnk.slot
  shifting : t.lnk.shifting = s.lnk.shifting
  rotation : t.lnk.rotation = s.lnk.rotation
  steerCount : t.lnk.steerCount = s.lnk.steerCount
  mask : t.lnk.mask = s.lnk.mask
  lastBroadcast : t.lnk.lastBroadcast = s.lnk.lastBroadcast
  registry : t.ilt.registry = s.ilt.registry
  contacts : t.ilt.contacts = s.ilt.contacts
  contact : ∀ d, (rd t.dsv.doors d).contact = (rd s.dsv.doors d).contact
  fbl : t.dsv.fbl = s.dsv.fbl
  bankA : t.stc.bankA = s.stc.bankA
  bankB : t.stc.bankB = s.stc.bankB
  trips : ∀ c, (rd t.vda.channels c).trips = (rd s.vda.channels c).trips
  series : ∀ c, (rd t.vda.channels c).series = (rd s.vda.channels c).series
  thermal : ∀ c, (rd t.vda.channels c).thermal = (rd s.vda.channels c).thermal
  undervoltage : ∀ c, (rd t.vda.channels c).undervoltage = (rd s.vda.channels c).undervoltage
  overCurrent : ∀ c, (rd t.vda.channels c).overCurrent = (rd s.vda.channels c).overCurrent
  lastCheck : ∀ c, (rd t.vda.channels c).lastCheck = (rd s.vda.channels c).lastCheck
  thermalClosed : t.vda.thermalClosed = s.vda.thermalClosed
  underClosed : t.vda.underClosed = s.vda.underClosed
  lows : t.vda.lows = s.vda.lows
  highs : t.vda.highs = s.vda.highs
  lastTemp : t.vda.lastTemp = s.vda.lastTemp
  lastSupply : t.vda.lastSupply = s.vda.lastSupply

/-- The parts of an entry that the table's own evaluation does not change (R29). -/
def Entry.record (e : Entry) : Nat × Kind × Fin 16 × Nat × Scope × Option Nat × Deadline :=
  (e.handle, e.kind, e.owner, e.authority, e.scope, e.parameter, e.deadline)

/-- A slot's generation and the record of its entry. -/
def Slot.record (x : Slot) : Fin 8 × Option (Nat × Kind × Fin 16 × Nat × Scope × Option Nat × Deadline) :=
  (x.generation, x.entry.map Entry.record)

/-- A notice flag is raised. -/
def State.flagged (s : State) (flag : Fin 14) : Prop := (rd s.lnk.notices flag).raised = true

/-- What both resets leave in the blocks: R4, R9, R11, R14, R16, R17 for MOT; R42 for the table; R67, R68, R73, R77, R83 for DSV;
R91, R93, R99 and section 5.12 for CRN; R115 for RLU; R137 for BRK; R160 for STC; R173 for VDA; R182 for LNK; R183 for CFG. -/
structure State.FreshlyReset (t : State) : Prop where
  device : t.cfg.device = .config
  analog : ∀ c, (rd t.mot.analog c).validity = .held ∧ (rd t.mot.analog c).value = 0 ∧ (rd t.mot.analog c).bad = 0
    ∧ (rd t.mot.analog c).good = 0 ∧ (rd t.mot.analog c).raw = 0
  wheels : ∀ i, rd t.mot.wheels i = WheelChannel.initial
  motion : t.mot.speed = none ∧ t.mot.direction = .forward ∧ t.mot.counter = 0 ∧ t.mot.residue = { num := 0, den := 1 }
    ∧ t.mot.motion = .unknown ∧ t.mot.settleTimer = 0 ∧ t.mot.armed = false
  lines : t.mot.selFwd.debounced = false ∧ t.mot.selRev.debounced = false ∧ t.mot.driveReq.debounced = false
  table : t.ilt.order = [] ∧ (∀ i, (rd t.ilt.slots i).entry = none) ∧ ∀ d, rd t.ilt.contacts d = false
  doors : ∀ d, (rd t.dsv.doors d).contact.debounced = false ∧ (rd t.dsv.doors d).supervision = .dormant
    ∧ (rd t.dsv.doors d).selfHandle = none ∧ (rd t.dsv.doors d).release = false
  inhibit : t.dsv.causes.notRun = true ∧ t.dsv.causes.doorEntry = false
    ∧ (t.dsv.causes.contactOpen = true ↔ 0 < t.cfg.settings.doorCount) ∧ t.dsv.causes.service = false
    ∧ t.dsv.causes.curbLow = false ∧ t.dsv.machine = .inhibited
  fallback : t.dsv.fbl.count = 0 ∧ t.dsv.fbl.state = if t.dsv.fbl.level then .idle else .start
  corners : ∀ c, (rd t.crn.corners c).state = .holding
    ∧ (rd t.crn.corners c).reasons = { FreezeSet.empty with config := true } ∧ (rd t.crn.corners c).fault = none
    ∧ (rd t.crn.corners c).side = .none ∧ (rd t.crn.corners c).qualifyTimer = 0 ∧ (rd t.crn.corners c).actionTimer = 0
    ∧ (rd t.crn.corners c).loadValid = false
  levelling : t.crn.queue = [] ∧ t.crn.gateOpen = false ∧ ∀ a, (rd t.crn.axles a).valid = false
  ride : t.rlu.ride = 0 ∧ (∀ c, rd t.rlu.kneel c = 0) ∧ t.rlu.held = false ∧ (∀ c, rd t.rlu.targets c = 0)
    ∧ t.rlu.kneelState = .level ∧ t.rlu.curbLow = false
    ∧ ∀ c, (rd t.rlu.watches c).running = false ∧ (rd t.rlu.watches c).timer = 0 ∧ (rd t.rlu.watches c).mark = false
  brakes : t.brk.hold = .released ∧ t.brk.target = 0 ∧ t.brk.confirmed = false ∧ t.brk.confirmTimer = 0 ∧ t.brk.lossTimer = 0
    ∧ t.brk.unconfirmed = 0 ∧ t.brk.driver = 0 ∧ t.brk.base = 0 ∧ t.brk.windowOpen = false ∧ t.brk.windowRef = 0
    ∧ t.brk.doorSeen = false ∧ t.brk.selfHandle = none
  axles : ∀ a, (rd t.brk.axles a).demand = 0 ∧ (rd t.brk.axles a).loadShare = none ∧ (rd t.brk.axles a).blended = none
  steering : t.stc.state = .parked ∧ t.stc.command = 0 ∧ t.stc.lower = 0 ∧ t.stc.upper = 0 ∧ t.stc.schedule = none
    ∧ t.stc.prevGamma = none ∧ t.stc.latch = none ∧ t.stc.selfHandle = none ∧ t.stc.disagreeTimer = 0 ∧ t.stc.trackTimer = 0
    ∧ t.stc.centringTimer = 0 ∧ t.stc.damper = 1000 ∧ t.stc.jointLimit = false ∧ t.stc.windowOpen = false
    ∧ t.stc.pendingSwap = none
  valves : ∀ c, (rd t.vda.channels c).state = .off ∧ (rd t.vda.channels c).command = 0 ∧ (rd t.vda.channels c).trips = 0
    ∧ (rd t.vda.channels c).marked = false ∧ (rd t.vda.channels c).series = none ∧ (rd t.vda.channels c).blanking = none
    ∧ (rd t.vda.channels c).qualify = none ∧ (rd t.vda.channels c).retry = none ∧ (rd t.vda.channels c).clean = none
  gates : t.vda.thermalClosed = false ∧ t.vda.underClosed = false ∧ t.vda.lows = 0 ∧ t.vda.highs = 0
  buffers : t.lnk.queue = [] ∧ t.lnk.answer = none ∧ t.lnk.broadcast = none ∧ t.lnk.steering = none ∧ t.lnk.steerCount = 0
    ∧ t.lnk.slot = (Answer.no .noAnswer).encode 0 ∧ t.lnk.shifting = none ∧ t.lnk.rotation = 0
  notices : (∀ i, rd t.lnk.notices i = { raised := false, repeated := false, record := none }) ∧ t.lnk.attn = false

end Sys2Proof.Machine
end

