-- ==== Sys2Proof/Certificates/Slice0/Obligations.lean ====
section
/-! DEFINITION. The statements for the provers, in the order of OBLIGATIONS.json. A request command is stated for a sender that is
heard at its own event (`State.hears`); a frame of a CAN partner that has to wait is taken by the statements on frames. -/

open Sys2Proof Sys2Proof.Machine

/-! ## The block -/

/-- Section 3.1, log 1: a step takes the command at the front of the queue and runs it with the queue's rest. On an empty queue one
microsecond passes and nothing else changes (log 2, the model's choice). -/
def Obligations.StepTakesFront : Prop :=
  (∀ (c : Instr) (rest : List Instr) (s : State),
    step { s with pending := c :: rest } = exec c { s with pending := rest })
  ∧ ∀ s : State, s.pending = [] → step s = .next { s with now := s.now + 1 }

/-- No command stops the block, none touches the queue of commands, and none moves the clock back. -/
def Obligations.EveryCommandAnswers : Prop :=
  ∀ (c : Instr) (s : State), ∃ t : State, exec c s = .next t ∧ t.pending = s.pending ∧ s.now ≤ t.now

/-- R183, R185, R42, R46, R154, R160, R182 and the reset table of each chapter: a cold reset, taken in any state. -/
def Obligations.ColdResetClears : Prop :=
  ∀ s : State, ∃ t : State, exec .coldReset s = .next t ∧ t.FreshlyReset
    ∧ t.cfg.settings = Settings.default
    ∧ (∀ p, rd t.ilt.registry p = PartnerRecord.default p) ∧ (∀ i, (rd t.ilt.slots i).generation = 0)
    ∧ t.lnk.mask = BitVec.allOnes 14
    ∧ t.stc.bankA.count = 0 ∧ t.stc.bankB.count = 0 ∧ t.stc.bankA.valid = false ∧ t.stc.bankB.valid = false ∧ t.stc.inUse = .a
    ∧ (∀ i, rd t.stc.bankA.rows i = { v := 0, gArt := 0, gFront := 0, lim := 0, slew := 1, damp := 0 }
      ∧ rd t.stc.bankB.rows i = { v := 0, gArt := 0, gFront := 0, lim := 0, slew := 1, damp := 0 })
    ∧ t.pending = s.pending ∧ t.now = s.now ∧ t.dsv.fbl.level = s.dsv.fbl.level
    ∧ (∀ d, (rd t.dsv.doors d).contact.level = (rd s.dsv.doors d).contact.level)
    ∧ (∀ line, (t.mot.line line).level = (s.mot.line line).level)
    ∧ ∀ c, (rd t.vda.channels c).overCurrent = (rd s.vda.channels c).overCurrent

/-- R188, R42, R46, R160, R182, R185: an accepted RESTART makes the warm restart, and its answer carries CONFIG; in RUN it is
refused, and nothing changes beside the answer. -/
def Obligations.RestartKeeps : Prop :=
  ∀ (x : Sender) (tag : Byte) (s : State), s.serves x →
    (s.cfg.device = .run → exec (.restart x tag) s = .next (s.reply x tag (.refused .notReady none .none 1 0)))
    ∧ (s.cfg.device ≠ .run →
      ∃ t : State, exec (.restart x tag) s = .next (t.reply x tag (.accepted none none AnswerFlags.none 0 0 0))
        ∧ t.FreshlyReset
        ∧ t.cfg.settings = s.cfg.settings ∧ t.ilt.registry = s.ilt.registry ∧ t.lnk.mask = s.lnk.mask
        ∧ t.stc.bankA = s.stc.bankA ∧ t.stc.bankB = s.stc.bankB ∧ t.stc.inUse = s.stc.inUse
        ∧ (∀ i, (rd t.ilt.slots i).generation
            = (rd s.ilt.slots i).generation + (if (rd s.ilt.slots i).entry.isSome then 1 else 0))
        ∧ t.pending = s.pending ∧ t.now = s.now)

/-! ## What every step keeps -/

/-- R180, R181: the notice flags keep their form, and ATTN stands exactly while a flag is both set and enabled. -/
def Obligations.StepKeepsNotices : Prop :=
  ∀ s t : State, s.lnk.NoticesFit → step s = .next t → t.lnk.NoticesFit

/-- R174, R175: at most four frames of CAN partners wait, and only while the answer buffer is full. -/
def Obligations.StepKeepsQueue : Prop :=
  ∀ s t : State, s.lnk.QueueFits → step s = .next t → t.lnk.QueueFits

/-- R19 to R22, R25, R26, R38, R54: the form of the Interlock Table, and the scope of every live entry is one that its kind may name. -/
def Obligations.StepKeepsTable : Prop :=
  ∀ s t : State, step s = .next t →
    (s.lnk.QueueFits → s.ilt.Fits → t.ilt.Fits) ∧ (s.ilt.ScopesFit → t.ilt.ScopesFit)

/-- R45, R154, R184: the registry keeps its fixed records and ranges, and every setting and every bank field its range. -/
def Obligations.StepKeepsRanges : Prop :=
  ∀ s t : State, step s = .next t →
    (s.ilt.RegistryFits → t.ilt.RegistryFits) ∧ (s.RangesFit → t.RangesFit)

/-- R90, R92, R106, R170: at most three corners fill, every corner valve and SI1 are commanded by the corners' states, a channel with
a gate mark is not driven, and every corner's target is the ride offset less its kneel offset, held to -120 to 80 mm. -/
def Obligations.StepKeepsValves : Prop :=
  ∀ s t : State, step s = .next t → (s.CornersFit → t.CornersFit) ∧ (s.vda.Gated → t.vda.Gated)
    ∧ (s.rlu.TargetsFit → t.rlu.TargetsFit)

/-- R29, R30, R73, R75, R76: the door releases, the drive-inhibit causes and DRIVE_INH are what they are derived from; and in RUN the
underlying state of every live entry is its activation condition (R28), which a WAITING or ACTIVE entry shows. -/
def Obligations.StepKeepsOutputs : Prop :=
  ∀ s t : State, step s = .next t → (s.OutputsFit → t.OutputsFit) ∧ (s.Evaluated → t.Evaluated)

/-- R119, R121, R124, R127 to R131, R144, R147, R148, R156: the steering command is 0 in PARKED, LOCKED and PASSIVE, and STC's departure
window is BRK's. STC keeps its form: the command lies within the limit in force at the last update, CL1 is commanded on exactly in FROZEN,
TRACKING and CENTRING, the steering is PARKED exactly out of RUN and has a schedule exactly in RUN, and the bank in use is VALID in RUN.
BRK keeps its form: PB1 to PB3 are commanded at the demands, none is above 850 kPa, H is at most 500 kPa, and A2 and A3 are demanded at
least H while the hold is not RELEASED. -/
def Obligations.StepKeepsSteering : Prop :=
  ∀ s t : State, step s = .next t →
    ((s.stc.state = .parked ∨ s.stc.state = .locked ∨ s.stc.state = .passive → s.stc.command = 0) →
      (t.stc.state = .parked ∨ t.stc.state = .locked ∨ t.stc.state = .passive → t.stc.command = 0))
    ∧ (s.brk.windowOpen = s.stc.windowOpen → t.brk.windowOpen = t.stc.windowOpen)
    ∧ (s.RangesFit → s.SteeringFits → t.SteeringFits)
    ∧ (s.lnk.QueueFits → s.ilt.Fits → s.RangesFit → s.BrakesFit → t.BrakesFit)

/-- Every property above holds right after a reset, and so does what BRK, RLU and CRN make of the empty table (R94, R103, R104, R120); and
the cold reset of a state at its idle inputs is that state. -/
def Obligations.ResetFits : Prop :=
  State.reset.lnk.NoticesFit ∧ State.reset.lnk.QueueFits ∧ State.reset.ilt.Fits ∧ State.reset.ilt.ScopesFit
    ∧ State.reset.ilt.RegistryFits ∧ State.reset.CornersFit ∧ State.reset.vda.Gated ∧ State.reset.rlu.TargetsFit
    ∧ State.reset.RangesFit ∧ State.reset.OutputsFit ∧ State.reset.Evaluated
    ∧ (State.reset.stc.command = 0 ∧ State.reset.brk.windowOpen = State.reset.stc.windowOpen)
    ∧ State.reset.SteeringFits ∧ State.reset.BrakesFit
    ∧ State.reset.FreezesFit ∧ State.reset.HoldsFit ∧ State.reset.RidesFit
    ∧ State.reset.FreshlyReset ∧ exec .coldReset State.reset = .next State.reset

/-! ## Requests: who may send them -/

/-- R48, R176, R177: a request of a partner whose record is not enabled is refused as UNKNOWN_PARTNER, whatever its type. A service
request (types 24 and above, section 10.3) of a partner whose authority is not 0 is refused as AUTHORITY, with the sender's authority
and the needed one. A NOP of an enabled sender is accepted. None of them changes any state beside its answer. -/
def Obligations.SendersAreChecked : Prop :=
  (∀ (c : Instr) (x : Sender) (b : Content) (s : State), c.request? = some (x, b) → s.hears x → ¬ s.knows x →
    exec c s = .next (s.reply x b.b1 (.refused .unknownPartner none .none 0 0)))
  ∧ (∀ (c : Instr) (x : Sender) (b : Content) (s : State), c.request? = some (x, b) → s.hears x → s.knows x →
    24 ≤ b.b0.toNat → (s.record x.partner).authority ≠ 0 →
    exec c s = .next (s.reply x b.b1 (.refused .authority none .none (s.record x.partner).authority 0)))
  ∧ ∀ (x : Sender) (tag : Byte) (s : State), s.hears x → s.knows x →
    exec (.nop x tag) s = .next (s.reply x tag (.accepted none none AnswerFlags.none 0 0 0))

/-! ## Requests on the Interlock Table -/

/-- R21: which handles resolve, and that no two live entries of a table of the form that every step keeps share one. A request
that names an entry by a handle that does not resolve is refused as STALE_HANDLE, and nothing changes beside its answer. -/
def Obligations.HandlesResolve : Prop :=
  (∀ (s : State) (h : Nat) (e : Entry), s.resolve h = some e ↔
    ∃ i : Fin 24, h = i.val * 8 + (rd s.ilt.slots i).generation.val ∧ (rd s.ilt.slots i).entry = some e)
  ∧ (∀ (s : State) (i j : Fin 24) (e f : Entry), s.ilt.Fits → (rd s.ilt.slots i).entry = some e →
      (rd s.ilt.slots j).entry = some f → e.handle = f.handle → i = j)
  ∧ (∀ (x : Sender) (tag h g : Byte) (w : Word16) (s : State), s.hears x → s.knows x → s.resolve h.toNat = none →
      exec (.query x tag h g) s = .next (s.reply x tag (.refused .staleHandle none .none 0 0))
      ∧ (s.cfg.device = .run →
        exec (.amend x tag h w) s = .next (s.reply x tag (.refused .staleHandle none .none 0 0))
        ∧ exec (.refresh x tag h) s = .next (s.reply x tag (.refused .staleHandle none .none 0 0))
        ∧ exec (.retire x tag h) s = .next (s.reply x tag (.refused .staleHandle none .none 0 0))))
  ∧ ∀ (x : Sender) (tag h : Byte) (w : Word16) (s : State), s.hears x → s.knows x → s.resolve h.toNat = none →
      s.cfg.device = .run → (s.record x.partner).permitted.getLsbD 7 = true → (s.record x.partner).authority ≤ 1 →
      exec (.openEntry x tag 7 11 w h) s = .next (s.reply x tag (.refused .staleHandle none .none 0 0))

/-- R49 to R54: the checks of OPEN in order, each with its refusal; nothing changes beside the answer. The scope that a scope byte
names is R51's, the admission condition and its sub-reasons are R52's and for an OVERRIDE R53's, and the duplicate and the conflict are
the oldest entries of R54. A kind byte that names no kind is refused as REQUEST_INVALID. -/
def Obligations.OpenChecksInOrder : Prop :=
  (∀ (x : Sender) (tag kind scope handle : Byte) (w : Word16) (s : State) (k : Kind), s.hears x → s.knows x →
    Kind.ofCode kind.toNat = some k →
    let refusedBy := fun a : Answer => exec (.openEntry x tag kind scope w handle) s = .next (s.reply x tag a)
    (s.cfg.device ≠ .run → refusedBy (.refused .notReady none .none s.cfg.device.code 0))
    ∧ (s.cfg.device = .run →
      ((s.record x.partner).permitted.getLsbD k.code = false → refusedBy (.refused .kindNotPermitted none .none k.code 0))
      ∧ ((s.record x.partner).permitted.getLsbD k.code = true →
        (k.neededAuthority < (s.record x.partner).authority →
          refusedBy (.refused .authority none .none (s.record x.partner).authority k.neededAuthority))
        ∧ ((s.record x.partner).authority ≤ k.neededAuthority →
          (s.scopeOf k scope.toNat handle.toNat = none → refusedBy (.refused .badScope none .none scope.toNat 0))
          ∧ ∀ sc, s.scopeOf k scope.toNat handle.toNat = some sc →
            (∀ a, s.admission k sc = some a → refusedBy a)
            ∧ (s.admission k sc = none →
              (∀ e, s.duplicate k x.partner sc = some e → refusedBy (.refused .duplicate (some e.handle) .none 0 0))
              ∧ (s.duplicate k x.partner sc = none →
                (∀ e, s.conflict k = some e → refusedBy (.refused .conflict (some e.handle) .none 0 0))
                ∧ (s.conflict k = none → (∀ i : Fin 24, i.val < 18 → (rd s.ilt.slots i).entry.isSome = true) →
                  refusedBy (.refused .tableFull none .none 18 0))))))))
  ∧ (∀ (x : Sender) (tag kind scope handle : Byte) (w : Word16) (s : State), s.hears x → s.knows x → 8 ≤ kind.toNat →
    exec (.openEntry x tag kind scope w handle) s = .next (s.reply x tag (.refused .requestInvalid none .none 0 0)))
  ∧ (∀ (s : State) (n h : Nat),
    (∀ k, k = .doorOpen ∨ k = .rampOut →
      (∀ d : Fin 4, n = d.val + 1 → n ≤ s.cfg.settings.doorCount → s.scopeOf k n h = some (.door d))
      ∧ (n = 0 ∨ 4 < n ∨ s.cfg.settings.doorCount < n → s.scopeOf k n h = none))
    ∧ s.scopeOf .kneel n h = (if n = 8 then some .curb else if n = 9 then some .full else none)
    ∧ (∀ k, k = .stopHold ∨ k = .raise ∨ k = .steerCentre ∨ k = .serviceLock →
      s.scopeOf k n h = if n = 10 then some .vehicle else none)
    ∧ s.scopeOf .override n h = if n = 11 then some (.target h) else none)
  ∧ (∀ (s : State) (sc : Scope),
    let condition := fun (sub : SubReason) (h : Option Nat) => some (Answer.refused .condition h sub 0 0)
    let oldest := fun (k : Kind) (e : Entry) => ∃ before after, s.live = before ++ e :: after ∧ e.kind = k ∧ ∀ f ∈ before, f.kind ≠ k
    (∀ (k : Kind) (bound : Nat),
      (k = .doorOpen ∧ bound = 30) ∨ (k = .stopHold ∧ bound = 30) ∨ (k = .raise ∧ bound = 300) ∨ (k = .kneel ∧ bound = 50) →
      (s.mot.speed = none → s.admission k sc = condition .speedInvalid none)
      ∧ ∀ v, s.mot.speed = some v → (bound < v → s.admission k sc = condition .speed none)
        ∧ (v ≤ bound → k ≠ .kneel → s.admission k sc = none))
    ∧ (∀ v, s.mot.speed = some v → v ≤ 50 →
      (∀ e, oldest .rampOut e → s.admission .kneel sc = condition .rampPresent (some e.handle))
      ∧ ((∀ e ∈ s.live, e.kind ≠ .rampOut) →
        (∀ e, oldest .serviceLock e → s.admission .kneel sc = condition .serviceLock (some e.handle))
        ∧ ((∀ e ∈ s.live, e.kind ≠ .serviceLock) → s.admission .kneel sc = none)))
    ∧ (∀ k, k = .rampOut ∨ k = .serviceLock →
      (s.mot.motion ≠ .standstill → s.admission k sc = condition .notStandstill none)
      ∧ (s.mot.motion = .standstill → s.admission k sc = none))
    ∧ s.admission .steerCentre sc = none
    ∧ ∀ h,
      (s.resolve h = none → s.admission .override (.target h) = some (.refused .staleHandle none .none 0 0))
      ∧ ∀ e, s.resolve h = some e →
        let door := e.kind = .doorOpen ∨ e.kind = .rampOut
        (¬ door → s.admission .override (.target h) = condition .targetInvalid none)
        ∧ (door → e.state = .covered → s.admission .override (.target h) = condition .targetCovered e.coveredBy)
        ∧ (door → e.state = .waiting ∨ e.state = .active → s.admission .override (.target h) = condition .targetInvalid none)
        ∧ (door → e.state = .stale → ∀ d, e.scope = .door d →
          (rd s.ilt.contacts d = false → s.admission .override (.target h) = condition .contactOpen none)
          ∧ (rd s.ilt.contacts d = true → s.admission .override (.target h) = none)))
  ∧ ∀ (s : State) (k : Kind) (p : Fin 16) (sc : Scope),
    let clash := fun e : Entry => (k = .raise ∧ (e.kind = .kneel ∨ e.kind = .rampOut)) ∨ (k = .kneel ∧ e.kind = .raise)
      ∨ (k = .rampOut ∧ e.kind = .raise)
    (s.duplicate k p sc = none ↔ ∀ e ∈ s.live, ¬(e.kind = k ∧ e.owner = p ∧ e.scope = sc))
    ∧ (∀ e, s.duplicate k p sc = some e → e ∈ s.live ∧ e.kind = k ∧ e.owner = p ∧ e.scope = sc)
    ∧ (s.conflict k = none ↔ ∀ e ∈ s.live, ¬ clash e)
    ∧ ∀ before e after, s.live = before ++ e :: after → clash e → (∀ f ∈ before, ¬ clash f) → s.conflict k = some e

/-- R19, R21 to R23, R28, R31, R55, R62: an OPEN that passes the checks places the entry in the lowest free slot, at the back of the
arrival order, with the handle, the owner's authority, the fitted parameter and the owner's refresh window; a door that is UNCLAIMED is
OpenClaimsDoor's. The entry is ACTIVE exactly when its activation condition holds, and the answer carries its state at the end of the
event (log 10, the model's choice). The target of an OVERRIDE becomes COVERED by it. The other entries keep their records (handle, kind,
owner, authority, scope, parameter and deadline), while their shown states may follow R29; no notice is posted, and the blocks' bases are
kept. A hold kind opened in SETTLING or STANDSTILL leaves BRK in APPLYING or HELD, with H the largest pressure of the contributors (R120,
R121), and a partner's door entry sets the door-seen mark (R130). A RAISE, a KNEEL or a RAMP_OUT leaves the offsets of R103 and R104. A
RAMP_OUT or a SERVICE_LOCK leaves every corner with its freeze reason, HOLDING unless it is in FAULT (R94, R95), and a STEER_CENTRE takes
FROZEN and TRACKING to CENTRING with the timer at 0 and CL1 on, and leaves every other steering state (R150). -/
def Obligations.OpenPlacesEntry : Prop :=
  ∀ (x : Sender) (tag kind scope handle : Byte) (w : Word16) (s : State) (k : Kind) (sc : Scope) (slot : Fin 24),
    s.hears x → s.knows x → s.cfg.device = .run → Kind.ofCode kind.toNat = some k →
    (s.record x.partner).permitted.getLsbD k.code = true → (s.record x.partner).authority ≤ k.neededAuthority →
    s.scopeOf k scope.toNat handle.toNat = some sc → s.admission k sc = none → s.duplicate k x.partner sc = none →
    s.conflict k = none → slot.val < 18 → (rd s.ilt.slots slot).entry = none →
    (∀ i : Fin 24, i < slot → (rd s.ilt.slots i).entry.isSome = true) →
    (∀ d, sc = .door d → (rd s.dsv.doors d).supervision ≠ .unclaimed) →
    ∃ (t : State) (e : Entry),
      exec (.openEntry x tag kind scope w handle) s = .next (t.reply x tag
        (.accepted (some e.handle) (some e.state) (AnswerFlags.ofClamped (k.fitParameter w.toNat).2) 0 0 0))
      ∧ (rd t.ilt.slots slot).entry = some e
      ∧ e.handle = slot.val * 8 + (rd s.ilt.slots slot).generation.val
      ∧ e.kind = k ∧ e.owner = x.partner ∧ e.authority = (s.record x.partner).authority ∧ e.scope = sc
      ∧ e.parameter = (k.fitParameter w.toNat).1
      ∧ e.deadline = (if (s.record x.partner).window = 0 then .none
          else .running (s.now + (s.record x.partner).window * 1000))
      ∧ (e.state = .waiting ∨ e.state = .active) ∧ (e.state = .active ↔ t.ActiveWhen e) ∧ e.coveredBy = none
      ∧ t.Evaluated
      ∧ (∀ h, sc = .target h → ∃ g, t.resolve h = some g ∧ g.state = .covered ∧ g.coveredBy = some e.handle)
      ∧ t.ilt.order = s.ilt.order ++ [slot]
      ∧ (∀ i, i ≠ slot → (rd t.ilt.slots i).record = (rd s.ilt.slots i).record)
      ∧ (k = .doorOpen ∨ k = .rampOut ∨ k = .stopHold ∨ k = .serviceLock →
        s.mot.motion = .settling ∨ s.mot.motion = .standstill → t.brk.hold = .applying ∨ t.brk.hold = .held)
      ∧ (k = .doorOpen ∨ k = .rampOut ∨ k = .stopHold ∨ k = .serviceLock ∨ k = .override → t.HoldsFit)
      ∧ (k = .doorOpen ∨ k = .rampOut → t.brk.doorSeen = true)
      ∧ (k = .raise ∨ k = .kneel ∨ k = .rampOut → t.RidesFit)
      ∧ (k = .rampOut ∨ k = .serviceLock → t.FreezesFit ∧ ∀ c, let before := rd s.crn.corners c
        ((k = .rampOut ∧ before.reasons.ramp = false) ∨ (k = .serviceLock ∧ before.reasons.service = false) →
          before.state ≠ .fault → (rd t.crn.corners c).state = .holding)
        ∧ before.FollowsReasons (rd t.crn.corners c))
      ∧ (k = .steerCentre →
        (s.stc.state = .frozen ∨ s.stc.state = .tracking → t.stc.state = .centring ∧ t.stc.centringTimer = 0
          ∧ (rd t.vda.channels lockChannel).command = 1)
        ∧ (s.stc.state ≠ .frozen → s.stc.state ≠ .tracking → t.stc.state = s.stc.state))
      ∧ t.lnk = s.lnk ∧ SameBase s t

/-- R28, R70: a partner's DOOR_OPEN or RAMP_OUT opened for an UNCLAIMED door makes it AUTHORISED, and DSV retires its SELF DOOR_OPEN
with a PART_RETIRED notice and forgets its handle; the new entry stands, ACTIVE exactly when its activation condition holds, and the
answer carries its state at the end of the event (log 10, the model's choice). BRK, and for a RAMP_OUT RLU and CRN, stand as the table
gives them (R94, R103, R120, R121), with the door-seen mark set (R130). -/
def Obligations.OpenClaimsDoor : Prop :=
  ∀ (x : Sender) (tag kind scope handle : Byte) (w : Word16) (s : State) (k : Kind) (d : Fin 4) (h : Nat) (f : Entry)
    (slot : Fin 24),
    s.hears x → s.knows x → s.cfg.device = .run → Kind.ofCode kind.toNat = some k →
    (s.record x.partner).permitted.getLsbD k.code = true → (s.record x.partner).authority ≤ k.neededAuthority →
    s.scopeOf k scope.toNat handle.toNat = some (.door d) → s.admission k (.door d) = none →
    s.duplicate k x.partner (.door d) = none → s.conflict k = none →
    slot.val < 18 → (rd s.ilt.slots slot).entry = none →
    (∀ i : Fin 24, i < slot → (rd s.ilt.slots i).entry.isSome = true) →
    (rd s.dsv.doors d).supervision = .unclaimed → (rd s.dsv.doors d).selfHandle = some h → s.ilt.Fits →
    s.resolve h = some f → f.owner = 15 → f.kind = .doorOpen → f.scope = .door d → f.coveredBy = none →
    ∃ (t : State) (e : Entry),
      exec (.openEntry x tag kind scope w handle) s = .next (t.reply x tag
        (.accepted (some e.handle) (some e.state) (AnswerFlags.ofClamped (k.fitParameter w.toNat).2) 0 0 0))
      ∧ (rd t.ilt.slots slot).entry = some e ∧ e.kind = k ∧ e.owner = x.partner ∧ e.scope = .door d
      ∧ (e.state = .waiting ∨ e.state = .active) ∧ (e.state = .active ↔ t.ActiveWhen e) ∧ t.Evaluated
      ∧ t.resolve h = none ∧ (rd t.dsv.doors d).supervision = .authorised ∧ (rd t.dsv.doors d).selfHandle = none
      ∧ t.HoldsFit ∧ t.brk.doorSeen = true ∧ (k = .rampOut → t.RidesFit ∧ t.FreezesFit)
      ∧ t.flagged 1 ∧ SameBase s t

/-- R55, R56: an AMEND of an entry's own parameter by its owner, while the entry is WAITING or ACTIVE; 65535 asks for the default. The
entry keeps everything else; its state is kept while it shows its activation condition, as every step keeps it. The other entries keep
their records, while their shown states may follow R29. BRK takes a changed STOP_HOLD parameter (R121, R126), and RLU a changed RAISE or
KNEEL parameter (R103, R104), at this event. Out of RUN, of another owner's entry, of a kind without a parameter, and of a
STALE or COVERED entry the request is refused in this order, and nothing changes beside the answer. -/
def Obligations.AmendSetsParameter : Prop :=
  (∀ (x : Sender) (tag handle : Byte) (w : Word16) (s : State) (e : Entry) (lo hi dflt : Nat),
    s.hears x → s.knows x → s.cfg.device = .run → s.resolve handle.toNat = some e → e.owner = x.partner →
    e.kind.parameterRange = some (lo, hi, dflt) → (e.state = .waiting ∨ e.state = .active) →
    ∃ (t : State) (e' : Entry) (p : Nat),
      p = (if w.toNat = 65535 then dflt else max lo (min hi w.toNat))
      ∧ exec (.amend x tag handle w) s = .next (t.reply x tag
        (.accepted (some handle.toNat) (some e'.state)
          (AnswerFlags.ofClamped (decide (w.toNat ≠ 65535 ∧ p ≠ w.toNat))) 0 0 0))
      ∧ t.resolve handle.toNat = some e' ∧ e'.parameter = some p
      ∧ e'.handle = e.handle ∧ e'.kind = e.kind ∧ e'.owner = e.owner ∧ e'.authority = e.authority ∧ e'.scope = e.scope
      ∧ e'.deadline = e.deadline ∧ e'.coveredBy = e.coveredBy ∧ (e'.state = .waiting ∨ e'.state = .active)
      ∧ (s.Evaluated → s.ilt.Fits → e'.state = e.state ∧ e'.underlying = e.underlying ∧ t.Evaluated)
      ∧ t.ilt.order = s.ilt.order
      ∧ (∀ i : Fin 24, i.val ≠ handle.toNat / 8 → (rd t.ilt.slots i).record = (rd s.ilt.slots i).record)
      ∧ (e.kind = .stopHold → e.parameter ≠ some p ∨ s.HoldsFit → t.HoldsFit)
      ∧ (e.kind = .raise ∨ e.kind = .kneel → e.parameter ≠ some p ∨ s.RidesFit → t.RidesFit)
      ∧ t.lnk = s.lnk ∧ SameBase s t)
  ∧ ∀ (x : Sender) (tag handle : Byte) (w : Word16) (s : State), s.hears x → s.knows x →
    let refusedBy := fun a : Answer => exec (.amend x tag handle w) s = .next (s.reply x tag a)
    (s.cfg.device ≠ .run → refusedBy (.refused .notReady none .none s.cfg.device.code 0))
    ∧ ∀ e, s.cfg.device = .run → s.resolve handle.toNat = some e →
      (e.owner ≠ x.partner → refusedBy (.refused .notOwner none .ownerOnly 0 0))
      ∧ (e.owner = x.partner →
        (e.kind.parameterRange = none → refusedBy (.refused .requestInvalid none .none 0 0))
        ∧ (e.kind.parameterRange ≠ none → e.state = .stale ∨ e.state = .covered →
          refusedBy (.refused .entryStale none .none 0 0)))

/-- R32, R57, R64: a REFRESH by the owner. Without a deadline nothing changes and the answer carries NO_DEADLINE. A WAITING or ACTIVE entry
has its deadline set to the owner's full window, and nothing else changes. A STALE or COVERED entry is revived with the full window; the
OVERRIDE that covered it is retired with a PART_RETIRED notice, every other entry keeps its record, and BRK and RLU act on the revived
entry at this event (R103, R104, R120, R121). Out of RUN, and of another owner's entry, the request is refused, and nothing changes beside
the answer. -/
def Obligations.RefreshKeepsAlive : Prop :=
  (∀ (x : Sender) (tag handle : Byte) (s : State) (e : Entry),
    s.hears x → s.knows x → s.cfg.device = .run → s.resolve handle.toNat = some e → e.owner = x.partner →
    (e.deadline = .none →
      exec (.refresh x tag handle) s = .next (s.reply x tag
        (.accepted (some handle.toNat) (some e.state) { AnswerFlags.none with noDeadline := true } 0 0 0)))
    ∧ (e.deadline ≠ .none → (e.state = .waiting ∨ e.state = .active) → (s.record e.owner).window ≠ 0 →
      exec (.refresh x tag handle) s = .next (State.reply x tag
        (.accepted (some handle.toNat) (some e.state) AnswerFlags.none 0 0 0)
        (s.updEntry handle.toNat fun y =>
          { y with deadline := .running (s.now + (s.record e.owner).window * 1000) }))))
  ∧ (∀ (x : Sender) (tag handle : Byte) (s : State), s.hears x → s.knows x →
    (s.cfg.device ≠ .run → exec (.refresh x tag handle) s = .next (s.reply x tag (.refused .notReady none .none s.cfg.device.code 0)))
    ∧ ∀ e, s.cfg.device = .run → s.resolve handle.toNat = some e → e.owner ≠ x.partner →
      exec (.refresh x tag handle) s = .next (s.reply x tag (.refused .notOwner none .ownerOnly 0 0)))
  ∧ ∀ (x : Sender) (tag handle : Byte) (s : State) (e : Entry),
    s.hears x → s.knows x → s.cfg.device = .run → s.ilt.Fits → s.resolve handle.toNat = some e → e.owner = x.partner →
    e.deadline ≠ .none → (e.state = .stale ∨ e.state = .covered) → (s.record e.owner).window ≠ 0 →
    e.coveredBy ≠ some handle.toNat →
    ∃ (t : State) (e' : Entry),
      exec (.refresh x tag handle) s = .next (t.reply x tag
        (.accepted (some handle.toNat) (some e'.state) { AnswerFlags.none with revived := true } 0 0 0))
      ∧ t.resolve handle.toNat = some e' ∧ (e'.state = .waiting ∨ e'.state = .active) ∧ e'.coveredBy = none
      ∧ e'.deadline = .running (s.now + (s.record e.owner).window * 1000)
      ∧ e'.kind = e.kind ∧ e'.owner = e.owner ∧ e'.authority = e.authority ∧ e'.scope = e.scope ∧ e'.parameter = e.parameter
      ∧ (∀ o, e.coveredBy = some o → t.resolve o = none ∧ t.flagged 1)
      ∧ (∀ i : Fin 24, i.val ≠ handle.toNat / 8 → (∀ o, e.coveredBy = some o → i.val ≠ o / 8) →
          (rd t.ilt.slots i).record = (rd s.ilt.slots i).record)
      ∧ (e.kind = .doorOpen ∨ e.kind = .rampOut ∨ e.kind = .stopHold ∨ e.kind = .serviceLock → t.HoldsFit)
      ∧ (e.kind = .raise ∨ e.kind = .kneel ∨ e.kind = .rampOut → t.RidesFit)
      ∧ (e.coveredBy = none → t.lnk = s.lnk) ∧ SameBase s t

/-- R20, R22, R24, R58 to R61: a RETIRE by a sender with the right frees the slot and advances its generation: the handle does not
resolve, a partner's slot is empty and has left the arrival order, and a slot of the part's own holds at most a new entry of its own. Of
the entries that stood, all keep their records but the OVERRIDE that covered the retired one, which is retired with PART_RETIRED. The
target of a retired OVERRIDE returns from COVERED to STALE. Where the last partner entry of an open door retires, the door becomes
UNCLAIMED, and DSV holds a SELF DOOR_OPEN for it. No block keeps the handle. BRK, RLU and CRN stand as the table then gives them, and a
corner that loses its last freeze reason goes from HOLDING to IN_BAND (R94, R95, R103, R104, R120, R121, R127); and the retirement of the
last STEER_CENTRE takes LOCKED to FROZEN or TRACKING with the command 0 and CL1 on, where a CL1 that is not usable sets a clear latch in
TRACKING (R141, R151). An owner always has the right; another sender has it by its rank, the entry's kind and state and the door's contact
(R59), and over an entry of the part's own by R60, each failing part with its refusal. A sender without it, and a RETIRE out of RUN, are
refused, and nothing changes beside the answer. The answer names the handle, and no entry state (log 41, the model's choice). -/
def Obligations.RetireFreesSlot : Prop :=
  (∀ (x : Sender) (tag handle : Byte) (s : State), s.hears x → s.knows x → s.cfg.device ≠ .run →
    exec (.retire x tag handle) s = .next (s.reply x tag (.refused .notReady none .none s.cfg.device.code 0)))
  ∧ (∀ (x : Sender) (tag handle : Byte) (s : State) (e : Entry),
    s.hears x → s.knows x → s.cfg.device = .run → s.ilt.Fits → s.resolve handle.toNat = some e →
    (e.owner = x.partner → s.retireRight x.partner e = none)
    ∧ (∀ a, s.retireRight x.partner e = some a → exec (.retire x tag handle) s = .next (s.reply x tag a))
    ∧ (s.retireRight x.partner e = none →
      ∃ t : State, exec (.retire x tag handle) s = .next (t.reply x tag
          (.accepted (some handle.toNat) none AnswerFlags.none 0 0 0))
        ∧ t.resolve handle.toNat = none
        ∧ (∀ i : Fin 24, i.val = handle.toNat / 8 →
          (rd t.ilt.slots i).generation = (rd s.ilt.slots i).generation + 1
          ∧ (i.val < 18 → (rd t.ilt.slots i).entry = none ∧ i ∉ t.ilt.order)
          ∧ (18 ≤ i.val → ∀ f, (rd t.ilt.slots i).entry = some f → f.owner = 15 ∧ f.handle ≠ handle.toNat))
        ∧ (∀ i : Fin 24, i.val ≠ handle.toNat / 8 → (∀ o, e.coveredBy = some o → i.val ≠ o / 8) →
          (rd s.ilt.slots i).entry.isSome = true → (rd t.ilt.slots i).record = (rd s.ilt.slots i).record)
        ∧ (∀ o f, e.coveredBy = some o → s.resolve o = some f → t.resolve o = none ∧ t.flagged 1)
        ∧ (∀ h g, e.scope = .target h → s.resolve h = some g → g.state = .covered → h ≠ handle.toNat → e.coveredBy ≠ some h →
          (∃ g', t.resolve h = some g' ∧ g'.state = .stale ∧ g'.coveredBy = none ∧ g'.record = g.record)
          ∧ (g.kind = .doorOpen ∨ g.kind = .rampOut → t.HoldsFit))
        ∧ (e.kind = .doorOpen ∨ e.kind = .rampOut ∨ e.kind = .stopHold ∨ e.kind = .serviceLock → t.HoldsFit)
        ∧ (e.kind = .raise ∨ e.kind = .kneel ∨ e.kind = .rampOut → t.RidesFit)
        ∧ (e.kind = .rampOut ∨ e.kind = .serviceLock →
          t.FreezesFit ∧ ∀ c, (rd s.crn.corners c).FollowsReasons (rd t.crn.corners c))
        ∧ (e.kind = .steerCentre → e.scope = .vehicle → e.coveredBy = none →
          let others := ∃ f ∈ s.live, f.kind = .steerCentre ∧ f.handle ≠ handle.toNat
          let unusable := (s.channelState lockChannel).unusable = true
          (s.stc.state = .parked ∨ s.stc.state = .centring ∨ s.stc.state = .passive ∨ (s.stc.state = .locked ∧ others) →
            t.stc.state = s.stc.state)
          ∧ (s.stc.state = .locked → ¬ others → t.stc.command = 0 ∧ (rd t.vda.channels lockChannel).command = 1
            ∧ (s.mot.motion = .standstill → t.stc.state = .frozen ∧ t.stc.latch = s.stc.latch)
            ∧ (s.mot.motion ≠ .standstill → t.stc.trackTimer = 0
              ∧ (s.stc.latch ≠ none ∨ ¬ unusable → t.stc.state = .tracking ∧ t.stc.latch = s.stc.latch)
              ∧ (s.stc.latch = none → unusable → t.stc.latch = some .lockChannel ∧ t.flagged 7
                ∧ (s.stc.selfHandle = none → (∃ i : Fin 24, 18 ≤ i.val ∧ (rd s.ilt.slots i).entry = none) →
                  t.stc.state = .centring)))))
        ∧ (∀ d, e.owner ≠ 15 → e.kind = .doorOpen ∨ e.kind = .rampOut → e.scope = .door d → d.val < s.cfg.settings.doorCount →
          (rd s.dsv.doors d).contact.debounced = false → (rd s.dsv.doors d).supervision ≠ .unclaimed →
          (∀ f ∈ s.live, f.owner ≠ 15 → f.kind = .doorOpen ∨ f.kind = .rampOut → f.scope = .door d → f.handle = handle.toNat) →
          (rd t.dsv.doors d).supervision = .unclaimed ∧ t.flagged 2
          ∧ ((rd s.dsv.doors d).selfHandle = none → (∃ i : Fin 24, 18 ≤ i.val ∧ (rd s.ilt.slots i).entry = none) →
            (∀ f ∈ s.live, f.owner = 15 → f.kind = .doorOpen → f.scope ≠ .door d) →
            ∃ h f, (rd t.dsv.doors d).selfHandle = some h ∧ t.resolve h = some f ∧ f.owner = 15 ∧ f.kind = .doorOpen
              ∧ f.scope = .door d))
        ∧ (t.brk.selfHandle ≠ some handle.toNat ∧ t.stc.selfHandle ≠ some handle.toNat
          ∧ ∀ d, (rd t.dsv.doors d).selfHandle ≠ some handle.toNat)
        ∧ t.Evaluated ∧ SameBase s t))
  ∧ ∀ (s : State) (p : Fin 16) (e : Entry),
    let rank := (s.record p).authority
    let given := s.retireRight p e = none
    let turned := fun sub : SubReason => s.retireRight p e = some (.refused .notOwner none sub 0 0)
    let closed := ∃ d, e.scope = .door d ∧ rd s.ilt.contacts d = true
    let opened := ∃ d, e.scope = .door d ∧ rd s.ilt.contacts d = false
    (e.owner ≠ 15 → e.owner ≠ p →
      (e.kind = .kneel ∨ e.kind = .stopHold ∨ e.kind = .raise ∨ e.kind = .steerCentre →
        (rank < e.authority → given) ∧ (e.authority ≤ rank → turned .authorityRank))
      ∧ (e.kind = .doorOpen ∨ e.kind = .rampOut →
        (e.authority ≤ rank → turned .authorityRank)
        ∧ (rank < e.authority → (e.state = .waiting ∨ e.state = .active → turned .notStale)
          ∧ (e.state = .stale ∨ e.state = .covered → (closed → given) ∧ (opened → turned .contactOpen))))
      ∧ (e.kind = .override → (rank = 0 → rank < e.authority → given) ∧ (rank ≠ 0 ∨ e.authority ≤ rank → turned .authorityRank))
      ∧ (e.kind = .serviceLock → turned .ownerOnly))
    ∧ (e.owner = 15 →
      (e.kind = .doorOpen → (1 < rank → turned .authorityRank)
        ∧ (rank ≤ 1 → (closed → given) ∧ (opened → turned .contactOpen)))
      ∧ (e.kind = .stopHold → (1 < rank → turned .authorityRank) ∧ (rank ≤ 1 → given))
      ∧ (e.kind = .steerCentre → (s.stc.latch = none → turned .ownerOnly)
        ∧ (s.stc.latch ≠ none → s.retireRight p e = some (.refused .notClearable none .none 0 0))))

/-- R43, R44: QUERY's two groups and LIST; nothing changes beside the answer. The last byte of CONDITION is the remaining deadline in
units of 10 ms, rounded down: 0 for a STALE entry, and for a COVERED one the handle of its OVERRIDE in its place. That LIST takes the index
65535, of which R44 is silent, for one with no entry is log 35, the model's choice. -/
def Obligations.QueryAndListAnswer : Prop :=
  ∀ (x : Sender) (tag : Byte) (s : State), s.hears x → s.knows x →
    (∀ (handle : Byte) (e : Entry), s.resolve handle.toNat = some e →
      exec (.query x tag handle 0) s = .next (s.reply x tag
        (.accepted (some handle.toNat) (some e.state) AnswerFlags.none e.kind.code (e.owner.val * 16 + e.authority)
          (match e.scope with
            | .door d => d.val + 1
            | .curb => 8
            | .full => 9
            | .vehicle => 10
            | .target h => h)))
      ∧ (∃ last : Nat, exec (.query x tag handle 1) s = .next (s.reply x tag
          (.accepted (some handle.toNat) (some e.state) { AnswerFlags.none with noDeadline := decide (e.deadline = .none) }
            (e.parameter.getD 65535 / 256) (e.parameter.getD 65535 % 256) last))
        ∧ (e.state = .stale → last = 0)
        ∧ (∀ o, e.state = .covered → e.coveredBy = some o → last = o)
        ∧ (e.state = .waiting ∨ e.state = .active → last = match e.deadline with
          | .none => 0
          | .running due => (due - s.now) / 10000
          | .stopped left => left / 10000))
      ∧ ∀ g : Byte, 1 < g.toNat →
        exec (.query x tag handle g) s = .next (s.reply x tag (.refused .requestInvalid none .none 0 0)))
    ∧ ∀ index : Word16,
      (∀ e, s.live[index.toNat]? = some e →
        exec (.list x tag index) s = .next (s.reply x tag
          (.accepted (some e.handle) (some e.state) AnswerFlags.none s.live.length e.kind.code e.owner.val)))
      ∧ (s.live.length ≤ index.toNat →
        exec (.list x tag index) s = .next (s.reply x tag (.accepted none none AnswerFlags.none s.live.length 0 0)))

/-! ## Reads and notices -/

/-- R102, R138, R159, R178 and section 10.5.3: READ_MOTION, READ_CORNER, READ_AXLE and READ_STEER, answered in every device state; nothing
changes beside the answer. Where no blended share has been formed, the answer holds some value in its place and only the model's own
counter moves (log 8, the model's choice). -/
def Obligations.ReadsAnswer : Prop :=
  (∀ (x : Sender) (tag : Byte) (s : State), s.hears x → s.knows x →
    exec (.readMotion x tag 0) s = .next (s.reply x tag (.body (pack 48
      [(11, s.mot.speed.getD 2047), (1, directionCode s.mot.direction), (2, s.mot.motion.code), (2, s.selected.code),
       (1, bit s.mot.driveReq.debounced), (1, bit (rd s.mot.wheels 0).faulty), (1, bit (rd s.mot.wheels 1).faulty),
       (1, bit (rd s.mot.wheels 2).faulty), (1, bit (rd s.mot.wheels 3).faulty)])))
    ∧ exec (.readMotion x tag 1) s = .next (s.reply x tag (.body (pack 48 [(32, s.mot.counter.toNat)])))
    ∧ (∀ part : Byte, 1 < part.toNat →
      exec (.readMotion x tag part) s = .next (s.reply x tag (.refused .requestInvalid none .none 0 0)))
    ∧ (∀ (b : Byte) (c : Fin 6), b.toNat = c.val →
      exec (.readCorner x tag b 0) s = .next (s.reply x tag (.body (pack 48
        [(3, (rd s.crn.corners c).state.code), (10, signedField 10 (rd s.crn.corners c).measured),
         (8, signedField 8 (rd s.crn.corners c).target), (8, (rd s.crn.corners c).reasons.code),
         (3, if c ∈ s.crn.queue then s.crn.queue.idxOf c + 1 else 0), (3, CornerFault.code (rd s.crn.corners c).fault)])))
      ∧ exec (.readCorner x tag b 1) s = .next (s.reply x tag (.body (pack 48
        [(3, (rd s.crn.corners c).state.code), (16, (rd s.crn.corners c).load), (1, bit (rd s.crn.corners c).loadValid),
         (14, (rd s.crn.axles (cornerAxle c)).load), (1, bit (rd s.crn.axles (cornerAxle c)).valid),
         (1, bit s.crn.gateOpen)]))))
    ∧ ∀ b g : Byte, 6 ≤ b.toNat ∨ 1 < g.toNat →
      exec (.readCorner x tag b g) s = .next (s.reply x tag (.refused .requestInvalid none .none 0 0)))
  ∧ ∀ (x : Sender) (tag : Byte) (s : State), s.hears x → s.knows x →
    (∀ (b : Byte) (a : Fin 3), b.toNat = a.val + 1 →
      exec (.readAxle x tag b 0 0) s = .next (s.reply x tag (.body (pack 48
        [(10, (rd s.brk.axles a).demandAtUpdate), (11, signedField 11 (rd s.brk.axles a).measured),
         (2, (rd s.brk.axles a).validity.code), (10, s.brk.driver)])))
      ∧ (∀ v, (rd s.brk.axles a).blended = some v →
        exec (.readAxle x tag b 0 1) s = .next (s.reply x tag (.body (pack 48
          [(10, v), (10, (rd s.brk.axles a).loadShare.getD 1023)]))))
      ∧ ((rd s.brk.axles a).blended = none →
        ∃ v, exec (.readAxle x tag b 0 1) s = .next (State.reply x tag (.body (pack 48
          [(10, v), (10, (rd s.brk.axles a).loadShare.getD 1023)])) { s with fresh := s.fresh + 1 }))
      ∧ exec (.readAxle x tag b 1 0) s = .next (s.reply x tag (.body (pack 48
        [(3, s.brk.hold.code), (9, s.brk.target), (1, bit s.brk.confirmed), (1, bit s.brk.windowOpen),
         (8, s.brk.selfHandle.getD 255)]))))
    ∧ (∀ b g p : Byte, b = 0 ∨ 3 < b.toNat ∨ 1 < g.toNat ∨ 1 < p.toNat ∨ (g = 1 ∧ p = 1) →
      exec (.readAxle x tag b g p) s = .next (s.reply x tag (.refused .requestInvalid none .none 0 0)))
    ∧ exec (.readSteer x tag 0 0) s = .next (s.reply x tag (.body (pack 48
      [(3, s.stc.report.state.code), (9, signedField 9 s.stc.report.command), (10, signedField 10 s.stc.report.delta3),
       (9, signedField 9 s.stc.report.lower), (9, signedField 9 s.stc.report.upper)])))
    ∧ exec (.readSteer x tag 0 1) s = .next (s.reply x tag (.body (pack 48
      [(11, signedField 11 s.stc.report.gamma), (11, signedField 11 s.stc.report.delta1), (10, s.stc.report.damper),
       (1, bit s.stc.report.jointLimit), (1, bit s.stc.report.windowOpen)])))
    ∧ exec (.readSteer x tag 1 0) s = .next (s.reply x tag (.body (pack 48
      [(1, bit s.stc.latch.isSome), (4, LatchCause.code s.stc.latch), (8, s.stc.selfHandle.getD 255),
       (2, s.cfg.settings.bankMode.code), (1, s.stc.inUse.code), (1, bit s.stc.pendingSwap.isSome),
       (1, bit s.stc.bankA.valid), (5, s.stc.bankA.count), (1, bit s.stc.bankB.valid), (5, s.stc.bankB.count)])))
    ∧ ∀ g p : Byte, 1 < g.toNat ∨ 1 < p.toNat ∨ (g = 1 ∧ p = 1) →
      exec (.readSteer x tag g p) s = .next (s.reply x tag (.refused .requestInvalid none .none 0 0))

/-- R177, R178 and sections 10.3 and 10.5.1: fields are packed from the top bit downward with no gaps, and the bits left at the end are 0.
Beside it: the eight bytes of a request and of an answer (log 14, the model's choice, for an answer that names no entry), and the codes
of the named sets. -/
def Obligations.FieldsArePacked : Prop :=
  (∀ (n : Nat) (before after : List (Nat × Nat)) (width value : Nat),
    packWidth (before ++ (width, value) :: after) ≤ n →
    (pack n (before ++ (width, value) :: after)).extractLsb' (n - packWidth before - width) width = BitVec.ofNat width value
    ∧ ∀ i, i < n - packWidth (before ++ (width, value) :: after) →
      (pack n (before ++ (width, value) :: after)).getLsbD i = false)
  ∧ (∀ (width : Nat) (v : Int), 0 < width → -(2 ^ (width - 1) : Int) ≤ v → v < 2 ^ (width - 1) →
    (BitVec.ofNat width (signedField width v)).toInt = v)
  ∧ (∀ (type tag kind scope handle : Byte) (w : Word16), ∃ b : Content, requestBytes type tag kind scope w handle = b
    ∧ b.b0 = type ∧ b.b1 = tag ∧ b.b2 = kind ∧ b.b3 = scope ∧ b.b4 ++ b.b5 = w ∧ b.b6 = handle ∧ b.b7 = 0)
  ∧ (∀ (tag : Byte) (h : Option Nat) (e : Option EntryState) (f : AnswerFlags) (sub : SubReason) (c : RefusalCode) (x y z : Nat),
    Answer.encode tag (.accepted h e f x y z)
      = { b0 := 0, b1 := tag, b2 := h.getD 255, b3 := (e.map fun q => q.code).getD 255, b4 := f.code, b5 := x, b6 := y, b7 := z }
    ∧ Answer.encode tag (.refused c h sub x y)
      = { b0 := c.code, b1 := tag, b2 := h.getD 255, b3 := sub.code, b4 := 0, b5 := x, b6 := y, b7 := 0 })
  ∧ (∀ (tag : Byte) (body : BitVec 48), ∃ b : Content, Answer.encode tag (.body body) = b ∧ b.b0 = 0 ∧ b.b1 = tag
    ∧ b.b2 ++ b.b3 ++ b.b4 ++ b.b5 ++ b.b6 ++ b.b7 = body)
  ∧ ([.config, .run, .safe].map DeviceState.code = List.range 3
    ∧ [.unknown, .rolling, .settling, .standstill].map MotionState.code = List.range 4
    ∧ [.forward, .reverse].map directionCode = List.range 2 ∧ [.forward, .reverse, .neutral].map Selected.code = List.range 3
    ∧ [.valid, .held, .faulty].map Validity.code = List.range 3
    ∧ [.waiting, .active, .stale, .covered].map EntryState.code = List.range 4
    ∧ [.doorOpen, .rampOut, .kneel, .stopHold, .raise, .steerCentre, .serviceLock, .override].map Kind.code = List.range 8
    ∧ (List.range 8).map Kind.ofCode
      = [.doorOpen, .rampOut, .kneel, .stopHold, .raise, .steerCentre, .serviceLock, .override].map some
    ∧ [.released, .applying, .held, .waitDrive, .ramping].map HoldState.code = List.range 5
    ∧ [.level, .lowering, .kneeled, .raising, .stalled].map KneelState.code = List.range 5
    ∧ [.inBand, .fillWait, .filling, .exhausting, .holding, .fault].map CornerState.code = List.range 6
    ∧ [none, some .heightSensor, some .fillValve, some .exhaustValve, some .fillTimeout, some .exhaustTimeout].map CornerFault.code
      = List.range 6
    ∧ [.parked, .frozen, .tracking, .centring, .locked, .passive].map SteerState.code = List.range 6
    ∧ [none, some .artASensor, some .artBSensor, some .frontSensor, some .actuatorSensor, some .disagree, some .speedInvalid,
      some .trackingError, some .lockChannel, some .centringTimeout].map LatchCause.code = List.range 10
    ∧ [.fixedA, .fixedB, .follow].map BankMode.code = List.range 3 ∧ [.a, .b].map BankId.code = List.range 2
    ∧ [.off, .blanking, .on, .qualifying, .tripped, .lockedOut, .openLoad, .disabled].map ChannelState.code = List.range 8
    ∧ [.dormant, .shut, .authorised, .unclaimed, .resettable].map Supervision.code = List.range 5
    ∧ (∀ due, [.inhibited, .releasing due, .free].map InhibitMachine.code = List.range 3)
    ∧ [.unknownPartner, .notReady, .kindNotPermitted, .authority, .badScope, .condition, .duplicate, .conflict, .tableFull,
      .staleHandle, .entryStale, .notOwner, .notClearable, .requestInvalid, .configOnly, .bankActive, .bankPending, .bankFixed,
      .bankInvalid, .startInvalid].map RefusalCode.code = (List.range 20).map (· + 1)
    ∧ RefusalCode.code .frameError = 30 ∧ RefusalCode.code .noAnswer = 31
    ∧ [.none, .speed, .speedInvalid, .notStandstill, .rampPresent, .serviceLock, .contactOpen, .targetInvalid, .targetCovered,
      .ownerOnly, .authorityRank, .notStale, .disagree, .artASensor, .artBSensor, .frontSensor, .actuatorSensor, .heightSensor,
      .fillValve, .exhaustValve].map SubReason.code = List.range 20)
  ∧ (∀ f : FreezeSet, f.code = bit f.ramp + 2 * bit f.service + 4 * bit f.config + 8 * bit f.artic + 16 * bit f.brake
    + 32 * bit f.valvesOff + 64 * bit f.stall + 128 * bit f.supply)
  ∧ (∀ c : InhibitCauses, c.code = bit c.notRun + 2 * bit c.doorEntry + 4 * bit c.contactOpen + 8 * bit c.service + 16 * bit c.curbLow)
  ∧ ∀ f : AnswerFlags, f.code = bit f.clamped + 2 * bit f.revived + 4 * bit f.cancelled + 8 * bit f.noDeadline

/-- R180: a notice event on a clear flag sets it and latches the detail; on a set flag it sets the repeated marker and leaves the
record. The other flags are untouched, ATTN is judged, and nothing else changes. -/
def Obligations.NoticeLatchesFirstCause : Prop :=
  ∀ (n : Notice) (s : State),
    ((rd s.lnk.notices n.flag).raised = false →
      rd (s.post n).lnk.notices n.flag = { raised := true, repeated := false, record := some n })
    ∧ ((rd s.lnk.notices n.flag).raised = true →
      rd (s.post n).lnk.notices n.flag = { raised := true, repeated := true, record := (rd s.lnk.notices n.flag).record })
    ∧ (∀ i, i ≠ n.flag → rd (s.post n).lnk.notices i = rd s.lnk.notices i)
    ∧ ((s.post n).lnk.attn = true ↔
      ∃ i, (rd (s.post n).lnk.notices i).raised = true ∧ s.lnk.mask.getLsbD i.val = true)
    ∧ s.post n = s.modLnk fun l => { l with notices := (s.post n).lnk.notices, attn := (s.post n).lnk.attn }

/-- R82, R181 and section 10.5.4: READ_NOTICES, CLEAR_NOTICES and SET_NOTICE_MASK, in every device state. That bits 15 and 14 of a mask
are not examined is log 24, the model's choice. Beside it: the raw flag set has flag n at bit n, and the 32 bits of each first-cause
record, flag by flag. -/
def Obligations.NoticeRequests : Prop :=
  (∀ (x : Sender) (tag : Byte) (s : State), s.hears x → s.knows x →
    (∀ (b : Byte) (i : Fin 14), b.toNat = i.val →
      exec (.readNotices x tag b) s = .next (s.reply x tag (.body (pack 48
        [(14, s.lnk.rawFlags), (1, bit (rd s.lnk.notices i).repeated), (1, bit (rd s.lnk.notices i).record.isSome),
         (32, ((rd s.lnk.notices i).record.map fun n => n.bits.toNat).getD 0)]))))
    ∧ (∀ b : Byte, 14 ≤ b.toNat →
      exec (.readNotices x tag b) s = .next (s.reply x tag (.refused .requestInvalid none .none 0 0)))
    ∧ ((s.record x.partner).authority = 0 →
      (∀ flags : Word16, ∃ t : State,
        exec (.clearNotices x tag flags) s = .next (t.reply x tag
          (.accepted none none AnswerFlags.none (t.lnk.rawFlags / 256) (t.lnk.rawFlags % 256) 0))
        ∧ (∀ i, rd t.lnk.notices i = if flags.getLsbD i.val then { raised := false, repeated := false, record := none }
            else rd s.lnk.notices i)
        ∧ (t.lnk.attn = true ↔ ∃ i, (rd t.lnk.notices i).raised = true ∧ s.lnk.mask.getLsbD i.val = true)
        ∧ t = s.modLnk fun l => { l with notices := t.lnk.notices, attn := t.lnk.attn })
      ∧ ∀ mask : Word16, ∃ t : State,
        exec (.setNoticeMask x tag mask) s = .next (t.reply x tag
          (.accepted none none AnswerFlags.none (t.lnk.mask.toNat / 256) (t.lnk.mask.toNat % 256) 0))
        ∧ (∀ i : Fin 14, t.lnk.mask.getLsbD i.val = mask.getLsbD i.val)
        ∧ (t.lnk.attn = true ↔ ∃ i, (rd s.lnk.notices i).raised = true ∧ mask.getLsbD i.val = true)
        ∧ t = s.modLnk fun l => { l with mask := t.lnk.mask, attn := t.lnk.attn }))
  ∧ (∀ l : Lnk, l.rawFlags < 2 ^ 14 ∧ ∀ i : Fin 14, l.rawFlags.testBit i.val = (rd l.notices i).raised)
  ∧ (∀ (handle : Nat) (h : Option Nat), let none255 := h.getD 255
    (Notice.flag (.staleEntry handle) = 0 ∧ Notice.bits (.staleEntry handle) = pack 32 [(8, handle)])
    ∧ (∀ r code, (r, code) ∈ [(.speed, 0), (.stale, 1), (.targetRevived, 2), (.targetGone, 3), (.contactOpen, 4), (.causeCleared, 5)] →
      Notice.flag (.partRetired handle r) = 1 ∧ Notice.bits (.partRetired handle r) = pack 32 [(8, handle), (3, code)])
    ∧ (∀ d : Fin 4, Notice.flag (.doorUnclaimed d h) = 2 ∧ Notice.bits (.doorUnclaimed d h) = pack 32 [(3, d.val + 1), (8, none255)])
    ∧ (∀ d : Selected, Notice.flag (.rollbackHold d h) = 4 ∧ Notice.bits (.rollbackHold d h) = pack 32 [(2, d.code), (8, none255)])
    ∧ ∀ (c : LatchCause) (st : SteerState), Notice.flag (.steerFault c st h) = 7
      ∧ Notice.bits (.steerFault c st h) = pack 32 [(4, LatchCause.code (some c)), (3, st.code), (8, none255)])
  ∧ (∀ (target : Nat) (a2 a3 : Int) (c : UnconfirmedCause) (code : Nat), (c, code) ∈ [(.timeout, 0), (.lost, 1)] →
    Notice.flag (.holdUnconfirmed c target a2 a3) = 3 ∧ Notice.bits (.holdUnconfirmed c target a2 a3)
      = pack 32 [(1, code), (9, target), (11, signedField 11 a2), (11, signedField 11 a3)])
  ∧ (∀ (c : Fin 6) (r : CornerFault) (offset : Nat) (height : Int),
    (Notice.flag (.cornerFault c r) = 5 ∧ Notice.bits (.cornerFault c r) = pack 32 [(3, c.val), (3, CornerFault.code (some r))])
    ∧ Notice.flag (.kneelStall c offset height) = 6
      ∧ Notice.bits (.kneelStall c offset height) = pack 32 [(3, c.val), (7, offset), (10, signedField 10 height)])
  ∧ (∀ gamma : Int, Notice.flag (.jointLimit gamma) = 8 ∧ Notice.bits (.jointLimit gamma) = pack 32 [(11, signedField 11 gamma)])
  ∧ (∀ source from', (source, from') ∈ [(.analog, 0), (.wheel, 1), (.valve, 2)] →
    ∀ state code, (state, code) ∈ [(.faulty, 0), (.lockedOut, 1), (.openLoad, 2)] → ∀ number trips,
    Notice.flag (.channelFault source number state trips) = 9
    ∧ Notice.bits (.channelFault source number state trips) = pack 32 [(2, from'), (5, number), (2, code), (2, trips)])
  ∧ (∀ cause code, (cause, code) ∈ [(.reservoir, 0), (.thermal, 1), (.undervoltage, 2)] → ∀ value : Int,
    Notice.flag (.supply cause value) = 10 ∧ Notice.bits (.supply cause value) = pack 32 [(2, code), (12, signedField 12 value)])
  ∧ (∀ (bank : BankId) (taken : Bool), Notice.flag (.bankSwapped bank taken) = 11
    ∧ Notice.bits (.bankSwapped bank taken) = pack 32 [(1, bank.code), (1, if taken then 0 else 1)])
  ∧ (∀ partner : Nat, Notice.flag (.linkOverrun partner) = 12 ∧ Notice.bits (.linkOverrun partner) = pack 32 [(4, partner)])
  ∧ (∀ phase code, (phase, code) ∈ [(.start, 0), (.gap, 1), (.pulse, 2), (.space, 3), (.count, 4)] → ∀ count : Nat,
    Notice.flag (.fallbackMalformed phase count) = 13
    ∧ Notice.bits (.fallbackMalformed phase count) = pack 32 [(1, 0), (3, code), (4, count)])
  ∧ (∀ command code detail : Nat, Notice.flag (.fallbackRefused command code detail) = 13
    ∧ Notice.bits (.fallbackRefused command code detail) = pack 32 [(1, 1), (3, command), (8, code), (8, detail)])
  ∧ ∀ (sub : SubReason) (d5 : Nat), (sub = .none → firstDetail sub d5 = d5) ∧ (sub ≠ .none → firstDetail sub d5 = sub.code)

/-! ## Service requests -/

/-- R98: CLEAR_CORNER. Out of RUN it is refused, and in RUN for a number above 5. A corner out of FAULT is left as it is. A standing cause
refuses, the first in this order: the height channel is FAULTY, the fill channel is LOCKED_OUT or OPEN_LOAD, the exhaust channel is.
Otherwise the fault goes, and the corner is HOLDING while it holds a freeze reason and IN_BAND without one. -/
def Obligations.ClearCornerClears : Prop :=
  (∀ (x : Sender) (tag b : Byte) (s : State), s.serves x →
    (s.cfg.device ≠ .run → exec (.clearCorner x tag b) s = .next (s.reply x tag (.refused .notReady none .none s.cfg.device.code 0)))
    ∧ (s.cfg.device = .run → 6 ≤ b.toNat →
      exec (.clearCorner x tag b) s = .next (s.reply x tag (.refused .requestInvalid none .none 0 0))))
  ∧ ∀ (x : Sender) (tag b : Byte) (c : Fin 6) (s : State), s.serves x → b.toNat = c.val →
    (s.cfg.device = .run →
      ((rd s.crn.corners c).state ≠ .fault →
        exec (.clearCorner x tag b) s = .next (s.reply x tag
          (.accepted none none AnswerFlags.none (rd s.crn.corners c).state.code 0 0)))
      ∧ ((rd s.crn.corners c).state = .fault →
        let height := (rd s.mot.analog ⟨c.val, by omega⟩).validity = .faulty
        let failed := fun ch : Fin 18 => s.channelState ch = .lockedOut ∨ s.channelState ch = .openLoad
        let fill := failed ⟨c.val, by omega⟩
        let exhaust := failed ⟨c.val + 6, by omega⟩
        let refusedFor := fun sub : SubReason =>
          exec (.clearCorner x tag b) s = .next (s.reply x tag (.refused .condition none sub 0 0))
        (height → refusedFor .heightSensor) ∧ (¬ height → fill → refusedFor .fillValve)
        ∧ (¬ height → ¬ fill → exhaust → refusedFor .exhaustValve)
        ∧ (¬ height → ¬ fill → ¬ exhaust →
          ∃ t : State, exec (.clearCorner x tag b) s = .next (t.reply x tag
              (.accepted none none AnswerFlags.none (rd t.crn.corners c).state.code 0 0))
            ∧ (rd t.crn.corners c).fault = none
            ∧ (rd t.crn.corners c).state = (if (rd t.crn.corners c).reasons = FreezeSet.empty then .inBand else .holding)
            ∧ SameBase s t)))

/-- R172: CLEAR_CHANNEL. In SAFE it is refused, and elsewhere for a number above 17. A channel out of LOCKED_OUT and OPEN_LOAD is left as
it is; otherwise its trips are 0 and it is DISABLED under a gate mark, and follows its command without one. -/
def Obligations.ClearChannelClears : Prop :=
  (∀ (x : Sender) (tag b : Byte) (s : State), s.serves x →
    (s.cfg.device = .safe → exec (.clearChannel x tag b) s = .next (s.reply x tag (.refused .notReady none .none 2 0)))
    ∧ (s.cfg.device ≠ .safe → 18 ≤ b.toNat →
      exec (.clearChannel x tag b) s = .next (s.reply x tag (.refused .requestInvalid none .none 0 0))))
  ∧ ∀ (x : Sender) (tag b : Byte) (ch : Fin 18) (s : State), s.serves x → b.toNat = ch.val →
    (s.cfg.device ≠ .safe →
      (s.channelState ch ≠ .lockedOut → s.channelState ch ≠ .openLoad →
        exec (.clearChannel x tag b) s = .next (s.reply x tag
          (.accepted none none AnswerFlags.none (s.channelState ch).code (rd s.vda.channels ch).trips 0)))
      ∧ (s.channelState ch = .lockedOut ∨ s.channelState ch = .openLoad →
        ∃ t : State, exec (.clearChannel x tag b) s = .next (t.reply x tag
            (.accepted none none AnswerFlags.none (t.channelState ch).code 0 0))
          ∧ (rd t.vda.channels ch).trips = 0
          ∧ t.channelState ch = (if (rd s.vda.channels ch).marked then .disabled
              else if 0 < (rd t.vda.channels ch).command then .blanking else .off)
          ∧ SameBase (s.modVda fun v => { v with channels := upd v.channels ch (Channel.clear s.now) }) t))

/-- R39, R142, R143, R151: CLEAR_STEER_FAULT. It is refused in SAFE. The first of AN12, AN13, AN14 and AN15 that is not VALID refuses, and
then articulation angles more than 2.0° apart; a clear latch is left. Otherwise the disagreement and the tracking error timers become 0,
PASSIVE enters CENTRING with CL1 on, and in RUN the SELF STEER_CENTRE is retired with PART_RETIRED. The latch is clear after it, but where
the retirement takes LOCKED to TRACKING with CL1 not usable, which sets it again with the cause LOCK_CHANNEL. -/
def Obligations.ClearSteerFaultClears : Prop :=
  ∀ (x : Sender) (tag : Byte) (s : State), s.serves x →
    (s.cfg.device = .safe →
      exec (.clearSteerFault x tag) s = .next (s.reply x tag (.refused .notReady none .none 2 0)))
    ∧ (let valid := fun c : Fin 21 => (rd s.mot.analog c).validity = .valid
      let near := (s.analogValue 12 - s.analogValue 13).natAbs ≤ 20
      let refusedFor := fun sub : SubReason =>
        exec (.clearSteerFault x tag) s = .next (s.reply x tag (.refused .condition none sub 0 0))
      s.cfg.device ≠ .safe →
        (¬ valid 12 → refusedFor .artASensor) ∧ (valid 12 → ¬ valid 13 → refusedFor .artBSensor)
        ∧ (valid 12 → valid 13 → ¬ valid 14 → refusedFor .frontSensor)
        ∧ (valid 12 → valid 13 → valid 14 → ¬ valid 15 → refusedFor .actuatorSensor)
        ∧ (valid 12 → valid 13 → valid 14 → valid 15 → ¬ near → refusedFor .disagree)
        ∧ (s.steerFailure = none ↔ (valid 12 ∧ valid 13 ∧ valid 14 ∧ valid 15) ∧ near))
    ∧ (s.cfg.device ≠ .safe → s.steerFailure = none → s.stc.latch = none →
      exec (.clearSteerFault x tag) s = .next (s.reply x tag (.accepted none none AnswerFlags.none 0 s.stc.state.code 0)))
    ∧ (s.cfg.device ≠ .safe → s.steerFailure = none → s.stc.latch ≠ none → s.ilt.Fits →
      let held := fun (h : Nat) (e : Entry) =>
        s.cfg.device = .run ∧ s.stc.selfHandle = some h ∧ s.resolve h = some e ∧ e.owner = 15
      let locks := s.stc.state = .locked ∧ s.mot.motion ≠ .standstill ∧ (s.channelState lockChannel).unusable = true
        ∧ ∃ h e, held h e ∧ e.kind = .steerCentre
          ∧ ∀ f ∈ s.live, f.kind = .steerCentre → f.handle = h ∨ e.coveredBy = some f.handle
      ∃ t : State, exec (.clearSteerFault x tag) s = .next (t.reply x tag
          (.accepted none none AnswerFlags.none (bit t.stc.latch.isSome) t.stc.state.code 0))
        ∧ t.stc.disagreeTimer = 0 ∧ t.stc.trackTimer = 0
        ∧ (¬ locks → t.stc.latch = none) ∧ (locks → t.stc.latch = some .lockChannel ∧ t.flagged 7)
        ∧ (s.stc.state = .passive → t.stc.state = .centring ∧ t.stc.centringTimer = 0
          ∧ (rd t.vda.channels lockChannel).command = 1)
        ∧ (∀ h e, held h e → t.resolve h = none ∧ t.flagged 1 ∧ (¬ locks → t.stc.selfHandle = none))
        ∧ SameBase s t)

/-- R157: SWAP_BANK: refused in SAFE, with a fixed mode and with the other bank INVALID; a pending swap is cancelled; the swap takes
effect in CONFIG and at STANDSTILL with a BANK_SWAPPED notice, and is pending otherwise. -/
def Obligations.SwapBankSwaps : Prop :=
  ∀ (x : Sender) (tag : Byte) (s : State), s.serves x →
    (s.cfg.device = .safe → exec (.swapBank x tag) s = .next (s.reply x tag (.refused .notReady none .none 2 0)))
    ∧ (s.cfg.device ≠ .safe →
      (s.cfg.settings.bankMode ≠ .follow →
        exec (.swapBank x tag) s = .next (s.reply x tag (.refused .bankFixed none .none 0 0)))
      ∧ (s.cfg.settings.bankMode = .follow →
        (s.stc.pendingSwap ≠ none →
          exec (.swapBank x tag) s = .next (State.reply x tag
            (.accepted none none { AnswerFlags.none with cancelled := true } s.stc.inUse.code 0 0)
            (s.modStc fun b => { b with pendingSwap := none })))
        ∧ (s.stc.pendingSwap = none →
          ((s.stc.bank s.stc.inUse.other).valid = false →
            exec (.swapBank x tag) s = .next (s.reply x tag (.refused .bankInvalid none .none 0 0)))
          ∧ ((s.stc.bank s.stc.inUse.other).valid = true →
            (s.cfg.device = .config ∨ s.mot.motion = .standstill →
              exec (.swapBank x tag) s = .next (State.reply x tag
                (.accepted none none AnswerFlags.none s.stc.inUse.other.code 0 0)
                ((s.modStc fun b => { b with inUse := s.stc.inUse.other }).post (.bankSwapped s.stc.inUse.other true))))
            ∧ (s.cfg.device = .run → s.mot.motion ≠ .standstill →
              exec (.swapBank x tag) s = .next (State.reply x tag
                (.accepted none none AnswerFlags.none s.stc.inUse.code 1 0)
                (s.modStc fun b => { b with pendingSwap := some s.stc.inUse.other })))))))

/-- R154, R156: WRITE_BANK_ROW stores the value, brought into the field's range, in the bank and the row that it names (the row
count for field 6), unless the bank is in use or named by a pending swap in RUN; nothing else changes. It is refused in SAFE, and
elsewhere for the field code 7 and, but for the row count, a row above 15. Beside it: when a bank is VALID. -/
def Obligations.WriteBankRowStores : Prop :=
  (∀ b : Bank, b.valid = true ↔ (2 ≤ b.count ∧ b.count ≤ 16) ∧ (rd b.rows 0).v = 0
    ∧ ∀ i j : Fin 16, j.val = i.val + 1 → j.val < b.count → (rd b.rows i).v < (rd b.rows j).v)
  ∧ (∀ (x : Sender) (tag f row : Byte) (w : Word16) (s : State), s.serves x →
    (s.cfg.device = .safe → exec (.writeBankRow x tag f row w) s = .next (s.reply x tag (.refused .notReady none .none 2 0)))
    ∧ (s.cfg.device ≠ .safe → f.toNat % 8 = 7 ∨ (f.toNat % 8 ≠ 6 ∧ 16 ≤ row.toNat) →
      exec (.writeBankRow x tag f row w) s = .next (s.reply x tag (.refused .requestInvalid none .none 0 0))))
  ∧ (∀ (x : Sender) (tag f row : Byte) (w : Word16) (s : State) (id : BankId) (b : Bank) (v : Int), s.serves x →
    s.cfg.device ≠ .safe → id = (if f.getLsbD 4 then .b else .a) →
    (s.stc.bank id).write (f.toNat % 8) row.toNat w.toInt = some (b, v) →
    (s.cfg.device = .run → s.stc.inUse = id →
      exec (.writeBankRow x tag f row w) s = .next (s.reply x tag (.refused .bankActive none .none 0 0)))
    ∧ (s.cfg.device = .run → s.stc.inUse ≠ id → s.stc.pendingSwap = some id →
      exec (.writeBankRow x tag f row w) s = .next (s.reply x tag (.refused .bankPending none .none 0 0)))
    ∧ (s.cfg.device = .config ∨ (s.stc.inUse ≠ id ∧ s.stc.pendingSwap ≠ some id) →
      exec (.writeBankRow x tag f row w) s = .next (State.reply x tag
        (.accepted none none (AnswerFlags.ofClamped (decide (v ≠ w.toInt))) (bit b.valid) b.count 0)
        (s.modStc fun y => y.setBank id b))))
  ∧ ∀ (b : Bank) (row : Nat) (h : row < 16) (v : Int),
    b.write 0 row v = some ({ b with rows := upd b.rows ⟨row, h⟩ fun r => { r with v := max 0 (min 1200 v) } }, max 0 (min 1200 v))
    ∧ b.write 1 row v = some ({ b with rows := upd b.rows ⟨row, h⟩ fun r => { r with gArt := max (-2048) (min 2048 v) } },
      max (-2048) (min 2048 v))
    ∧ b.write 2 row v = some ({ b with rows := upd b.rows ⟨row, h⟩ fun r => { r with gFront := max (-2048) (min 2048 v) } },
      max (-2048) (min 2048 v))
    ∧ b.write 3 row v = some ({ b with rows := upd b.rows ⟨row, h⟩ fun r => { r with lim := max 0 (min 150 v) } }, max 0 (min 150 v))
    ∧ b.write 4 row v = some ({ b with rows := upd b.rows ⟨row, h⟩ fun r => { r with slew := max 1 (min 20 v) } }, max 1 (min 20 v))
    ∧ b.write 5 row v = some ({ b with rows := upd b.rows ⟨row, h⟩ fun r => { r with damp := max 0 (min 1000 v) } }, max 0 (min 1000 v))
    ∧ b.write 6 row v = some ({ b with count := (max 0 (min 16 v)).toNat }, max 0 (min 16 v))

/-- R155, R184, R185: WRITE_SETTING in CONFIG. A number or instance that the table of section 11.2 does not hold is refused; otherwise the
clamped value is stored, and CLAMPED is answered when it differs from the value given. At a write of the door count DSV's outputs are
judged on the new count, and at a write of the curb side curb-low (R112) and then DSV's outputs on the new side (log 22, the model's
choice); the bank mode moves the bank in use; and nothing else changes at any of them. The answer to a CAN partner's write of ANS_BASE is
placed on the new base (log 42, the model's choice). Each setting is written in its own range and instances; setting 9 stores 2 for 0 and
1. -/
def Obligations.WriteSettingStores : Prop :=
  (∀ (x : Sender) (tag n i : Byte) (w : Word16) (s : State), s.serves x →
    (s.cfg.device ≠ .config →
      exec (.writeSetting x tag n i w) s = .next (s.reply x tag (.refused .configOnly none .none s.cfg.device.code 0)))
    ∧ (s.cfg.device = .config →
      (s.cfg.settings.write n.toNat i.toNat w = none →
        exec (.writeSetting x tag n i w) s = .next (s.reply x tag (.refused .requestInvalid none .none 0 0)))
      ∧ ∀ (g : Settings) (v : Int), s.cfg.settings.write n.toNat i.toNat w = some (g, v) →
        ∃ t : State, exec (.writeSetting x tag n i w) s = .next (t.reply x tag
            (.accepted none none (AnswerFlags.ofClamped (decide (v ≠ if n = 6 then w.toInt else (w.toNat : Int)))) 0 0 0))
          ∧ t.cfg.settings = g ∧ t.cfg.device = .config
          ∧ t.stc.inUse = (if n = 20 then (match g.bankMode with
              | .fixedA => .a
              | .fixedB => .b
              | .follow => s.stc.inUse) else s.stc.inUse)
          ∧ (n ≠ 2 → n ≠ 3 → n ≠ 20 → t = s.modCfg fun c => { c with settings := g })
          ∧ (n = 20 → t = State.modStc (s.modCfg fun c => { c with settings := g }) fun y => { y with inUse := t.stc.inUse })
          ∧ (n = 2 ∨ n = 3 → t = { s with cfg := { s.cfg with settings := g }, rlu := t.rlu, dsv := t.dsv } ∧ t.OutputsFit
            ∧ t.dsv.fbl = s.dsv.fbl
            ∧ ∀ d, rd t.dsv.doors d = { rd s.dsv.doors d with release := (rd t.dsv.doors d).release })
          ∧ (n = 2 → t.rlu = s.rlu)
          ∧ (n = 3 → t.rlu = { s.rlu with curbLow := t.rlu.curbLow }
            ∧ (t.rlu.curbLow = true ↔ ∃ c, curbSide g.curbRight c = true
              ∧ (rd s.crn.corners c).measured < (s.rlu.ride : Int) - 30))
          ∧ t.mot = s.mot ∧ t.ilt = s.ilt ∧ t.lnk = s.lnk ∧ t.crn = s.crn ∧ t.brk = s.brk ∧ t.vda = s.vda))
  ∧ ∀ (g : Settings) (w : Word16),
    let fit := fun lo hi : Nat => max lo (min hi w.toNat)
    let stores := fun (n i lo hi : Nat) (g' : Settings) => g.write n i w = some (g', ((fit lo hi : Nat) : Int))
    (∀ n i, 20 < n → g.write n i w = none)
    ∧ (∀ n i, (n ≤ 3 ∨ (14 ≤ n ∧ n ≤ 20)) → 0 < i → g.write n i w = none)
    ∧ (∀ i, 4 ≤ i → g.write 4 i w = none) ∧ (∀ n i, 5 ≤ n → n ≤ 8 → 21 ≤ i → g.write n i w = none)
    ∧ (∀ n i, n = 9 ∨ n = 10 → 6 ≤ i → g.write n i w = none)
    ∧ (∀ n i, 11 ≤ n → n ≤ 13 → i = 0 ∨ 4 ≤ i → g.write n i w = none)
    ∧ stores 0 0 3 10 { g with threshold := fit 3 10 } ∧ stores 1 0 0 3 { g with band := fit 0 3 }
    ∧ stores 2 0 0 4 { g with doorCount := fit 0 4 } ∧ stores 3 0 0 1 { g with curbRight := decide (0 < w.toNat) }
    ∧ (∀ i : Fin 4, stores 4 i.val 20 500 { g with ppm := wr g.ppm i (fit 20 500) })
    ∧ (∀ i : Fin 21, stores 5 i.val 0 4095 { g with offset := wr g.offset i (fit 0 4095) }
      ∧ g.write 6 i.val w
        = some ({ g with gain := wr g.gain i (max (-16384) (min 16384 w.toInt)) }, max (-16384) (min 16384 w.toInt))
      ∧ stores 7 i.val 0 4095 { g with low := wr g.low i (fit 0 4095) }
      ∧ stores 8 i.val 0 4095 { g with high := wr g.high i (fit 0 4095) })
    ∧ (∀ i : Fin 6, stores 9 i.val 2 63 { g with halfWidth := wr g.halfWidth i (fit 2 63) }
      ∧ (w.toNat ≤ 1 → fit 2 63 = 2) ∧ stores 10 i.val 0 3 { g with stopLevel := wr g.stopLevel i (fit 0 3) })
    ∧ (∀ i : Fin 3, stores 11 (i.val + 1) 10 400 { g with area := wr g.area i (fit 10 400) }
      ∧ stores 12 (i.val + 1) 0 3000 { g with unsprung := wr g.unsprung i (fit 0 3000) }
      ∧ stores 13 (i.val + 1) 100 600 { g with share := wr g.share i (fit 100 600) })
    ∧ stores 14 0 0 63 { g with weight := fit 0 63 } ∧ stores 15 0 150 500 { g with doorHold := fit 150 500 }
    ∧ stores 16 0 0 50 { g with curbGuard := fit 0 50 } ∧ stores 17 0 0 100 { g with rateGain := fit 0 100 }
    ∧ stores 18 0 1024 2034 { g with reqBase := fit 1024 2034 } ∧ stores 19 0 0 1008 { g with ansBase := fit 0 1008 }
    ∧ stores 20 0 0 2
      { g with bankMode := if w.toNat = 0 then .fixedA else if w.toNat = 1 then .fixedB else .follow }

/-- R47: WRITE_REGISTRY. -/
def Obligations.WriteRegistryStores : Prop :=
  ∀ (x : Sender) (tag record rank kinds : Byte) (w : Word16) (s : State), s.hears x →
    (¬ s.knows x → exec (.writeRegistry x tag record rank kinds w) s
      = .next (s.reply x tag (.refused .unknownPartner none .none 0 0)))
    ∧ (s.knows x → (s.record x.partner).authority ≠ 0 → exec (.writeRegistry x tag record rank kinds w) s
      = .next (s.reply x tag (.refused .authority none .none (s.record x.partner).authority 0)))
    ∧ (s.serves x → s.cfg.device ≠ .config → exec (.writeRegistry x tag record rank kinds w) s
      = .next (s.reply x tag (.refused .configOnly none .none s.cfg.device.code 0)))
    ∧ (s.serves x → s.cfg.device = .config → record = 0 ∨ 13 < record.toNat →
      exec (.writeRegistry x tag record rank kinds w) s = .next (s.reply x tag (.refused .requestInvalid none .none 0 0)))
    ∧ (s.serves x → s.cfg.device = .config → ∀ r : Fin 16, record.toNat = r.val → 1 ≤ r.val → r.val ≤ 13 →
      ∀ window : Nat,
      window = (if w.toNat = 0 then 0 else if w.toNat < 100 then 100 else if 2000 < w.toNat then 2000
        else w.toNat - w.toNat % 100) →
      ∀ written : PartnerRecord, written.enabled = rank.getLsbD 7 → written.authority = min 3 (rank.toNat % 16) →
      written.permitted = kinds → written.window = window →
      exec (.writeRegistry x tag record rank kinds w) s = .next (State.reply x tag
        (.accepted none none (AnswerFlags.ofClamped (decide (3 < rank.toNat % 16 ∨ window ≠ w.toNat))) 0 0 0)
        (s.modIlt fun t => { t with registry := wr t.registry r written })))

/-- R186: START in CONFIG. The first failing validation check refuses; otherwise the device enters RUN: the settings and the signals are
kept, every corner loses CONFIG and its loads are INVALID, the steering leaves PARKED, the rollback watch arms when the bus stands,
NOT_RUN goes, and the first status broadcast is placed with the values as they stand at the end. A corner with a standing cause enters
FAULT with the first of them in the order of R98 (log 38, the model's choice) and a CORNER_FAULT notice (R97), and one without goes by its
freeze reasons. STC takes the command from the measured angle within the limit of the schedule at the speed, or of row 0 without one, goes
into FROZEN or TRACKING with CL1 on, and with the latch set on into CENTRING under a SELF STEER_CENTRE (R142, R148, R150). From the empty
table of CONFIG (R40), an open fitted door becomes UNCLAIMED with a SELF DOOR_OPEN and its notice, in door order (log 40, the model's
choice), a closed one SHUT (R72), and BRK stands as the table gives it. -/
def Obligations.StartEntersRun : Prop :=
  ∀ (x : Sender) (tag : Byte) (s : State), s.serves x →
    (s.cfg.device ≠ .config → exec (.start x tag) s = .next (s.reply x tag (.refused .configOnly none .none s.cfg.device.code 0)))
    ∧ (s.cfg.device = .config →
      let refusedAt := fun n : Nat => exec (.start x tag) s = .next (s.reply x tag (.refused .startInvalid none .none n 0))
      let doors := 2 ≤ s.cfg.settings.doorCount ∧ s.cfg.settings.doorCount ≤ 4
      let shares := rd s.cfg.settings.share 0 + rd s.cfg.settings.share 1 + rd s.cfg.settings.share 2 = 1000
      let bank := (s.stc.bank s.stc.inUse).valid = true
      (¬ doors → refusedAt 1) ∧ (doors → ¬ shares → refusedAt 2) ∧ (doors → shares → ¬ bank → refusedAt 3)
      ∧ (doors → shares → bank → s.cfg.settings.inRange = false → refusedAt 4)
      ∧ (doors → shares → bank → s.cfg.settings.inRange = true →
        ∃ t : State, exec (.start x tag) s = .next (t.reply x tag (.accepted none none AnswerFlags.none 1 0 0))
          ∧ t.cfg.device = .run ∧ t.cfg.settings = s.cfg.settings ∧ t.now = s.now ∧ t.ilt.registry = s.ilt.registry
          ∧ t.mot.analog = s.mot.analog ∧ t.mot.wheels = s.mot.wheels ∧ t.mot.speed = s.mot.speed
          ∧ t.mot.motion = s.mot.motion ∧ t.mot.counter = s.mot.counter
          ∧ (s.mot.motion = .standstill → t.mot.armed = true ∧ t.mot.reference = s.mot.counter)
          ∧ (∀ c, (rd t.crn.corners c).reasons.config = false ∧ (rd t.crn.corners c).loadValid = false)
          ∧ (∀ a, (rd t.crn.axles a).valid = false)
          ∧ t.stc.state ≠ .parked ∧ t.stc.schedule = some s.scheduleAtStart
          ∧ (∀ v, s.mot.speed = some v → s.scheduleAtStart = (s.stc.bank s.stc.inUse).lookup v)
          ∧ (s.mot.speed = none → s.scheduleAtStart = (rd (s.stc.bank s.stc.inUse).rows 0).schedule)
          ∧ (let lim := s.scheduleAtStart.lim
            t.stc.command = max (-lim) (min lim (s.analogValue 15)) ∧ t.stc.lower = -lim ∧ t.stc.upper = lim
            ∧ (rd t.vda.channels lockChannel).command = 1)
          ∧ (∀ c : Fin 6,
            let height := (rd s.mot.analog ⟨c.val, by omega⟩).validity = .faulty
            let failed := fun ch : Fin 18 => s.channelState ch = .lockedOut ∨ s.channelState ch = .openLoad
            let fill := failed ⟨c.val, by omega⟩
            let exhaust := failed ⟨c.val + 6, by omega⟩
            let before := rd s.crn.corners c
            let after := rd t.crn.corners c
            let faultsFor := fun r : CornerFault => after.state = .fault ∧ after.fault = some r ∧ t.flagged 5
            (before.state = .fault → after.state = .fault ∧ after.fault = before.fault)
            ∧ (before.state ≠ .fault → (height → faultsFor .heightSensor) ∧ (¬ height → fill → faultsFor .fillValve)
              ∧ (¬ height → ¬ fill → exhaust → faultsFor .exhaustValve)
              ∧ (¬ height → ¬ fill → ¬ exhaust → after.state ≠ .fault ∧ before.FollowsReasons after)))
          ∧ ((∀ i, (rd s.ilt.slots i).entry = none) →
            (let sets := s.stc.latch = none ∧ s.mot.motion ≠ .standstill ∧ (s.channelState lockChannel).unusable = true
            (sets → t.stc.latch = some .lockChannel ∧ t.flagged 7) ∧ (¬ sets → t.stc.latch = s.stc.latch)
              ∧ (t.stc.latch = none → t.stc.state = if s.mot.motion = .standstill then .frozen else .tracking)
              ∧ (t.stc.latch ≠ none → s.stc.selfHandle = none → t.stc.state = .centring ∧ t.stc.centringTimer = 0
                ∧ ∃ h e, t.stc.selfHandle = some h ∧ t.resolve h = some e ∧ e.owner = 15 ∧ e.kind = .steerCentre))
            ∧ (∀ d : Fin 4, d.val < s.cfg.settings.doorCount →
              ((rd s.dsv.doors d).contact.debounced = true → (rd t.dsv.doors d).supervision = .shut)
              ∧ ((rd s.dsv.doors d).contact.debounced = false → (rd t.dsv.doors d).supervision = .unclaimed
                ∧ ((rd s.dsv.doors d).supervision ≠ .unclaimed → t.flagged 2 ∧ ((rd s.dsv.doors d).selfHandle = none →
                  ∃ h e, (rd t.dsv.doors d).selfHandle = some h ∧ t.resolve h = some e ∧ e.owner = 15 ∧ e.kind = .doorOpen
                    ∧ e.scope = .door d))))
            ∧ (s.brk.hold = .released → t.HoldsFit))
          ∧ t.dsv.causes.notRun = false
          ∧ (∀ d : Fin 4, d.val < s.cfg.settings.doorCount →
            rd t.ilt.contacts d = (rd s.dsv.doors d).contact.debounced ∧ (rd t.dsv.doors d).supervision ≠ .dormant)
          ∧ (∃ f, t.lnk.broadcast = some f ∧ f.identifier = s.cfg.settings.ansBase
            ∧ f.content = State.broadcastContent (t.modLnk fun l => { l with rotation := 0 }))))

/-- R41, R135, R187: ENTER_SAFE. From RUN the device enters SAFE: every deadline stops with its remaining time and every entry keeps its
state, the hold is frozen, the releases are withdrawn, DRIVE_INH is asserted, the steering parks with CL1 off and full damping, PD1
commanded so at this very event (log 28, the model's choice), every corner holds for CONFIG unless it is in FAULT, and the window closes.
In SAFE it is accepted without effect; in CONFIG refused. -/
def Obligations.EnterSafeFreezes : Prop :=
  ∀ (x : Sender) (tag : Byte) (s : State), s.serves x →
    (s.cfg.device = .config → exec (.enterSafe x tag) s = .next (s.reply x tag (.refused .notReady none .none 0 0)))
    ∧ (s.cfg.device = .safe → exec (.enterSafe x tag) s = .next (s.reply x tag
      (.accepted none none AnswerFlags.none 2 0 0)))
    ∧ (s.cfg.device = .run →
      ∃ t : State, exec (.enterSafe x tag) s = .next (t.reply x tag (.accepted none none AnswerFlags.none 2 0 0))
        ∧ t.cfg.device = .safe ∧ t.cfg.settings = s.cfg.settings ∧ t.now = s.now
        ∧ (∀ i, rd t.ilt.slots i = { rd s.ilt.slots i with entry := (rd s.ilt.slots i).entry.map fun e =>
            { e with deadline := match e.deadline with
              | .none => .none
              | .running due => .stopped (due - s.now)
              | .stopped r => .stopped r } })
        ∧ t.ilt.order = s.ilt.order ∧ t.ilt.registry = s.ilt.registry ∧ t.lnk = s.lnk
        ∧ t.brk.hold = s.brk.hold ∧ t.brk.target = s.brk.target ∧ t.brk.confirmed = s.brk.confirmed
        ∧ t.brk.windowOpen = false ∧ t.mot.armed = false
        ∧ (∀ d, (rd t.dsv.doors d).release = false) ∧ t.dsv.causes.notRun = true ∧ t.dsv.machine = .inhibited
        ∧ t.stc.state = .parked ∧ t.stc.command = 0 ∧ t.stc.damper = 1000 ∧ t.stc.windowOpen = false
        ∧ t.stc.latch = s.stc.latch ∧ (rd t.vda.channels lockChannel).command = 0
        ∧ (rd t.vda.channels damperChannel).command = 1000
        ∧ (∀ c, (rd t.crn.corners c).reasons.config = true
          ∧ ((rd s.crn.corners c).state ≠ .fault → (rd s.crn.corners c).reasons.config = false →
            (rd t.crn.corners c).state = .holding)
          ∧ ((rd s.crn.corners c).state = .fault → (rd t.crn.corners c).state = .fault)))

/-! ## The request link -/

/-- R174, R175: a CAN frame arrives. A frame that is not a data frame with a standard identifier REQ_BASE + 1 to REQ_BASE + 13 and DLC 8
is ignored. An accepted frame is dropped with LINK_OVERRUN while four wait, waits at the back of the queue while the answer buffer or
the queue is not empty, and is otherwise taken at once, as the request that its bytes are. Beside it: content whose last byte is not 0, or
whose first byte is no type of section 10.3, is refused as REQUEST_INVALID whoever sent it, and changes nothing (R177). -/
def Obligations.FrameArrives : Prop :=
  (∀ (p : Fin 16) (b : Content) (s : State),
    b.b7 ≠ 0 ∨ b.b0.toNat ∉ [0, 1, 2, 3, 4, 5, 6, 16, 17, 18, 19, 20, 24, 25, 32, 33, 34, 35, 36, 40, 41, 42, 43, 44] →
    takeRequest p b s = (s, .refused .requestInvalid none .none 0 0))
  ∧ ∀ (f : CanFrame) (s : State),
    let accepted := f.remote = false ∧ f.extended = false ∧ f.dlc = 8 ∧ s.cfg.settings.reqBase + 1 ≤ f.identifier
      ∧ f.identifier ≤ s.cfg.settings.reqBase + 13
    (¬ accepted → exec (.canFrameArrival f) s = .next s)
    ∧ ∀ (b : Content) (n : Nat), accepted → f.data = b.toList → n = f.identifier - s.cfg.settings.reqBase →
      (4 ≤ s.lnk.queue.length → exec (.canFrameArrival f) s = .next (s.post (.linkOverrun n)))
      ∧ (s.lnk.queue.length < 4 → s.lnk.queue ≠ [] ∨ s.lnk.answer ≠ none →
        exec (.canFrameArrival f) s
          = .next (s.modLnk fun l => { l with queue := l.queue ++ [{ partner := n, content := b }] }))
      ∧ (s.lnk.queue = [] → s.lnk.answer = none →
        exec (.canFrameArrival f) s
          = .next (State.reply (.can n) b.b1 (takeRequest (Fin.ofNat 16 n) b s).2 (takeRequest (Fin.ofNat 16 n) b s).1)
        ∧ ∀ i : Instr, i.request? = some (.can n, b) → exec (.canFrameArrival f) s = exec i s)

/-- R175: the frame with the lowest identifier of those in the transmit buffers is sent, and its buffer empties. When the answer
buffer empties, sent or abandoned 100 ms after it was filled, the frame at the front of the queue is taken, and its answer is placed
on ANS_BASE + n. With nothing to send, and with no answer, nothing changes. -/
def Obligations.BuffersEmpty : Prop :=
  ∀ s : State,
    let after := fun u : State => match u.lnk.queue with
      | [] => u
      | q :: rest =>
        let r := takeRequest (Fin.ofNat 16 q.partner) q.content (u.modLnk fun l => { l with queue := rest })
        State.reply (.can q.partner) q.content.b1 r.2 r.1
    ((∀ b, s.lnk.held b = none) → exec .canFrameSent s = .next s)
    ∧ (∀ b f, s.lnk.held b = some f → ∃ g, s.lnk.held s.lnk.offered = some g ∧ g.identifier ≤ f.identifier)
    ∧ (∀ f, s.lnk.held s.lnk.offered = some f →
      (s.lnk.offered = .broadcast →
        exec .canFrameSent s = .next (s.modLnk fun l => { l with broadcast := none, onBus := some f }))
      ∧ (s.lnk.offered = .steering →
        exec .canFrameSent s = .next (s.modLnk fun l => { l with steering := none, onBus := some f }))
      ∧ (s.lnk.offered = .answer →
        exec .canFrameSent s = .next (after (s.modLnk fun l => { l with answer := none, onBus := some f }))))
    ∧ (s.lnk.answer = none → exec .answerAbandonTimeout s = .next s)
    ∧ ∀ a, s.lnk.answer = some a →
      exec .answerAbandonTimeout s = .next (after (State.modLnk { s with now := max s.now (a.placedAt + 100000) }
        fun l => { l with answer := none }))

/-- R176: at select the answer slot and its CRC start to shift out. At the withdrawal nine bytes with a correct CRC are taken as the
host's request, and its answer replaces the slot; anything else is discarded, and the slot holds FRAME_ERROR with tag 0. Without a
transaction in progress nothing happens (log 25, the model's choice). Beside it: the CRC, of polynomial 0x1D, initial value and final XOR
0xFF, each byte taken from its top bit. -/
def Obligations.SpiTransaction : Prop :=
  (∀ bytes : List Byte,
    let shift := fun c : Byte => if c.getLsbD 7 then (c <<< 1) ^^^ 0x1D else c <<< 1
    crc8 bytes = (bytes.foldl (fun c b => (List.range 8).foldl (fun x _ => shift x) (c ^^^ b)) 0xFF) ^^^ 0xFF)
  ∧ ∀ s : State,
    exec .spiSelectAssert s
      = .next (s.modLnk fun l => { l with shifting := some (l.slot.toList ++ [crc8 l.slot.toList]) })
    ∧ (s.lnk.shifting = none → ∀ bytes, exec (.spiSelectWithdraw bytes) s = .next s)
    ∧ (s.lnk.shifting ≠ none →
      (∀ (b : Content) (i : Instr), i.request? = some (.host, b) →
        exec (.spiSelectWithdraw (b.toList ++ [crc8 b.toList])) s
          = exec i (s.modLnk fun l => { l with shifting := none }))
      ∧ (∀ b : Content,
        let u := s.modLnk fun l => { l with shifting := none }
        exec (.spiSelectWithdraw (b.toList ++ [crc8 b.toList])) s
          = .next (State.reply .host b.b1 (takeRequest 0 b u).2 (takeRequest 0 b u).1))
      ∧ ∀ bytes : List Byte, (∀ b : Content, bytes ≠ b.toList ++ [crc8 b.toList]) →
        exec (.spiSelectWithdraw bytes) s = .next (s.modLnk fun l =>
          { l with
            shifting := none
            slot := { b0 := 30, b1 := 0, b2 := 255, b3 := 0, b4 := 0, b5 := 0, b6 := 0, b7 := 0 } }))

/-- R175, R179 and section 10.5.5: a broadcast event in RUN or SAFE, 100 ms after the last or later (log 3), places the status
broadcast on ANS_BASE and moves the rotation index; nothing else changes. In CONFIG there is none. -/
def Obligations.BroadcastReports : Prop :=
  ∀ s : State,
    (s.cfg.device = .config → exec .broadcastEvent s = .next s)
    ∧ (s.cfg.device ≠ .config → s.ilt.Fits →
      ∃ b : Content, ∃ n : Nat, n = max s.now (s.lnk.lastBroadcast + 100000)
        ∧ exec .broadcastEvent s = .next (State.modLnk { s with now := n } fun l =>
          { l with
            broadcast := some { identifier := s.cfg.settings.ansBase, content := b }
            rotation := if s.live = [] then 0 else if s.live.length ≤ l.rotation then 1 else l.rotation + 1
            lastBroadcast := n })
        ∧ ∀ e : Option Entry, e = (if s.live.length ≤ s.lnk.rotation then s.live[0]? else s.live[s.lnk.rotation]?) →
          b.b0 ++ b.b1 ++ b.b2 ++ b.b3 ++ b.b4 ++ b.b5 ++ b.b6 ++ b.b7 = pack 64
            ([(2, s.cfg.device.code), (2, s.mot.motion.code), (3, s.brk.hold.code), (1, bit s.brk.confirmed),
              (3, s.rlu.kneelState.code), (1, bit s.brk.windowOpen), (2, s.dsv.machine.code), (1, bit s.stc.latch.isSome),
              (1, bit s.lnk.attn), (3, s.stc.state.code), (5, s.dsv.causes.code)]
            ++ ((List.finRange 4).map fun d =>
                (3, if d.val < s.cfg.settings.doorCount then (rd s.dsv.doors d).supervision.code else 0))
            ++ [(4, 0), (5, s.live.length), (2, (e.map fun y => y.state.code).getD 0), (1, 0),
              (8, (e.map fun y => y.handle).getD 255), (8, (s.mot.speed.map fun v => v / 10).getD 255)]))

/-! ## Vehicle signals -/

/-- R1, R2, section 1.1: a sample event, 5 ms after the channel's last or later (log 3), by the table of R2, with the value clamped to the
channel's engineering range; and, while DSV's outputs and the shown
states are what they are derived from, nothing else changes unless the channel enters FAULTY. The rows for a channel that becomes FAULTY
(R3, R97, R141) and for its recovery are the sample event that brings it (log 4). -/
def Obligations.SamplesJudgeChannel : Prop :=
  (∀ c : Fin 21, engineeringRange c =
    if c.val ≤ 5 then (-300, 300) else if c.val ≤ 11 then (0, 1500) else if c.val ≤ 13 then (-900, 900)
    else if c.val = 14 then (-600, 600) else if c.val = 15 then (-300, 300) else if c.val ≤ 18 then (0, 1200)
    else if c.val = 19 then (0, 1500) else (0, 1000))
  ∧ (∀ (c : Fin 21) (raw : BitVec 12) (s : State) (x : AnalogChannel) (inWindow : Prop) (converted : Int),
    x = rd s.mot.analog c →
    inWindow = (rd s.cfg.settings.low c ≤ raw.toNat ∧ raw.toNat ≤ rd s.cfg.settings.high c) →
    converted = max (engineeringRange c).1 (min (engineeringRange c).2
      (Int.tdiv (((raw.toNat : Int) - (rd s.cfg.settings.offset c : Nat)) * rd s.cfg.settings.gain c) 1024)) →
    ∃ (t : State) (y : AnalogChannel), exec (.sampleEvent c raw) s = .next t ∧ y = rd t.mot.analog c
      ∧ t.now = max s.now (x.lastSample + 5000) ∧ y.lastSample = t.now ∧ y.raw = raw
      ∧ (x.validity = .valid → inWindow → y.validity = .valid ∧ y.value = converted ∧ y.bad = 0 ∧ y.good = x.good)
      ∧ (x.validity = .valid → ¬ inWindow → y.validity = .held ∧ y.value = x.value ∧ y.bad = 1 ∧ y.good = x.good)
      ∧ (x.validity = .held → inWindow → y.validity = .valid ∧ y.value = converted ∧ y.bad = 0 ∧ y.good = x.good)
      ∧ (x.validity = .held → ¬ inWindow → x.bad < 2 →
        y.validity = .held ∧ y.value = x.value ∧ y.bad = x.bad + 1 ∧ y.good = x.good)
      ∧ (x.validity = .held → ¬ inWindow → x.bad = 2 →
        y.validity = .faulty ∧ y.value = x.value ∧ y.bad = 3 ∧ y.good = 0)
      ∧ (x.validity = .faulty → inWindow → x.good ≤ 3 →
        y.validity = .faulty ∧ y.value = x.value ∧ y.bad = x.bad ∧ y.good = x.good + 1)
      ∧ (x.validity = .faulty → inWindow → x.good = 4 →
        y.validity = .valid ∧ y.value = converted ∧ y.bad = 0 ∧ y.good = 0)
      ∧ (x.validity = .faulty → ¬ inWindow →
        y.validity = .faulty ∧ y.value = x.value ∧ y.bad = x.bad ∧ y.good = 0)
      ∧ t.mot = { s.mot with analog := wr s.mot.analog c y }
      ∧ (s.OutputsFit → s.Evaluated → y.validity ≠ .faulty ∨ x.validity = .faulty → t = { s with now := t.now, mot := t.mot }))
  ∧ (∀ (c : Fin 21) (raw : BitVec 12) (s : State), (rd s.mot.analog c).validity = .held → (rd s.mot.analog c).bad = 2 →
    s.cfg.settings.inWindow c raw = false →
    exec (.analogChannelFaulty c raw) s = exec (.sampleEvent c raw) s
    ∧ ∃ t : State, exec (.analogChannelFaulty c raw) s = .next t ∧ (rd t.mot.analog c).validity = .faulty ∧ t.flagged 9
      ∧ (s.cfg.device = .run → ∀ k : Fin 6, k.val = c.val → (rd t.crn.corners k).state = .fault)
      ∧ (c = 12 ∨ c = 13 ∨ c = 14 → t.stc.latch ≠ none))
  ∧ (∀ (c : Fin 21) (raw : BitVec 12) (s : State), (rd s.mot.analog c).validity = .faulty → (rd s.mot.analog c).good = 4 →
    s.cfg.settings.inWindow c raw = true →
    exec (.analogChannelRecovery c raw) s = exec (.sampleEvent c raw) s
    ∧ ∃ t : State, exec (.analogChannelRecovery c raw) s = .next t ∧ (rd t.mot.analog c).validity = .valid
      ∧ (rd t.mot.analog c).value = s.cfg.settings.convert c raw)
  ∧ ∀ (c : Fin 21) (raw : BitVec 12) (s : State),
    ((rd s.mot.analog c).validity ≠ .held ∨ (rd s.mot.analog c).bad < 2 ∨ s.cfg.settings.inWindow c raw = true →
      exec (.analogChannelFaulty c raw) s = .next s)
    ∧ ((rd s.mot.analog c).validity ≠ .faulty ∨ (rd s.mot.analog c).good < 4 ∨ s.cfg.settings.inWindow c raw = false →
      exec (.analogChannelRecovery c raw) s = .next s)

/-- R5: a rising edge of a wheel channel; nothing else changes. After a sequence of edges at their instants the tally has moved by the
forward less the reverse ones, and the period is the time between the last two; the first edge after a reset leaves it absent. -/
def Obligations.WheelEdgeCounts : Prop :=
  (∀ (i : Fin 4) (r : Direction) (s : State),
    exec (.wheelPulseEdge i r) s = .next (s.modMot fun m =>
      { m with wheels := upd m.wheels i fun w =>
          { w with
            direction := r
            tally := match r with
              | .forward => w.tally + 1
              | .reverse => w.tally - 1
            period := match w.lastEdge with
              | some t => some (s.now - t)
              | none => w.period
            lastEdge := some s.now } }))
  ∧ ∀ (i : Fin 4) (s t : State) (edges : List (Nat × Direction)),
    t = edges.foldl (fun u e =>
      match exec (.wheelPulseEdge i e.2) { u with now := e.1 } with
      | .next v => v
      | .fault _ => u
      | .refused _ => u) s →
    (rd t.mot.wheels i).tally = (rd s.mot.wheels i).tally + (edges.countP fun e => decide (e.2 = .forward))
      - (edges.countP fun e => decide (e.2 = .reverse))
    ∧ (∀ before a b, edges = before ++ [a, b] → (rd t.mot.wheels i).period = some (b.1 - a.1)
      ∧ (rd t.mot.wheels i).lastEdge = some b.1 ∧ (rd t.mot.wheels i).direction = b.2)
    ∧ (∀ a, edges = [a] → rd s.mot.wheels i = WheelChannel.initial → (rd t.mot.wheels i).period = none
      ∧ (rd t.mot.wheels i).lastEdge = some a.1)
    ∧ ∀ j, j ≠ i → rd t.mot.wheels j = rd s.mot.wheels j

/-- R10: the vehicle speed of four, three, two and fewer VALID channels, whatever their order. -/
def Obligations.SpeedOfValidWheels : Prop :=
  (∀ (l : List Nat) (a b c d : Nat), a ≤ b → b ≤ c → c ≤ d → d ≤ 1200 → l.Perm [a, b, c, d] →
    vehicleSpeed l = some ((b + c) / 2))
  ∧ (∀ (l : List Nat) (a b c : Nat), a ≤ b → b ≤ c → c ≤ 1200 → l.Perm [a, b, c] → vehicleSpeed l = some b)
  ∧ (∀ a b : Nat, vehicleSpeed [a, b] = some (max a b))
  ∧ ∀ l : List Nat, l.length ≤ 1 → vehicleSpeed l = none

/-- R6 to R8, R10, R11, R15: a speed update, 20 ms after the last or later (log 3): the wheel speeds, the validities and timers, the
vehicle speed from the channels VALID before and after (log 20), the direction, which is REVERSE exactly while more VALID channels that
turn show REVERSE than FORWARD, and the motion state by the table of R15. -/
def Obligations.SpeedUpdateForms : Prop :=
  ∀ s : State, ∃ t : State, exec .speedUpdate s = .next t
    ∧ t.now = max s.now (s.mot.lastUpdate + 20000) ∧ t.mot.lastUpdate = t.now
    ∧ t.cfg = s.cfg ∧ t.mot.analog = s.mot.analog ∧ t.mot.selFwd = s.mot.selFwd ∧ t.mot.selRev = s.mot.selRev
    ∧ t.mot.driveReq = s.mot.driveReq ∧ t.ilt.registry = s.ilt.registry ∧ t.lnk.queue = s.lnk.queue
    ∧ t.lnk.answer = s.lnk.answer ∧ t.vda.lastTemp = s.vda.lastTemp
    ∧ (∀ i, rd t.mot.wheels i
        = { (rd s.mot.wheels i).judge s.mot.speed (mapF t.mot.wheels fun _ w => w.speed) i with tally := 0 })
    ∧ (∀ (i : Fin 4) (e : Nat), (rd s.mot.wheels i).lastEdge = some e →
        (2000000 < t.now - e → (rd t.mot.wheels i).speed = 0)
        ∧ ((rd s.mot.wheels i).period = none → (rd t.mot.wheels i).speed = 0)
        ∧ ∀ p, (rd s.mot.wheels i).period = some p → t.now - e ≤ 2000000 → 0 < max p (t.now - e) →
          (rd t.mot.wheels i).speed = min 1200 (36000000 / (rd s.cfg.settings.ppm i * max p (t.now - e))))
    ∧ (∀ i, (rd s.mot.wheels i).lastEdge = none → (rd t.mot.wheels i).speed = 0)
    ∧ t.mot.speed = vehicleSpeed (((List.finRange 4).filter fun i =>
        !(rd s.mot.wheels i).faulty && !(rd t.mot.wheels i).faulty).map fun i => (rd t.mot.wheels i).speed)
    ∧ t.mot.direction = vehicleDirection t.mot.wheels
    ∧ (let showing := fun r : Direction => ((List.finRange 4).filter fun i => decide ((rd t.mot.wheels i).faulty = false
        ∧ 0 < (rd t.mot.wheels i).speed ∧ (rd t.mot.wheels i).direction = r)).length
      t.mot.direction = .reverse ↔ showing .forward < showing .reverse)
    ∧ (t.mot.speed = none → t.mot.motion = .unknown ∧ t.mot.settleTimer = 0)
    ∧ ∀ v low high, t.mot.speed = some v → low = s.cfg.settings.threshold →
      high = s.cfg.settings.threshold + 2 * 2 ^ s.cfg.settings.band →
      (s.mot.motion = .unknown ∨ s.mot.motion = .rolling → v < low → t.mot.motion = .settling ∧ t.mot.settleTimer = 0)
      ∧ (s.mot.motion = .unknown ∨ s.mot.motion = .rolling → low ≤ v →
        t.mot.motion = .rolling ∧ t.mot.settleTimer = s.mot.settleTimer)
      ∧ (s.mot.motion = .settling → v < low → s.mot.settleTimer + 20 < 300 →
        t.mot.motion = .settling ∧ t.mot.settleTimer = s.mot.settleTimer + 20)
      ∧ (s.mot.motion = .settling → v < low → 300 ≤ s.mot.settleTimer + 20 →
        t.mot.motion = .standstill ∧ t.mot.settleTimer = 0)
      ∧ (s.mot.motion = .settling → low ≤ v → v < high → t.mot.motion = .settling ∧ t.mot.settleTimer = 0)
      ∧ (s.mot.motion = .settling → high ≤ v → t.mot.motion = .rolling ∧ t.mot.settleTimer = 0)
      ∧ (s.mot.motion = .standstill → v < high →
        t.mot.motion = .standstill ∧ t.mot.settleTimer = s.mot.settleTimer)
      ∧ (s.mot.motion = .standstill → high ≤ v → t.mot.motion = .rolling ∧ t.mot.settleTimer = s.mot.settleTimer)

/-- R12: at a speed update the distance counter moves by the truncated mean travel of the VALID channels with the residue before, and
keeps exactly what truncation leaves; with no VALID channel neither moves. A channel that returns at this update counts already (log 20,
the model's choice). -/
def Obligations.DistanceIsExact : Prop :=
  ∀ (s t : State) (k : Nat), exec .speedUpdate s = .next t → k = (validWheels t.mot.wheels).length →
    (k = 0 → t.mot.counter = s.mot.counter ∧ t.mot.residue = s.mot.residue)
    ∧ (0 < k → 0 < s.mot.residue.den → (∀ i, 0 < rd s.cfg.settings.ppm i) →
      ∃ (q : ℚ) (n : Int),
        q = ((validWheels t.mot.wheels).map fun i =>
            ((100 * (rd s.mot.wheels i).tally : Int) : ℚ) / ((rd s.cfg.settings.ppm i * k : Nat) : ℚ)).sum
          + (s.mot.residue.num : ℚ) / s.mot.residue.den
        ∧ (0 ≤ q → n = ⌊q⌋) ∧ (q < 0 → n = ⌈q⌉)
        ∧ t.mot.counter = s.mot.counter + BitVec.ofInt 32 n
        ∧ 0 < t.mot.residue.den ∧ (t.mot.residue.num : ℚ) / t.mot.residue.den = q - n)

/-- R7, R8, R15, R17, R18, R33, R34, R132, R149, R158: what a speed update brings beside the values it forms. A wheel that has stood at 0
above 10.0 km/h for 2,000 ms becomes FAULTY with its notice, an agreeing FAULTY wheel returns after 5,000 ms, and a bus that has settled
for 300 ms enters STANDSTILL; the row for such a moment is the speed update that brings it, and has no effect when the update does not
bring it (log 4, the model's choice). At the entry into STANDSTILL in RUN the rollback measurement is armed at the counter. While it is
armed its reference is moved, also at an update that changes the motion state, by the hold that BRK has after that change: that MOT hands
the motion state on before it judges the rollback, and the retirements for speed come last, is log 27, the model's choice. 0.30 m against
the selected direction disarms it with a ROLLBACK_HOLD notice, for which BRK opens a SELF STOP_HOLD of 450 kPa. Above 5.0 km/h every
KNEEL, and above 35.0 km/h every RAISE, is retired with a PART_RETIRED notice. At a change of the motion state in RUN, BRK judges the
contributors anew: a hold begins with the first contributor at SETTLING, H is their largest pressure, and without one a hold waits for
DRIVE_REQ, or ramps at ROLLING or with DRIVE_REQ asserted, with the departure window of R130 (R120, R121, R123, R127). STC goes into
FROZEN or TRACKING, judges CL1 at an entry into TRACKING, and goes on into CENTRING with a STEER_CENTRE live; and at one to STANDSTILL a
pending swap is taken or dropped with its notice. -/
def Obligations.SpeedTimersRunOut : Prop :=
  ∀ s : State, ∃ t : State, exec .speedUpdate s = .next t
    ∧ (∀ (i : Fin 4) (w : WheelChannel), w = rd s.mot.wheels i →
      let sticks := w.faulty = false ∧ (rd t.mot.wheels i).speed = 0 ∧ (∃ v, s.mot.speed = some v ∧ 100 < v)
        ∧ 2000 ≤ w.zeroTimer + 20
      let agrees := w.faulty = true ∧ 5000 ≤ w.agreementTimer + 20 ∧
        ((∃ v, s.mot.speed = some v ∧ 0 < v ∧ 5 * (((rd t.mot.wheels i).speed : Int) - v).natAbs ≤ v)
        ∨ (s.mot.speed = none ∧ 0 < (rd t.mot.wheels i).speed ∧ ∃ j, j ≠ i ∧ 0 < (rd t.mot.wheels j).speed
          ∧ 5 * (((rd t.mot.wheels i).speed : Int) - (rd t.mot.wheels j).speed).natAbs ≤ (rd t.mot.wheels j).speed))
      (sticks → exec (.wheelZeroTimeout i) s = .next t ∧ (rd t.mot.wheels i).faulty = true
        ∧ (rd t.mot.wheels i).zeroTimer = 0 ∧ (rd t.mot.wheels i).agreementTimer = 0 ∧ t.flagged 9)
      ∧ (¬ sticks → exec (.wheelZeroTimeout i) s = .next s)
      ∧ (agrees → exec (.wheelAgreementRecovery i) s = .next t ∧ (rd t.mot.wheels i).faulty = false
        ∧ (rd t.mot.wheels i).zeroTimer = 0 ∧ (rd t.mot.wheels i).agreementTimer = 0)
      ∧ (¬ agrees → exec (.wheelAgreementRecovery i) s = .next s))
    ∧ (let settles := s.mot.motion = .settling ∧ 300 ≤ s.mot.settleTimer + 20
        ∧ ∃ v, t.mot.speed = some v ∧ v < s.cfg.settings.threshold
      (settles → exec .settleTimerExpiry s = .next t ∧ t.mot.motion = .standstill ∧ t.mot.settleTimer = 0)
      ∧ (¬ settles → exec .settleTimerExpiry s = .next s))
    ∧ (s.mot.motion ≠ .standstill → t.mot.motion = .standstill →
      (s.cfg.device = .run → t.mot.armed = true ∧ t.mot.reference = t.mot.counter)
      ∧ (s.cfg.device ≠ .run → s.mot.armed = false → t.mot.armed = false ∧ t.mot.reference = s.mot.reference))
    ∧ (t.mot.motion = s.mot.motion → s.mot.armed = false → t.mot.armed = false ∧ t.mot.reference = s.mot.reference)
    ∧ (s.mot.armed = true →
      let contributes := fun e : Entry => (e.kind = .doorOpen ∨ e.kind = .rampOut ∨ e.kind = .stopHold ∨ e.kind = .serviceLock)
        ∧ e.state ≠ .covered ∧ (t.mot.motion = .settling ∨ t.mot.motion = .standstill ∨ (e.owner = 15 ∧ e.kind = .stopHold))
      let holds := s.brk.hold = .applying ∨ s.brk.hold = .held ∨ s.brk.hold = .waitDrive
      let inForce := if s.cfg.device = .run ∧ t.mot.motion ≠ s.mot.motion then
          (∃ e ∈ s.live, contributes e) ∨ (holds ∧ s.mot.driveReq.debounced = false ∧ t.mot.motion ≠ .rolling)
        else holds
      let start := if s.cfg.device = .run ∧ t.mot.motion ≠ s.mot.motion ∧ t.mot.motion = .standstill then t.mot.counter
        else s.mot.reference
      let past := fun r : BitVec 32 => (t.mot.counter - r).toInt
      let watched := (∃ v, t.mot.speed = some v ∧ v < 30) ∧ ¬ inForce
      let rolled := watched
        ∧ ((s.selected ≠ .reverse ∧ past t.mot.reference ≤ -30) ∨ (s.selected ≠ .forward ∧ 30 ≤ past t.mot.reference))
      (¬ watched → t.mot.reference = t.mot.counter)
      ∧ (watched →
        (s.selected = .forward → t.mot.reference = if 0 < past start then t.mot.counter else start)
        ∧ (s.selected = .reverse → t.mot.reference = if past start < 0 then t.mot.counter else start)
        ∧ (s.selected = .neutral → t.mot.reference = start))
      ∧ (¬ rolled → t.mot.armed = true)
      ∧ (rolled → t.mot.armed = false ∧ t.flagged 4
        ∧ (s.cfg.device = .run → s.ilt.Fits → s.brk.selfHandle = none →
          (∃ i j : Fin 24, 18 ≤ i.val ∧ i.val ≤ j.val ∧ (i = j → t.mot.motion = s.mot.motion)
            ∧ (rd s.ilt.slots i).entry = none ∧ (rd s.ilt.slots j).entry = none) →
          (∀ e ∈ s.live, ¬(e.owner = 15 ∧ e.kind = .stopHold)) →
          ∃ h e, t.brk.selfHandle = some h ∧ t.resolve h = some e ∧ e.owner = 15 ∧ e.kind = .stopHold
            ∧ e.parameter = some 450 ∧ (t.brk.hold = .applying ∨ t.brk.hold = .held) ∧ 450 ≤ t.brk.target)
        ∧ (∀ h, s.brk.selfHandle = some h → t.brk.selfHandle = some h
          ∧ (t.mot.motion = s.mot.motion → t.ilt.order = s.ilt.order))))
    ∧ (s.cfg.device = .run → s.ilt.Fits → ∀ v, t.mot.speed = some v →
      let fast := fun e : Entry => (e.kind = .kneel ∧ 50 < v) ∨ (e.kind = .raise ∧ 350 < v)
      (∀ e ∈ s.live, fast e → t.resolve e.handle = none ∧ t.flagged 1)
      ∧ ((∀ e ∈ s.live, e.kind = .kneel ∨ e.kind = .raise → e.coveredBy = none) →
        ∀ i e, (rd s.ilt.slots i).entry = some e → ¬ fast e → (rd t.ilt.slots i).record = (rd s.ilt.slots i).record))
    ∧ (s.cfg.device = .run → t.mot.motion ≠ s.mot.motion → s.ilt.Fits →
      (∀ e ∈ s.live, e.kind = .kneel ∨ e.kind = .raise → e.coveredBy = none) →
      let departs := t.mot.motion = .rolling ∨ s.mot.driveReq.debounced = true
      t.HoldsFit
      ∧ (s.brk.hold = .released → (∃ e ∈ t.live, e.HoldsIn t.mot.motion) → t.brk.hold = .applying ∧ t.brk.confirmed = false)
      ∧ ((∀ e ∈ t.live, ¬ e.HoldsIn t.mot.motion) →
        (s.brk.hold = .released ∨ s.brk.hold = .ramping → t.brk = s.brk)
        ∧ (s.brk.hold = .applying ∨ s.brk.hold = .held ∨ s.brk.hold = .waitDrive →
          (departs → s.EntersRamp t)
          ∧ (¬ departs → t.brk.hold = .waitDrive ∧ t.brk.target = s.brk.target ∧ t.brk.confirmed = s.brk.confirmed
            ∧ t.brk.windowOpen = s.brk.windowOpen))))
    ∧ (s.cfg.device ≠ .run → t.stc = s.stc)
    ∧ (s.cfg.device = .run → t.mot.motion ≠ s.mot.motion →
      let stops := t.mot.motion = .standstill
      let kept := fun st : SteerState => t.stc = { s.stc with
        state := st, inUse := t.stc.inUse, pendingSwap := t.stc.pendingSwap, selfHandle := t.stc.selfHandle,
        windowOpen := t.stc.windowOpen }
      let entered := (s.stc.state = .tracking ∧ stops) ∨ (s.stc.state = .frozen ∧ ¬ stops)
      let cl1 := s.channelState lockChannel
      let judged := s.stc.state = .frozen ∧ ¬ stops ∧ s.stc.latch = none
        ∧ (cl1 = .tripped ∨ cl1 = .lockedOut ∨ cl1 = .openLoad ∨ cl1 = .disabled)
      (s.stc.state ≠ .frozen → s.stc.state ≠ .tracking → kept s.stc.state)
      ∧ ((∀ e ∈ s.live, e.kind ≠ .steerCentre) → s.stc.state = .frozen ∨ s.stc.state = .tracking →
        (stops → kept .frozen)
        ∧ (¬ stops → s.stc.state = .tracking → kept .tracking)
        ∧ (¬ stops → s.stc.state = .frozen → ¬ judged → t.stc = { s.stc with
          state := .tracking, trackTimer := 0, selfHandle := t.stc.selfHandle, windowOpen := t.stc.windowOpen }))
      ∧ ((∃ e ∈ s.live, e.kind = .steerCentre) → entered → t.stc.state = .centring ∧ t.stc.centringTimer = 0)
      ∧ (entered → (rd t.vda.channels lockChannel).command = 1)
      ∧ (¬ judged → (∀ e ∈ s.live, e.kind = .kneel ∨ e.kind = .raise → s.stc.selfHandle ≠ some e.handle) →
        t.stc.selfHandle = s.stc.selfHandle)
      ∧ (judged → t.stc.latch = some .lockChannel ∧ t.stc.trackTimer = 0 ∧ t.flagged 7
        ∧ (s.stc.selfHandle = none → (∃ i : Fin 24, 18 ≤ i.val ∧ (rd s.ilt.slots i).entry = none) →
          t.stc.state = .centring)))
    ∧ (let judges := s.cfg.device = .run ∧ s.mot.motion ≠ .standstill ∧ t.mot.motion = .standstill ∧ s.stc.pendingSwap ≠ none
      let flag := fun u : State => rd u.lnk.notices (Notice.flag (.bankSwapped .a true))
      (¬ judges → t.stc.inUse = s.stc.inUse ∧ t.stc.pendingSwap = s.stc.pendingSwap ∧ flag t = flag s)
      ∧ (judges → t.stc.pendingSwap = none ∧ ∀ id, s.stc.pendingSwap = some id →
        ((s.stc.bank id).valid = true → t.stc.inUse = id ∧ flag t = flag (s.post (.bankSwapped id true)))
        ∧ ((s.stc.bank id).valid = false → t.stc.inUse = s.stc.inUse ∧ flag t = flag (s.post (.bankSwapped s.stc.inUse false)))))

/-- R14, R17, R133: a driveline line changes its level, and its time at the new level starts; 50 ms later its debounced state follows. A
change of the selected direction moves the reference of an armed rollback watch. A change of DRIVE_REQ to asserted, or of the selected
direction, that leaves DRIVE_REQ asserted with a gear selected retires the SELF STOP_HOLD in RUN, with a PART_RETIRED notice, and BRK
forgets its handle; where no other entry contributes, the hold then ramps. A change of DRIVE_REQ to asserted takes a hold in WAIT_DRIVE to
RAMPING, with the departure window of R130 (R127), and where neither happens BRK is kept. The other signals are kept. -/
def Obligations.DriveLinesDebounce : Prop :=
  ∀ (line : DriveLine) (s : State) (x : InputLine), x = s.mot.line line →
    (∀ level : Bool,
      (x.level = level → exec (.driveLineChange line level) s = .next s)
      ∧ (x.level ≠ level → exec (.driveLineChange line level) s = .next (s.modMot
        (Mot.changeLine line fun y => { y with level := level, since := s.now }))))
    ∧ (x.level = x.debounced → exec (.driveLineDebounceExpiry line) s = .next s)
    ∧ (x.level ≠ x.debounced →
      ∃ t : State, exec (.driveLineDebounceExpiry line) s = .next t ∧ t.now = max s.now (x.since + 50000)
        ∧ t.mot.line line = { x with debounced := x.level }
        ∧ (∀ other, other ≠ line → t.mot.line other = s.mot.line other)
        ∧ t.mot.analog = s.mot.analog ∧ t.mot.wheels = s.mot.wheels ∧ t.mot.speed = s.mot.speed
        ∧ t.mot.motion = s.mot.motion ∧ t.mot.counter = s.mot.counter ∧ t.mot.armed = s.mot.armed
        ∧ t.mot.reference = (if s.mot.armed = true ∧ t.selected ≠ s.selected then s.mot.counter else s.mot.reference)
        ∧ (∀ h e, s.cfg.device = .run → s.ilt.Fits → s.brk.selfHandle = some h → s.resolve h = some e → e.owner = 15 →
          e.kind = .stopHold → t.mot.driveReq.debounced = true → t.selected ≠ .neutral →
          line = .driveReq ∨ t.selected ≠ s.selected →
          t.resolve h = none ∧ t.brk.selfHandle = none ∧ t.flagged 1
          ∧ (e.scope = .vehicle → (∀ f ∈ s.live, f.handle ≠ h → ¬ f.HoldsIn s.mot.motion) →
            s.brk.hold = .applying ∨ s.brk.hold = .held ∨ s.brk.hold = .waitDrive → s.EntersRamp t))
        ∧ (s.brk.selfHandle = none →
          let asked := line = .driveReq ∧ x.level = true ∧ s.cfg.device = .run ∧ s.brk.hold = .waitDrive
          (asked → (∀ f ∈ s.live, ¬ f.HoldsIn s.mot.motion) → s.EntersRamp t)
          ∧ (¬ asked → s.HoldsFit → t.brk = s.brk))
        ∧ t.cfg = s.cfg ∧ t.ilt.registry = s.ilt.registry ∧ t.lnk.queue = s.lnk.queue ∧ t.lnk.answer = s.lnk.answer)

/-! ## The end of an event -/

/-- R28 to R30, R73, R75, R76, log 9: what ends an event beside the blocks' own hand-offs. In RUN ILT evaluates every live entry: its
underlying state is then its activation condition, and a WAITING or ACTIVE entry shows it, while a STALE or COVERED one keeps its shown
state. It opens and retires nothing, changes no other part of an entry, and posts no notice. DSV's outputs are then what they are derived
from. Where every entry stood as its condition gives it, and out of RUN, only DSV's outputs can change; otherwise CRN, RLU, BRK and STC
act on the changes handed to them, and the base that no hand-off changes is kept. -/
def Obligations.EventEndEvaluates : Prop :=
  ∀ s : State,
    SameBase s (State.finish s) ∧ (State.finish s).lnk = s.lnk ∧ (State.finish s).ilt.order = s.ilt.order
    ∧ (∀ i, (rd (State.finish s).ilt.slots i).record = (rd s.ilt.slots i).record)
    ∧ (∀ i e f, (rd s.ilt.slots i).entry = some e → (rd (State.finish s).ilt.slots i).entry = some f →
        (e.state = .stale ∨ e.state = .covered → f.state = e.state)
        ∧ (e.state = .waiting ∨ e.state = .active → f.state = .waiting ∨ f.state = .active) ∧ f.coveredBy = e.coveredBy)
    ∧ (State.finish s).Evaluated
    ∧ (State.finish s).OutputsFit
    ∧ (s.Evaluated → State.finish s = s.modDsv fun _ => (State.finish s).dsv)
    ∧ (s.Evaluated → s.OutputsFit → State.finish s = s)

/-! ## Deadlines, doors and the drive inhibit -/

/-- R31, R34, R35, R65, log 3: a refresh deadline runs out in RUN at its instant or later. A RAISE or an OVERRIDE is retired with a
PART_RETIRED notice, and the COVERED target of an OVERRIDE returns to STALE; any other entry that is WAITING or ACTIVE becomes STALE with
a STALE_ENTRY notice, and every other entry keeps its record. BRK and RLU act on it at this event (R103, R104, R120, R121). Where no
deadline runs, nothing changes. -/
def Obligations.DeadlineRunsOut : Prop :=
  ∀ (h : Byte) (s : State),
    (s.resolve h.toNat = none ∨ s.cfg.device ≠ .run → exec (.refreshDeadlineExpiry h) s = .next s)
    ∧ ∀ e, s.resolve h.toNat = some e → s.cfg.device = .run →
      ((∀ due, e.deadline ≠ .running due) → exec (.refreshDeadlineExpiry h) s = .next s)
      ∧ ∀ due, e.deadline = .running due → s.ilt.Fits →
        ∃ t : State, exec (.refreshDeadlineExpiry h) s = .next t ∧ SameBase { s with now := max s.now due } t
          ∧ (e.kind = .raise ∨ e.kind = .override → t.resolve h.toNat = none ∧ t.flagged 1
            ∧ ∀ n g, e.scope = .target n → s.resolve n = some g → g.state = .covered → n ≠ h.toNat → e.coveredBy ≠ some n →
              (∃ g', t.resolve n = some g' ∧ g'.state = .stale ∧ g'.coveredBy = none ∧ g'.record = g.record)
              ∧ (g.kind = .doorOpen ∨ g.kind = .rampOut → t.HoldsFit))
          ∧ (e.kind = .raise → t.RidesFit)
          ∧ (e.state = .waiting ∨ e.state = .active →
            (e.kind = .doorOpen ∨ e.kind = .rampOut ∨ e.kind = .stopHold ∨ e.kind = .serviceLock → t.HoldsFit)
            ∧ (e.kind = .kneel ∨ e.kind = .rampOut → t.RidesFit))
          ∧ (e.kind ≠ .raise → e.kind ≠ .override → e.state = .waiting ∨ e.state = .active →
            t.flagged 0 ∧ t.ilt.order = s.ilt.order
            ∧ (∃ f, t.resolve h.toNat = some f ∧ f.state = .stale ∧ f.deadline = .stopped 0 ∧ f.kind = e.kind
              ∧ f.owner = e.owner ∧ f.scope = e.scope ∧ f.parameter = e.parameter)
            ∧ ∀ i : Fin 24, i.val ≠ h.toNat / 8 → (rd t.ilt.slots i).record = (rd s.ilt.slots i).record)

/-- R53, R63, R66 to R69, log 3: a door contact changes its level, and its time at the new level starts; 50 ms later its debounced state
follows. For a fitted door the new state is handed to ILT, unless in SAFE, and in RUN the supervision state is the one of R68, with a
DOOR_UNCLAIMED notice at an entry into UNCLAIMED, for which, with a reserved slot free, a SELF DOOR_OPEN of the door is opened and its
handle kept unless DSV holds one already; an opening retires every OVERRIDE on the door, with a PART_RETIRED notice (log 36 for their
order, the model's choice). An input above the door count is debounced and no more. -/
def Obligations.DoorContactsDebounce : Prop :=
  ∀ (d : Fin 4) (s : State) (x : InputLine), x = (rd s.dsv.doors d).contact →
    (∀ level : Bool,
      (x.level = level → exec (.doorContactChange d level) s = .next s)
      ∧ (x.level ≠ level → exec (.doorContactChange d level) s = .next (s.modDsv fun v =>
        { v with doors := upd v.doors d fun y => { y with contact := { x with level := level, since := s.now } } })))
    ∧ (x.level = x.debounced → exec (.doorContactDebounceExpiry d) s = .next s)
    ∧ (x.level ≠ x.debounced → s.cfg.settings.doorCount ≤ d.val →
      exec (.doorContactDebounceExpiry d) s = .next (State.modDsv { s with now := max s.now (x.since + 50000) } fun v =>
        { v with doors := upd v.doors d fun y => { y with contact := { x with debounced := x.level } } }))
    ∧ (x.level ≠ x.debounced → d.val < s.cfg.settings.doorCount →
      ∃ t : State, exec (.doorContactDebounceExpiry d) s = .next t ∧ t.now = max s.now (x.since + 50000)
        ∧ (rd t.dsv.doors d).contact = { x with debounced := x.level }
        ∧ (∀ i, i ≠ d → (rd t.dsv.doors i).contact = (rd s.dsv.doors i).contact)
        ∧ (∀ i, rd t.ilt.contacts i = if i = d ∧ s.cfg.device ≠ .safe then x.level else rd s.ilt.contacts i)
        ∧ t.cfg = s.cfg ∧ t.mot = s.mot ∧ t.ilt.registry = s.ilt.registry ∧ t.lnk.queue = s.lnk.queue
        ∧ t.lnk.answer = s.lnk.answer
        ∧ (s.cfg.device ≠ .run → (rd t.dsv.doors d).supervision = (rd s.dsv.doors d).supervision ∧ t.ilt.slots = s.ilt.slots)
        ∧ (s.cfg.device = .run → x.level = false → s.ilt.Fits → ∀ o n g, o ∈ s.live → o.scope = .target n →
          s.resolve n = some g → g.scope = .door d → t.resolve o.handle = none ∧ t.flagged 1)
        ∧ (s.cfg.device = .run →
          ((∃ e ∈ t.live, e.owner ≠ 15 ∧ (e.kind = .doorOpen ∨ e.kind = .rampOut) ∧ e.scope = .door d) →
            (rd t.dsv.doors d).supervision = .authorised)
          ∧ ((¬ ∃ e ∈ t.live, e.owner ≠ 15 ∧ (e.kind = .doorOpen ∨ e.kind = .rampOut) ∧ e.scope = .door d) →
            (x.level = false → (rd t.dsv.doors d).supervision = .unclaimed
              ∧ ((rd s.dsv.doors d).supervision ≠ .unclaimed → t.flagged 2
                ∧ (s.ilt.Fits → s.ilt.ScopesFit → (rd s.dsv.doors d).selfHandle = none →
                  (∃ i : Fin 24, 18 ≤ i.val ∧ (rd s.ilt.slots i).entry = none) →
                  (∀ f ∈ s.live, f.owner = 15 → f.kind = .doorOpen → f.scope ≠ .door d) →
                  ∃ h f, (rd t.dsv.doors d).selfHandle = some h ∧ t.resolve h = some f ∧ f.owner = 15 ∧ f.kind = .doorOpen
                    ∧ f.scope = .door d)
                ∧ ∀ h f, s.ilt.Fits → s.ilt.ScopesFit → (rd s.dsv.doors d).selfHandle = some h → s.resolve h = some f →
                  f.owner = 15 → f.kind = .doorOpen → f.scope = .door d → (rd t.dsv.doors d).selfHandle = some h
                    ∧ ∀ i : Fin 24, (rd s.ilt.slots i).entry = none → (rd t.ilt.slots i).entry = none))
            ∧ (x.level = true → (rd t.dsv.doors d).supervision
                = if ∃ e ∈ t.live, e.owner = 15 ∧ e.kind = .doorOpen ∧ e.scope = .door d then .resettable else .shut))))

/-- R76, log 3: the release timer runs out with the cause set still empty, and DRIVE_INH is withdrawn; nothing else changes. Outside
RELEASING there is no timer, and nothing changes. -/
def Obligations.DriveInhibitReleases : Prop :=
  ∀ s : State,
    (∀ due, s.dsv.machine = .releasing due → s.dsv.causes = InhibitCauses.none →
      exec .driveInhReleaseExpiry s
        = .next (State.modDsv { s with now := max s.now due } fun x => { x with machine := .free }))
    ∧ ((∀ due, s.dsv.machine ≠ .releasing due) → exec .driveInhReleaseExpiry s = .next s)

/-- R78 to R82, logs 3 and 13: the fallback decoder. Each edge of the line acts by the phase that it ends, in whole tenths of a
millisecond; a run-out of the phase timer is a malformed train, the end of RECOVER, or the end of a command, which toggles the line's own
entry by an OPEN or a RETIRE as partner 14, or acknowledges the doors in door order (R36, R60, R81): each fitted door with a SELF
DOOR_OPEN and a closed contact has that entry retired by a RETIRE of partner 14, which posts no notice, and every other entry is left. -/
def Obligations.FallbackLineDecodes : Prop :=
  (∀ (s : State) (f : Fbl) (long : Nat), f = s.dsv.fbl → long = (s.now - f.since) / 100 →
    let becomes := fun (level : Bool) (st : FblState) (n : Nat) => s.modDsv fun x =>
      { x with fbl := { level := level, state := st, since := s.now, count := n } }
    let falls := exec (.fblEdge false) s
    let rises := exec (.fblEdge true) s
    exec (.fblEdge f.level) s = .next s
    ∧ (f.level = true →
      (f.state = .idle → falls = .next (becomes false .start 0))
      ∧ (f.state = .gap → 80 ≤ long → long ≤ 150 → falls = .next (becomes false .pulse f.count))
      ∧ (f.state = .gap → long < 80 →
        falls = .next ((becomes false .recover f.count).post (.fallbackMalformed .gap f.count)))
      ∧ (f.state = .space → 80 ≤ long → long ≤ 150 → falls = .next (becomes false .pulse f.count))
      ∧ (f.state = .space → long < 80 ∨ (150 < long ∧ long < 600) →
        falls = .next ((becomes false .recover f.count).post (.fallbackMalformed .space f.count)))
      ∧ (f.state = .recover → long < 600 → falls = .next (becomes false .recover f.count)))
    ∧ (f.level = false →
      (f.state = .start → long ≤ 50 → rises = .next (becomes true .idle f.count))
      ∧ (f.state = .start → 50 < long → long < 200 →
        rises = .next ((becomes true .recover f.count).post (.fallbackMalformed .start f.count)))
      ∧ (f.state = .start → 200 ≤ long → long ≤ 400 → rises = .next (becomes true .gap 0))
      ∧ (f.state = .pulse → 80 ≤ long → long ≤ 150 → rises = .next (becomes true .space (min 15 (f.count + 1))))
      ∧ (f.state = .pulse → long < 80 →
        rises = .next ((becomes true .recover f.count).post (.fallbackMalformed .pulse f.count)))
      ∧ (f.state = .recover → rises = .next (becomes true .recover f.count))))
  ∧ (∀ (s : State) (f : Fbl), f = s.dsv.fbl →
    let at' := fun (bound : Nat) (st : FblState) => State.modDsv { s with now := max s.now (f.since + bound) } fun x =>
      { x with fbl := { f with state := st, since := max s.now (f.since + bound) } }
    let runs := exec .fblPhaseTimeout s
    let u := at' 60000 .idle
    (f.state = .idle → runs = .next s) ∧ (f.state = .recover → f.level = false → runs = .next s)
    ∧ (f.state = .start → runs = .next ((at' 40000 .recover).post (.fallbackMalformed .start f.count)))
    ∧ (f.state = .gap → runs = .next ((at' 15000 .recover).post (.fallbackMalformed .gap f.count)))
    ∧ (f.state = .pulse → runs = .next ((at' 15000 .recover).post (.fallbackMalformed .pulse f.count)))
    ∧ (f.state = .recover → f.level = true → runs = .next u)
    ∧ (f.state = .space → 5 ≤ f.count → runs = .next (u.post (.fallbackMalformed .count f.count)))
    ∧ (f.state = .space → ∀ (k : Kind) (kind scope : Byte),
      (f.count = 1 ∧ k = .kneel ∧ kind = 2 ∧ scope = 8) ∨ (f.count = 2 ∧ k = .stopHold ∧ kind = 3 ∧ scope = 10)
        ∨ (f.count = 4 ∧ k = .steerCentre ∧ kind = 5 ∧ scope = 10) →
      (s.live.find? (fun e => decide (e.kind = k ∧ e.owner = 14)) = none →
        runs = exec (.openEntry (.line f.count) 0 kind scope 65535 0) u)
      ∧ ∀ e, s.live.find? (fun e => decide (e.kind = k ∧ e.owner = 14)) = some e →
        runs = exec (.retire (.line f.count) 0 (BitVec.ofNat 8 e.handle)) u)
    ∧ (f.state = .space → f.count = 3 → runs = .next ((List.finRange 4).foldl (fun s d => acknowledgeDoor d s) u)))
  ∧ ∀ u : State,
    let acknowledged := fun (d : Fin 4) (h : Nat) => d.val < u.cfg.settings.doorCount
      ∧ (rd u.dsv.doors d).contact.debounced = true ∧ (rd u.dsv.doors d).selfHandle = some h
    (∀ d, (∀ h, ¬ acknowledged d h) → acknowledgeDoor d u = u)
    ∧ (∀ d h, acknowledged d h → exec (.retire (.line 3) 0 (BitVec.ofNat 8 h)) u = .next (acknowledgeDoor d u))
    ∧ ∀ t : State, t = (List.finRange 4).foldl (fun s d => acknowledgeDoor d s) u →
      u.cfg.device = .run → u.ilt.Fits → u.ilt.RegistryFits →
      (∀ d : Fin 4, d.val < u.cfg.settings.doorCount → rd u.ilt.contacts d = (rd u.dsv.doors d).contact.debounced) →
      (∀ d h, (rd u.dsv.doors d).selfHandle = some h → ∃ e, u.resolve h = some e ∧ e.owner = 15 ∧ e.kind = .doorOpen
        ∧ e.scope = .door d ∧ e.coveredBy = none) →
      t.lnk = u.lnk ∧ SameBase u t
      ∧ (∀ d h, acknowledged d h → t.resolve h = none ∧ (rd t.dsv.doors d).selfHandle = none
        ∧ ((rd t.dsv.doors d).supervision = .shut ∨ (rd t.dsv.doors d).supervision = .authorised))
      ∧ (∀ d, (∀ h, ¬ acknowledged d h) → (rd t.dsv.doors d).selfHandle = (rd u.dsv.doors d).selfHandle)
      ∧ ∀ i : Fin 24, (∀ d h, acknowledged d h → i.val ≠ h / 8) → (rd t.ilt.slots i).record = (rd u.ilt.slots i).record

/-! ## Corners -/

/-- R84 to R89, R93 to R96, R100, R101, R107 to R109, R112, log 3: a corner update, 20 ms after the corner's last or later. First (m) it
judges the supply gate, takes the corner's height and target, and judges ARTIC and BRAKE: a corner that gains a reason holds, and one that
loses its last goes IN_BAND; a gate that closes posts SUPPLY when the reservoir is low (log 37, the model's choice) and holds every
corner in FILL_WAIT or FILLING. Then (u) the corner's machine steps: its qualify side and timer, the end of a fill and of an exhaust, the
action timer, and the end of the need of a corner held for SUPPLY alone, in FAULT too (log 17). The corner load and the axle load follow.
RLU then runs the stall watch and derives the kneel state, and on the curb side it judges curb-low. Beside it: what RLU makes of the
table at a hand-off (R103 to R105, R111). -/
def Obligations.CornerUpdateMeasures : Prop :=
  (∀ (c : Fin 6) (s m u w t : State) (x y z : Corner) (d k e : Int), m = Crn.measure c (cornerBegins c s) →
    u = Crn.update c (cornerBegins c s) → w = Rlu.afterUpdate c u → t = State.finish w →
    x = rd s.crn.corners c → y = rd m.crn.corners c → z = rd u.crn.corners c → d = (rd s.cfg.settings.halfWidth c : Nat) →
    k = ((rd s.cfg.settings.halfWidth c * rd s.cfg.settings.stopLevel c / 4 : Nat) : Int) → e = y.measured - y.target →
    let low := s.analogValue 19 < 650 ∨ s.analogFaulty 19 = true
    let closes := s.crn.gateOpen = true ∧ (low ∨ (s.channelState supplyChannel).unusable = true)
    let opens := s.crn.gateOpen = false ∧ 700 ≤ s.analogValue 19 ∧ s.analogFaulty 19 = false
      ∧ (s.channelState supplyChannel).unusable = false
    let span := if s.mot.motion = .settling ∨ s.mot.motion = .standstill then 200 else 2000
    let needless := y.reasons = { FreezeSet.empty with supply := true } ∧ -k ≤ e
    let loads := s.cfg.device = .run ∧ z.state = .inBand ∧ (rd s.mot.analog (pressureChannel c)).validity = .valid
      ∧ s.rlu.kneelState = .level
    let watches := z.state = .exhausting ∧ 0 < rd u.rlu.kneel c ∧ (rd u.rlu.watches c).mark = false
    exec (.cornerUpdate c) s = .next t
    ∧ SameBase { s with now := max s.now (x.lastUpdate + 20000) } t
    ∧ (rd t.crn.corners c).lastUpdate = t.now
    ∧ (rd t.crn.corners c).measured = s.analogValue (heightChannel c) ∧ (rd t.crn.corners c).target = rd s.rlu.targets c
    ∧ (rd t.crn.corners c).reasons.artic = (decide (s.mot.motion = .rolling)
        && (decide (150 < s.stc.gamma.natAbs) || s.analogFaulty 12 || s.analogFaulty 13))
    ∧ (rd t.crn.corners c).reasons.brake = (decide (s.mot.motion = .rolling) && decide (100 < s.brk.driver))
    ∧ (s.crn.gateOpen = true → (t.crn.gateOpen = false ↔ closes)) ∧ (s.crn.gateOpen = false → (t.crn.gateOpen = true ↔ opens))
    ∧ (s.crn.gateOpen = true → low → t.flagged 10)
    ∧ (closes → ∀ i, (rd s.crn.corners i).state = .fillWait ∨ (rd s.crn.corners i).state = .filling →
      (rd s.crn.corners i).reasons.supply = false →
      (rd m.crn.corners i).state = .holding ∧ (rd m.crn.corners i).reasons.supply = true)
    ∧ (opens → ∀ i, (rd m.crn.corners i).reasons.supply = false)
    ∧ y.measured = s.analogValue (heightChannel c) ∧ y.target = rd s.rlu.targets c
    ∧ (x.state = .fault → y.state = .fault)
    ∧ (y.reasons = x.reasons → x.state ≠ .fillWait →
      y = { x with measured := y.measured, target := y.target, lastUpdate := t.now })
    ∧ (x.state ≠ .fault → (y.reasons.artic = true ∧ x.reasons.artic = false) ∨ (y.reasons.brake = true ∧ x.reasons.brake = false)
      ∨ (y.reasons.supply = true ∧ x.reasons.supply = false) → y.state = .holding)
    ∧ (x.state = .holding → (y.reasons = FreezeSet.empty → x.reasons ≠ FreezeSet.empty → y.state = .inBand)
      ∧ (y.reasons ≠ FreezeSet.empty → y.state = .holding))
    ∧ (y.state = .inBand →
      (-d ≤ e → e ≤ d → z.state = .inBand ∧ z.side = .none ∧ z.qualifyTimer = 0)
      ∧ (∀ q, e < -d → q = (if y.side = .low then min 2000 (y.qualifyTimer + 20) else 0) → q < span →
        z.state = .inBand ∧ z.side = .low ∧ z.qualifyTimer = q)
      ∧ ∀ q, d < e → q = (if y.side = .high then min 2000 (y.qualifyTimer + 20) else 0) → q < span →
        z.state = .inBand ∧ z.side = .high ∧ z.qualifyTimer = q)
    ∧ (y.state = .fillWait → (-k ≤ e → z.state = .inBand) ∧ (e < -k → z.state = .fillWait))
    ∧ (y.state = .filling → (-k ≤ e → z.state = .inBand)
      ∧ (e < -k → y.actionTimer + 20 < 8000 → z.state = .filling ∧ z.actionTimer = y.actionTimer + 20))
    ∧ (y.state = .exhausting → (e ≤ k → z.state = .inBand)
      ∧ (k < e → y.actionTimer + 20 < 8000 → z.state = .exhausting ∧ z.actionTimer = y.actionTimer + 20))
    ∧ (y.state = .holding → (needless → z.state = .inBand ∧ z.reasons = FreezeSet.empty)
      ∧ (¬ needless → z.state = .holding ∧ z.reasons = y.reasons))
    ∧ (y.state = .fault → z.state = .fault ∧ (needless → z.reasons = FreezeSet.empty) ∧ (¬ needless → z.reasons = y.reasons))
    ∧ (loads → z.loadValid = true
      ∧ z.load = (s.analogValue (pressureChannel c)).toNat * rd s.cfg.settings.area (cornerAxle c) / 10)
    ∧ (¬ loads → z.loadValid = x.loadValid ∧ z.load = x.load)
    ∧ (rd t.crn.corners c).load = z.load ∧ (rd t.crn.corners c).loadValid = z.loadValid
    ∧ (∀ i, i ≠ c → (rd t.crn.corners i).measured = (rd s.crn.corners i).measured
        ∧ (rd t.crn.corners i).target = (rd s.crn.corners i).target ∧ (rd t.crn.corners i).load = (rd s.crn.corners i).load
        ∧ (rd t.crn.corners i).loadValid = (rd s.crn.corners i).loadValid)
    ∧ (rd t.crn.axles (cornerAxle c)).load = min 15000 ((rd t.crn.corners (leftCorner (cornerAxle c))).load
        + (rd t.crn.corners (rightCorner (cornerAxle c))).load + rd s.cfg.settings.unsprung (cornerAxle c))
    ∧ (rd t.crn.axles (cornerAxle c)).valid = ((rd t.crn.corners (leftCorner (cornerAxle c))).loadValid
        && (rd t.crn.corners (rightCorner (cornerAxle c))).loadValid)
    ∧ (∀ a, a ≠ cornerAxle c → rd t.crn.axles a = rd s.crn.axles a)
    ∧ (¬ watches → (rd w.rlu.watches c).running = false ∧ (rd w.rlu.watches c).timer = 0)
    ∧ (watches → (rd u.rlu.watches c).running = false →
      rd w.rlu.watches c = { running := true, reference := z.measured, timer := 0, mark := false })
    ∧ (watches → (rd u.rlu.watches c).running = true → (rd u.rlu.watches c).timer + 20 < 1000 →
      rd w.rlu.watches c = { rd u.rlu.watches c with timer := (rd u.rlu.watches c).timer + 20 })
    ∧ (let marked := ∃ i, (rd w.rlu.watches i).mark = true
      let rests := fun i => ((rd w.crn.corners i).state = .inBand ∨ (rd w.crn.corners i).state = .holding)
        ∧ ((rd w.crn.corners i).measured - rd w.rlu.targets i).natAbs ≤ rd s.cfg.settings.halfWidth i
      (marked → w.rlu.kneelState = .stalled)
      ∧ (¬ marked → (∃ i, 0 < rd w.rlu.kneel i) →
        ((∀ i, 0 < rd w.rlu.kneel i → rests i) → w.rlu.kneelState = .kneeled)
        ∧ (¬ (∀ i, 0 < rd w.rlu.kneel i → rests i) → w.rlu.kneelState = .lowering))
      ∧ (¬ marked → (∀ i, rd w.rlu.kneel i = 0) →
        ((∃ i, (rd w.crn.corners i).measured < (w.rlu.ride : Int) - rd s.cfg.settings.halfWidth i) → w.rlu.kneelState = .raising)
        ∧ ((∀ i, (w.rlu.ride : Int) - rd s.cfg.settings.halfWidth i ≤ (rd w.crn.corners i).measured) →
          w.rlu.kneelState = .level)))
    ∧ (curbSide s.cfg.settings.curbRight c = true → (t.rlu.curbLow = true ↔ ∃ i,
        curbSide s.cfg.settings.curbRight i = true ∧ (rd t.crn.corners i).measured < (t.rlu.ride : Int) - 30)))
  ∧ ∀ s w : State, w = Rlu.fromTable s →
    w.RidesFit ∧ (s.rlu.TargetsFit → w.rlu.TargetsFit) ∧ SameBase s w ∧ w.ilt = s.ilt
    ∧ (w.rlu.held = true → w.rlu = { s.rlu with held := true } ∧ w.crn = s.crn)
    ∧ ∀ c, rd w.rlu.kneel c ≠ rd s.rlu.kneel c →
      (rd w.rlu.watches c).mark = false ∧ (rd w.rlu.watches c).running = false ∧ (rd w.crn.corners c).reasons.stall = false

/-- R86 to R88, R91, R92, R96, R97, R109, R110, log 4: the rows for one moment of a corner update. Each is the corner update that brings
the moment, and has no effect when the update does not bring it (log 4, the model's choice). A corner that qualifies high exhausts; one
that qualifies low fills or waits with the supply gate OPEN and holds for SUPPLY with it CLOSED. An action that reaches 8,000 ms ends in
FAULT. At the end of a span of the stall watch a corner that has fallen 5 mm starts a new span, and any other gains its STALL mark and
holds, with a KNEEL_STALL notice and the kneel state STALLED. -/
def Obligations.CornerTimersRunOut : Prop :=
  ∀ (c : Fin 6) (s m u v : State) (x : Corner) (w : StallWatch) (d k : Int), m = Crn.measure c (cornerBegins c s) →
    u = Crn.update c (cornerBegins c s) → v = Rlu.afterUpdate c u → x = rd m.crn.corners c → w = rd u.rlu.watches c →
    d = (rd s.cfg.settings.halfWidth c : Nat) →
    k = ((rd s.cfg.settings.halfWidth c * rd s.cfg.settings.stopLevel c / 4 : Nat) : Int) →
    let runs := fun i : Instr => exec i s = .next (State.finish v)
    let span := if s.mot.motion = .settling ∨ s.mot.motion = .standstill then 200 else 2000
    let low := x.side = .low ∧ x.measured - x.target < -d
    let high := x.side = .high ∧ d < x.measured - x.target
    let qualifies := x.state = .inBand ∧ (low ∨ high) ∧ span ≤ x.qualifyTimer + 20
    let late := fun r : CornerFault => 8000 ≤ x.actionTimer + 20 ∧
      ((r = .fillTimeout ∧ x.state = .filling ∧ x.measured - x.target < -k)
      ∨ (r = .exhaustTimeout ∧ x.state = .exhausting ∧ k < x.measured - x.target))
    let ends := (rd u.crn.corners c).state = .exhausting ∧ 0 < rd u.rlu.kneel c ∧ w.mark = false ∧ w.running = true
      ∧ 1000 ≤ w.timer + 20
    runs (.cornerUpdate c)
    ∧ (qualifies → runs (.cornerQualified c)) ∧ (¬ qualifies → exec (.cornerQualified c) s = .next s)
    ∧ (∀ r, late r → runs (.actionTimeout c)) ∧ ((∀ r, ¬ late r) → exec (.actionTimeout c) s = .next s)
    ∧ (ends → runs (.stallWatchSpan c)) ∧ (¬ ends → exec (.stallWatchSpan c) s = .next s)
    ∧ (qualifies → high → (rd u.crn.corners c).state = .exhausting ∧ (rd u.crn.corners c).actionTimer = 0
      ∧ (rd u.vda.channels (exhaustChannel c)).command = 1)
    ∧ (qualifies → low → m.crn.gateOpen = true → m.crn.queue = [] → m.crn.fillingCount < 3 →
      (rd u.crn.corners c).state = .filling ∧ (rd u.crn.corners c).actionTimer = 0
      ∧ (rd u.vda.channels (fillChannel c)).command = 1 ∧ (rd u.vda.channels supplyChannel).command = 1)
    ∧ (qualifies → low → m.crn.gateOpen = true → m.crn.fillingCount = 3 →
      (rd u.crn.corners c).state = .fillWait
      ∧ u.crn.queue = (m.crn.queue.filter fun i => decide ((rd m.crn.corners i).state = .fillWait)) ++ [c])
    ∧ (qualifies → low → m.crn.gateOpen = false → x.reasons = FreezeSet.empty →
      (rd u.crn.corners c).state = .holding ∧ (rd u.crn.corners c).reasons = { FreezeSet.empty with supply := true })
    ∧ (∀ r, late r → s.cfg.device = .run → (rd u.crn.corners c).state = .fault ∧ (rd u.crn.corners c).fault = some r
      ∧ u.flagged 5 ∧ (rd u.vda.channels (fillChannel c)).command = 0 ∧ (rd u.vda.channels (exhaustChannel c)).command = 0)
    ∧ (ends → 5 ≤ w.reference - (rd u.crn.corners c).measured →
      rd v.rlu.watches c = { w with reference := (rd u.crn.corners c).measured, timer := 0 } ∧ v.crn = u.crn ∧ v.lnk = u.lnk)
    ∧ (ends → w.reference - (rd u.crn.corners c).measured < 5 → (rd u.crn.corners c).reasons.stall = false →
      (rd v.rlu.watches c).mark = true ∧ (rd v.rlu.watches c).running = false ∧ (rd v.crn.corners c).state = .holding
      ∧ (rd v.crn.corners c).reasons.stall = true ∧ v.rlu.kneelState = .stalled ∧ v.flagged 6
      ∧ (rd v.vda.channels (exhaustChannel c)).command = 0 ∧ v.ilt = s.ilt)

/-! ## Brakes -/

/-- R116 to R119, R124, R125, R128, R131, R135, R136, R138, log 3: a brake update, 10 ms after the last or later: the driver's demand, the
base pressure, the ramp's step in RUN, and for each axle the load share of R117, formed while all three axle loads are VALID and their sum
is above 0, with the remainder to the lowest-numbered largest axle, the blended share of R118, and the clamped demand of that share,
raised to H on A2 and A3 while a hold is not RELEASED; then in RUN (u) the confirmation, the unconfirmed watch, the loss and the departure
window. A hold confirmed at the update that ends the watch posts nothing (log 21, the model's choice). The demands are handed to VDA as
the commands of PB1, PB2 and PB3 (R134). Beside it: what BRK makes of the contributors of the table when it judges them (R120, R121, R123,
R126, R127, R129, R130). -/
def Obligations.BrakeUpdateForms : Prop :=
  (∀ (s : State) (driver base : Nat) (hold : HoldState) (target : Nat),
    driver = (if (rd s.mot.analog 20).validity = .faulty then 0
      else (max 0 (min 1000 (rd s.mot.analog 20).value)).toNat) →
    base = driver * 850 / 1000 →
    (hold, target) = (if s.cfg.device = .run ∧ s.brk.hold = .ramping then
      (if s.brk.target ≤ 6 then (.released, 0) else (.ramping, s.brk.target - 6)) else (s.brk.hold, s.brk.target)) →
    ∃ t : State, exec .brakeUpdate s = .next t ∧ SameBase { s with now := max s.now (s.brk.lastUpdate + 10000) } t
      ∧ t.brk.lastUpdate = t.now ∧ t.brk.driver = driver ∧ t.brk.base = base
      ∧ (let load := fun a : Fin 3 => (rd s.crn.axles a).load
        let total := load 0 + load 1 + load 2
        let part := fun a : Fin 3 => 1000 * load a / total
        let formed := (∀ a : Fin 3, (rd s.crn.axles a).valid = true) ∧ 0 < total
        let largest := fun a : Fin 3 => (∀ b, load b ≤ load a) ∧ ∀ b, b < a → load b < load a
        ∀ a : Fin 3, ∃ share static : Nat, static = rd s.cfg.settings.share a ∧ (rd t.brk.axles a).blended = some share
          ∧ (¬ formed → (rd t.brk.axles a).loadShare = none ∧ share = static)
          ∧ (formed → ∃ own : Nat, (rd t.brk.axles a).loadShare = some own
            ∧ (largest a → own = part a + (1000 - (part 0 + part 1 + part 2))) ∧ (¬ largest a → own = part a)
            ∧ (s.cfg.settings.weight = 63 → share = own)
            ∧ (s.cfg.settings.weight ≠ 63 →
              share = (s.cfg.settings.weight * own + (64 - s.cfg.settings.weight) * static + 32) / 64))
          ∧ (rd t.brk.axles a).demandAtUpdate
              = (if a = 0 ∨ hold = .released then min 850 (base * share / static) else max target (min 850 (base * share / static)))
          ∧ (rd t.vda.channels (brakeChannel a)).command = (rd t.brk.axles a).demand
          ∧ ((rd t.brk.axles a).demand = (rd t.brk.axles a).demandAtUpdate
            ∨ (a ≠ 0 ∧ (rd t.brk.axles a).demand = max (rd t.brk.axles a).demandAtUpdate t.brk.target))
          ∧ (rd t.brk.axles a).measured = s.analogValue ⟨a.val + 16, by omega⟩)
      ∧ ∀ x y z : Nat, (rd t.brk.axles 0).loadShare = some x → (rd t.brk.axles 1).loadShare = some y →
        (rd t.brk.axles 2).loadShare = some z → x + y + z = 1000)
  ∧ (∀ (s u : State) (built fallen : Prop), u = brakesMove s →
    built = (∀ c : Fin 21, c = 17 ∨ c = 18 → (rd s.mot.analog c).validity ≠ .faulty
      ∧ 9 * (s.brk.target : Int) ≤ 10 * (rd s.mot.analog c).value) →
    fallen = (∃ c : Fin 21, (c = 17 ∨ c = 18) ∧ ((rd s.mot.analog c).validity = .faulty
      ∨ 10 * (rd s.mot.analog c).value < 8 * (s.brk.target : Int))) →
    let shuts := s.brk.windowOpen = true ∧ (1200 ≤ (s.mot.counter - s.brk.windowRef).toInt ∨ ∃ v, s.mot.speed = some v ∧ 150 < v)
    let confirms := built ∧ 100 ≤ s.brk.confirmTimer + 10
    let loses := fallen ∧ 100 ≤ s.brk.lossTimer + 10
    exec .brakeUpdate s = .next (State.finish u) ∧ u.ilt = s.ilt ∧ u.cfg = s.cfg ∧ u.mot = s.mot
    ∧ (∀ a, (rd u.vda.channels (brakeChannel a)).command = (rd u.brk.axles a).demand
      ∧ (s.cfg.device = .run → s.brk.hold = .held → loses → a ≠ 0 →
        (rd u.brk.axles a).demand = max (rd u.brk.axles a).demandAtUpdate u.brk.target)
      ∧ (¬ (s.cfg.device = .run ∧ s.brk.hold = .held ∧ loses ∧ a ≠ 0) →
        (rd u.brk.axles a).demand = (rd u.brk.axles a).demandAtUpdate))
    ∧ (s.cfg.device ≠ .run → u.brk.hold = s.brk.hold ∧ u.brk.target = s.brk.target ∧ u.brk.confirmed = s.brk.confirmed
      ∧ u.brk.confirmTimer = s.brk.confirmTimer ∧ u.brk.lossTimer = s.brk.lossTimer ∧ u.brk.unconfirmed = s.brk.unconfirmed
      ∧ u.brk.windowOpen = s.brk.windowOpen ∧ u.lnk = s.lnk)
    ∧ (s.cfg.device = .run →
      (s.brk.hold = .released ∨ s.brk.hold = .waitDrive → u.brk.hold = s.brk.hold ∧ u.brk.target = s.brk.target
        ∧ u.brk.confirmed = s.brk.confirmed ∧ u.brk.confirmTimer = s.brk.confirmTimer ∧ u.brk.lossTimer = s.brk.lossTimer)
      ∧ (s.brk.hold = .ramping → s.brk.target ≤ 6 → u.brk.hold = .released ∧ u.brk.target = 0 ∧ u.brk.confirmed = false)
      ∧ (s.brk.hold = .ramping → 6 < s.brk.target → u.brk.hold = .ramping ∧ u.brk.target = s.brk.target - 6)
      ∧ (s.brk.hold = .applying → u.brk.target = s.brk.target
        ∧ (confirms → u.brk.hold = .held ∧ u.brk.confirmed = true ∧ u.brk.lossTimer = 0 ∧ u.lnk = s.lnk)
        ∧ (¬ confirms → u.brk.hold = .applying ∧ u.brk.confirmed = s.brk.confirmed
          ∧ (built → u.brk.confirmTimer = s.brk.confirmTimer + 10) ∧ (¬ built → u.brk.confirmTimer = 0)
          ∧ (s.brk.unconfirmedPosted = true → u.brk.unconfirmed = s.brk.unconfirmed ∧ u.brk.unconfirmedPosted = true ∧ u.lnk = s.lnk)
          ∧ (s.brk.unconfirmedPosted = false → s.brk.unconfirmed + 10 < 1000 →
            u.brk.unconfirmed = s.brk.unconfirmed + 10 ∧ u.brk.unconfirmedPosted = false ∧ u.lnk = s.lnk)
          ∧ (s.brk.unconfirmedPosted = false → 1000 ≤ s.brk.unconfirmed + 10 →
            u.brk.unconfirmed = 1000 ∧ u.brk.unconfirmedPosted = true
            ∧ u.lnk = (s.post (.holdUnconfirmed .timeout s.brk.target (s.analogValue 17) (s.analogValue 18))).lnk)))
      ∧ (s.brk.hold = .held →
        (¬ loses → u.brk.hold = .held ∧ u.brk.target = s.brk.target ∧ u.brk.confirmed = s.brk.confirmed ∧ u.lnk = s.lnk
          ∧ (fallen → u.brk.lossTimer = s.brk.lossTimer + 10) ∧ (¬ fallen → u.brk.lossTimer = 0))
        ∧ (loses → u.brk.hold = .applying ∧ u.brk.confirmed = false ∧ u.brk.target = s.contributorMax.getD s.brk.target
          ∧ u.brk.confirmTimer = 0 ∧ u.brk.unconfirmed = 0 ∧ u.brk.unconfirmedPosted = false ∧ u.brk.windowOpen = false
          ∧ u.stc.windowOpen = false ∧ u.flagged 3))
      ∧ (shuts → u.brk.windowOpen = false ∧ u.stc.windowOpen = false)
      ∧ (¬ shuts → ¬ (s.brk.hold = .held ∧ loses) → u.brk.windowOpen = s.brk.windowOpen ∧ u.stc.windowOpen = s.stc.windowOpen)))
  ∧ (∀ s u : State, u = Brk.judge s → s.cfg.device ≠ .run → u = s)
  ∧ ∀ s u : State, u = Brk.judge s → s.cfg.device = .run →
    let contributes := fun e : Entry => (e.kind = .doorOpen ∨ e.kind = .rampOut ∨ e.kind = .stopHold ∨ e.kind = .serviceLock)
      ∧ e.state ≠ .covered ∧ (s.mot.motion = .settling ∨ s.mot.motion = .standstill ∨ (e.owner = 15 ∧ e.kind = .stopHold))
    let pressure := fun e : Entry => if e.kind = .stopHold then e.parameter.getD 0 else if e.kind = .serviceLock then 500
      else s.cfg.settings.doorHold
    let departs := s.mot.driveReq.debounced = true ∨ s.mot.motion = .rolling
    let keeps := u.brk.windowOpen = s.brk.windowOpen ∧ u.brk.windowRef = s.brk.windowRef ∧ u.stc.windowOpen = s.stc.windowOpen
    let ramps := u.brk.hold = .ramping ∧ u.brk.confirmed = false ∧ u.brk.target = s.brk.target
      ∧ (s.brk.doorSeen = true → u.brk.windowOpen = true ∧ u.brk.windowRef = s.mot.counter ∧ u.stc.windowOpen = true)
      ∧ (s.brk.doorSeen = false → keeps)
    SameBase s u ∧ u.ilt = s.ilt ∧ u.lnk = s.lnk ∧ u.HoldsFit
    ∧ ((∀ e ∈ s.live, ¬ contributes e) → u.brk.axles = s.brk.axles ∧ u.vda = s.vda ∧
      (s.brk.hold = .released ∨ s.brk.hold = .ramping → u = s)
      ∧ (s.brk.hold = .waitDrive → (departs → ramps) ∧ (¬ departs → u = s))
      ∧ (s.brk.hold = .applying ∨ s.brk.hold = .held → u.brk.confirmTimer = 0 ∧ u.brk.lossTimer = 0 ∧ (departs → ramps)
        ∧ (¬ departs → u.brk.hold = .waitDrive ∧ u.brk.target = s.brk.target ∧ u.brk.confirmed = s.brk.confirmed ∧ keeps)))
    ∧ ∀ h : Nat, (∃ e ∈ s.live, contributes e ∧ pressure e = h) → (∀ e ∈ s.live, contributes e → pressure e ≤ h) →
      let stands := ∀ c : Fin 21, c = 17 ∨ c = 18 → (rd s.mot.analog c).validity ≠ .faulty
        ∧ 9 * (h : Int) ≤ 10 * (rd s.mot.analog c).value
      let raised := ∀ a, a ≠ 0 → (rd u.brk.axles a).demand = max (rd s.brk.axles a).demand h
        ∧ (rd u.vda.channels (brakeChannel a)).command = (rd u.brk.axles a).demand
      u.brk.target = h
      ∧ (s.brk.hold = .applying ∨ s.brk.hold = .held → u.brk.hold = s.brk.hold ∧ u.brk.confirmed = s.brk.confirmed
        ∧ u.brk.doorSeen = s.brk.doorSeen ∧ keeps ∧ (h = s.brk.target → u = s)
        ∧ (h ≠ s.brk.target → u.brk.confirmTimer = 0 ∧ u.brk.lossTimer = 0) ∧ (s.brk.target < h → raised)
        ∧ (h ≤ s.brk.target → u.brk.axles = s.brk.axles ∧ u.vda = s.vda))
      ∧ (s.brk.hold = .released ∨ s.brk.hold = .waitDrive ∨ s.brk.hold = .ramping →
        u.brk.confirmTimer = 0 ∧ u.brk.unconfirmed = 0 ∧ u.brk.unconfirmedPosted = false ∧ u.brk.windowOpen = false
        ∧ u.stc.windowOpen = false ∧ raised
        ∧ (u.brk.doorSeen = true ↔ ∃ e ∈ s.live, e.owner ≠ 15 ∧ (e.kind = .doorOpen ∨ e.kind = .rampOut))
        ∧ (s.brk.hold ≠ .released → stands → u.brk.hold = .held ∧ u.brk.confirmed = true ∧ u.brk.lossTimer = 0)
        ∧ (s.brk.hold = .released ∨ ¬ stands → u.brk.hold = .applying ∧ u.brk.confirmed = false))

/-- R124, R125, R128, logs 4 and 21: the rows for one moment of a brake update in RUN. Each is the brake update that brings the moment,
and has no effect when the update does not bring it (log 4, the model's choice). A built hold is confirmed, a hold that does not build is
reported, but not at the update that confirms it (log 21, the model's choice), a lost hold applies again and is reported, and a ramp that
ends is RELEASED with P2 and P3 by the driver's demand alone. -/
def Obligations.HoldTimersRunOut : Prop :=
  ∀ (s u : State) (built fallen : Prop), u = brakesMove s →
    built = (∀ c : Fin 21, c = 17 ∨ c = 18 → (rd s.mot.analog c).validity ≠ .faulty
      ∧ 9 * (s.brk.target : Int) ≤ 10 * (rd s.mot.analog c).value) →
    fallen = (∃ c : Fin 21, (c = 17 ∨ c = 18) ∧ ((rd s.mot.analog c).validity = .faulty
      ∨ 10 * (rd s.mot.analog c).value < 8 * (s.brk.target : Int))) →
    let confirms := s.cfg.device = .run ∧ s.brk.hold = .applying ∧ built ∧ 100 ≤ s.brk.confirmTimer + 10
    let reports := s.cfg.device = .run ∧ s.brk.hold = .applying ∧ ¬ confirms ∧ s.brk.unconfirmedPosted = false
      ∧ 1000 ≤ s.brk.unconfirmed + 10
    let loses := s.cfg.device = .run ∧ s.brk.hold = .held ∧ fallen ∧ 100 ≤ s.brk.lossTimer + 10
    let ends := s.cfg.device = .run ∧ s.brk.hold = .ramping ∧ s.brk.target ≤ 6
    let runs := fun i : Instr => exec i s = .next (State.finish u)
    runs .brakeUpdate ∧ u.ilt = s.ilt ∧ SameBase { s with now := max s.now (s.brk.lastUpdate + 10000) } u
    ∧ (confirms → runs .holdConfirmed ∧ u.brk.hold = .held ∧ u.brk.confirmed = true ∧ u.brk.lossTimer = 0)
    ∧ (¬ confirms → exec .holdConfirmed s = .next s)
    ∧ (reports → runs .holdUnconfirmedTimeout ∧ u.brk.hold = .applying ∧ u.brk.unconfirmed = 1000
      ∧ u.brk.unconfirmedPosted = true
      ∧ u.lnk = (s.post (.holdUnconfirmed .timeout s.brk.target (s.analogValue 17) (s.analogValue 18))).lnk)
    ∧ (¬ reports → exec .holdUnconfirmedTimeout s = .next s)
    ∧ (loses → runs .holdLost ∧ u.brk.hold = .applying ∧ u.brk.confirmed = false
      ∧ u.brk.target = s.contributorMax.getD s.brk.target ∧ u.brk.confirmTimer = 0 ∧ u.brk.unconfirmed = 0
      ∧ u.brk.windowOpen = false ∧ u.flagged 3
      ∧ ∀ a, a ≠ 0 → u.brk.target ≤ (rd u.brk.axles a).demand
        ∧ (rd u.vda.channels (brakeChannel a)).command = (rd u.brk.axles a).demand)
    ∧ (¬ loses → exec .holdLost s = .next s)
    ∧ (ends → runs .holdRampEnd ∧ u.brk.hold = .released ∧ u.brk.target = 0 ∧ u.brk.confirmed = false ∧ u.lnk = s.lnk
      ∧ ∀ a, (rd u.brk.axles a).demand = min 850 (u.brk.base
          * (rd u.brk.axles a).blended.getD (rd s.cfg.settings.share a) / rd s.cfg.settings.share a)
        ∧ (rd u.vda.channels (brakeChannel a)).command = (rd u.brk.axles a).demand)
    ∧ (¬ ends → exec .holdRampEnd s = .next s)

/-! ## Steering -/

/-- R139 to R142, R145 to R147, R150 to R152, R159, R175, log 3: a steering update, 10 ms after the last or later: the angles taken, the
latch, the steering frame placed with the counter before its growth (log 32, the model's choice), PD1 commanded at the damper command, and
the fields reported. In RUN at a valid speed the schedule in use is the lookup of the bank in use, and at any other update it is kept
(R144). A FAULTY sensor, or in TRACKING a speed that is INVALID, sets a clear latch with the first cause in the order AN12 to AN15,
disagreement, speed (log 39, the model's choice) and a STEER_FAULT notice, and in RUN STC holds a SELF STEER_CENTRE. In PARKED, LOCKED and
PASSIVE, and in FROZEN where no latch is set, the command and its limit stand (R139, R149); in TRACKING with plausible inputs it steps
toward the kinematic target by the slew and within the limit in force. In CENTRING, also where the latch set at this update brings it from
FROZEN or TRACKING, and with a speed that is INVALID, it steps toward 0 until the axle is at centre, which enters LOCKED with the command
0 and CL1 off. Where no STEER_CENTRE is live it is left at once for FROZEN or TRACKING with CL1 on, and a CL1 that is not usable then sets
a clear latch in TRACKING. The damper is at full command in PARKED, with AN12 or AN13 FAULTY, in the joint limit or without a speed, and
otherwise follows the schedule and the rate of the articulation angle. -/
def Obligations.SteeringUpdateSteers : Prop :=
  ∀ s : State, ∃ (t : State) (f : TxFrame), exec .steeringUpdate s = .next t
    ∧ t.now = max s.now (s.stc.lastUpdate + 10000) ∧ t.stc.lastUpdate = t.now ∧ t.cfg = s.cfg ∧ t.mot = s.mot
    ∧ t.ilt.registry = s.ilt.registry ∧ t.lnk.queue = s.lnk.queue ∧ t.lnk.answer = s.lnk.answer
    ∧ t.lnk.broadcast = s.lnk.broadcast ∧ t.stc.bankA = s.stc.bankA ∧ t.stc.bankB = s.stc.bankB
    ∧ t.stc.gamma = (if s.analogFaulty 12 = true ∧ s.analogFaulty 13 = false then s.analogValue 13
        else if s.analogFaulty 13 = true ∧ s.analogFaulty 12 = false then s.analogValue 12
        else Int.tdiv (s.analogValue 12 + s.analogValue 13) 2)
    ∧ t.stc.delta1 = s.analogValue 14 ∧ t.stc.delta3 = s.analogValue 15
    ∧ t.lnk.steering = some f ∧ f.identifier = s.cfg.settings.ansBase + 15
    ∧ f.content.b0 ++ f.content.b1 = BitVec.ofInt 16 t.stc.command
    ∧ f.content.b2 = BitVec.ofNat 8 t.stc.report.state.code
    ∧ f.content.b3 = (if t.stc.report.state = .frozen ∨ t.stc.report.state = .tracking ∨ t.stc.report.state = .centring
        then 1 else 0)
    ∧ f.content.b4 = s.lnk.steerCount ∧ t.lnk.steerCount = s.lnk.steerCount + 1
    ∧ t.stc.report.command = t.stc.command ∧ t.stc.report.delta3 = t.stc.delta3 ∧ t.stc.report.gamma = t.stc.gamma
    ∧ t.stc.report.lower = t.stc.lower ∧ t.stc.report.upper = t.stc.upper ∧ t.stc.report.damper = t.stc.damper
    ∧ (rd t.vda.channels damperChannel).command = t.stc.damper
    ∧ (t.stc.jointLimit = true ↔ 480 ≤ t.stc.gamma.natAbs ∨ (450 ≤ t.stc.gamma.natAbs ∧ s.stc.jointLimit = true))
    ∧ (t.stc.jointLimit = true → s.stc.jointLimit = false → t.flagged 8)
    ∧ (s.stc.state = .parked → t.stc.command = s.stc.command ∧ t.stc.damper = 1000)
    ∧ (∀ v, s.cfg.device = .run → s.mot.speed = some v → t.stc.schedule = some ((s.stc.bank s.stc.inUse).lookup v))
    ∧ (s.cfg.device ≠ .run ∨ s.mot.speed = none → t.stc.schedule = s.stc.schedule)
    ∧ (let plausible := (∀ c : Fin 21, 12 ≤ c.val → c.val ≤ 15 → s.analogFaulty c = false)
        ∧ ((s.analogValue 12 - s.analogValue 13).natAbs ≤ 20 ∨ s.stc.disagreeTimer + 10 < 100)
      s.stc.state = .parked ∨ s.stc.state = .locked ∨ s.stc.state = .passive
        ∨ (s.stc.state = .frozen ∧ (s.stc.latch ≠ none ∨ plausible)) →
      t.stc.command = s.stc.command ∧ t.stc.lower = s.stc.lower ∧ t.stc.upper = s.stc.upper ∧ t.stc.report.state = s.stc.state)
    ∧ (∀ q, s.stc.latch = some q → t.stc.latch = some q)
    ∧ (let cause := fun c : Fin 21 => if c = 12 then LatchCause.artASensor else if c = 13 then .artBSensor
        else if c = 14 then .frontSensor else .actuatorSensor
      s.stc.latch = none →
      (∀ c : Fin 21, 12 ≤ c.val → c.val ≤ 15 → s.analogFaulty c = true →
        (∀ b : Fin 21, 12 ≤ b.val → b.val < c.val → s.analogFaulty b = false) →
        t.stc.latch = some (cause c) ∧ t.flagged 7
        ∧ (s.cfg.device = .run → s.ilt.Fits → s.stc.selfHandle = none →
          (∃ i : Fin 24, 18 ≤ i.val ∧ (rd s.ilt.slots i).entry = none) →
          (∀ e ∈ s.live, ¬(e.owner = 15 ∧ e.kind = .steerCentre)) →
          ∃ h e, t.stc.selfHandle = some h ∧ t.resolve h = some e ∧ e.owner = 15 ∧ e.kind = .steerCentre))
      ∧ ((∀ c : Fin 21, 12 ≤ c.val → c.val ≤ 15 → s.analogFaulty c = false) →
        (s.analogValue 12 - s.analogValue 13).natAbs ≤ 20 ∨ s.stc.disagreeTimer + 10 < 100 →
        s.cfg.device = .run → s.stc.state = .tracking → s.mot.speed = none →
        t.stc.latch = some .speedInvalid ∧ t.flagged 7))
    ∧ t.stc.damper = (if t.stc.report.state = .parked ∨ s.analogFaulty 12 = true ∨ s.analogFaulty 13 = true
        ∨ t.stc.jointLimit = true ∨ s.mot.speed = none then 1000
      else match t.stc.schedule with
        | none => 1000
        | some u => min 1000 (u.damp.toNat + s.cfg.settings.rateGain
            * (if s.stc.gammaFormed then (t.stc.gamma - s.stc.gamma).natAbs else 0)))
    ∧ (∀ (u : Schedule) (lower upper guard next : Int) (from' : Nat),
      let implausible := (∃ c : Fin 21, 12 ≤ c.val ∧ c.val ≤ 15 ∧ s.analogFaulty c = true)
        ∨ (20 < (s.analogValue 12 - s.analogValue 13).natAbs ∧ 100 ≤ s.stc.disagreeTimer + 10)
        ∨ (s.stc.state = .tracking ∧ s.mot.speed = none)
      let brought := (s.stc.state = .frozen ∨ s.stc.state = .tracking) ∧ s.stc.latch = none ∧ implausible ∧ s.stc.selfHandle = none
        ∧ (∃ i : Fin 24, 18 ≤ i.val ∧ (rd s.ilt.slots i).entry = none) ∧ ∀ e ∈ s.live, ¬(e.owner = 15 ∧ e.kind = .steerCentre)
      s.cfg.device = .run → (s.stc.state = .centring ∧ from' = s.stc.centringTimer) ∨ (brought ∧ from' = 0) →
      (∀ v, s.mot.speed = some v → u = (s.stc.bank s.stc.inUse).lookup v) → (s.mot.speed = none → s.stc.schedule = some u) →
      guard = (s.cfg.settings.curbGuard : Nat) →
      lower = (if s.stc.windowOpen = true ∧ s.cfg.settings.curbRight = false then -(min u.lim guard) else -u.lim) →
      upper = (if s.stc.windowOpen = true ∧ s.cfg.settings.curbRight = true then min u.lim guard else u.lim) →
      next = max lower (min upper (s.stc.command + max (-u.slew) (min u.slew (0 - s.stc.command)))) →
      let centred := s.analogFaulty 15 = false ∧ (s.analogValue 15).natAbs ≤ 5
      t.stc.lower = lower ∧ t.stc.upper = upper
      ∧ (¬ centred → from' + 10 < 2000 → t.stc.command = next ∧ t.stc.report.state = .centring
        ∧ t.stc.centringTimer = from' + 10)
      ∧ (centred → brought ∨ (∃ e ∈ s.live, e.kind = .steerCentre) → t.stc.report.state = .locked ∧ t.stc.command = 0
        ∧ (rd t.vda.channels lockChannel).command = 0)
      ∧ (let plausible := (∀ c : Fin 21, 12 ≤ c.val → c.val ≤ 15 → s.analogFaulty c = false)
          ∧ ((s.analogValue 12 - s.analogValue 13).natAbs ≤ 20 ∨ s.stc.disagreeTimer + 10 < 100)
        let unusable := (s.channelState lockChannel).unusable = true
        centred → s.stc.state = .centring → (∀ e ∈ s.live, e.kind ≠ .steerCentre) →
          (s.stc.latch ≠ none ∨ (plausible ∧ (s.mot.motion = .standstill ∨ ¬ unusable)) →
            t.stc.report.state = (if s.mot.motion = .standstill then .frozen else .tracking) ∧ t.stc.command = 0
            ∧ t.stc.latch = s.stc.latch ∧ (rd t.vda.channels lockChannel).command = 1)
          ∧ (s.stc.latch = none → plausible → s.mot.motion ≠ .standstill → unusable →
            t.stc.latch = some .lockChannel ∧ t.flagged 7 ∧ t.stc.command = 0
            ∧ (rd t.vda.channels lockChannel).command = 1)))
    ∧ ∀ (v : Nat) (u : Schedule) (target lower upper guard : Int),
      s.cfg.device = .run → s.stc.state = .tracking → s.mot.speed = some v →
      (∀ c : Fin 21, c = 12 ∨ c = 13 ∨ c = 14 ∨ c = 15 → s.analogFaulty c = false) →
      (s.analogValue 12 - s.analogValue 13).natAbs ≤ 20 →
      u = (s.stc.bank s.stc.inUse).lookup v →
      target = (if s.selected = .reverse ∧ s.mot.motion = .rolling then 0
        else Int.tdiv (u.gArt * Int.tdiv (s.analogValue 12 + s.analogValue 13) 2 + u.gFront * s.analogValue 14) 1024) →
      guard = (s.cfg.settings.curbGuard : Nat) →
      lower = (if s.stc.windowOpen = true ∧ s.cfg.settings.curbRight = false then -(min u.lim guard) else -u.lim) →
      upper = (if s.stc.windowOpen = true ∧ s.cfg.settings.curbRight = true then min u.lim guard else u.lim) →
      t.stc.command = max lower (min upper (s.stc.command + max (-u.slew) (min u.slew (target - s.stc.command))))
      ∧ t.stc.lower = lower ∧ t.stc.upper = upper

/-- R144: the lookup in a bank: at or above its last row the last row's values; at or above one row and below the next, the first
row's values and the truncated share of the difference. -/
def Obligations.ScheduleInterpolates : Prop :=
  ∀ (b : Bank) (v : Int), b.valid = true →
    (∀ i : Fin 16, i.val + 1 = b.count → (rd b.rows i).v ≤ v → b.lookup v = (rd b.rows i).schedule)
    ∧ ∀ (i j : Fin 16) (p q : Row), j.val = i.val + 1 → j.val < b.count → p = rd b.rows i → q = rd b.rows j →
      p.v ≤ v → v < q.v →
      (b.lookup v).gArt = p.gArt + Int.tdiv ((q.gArt - p.gArt) * (v - p.v)) (q.v - p.v)
      ∧ (b.lookup v).gFront = p.gFront + Int.tdiv ((q.gFront - p.gFront) * (v - p.v)) (q.v - p.v)
      ∧ (b.lookup v).lim = p.lim + Int.tdiv ((q.lim - p.lim) * (v - p.v)) (q.v - p.v)
      ∧ (b.lookup v).slew = p.slew + Int.tdiv ((q.slew - p.slew) * (v - p.v)) (q.v - p.v)
      ∧ (b.lookup v).damp = p.damp + Int.tdiv ((q.damp - p.damp) * (v - p.v)) (q.v - p.v)

/-- R141, R142, R151, log 4: the rows for one moment of a steering update. Each is the steering update that brings its timer to the bound,
and has no effect when the update does not bring it (log 4, the model's choice). A disagreement of 100 ms and a tracking error of 300 ms
set a clear latch with a cause and a STEER_FAULT notice, the disagreement as DISAGREE where every sensor is sound, also at an update in
TRACKING whose speed is INVALID (log 39, the model's choice, for the order of the causes); a centring of 2,000 ms ends in PASSIVE with the
command 0, CL1 off and the notice. -/
def Obligations.SteeringTimersRunOut : Prop :=
  ∀ s u : State, u = steeringMoves s →
    let runs := fun i : Instr => exec i s = .next (State.finish u)
    let sound := ∀ c : Fin 21, 12 ≤ c.val → c.val ≤ 15 → s.analogFaulty c = false
    let apart := s.analogFaulty 12 = false ∧ s.analogFaulty 13 = false ∧ 20 < (s.analogValue 12 - s.analogValue 13).natAbs
      ∧ s.stc.disagreeTimer < 100 ∧ 100 ≤ s.stc.disagreeTimer + 10
    let astray := 30 < (s.stc.report.command - s.analogValue 15).natAbs ∧ s.stc.trackTimer < 300 ∧ 300 ≤ s.stc.trackTimer + 10
    let stuck := (s.analogFaulty 15 = true ∨ 5 < (s.analogValue 15).natAbs) ∧ s.stc.centringTimer < 2000
      ∧ 2000 ≤ s.stc.centringTimer + 10
    runs .steeringUpdate ∧ u.cfg = s.cfg ∧ u.mot = s.mot
    ∧ (apart → runs .disagreementTimeout ∧ u.stc.disagreeTimer = 100 ∧ u.stc.latch ≠ none
      ∧ (s.stc.latch = none → sound → u.stc.latch = some .disagree ∧ u.flagged 7))
    ∧ (¬ apart → exec .disagreementTimeout s = .next s)
    ∧ (s.stc.trackTimer < 300 → 300 ≤ u.stc.trackTimer → runs .trackingErrorTimeout)
    ∧ (300 ≤ s.stc.trackTimer ∨ u.stc.trackTimer < 300 → exec .trackingErrorTimeout s = .next s)
    ∧ (s.stc.state ≠ .tracking → exec .trackingErrorTimeout s = .next s)
    ∧ (s.cfg.device = .run → s.stc.state = .tracking → s.mot.speed ≠ none → sound →
      (s.analogValue 12 - s.analogValue 13).natAbs ≤ 20 →
      (astray → runs .trackingErrorTimeout ∧ u.stc.trackTimer = 300
        ∧ u.stc.latch = (if s.stc.latch.isSome then s.stc.latch else some .trackingError)
        ∧ (s.stc.latch = none → u.flagged 7))
      ∧ (¬ astray → exec .trackingErrorTimeout s = .next s))
    ∧ (s.stc.centringTimer < 2000 → 2000 ≤ u.stc.centringTimer → runs .centringTimeout)
    ∧ (2000 ≤ s.stc.centringTimer ∨ u.stc.centringTimer < 2000 → exec .centringTimeout s = .next s)
    ∧ (s.cfg.device = .run → s.stc.state = .centring → s.mot.speed ≠ none →
      (stuck → runs .centringTimeout ∧ u.stc.state = .passive ∧ u.stc.command = 0 ∧ u.stc.centringTimer = 2000
        ∧ (rd u.vda.channels lockChannel).command = 0 ∧ u.flagged 7 ∧ u.stc.latch ≠ none
        ∧ (s.stc.latch = none → sound → (s.analogValue 12 - s.analogValue 13).natAbs ≤ 20 →
          u.stc.latch = some .centringTimeout))
      ∧ (¬ stuck → exec .centringTimeout s = .next s))

/-! ## Valve channels -/

/-- R163 to R166, log 3: the timers of a channel run out, each in the one state in which it runs: the end of the blanking, of the qualify
time, of the retry time and of 5,000 ms in ON. The change of state is reported and handed to the owner, as ChannelCurrentsAndChecks states
(R171); where the timer is stopped, nothing changes. -/
def Obligations.ChannelTimersRunOut : Prop :=
  ∀ (ch : Fin 18) (s : State) (x : Channel), x = rd s.vda.channels ch →
    let puts := fun (n : Nat) (y : Channel) => State.modVda { s with now := n } fun v => { v with channels := wr v.channels ch y }
    let moves := fun (i : Instr) (n : Nat) (y : Channel) =>
      exec i s = .next (State.finish (handToOwner ch (reportChannel ch (puts n y))))
      ∧ SameBase (puts n y) (State.finish (handToOwner ch (reportChannel ch (puts n y))))
    (∀ (t n : Nat), x.state = .blanking → x.blanking = some t → n = max s.now (t + 3000) →
      (x.overCurrent = false → moves (.blankingEnd ch) n { x with state := .on, blanking := none, clean := some n })
      ∧ (x.overCurrent = true →
        moves (.blankingEnd ch) n { x with state := .qualifying, blanking := none, qualify := some n, clean := none }))
    ∧ (∀ (t n trips : Nat), x.state = .qualifying → x.qualify = some t →
      n = max s.now (t + if 13 ≤ ch.val ∧ ch.val ≤ 16 then 5000 else 2000) →
      trips = (if x.trips = 0 ∨ x.series = none ∨ (∃ first, x.series = some first ∧ 10000000 < n - first) then 1
        else x.trips + 1) →
      moves (.qualifyTimeExpiry ch) n
        { x with
          state := if 3 ≤ trips then .lockedOut else .tripped
          trips := trips
          series := if trips = 1 then some n else x.series
          blanking := none
          qualify := none
          clean := none
          retry := if 3 ≤ trips then none else some n })
    ∧ (∀ (t n : Nat), x.state = .tripped → x.retry = some t → n = max s.now (t + 200000) →
      (0 < x.command → moves (.retryExpiry ch) n { x with state := .blanking, retry := none, blanking := some n })
      ∧ (x.command = 0 → moves (.retryExpiry ch) n { x with state := .off, retry := none }))
    ∧ (∀ (t n : Nat), x.state = .on → x.clean = some t → n = max s.now (t + 5000000) →
      exec (.cleanTimerExpiry ch) s
        = .next (State.finish (puts n { x with trips := 0, series := none })))
    ∧ (x.blanking = none → exec (.blankingEnd ch) s = .next s)
    ∧ (x.qualify = none → exec (.qualifyTimeExpiry ch) s = .next s)
    ∧ (x.retry = none → exec (.retryExpiry ch) s = .next s)
    ∧ (x.clean = none → exec (.cleanTimerExpiry ch) s = .next s)

/-- R94, R97, R141, R161, R163, R164, R166, R167, R171: the start and the end of over-current, the start of a hard short, and the
diagnostic check, 100 ms after the channel's last or later (log 3); the comparator follows the event (log 23). A change of state is
reported and handed to the owner. In any other state only the comparator, or the instant of the check, changes; in OPEN_LOAD the checks
stop, and the row has no effect. Beside it: the duty of an output and the current thresholds by the channel's type; and what the report
and the hand-off of a change of state do. LOCKED_OUT and OPEN_LOAD post CHANNEL_FAULT with the state and the trip count, and any other
state posts nothing. A corner gains VALVES_OFF while one of its channels is DISABLED, and in RUN enters FAULT with a CORNER_FAULT notice
when one enters LOCKED_OUT or OPEN_LOAD. CL1 not usable in TRACKING in RUN sets a clear latch with LOCK_CHANNEL, and every other channel's
owner does nothing. -/
def Obligations.ChannelCurrentsAndChecks : Prop :=
  (∀ (ch : Fin 18) (s : State) (x : Channel), x = rd s.vda.channels ch →
    let puts := fun (n : Nat) (y : Channel) => State.modVda { s with now := n } fun v => { v with channels := wr v.channels ch y }
    let moves := fun (i : Instr) (n : Nat) (y : Channel) =>
      exec i s = .next (State.finish (handToOwner ch (reportChannel ch (puts n y))))
      ∧ SameBase (puts n y) (State.finish (handToOwner ch (reportChannel ch (puts n y))))
    let stays := fun (i : Instr) (n : Nat) (y : Channel) => exec i s = .next (State.finish (puts n y))
    (x.state = .on → moves (.overCurrentStart ch) s.now
      { x with overCurrent := true, state := .qualifying, qualify := some s.now, clean := none })
    ∧ (x.state ≠ .on → stays (.overCurrentStart ch) s.now { x with overCurrent := true })
    ∧ (x.state = .qualifying → moves (.overCurrentEnd ch) s.now
      { x with overCurrent := false, state := .on, qualify := none, clean := some s.now })
    ∧ (x.state ≠ .qualifying → stays (.overCurrentEnd ch) s.now { x with overCurrent := false })
    ∧ (∀ trips : Nat,
      trips = (if x.trips = 0 ∨ x.series = none ∨ (∃ first, x.series = some first ∧ 10000000 < s.now - first) then 1
        else x.trips + 1) →
      (x.state = .blanking ∨ x.state = .on ∨ x.state = .qualifying → moves (.hardShort ch) s.now
        { x with
          overCurrent := true
          state := if 3 ≤ trips then .lockedOut else .tripped
          trips := trips
          series := if trips = 1 then some s.now else x.series
          blanking := none
          qualify := none
          clean := none
          retry := if 3 ≤ trips then none else some s.now }))
    ∧ (x.state ≠ .blanking → x.state ≠ .on → x.state ≠ .qualifying →
      stays (.hardShort ch) s.now { x with overCurrent := true })
    ∧ ∀ n : Nat, n = max s.now (x.lastCheck + 100000) →
      (x.state = .off → moves (.diagnosticCheck ch false) n { x with lastCheck := n, state := .openLoad })
      ∧ (∀ load : Bool, x.state = .openLoad → exec (.diagnosticCheck ch load) s = .next s)
      ∧ (∀ load : Bool, x.state ≠ .openLoad → x.state ≠ .off ∨ load = true →
        stays (.diagnosticCheck ch load) n { x with lastCheck := n })
      ∧ (x.state ≠ .blanking → x.state ≠ .on → x.state ≠ .qualifying → (x.duty ch).num = 0)
      ∧ (x.state = .blanking ∨ x.state = .on ∨ x.state = .qualifying →
        (ch.val ≤ 12 ∨ ch.val = 17 → x.duty ch = { num := 1, den := 1 })
        ∧ (13 ≤ ch.val → ch.val ≤ 15 → x.duty ch = { num := x.command, den := 850 })
        ∧ (ch.val = 16 → x.duty ch = { num := x.command, den := 1000 }))
      ∧ overCurrentAbove ch = (if 13 ≤ ch.val ∧ ch.val ≤ 16 then 30 else 20) ∧ hardShortAbove = 80)
  ∧ ∀ (ch : Fin 18) (u w : State) (x : Channel), x = rd u.vda.channels ch → w = handToOwner ch u →
    let fails := x.state = .lockedOut ∨ x.state = .openLoad
    (x.state = .lockedOut → reportChannel ch u = u.post (.channelFault .valve ch.val .lockedOut x.trips))
    ∧ (x.state = .openLoad → reportChannel ch u = u.post (.channelFault .valve ch.val .openLoad x.trips))
    ∧ (¬ fails → reportChannel ch u = u)
    ∧ SameBase u w ∧ (12 ≤ ch.val → ch.val ≤ 16 → w = u)
    ∧ (∀ c : Fin 6, ch.val < 12 →
      let off := u.channelState ⟨c.val, by omega⟩ = .disabled ∨ u.channelState ⟨c.val + 6, by omega⟩ = .disabled
      let mine := ch.val = c.val ∨ ch.val = c.val + 6
      let before := rd u.crn.corners c
      let after := rd w.crn.corners c
      let faults := mine ∧ fails ∧ u.cfg.device = .run ∧ before.state ≠ .fault
      (after.reasons.valvesOff = true ↔ off)
      ∧ (faults → after.state = .fault ∧ w.flagged 5
        ∧ after.fault = (if ch.val = c.val then some .fillValve else some .exhaustValve)
        ∧ (rd w.vda.channels ⟨c.val, by omega⟩).command = 0 ∧ (rd w.vda.channels ⟨c.val + 6, by omega⟩).command = 0)
      ∧ (¬ faults → after.fault = before.fault ∧ (before.state = .fault → after.state = .fault)
        ∧ (off → before.reasons.valvesOff = false → before.state ≠ .fault → after.state = .holding)
        ∧ (¬ off → before.reasons = { FreezeSet.empty with valvesOff := true } → before.state = .holding → after.state = .inBand))
      ∧ (mine → ¬ faults → w.lnk = u.lnk)
      ∧ w.ilt = u.ilt ∧ w.rlu = u.rlu ∧ w.brk = u.brk ∧ w.stc = u.stc ∧ w.dsv = u.dsv)
    ∧ (ch.val = 17 →
      let sets := u.cfg.device = .run ∧ u.stc.state = .tracking ∧ u.stc.latch = none
        ∧ (x.state = .tripped ∨ x.state = .lockedOut ∨ x.state = .openLoad ∨ x.state = .disabled)
      (¬ sets → w = u)
      ∧ (sets → w.stc.latch = some .lockChannel ∧ w.flagged 7
        ∧ (u.stc.selfHandle = none → u.ilt.Fits → (∃ i : Fin 24, 18 ≤ i.val ∧ (rd u.ilt.slots i).entry = none) →
          (∀ e ∈ u.live, ¬(e.owner = 15 ∧ e.kind = .steerCentre)) →
          w.stc.state = .centring
          ∧ ∃ h e, w.stc.selfHandle = some h ∧ w.resolve h = some e ∧ e.owner = 15 ∧ e.kind = .steerCentre)))

/-- R168 to R170, logs 3 and 12: the samples of the die temperature and of the supply voltage. A gate that closes marks its channels,
which are DISABLED unless LOCKED_OUT or OPEN_LOAD, and posts SUPPLY; a gate that opens removes its marks. The rows for the sample that
moves the undervoltage gate are that sample (log 4). -/
def Obligations.GateSamplesMark : Prop :=
  (∀ (degrees : Int) (s : State), ∃ t : State, exec (.temperatureSample degrees) s = .next t
    ∧ t.now = max s.now (s.vda.lastTemp + 10000) ∧ t.vda.lastTemp = t.now ∧ t.cfg = s.cfg ∧ t.mot = s.mot
    ∧ (t.vda.thermalClosed = true ↔ 150 ≤ degrees ∨ (130 < degrees ∧ s.vda.thermalClosed = true))
    ∧ (t.vda.thermalClosed = s.vda.thermalClosed → t.lnk.notices = s.lnk.notices
      ∧ ∀ c, (rd t.vda.channels c).thermal = (rd s.vda.channels c).thermal)
    ∧ (t.vda.thermalClosed ≠ s.vda.thermalClosed → ∀ c,
      (rd t.vda.channels c).thermal = (if c.val ≤ 12 then t.vda.thermalClosed else (rd s.vda.channels c).thermal))
    ∧ (t.vda.thermalClosed = true → s.vda.thermalClosed = false → t.flagged 10 ∧ ∀ c : Fin 18, c.val ≤ 12 →
      (t.channelState c = .disabled ∨ t.channelState c = .lockedOut ∨ t.channelState c = .openLoad))
    ∧ ∀ c, (rd t.vda.channels c).trips = (rd s.vda.channels c).trips
      ∧ (rd t.vda.channels c).undervoltage = (rd s.vda.channels c).undervoltage)
  ∧ (∀ (tenths : Nat) (s : State) (lows highs : Nat) (closes opens : Prop),
    lows = (if tenths < 160 then min 10 (s.vda.lows + 1) else 0) →
    highs = (if 180 ≤ tenths then min 50 (s.vda.highs + 1) else 0) →
    closes = (s.vda.underClosed = false ∧ 10 ≤ lows) → opens = (s.vda.underClosed = true ∧ 50 ≤ highs) →
    (∃ t : State, exec (.supplyVoltageSample tenths) s = .next t
      ∧ t.now = max s.now (s.vda.lastSupply + 1000) ∧ t.vda.lastSupply = t.now ∧ t.cfg = s.cfg ∧ t.mot = s.mot
      ∧ t.vda.lows = lows ∧ t.vda.highs = highs
      ∧ (closes → t.vda.underClosed = true ∧ t.flagged 10 ∧ ∀ c, (rd t.vda.channels c).undervoltage = true
        ∧ (t.channelState c = .disabled ∨ t.channelState c = .lockedOut ∨ t.channelState c = .openLoad))
      ∧ (opens → t.vda.underClosed = false ∧ ∀ c, (rd t.vda.channels c).undervoltage = false)
      ∧ (¬ closes → ¬ opens → t.vda.underClosed = s.vda.underClosed ∧ t.lnk.notices = s.lnk.notices
        ∧ ∀ c, (rd t.vda.channels c).undervoltage = (rd s.vda.channels c).undervoltage)
      ∧ ∀ c, (rd t.vda.channels c).trips = (rd s.vda.channels c).trips
        ∧ (rd t.vda.channels c).thermal = (rd s.vda.channels c).thermal)
    ∧ (closes → exec (.undervoltageGateClose tenths) s = exec (.supplyVoltageSample tenths) s)
    ∧ (¬ closes → exec (.undervoltageGateClose tenths) s = .next s)
    ∧ (opens → exec (.undervoltageGateOpen tenths) s = exec (.supplyVoltageSample tenths) s)
    ∧ (¬ opens → exec (.undervoltageGateOpen tenths) s = .next s))
end

