-- ==== Sys2Proof/Laws/State.lean ====
section
/-! SUPPORT. One lemma per field per update of State: what an update writes and what it leaves. -/

namespace Sys2Proof.Machine

/-! ## modLnk -/

@[simp] theorem State.modLnk_pending (s : State) (g : Lnk → Lnk) : (s.modLnk g).pending = s.pending := rfl
@[simp] theorem State.modLnk_now (s : State) (g : Lnk → Lnk) : (s.modLnk g).now = s.now := rfl
@[simp] theorem State.modLnk_fresh (s : State) (g : Lnk → Lnk) : (s.modLnk g).fresh = s.fresh := rfl
@[simp] theorem State.modLnk_cfg (s : State) (g : Lnk → Lnk) : (s.modLnk g).cfg = s.cfg := rfl
@[simp] theorem State.modLnk_lnk (s : State) (g : Lnk → Lnk) : (s.modLnk g).lnk = g s.lnk := rfl
@[simp] theorem State.modLnk_ilt (s : State) (g : Lnk → Lnk) : (s.modLnk g).ilt = s.ilt := rfl
@[simp] theorem State.modLnk_mot (s : State) (g : Lnk → Lnk) : (s.modLnk g).mot = s.mot := rfl
@[simp] theorem State.modLnk_dsv (s : State) (g : Lnk → Lnk) : (s.modLnk g).dsv = s.dsv := rfl
@[simp] theorem State.modLnk_crn (s : State) (g : Lnk → Lnk) : (s.modLnk g).crn = s.crn := rfl
@[simp] theorem State.modLnk_rlu (s : State) (g : Lnk → Lnk) : (s.modLnk g).rlu = s.rlu := rfl
@[simp] theorem State.modLnk_brk (s : State) (g : Lnk → Lnk) : (s.modLnk g).brk = s.brk := rfl
@[simp] theorem State.modLnk_stc (s : State) (g : Lnk → Lnk) : (s.modLnk g).stc = s.stc := rfl
@[simp] theorem State.modLnk_vda (s : State) (g : Lnk → Lnk) : (s.modLnk g).vda = s.vda := rfl

/-! ## modIlt -/

@[simp] theorem State.modIlt_pending (s : State) (g : Ilt → Ilt) : (s.modIlt g).pending = s.pending := rfl
@[simp] theorem State.modIlt_now (s : State) (g : Ilt → Ilt) : (s.modIlt g).now = s.now := rfl
@[simp] theorem State.modIlt_fresh (s : State) (g : Ilt → Ilt) : (s.modIlt g).fresh = s.fresh := rfl
@[simp] theorem State.modIlt_cfg (s : State) (g : Ilt → Ilt) : (s.modIlt g).cfg = s.cfg := rfl
@[simp] theorem State.modIlt_lnk (s : State) (g : Ilt → Ilt) : (s.modIlt g).lnk = s.lnk := rfl
@[simp] theorem State.modIlt_ilt (s : State) (g : Ilt → Ilt) : (s.modIlt g).ilt = g s.ilt := rfl
@[simp] theorem State.modIlt_mot (s : State) (g : Ilt → Ilt) : (s.modIlt g).mot = s.mot := rfl
@[simp] theorem State.modIlt_dsv (s : State) (g : Ilt → Ilt) : (s.modIlt g).dsv = s.dsv := rfl
@[simp] theorem State.modIlt_crn (s : State) (g : Ilt → Ilt) : (s.modIlt g).crn = s.crn := rfl
@[simp] theorem State.modIlt_rlu (s : State) (g : Ilt → Ilt) : (s.modIlt g).rlu = s.rlu := rfl
@[simp] theorem State.modIlt_brk (s : State) (g : Ilt → Ilt) : (s.modIlt g).brk = s.brk := rfl
@[simp] theorem State.modIlt_stc (s : State) (g : Ilt → Ilt) : (s.modIlt g).stc = s.stc := rfl
@[simp] theorem State.modIlt_vda (s : State) (g : Ilt → Ilt) : (s.modIlt g).vda = s.vda := rfl

/-! ## modMot -/

@[simp] theorem State.modMot_pending (s : State) (g : Mot → Mot) : (s.modMot g).pending = s.pending := rfl
@[simp] theorem State.modMot_now (s : State) (g : Mot → Mot) : (s.modMot g).now = s.now := rfl
@[simp] theorem State.modMot_fresh (s : State) (g : Mot → Mot) : (s.modMot g).fresh = s.fresh := rfl
@[simp] theorem State.modMot_cfg (s : State) (g : Mot → Mot) : (s.modMot g).cfg = s.cfg := rfl
@[simp] theorem State.modMot_lnk (s : State) (g : Mot → Mot) : (s.modMot g).lnk = s.lnk := rfl
@[simp] theorem State.modMot_ilt (s : State) (g : Mot → Mot) : (s.modMot g).ilt = s.ilt := rfl
@[simp] theorem State.modMot_mot (s : State) (g : Mot → Mot) : (s.modMot g).mot = g s.mot := rfl
@[simp] theorem State.modMot_dsv (s : State) (g : Mot → Mot) : (s.modMot g).dsv = s.dsv := rfl
@[simp] theorem State.modMot_crn (s : State) (g : Mot → Mot) : (s.modMot g).crn = s.crn := rfl
@[simp] theorem State.modMot_rlu (s : State) (g : Mot → Mot) : (s.modMot g).rlu = s.rlu := rfl
@[simp] theorem State.modMot_brk (s : State) (g : Mot → Mot) : (s.modMot g).brk = s.brk := rfl
@[simp] theorem State.modMot_stc (s : State) (g : Mot → Mot) : (s.modMot g).stc = s.stc := rfl
@[simp] theorem State.modMot_vda (s : State) (g : Mot → Mot) : (s.modMot g).vda = s.vda := rfl

/-! ## modDsv -/

@[simp] theorem State.modDsv_pending (s : State) (g : Dsv → Dsv) : (s.modDsv g).pending = s.pending := rfl
@[simp] theorem State.modDsv_now (s : State) (g : Dsv → Dsv) : (s.modDsv g).now = s.now := rfl
@[simp] theorem State.modDsv_fresh (s : State) (g : Dsv → Dsv) : (s.modDsv g).fresh = s.fresh := rfl
@[simp] theorem State.modDsv_cfg (s : State) (g : Dsv → Dsv) : (s.modDsv g).cfg = s.cfg := rfl
@[simp] theorem State.modDsv_lnk (s : State) (g : Dsv → Dsv) : (s.modDsv g).lnk = s.lnk := rfl
@[simp] theorem State.modDsv_ilt (s : State) (g : Dsv → Dsv) : (s.modDsv g).ilt = s.ilt := rfl
@[simp] theorem State.modDsv_mot (s : State) (g : Dsv → Dsv) : (s.modDsv g).mot = s.mot := rfl
@[simp] theorem State.modDsv_dsv (s : State) (g : Dsv → Dsv) : (s.modDsv g).dsv = g s.dsv := rfl
@[simp] theorem State.modDsv_crn (s : State) (g : Dsv → Dsv) : (s.modDsv g).crn = s.crn := rfl
@[simp] theorem State.modDsv_rlu (s : State) (g : Dsv → Dsv) : (s.modDsv g).rlu = s.rlu := rfl
@[simp] theorem State.modDsv_brk (s : State) (g : Dsv → Dsv) : (s.modDsv g).brk = s.brk := rfl
@[simp] theorem State.modDsv_stc (s : State) (g : Dsv → Dsv) : (s.modDsv g).stc = s.stc := rfl
@[simp] theorem State.modDsv_vda (s : State) (g : Dsv → Dsv) : (s.modDsv g).vda = s.vda := rfl

/-! ## modCrn -/

@[simp] theorem State.modCrn_pending (s : State) (g : Crn → Crn) : (s.modCrn g).pending = s.pending := rfl
@[simp] theorem State.modCrn_now (s : State) (g : Crn → Crn) : (s.modCrn g).now = s.now := rfl
@[simp] theorem State.modCrn_fresh (s : State) (g : Crn → Crn) : (s.modCrn g).fresh = s.fresh := rfl
@[simp] theorem State.modCrn_cfg (s : State) (g : Crn → Crn) : (s.modCrn g).cfg = s.cfg := rfl
@[simp] theorem State.modCrn_lnk (s : State) (g : Crn → Crn) : (s.modCrn g).lnk = s.lnk := rfl
@[simp] theorem State.modCrn_ilt (s : State) (g : Crn → Crn) : (s.modCrn g).ilt = s.ilt := rfl
@[simp] theorem State.modCrn_mot (s : State) (g : Crn → Crn) : (s.modCrn g).mot = s.mot := rfl
@[simp] theorem State.modCrn_dsv (s : State) (g : Crn → Crn) : (s.modCrn g).dsv = s.dsv := rfl
@[simp] theorem State.modCrn_crn (s : State) (g : Crn → Crn) : (s.modCrn g).crn = g s.crn := rfl
@[simp] theorem State.modCrn_rlu (s : State) (g : Crn → Crn) : (s.modCrn g).rlu = s.rlu := rfl
@[simp] theorem State.modCrn_brk (s : State) (g : Crn → Crn) : (s.modCrn g).brk = s.brk := rfl
@[simp] theorem State.modCrn_stc (s : State) (g : Crn → Crn) : (s.modCrn g).stc = s.stc := rfl
@[simp] theorem State.modCrn_vda (s : State) (g : Crn → Crn) : (s.modCrn g).vda = s.vda := rfl

/-! ## modRlu -/

@[simp] theorem State.modRlu_pending (s : State) (g : Rlu → Rlu) : (s.modRlu g).pending = s.pending := rfl
@[simp] theorem State.modRlu_now (s : State) (g : Rlu → Rlu) : (s.modRlu g).now = s.now := rfl
@[simp] theorem State.modRlu_fresh (s : State) (g : Rlu → Rlu) : (s.modRlu g).fresh = s.fresh := rfl
@[simp] theorem State.modRlu_cfg (s : State) (g : Rlu → Rlu) : (s.modRlu g).cfg = s.cfg := rfl
@[simp] theorem State.modRlu_lnk (s : State) (g : Rlu → Rlu) : (s.modRlu g).lnk = s.lnk := rfl
@[simp] theorem State.modRlu_ilt (s : State) (g : Rlu → Rlu) : (s.modRlu g).ilt = s.ilt := rfl
@[simp] theorem State.modRlu_mot (s : State) (g : Rlu → Rlu) : (s.modRlu g).mot = s.mot := rfl
@[simp] theorem State.modRlu_dsv (s : State) (g : Rlu → Rlu) : (s.modRlu g).dsv = s.dsv := rfl
@[simp] theorem State.modRlu_crn (s : State) (g : Rlu → Rlu) : (s.modRlu g).crn = s.crn := rfl
@[simp] theorem State.modRlu_rlu (s : State) (g : Rlu → Rlu) : (s.modRlu g).rlu = g s.rlu := rfl
@[simp] theorem State.modRlu_brk (s : State) (g : Rlu → Rlu) : (s.modRlu g).brk = s.brk := rfl
@[simp] theorem State.modRlu_stc (s : State) (g : Rlu → Rlu) : (s.modRlu g).stc = s.stc := rfl
@[simp] theorem State.modRlu_vda (s : State) (g : Rlu → Rlu) : (s.modRlu g).vda = s.vda := rfl

/-! ## modBrk -/

@[simp] theorem State.modBrk_pending (s : State) (g : Brk → Brk) : (s.modBrk g).pending = s.pending := rfl
@[simp] theorem State.modBrk_now (s : State) (g : Brk → Brk) : (s.modBrk g).now = s.now := rfl
@[simp] theorem State.modBrk_fresh (s : State) (g : Brk → Brk) : (s.modBrk g).fresh = s.fresh := rfl
@[simp] theorem State.modBrk_cfg (s : State) (g : Brk → Brk) : (s.modBrk g).cfg = s.cfg := rfl
@[simp] theorem State.modBrk_lnk (s : State) (g : Brk → Brk) : (s.modBrk g).lnk = s.lnk := rfl
@[simp] theorem State.modBrk_ilt (s : State) (g : Brk → Brk) : (s.modBrk g).ilt = s.ilt := rfl
@[simp] theorem State.modBrk_mot (s : State) (g : Brk → Brk) : (s.modBrk g).mot = s.mot := rfl
@[simp] theorem State.modBrk_dsv (s : State) (g : Brk → Brk) : (s.modBrk g).dsv = s.dsv := rfl
@[simp] theorem State.modBrk_crn (s : State) (g : Brk → Brk) : (s.modBrk g).crn = s.crn := rfl
@[simp] theorem State.modBrk_rlu (s : State) (g : Brk → Brk) : (s.modBrk g).rlu = s.rlu := rfl
@[simp] theorem State.modBrk_brk (s : State) (g : Brk → Brk) : (s.modBrk g).brk = g s.brk := rfl
@[simp] theorem State.modBrk_stc (s : State) (g : Brk → Brk) : (s.modBrk g).stc = s.stc := rfl
@[simp] theorem State.modBrk_vda (s : State) (g : Brk → Brk) : (s.modBrk g).vda = s.vda := rfl

/-! ## modStc -/

@[simp] theorem State.modStc_pending (s : State) (g : Stc → Stc) : (s.modStc g).pending = s.pending := rfl
@[simp] theorem State.modStc_now (s : State) (g : Stc → Stc) : (s.modStc g).now = s.now := rfl
@[simp] theorem State.modStc_fresh (s : State) (g : Stc → Stc) : (s.modStc g).fresh = s.fresh := rfl
@[simp] theorem State.modStc_cfg (s : State) (g : Stc → Stc) : (s.modStc g).cfg = s.cfg := rfl
@[simp] theorem State.modStc_lnk (s : State) (g : Stc → Stc) : (s.modStc g).lnk = s.lnk := rfl
@[simp] theorem State.modStc_ilt (s : State) (g : Stc → Stc) : (s.modStc g).ilt = s.ilt := rfl
@[simp] theorem State.modStc_mot (s : State) (g : Stc → Stc) : (s.modStc g).mot = s.mot := rfl
@[simp] theorem State.modStc_dsv (s : State) (g : Stc → Stc) : (s.modStc g).dsv = s.dsv := rfl
@[simp] theorem State.modStc_crn (s : State) (g : Stc → Stc) : (s.modStc g).crn = s.crn := rfl
@[simp] theorem State.modStc_rlu (s : State) (g : Stc → Stc) : (s.modStc g).rlu = s.rlu := rfl
@[simp] theorem State.modStc_brk (s : State) (g : Stc → Stc) : (s.modStc g).brk = s.brk := rfl
@[simp] theorem State.modStc_stc (s : State) (g : Stc → Stc) : (s.modStc g).stc = g s.stc := rfl
@[simp] theorem State.modStc_vda (s : State) (g : Stc → Stc) : (s.modStc g).vda = s.vda := rfl

/-! ## modVda -/

@[simp] theorem State.modVda_pending (s : State) (g : Vda → Vda) : (s.modVda g).pending = s.pending := rfl
@[simp] theorem State.modVda_now (s : State) (g : Vda → Vda) : (s.modVda g).now = s.now := rfl
@[simp] theorem State.modVda_fresh (s : State) (g : Vda → Vda) : (s.modVda g).fresh = s.fresh := rfl
@[simp] theorem State.modVda_cfg (s : State) (g : Vda → Vda) : (s.modVda g).cfg = s.cfg := rfl
@[simp] theorem State.modVda_lnk (s : State) (g : Vda → Vda) : (s.modVda g).lnk = s.lnk := rfl
@[simp] theorem State.modVda_ilt (s : State) (g : Vda → Vda) : (s.modVda g).ilt = s.ilt := rfl
@[simp] theorem State.modVda_mot (s : State) (g : Vda → Vda) : (s.modVda g).mot = s.mot := rfl
@[simp] theorem State.modVda_dsv (s : State) (g : Vda → Vda) : (s.modVda g).dsv = s.dsv := rfl
@[simp] theorem State.modVda_crn (s : State) (g : Vda → Vda) : (s.modVda g).crn = s.crn := rfl
@[simp] theorem State.modVda_rlu (s : State) (g : Vda → Vda) : (s.modVda g).rlu = s.rlu := rfl
@[simp] theorem State.modVda_brk (s : State) (g : Vda → Vda) : (s.modVda g).brk = s.brk := rfl
@[simp] theorem State.modVda_stc (s : State) (g : Vda → Vda) : (s.modVda g).stc = s.stc := rfl
@[simp] theorem State.modVda_vda (s : State) (g : Vda → Vda) : (s.modVda g).vda = g s.vda := rfl

/-! ## modCfg -/

@[simp] theorem State.modCfg_pending (s : State) (g : Cfg → Cfg) : (s.modCfg g).pending = s.pending := rfl
@[simp] theorem State.modCfg_now (s : State) (g : Cfg → Cfg) : (s.modCfg g).now = s.now := rfl
@[simp] theorem State.modCfg_fresh (s : State) (g : Cfg → Cfg) : (s.modCfg g).fresh = s.fresh := rfl
@[simp] theorem State.modCfg_cfg (s : State) (g : Cfg → Cfg) : (s.modCfg g).cfg = g s.cfg := rfl
@[simp] theorem State.modCfg_lnk (s : State) (g : Cfg → Cfg) : (s.modCfg g).lnk = s.lnk := rfl
@[simp] theorem State.modCfg_ilt (s : State) (g : Cfg → Cfg) : (s.modCfg g).ilt = s.ilt := rfl
@[simp] theorem State.modCfg_mot (s : State) (g : Cfg → Cfg) : (s.modCfg g).mot = s.mot := rfl
@[simp] theorem State.modCfg_dsv (s : State) (g : Cfg → Cfg) : (s.modCfg g).dsv = s.dsv := rfl
@[simp] theorem State.modCfg_crn (s : State) (g : Cfg → Cfg) : (s.modCfg g).crn = s.crn := rfl
@[simp] theorem State.modCfg_rlu (s : State) (g : Cfg → Cfg) : (s.modCfg g).rlu = s.rlu := rfl
@[simp] theorem State.modCfg_brk (s : State) (g : Cfg → Cfg) : (s.modCfg g).brk = s.brk := rfl
@[simp] theorem State.modCfg_stc (s : State) (g : Cfg → Cfg) : (s.modCfg g).stc = s.stc := rfl
@[simp] theorem State.modCfg_vda (s : State) (g : Cfg → Cfg) : (s.modCfg g).vda = s.vda := rfl

/-! ## post, advanceTo and the queue -/

@[simp] theorem State.post_pending (n : Notice) (s : State) : (s.post n).pending = s.pending := rfl
@[simp] theorem State.post_now (n : Notice) (s : State) : (s.post n).now = s.now := rfl
@[simp] theorem State.post_fresh (n : Notice) (s : State) : (s.post n).fresh = s.fresh := rfl
@[simp] theorem State.post_cfg (n : Notice) (s : State) : (s.post n).cfg = s.cfg := rfl
@[simp] theorem State.post_ilt (n : Notice) (s : State) : (s.post n).ilt = s.ilt := rfl
@[simp] theorem State.post_mot (n : Notice) (s : State) : (s.post n).mot = s.mot := rfl
@[simp] theorem State.post_dsv (n : Notice) (s : State) : (s.post n).dsv = s.dsv := rfl
@[simp] theorem State.post_crn (n : Notice) (s : State) : (s.post n).crn = s.crn := rfl
@[simp] theorem State.post_rlu (n : Notice) (s : State) : (s.post n).rlu = s.rlu := rfl
@[simp] theorem State.post_brk (n : Notice) (s : State) : (s.post n).brk = s.brk := rfl
@[simp] theorem State.post_stc (n : Notice) (s : State) : (s.post n).stc = s.stc := rfl
@[simp] theorem State.post_vda (n : Notice) (s : State) : (s.post n).vda = s.vda := rfl

@[simp] theorem State.post_lnk_queue (n : Notice) (s : State) : (s.post n).lnk.queue = s.lnk.queue := rfl
@[simp] theorem State.post_lnk_answer (n : Notice) (s : State) : (s.post n).lnk.answer = s.lnk.answer := rfl
@[simp] theorem State.post_lnk_broadcast (n : Notice) (s : State) : (s.post n).lnk.broadcast = s.lnk.broadcast := rfl
@[simp] theorem State.post_lnk_steering (n : Notice) (s : State) : (s.post n).lnk.steering = s.lnk.steering := rfl
@[simp] theorem State.post_lnk_onBus (n : Notice) (s : State) : (s.post n).lnk.onBus = s.lnk.onBus := rfl
@[simp] theorem State.post_lnk_slot (n : Notice) (s : State) : (s.post n).lnk.slot = s.lnk.slot := rfl
@[simp] theorem State.post_lnk_shifting (n : Notice) (s : State) : (s.post n).lnk.shifting = s.lnk.shifting := rfl
@[simp] theorem State.post_lnk_rotation (n : Notice) (s : State) : (s.post n).lnk.rotation = s.lnk.rotation := rfl
@[simp] theorem State.post_lnk_steerCount (n : Notice) (s : State) : (s.post n).lnk.steerCount = s.lnk.steerCount := rfl
@[simp] theorem State.post_lnk_mask (n : Notice) (s : State) : (s.post n).lnk.mask = s.lnk.mask := rfl
@[simp] theorem State.post_lnk_lastBroadcast (n : Notice) (s : State) : (s.post n).lnk.lastBroadcast = s.lnk.lastBroadcast := rfl
@[simp] theorem State.post_lnk_notices (n : Notice) (s : State) :
    (s.post n).lnk.notices = upd s.lnk.notices n.flag (NoticeFlag.take n) := rfl
@[simp] theorem State.post_lnk_attn (n : Notice) (s : State) :
    (s.post n).lnk.attn = attnFor (upd s.lnk.notices n.flag (NoticeFlag.take n)) s.lnk.mask := rfl

@[simp] theorem State.advanceTo_pending (t : Nat) (s : State) : (s.advanceTo t).pending = s.pending := rfl
@[simp] theorem State.advanceTo_now (t : Nat) (s : State) : (s.advanceTo t).now = max s.now t := rfl
@[simp] theorem State.advanceTo_fresh (t : Nat) (s : State) : (s.advanceTo t).fresh = s.fresh := rfl
@[simp] theorem State.advanceTo_cfg (t : Nat) (s : State) : (s.advanceTo t).cfg = s.cfg := rfl
@[simp] theorem State.advanceTo_lnk (t : Nat) (s : State) : (s.advanceTo t).lnk = s.lnk := rfl
@[simp] theorem State.advanceTo_ilt (t : Nat) (s : State) : (s.advanceTo t).ilt = s.ilt := rfl
@[simp] theorem State.advanceTo_mot (t : Nat) (s : State) : (s.advanceTo t).mot = s.mot := rfl
@[simp] theorem State.advanceTo_dsv (t : Nat) (s : State) : (s.advanceTo t).dsv = s.dsv := rfl
@[simp] theorem State.advanceTo_crn (t : Nat) (s : State) : (s.advanceTo t).crn = s.crn := rfl
@[simp] theorem State.advanceTo_rlu (t : Nat) (s : State) : (s.advanceTo t).rlu = s.rlu := rfl
@[simp] theorem State.advanceTo_brk (t : Nat) (s : State) : (s.advanceTo t).brk = s.brk := rfl
@[simp] theorem State.advanceTo_stc (t : Nat) (s : State) : (s.advanceTo t).stc = s.stc := rfl
@[simp] theorem State.advanceTo_vda (t : Nat) (s : State) : (s.advanceTo t).vda = s.vda := rfl

/-! ## The table's operations and the command to a channel -/

@[simp] theorem State.placeEntry_pending (i : Fin 24) (e : Nat → Entry) (s : State) : (s.placeEntry i e).pending = s.pending := by
  rw [State.placeEntry, State.modIlt_pending]
@[simp] theorem State.placeEntry_now (i : Fin 24) (e : Nat → Entry) (s : State) : (s.placeEntry i e).now = s.now := by
  rw [State.placeEntry, State.modIlt_now]
@[simp] theorem State.placeEntry_fresh (i : Fin 24) (e : Nat → Entry) (s : State) : (s.placeEntry i e).fresh = s.fresh := by
  rw [State.placeEntry, State.modIlt_fresh]
@[simp] theorem State.placeEntry_cfg (i : Fin 24) (e : Nat → Entry) (s : State) : (s.placeEntry i e).cfg = s.cfg := by
  rw [State.placeEntry, State.modIlt_cfg]
@[simp] theorem State.placeEntry_lnk (i : Fin 24) (e : Nat → Entry) (s : State) : (s.placeEntry i e).lnk = s.lnk := by
  rw [State.placeEntry, State.modIlt_lnk]
@[simp] theorem State.placeEntry_mot (i : Fin 24) (e : Nat → Entry) (s : State) : (s.placeEntry i e).mot = s.mot := by
  rw [State.placeEntry, State.modIlt_mot]
@[simp] theorem State.placeEntry_dsv (i : Fin 24) (e : Nat → Entry) (s : State) : (s.placeEntry i e).dsv = s.dsv := by
  rw [State.placeEntry, State.modIlt_dsv]
@[simp] theorem State.placeEntry_crn (i : Fin 24) (e : Nat → Entry) (s : State) : (s.placeEntry i e).crn = s.crn := by
  rw [State.placeEntry, State.modIlt_crn]
@[simp] theorem State.placeEntry_rlu (i : Fin 24) (e : Nat → Entry) (s : State) : (s.placeEntry i e).rlu = s.rlu := by
  rw [State.placeEntry, State.modIlt_rlu]
@[simp] theorem State.placeEntry_brk (i : Fin 24) (e : Nat → Entry) (s : State) : (s.placeEntry i e).brk = s.brk := by
  rw [State.placeEntry, State.modIlt_brk]
@[simp] theorem State.placeEntry_stc (i : Fin 24) (e : Nat → Entry) (s : State) : (s.placeEntry i e).stc = s.stc := by
  rw [State.placeEntry, State.modIlt_stc]
@[simp] theorem State.placeEntry_vda (i : Fin 24) (e : Nat → Entry) (s : State) : (s.placeEntry i e).vda = s.vda := by
  rw [State.placeEntry, State.modIlt_vda]
@[simp] theorem State.updEntry_pending (n : Nat) (g : Entry → Entry) (s : State) : (s.updEntry n g).pending = s.pending := by
  rw [State.updEntry]; split <;> simp only [State.modIlt_pending]
@[simp] theorem State.updEntry_now (n : Nat) (g : Entry → Entry) (s : State) : (s.updEntry n g).now = s.now := by
  rw [State.updEntry]; split <;> simp only [State.modIlt_now]
@[simp] theorem State.updEntry_fresh (n : Nat) (g : Entry → Entry) (s : State) : (s.updEntry n g).fresh = s.fresh := by
  rw [State.updEntry]; split <;> simp only [State.modIlt_fresh]
@[simp] theorem State.updEntry_cfg (n : Nat) (g : Entry → Entry) (s : State) : (s.updEntry n g).cfg = s.cfg := by
  rw [State.updEntry]; split <;> simp only [State.modIlt_cfg]
@[simp] theorem State.updEntry_lnk (n : Nat) (g : Entry → Entry) (s : State) : (s.updEntry n g).lnk = s.lnk := by
  rw [State.updEntry]; split <;> simp only [State.modIlt_lnk]
@[simp] theorem State.updEntry_mot (n : Nat) (g : Entry → Entry) (s : State) : (s.updEntry n g).mot = s.mot := by
  rw [State.updEntry]; split <;> simp only [State.modIlt_mot]
@[simp] theorem State.updEntry_dsv (n : Nat) (g : Entry → Entry) (s : State) : (s.updEntry n g).dsv = s.dsv := by
  rw [State.updEntry]; split <;> simp only [State.modIlt_dsv]
@[simp] theorem State.updEntry_crn (n : Nat) (g : Entry → Entry) (s : State) : (s.updEntry n g).crn = s.crn := by
  rw [State.updEntry]; split <;> simp only [State.modIlt_crn]
@[simp] theorem State.updEntry_rlu (n : Nat) (g : Entry → Entry) (s : State) : (s.updEntry n g).rlu = s.rlu := by
  rw [State.updEntry]; split <;> simp only [State.modIlt_rlu]
@[simp] theorem State.updEntry_brk (n : Nat) (g : Entry → Entry) (s : State) : (s.updEntry n g).brk = s.brk := by
  rw [State.updEntry]; split <;> simp only [State.modIlt_brk]
@[simp] theorem State.updEntry_stc (n : Nat) (g : Entry → Entry) (s : State) : (s.updEntry n g).stc = s.stc := by
  rw [State.updEntry]; split <;> simp only [State.modIlt_stc]
@[simp] theorem State.updEntry_vda (n : Nat) (g : Entry → Entry) (s : State) : (s.updEntry n g).vda = s.vda := by
  rw [State.updEntry]; split <;> simp only [State.modIlt_vda]
@[simp] theorem State.dropEntry_pending (n : Nat) (s : State) : (s.dropEntry n).pending = s.pending := by
  rw [State.dropEntry]; split
  · split <;> simp only [State.modIlt_pending]
  · rfl
@[simp] theorem State.dropEntry_now (n : Nat) (s : State) : (s.dropEntry n).now = s.now := by
  rw [State.dropEntry]; split
  · split <;> simp only [State.modIlt_now]
  · rfl
@[simp] theorem State.dropEntry_fresh (n : Nat) (s : State) : (s.dropEntry n).fresh = s.fresh := by
  rw [State.dropEntry]; split
  · split <;> simp only [State.modIlt_fresh]
  · rfl
@[simp] theorem State.dropEntry_cfg (n : Nat) (s : State) : (s.dropEntry n).cfg = s.cfg := by
  rw [State.dropEntry]; split
  · split <;> simp only [State.modIlt_cfg]
  · rfl
@[simp] theorem State.dropEntry_lnk (n : Nat) (s : State) : (s.dropEntry n).lnk = s.lnk := by
  rw [State.dropEntry]; split
  · split <;> simp only [State.modIlt_lnk]
  · rfl
@[simp] theorem State.dropEntry_mot (n : Nat) (s : State) : (s.dropEntry n).mot = s.mot := by
  rw [State.dropEntry]; split
  · split <;> simp only [State.modIlt_mot]
  · rfl
@[simp] theorem State.dropEntry_dsv (n : Nat) (s : State) : (s.dropEntry n).dsv = s.dsv := by
  rw [State.dropEntry]; split
  · split <;> simp only [State.modIlt_dsv]
  · rfl
@[simp] theorem State.dropEntry_crn (n : Nat) (s : State) : (s.dropEntry n).crn = s.crn := by
  rw [State.dropEntry]; split
  · split <;> simp only [State.modIlt_crn]
  · rfl
@[simp] theorem State.dropEntry_rlu (n : Nat) (s : State) : (s.dropEntry n).rlu = s.rlu := by
  rw [State.dropEntry]; split
  · split <;> simp only [State.modIlt_rlu]
  · rfl
@[simp] theorem State.dropEntry_brk (n : Nat) (s : State) : (s.dropEntry n).brk = s.brk := by
  rw [State.dropEntry]; split
  · split <;> simp only [State.modIlt_brk]
  · rfl
@[simp] theorem State.dropEntry_stc (n : Nat) (s : State) : (s.dropEntry n).stc = s.stc := by
  rw [State.dropEntry]; split
  · split <;> simp only [State.modIlt_stc]
  · rfl
@[simp] theorem State.dropEntry_vda (n : Nat) (s : State) : (s.dropEntry n).vda = s.vda := by
  rw [State.dropEntry]; split
  · split <;> simp only [State.modIlt_vda]
  · rfl

end Sys2Proof.Machine
end

