-- ==== Sys2Proof/Laws/Corners.lean ====
section
/-! SUPPORT. What a command to a valve channel and what the settling of the corners do (R90 to R92, R161, R162): they change the
records of the channels, the corners and the fill queue, and nothing else. -/

namespace Sys2Proof.Machine

theorem Channel.take_command (now value : Nat) (c : Channel) : (c.take now value).command = value := by
  unfold Channel.take Channel.follow Channel.switchOn Channel.switchOff
  grind

theorem command_eq (ch : Fin 18) (v : Nat) (s : State) :
    s.command ch v = { s with vda := { s.vda with channels := upd s.vda.channels ch (Channel.take s.now v) } } := rfl

@[simp] theorem command_pending (ch : Fin 18) (v : Nat) (s : State) : (s.command ch v).pending = s.pending := by
  rw [State.command, State.modVda_pending]
@[simp] theorem command_now (ch : Fin 18) (v : Nat) (s : State) : (s.command ch v).now = s.now := by
  rw [State.command, State.modVda_now]
@[simp] theorem command_fresh (ch : Fin 18) (v : Nat) (s : State) : (s.command ch v).fresh = s.fresh := by
  rw [State.command, State.modVda_fresh]
@[simp] theorem command_cfg (ch : Fin 18) (v : Nat) (s : State) : (s.command ch v).cfg = s.cfg := by
  rw [State.command, State.modVda_cfg]
@[simp] theorem command_lnk (ch : Fin 18) (v : Nat) (s : State) : (s.command ch v).lnk = s.lnk := by
  rw [State.command, State.modVda_lnk]
@[simp] theorem command_ilt (ch : Fin 18) (v : Nat) (s : State) : (s.command ch v).ilt = s.ilt := by
  rw [State.command, State.modVda_ilt]
@[simp] theorem command_mot (ch : Fin 18) (v : Nat) (s : State) : (s.command ch v).mot = s.mot := by
  rw [State.command, State.modVda_mot]
@[simp] theorem command_dsv (ch : Fin 18) (v : Nat) (s : State) : (s.command ch v).dsv = s.dsv := by
  rw [State.command, State.modVda_dsv]
@[simp] theorem command_crn (ch : Fin 18) (v : Nat) (s : State) : (s.command ch v).crn = s.crn := by
  rw [State.command, State.modVda_crn]
@[simp] theorem command_rlu (ch : Fin 18) (v : Nat) (s : State) : (s.command ch v).rlu = s.rlu := by
  rw [State.command, State.modVda_rlu]
@[simp] theorem command_brk (ch : Fin 18) (v : Nat) (s : State) : (s.command ch v).brk = s.brk := by
  rw [State.command, State.modVda_brk]
@[simp] theorem command_stc (ch : Fin 18) (v : Nat) (s : State) : (s.command ch v).stc = s.stc := by
  rw [State.command, State.modVda_stc]

theorem rd_command (ch d : Fin 18) (v : Nat) (s : State) :
    rd (s.command ch v).vda.channels d =
      if ch = d then Channel.take s.now v (rd s.vda.channels d) else rd s.vda.channels d := by
  show rd (upd s.vda.channels ch (Channel.take s.now v)) d = _
  rw [rd_upd]
  split
  · rename_i e; rw [e]
  · rfl

/-- The commands to the corner valves change the records of the valve channels alone. -/
theorem commandCorners_eq (s : State) : ∃ v, s.commandCorners = { s with vda := v } := by
  refine ⟨s.commandCorners.vda, ?_⟩
  have all : ∀ (l : List (Fin 6)) (u : State),
      l.foldl (fun s c => s.commandCorner c) u = { u with vda := (l.foldl (fun s c => s.commandCorner c) u).vda } := by
    intro l
    induction l with
    | nil => exact fun _ => rfl
    | cons c l ih => intro u; rw [List.foldl_cons, ih]; rfl
  unfold State.commandCorners
  rw [all]
  rfl

theorem settle_eq (s : State) : ∃ v, Crn.settle s = { s with crn := s.crn.leaveQueue.grant, vda := v } := by
  obtain ⟨v, h⟩ := commandCorners_eq (s.modCrn fun x => x.leaveQueue.grant)
  exact ⟨v, h⟩

@[simp] theorem settle_pending (s : State) : (Crn.settle s).pending = s.pending := by
  obtain ⟨v, h⟩ := settle_eq s; rw [h]
@[simp] theorem settle_now (s : State) : (Crn.settle s).now = s.now := by
  obtain ⟨v, h⟩ := settle_eq s; rw [h]
@[simp] theorem settle_fresh (s : State) : (Crn.settle s).fresh = s.fresh := by
  obtain ⟨v, h⟩ := settle_eq s; rw [h]
@[simp] theorem settle_cfg (s : State) : (Crn.settle s).cfg = s.cfg := by
  obtain ⟨v, h⟩ := settle_eq s; rw [h]
@[simp] theorem settle_lnk (s : State) : (Crn.settle s).lnk = s.lnk := by
  obtain ⟨v, h⟩ := settle_eq s; rw [h]
@[simp] theorem settle_ilt (s : State) : (Crn.settle s).ilt = s.ilt := by
  obtain ⟨v, h⟩ := settle_eq s; rw [h]
@[simp] theorem settle_mot (s : State) : (Crn.settle s).mot = s.mot := by
  obtain ⟨v, h⟩ := settle_eq s; rw [h]
@[simp] theorem settle_dsv (s : State) : (Crn.settle s).dsv = s.dsv := by
  obtain ⟨v, h⟩ := settle_eq s; rw [h]
@[simp] theorem settle_crn (s : State) : (Crn.settle s).crn = s.crn.leaveQueue.grant := by
  obtain ⟨v, h⟩ := settle_eq s; rw [h]
@[simp] theorem settle_rlu (s : State) : (Crn.settle s).rlu = s.rlu := by
  obtain ⟨v, h⟩ := settle_eq s; rw [h]
@[simp] theorem settle_brk (s : State) : (Crn.settle s).brk = s.brk := by
  obtain ⟨v, h⟩ := settle_eq s; rw [h]
@[simp] theorem settle_stc (s : State) : (Crn.settle s).stc = s.stc := by
  obtain ⟨v, h⟩ := settle_eq s; rw [h]

theorem bit_eq (b : Bool) : bit b = if b = true then 1 else 0 := by cases b <;> rfl

theorem fillChannel_ne {c d : Fin 6} (h : c ≠ d) : fillChannel c ≠ fillChannel d := by
  intro e
  have := congrArg Fin.val e
  simp only [fillChannel] at this
  exact h (Fin.ext this)

theorem exhaustChannel_ne {c d : Fin 6} (h : c ≠ d) : exhaustChannel c ≠ exhaustChannel d := by
  intro e
  have := congrArg Fin.val e
  simp only [exhaustChannel] at this
  exact h (Fin.ext (by omega))

theorem exhaust_ne_fill (c d : Fin 6) : exhaustChannel c ≠ fillChannel d := by
  intro e
  have := congrArg Fin.val e
  simp only [exhaustChannel, fillChannel] at this
  omega

/-- The two commands of one corner. -/
theorem commandCorner_commands (c : Fin 6) (s : State) (d : Fin 18) :
    (rd (s.commandCorner c).vda.channels d).command =
      if exhaustChannel c = d then bit (decide ((rd s.crn.corners c).state = .exhausting))
      else if fillChannel c = d then bit (decide ((rd s.crn.corners c).state = .filling))
      else (rd s.vda.channels d).command := by
  simp only [State.commandCorner, rd_command]
  split
  · exact Channel.take_command _ _ _
  · split
    · exact Channel.take_command _ _ _
    · rfl

theorem foldCorners_crn (l : List (Fin 6)) (s : State) : (l.foldl (fun s c => s.commandCorner c) s).crn = s.crn := by
  induction l generalizing s with
  | nil => rfl
  | cons c l ih => rw [List.foldl_cons, ih]; rfl

theorem foldCorners_other (l : List (Fin 6)) (s : State) (d : Fin 18)
    (h : ∀ c ∈ l, fillChannel c ≠ d ∧ exhaustChannel c ≠ d) :
    (rd (l.foldl (fun s c => s.commandCorner c) s).vda.channels d).command = (rd s.vda.channels d).command := by
  induction l generalizing s with
  | nil => rfl
  | cons c l ih =>
    rw [List.foldl_cons, ih _ fun e he => h e (List.mem_cons_of_mem _ he), commandCorner_commands,
      if_neg (h c List.mem_cons_self).2, if_neg (h c List.mem_cons_self).1]

theorem foldCorners_commands (l : List (Fin 6)) (s : State) (c : Fin 6) (h : c ∈ l) :
    (rd (l.foldl (fun s c => s.commandCorner c) s).vda.channels (fillChannel c)).command =
        bit (decide ((rd s.crn.corners c).state = .filling))
      ∧ (rd (l.foldl (fun s c => s.commandCorner c) s).vda.channels (exhaustChannel c)).command =
        bit (decide ((rd s.crn.corners c).state = .exhausting)) := by
  induction l generalizing s with
  | nil => exact absurd h (by simp)
  | cons a l ih =>
    by_cases k : c ∈ l
    · exact ih (s.commandCorner a) k
    · have e : c = a := by
        rcases List.mem_cons.mp h with e | e
        · exact e
        · exact absurd e k
      subst e
      have other : ∀ e ∈ l, e ≠ c := fun e he x => k (x ▸ he)
      constructor
      · rw [List.foldl_cons, foldCorners_other l _ _ fun e he => ⟨fillChannel_ne (other e he), exhaust_ne_fill e c⟩,
          commandCorner_commands, if_neg (exhaust_ne_fill c c), if_pos rfl]
      · rw [List.foldl_cons, foldCorners_other l _ _ fun e he =>
            ⟨(exhaust_ne_fill c e).symm, exhaustChannel_ne (other e he)⟩, commandCorner_commands, if_pos rfl]

theorem fillChannel_lt (c : Fin 6) : fillChannel c ≠ supplyChannel ∧ exhaustChannel c ≠ supplyChannel := by
  constructor <;> intro e <;> have := congrArg Fin.val e <;>
    simp only [fillChannel, exhaustChannel, supplyChannel] at this <;> omega

/-- R90, R92: the command of each corner valve and of SI1 after they are handed. -/
theorem commandCorners_commands (s : State) :
    (∀ c, (rd s.commandCorners.vda.channels (fillChannel c)).command = bit (decide ((rd s.crn.corners c).state = .filling)))
    ∧ (∀ c, (rd s.commandCorners.vda.channels (exhaustChannel c)).command =
        bit (decide ((rd s.crn.corners c).state = .exhausting)))
    ∧ (rd s.commandCorners.vda.channels supplyChannel).command = bit (decide (0 < s.crn.fillingCount)) := by
  simp only [State.commandCorners, rd_command]
  refine ⟨fun c => ?_, fun c => ?_, ?_⟩
  · rw [if_neg (fillChannel_lt c).1.symm]
    exact (foldCorners_commands _ s c (List.mem_finRange c)).1
  · rw [if_neg (fillChannel_lt c).2.symm]
    exact (foldCorners_commands _ s c (List.mem_finRange c)).2
  · rw [if_pos trivial, Channel.take_command]

/-- The commands of the other channels stand. -/
theorem commandCorners_other (s : State) (d : Fin 18) (h : 13 ≤ d.val) :
    (rd s.commandCorners.vda.channels d).command = (rd s.vda.channels d).command := by
  have hs : supplyChannel ≠ d := by
    intro e
    rw [← e] at h
    exact absurd h (by decide)
  simp only [State.commandCorners, rd_command]
  rw [if_neg hs, foldCorners_other]
  intro c _
  constructor <;> intro e <;> rw [← e] at h <;> simp only [fillChannel, exhaustChannel] at h <;> omega

end Sys2Proof.Machine
end

