-- ==== Sys2Proof/Laws/Moves.lean ====
section
/-! SUPPORT. What the shared operations can do to the state, said once: each is a chain of elementary moves. A property that every
elementary move keeps is kept by all of them. -/

namespace Sys2Proof.Machine

/-! ## Elementary moves -/

/-- What never changes in a live entry (R21, R23, R26). -/
structure Entry.SameIdentity (e f : Entry) : Prop where
  handle : f.handle = e.handle
  kind : f.kind = e.kind
  owner : f.owner = e.owner
  authority : f.authority = e.authority
  scope : f.scope = e.scope
  parameter : e.parameterFits → f.parameterFits

/-- Change every live entry by its slot. -/
def State.touch (f : Fin 24 → Entry → Entry) (s : State) : State :=
  s.modIlt fun t => { t with slots := mapF t.slots fun i x => { x with entry := x.entry.map (f i) } }

@[simp] theorem State.touch_pending (g : Fin 24 → Entry → Entry) (s : State) : (s.touch g).pending = s.pending := by
  rw [State.touch, State.modIlt_pending]
@[simp] theorem State.touch_now (g : Fin 24 → Entry → Entry) (s : State) : (s.touch g).now = s.now := by
  rw [State.touch, State.modIlt_now]
@[simp] theorem State.touch_fresh (g : Fin 24 → Entry → Entry) (s : State) : (s.touch g).fresh = s.fresh := by
  rw [State.touch, State.modIlt_fresh]
@[simp] theorem State.touch_cfg (g : Fin 24 → Entry → Entry) (s : State) : (s.touch g).cfg = s.cfg := by
  rw [State.touch, State.modIlt_cfg]
@[simp] theorem State.touch_lnk (g : Fin 24 → Entry → Entry) (s : State) : (s.touch g).lnk = s.lnk := by
  rw [State.touch, State.modIlt_lnk]
@[simp] theorem State.touch_mot (g : Fin 24 → Entry → Entry) (s : State) : (s.touch g).mot = s.mot := by
  rw [State.touch, State.modIlt_mot]
@[simp] theorem State.touch_dsv (g : Fin 24 → Entry → Entry) (s : State) : (s.touch g).dsv = s.dsv := by
  rw [State.touch, State.modIlt_dsv]
@[simp] theorem State.touch_crn (g : Fin 24 → Entry → Entry) (s : State) : (s.touch g).crn = s.crn := by
  rw [State.touch, State.modIlt_crn]
@[simp] theorem State.touch_rlu (g : Fin 24 → Entry → Entry) (s : State) : (s.touch g).rlu = s.rlu := by
  rw [State.touch, State.modIlt_rlu]
@[simp] theorem State.touch_brk (g : Fin 24 → Entry → Entry) (s : State) : (s.touch g).brk = s.brk := by
  rw [State.touch, State.modIlt_brk]
@[simp] theorem State.touch_stc (g : Fin 24 → Entry → Entry) (s : State) : (s.touch g).stc = s.stc := by
  rw [State.touch, State.modIlt_stc]
@[simp] theorem State.touch_vda (g : Fin 24 → Entry → Entry) (s : State) : (s.touch g).vda = s.vda := by
  rw [State.touch, State.modIlt_vda]

/-- What an entry needs to be placed in a slot (R19, R21, R25, R38, R54). -/
structure State.Placeable (s : State) (slot : Fin 24) (e : Nat → Entry) : Prop where
  free : (rd s.ilt.slots slot).entry = none
  handle : ∀ h, (e h).handle = h
  owner : ∀ h, (e h).owner = 15 ↔ 18 ≤ slot.val
  parameter : ∀ h, (e h).parameterFits
  alone : ∀ h, ∀ x ∈ s.live, ¬(x.kind = (e h).kind ∧ x.owner = (e h).owner ∧ x.scope = (e h).scope)

/-- A corner does not start to fill, and does not change its place in or out of the fill queue. -/
def Crn.Quiet (x y : Crn) : Prop := y.queue = x.queue ∧ ∀ c, (rd y.corners c).state = (rd x.corners c).state

/-- No corner starts to fill. -/
def Crn.NoNewFill (x y : Crn) : Prop := ∀ c, (rd y.corners c).state = .filling → (rd x.corners c).state = .filling

/-- The elementary moves of the shared operations. -/
inductive Move : State → State → Prop where
  | post (n : Notice) (s : State) : Move s (s.post n)
  | touch (f : Fin 24 → Entry → Entry) (s : State)
      (h : ∀ i (e : Entry), (rd s.ilt.slots i).entry = some e → e.SameIdentity (f i e)) : Move s (s.touch f)
  | drop (handle : Nat) (s : State) : Move s (s.dropEntry handle)
  | place (slot : Fin 24) (e : Nat → Entry) (s : State) (h : s.Placeable slot e)
      (hk : ∀ n, (e n).kind.names (e n).scope) : Move s (s.placeEntry slot e)
  | dsv (f : Dsv → Dsv) (s : State)
      (h : ∀ d, (rd (f s.dsv).doors d).contact = (rd s.dsv.doors d).contact) (hf : (f s.dsv).fbl = s.dsv.fbl) :
      Move s (s.modDsv f)
  | crn (f : Crn → Crn) (s : State) (h : Crn.Quiet s.crn (f s.crn)) : Move s (s.modCrn f)
  | settle (f : Crn → Crn) (s : State) (h : Crn.NoNewFill s.crn (f s.crn)) : Move s (Crn.settle (s.modCrn f))
  | rlu (f : Rlu → Rlu) (s : State) (h : s.rlu.TargetsFit → (f s.rlu).TargetsFit) : Move s (s.modRlu f)
  | brk (f : Brk → Brk) (s : State) : Move s (s.modBrk f)
  | stc (f : Stc → Stc) (s : State) (h : (f s.stc).bankA = s.stc.bankA ∧ (f s.stc).bankB = s.stc.bankB) : Move s (s.modStc f)
  | command (ch : Fin 18) (v : Nat) (s : State) (h : 13 ≤ ch.val) : Move s (s.command ch v)

/-- A chain of elementary moves. -/
inductive Evolves (s : State) : State → Prop where
  | refl : Evolves s s
  | tail {t u : State} (h : Evolves s t) (m : Move t u) : Evolves s u

theorem Evolves.trans {s t u : State} (h : Evolves s t) (k : Evolves t u) : Evolves s u := by
  induction k with
  | refl => exact h
  | tail _ m ih => exact ih.tail m

variable {a s : State}

theorem ev_post (n : Notice) (h : Evolves a s) : Evolves a (s.post n) := h.tail (.post n s)

theorem ev_touch (f : Fin 24 → Entry → Entry) (hf : ∀ i (e : Entry), e.SameIdentity (f i e)) (h : Evolves a s) :
    Evolves a (s.touch f) := h.tail (.touch f s fun i e _ => hf i e)

theorem ev_drop (handle : Nat) (h : Evolves a s) : Evolves a (s.dropEntry handle) := h.tail (.drop handle s)

theorem ev_rlu (f : Rlu → Rlu) (hf : ∀ r : Rlu, r.TargetsFit → (f r).TargetsFit) (h : Evolves a s) : Evolves a (s.modRlu f) :=
  h.tail (.rlu f s (hf _))

theorem ev_brk (f : Brk → Brk) (h : Evolves a s) : Evolves a (s.modBrk f) := h.tail (.brk f s)

theorem ev_stc (f : Stc → Stc) (hf : ∀ x, (f x).bankA = x.bankA ∧ (f x).bankB = x.bankB) (h : Evolves a s) :
    Evolves a (s.modStc f) := h.tail (.stc f s (hf _))

theorem ev_crn (f : Crn → Crn) (hf : ∀ x, Crn.Quiet x (f x)) (h : Evolves a s) : Evolves a (s.modCrn f) :=
  h.tail (.crn f s (hf _))

theorem ev_settle (f : Crn → Crn) (hf : Crn.NoNewFill s.crn (f s.crn)) (h : Evolves a s) : Evolves a (Crn.settle (s.modCrn f)) :=
  h.tail (.settle f s hf)

theorem ev_dsv (f : Dsv → Dsv) (hc : ∀ x d, (rd (f x).doors d).contact = (rd x.doors d).contact)
    (hf : ∀ x, (f x).fbl = x.fbl) (h : Evolves a s) : Evolves a (s.modDsv f) :=
  h.tail (.dsv f s (hc _) (hf _))

theorem ev_command (ch : Fin 18) (v : Nat) (hc : 13 ≤ ch.val) (h : Evolves a s) : Evolves a (s.command ch v) :=
  h.tail (.command ch v s hc)

/-- A choice between two continuations. -/
theorem ev_ite {p : Prop} [Decidable p] {t u : State} (h : Evolves a t) (k : Evolves a u) : Evolves a (if p then t else u) := by
  split <;> assumption

/-- A fold of operations that each evolve. -/
theorem ev_foldl {α : Type} (l : List α) (f : State → α → State) (hf : ∀ s x, Evolves a s → Evolves a (f s x))
    (h : Evolves a s) : Evolves a (l.foldl f s) := by
  induction l generalizing s with
  | nil => exact h
  | cons x l ih => exact ih (hf _ _ h)

/-! ## Corners -/

theorem Corner.gain_filling (r : FreezeReason) (c : Corner) (h : (c.gain r).state = .filling) : c.state = .filling := by
  unfold Corner.gain at h
  grind [Corner.enter]

theorem Corner.lose_filling (r : FreezeReason) (c : Corner) (h : (c.lose r).state = .filling) : c.state = .filling := by
  unfold Corner.lose at h
  grind [Corner.enter]

theorem Corner.judge_filling (r : FreezeReason) (b : Bool) (c : Corner) (h : (c.judge r b).state = .filling) :
    c.state = .filling := by
  unfold Corner.judge at h
  split at h
  · exact c.gain_filling r h
  · exact c.lose_filling r h

theorem ev_crnChange (f : Fin 6 → Corner → Corner) (hf : ∀ c x, (f c x).state = .filling → x.state = .filling)
    (h : Evolves a s) : Evolves a (Crn.change f s) :=
  ev_settle _ (fun c hc => hf c _ (by simpa using hc)) h

theorem ev_changeOne (c : Fin 6) (f : Corner → Corner) (hf : ∀ x, (f x).state = .filling → x.state = .filling)
    (h : Evolves a s) : Evolves a (Crn.changeOne c f s) := by
  refine ev_settle _ (fun d hd => ?_) h
  simp only [rd_upd] at hd
  split at hd
  · rename_i e; subst e; exact hf _ hd
  · exact hd

theorem ev_crnFromTable (h : Evolves a s) : Evolves a (Crn.fromTable s) :=
  ev_crnChange _ (fun _ _ hc => Corner.judge_filling _ _ _ (Corner.judge_filling _ _ _ hc)) h

theorem ev_fromChannels (h : Evolves a s) : Evolves a (Crn.fromChannels s) :=
  ev_crnChange _ (fun _ _ hc => Corner.judge_filling _ _ _ hc) h

theorem ev_fromDevice (h : Evolves a s) : Evolves a (Crn.fromDevice s) :=
  ev_crnChange _ (fun _ _ hc => Corner.judge_filling _ _ _ hc) h

theorem ev_gateOpen (b : Bool) (h : Evolves a s) : Evolves a (s.modCrn fun x => { x with gateOpen := b }) :=
  ev_crn _ (fun _ => ⟨rfl, fun _ => rfl⟩) h

theorem ev_closeGate (h : Evolves a s) : Evolves a (Crn.closeGate s) := by
  have k : Evolves a (Crn.change (fun _ c => if c.state = .fillWait ∨ c.state = .filling then c.gain .supply else c)
      (s.modCrn fun x => { x with gateOpen := false })) := by
    refine ev_crnChange _ (fun _ x hc => ?_) (ev_gateOpen false h)
    split at hc
    · exact x.gain_filling _ hc
    · exact hc
  unfold Crn.closeGate
  exact ev_ite (ev_post _ k) k

theorem ev_openGate (h : Evolves a s) : Evolves a (Crn.openGate s) :=
  ev_crnChange _ (fun _ x hc => x.lose_filling _ hc) (ev_gateOpen true h)

theorem ev_judgeGate (h : Evolves a s) : Evolves a (Crn.judgeGate s) :=
  ev_ite (ev_ite (ev_closeGate h) h) (ev_ite (ev_openGate h) h)

theorem ev_crnFault (c : Fin 6) (r : CornerFault) (h : Evolves a s) : Evolves a (Crn.fault c r s) :=
  ev_ite (ev_post _ (ev_changeOne _ _ (fun _ hx => by simp [Corner.enter] at hx) h)) h

theorem ev_judgeCauses (h : Evolves a s) : Evolves a (Crn.judgeCauses s) := by
  refine ev_foldl _ _ (fun s c k => ?_) h
  split
  · exact ev_crnFault _ _ k
  · exact k

theorem ev_clearFault (c : Fin 6) (h : Evolves a s) : Evolves a (Crn.clearFault c s) :=
  ev_changeOne _ _ (fun x hx => by
    simp only [Corner.enter] at hx
    split at hx <;> exact absurd hx (by simp)) h

theorem ev_crnAct (c : Fin 6) (h : Evolves a s) : Evolves a (Crn.act c s) := by
  unfold Crn.act
  split
  · exact h
  · exact ev_changeOne _ _ (fun _ hx => by simp [Corner.enter] at hx) h
  · refine ev_ite ?_ (ev_changeOne _ _ (fun x hx => x.gain_filling _ hx) h)
    refine ev_settle (s := s)
      (fun x => { x with corners := upd x.corners c (Corner.enter .fillWait), queue := x.queue ++ [c] }) (fun d hd => ?_) h
    simp only [rd_upd] at hd
    split at hd
    · exact absurd hd (by simp [Corner.enter])
    · exact hd

theorem quiet_upd (x : Crn) (c : Fin 6) (f : Corner → Corner) (hf : ∀ y, (f y).state = y.state) :
    Crn.Quiet x { x with corners := upd x.corners c f } := by
  refine ⟨rfl, fun d => ?_⟩
  simp only [rd_upd]
  split
  · rename_i e; subst e; exact hf _
  · rfl

theorem Corner.qualify_state (d : Int) (c : Corner) : (c.qualify d).state = c.state := by
  unfold Corner.qualify; split
  · rfl
  · split <;> rfl

theorem ev_stepInBand (c : Fin 6) (h : Evolves a s) : Evolves a (Crn.stepInBand c s) := by
  have k : Evolves a (s.modCrn fun x => { x with corners := upd x.corners c (Corner.qualify ((rd s.cfg.settings.halfWidth c : Nat) : Int)) }) :=
    ev_crn _ (fun x => quiet_upd x c _ fun y => y.qualify_state _) h
  exact ev_ite (ev_crnAct _ k) k

theorem ev_growAction (c : Fin 6) (r : CornerFault) (h : Evolves a s) : Evolves a (Crn.growAction c r s) := by
  have k := ev_crn (fun x => { x with corners := upd x.corners c fun y => { y with actionTimer := grow 20 8000 y.actionTimer } })
    (fun x => quiet_upd x c _ fun _ => rfl) h
  exact ev_ite (ev_crnFault _ _ k) k

theorem enter_not_filling {st : CornerState} (hs : st ≠ .filling) (x : Corner) (hx : (Corner.enter st x).state = .filling) :
    x.state = .filling := absurd hx hs

theorem ev_judgeNeed (c : Fin 6) (h : Evolves a s) : Evolves a (Crn.judgeNeed c s) :=
  ev_ite (ev_changeOne _ _ (fun x hx => x.lose_filling _ hx) h) h

theorem ev_crnStep (c : Fin 6) (h : Evolves a s) : Evolves a (Crn.step c s) := by
  have back := ev_changeOne (a := a) (s := s) c _ (enter_not_filling (st := .inBand) (by decide)) h
  unfold Crn.step
  split
  · exact ev_stepInBand c h
  · exact ev_ite back h
  · exact ev_ite back (ev_growAction c _ h)
  · exact ev_ite back (ev_growAction c _ h)
  · exact ev_judgeNeed c h
  · exact ev_judgeNeed c h

theorem ev_takeHeights (c : Fin 6) (h : Evolves a s) : Evolves a (Crn.takeHeights c s) :=
  ev_crn _ (fun x => quiet_upd x c _ fun _ => rfl) h

theorem ev_takeLoad (c : Fin 6) (h : Evolves a s) : Evolves a (Crn.takeLoad c s) :=
  ev_ite (ev_crn _ (fun x => quiet_upd x c _ fun _ => rfl) h) h

theorem ev_takeAxle (i : Fin 3) (h : Evolves a s) : Evolves a (Crn.takeAxle i s) :=
  ev_crn _ (fun _ => ⟨rfl, fun _ => rfl⟩) h

theorem ev_crnMeasure (c : Fin 6) (h : Evolves a s) : Evolves a (Crn.measure c s) :=
  ev_changeOne _ _ (fun _ hx => Corner.judge_filling _ _ _ (Corner.judge_filling _ _ _ hx)) (ev_takeHeights _ (ev_judgeGate h))

theorem ev_crnUpdate (c : Fin 6) (h : Evolves a s) : Evolves a (Crn.update c s) :=
  ev_takeAxle _ (ev_takeLoad _ (ev_crnStep _ (ev_crnMeasure _ h)))

theorem ev_forgetLoads (h : Evolves a s) : Evolves a (Crn.forgetLoads s) :=
  ev_crn _ (fun _ => ⟨rfl, fun _ => by simp⟩) h

/-! ## Ride level -/

theorem ev_deriveKneel (h : Evolves a s) : Evolves a (Rlu.deriveKneel s) := ev_rlu _ (fun _ fit => fit) h

theorem ev_judgeCurbLow (h : Evolves a s) : Evolves a (Rlu.judgeCurbLow s) := ev_rlu _ (fun _ fit => fit) h

theorem ev_takeOffsets (ride : Nat) (kneel : Vector Nat 6) (h : Evolves a s) : Evolves a (Rlu.takeOffsets ride kneel s) := by
  refine ev_deriveKneel (ev_judgeCurbLow (ev_crnChange _ (fun c x hx => ?_) (ev_rlu _ (fun _ _ c => ?_) h)))
  · split at hx
    · exact hx
    · exact x.lose_filling _ hx
  · simp only [rd_mapF, cornerTarget, clampInt]

theorem ev_rluFromTable (h : Evolves a s) : Evolves a (Rlu.fromTable s) :=
  ev_ite (ev_rlu _ (fun _ fit => fit) h) (ev_takeOffsets _ _ (ev_rlu _ (fun _ fit => fit) h))

theorem ev_changeWatch (c : Fin 6) (f : StallWatch → StallWatch) (h : Evolves a s) : Evolves a (Rlu.changeWatch c f s) :=
  ev_rlu _ (fun _ fit => fit) h

theorem ev_stall (c : Fin 6) (h : Evolves a s) : Evolves a (Rlu.stall c s) :=
  ev_deriveKneel (ev_post _ (ev_changeOne _ _ (fun x hx => x.gain_filling _ hx) (ev_changeWatch _ _ h)))

theorem ev_endSpan (c : Fin 6) (h : Evolves a s) : Evolves a (Rlu.endSpan c s) :=
  ev_ite (ev_changeWatch _ _ h) (ev_stall _ h)

theorem ev_watch (c : Fin 6) (h : Evolves a s) : Evolves a (Rlu.watch c s) :=
  ev_ite (ev_ite (ev_ite (ev_changeWatch _ _ h) (ev_endSpan _ h)) (ev_changeWatch _ _ h)) (ev_changeWatch _ _ h)

theorem ev_afterUpdate (c : Fin 6) (h : Evolves a s) : Evolves a (Rlu.afterUpdate c s) :=
  ev_deriveKneel (ev_ite (ev_judgeCurbLow (ev_watch _ h)) (ev_watch _ h))

/-! ## Brakes -/

theorem ev_brkCommand (h : Evolves a s) : Evolves a (Brk.command s) :=
  ev_command _ _ (by decide) (ev_command _ _ (by decide) (ev_command _ _ (by decide) h))

theorem ev_raiseFloor (h : Evolves a s) : Evolves a (Brk.raiseFloor s) := ev_brkCommand (ev_brk _ h)

theorem ev_setWindow (b : Bool) (h : Evolves a s) : Evolves a (Brk.setWindow b s) :=
  ev_stc _ (fun _ => ⟨rfl, rfl⟩) (ev_brk _ h)

theorem ev_enterApplying (m : Nat) (h : Evolves a s) : Evolves a (Brk.enterApplying m s) :=
  ev_raiseFloor (ev_setWindow _ (ev_brk _ h))

theorem ev_enterHeld (h : Evolves a s) : Evolves a (Brk.enterHeld s) := ev_brk _ h

theorem ev_enterRamping (h : Evolves a s) : Evolves a (Brk.enterRamping s) :=
  ev_ite (ev_setWindow _ (ev_brk _ (ev_brk _ h))) (ev_brk _ h)

theorem ev_leaveWait (h : Evolves a s) : Evolves a (Brk.leaveWait s) := ev_ite (ev_enterRamping h) h

theorem ev_enterWait (h : Evolves a s) : Evolves a (Brk.enterWait s) := ev_leaveWait (ev_brk _ h)

theorem ev_reapply (m : Nat) (h : Evolves a s) : Evolves a (Brk.reapply m s) :=
  ev_ite (ev_enterHeld (ev_enterApplying _ h)) (ev_enterApplying _ h)

theorem ev_moveTarget (m : Nat) (h : Evolves a s) : Evolves a (Brk.moveTarget m s) :=
  ev_ite h (ev_ite (ev_raiseFloor (ev_brk _ h)) (ev_brk _ h))

theorem ev_brkJudge (h : Evolves a s) : Evolves a (Brk.judge s) := by
  unfold Brk.judge
  split
  · split
    · exact ev_enterApplying _ h
    · exact ev_moveTarget _ h
    · exact ev_moveTarget _ h
    · exact ev_reapply _ h
    · exact ev_reapply _ h
    · exact ev_enterWait h
    · exact ev_enterWait h
    · exact ev_leaveWait h
    · exact h
    · exact h
  · exact h

theorem ev_markDoor (e : Entry) (h : Evolves a s) : Evolves a (Brk.markDoor e s) := ev_ite (ev_brk _ h) h

theorem ev_reportTimeout (h : Evolves a s) : Evolves a (Brk.reportTimeout s) := ev_post _ (ev_brk _ h)

theorem ev_watchUnconfirmed (h : Evolves a s) : Evolves a (Brk.watchUnconfirmed s) :=
  ev_ite h (ev_ite (ev_reportTimeout h) (ev_brk _ h))

theorem ev_judgeApplying (h : Evolves a s) : Evolves a (Brk.judgeApplying s) :=
  ev_ite (ev_enterHeld (ev_brk _ h)) (ev_watchUnconfirmed (ev_brk _ h))

theorem ev_brkLose (h : Evolves a s) : Evolves a (Brk.lose s) := ev_post _ (ev_enterApplying _ h)

theorem ev_judgeHeld (h : Evolves a s) : Evolves a (Brk.judgeHeld s) := ev_ite (ev_brkLose (ev_brk _ h)) (ev_brk _ h)

theorem ev_judgeWindow (h : Evolves a s) : Evolves a (Brk.judgeWindow s) := ev_ite (ev_setWindow _ h) h

theorem ev_judgeHold (h : Evolves a s) : Evolves a (Brk.judgeHold s) := by
  unfold Brk.judgeHold
  split
  · exact ev_judgeApplying h
  · exact ev_judgeHeld h
  all_goals exact h

theorem ev_rampStep (h : Evolves a s) : Evolves a (Brk.rampStep s) := ev_brk _ h

theorem ev_ramp (h : Evolves a s) : Evolves a (Brk.ramp s) := ev_ite (ev_rampStep h) h

theorem ev_formDemands (h : Evolves a s) : Evolves a (Brk.formDemands s) := ev_brk _ h

theorem ev_takeShares (h : Evolves a s) : Evolves a (Brk.takeShares s) := by
  unfold Brk.takeShares
  exact ev_brk _ h

theorem ev_snapshot (h : Evolves a s) : Evolves a (Brk.snapshot s) := ev_brk _ h

theorem ev_brkUpdate (h : Evolves a s) : Evolves a (Brk.update s) := by
  have k : Evolves a (Brk.snapshot (Brk.command (Brk.formDemands (Brk.ramp (Brk.takeShares s))))) :=
    ev_snapshot (ev_brkCommand (ev_formDemands (ev_ramp (ev_takeShares h))))
  exact ev_ite (ev_judgeWindow (ev_judgeHold k)) k

/-! ## The table -/

theorem ev_dsvJudge (h : Evolves a s) : Evolves a (Dsv.judge s) := ev_dsv _ (fun _ _ => by simp) (fun _ => rfl) h

theorem ev_commandLock (h : Evolves a s) : Evolves a (Stc.commandLock s) := ev_command _ _ (by decide) h

theorem ev_startCentring (h : Evolves a s) : Evolves a (Stc.startCentring s) :=
  ev_ite (ev_commandLock (ev_stc _ (fun _ => ⟨rfl, rfl⟩) h)) h

theorem ev_handOff (v : EntryEvent) (e : Entry) (h : Evolves a s) : Evolves a (handOff v e s) := by
  have h1 := ev_ite (p := v = .opened) (ev_markDoor e h) h
  have h2 := ev_ite (p := e.kind.holds = true) (ev_brkJudge h1) h1
  have h3 := ev_ite (p := e.kind.rides = true) (ev_rluFromTable h2) h2
  have h4 := ev_ite (p := e.kind.freezes = true) (ev_crnFromTable h3) h3
  exact ev_ite (p := e.kind = .steerCentre) (ev_startCentring h4) h4

theorem State.modIlt_congr {f g : Ilt → Ilt} (s : State) (h : f s.ilt = g s.ilt) : s.modIlt f = s.modIlt g := by
  simp only [State.modIlt, h]

theorem Slot.map_self (x : Slot) : { x with entry := x.entry.map fun e => e } = x := by
  cases x with
  | mk g e => cases e <;> rfl

theorem State.updEntry_eq_touch (handle : Nat) (f : Entry → Entry) (s : State) :
    s.updEntry handle f = s.touch fun i e =>
      if i.val = handle / 8 ∧ handle % 8 = (rd s.ilt.slots i).generation.val then f e else e := by
  have other : ∀ j : Fin 24, j.val ≠ handle / 8 →
      { rd s.ilt.slots j with entry := (rd s.ilt.slots j).entry.map fun e =>
        if j.val = handle / 8 ∧ handle % 8 = (rd s.ilt.slots j).generation.val then f e else e } = rd s.ilt.slots j := by
    intro j hj
    simp only [hj, false_and, if_false]
    exact Slot.map_self _
  by_cases hlt : handle / 8 < 24
  · simp only [State.updEntry, dif_pos hlt, State.touch]
    refine State.modIlt_congr s ?_
    have key : upd s.ilt.slots ⟨handle / 8, hlt⟩ (fun slot =>
          if handle % 8 = slot.generation.val then { slot with entry := slot.entry.map f } else slot) =
        mapF s.ilt.slots fun i x => { x with entry := x.entry.map fun e =>
          if i.val = handle / 8 ∧ handle % 8 = (rd s.ilt.slots i).generation.val then f e else e } := by
      refine ext_rd fun j => ?_
      rw [rd_upd, rd_mapF]
      by_cases hj : (⟨handle / 8, hlt⟩ : Fin 24) = j
      · rw [if_pos hj]
        subst hj
        by_cases hg : handle % 8 = (rd s.ilt.slots ⟨handle / 8, hlt⟩).generation.val
        · simp only [hg, and_self, if_true]
        · simp only [hg, and_false, if_false]
          exact (Slot.map_self _).symm
      · rw [if_neg hj, other j fun e => hj (Fin.ext e.symm)]
    simp only [key]
  · simp only [State.updEntry, dif_neg hlt, State.touch]
    have key : mapF s.ilt.slots (fun i x => { x with entry := x.entry.map fun e =>
          if i.val = handle / 8 ∧ handle % 8 = (rd s.ilt.slots i).generation.val then f e else e }) = s.ilt.slots := by
      refine ext_rd fun j => ?_
      rw [rd_mapF, other j fun e => hlt (by omega)]
    have id' : s = s.modIlt fun t => t := rfl
    conv_lhs => rw [id']
    refine State.modIlt_congr s ?_
    simp only [key]

theorem Entry.SameIdentity.refl (e : Entry) : e.SameIdentity e := ⟨rfl, rfl, rfl, rfl, rfl, id⟩

/-- The entry in the slot of a handle, with the handle's generation, is the one that the handle resolves to. -/
theorem State.resolve_of_slot {s : State} {handle : Nat} {i : Fin 24} {e : Entry} (hi : i.val = handle / 8)
    (hg : handle % 8 = (rd s.ilt.slots i).generation.val) (he : (rd s.ilt.slots i).entry = some e) :
    s.resolve handle = some e := by
  have hlt : handle / 8 < 24 := hi ▸ i.isLt
  have hf : (⟨handle / 8, hlt⟩ : Fin 24) = i := Fin.ext hi.symm
  simp only [State.resolve, dif_pos hlt, hf, hg, if_true, he]

theorem ev_updResolved (handle : Nat) (f : Entry → Entry) (hf : ∀ e, s.resolve handle = some e → e.SameIdentity (f e))
    (h : Evolves a s) : Evolves a (s.updEntry handle f) := by
  rw [State.updEntry_eq_touch]
  refine h.tail (.touch _ s fun i e he => ?_)
  split
  · rename_i hc; exact hf e (State.resolve_of_slot hc.1 hc.2 he)
  · exact .refl e

theorem ev_updEntry (handle : Nat) (f : Entry → Entry) (hf : ∀ e : Entry, e.SameIdentity (f e)) (h : Evolves a s) :
    Evolves a (s.updEntry handle f) := ev_updResolved handle f (fun e _ => hf e) h

/-- A change of the shown state, the underlying state, the deadline or the covering alone. -/
theorem sameIdentity_of_fields (e : Entry) (st : EntryState) (u : Bool) (d : Deadline) (c : Option Nat) :
    e.SameIdentity { e with state := st, underlying := u, deadline := d, coveredBy := c } :=
  ⟨rfl, rfl, rfl, rfl, rfl, id⟩

/-! ## Entries opened, retired and evaluated -/

theorem List.find?_none_alone {l : List Entry} {p : Entry → Bool} (h : l.find? p = none) : ∀ x ∈ l, p x = false := by
  intro x hx
  simpa using List.find?_eq_none.mp h x hx

theorem State.freeSlot_some {s : State} {lo hi : Nat} {i : Fin 24} (h : s.freeSlot lo hi = some i) :
    lo ≤ i.val ∧ i.val < hi ∧ (rd s.ilt.slots i).entry = none := by
  have := List.find?_some h
  simp only [Bool.and_eq_true, decide_eq_true_eq, Option.isNone_iff_eq_none] at this
  exact ⟨this.1.1, this.1.2, this.2⟩

theorem ev_place (slot : Fin 24) (e : Nat → Entry) (hp : s.Placeable slot e) (hk : ∀ n, (e n).kind.names (e n).scope)
    (h : Evolves a s) : Evolves a (s.placeEntry slot e) := h.tail (.place slot e s hp hk)

theorem newEntry_fits (k : Kind) (owner : Fin 16) (authority : Nat) (scope : Scope) (parameter : Option Nat) (window h : Nat)
    (hp : match k.parameterRange with
      | none => parameter = none
      | some (lo, hi, _) => ∃ p, parameter = some p ∧ lo ≤ p ∧ p ≤ hi) :
    (s.newEntry k owner authority scope parameter window h).parameterFits := hp

/-- The parameter that the part gives its own entries (R25, R37). -/
def selfParameterFits (k : Kind) (parameter : Option Nat) : Prop :=
  match k.parameterRange with
  | none => parameter = none
  | some (lo, hi, _) => ∃ p, parameter = some p ∧ lo ≤ p ∧ p ≤ hi

theorem ev_openSelf (k : Kind) (scope : Scope) (parameter : Option Nat) (hp : selfParameterFits k parameter) (hk : k.names scope)
    (h : Evolves a s) : Evolves a (openSelf k scope parameter s).1 := by
  unfold openSelf
  split
  · split
    · exact h
    · rename_i hn
      split
      · exact h
      · rename_i slot hs
        refine ev_handOff _ _ (ev_place _ _ ?_ (fun _ => hk) h)
        obtain ⟨lo, _, free⟩ := State.freeSlot_some hs
        refine ⟨free, fun _ => rfl, fun _ => by simpa [State.newEntry] using lo, fun _ => hp, fun _ x hx hxe => ?_⟩
        have := List.find?_none_alone hn x hx
        simp only [State.newEntry] at hxe
        simp [Entry.isSelf, hxe.1, hxe.2.1, hxe.2.2] at this
  · exact h

theorem ev_stcAsk (h : Evolves a s) : Evolves a (Stc.askEntry s) :=
  ev_ite (ev_stc _ (fun _ => ⟨rfl, rfl⟩) (ev_openSelf _ _ _ rfl rfl h)) h

theorem ev_setLatch (c : LatchCause) (h : Evolves a s) : Evolves a (Stc.setLatch c s) :=
  ev_ite h (ev_post _ (ev_stcAsk (ev_stc _ (fun _ => ⟨rfl, rfl⟩) h)))

theorem ev_judgeLock (h : Evolves a s) : Evolves a (Stc.judgeLock s) := ev_ite (ev_setLatch _ h) h

theorem ev_enterMoving (h : Evolves a s) : Evolves a (Stc.enterMoving s) :=
  ev_startCentring (ev_judgeLock (ev_commandLock (ev_stc _ (fun _ => by split <;> exact ⟨rfl, rfl⟩) h)))

theorem ev_leaveLocked (h : Evolves a s) : Evolves a (Stc.leaveLocked s) :=
  ev_ite (ev_enterMoving (ev_stc _ (fun _ => ⟨rfl, rfl⟩) h)) h

theorem ev_changeDoor (d : Fin 4) (f : Door → Door) (hf : ∀ x, (f x).contact = x.contact) (h : Evolves a s) :
    Evolves a (Dsv.changeDoor d f s) := by
  refine ev_dsv _ (fun x e => ?_) (fun _ => rfl) h
  simp only [rd_upd]
  split
  · rename_i k; subst k; exact hf _
  · rfl

theorem ev_dsvAsk (d : Fin 4) (h : Evolves a s) : Evolves a (Dsv.askEntry d s) :=
  ev_ite (ev_changeDoor _ _ (fun _ => rfl) (ev_openSelf _ _ _ rfl ⟨d, rfl⟩ h)) h

theorem ev_supervise (d : Fin 4) (h : Evolves a s) : Evolves a (Dsv.supervise d s) := by
  have k := ev_changeDoor d (fun x => { x with supervision := s.supervisionOf d }) (fun _ => rfl) h
  exact ev_ite (ev_ite (ev_post _ (ev_dsvAsk d k)) k) h

theorem ev_superviseFor (e : Entry) (h : Evolves a s) : Evolves a (Dsv.superviseFor e s) := by
  unfold Dsv.superviseFor
  split
  · exact ev_ite (ev_supervise _ h) h
  · exact h

theorem ev_forgetHandle (n : Nat) (h : Evolves a s) : Evolves a (forgetHandle n s) := by
  have k : Evolves a (s.modDsv fun x =>
      { x with doors := mapF x.doors fun _ d => if d.selfHandle = some n then { d with selfHandle := none } else d }) := by
    refine ev_dsv _ (fun x d => ?_) (fun _ => rfl) h
    simp only [rd_mapF]
    split <;> rfl
  have k2 := ev_brk (fun b => if b.selfHandle = some n then { b with selfHandle := none } else b) k
  have keep : ∀ x : Stc, (if x.selfHandle = some n then { x with selfHandle := none } else x).bankA = x.bankA
      ∧ (if x.selfHandle = some n then { x with selfHandle := none } else x).bankB = x.bankB := by
    intro x
    split <;> exact ⟨rfl, rfl⟩
  exact ev_stc (fun x => if x.selfHandle = some n then { x with selfHandle := none } else x) keep k2

theorem ev_handOffRetired (e : Entry) (h : Evolves a s) : Evolves a (handOffRetired e s) := by
  have k := ev_forgetHandle e.handle (ev_handOff .retired e h)
  exact ev_superviseFor e (ev_ite (p := e.kind = .steerCentre) (ev_leaveLocked k) k)

theorem ev_uncover (target : Nat) (h : Evolves a s) : Evolves a (uncover target s) := by
  unfold uncover
  split
  · exact ev_ite (ev_handOff _ _ (ev_updEntry _ _ (fun e => sameIdentity_of_fields e _ _ _ _) h)) h
  · exact h

theorem ev_dropOverride (n : Nat) (r : RetireReason) (h : Evolves a s) : Evolves a (dropOverride n r s) := ev_post _ (ev_drop _ h)

theorem ev_retireEntry (r : Option RetireReason) (e : Entry) (h : Evolves a s) : Evolves a (retireEntry r e s) := by
  unfold retireEntry
  have h1 := ev_drop e.handle h
  refine ev_handOffRetired e ?_
  cases r <;> cases e.coveredBy <;> cases e.scope <;>
    simp only [] <;>
    first
      | exact ev_uncover _ (ev_dropOverride _ _ (ev_post _ h1))
      | exact ev_uncover _ (ev_dropOverride _ _ h1)
      | exact ev_uncover _ (ev_post _ h1)
      | exact ev_uncover _ h1
      | exact ev_dropOverride _ _ (ev_post _ h1)
      | exact ev_dropOverride _ _ h1
      | exact ev_post _ h1
      | exact h1

theorem ev_retireSelf (n : Nat) (h : Evolves a s) : Evolves a (retireSelf n s) := by
  unfold retireSelf
  split
  · split
    · exact ev_ite (ev_retireEntry _ _ h) h
    · exact h
  · exact h

theorem ev_claim (e : Entry) (h : Evolves a s) : Evolves a (Dsv.claim e s) := by
  unfold Dsv.claim
  split
  · split
    · dsimp only
      split
      · exact ev_retireSelf _ (ev_supervise _ h)
      · exact ev_supervise _ h
    · exact ev_superviseFor _ h
  · exact h

theorem ev_handOffOpened (e : Entry) (h : Evolves a s) : Evolves a (handOffOpened e s) := ev_claim e (ev_handOff _ e h)

theorem ev_evaluate (h : Evolves a s) : Evolves a (evaluate s) :=
  ev_foldl _ _ (fun _ e k => ev_handOff _ e k)
    (ev_touch (fun _ e => e.evaluated (s.activates e.kind e.scope)) (fun _ _ => ⟨rfl, rfl, rfl, rfl, rfl, id⟩) h)

theorem ev_evaluateOnce (h : Evolves a s) : Evolves a (evaluateOnce s) := ev_ite h (ev_evaluate h)

theorem ev_reevaluate (h : Evolves a s) : Evolves a (reevaluate s) :=
  ev_ite (ev_evaluateOnce (ev_evaluateOnce (ev_evaluateOnce h))) h

theorem ev_finish (h : Evolves a s) : Evolves a (State.finish s) := ev_dsvJudge (ev_reevaluate h)

theorem ev_expireEntry (e : Entry) (h : Evolves a s) : Evolves a (expireEntry e s) :=
  ev_ite (ev_retireEntry _ e h)
    (ev_ite (ev_post _ (ev_handOff _ e (ev_updEntry _ _ (fun e => sameIdentity_of_fields e _ _ _ _) h))) h)

theorem ev_retireAll (r : RetireReason) (w : Entry → Bool) (h : Evolves a s) : Evolves a (retireAll r w s) :=
  ev_foldl _ _ (fun _ e k => ev_retireEntry _ e k) h

theorem ev_retireForSpeed (h : Evolves a s) : Evolves a (retireForSpeed s) := ev_ite (ev_retireAll _ _ h) h

theorem ev_retireOverrides (d : Fin 4) (h : Evolves a s) : Evolves a (retireOverrides d s) := ev_ite (ev_retireAll _ _ h) h

/-! ## Steering -/

theorem ev_takeInputs (h : Evolves a s) : Evolves a (Stc.takeInputs s) := ev_stc _ (fun _ => ⟨rfl, rfl⟩) h

theorem ev_judgeSensor (c : Fin 21) (h : Evolves a s) : Evolves a (Stc.judgeSensor c s) := ev_ite (ev_setLatch _ h) h

theorem ev_judgeDisagreement (h : Evolves a s) : Evolves a (Stc.judgeDisagreement s) :=
  ev_ite (ev_setLatch _ (ev_stc _ (fun _ => ⟨rfl, rfl⟩) h)) (ev_stc _ (fun _ => ⟨rfl, rfl⟩) h)

theorem ev_judgeSpeed (h : Evolves a s) : Evolves a (Stc.judgeSpeed s) := ev_ite (ev_setLatch _ h) h

theorem ev_judgePlausibility (h : Evolves a s) : Evolves a (Stc.judgePlausibility s) :=
  ev_judgeSpeed (ev_judgeDisagreement (ev_judgeSensor _ (ev_judgeSensor _ (ev_judgeSensor _ (ev_judgeSensor _ h)))))

theorem ev_lookUp (h : Evolves a s) : Evolves a (Stc.lookUp s) := by
  unfold Stc.lookUp
  split
  · exact ev_ite (ev_stc _ (fun _ => ⟨rfl, rfl⟩) h) h
  · exact h

theorem ev_formCommand (target : Int) (u : Schedule) (h : Evolves a s) : Evolves a (Stc.formCommand target u s) := by
  unfold Stc.formCommand
  exact ev_stc _ (fun _ => ⟨rfl, rfl⟩) h

theorem ev_judgeTracking (h : Evolves a s) : Evolves a (Stc.judgeTracking s) :=
  ev_ite (ev_setLatch _ (ev_stc _ (fun _ => ⟨rfl, rfl⟩) h)) (ev_stc _ (fun _ => ⟨rfl, rfl⟩) h)

theorem ev_enterLocked (h : Evolves a s) : Evolves a (Stc.enterLocked s) :=
  ev_commandLock (ev_leaveLocked (ev_stc _ (fun _ => ⟨rfl, rfl⟩) h))

theorem ev_enterPassive (h : Evolves a s) : Evolves a (Stc.enterPassive s) := by
  have k := ev_commandLock (ev_stc (fun x => { x with state := .passive, command := 0 }) (fun _ => ⟨rfl, rfl⟩) h)
  exact ev_post _ (ev_ite k (ev_stcAsk (ev_stc _ (fun _ => ⟨rfl, rfl⟩) k)))

theorem ev_judgeCentring (h : Evolves a s) : Evolves a (Stc.judgeCentring s) :=
  ev_ite (ev_enterLocked h)
    (ev_ite (ev_enterPassive (ev_stc _ (fun _ => ⟨rfl, rfl⟩) h)) (ev_stc _ (fun _ => ⟨rfl, rfl⟩) h))

theorem ev_steer (h : Evolves a s) : Evolves a (Stc.steer s) := by
  unfold Stc.steer
  split
  · exact h
  · split
    · exact ev_judgeTracking (ev_formCommand _ _ h)
    · exact ev_judgeCentring (ev_formCommand _ _ h)
    all_goals exact h

theorem ev_judgeJoint (h : Evolves a s) : Evolves a (Stc.judgeJoint s) :=
  ev_ite (ev_post _ (ev_stc _ (fun _ => ⟨rfl, rfl⟩) h)) (ev_stc _ (fun _ => ⟨rfl, rfl⟩) h)

theorem ev_damp (h : Evolves a s) : Evolves a (Stc.damp s) := ev_command _ _ (by decide) (ev_stc _ (fun _ => ⟨rfl, rfl⟩) h)

theorem ev_takeReport (h : Evolves a s) : Evolves a (Stc.takeReport s) := ev_stc _ (fun _ => ⟨rfl, rfl⟩) h

theorem ev_stcEnterRun (h : Evolves a s) : Evolves a (Stc.enterRun s) := by
  unfold Stc.enterRun
  have k := ev_enterMoving (ev_stc (fun x => { x with
    schedule := some s.scheduleAtStart, command := clampInt (-s.scheduleAtStart.lim) s.scheduleAtStart.lim (s.analogValue 15),
    lower := -s.scheduleAtStart.lim, upper := s.scheduleAtStart.lim }) (fun _ => ⟨rfl, rfl⟩) h)
  exact ev_ite (ev_stcAsk k) k

theorem ev_exitRun (h : Evolves a s) : Evolves a (Stc.exitRun s) :=
  ev_command _ _ (by decide) (ev_commandLock (ev_stc _ (fun _ => ⟨rfl, rfl⟩) h))

theorem ev_judgeSwap (h : Evolves a s) : Evolves a (Stc.judgeSwap s) := by
  unfold Stc.judgeSwap
  split
  · exact h
  · exact ev_ite (ev_post _ (ev_stc _ (fun _ => ⟨rfl, rfl⟩) h)) (ev_post _ (ev_stc _ (fun _ => ⟨rfl, rfl⟩) h))

theorem ev_onMotion (h : Evolves a s) : Evolves a (Stc.onMotion s) := by
  unfold Stc.onMotion
  have k := ev_ite (p := s.standing = true) (ev_judgeSwap h) h
  exact ev_ite (ev_ite (ev_enterMoving k) k) h

/-! ## Valve channels -/

theorem ev_reportChannel (ch : Fin 18) (h : Evolves a s) : Evolves a (reportChannel ch s) :=
  ev_ite (ev_post _ h) (ev_ite (ev_post _ h) h)

theorem ev_faultFromChannel (ch : Fin 18) (h : Evolves a s) : Evolves a (faultFromChannel ch s) := by
  unfold faultFromChannel
  split
  · split
    · exact ev_crnFault _ _ h
    · split
      · exact ev_crnFault _ _ h
      · exact h
  · exact h

theorem ev_handToOwner (ch : Fin 18) (h : Evolves a s) : Evolves a (handToOwner ch s) :=
  ev_ite (ev_faultFromChannel _ (ev_fromChannels h)) (ev_ite (ev_judgeLock h) h)

end Sys2Proof.Machine
end

