-- ==== Sys2Proof/Laws/Frames.lean ====
section
/-! SUPPORT. What no chain of elementary moves changes: the sensors, the settings, the clock, the link's queue and buffers, the
registry, the pins, the banks, and what only a valve's own events change. -/

namespace Sys2Proof.Machine

theorem SameBase.refl (s : State) : SameBase s s := by
  constructor <;> first | rfl | exact fun _ => rfl

theorem SameBase.trans {s t u : State} (h : SameBase s t) (k : SameBase t u) : SameBase s u := by
  constructor
  all_goals first
    | exact k.pending.trans h.pending | exact k.now.trans h.now | exact k.fresh.trans h.fresh | exact k.cfg.trans h.cfg
    | exact k.mot.trans h.mot | exact k.queue.trans h.queue | exact k.answer.trans h.answer
    | exact k.broadcast.trans h.broadcast | exact k.steering.trans h.steering | exact k.onBus.trans h.onBus
    | exact k.slot.trans h.slot | exact k.shifting.trans h.shifting | exact k.rotation.trans h.rotation
    | exact k.steerCount.trans h.steerCount | exact k.mask.trans h.mask | exact k.lastBroadcast.trans h.lastBroadcast
    | exact k.registry.trans h.registry | exact k.contacts.trans h.contacts | exact k.fbl.trans h.fbl
    | exact k.bankA.trans h.bankA | exact k.bankB.trans h.bankB | exact k.thermalClosed.trans h.thermalClosed
    | exact k.underClosed.trans h.underClosed | exact k.lows.trans h.lows | exact k.highs.trans h.highs
    | exact k.lastTemp.trans h.lastTemp | exact k.lastSupply.trans h.lastSupply
    | exact fun c => (k.contact c).trans (h.contact c) | exact fun c => (k.trips c).trans (h.trips c)
    | exact fun c => (k.series c).trans (h.series c) | exact fun c => (k.thermal c).trans (h.thermal c)
    | exact fun c => (k.undervoltage c).trans (h.undervoltage c) | exact fun c => (k.overCurrent c).trans (h.overCurrent c)
    | exact fun c => (k.lastCheck c).trans (h.lastCheck c)

/-- What a command leaves of a channel's record (R161, R162). -/
theorem Channel.take_keeps (now value : Nat) (c : Channel) :
    (c.take now value).trips = c.trips ∧ (c.take now value).series = c.series ∧ (c.take now value).thermal = c.thermal
      ∧ (c.take now value).undervoltage = c.undervoltage ∧ (c.take now value).overCurrent = c.overCurrent
      ∧ (c.take now value).lastCheck = c.lastCheck ∧ (c.take now value).command = value := by
  unfold Channel.take Channel.follow Channel.switchOn Channel.switchOff
  grind

theorem command_base (ch : Fin 18) (v : Nat) (s : State) : SameBase s (s.command ch v) := by
  have key : ∀ d, rd (s.command ch v).vda.channels d = if ch = d then Channel.take s.now v (rd s.vda.channels d)
      else rd s.vda.channels d := by
    intro d
    show rd (upd s.vda.channels ch (Channel.take s.now v)) d = _
    rw [rd_upd]
    split
    · rename_i e; rw [e]
    · rfl
  constructor
  all_goals first
    | rfl
    | exact fun _ => rfl
    | (intro d; rw [key d]; split
       · first
          | exact (Channel.take_keeps ..).1 | exact (Channel.take_keeps ..).2.1 | exact (Channel.take_keeps ..).2.2.1
          | exact (Channel.take_keeps ..).2.2.2.1 | exact (Channel.take_keeps ..).2.2.2.2.1
          | exact (Channel.take_keeps ..).2.2.2.2.2.1
       · rfl)

theorem commandCorners_base (s : State) : SameBase s s.commandCorners := by
  have fold : ∀ (l : List (Fin 6)) (u : State), SameBase u (l.foldl (fun s c => s.commandCorner c) u) := by
    intro l
    induction l with
    | nil => exact fun u => .refl u
    | cons c l ih => exact fun u => ((command_base _ _ u).trans (command_base _ _ _)).trans (ih _)
  exact (fold _ s).trans (command_base _ _ _)

theorem modIlt_base (f : Ilt → Ilt) (s : State) (hr : (f s.ilt).registry = s.ilt.registry)
    (hc : (f s.ilt).contacts = s.ilt.contacts) : SameBase s (s.modIlt f) := by
  constructor
  all_goals first | rfl | exact fun _ => rfl | exact hr | exact hc

theorem dropEntry_base (handle : Nat) (s : State) : SameBase s (s.dropEntry handle) := by
  unfold State.dropEntry
  split
  · split
    · exact modIlt_base _ _ rfl rfl
    · exact .refl s
  · exact .refl s

theorem Move.base {s t : State} (m : Move s t) : SameBase s t := by
  cases m with
  | post n => constructor <;> first | rfl | exact fun _ => rfl
  | touch f _ h => exact modIlt_base _ _ rfl rfl
  | drop handle => exact dropEntry_base handle s
  | place slot e _ h => exact modIlt_base _ _ rfl rfl
  | dsv f _ h hf => constructor <;> first | rfl | exact fun _ => rfl | exact h | exact hf
  | crn f _ h => constructor <;> first | rfl | exact fun _ => rfl
  | settle f _ h =>
    refine SameBase.trans (t := (s.modCrn f).modCrn fun x => x.leaveQueue.grant) ?_ (commandCorners_base _)
    constructor <;> first | rfl | exact fun _ => rfl
  | rlu f => constructor <;> first | rfl | exact fun _ => rfl
  | brk f => constructor <;> first | rfl | exact fun _ => rfl
  | stc f _ h => constructor <;> first | rfl | exact fun _ => rfl | exact h.1 | exact h.2
  | command ch v _ h => exact command_base ch v s

theorem Evolves.base {s t : State} (h : Evolves s t) : SameBase s t := by
  induction h with
  | refl => exact .refl s
  | tail _ m ih => exact ih.trans m.base

/-- What ends an event changes nothing of these. -/
theorem finish_base (s : State) : SameBase s (State.finish s) := (ev_finish .refl).base

end Sys2Proof.Machine
end

