-- ==== Sys2Proof/Laws/Steps.lean ====
section
/-! SUPPORT. What a step can do, said once: every command is a run of the raw changes below, so a property that each of them keeps
is kept by every step. -/

namespace Sys2Proof.Machine

/-! ## Raw changes -/

/-- The raw changes: the elementary moves of the shared operations, and what single commands do beside them. The input queue and
the answer buffer change only where `lk` allows it; an entry is placed outside its owner's range only where `fit` does not hold. -/
inductive Raw (lk fit : Bool) : State → State → Prop where
  | move {s t : State} (m : Move s t) : Raw lk fit s t
  | odd (slot : Fin 24) (e : Nat → Entry) (s : State) (off : fit = false) (h : ∀ n, (e n).kind.names (e n).scope) :
      Raw lk fit s (s.placeEntry slot e)
  | clock (n : Nat) (s : State) (h : s.now ≤ n) : Raw lk fit s { s with now := n }
  | fresh (n : Nat) (s : State) : Raw lk fit s { s with fresh := n }
  | mot (f : Mot → Mot) (s : State) : Raw lk fit s (s.modMot f)
  | lnk (f : Lnk → Lnk) (s : State)
      (h : (f s.lnk).notices = s.lnk.notices ∧ (f s.lnk).mask = s.lnk.mask ∧ (f s.lnk).attn = s.lnk.attn)
      (hq : (f s.lnk).queue = s.lnk.queue ∧ (f s.lnk).answer = s.lnk.answer) : Raw lk fit s (s.modLnk f)
  | link (f : Lnk → Lnk) (s : State) (on : lk = true)
      (h : (f s.lnk).notices = s.lnk.notices ∧ (f s.lnk).mask = s.lnk.mask ∧ (f s.lnk).attn = s.lnk.attn) : Raw lk fit s (s.modLnk f)
  | clearFlags (set : Word16) (s : State) : Raw lk fit s (s.clearFlags set)
  | setMask (mask : Word16) (s : State) : Raw lk fit s (s.setMask mask)
  | contacts (f : Vector Bool 4 → Vector Bool 4) (s : State) : Raw lk fit s (s.modIlt fun t => { t with contacts := f t.contacts })
  | registry (n : Nat) (r : PartnerRecord) (s : State) (h : 1 ≤ n ∧ n ≤ 13) (hr : r.inRange) :
      Raw lk fit s (s.modIlt fun t => { t with registry := wrN t.registry n r })
  | dsv (f : Dsv → Dsv) (s : State) : Raw lk fit s (s.modDsv f)
  | vda (f : Vda → Vda) (s : State)
      (h : ∀ c, (rd (f s.vda).channels c).command = (rd s.vda.channels c).command
        ∧ ((rd s.vda.channels c).gated → (rd (f s.vda).channels c).gated)) : Raw lk fit s (s.modVda f)
  | bank (id : BankId) (b : Bank) (s : State) (h : (s.stc.bank id).inRange → b.inRange) :
      Raw lk fit s (s.modStc fun x => x.setBank id b)
  | settings (g : Settings) (s : State) (h : s.cfg.settings.inRange = true → g.inRange = true) :
      Raw lk fit s (s.modCfg fun c => { c with settings := g })
  | device (d : DeviceState) (s : State) : Raw lk fit s (s.modCfg fun c => { c with device := d })
  | cold (s : State) : Raw lk fit s s.coldReset
  | warm (s : State) : Raw lk fit s s.warmRestart

/-- A run of raw changes. -/
inductive Runs (lk fit : Bool) (s : State) : State → Prop where
  | refl : Runs lk fit s s
  | tail {t u : State} (h : Runs lk fit s t) (r : Raw lk fit t u) : Runs lk fit s u

/-- A property that every raw change keeps is kept by every run. -/
theorem Runs.keeps {lk fit : Bool} {P : State → Prop} (hP : ∀ s t, Raw lk fit s t → P s → P t) {s t : State} (h : Runs lk fit s t)
    (hs : P s) : P t := by
  induction h with
  | refl => exact hs
  | tail _ r ih => exact hP _ _ r ih

variable {lk fit : Bool} {a s : State}

/-- A shared operation, at the end of a run. -/
theorem Runs.ev {t : State} (h : Runs lk fit a s) (k : Evolves s t) : Runs lk fit a t := by
  induction k with
  | refl => exact h
  | tail _ m ih => exact ih.tail (.move m)

theorem rn_advance (t : Nat) (h : Runs lk fit a s) : Runs lk fit a (s.advanceTo t) := h.tail (.clock _ s (Nat.le_max_left _ _))

theorem rn_mot (f : Mot → Mot) (h : Runs lk fit a s) : Runs lk fit a (s.modMot f) := h.tail (.mot f s)

theorem rn_dsv (f : Dsv → Dsv) (h : Runs lk fit a s) : Runs lk fit a (s.modDsv f) := h.tail (.dsv f s)

theorem rn_lnk (f : Lnk → Lnk) (hf : ∀ l, (f l).notices = l.notices ∧ (f l).mask = l.mask ∧ (f l).attn = l.attn)
    (hq : ∀ l, (f l).queue = l.queue ∧ (f l).answer = l.answer) (h : Runs lk fit a s) : Runs lk fit a (s.modLnk f) :=
  h.tail (.lnk f s (hf _) (hq _))

theorem rn_link (f : Lnk → Lnk) (hf : ∀ l, (f l).notices = l.notices ∧ (f l).mask = l.mask ∧ (f l).attn = l.attn)
    (h : Runs true fit a s) : Runs true fit a (s.modLnk f) := h.tail (.link f s rfl (hf _))

theorem rn_post (n : Notice) (h : Runs lk fit a s) : Runs lk fit a (s.post n) := h.tail (.move (.post n s))

theorem rn_finish (h : Runs lk fit a s) : Runs lk fit a (State.finish s) := h.ev (ev_finish .refl)

theorem rn_ite {p : Prop} [Decidable p] {t u : State} (h : Runs lk fit a t) (k : Runs lk fit a u) : Runs lk fit a (if p then t else u) := by
  split <;> assumption

theorem rn_foldl {α : Type} (l : List α) (f : State → α → State) (hf : ∀ s x, Runs lk fit a s → Runs lk fit a (f s x))
    (h : Runs lk fit a s) : Runs lk fit a (l.foldl f s) := by
  induction l generalizing s with
  | nil => exact h
  | cons x l ih => exact ih (hf _ _ h)

/-- The records of VDA change, but no command, and every channel stays gated. -/
theorem rn_vda (f : Vda → Vda) (hf : ∀ v c, (rd (f v).channels c).command = (rd v.channels c).command
    ∧ ((rd v.channels c).gated → (rd (f v).channels c).gated)) (h : Runs lk fit a s) : Runs lk fit a (s.modVda f) :=
  h.tail (.vda f s (hf _))

/-! ## Signals -/

theorem rn_analogFails (c : Fin 21) (h : Runs lk fit a s) : Runs lk fit a (analogFails c s) := by
  unfold analogFails
  have h1 := rn_post (.channelFault .analog c.val .faulty 0) h
  have h2 : Runs lk fit a (if k : c.val < 6 then Crn.fault ⟨c.val, k⟩ .heightSensor (s.post (.channelFault .analog c.val .faulty 0))
      else s.post (.channelFault .analog c.val .faulty 0)) := by
    split
    · exact h1.ev (ev_crnFault _ _ .refl)
    · exact h1
  exact rn_ite (h2.ev (ev_setLatch _ .refl)) h2

theorem rn_sampleAnalog (c : Fin 21) (raw : BitVec 12) (h : Runs lk fit a s) : Runs lk fit a (sampleAnalog c raw s) := by
  have k : Runs lk fit a (Mot.sample c raw s) := by
    unfold Mot.sample
    exact rn_mot _ h
  exact rn_finish (rn_ite (rn_analogFails c k) k)

theorem rn_sampleAt (c : Fin 21) (raw : BitVec 12) (h : Runs lk fit a s) : Runs lk fit a (sampleAt c raw s) :=
  rn_sampleAnalog c raw (rn_advance _ h)

theorem rn_arm (h : Runs lk fit a s) : Runs lk fit a (Mot.arm s) := rn_ite (rn_mot _ h) h

theorem rn_motionChanged (h : Runs lk fit a s) : Runs lk fit a (motionChanged s) :=
  (rn_arm h).ev (ev_onMotion (ev_brkJudge .refl))

theorem rn_rollback (h : Runs lk fit a s) : Runs lk fit a (Brk.rollback s) := by
  unfold Brk.rollback
  refine rn_post _ ?_
  split
  · exact h.ev (ev_brk _ (ev_openSelf _ _ _ ⟨450, rfl, by decide, by decide⟩ rfl .refl))
  · exact h

theorem rn_judgeRollback (h : Runs lk fit a s) : Runs lk fit a (Mot.judgeRollback s) := by
  have k := rn_mot (fun m => { m with reference := movedReference s.rollWatched s.selected m.counter m.reference }) h
  exact rn_ite (rn_ite (rn_rollback (rn_mot _ k)) k) h

theorem rn_release (h : Runs lk fit a s) : Runs lk fit a (Brk.release s) := by
  unfold Brk.release
  split
  · split
    · exact h.ev (ev_retireSelf _ .refl)
    · exact h
  · exact h

theorem rn_reportWheels (b : Vector WheelChannel 4) (h : Runs lk fit a s) : Runs lk fit a (reportWheels b s) :=
  rn_foldl _ _ (fun _ _ k => rn_ite (rn_post _ k) k) h

theorem rn_judgeWheels (h : Runs lk fit a s) : Runs lk fit a (Mot.judgeWheels s) := (rn_mot _ h).tail (.fresh _ _)

theorem rn_speedUpdate (h : Runs lk fit a s) : Runs lk fit a (speedUpdate s) := by
  have formed : Runs lk fit a (Mot.formMotion (Mot.formDistance (Mot.formSpeed s.mot.wheels (Mot.judgeWheels s)))) :=
    rn_mot _ (rn_mot _ (rn_mot _ (rn_judgeWheels h)))
  have t := rn_reportWheels s.mot.wheels formed
  exact rn_finish ((rn_judgeRollback (rn_ite (rn_motionChanged t) t)).ev (ev_retireForSpeed .refl))

theorem rn_selectionChanged (h : Runs lk fit a s) : Runs lk fit a (selectionChanged s) := rn_release (rn_ite (rn_mot _ h) h)

theorem rn_driveChanged (h : Runs lk fit a s) : Runs lk fit a (driveChanged s) :=
  rn_ite ((rn_release h).ev (ev_leaveWait .refl)) h

theorem rn_lineSettles (l : DriveLine) (h : Runs lk fit a s) : Runs lk fit a (lineSettles l s) := by
  have k := rn_mot (Mot.changeLine l InputLine.settle) h
  exact rn_finish (rn_ite (rn_driveChanged k) (rn_ite (rn_selectionChanged k) k))

/-! ## Doors -/

theorem rn_handContact (d : Fin 4) (h : Runs lk fit a s) : Runs lk fit a (handContact d s) := by
  have k : Runs lk fit a (s.modIlt fun t => { t with contacts := wr t.contacts d (rd s.dsv.doors d).contact.debounced }) :=
    h.tail (.contacts (fun v => wr v d (rd s.dsv.doors d).contact.debounced) s)
  exact rn_ite h (rn_ite k (k.ev (ev_retireOverrides d .refl)))

theorem rn_contactSettles (d : Fin 4) (h : Runs lk fit a s) : Runs lk fit a (contactSettles d s) := by
  have k : Runs lk fit a (Dsv.changeDoor d (fun x => { x with contact := x.contact.settle }) s) := rn_dsv _ h
  exact rn_ite (rn_finish ((rn_handContact d k).ev (ev_supervise d .refl))) k

theorem rn_releaseDrive (h : Runs lk fit a s) : Runs lk fit a (releaseDrive s) := by
  unfold releaseDrive
  split
  · exact rn_ite (rn_dsv _ (rn_advance _ h)) (rn_advance _ h)
  all_goals exact h

/-! ## Valve channels -/

/-- A change of one channel's record that hands no command and keeps the gate marks and the state in step. -/
structure Channel.Proper (f : Channel → Channel) : Prop where
  command : ∀ c, (f c).command = c.command
  gated : ∀ c, c.gated → (f c).gated

theorem proper_endBlanking (now : Nat) (c : Channel) (hs : c.state = .blanking) :
    (c.endBlanking now).command = c.command ∧ (c.gated → (c.endBlanking now).gated) := by
  unfold Channel.endBlanking Channel.gated Channel.marked
  grind

theorem proper_trip (now : Nat) (c : Channel) (hs : c.state.driven = true) :
    (c.trip now).command = c.command ∧ (c.gated → (c.trip now).gated) := by
  unfold Channel.trip Channel.gated Channel.marked
  unfold ChannelState.driven at hs
  grind

theorem proper_hardShort (now : Nat) : Channel.Proper (Channel.hardShort now) := by
  constructor <;> intro c <;> unfold Channel.hardShort Channel.trip <;>
    simp only [Channel.gated, Channel.marked, ChannelState.driven] <;> grind

theorem proper_currentRises (now : Nat) : Channel.Proper (Channel.currentRises now) := by
  constructor <;> intro c <;> unfold Channel.currentRises <;> simp only [Channel.gated, Channel.marked] <;> grind

theorem proper_currentFalls (now : Nat) : Channel.Proper (Channel.currentFalls now) := by
  constructor <;> intro c <;> unfold Channel.currentFalls <;> simp only [Channel.gated, Channel.marked] <;> grind

theorem proper_endRetry (now : Nat) (c : Channel) (hs : c.state = .tripped) :
    (c.endRetry now).command = c.command ∧ (c.gated → (c.endRetry now).gated) := by
  unfold Channel.endRetry Channel.follow Channel.switchOn Channel.gated Channel.marked
  grind

theorem proper_endSeries : Channel.Proper Channel.endSeries := by
  constructor <;> intro c
  · rfl
  · exact fun h => h

theorem proper_diagnose (load : Bool) (n : Nat) : Channel.Proper (fun c => { c with lastCheck := n }.diagnose load) := by
  constructor <;> intro c <;> simp only [Channel.diagnose, Channel.gated, Channel.marked] <;> grind

theorem proper_clear (now : Nat) : Channel.Proper (Channel.clear now) := by
  constructor <;> intro c <;> simp only [Channel.clear, Channel.follow, Channel.switchOn, Channel.gated, Channel.marked] <;> grind

theorem proper_markThermal : Channel.Proper Channel.markThermal := by
  constructor <;> intro c <;> simp only [Channel.markThermal, Channel.disable, Channel.gated, Channel.marked] <;> grind

theorem proper_markUnder : Channel.Proper Channel.markUnder := by
  constructor <;> intro c <;> simp only [Channel.markUnder, Channel.disable, Channel.gated, Channel.marked] <;> grind

theorem proper_unmarkThermal (now : Nat) : Channel.Proper (Channel.unmarkThermal now) := by
  constructor <;> intro c <;>
    simp only [Channel.unmarkThermal, Channel.enable, Channel.follow, Channel.switchOn, Channel.gated, Channel.marked] <;> grind

theorem proper_unmarkUnder (now : Nat) : Channel.Proper (Channel.unmarkUnder now) := by
  constructor <;> intro c <;>
    simp only [Channel.unmarkUnder, Channel.enable, Channel.follow, Channel.switchOn, Channel.gated, Channel.marked] <;> grind

theorem rn_atChannel (ch : Fin 18) (f : Channel → Channel)
    (hf : (f (rd s.vda.channels ch)).command = (rd s.vda.channels ch).command
      ∧ ((rd s.vda.channels ch).gated → (f (rd s.vda.channels ch)).gated)) (h : Runs lk fit a s) : Runs lk fit a (atChannel ch f s) := by
  have k : Runs lk fit a (s.modVda fun v => { v with channels := upd v.channels ch f }) := by
    refine h.tail (.vda _ s fun c => ?_)
    simp only [rd_upd]
    split
    · rename_i e; subst e; exact hf
    · exact ⟨rfl, id⟩
  exact rn_ite k (k.ev (ev_handToOwner ch (ev_reportChannel ch .refl)))

theorem rn_channelEvent (ch : Fin 18) (f : Channel → Channel)
    (hf : (f (rd s.vda.channels ch)).command = (rd s.vda.channels ch).command
      ∧ ((rd s.vda.channels ch).gated → (f (rd s.vda.channels ch)).gated)) (h : Runs lk fit a s) : Runs lk fit a (channelEvent ch f s) :=
  rn_finish (rn_atChannel ch f hf h)

theorem rn_properEvent (ch : Fin 18) {f : Channel → Channel} (hf : Channel.Proper f) (h : Runs lk fit a s) : Runs lk fit a (channelEvent ch f s) :=
  rn_channelEvent ch f ⟨hf.command _, hf.gated _⟩ h

theorem rn_timerEvent (ch : Fin 18) (st : ChannelState) (timer : Channel → Option Nat) (span : Nat) (f : Nat → Channel → Channel)
    (hf : ∀ n c, c.state = st → (f n c).command = c.command ∧ (c.gated → (f n c).gated)) (h : Runs lk fit a s) :
    Runs lk fit a (timerEvent ch st timer span f s) := by
  unfold timerEvent
  split
  · split
    · rename_i hs
      exact rn_channelEvent ch _ (hf _ _ hs) (rn_advance _ h)
    · exact h
  · exact h

theorem rn_atGate (g : Fin 18 → Bool) {f : Channel → Channel} (hf : Channel.Proper f) (h : Runs lk fit a s) : Runs lk fit a (atGate g f s) := by
  have k : Runs lk fit a (s.modVda fun v => { v with channels := mapF v.channels fun i c => if g i then f c else c }) := by
    refine rn_vda _ (fun v c => ?_) h
    simp only [rd_mapF]
    split
    · exact ⟨hf.command _, hf.gated _⟩
    · exact ⟨rfl, id⟩
  exact k.ev (ev_judgeLock (ev_fromChannels .refl))

/-- A change of VDA's gates and counts alone. -/
theorem rn_vdaGates (f : Vda → Vda) (hf : ∀ v, (f v).channels = v.channels) (h : Runs lk fit a s) : Runs lk fit a (s.modVda f) :=
  rn_vda f (fun v c => by rw [hf]; exact ⟨rfl, id⟩) h

theorem rn_sampleTemperature (d : Int) (h : Runs lk fit a s) : Runs lk fit a (sampleTemperature d s) :=
  rn_ite (rn_post _ (rn_atGate _ proper_markThermal (rn_vdaGates _ (fun _ => rfl) h)))
    (rn_ite (rn_atGate _ (proper_unmarkThermal _) (rn_vdaGates _ (fun _ => rfl) h)) h)

theorem rn_sampleSupply (t : Nat) (h : Runs lk fit a s) : Runs lk fit a (sampleSupply t s) := by
  have k := rn_vdaGates (countSupply t) (fun _ => rfl) h
  exact rn_ite (rn_post _ (rn_atGate _ proper_markUnder (rn_vdaGates _ (fun _ => rfl) k)))
    (rn_ite (rn_atGate _ (proper_unmarkUnder _) (rn_vdaGates _ (fun _ => rfl) k)) k)

theorem rn_supplyAt (t : Nat) (h : Runs lk fit a s) : Runs lk fit a (supplyAt t s) :=
  rn_finish (rn_sampleSupply t (rn_vdaGates _ (fun _ => rfl) (rn_advance _ h)))

/-! ## The device states -/

theorem rn_device (d : DeviceState) (h : Runs lk fit a s) : Runs lk fit a (s.modCfg fun c => { c with device := d }) := h.tail (.device d s)

theorem rn_superviseAll (h : Runs lk fit a s) : Runs lk fit a (superviseAll s) :=
  rn_foldl _ _ (fun _ d k => k.ev (ev_supervise d .refl)) h

theorem rn_placeBroadcast (h : Runs lk fit a s) : Runs lk fit a (placeBroadcast s) := rn_lnk _ (fun _ => ⟨rfl, rfl, rfl⟩) (fun _ => ⟨rfl, rfl⟩) h

theorem rn_enterRun (h : Runs lk fit a s) : Runs lk fit a (enterRun s) := by
  unfold enterRun
  have k1 := rn_device .run h
  have k2 : Runs lk fit a (handContacts (s.modCfg fun c => { c with device := .run })) :=
    k1.tail (.contacts (fun v => mapF v fun d c =>
      if (s.modCfg fun c => { c with device := .run }).fitted d then (rd s.dsv.doors d).contact.debounced else c) _)
  have k3 := (rn_superviseAll k2).ev (ev_fromDevice (ev_judgeCauses (ev_forgetLoads .refl)))
  have k4 := rn_arm (k3.ev (ev_stcEnterRun .refl))
  exact rn_placeBroadcast (rn_finish (rn_lnk _ (fun _ => ⟨rfl, rfl, rfl⟩) (fun _ => ⟨rfl, rfl⟩) k4))

theorem rn_freezeTable (h : Runs lk fit a s) : Runs lk fit a (freezeTable s) :=
  h.ev (ev_touch (fun _ e => { e with deadline := e.deadline.stop s.now }) (fun _ e => sameIdentity_of_fields e _ _ _ _) .refl)

theorem rn_enterSafe (h : Runs lk fit a s) : Runs lk fit a (enterSafe s) := by
  unfold enterSafe
  have k := (rn_freezeTable (rn_device .safe h)).ev (ev_exitRun (ev_setWindow false .refl))
  exact rn_finish ((rn_mot (fun m => { m with armed := false }) k).ev (ev_fromDevice .refl))

/-! ## Requests -/

/-- A request takes the state by a run. -/
def Taken (lk fit : Bool) (a : State) (r : State × Answer) : Prop := Runs lk fit a r.1

theorem tk_same {x : Answer} (h : Runs lk fit a s) : Taken lk fit a (s, x) := h

theorem tk_ite {p : Prop} [Decidable p] {r q : State × Answer} (h : Taken lk fit a r) (k : Taken lk fit a q) : Taken lk fit a (if p then r else q) := by
  split <;> assumption

theorem tk_ifEnabled {p : Fin 16} {r : State × Answer} (h : Runs lk fit a s) (k : Taken lk fit a r) : Taken lk fit a (ifEnabled p s r) := tk_ite k h

theorem tk_ifRoot {p : Fin 16} {r : State × Answer} (h : Runs lk fit a s) (k : Taken lk fit a r) : Taken lk fit a (ifRoot p s r) :=
  tk_ifEnabled h (tk_ite k h)

theorem tk_ifEntry {p : Fin 16} {n : Nat} {f : Entry → State × Answer} (h : Runs lk fit a s)
    (k : ∀ e, s.resolve n = some e → Taken lk fit a (f e)) : Taken lk fit a (ifEntry p n s f) := by
  refine tk_ifEnabled h ?_
  split
  · split
    · rename_i e he; exact k e he
    · exact h
  · exact h

theorem fitParameter_fits (k : Kind) (given : Nat) : selfParameterFits k (k.fitParameter given).1 := by
  unfold selfParameterFits Kind.fitParameter
  cases k <;> simp only [Kind.parameterRange] <;> split <;>
    first
      | exact ⟨_, rfl, by decide, by decide⟩
      | exact ⟨_, rfl, by unfold clampNat; omega, by unfold clampNat; omega⟩

theorem rn_coverTarget (scope : Scope) (n : Nat) (h : Runs lk fit a s) : Runs lk fit a (coverTarget scope n s) := by
  unfold coverTarget
  split
  · split
    · exact h.ev (ev_handOff _ _ (ev_updEntry _ _ (fun e => sameIdentity_of_fields e _ _ _ _) .refl))
    · exact h
  all_goals exact h

/-- A scope that an OPEN names is one of its kind's (R26). -/
theorem scopeOf_names {k : Kind} {code handle : Nat} {scope : Scope} (h : s.scopeOf k code handle = some scope) : k.names scope := by
  unfold State.scopeOf at h
  cases k <;> simp only at h
  all_goals
    (repeat' split at h)
    all_goals cases h
    all_goals first
      | rfl
      | exact ⟨_, rfl⟩
      | exact .inl rfl
      | exact .inr rfl

theorem tk_openChecked (p : Fin 16) (hp : fit = true → p ≠ 15) (k : Kind) (sc given n : Nat) (h : Runs lk fit a s) :
    Taken lk fit a (openChecked p k sc given n s) := by
  unfold openChecked
  split
  · exact h
  · rename_i hk
    split
    · exact h
    · split
      · exact h
      · rename_i hd
        split
        · exact h
        · split
          · exact h
          · rename_i slot hs
            refine rn_finish (rn_coverTarget _ _ (Runs.ev (s := s.placeEntry slot _) ?_ (ev_handOffOpened _ .refl)))
            cases fit with
            | false => exact h.tail (.odd slot _ s rfl fun _ => scopeOf_names hk)
            | true =>
              refine h.ev (ev_place _ _ ?_ (fun _ => scopeOf_names hk) .refl)
              obtain ⟨_, hi, free⟩ := State.freeSlot_some hs
              refine ⟨free, fun _ => rfl, fun _ => ?_, fun _ => fitParameter_fits _ _, fun _ x hx hxe => ?_⟩
              · simp only [State.newEntry]
                exact ⟨fun e => absurd e (hp rfl), fun e => by omega⟩
              · have := List.find?_none_alone hd x hx
                simp only [State.newEntry] at hxe
                simp [hxe.1, hxe.2.1, hxe.2.2] at this

theorem tk_open (p : Fin 16) (hp : fit = true → p ≠ 15) (k sc given n : Nat) (h : Runs lk fit a s) : Taken lk fit a (requestOpen p k sc given n s) := by
  refine tk_ifEnabled h ?_
  split
  · exact h
  · exact tk_ite h (tk_ite h (tk_ite h (tk_openChecked p hp _ _ _ _ h)))

theorem rn_handAmended (e : Entry) (h : Runs lk fit a s) : Runs lk fit a (handAmended e s) :=
  rn_ite (h.ev (ev_brkJudge .refl)) (h.ev (ev_rluFromTable .refl))

theorem tk_amend (p : Fin 16) (n given : Nat) (h : Runs lk fit a s) : Taken lk fit a (requestAmend p n given s) := by
  refine tk_ifEntry h fun e he => ?_
  refine tk_ite h (tk_ite h (tk_ite h ?_))
  have k : Runs lk fit a (s.updEntry n fun x => { x with parameter := (e.kind.fitParameter given).1 }) := by
    refine h.ev (ev_updResolved _ _ (fun x hx => ?_) .refl)
    have hxe : x = e := by rw [he] at hx; exact (Option.some.inj hx).symm
    subst hxe
    exact ⟨rfl, rfl, rfl, rfl, rfl, fun _ => fitParameter_fits _ _⟩
  exact rn_ite k (rn_finish (rn_handAmended e k))

theorem rn_revive (e : Entry) (h : Runs lk fit a s) : Runs lk fit a (revive e s) := by
  unfold revive
  have k := h.ev (ev_updEntry e.handle (fun x => { x with
    state := shownState (s.activates e.kind e.scope), underlying := s.activates e.kind e.scope,
    deadline := s.fullWindow e, coveredBy := none }) (fun e => sameIdentity_of_fields e _ _ _ _) .refl)
  cases e.coveredBy with
  | none => exact rn_finish (k.ev (ev_handOff _ _ .refl))
  | some o => exact rn_finish (k.ev (ev_handOff _ _ (ev_dropOverride _ _ .refl)))

theorem tk_refresh (p : Fin 16) (n : Nat) (h : Runs lk fit a s) : Taken lk fit a (requestRefresh p n s) :=
  tk_ifEntry h fun _ _ => tk_ite h (tk_ite h (tk_ite
    (h.ev (ev_updEntry _ _ (fun e => sameIdentity_of_fields e _ _ _ _) .refl)) (rn_revive _ h)))

theorem tk_retire (p : Fin 16) (n : Nat) (h : Runs lk fit a s) : Taken lk fit a (requestRetire p n s) := by
  refine tk_ifEntry h fun e _ => ?_
  split
  · exact h
  · exact rn_finish (h.ev (ev_retireEntry _ e .refl))

theorem tk_query (p : Fin 16) (n g : Nat) (h : Runs lk fit a s) : Taken lk fit a (requestQuery p n g s) := by
  refine tk_ifEnabled h ?_
  split
  · exact h
  · exact tk_ite h (tk_ite h h)

theorem tk_list (p : Fin 16) (n : Nat) (h : Runs lk fit a s) : Taken lk fit a (requestList p n s) := by
  refine tk_ifEnabled h ?_
  split <;> exact h

theorem fitWindow_inRange (w : Nat) :
    fitWindow w = 0 ∨ (100 ≤ fitWindow w ∧ fitWindow w ≤ 2000 ∧ fitWindow w % 100 = 0) := by
  unfold fitWindow
  split
  · exact .inl rfl
  · split
    · exact .inr (by decide)
    · split
      · exact .inr (by decide)
      · exact .inr ⟨by omega, by omega, by omega⟩

theorem tk_writeRegistry (p : Fin 16) (n : Nat) (r k : Byte) (w : Nat) (h : Runs lk fit a s) : Taken lk fit a (requestWriteRegistry p n r k w s) := by
  refine tk_ifRoot h (tk_ite h ?_)
  split
  · exact h
  · rename_i hn
    exact h.tail (.registry n _ s (by omega) ⟨Nat.min_le_left _ _, fitWindow_inRange w⟩)

theorem tk_readMotion (p : Fin 16) (n : Nat) (h : Runs lk fit a s) : Taken lk fit a (requestReadMotion p n s) :=
  tk_ifEnabled h (tk_ite h (tk_ite h h))

theorem tk_readCorner (p : Fin 16) (c g : Nat) (h : Runs lk fit a s) : Taken lk fit a (requestReadCorner p c g s) := by
  refine tk_ifEnabled h ?_
  split
  · exact tk_ite h (tk_ite h h)
  · exact h

theorem tk_readAxle (p : Fin 16) (x g n : Nat) (h : Runs lk fit a s) : Taken lk fit a (requestReadAxle p x g n s) := by
  refine tk_ifEnabled h ?_
  split
  · refine tk_ite h ?_
    split
    · split
      · exact h
      · exact h.tail (.fresh _ s)
    · exact tk_ite h h
  · exact h

theorem tk_readSteer (p : Fin 16) (g n : Nat) (h : Runs lk fit a s) : Taken lk fit a (requestReadSteer p g n s) :=
  tk_ifEnabled h (tk_ite h (tk_ite h (tk_ite h h)))

theorem tk_readNotices (p : Fin 16) (n : Nat) (h : Runs lk fit a s) : Taken lk fit a (requestReadNotices p n s) := by
  refine tk_ifEnabled h ?_
  split <;> exact h

theorem tk_clearNotices (p : Fin 16) (w : Word16) (h : Runs lk fit a s) : Taken lk fit a (requestClearNotices p w s) :=
  tk_ifRoot h (h.tail (.clearFlags w s))

theorem tk_setMask (p : Fin 16) (w : Word16) (h : Runs lk fit a s) : Taken lk fit a (requestSetMask p w s) := tk_ifRoot h (h.tail (.setMask w s))

theorem tk_clearCorner (p : Fin 16) (c : Nat) (h : Runs lk fit a s) : Taken lk fit a (requestClearCorner p c s) := by
  refine tk_ifRoot h (tk_ite h ?_)
  split
  · dsimp only
    split
    · exact h
    · exact rn_ite (rn_finish (h.ev (ev_clearFault _ .refl))) h
  · exact h

theorem tk_clearChannel (p : Fin 16) (c : Nat) (h : Runs lk fit a s) : Taken lk fit a (requestClearChannel p c s) := by
  refine tk_ifRoot h (tk_ite h ?_)
  split
  · exact rn_ite (rn_properEvent _ (proper_clear _) h) h
  · exact h

theorem rn_clearLatch (h : Runs lk fit a s) : Runs lk fit a (Stc.clearLatch s) := by
  unfold Stc.clearLatch
  have k := h.ev (ev_stc (fun x => { x with latch := none, disagreeTimer := 0, trackTimer := 0 }) (fun _ => ⟨rfl, rfl⟩) .refl)
  have k2 := rn_ite (p := (s.modStc fun x => { x with latch := none, disagreeTimer := 0, trackTimer := 0 }).stc.state = .passive)
    (k.ev (ev_commandLock (ev_stc (fun x => { x with state := .centring, centringTimer := 0 }) (fun _ => ⟨rfl, rfl⟩) .refl))) k
  dsimp only
  split
  · exact k2.ev (ev_retireSelf _ .refl)
  · exact k2

theorem tk_clearSteerFault (p : Fin 16) (h : Runs lk fit a s) : Taken lk fit a (requestClearSteerFault p s) := by
  refine tk_ifRoot h (tk_ite h ?_)
  split
  · exact h
  · exact rn_ite (rn_finish (rn_clearLatch h)) h

theorem tk_swapBank (p : Fin 16) (h : Runs lk fit a s) : Taken lk fit a (requestSwapBank p s) := by
  refine tk_ifRoot h (tk_ite h (tk_ite h ?_))
  split
  · exact h.ev (ev_stc (fun x => { x with pendingSwap := none }) (fun _ => ⟨rfl, rfl⟩) .refl)
  · refine tk_ite h ?_
    dsimp only [Taken]
    split
    · exact rn_post _ (h.ev (ev_stc (fun x => { x with inUse := s.stc.inUse.other }) (fun _ => ⟨rfl, rfl⟩) .refl))
    · exact h.ev (ev_stc (fun x => { x with pendingSwap := some s.stc.inUse.other }) (fun _ => ⟨rfl, rfl⟩) .refl)

theorem Row.write_inRange {f : Nat} {v : Int} {r r' : Row} {st : Int} (h : Row.write f v r = some (r', st)) (hr : r.inRange) :
    r'.inRange := by
  unfold Row.write at h
  unfold Row.inRange at hr ⊢
  split at h <;> simp only [Option.some.injEq, Prod.mk.injEq, reduceCtorEq] at h <;>
    (obtain ⟨rfl, rfl⟩ := h; simp only [clampInt]; omega)

theorem Bank.write_inRange {f row : Nat} {v : Int} {b b' : Bank} {st : Int} (h : Bank.write f row v b = some (b', st))
    (hb : b.inRange) : b'.inRange := by
  unfold Bank.write at h
  split at h
  · simp only [Option.some.injEq, Prod.mk.injEq] at h
    obtain ⟨rfl, rfl⟩ := h
    exact ⟨by simp only [clampInt]; omega, hb.2⟩
  · split at h
    · rename_i hrow
      cases hw : Row.write f v (rd b.rows ⟨row, hrow⟩) with
      | none => rw [hw] at h; exact absurd h (by simp)
      | some q =>
        rw [hw] at h
        simp only [Option.map_some, Option.some.injEq, Prod.mk.injEq] at h
        obtain ⟨rfl, rfl⟩ := h
        refine ⟨hb.1, fun i => ?_⟩
        simp only [rd_wr]
        split
        · exact Row.write_inRange hw (hb.2 _)
        · exact hb.2 i
    · exact absurd h (by simp)

theorem tk_writeBankRow (p : Fin 16) (bf : Byte) (row : Nat) (v : Word16) (h : Runs lk fit a s) :
    Taken lk fit a (requestWriteBankRow p bf row v s) := by
  refine tk_ifRoot h (tk_ite h ?_)
  dsimp only
  split
  · exact h
  · rename_i bank st hw
    exact tk_ite h (tk_ite h (h.tail (.bank _ bank s (Bank.write_inRange hw))))

theorem rn_settingWritten (n : Nat) (h : Runs lk fit a s) : Runs lk fit a (settingWritten n s) :=
  rn_ite (h.ev (ev_stc _ (fun _ => ⟨rfl, rfl⟩) .refl))
    (rn_ite (h.ev (ev_dsvJudge .refl)) (rn_ite (h.ev (ev_dsvJudge (ev_judgeCurbLow .refl))) h))

/-! ## Settings -/

theorem allIn_iff {n : Nat} {lo hi : Nat} {v : Vector Nat n} : allIn lo hi v = true ↔ ∀ i, lo ≤ rd v i ∧ rd v i ≤ hi := by
  simp [allIn]

theorem allIn_wr {n : Nat} {lo hi x : Nat} {v : Vector Nat n} (i : Fin n) (h : allIn lo hi v = true) (hx : lo ≤ x ∧ x ≤ hi) :
    allIn lo hi (wr v i x) = true := by
  rw [allIn_iff] at h ⊢
  intro j
  rw [rd_wr]
  split
  · exact hx
  · exact h j

theorem clampNat_mem {lo hi : Nat} (h : lo ≤ hi) (v : Nat) : lo ≤ clampNat lo hi v ∧ clampNat lo hi v ≤ hi := by
  unfold clampNat; omega

theorem clampInt_mem {lo hi : Int} (h : lo ≤ hi) (v : Int) : lo ≤ clampInt lo hi v ∧ clampInt lo hi v ≤ hi := by
  unfold clampInt; omega

/-- R184: a write leaves every setting in its range. -/
theorem Settings.write_inRange {n place : Nat} {v : Word16} {c g : Settings} {st : Int}
    (h : c.write n place v = some (g, st)) (hc : c.inRange = true) : g.inRange = true := by
  have gains : ∀ (w : Vector Int 21), ((List.finRange 21).all fun i => decide (-16384 ≤ rd w i ∧ rd w i ≤ 16384)) = true ↔
      ∀ i, -16384 ≤ rd w i ∧ rd w i ≤ 16384 := by simp
  unfold Settings.write at h
  simp only [Settings.inRange, Bool.and_eq_true, decide_eq_true_eq, gains, and_assoc] at hc ⊢
  split at h <;>
    simp only [writeOne, writeAt, writeAxle, Option.map_eq_some_iff, Prod.mk.injEq, Option.ite_none_right_eq_some,
      Option.ite_none_left_eq_some, Option.dite_none_right_eq_some, Option.some.injEq, reduceCtorEq] at h
  all_goals first
    | obtain ⟨_, ⟨_, rfl⟩, rfl, _⟩ := h
    | obtain ⟨_, ⟨_, ⟨_, rfl⟩, rfl⟩, rfl, _⟩ := h
    | obtain ⟨_, ⟨_, ⟨_, _, rfl⟩, rfl⟩, rfl, _⟩ := h
  all_goals simp only [hc, true_and, and_true, implies_true]
  all_goals first
    | done
    | exact clampNat_mem (by decide) _
    | exact (clampNat_mem (by decide) _).2
    | exact allIn_wr _ (by simp only [hc]) (clampNat_mem (by decide) _)
    | (intro i
       rw [rd_wr]
       split
       · exact clampInt_mem (by decide) _
       · exact hc.2.2.2.2.2.2.1 i)

theorem tk_writeSetting (p : Fin 16) (n place : Nat) (v : Word16) (h : Runs lk fit a s) : Taken lk fit a (requestWriteSetting p n place v s) := by
  refine tk_ifRoot h (tk_ite h ?_)
  split
  · exact h
  · rename_i g st hw
    exact rn_settingWritten n (h.tail (.settings g s (Settings.write_inRange hw)))

theorem tk_start (p : Fin 16) (h : Runs lk fit a s) : Taken lk fit a (requestStart p s) := by
  refine tk_ifRoot h (tk_ite h ?_)
  split
  · exact h
  · exact rn_enterRun h

theorem tk_restart (p : Fin 16) (h : Runs lk fit a s) : Taken lk fit a (requestRestart p s) := tk_ifRoot h (tk_ite h (h.tail (.warm s)))

theorem tk_enterSafe (p : Fin 16) (h : Runs lk fit a s) : Taken lk fit a (requestEnterSafe p s) := by
  refine tk_ifRoot h ?_
  split
  · exact h
  · exact rn_enterSafe h
  · exact h

/-- Any request of a partner other than the part itself is a run. -/
theorem tk_takeRequest (p : Fin 16) (hp : fit = true → p ≠ 15) (c : Content) (h : Runs lk fit a s) : Taken lk fit a (takeRequest p c s) := by
  unfold takeRequest
  dsimp only
  split
  · exact h
  · split
    · exact tk_ifEnabled h h
    · exact tk_open p hp _ _ _ _ h
    · exact tk_amend p _ _ h
    · exact tk_refresh p _ h
    · exact tk_retire p _ h
    · exact tk_query p _ _ h
    · exact tk_list p _ h
    · exact tk_readMotion p _ h
    · exact tk_readCorner p _ _ h
    · exact tk_readAxle p _ _ _ h
    · exact tk_readSteer p _ _ h
    · exact tk_readNotices p _ h
    · exact tk_clearNotices p _ h
    · exact tk_setMask p _ h
    · exact tk_clearCorner p _ h
    · exact tk_clearChannel p _ h
    · exact tk_clearSteerFault p h
    · exact tk_swapBank p h
    · exact tk_writeBankRow p _ _ _ h
    · exact tk_writeSetting p _ _ _ h
    · exact tk_writeRegistry p _ _ _ _ h
    · exact tk_start p h
    · exact tk_restart p h
    · exact tk_enterSafe p h
    · exact h

/-! ## The link -/

theorem partner_ne_self {n : Nat} (h : 1 ≤ n ∧ n ≤ 13) : Fin.ofNat 16 n ≠ 15 := by
  intro e
  have := congrArg Fin.val e
  simp only [Fin.val_ofNat] at this
  change n % 16 = 15 at this
  omega

theorem rn_takeFrame (hq : fit = true → s.lnk.partnersFit) (h : Runs true fit a s) : Runs true fit a (takeFrame s) := by
  unfold takeFrame
  split
  · rename_i f rest hl ha
    refine rn_link _ (fun _ => ⟨rfl, rfl, rfl⟩) (tk_takeRequest _ (fun on => partner_ne_self (hq on f ?_)) _ (rn_link _ (fun _ => ⟨rfl, rfl, rfl⟩) h))
    rw [hl]; exact List.mem_cons_self
  · exact h
  · exact h

theorem rn_arrive (n : Nat) (hn : 1 ≤ n ∧ n ≤ 13) (c : Content) (hq : fit = true → s.lnk.partnersFit) (h : Runs true fit a s) : Runs true fit a (arrive n c s) := by
  unfold arrive
  have k : Runs true fit a (s.modLnk fun l => { l with queue := l.queue ++ [{ partner := n, content := c }] }) :=
    rn_link _ (fun _ => ⟨rfl, rfl, rfl⟩) h
  refine rn_ite (rn_post _ h) (rn_ite (rn_takeFrame (fun on f hf => ?_) k) k)
  rcases List.mem_append.mp hf with hf | hf
  · exact hq on f hf
  · rw [List.mem_singleton.mp hf]; exact hn

theorem CanFrame.partner_fits {f : CanFrame} {b n : Nat} (h : CanFrame.partner f b = some n) : 1 ≤ n ∧ n ≤ 13 := by
  unfold CanFrame.partner at h
  split at h
  · have := Option.some.inj h; omega
  · exact absurd h (by simp)

theorem rn_receiveFrame (f : CanFrame) (hq : fit = true → s.lnk.partnersFit) (h : Runs true fit a s) : Runs true fit a (receiveFrame f s) := by
  unfold receiveFrame
  split
  · rename_i n c hn _
    exact rn_arrive n (CanFrame.partner_fits hn) c hq h
  · exact h
  · exact h

theorem rn_frameSent (hq : fit = true → s.lnk.partnersFit) (h : Runs true fit a s) : Runs true fit a (frameSent s) := by
  unfold frameSent
  split
  · exact h
  · split
    · exact rn_link _ (fun _ => ⟨rfl, rfl, rfl⟩) h
    · exact rn_link _ (fun _ => ⟨rfl, rfl, rfl⟩) h
    · exact rn_takeFrame hq (rn_link _ (fun _ => ⟨rfl, rfl, rfl⟩) h)

theorem rn_abandonAnswer (hq : fit = true → s.lnk.partnersFit) (h : Runs true fit a s) : Runs true fit a (abandonAnswer s) := by
  unfold abandonAnswer
  split
  · exact rn_takeFrame hq (rn_link (fun l => { l with answer := none }) (fun _ => ⟨rfl, rfl, rfl⟩) (rn_advance _ h))
  · exact h

theorem rn_takeFromHost (c : Content) (h : Runs lk fit a s) : Runs lk fit a (takeFromHost c s) := by
  unfold takeFromHost
  exact rn_lnk _ (fun _ => ⟨rfl, rfl, rfl⟩) (fun _ => ⟨rfl, rfl⟩) (tk_takeRequest 0 (fun _ => by decide) c h)

theorem rn_selectAsserted (h : Runs lk fit a s) : Runs lk fit a (selectAsserted s) := rn_lnk _ (fun _ => ⟨rfl, rfl, rfl⟩) (fun _ => ⟨rfl, rfl⟩) h

theorem rn_selectWithdrawn (l : List Byte) (h : Runs lk fit a s) : Runs lk fit a (selectWithdrawn l s) := by
  unfold selectWithdrawn
  have k : Runs lk fit a (s.modLnk fun l => { l with shifting := none }) := rn_lnk _ (fun _ => ⟨rfl, rfl, rfl⟩) (fun _ => ⟨rfl, rfl⟩) h
  refine rn_ite h ?_
  dsimp only
  split
  · exact rn_takeFromHost _ k
  · exact rn_lnk _ (fun _ => ⟨rfl, rfl, rfl⟩) (fun _ => ⟨rfl, rfl⟩) k
  · exact rn_lnk _ (fun _ => ⟨rfl, rfl, rfl⟩) (fun _ => ⟨rfl, rfl⟩) k

theorem rn_takeFromLine (n : Nat) (c : Content) (h : Runs lk fit a s) : Runs lk fit a (takeFromLine n c s) := by
  unfold takeFromLine
  have k := tk_takeRequest 14 (fun _ => by decide) c h
  dsimp only
  split
  · exact rn_post _ k
  · exact k
  · exact k

theorem rn_submit (x : Sender) (c : Content) (hq : fit = true → s.lnk.partnersFit) (h : Runs true fit a s) : Runs true fit a (submit x c s) := by
  unfold submit
  split
  · exact rn_takeFromHost c h
  · split
    · rename_i hn; exact rn_arrive _ hn c hq h
    · exact h
  · exact rn_takeFromLine _ c h

/-! ## The fallback line -/

theorem rn_toggle (n : Nat) (k : Kind) (sc : Scope) (h : Runs lk fit a s) : Runs lk fit a (toggle n k sc s) := by
  unfold toggle
  split <;> exact rn_takeFromLine _ _ h

theorem rn_acknowledgeDoor (d : Fin 4) (h : Runs lk fit a s) : Runs lk fit a (acknowledgeDoor d s) := by
  unfold acknowledgeDoor
  split
  · exact rn_ite (rn_takeFromLine _ _ h) h
  · exact h

theorem rn_carryOut (n : Nat) (h : Runs lk fit a s) : Runs lk fit a (carryOut n s) := by
  unfold carryOut
  split
  · exact rn_toggle _ _ _ h
  · exact rn_toggle _ _ _ h
  · exact rn_foldl _ _ (fun _ d k => rn_acknowledgeDoor d k) h
  · exact rn_toggle _ _ _ h
  · exact h

theorem rn_changeFbl (f : Fbl → Fbl) (h : Runs lk fit a s) : Runs lk fit a (Dsv.changeFbl f s) := rn_dsv _ h

theorem rn_malformed (p : FblPhase) (h : Runs lk fit a s) : Runs lk fit a (malformed p s) := rn_post _ (rn_changeFbl _ h)

theorem rn_endCommand (h : Runs lk fit a s) : Runs lk fit a (endCommand s) :=
  rn_ite (rn_post _ (rn_changeFbl _ h)) (rn_carryOut _ (rn_changeFbl _ h))

theorem rn_runOut (h : Runs lk fit a s) : Runs lk fit a (runOut s) := by
  unfold runOut
  split
  · exact h
  · exact rn_malformed _ h
  · exact rn_malformed _ h
  · exact rn_malformed _ h
  · exact rn_endCommand h
  · exact rn_changeFbl _ h

theorem rn_lineFalls (h : Runs lk fit a s) : Runs lk fit a (lineFalls s) := by
  unfold lineFalls
  have t := rn_changeFbl (fun f => { f with level := false }) h
  dsimp only
  split
  · exact rn_changeFbl _ t
  · exact rn_ite (rn_malformed _ t) (rn_changeFbl _ t)
  · exact rn_ite (rn_changeFbl _ t) (rn_malformed _ t)
  · exact rn_changeFbl _ t
  · exact t
  · exact t

theorem rn_lineRises (h : Runs lk fit a s) : Runs lk fit a (lineRises s) := by
  unfold lineRises
  have t := rn_changeFbl (fun f => { f with level := true }) h
  dsimp only
  split
  · exact rn_ite (rn_changeFbl _ t) (rn_ite (rn_malformed _ t) (rn_changeFbl _ t))
  · exact rn_ite (rn_malformed _ t) (rn_changeFbl _ t)
  · exact rn_changeFbl _ t
  · exact t
  · exact t
  · exact t

theorem rn_lineEdge (b : Bool) (h : Runs lk fit a s) : Runs lk fit a (lineEdge b s) := by
  have k := rn_ite (p := s.dsv.fbl.overdue s.now = true) (rn_runOut h) h
  exact rn_ite h (rn_ite (rn_lineRises k) (rn_lineFalls k))

theorem rn_phaseTimeout (h : Runs lk fit a s) : Runs lk fit a (phaseTimeout s) := by
  unfold phaseTimeout
  split
  · exact rn_runOut (rn_advance _ h)
  · exact h

/-! ## The other events -/

theorem rn_stcUpdate (h : Runs lk fit a s) : Runs lk fit a (Stc.update s) := by
  have k := h.ev (ev_damp (ev_judgeJoint (ev_steer (ev_lookUp (ev_judgePlausibility (ev_takeInputs .refl))))))
  exact (rn_lnk (fun l => { l with steering := some (State.steeringFrame _), steerCount := l.steerCount + 1 })
    (fun _ => ⟨rfl, rfl, rfl⟩) (fun _ => ⟨rfl, rfl⟩) k).ev (ev_takeReport .refl)

theorem rn_brk (f : Brk → Brk) (h : Runs lk fit a s) : Runs lk fit a (s.modBrk f) := h.ev (ev_brk f .refl)

theorem rn_stc (f : Stc → Stc) (hf : ∀ x, (f x).bankA = x.bankA ∧ (f x).bankB = x.bankB) (h : Runs lk fit a s) : Runs lk fit a (s.modStc f) :=
  h.ev (ev_stc f hf .refl)

theorem rn_deadline (n : Nat) (h : Runs lk fit a s) : Runs lk fit a (deadlineRunsOut n s) := by
  unfold deadlineRunsOut
  split
  · exact h
  · split
    · exact rn_finish ((rn_advance _ h).ev (ev_expireEntry _ .refl))
    · exact h
    · exact h
    · exact h

theorem rn_speedUpdateAt (h : Runs lk fit a s) : Runs lk fit a (speedUpdateAt s) := rn_speedUpdate (rn_mot _ (rn_advance _ h))

theorem rn_cornerUpdateAt (c : Fin 6) (h : Runs lk fit a s) : Runs lk fit a (cornerUpdateAt c s) := by
  let n := (rd s.crn.corners c).lastUpdate + 20000
  have k := (rn_advance n h).ev (ev_crn
    (fun x => { x with corners := upd x.corners c fun y => { y with lastUpdate := (s.advanceTo n).now } })
    (fun x => quiet_upd x c _ fun _ => rfl) .refl)
  exact rn_finish (k.ev (ev_afterUpdate c (ev_crnUpdate c .refl)))

theorem rn_brakesMove (h : Runs lk fit a s) : Runs lk fit a (brakesMove s) :=
  (rn_brk _ (rn_advance _ h)).ev (ev_brkUpdate .refl)

theorem rn_steeringMoves (h : Runs lk fit a s) : Runs lk fit a (steeringMoves s) :=
  rn_stcUpdate (rn_stc (fun x => { x with lastUpdate := (s.advanceTo (s.stc.lastUpdate + 10000)).now }) (fun _ => ⟨rfl, rfl⟩)
    (rn_advance (s.stc.lastUpdate + 10000) h))

/-- Every command is a run of raw changes. -/
theorem exec_runs (fit : Bool) (i : Instr) (s t : State) (hq : fit = true → s.lnk.partnersFit) (he : exec i s = .next t) : Runs true fit s t := by
  have done : ∀ {u : State}, exec i s = .next u → Runs true fit s u → Runs true fit s t := by
    intro u hn hu
    rw [hn] at he
    injection he with e
    exact e ▸ hu
  have r : Runs true fit s s := .refl
  cases i with
  | coldReset => exact done rfl (r.tail (.cold s))
  | canFrameArrival f => exact done rfl (rn_receiveFrame f hq r)
  | canFrameSent => exact done rfl (rn_frameSent hq r)
  | answerAbandonTimeout => exact done rfl (rn_abandonAnswer hq r)
  | spiSelectAssert => exact done rfl (rn_selectAsserted r)
  | spiSelectWithdraw l => exact done rfl (rn_selectWithdrawn l r)
  | broadcastEvent => exact done rfl (rn_ite r (rn_placeBroadcast (rn_advance _ r)))
  | sampleEvent c raw => exact done rfl (rn_sampleAt c raw r)
  | analogChannelFaulty c raw => exact done rfl (rn_ite (rn_sampleAt c raw r) r)
  | analogChannelRecovery c raw => exact done rfl (rn_ite (rn_sampleAt c raw r) r)
  | wheelPulseEdge w d => exact done rfl (rn_mot _ r)
  | speedUpdate => exact done rfl (rn_speedUpdateAt r)
  | wheelZeroTimeout w => exact done rfl (rn_ite (rn_speedUpdateAt r) r)
  | wheelAgreementRecovery w => exact done rfl (rn_ite (rn_speedUpdateAt r) r)
  | settleTimerExpiry => exact done rfl (rn_ite (rn_speedUpdateAt r) r)
  | driveLineChange l b => exact done rfl (rn_mot _ r)
  | driveLineDebounceExpiry l =>
    refine done rfl ?_
    split
    · exact rn_lineSettles l (rn_advance _ r)
    · exact r
  | refreshDeadlineExpiry n => exact done rfl (rn_deadline _ r)
  | doorContactChange d b => exact done rfl (rn_dsv _ r)
  | doorContactDebounceExpiry d =>
    refine done rfl ?_
    split
    · exact rn_contactSettles d (rn_advance _ r)
    · exact r
  | driveInhReleaseExpiry => exact done rfl (rn_releaseDrive r)
  | fblEdge b => exact done rfl (rn_lineEdge b r)
  | fblPhaseTimeout => exact done rfl (rn_phaseTimeout r)
  | cornerUpdate c => exact done rfl (rn_cornerUpdateAt c r)
  | cornerQualified c => exact done rfl (rn_ite (rn_cornerUpdateAt c r) r)
  | actionTimeout c => exact done rfl (rn_ite (rn_cornerUpdateAt c r) r)
  | stallWatchSpan c => exact done rfl (rn_ite (rn_cornerUpdateAt c r) r)
  | brakeUpdate => exact done rfl (rn_finish (rn_brakesMove r))
  | holdConfirmed => exact done rfl (rn_ite (rn_finish (rn_brakesMove r)) r)
  | holdUnconfirmedTimeout => exact done rfl (rn_ite (rn_finish (rn_brakesMove r)) r)
  | holdLost => exact done rfl (rn_ite (rn_finish (rn_brakesMove r)) r)
  | holdRampEnd => exact done rfl (rn_ite (rn_finish (rn_brakesMove r)) r)
  | steeringUpdate => exact done rfl (rn_finish (rn_steeringMoves r))
  | disagreementTimeout => exact done rfl (rn_ite (rn_finish (rn_steeringMoves r)) r)
  | trackingErrorTimeout => exact done rfl (rn_ite (rn_finish (rn_steeringMoves r)) r)
  | centringTimeout => exact done rfl (rn_ite (rn_finish (rn_steeringMoves r)) r)
  | blankingEnd ch => exact done rfl (rn_timerEvent ch _ _ _ _ (fun n c hc => proper_endBlanking n c hc) r)
  | hardShort ch => exact done rfl (rn_properEvent ch (proper_hardShort _) r)
  | overCurrentStart ch => exact done rfl (rn_properEvent ch (proper_currentRises _) r)
  | overCurrentEnd ch => exact done rfl (rn_properEvent ch (proper_currentFalls _) r)
  | qualifyTimeExpiry ch =>
    exact done rfl (rn_timerEvent ch _ _ _ _ (fun n c hc => proper_trip n c (by rw [hc]; rfl)) r)
  | retryExpiry ch => exact done rfl (rn_timerEvent ch _ _ _ _ (fun n c hc => proper_endRetry n c hc) r)
  | cleanTimerExpiry ch =>
    exact done rfl (rn_timerEvent ch _ _ _ _ (fun _ c _ => ⟨proper_endSeries.command c, proper_endSeries.gated c⟩) r)
  | diagnosticCheck ch load => exact done rfl (rn_ite r (rn_properEvent ch (proper_diagnose load _) (rn_advance _ r)))
  | temperatureSample d =>
    exact done rfl (rn_finish (rn_sampleTemperature d (rn_vdaGates _ (fun _ => rfl) (rn_advance _ r))))
  | supplyVoltageSample n => exact done rfl (rn_supplyAt n r)
  | undervoltageGateClose n => exact done rfl (rn_ite (rn_supplyAt n r) r)
  | undervoltageGateOpen n => exact done rfl (rn_ite (rn_supplyAt n r) r)
  | nop x _ => exact done rfl (rn_submit x _ hq r)
  | openEntry x _ _ _ _ _ => exact done rfl (rn_submit x _ hq r)
  | amend x _ _ _ => exact done rfl (rn_submit x _ hq r)
  | refresh x _ _ => exact done rfl (rn_submit x _ hq r)
  | retire x _ _ => exact done rfl (rn_submit x _ hq r)
  | query x _ _ _ => exact done rfl (rn_submit x _ hq r)
  | list x _ _ => exact done rfl (rn_submit x _ hq r)
  | readMotion x _ _ => exact done rfl (rn_submit x _ hq r)
  | readCorner x _ _ _ => exact done rfl (rn_submit x _ hq r)
  | readAxle x _ _ _ _ => exact done rfl (rn_submit x _ hq r)
  | readSteer x _ _ _ => exact done rfl (rn_submit x _ hq r)
  | readNotices x _ _ => exact done rfl (rn_submit x _ hq r)
  | clearNotices x _ _ => exact done rfl (rn_submit x _ hq r)
  | setNoticeMask x _ _ => exact done rfl (rn_submit x _ hq r)
  | clearCorner x _ _ => exact done rfl (rn_submit x _ hq r)
  | clearChannel x _ _ => exact done rfl (rn_submit x _ hq r)
  | clearSteerFault x _ => exact done rfl (rn_submit x _ hq r)
  | swapBank x _ => exact done rfl (rn_submit x _ hq r)
  | writeBankRow x _ _ _ _ => exact done rfl (rn_submit x _ hq r)
  | writeSetting x _ _ _ _ => exact done rfl (rn_submit x _ hq r)
  | writeRegistry x _ _ _ _ _ => exact done rfl (rn_submit x _ hq r)
  | start x _ => exact done rfl (rn_submit x _ hq r)
  | restart x _ => exact done rfl (rn_submit x _ hq r)
  | enterSafe x _ => exact done rfl (rn_submit x _ hq r)

end Sys2Proof.Machine
end

