-- ==== Sys2Proof/Laws/Table.lean ====
section
/-! SUPPORT. What a hand-off and the end of an event leave of the Interlock Table: a hand-off to BRK, RLU, CRN and STC changes no
entry and no door, and the end of an event changes the underlying and the shown state of entries alone. -/

namespace Sys2Proof.Machine

@[simp] theorem crn_change_ilt (f : Fin 6 → Corner → Corner) (s : State) : (Crn.change f s).ilt = s.ilt := by
  unfold Crn.change
  simp
@[simp] theorem crn_changeOne_ilt (c : Fin 6) (f : Corner → Corner) (s : State) : (Crn.changeOne c f s).ilt = s.ilt := by
  unfold Crn.changeOne
  simp
@[simp] theorem crn_fromTable_ilt (s : State) : (Crn.fromTable s).ilt = s.ilt := by
  unfold Crn.fromTable
  simp
@[simp] theorem crn_fromChannels_ilt (s : State) : (Crn.fromChannels s).ilt = s.ilt := by
  unfold Crn.fromChannels
  simp
@[simp] theorem crn_fromDevice_ilt (s : State) : (Crn.fromDevice s).ilt = s.ilt := by
  unfold Crn.fromDevice
  simp
@[simp] theorem crn_fault_ilt (c : Fin 6) (r : CornerFault) (s : State) : (Crn.fault c r s).ilt = s.ilt := by
  unfold Crn.fault
  (repeat' split) <;> simp
@[simp] theorem crn_clearFault_ilt (c : Fin 6) (s : State) : (Crn.clearFault c s).ilt = s.ilt := by
  unfold Crn.clearFault
  simp
@[simp] theorem rlu_deriveKneel_ilt (s : State) : (Rlu.deriveKneel s).ilt = s.ilt := by
  unfold Rlu.deriveKneel
  simp
@[simp] theorem rlu_judgeCurbLow_ilt (s : State) : (Rlu.judgeCurbLow s).ilt = s.ilt := by
  unfold Rlu.judgeCurbLow
  simp
@[simp] theorem rlu_takeOffsets_ilt (r : Nat) (k : Vector Nat 6) (s : State) : (Rlu.takeOffsets r k s).ilt = s.ilt := by
  unfold Rlu.takeOffsets
  simp
@[simp] theorem rlu_fromTable_ilt (s : State) : (Rlu.fromTable s).ilt = s.ilt := by
  unfold Rlu.fromTable
  dsimp only
  (repeat' split) <;> simp
@[simp] theorem brk_command_ilt (s : State) : (Brk.command s).ilt = s.ilt := by
  unfold Brk.command
  simp
@[simp] theorem brk_raiseFloor_ilt (s : State) : (Brk.raiseFloor s).ilt = s.ilt := by
  unfold Brk.raiseFloor
  simp
@[simp] theorem brk_setWindow_ilt (b : Bool) (s : State) : (Brk.setWindow b s).ilt = s.ilt := by
  unfold Brk.setWindow
  simp
@[simp] theorem brk_enterApplying_ilt (m : Nat) (s : State) : (Brk.enterApplying m s).ilt = s.ilt := by
  unfold Brk.enterApplying
  simp
@[simp] theorem brk_enterHeld_ilt (s : State) : (Brk.enterHeld s).ilt = s.ilt := by
  unfold Brk.enterHeld
  simp
@[simp] theorem brk_enterRamping_ilt (s : State) : (Brk.enterRamping s).ilt = s.ilt := by
  unfold Brk.enterRamping
  dsimp only
  (repeat' split) <;> simp
@[simp] theorem brk_leaveWait_ilt (s : State) : (Brk.leaveWait s).ilt = s.ilt := by
  unfold Brk.leaveWait
  (repeat' split) <;> simp
@[simp] theorem brk_enterWait_ilt (s : State) : (Brk.enterWait s).ilt = s.ilt := by
  unfold Brk.enterWait
  simp
@[simp] theorem brk_reapply_ilt (m : Nat) (s : State) : (Brk.reapply m s).ilt = s.ilt := by
  unfold Brk.reapply
  dsimp only
  (repeat' split) <;> simp
@[simp] theorem brk_moveTarget_ilt (m : Nat) (s : State) : (Brk.moveTarget m s).ilt = s.ilt := by
  unfold Brk.moveTarget
  (repeat' split) <;> simp
@[simp] theorem brk_judge_ilt (s : State) : (Brk.judge s).ilt = s.ilt := by
  unfold Brk.judge
  (repeat' split) <;> simp
@[simp] theorem brk_markDoor_ilt (e : Entry) (s : State) : (Brk.markDoor e s).ilt = s.ilt := by
  unfold Brk.markDoor
  (repeat' split) <;> simp
@[simp] theorem stc_commandLock_ilt (s : State) : (Stc.commandLock s).ilt = s.ilt := by
  unfold Stc.commandLock
  simp
@[simp] theorem stc_startCentring_ilt (s : State) : (Stc.startCentring s).ilt = s.ilt := by
  unfold Stc.startCentring
  (repeat' split) <;> simp
@[simp] theorem handOff_ilt (v : EntryEvent) (e : Entry) (s : State) : (handOff v e s).ilt = s.ilt := by
  unfold handOff
  (repeat' split) <;> simp
@[simp] theorem crn_change_dsv (f : Fin 6 → Corner → Corner) (s : State) : (Crn.change f s).dsv = s.dsv := by
  unfold Crn.change
  simp
@[simp] theorem crn_changeOne_dsv (c : Fin 6) (f : Corner → Corner) (s : State) : (Crn.changeOne c f s).dsv = s.dsv := by
  unfold Crn.changeOne
  simp
@[simp] theorem crn_fromTable_dsv (s : State) : (Crn.fromTable s).dsv = s.dsv := by
  unfold Crn.fromTable
  simp
@[simp] theorem crn_fromChannels_dsv (s : State) : (Crn.fromChannels s).dsv = s.dsv := by
  unfold Crn.fromChannels
  simp
@[simp] theorem crn_fromDevice_dsv (s : State) : (Crn.fromDevice s).dsv = s.dsv := by
  unfold Crn.fromDevice
  simp
@[simp] theorem crn_fault_dsv (c : Fin 6) (r : CornerFault) (s : State) : (Crn.fault c r s).dsv = s.dsv := by
  unfold Crn.fault
  (repeat' split) <;> simp
@[simp] theorem crn_clearFault_dsv (c : Fin 6) (s : State) : (Crn.clearFault c s).dsv = s.dsv := by
  unfold Crn.clearFault
  simp
@[simp] theorem rlu_deriveKneel_dsv (s : State) : (Rlu.deriveKneel s).dsv = s.dsv := by
  unfold Rlu.deriveKneel
  simp
@[simp] theorem rlu_judgeCurbLow_dsv (s : State) : (Rlu.judgeCurbLow s).dsv = s.dsv := by
  unfold Rlu.judgeCurbLow
  simp
@[simp] theorem rlu_takeOffsets_dsv (r : Nat) (k : Vector Nat 6) (s : State) : (Rlu.takeOffsets r k s).dsv = s.dsv := by
  unfold Rlu.takeOffsets
  simp
@[simp] theorem rlu_fromTable_dsv (s : State) : (Rlu.fromTable s).dsv = s.dsv := by
  unfold Rlu.fromTable
  dsimp only
  (repeat' split) <;> simp
@[simp] theorem brk_command_dsv (s : State) : (Brk.command s).dsv = s.dsv := by
  unfold Brk.command
  simp
@[simp] theorem brk_raiseFloor_dsv (s : State) : (Brk.raiseFloor s).dsv = s.dsv := by
  unfold Brk.raiseFloor
  simp
@[simp] theorem brk_setWindow_dsv (b : Bool) (s : State) : (Brk.setWindow b s).dsv = s.dsv := by
  unfold Brk.setWindow
  simp
@[simp] theorem brk_enterApplying_dsv (m : Nat) (s : State) : (Brk.enterApplying m s).dsv = s.dsv := by
  unfold Brk.enterApplying
  simp
@[simp] theorem brk_enterHeld_dsv (s : State) : (Brk.enterHeld s).dsv = s.dsv := by
  unfold Brk.enterHeld
  simp
@[simp] theorem brk_enterRamping_dsv (s : State) : (Brk.enterRamping s).dsv = s.dsv := by
  unfold Brk.enterRamping
  dsimp only
  (repeat' split) <;> simp
@[simp] theorem brk_leaveWait_dsv (s : State) : (Brk.leaveWait s).dsv = s.dsv := by
  unfold Brk.leaveWait
  (repeat' split) <;> simp
@[simp] theorem brk_enterWait_dsv (s : State) : (Brk.enterWait s).dsv = s.dsv := by
  unfold Brk.enterWait
  simp
@[simp] theorem brk_reapply_dsv (m : Nat) (s : State) : (Brk.reapply m s).dsv = s.dsv := by
  unfold Brk.reapply
  dsimp only
  (repeat' split) <;> simp
@[simp] theorem brk_moveTarget_dsv (m : Nat) (s : State) : (Brk.moveTarget m s).dsv = s.dsv := by
  unfold Brk.moveTarget
  (repeat' split) <;> simp
@[simp] theorem brk_judge_dsv (s : State) : (Brk.judge s).dsv = s.dsv := by
  unfold Brk.judge
  (repeat' split) <;> simp
@[simp] theorem brk_markDoor_dsv (e : Entry) (s : State) : (Brk.markDoor e s).dsv = s.dsv := by
  unfold Brk.markDoor
  (repeat' split) <;> simp
@[simp] theorem stc_commandLock_dsv (s : State) : (Stc.commandLock s).dsv = s.dsv := by
  unfold Stc.commandLock
  simp
@[simp] theorem stc_startCentring_dsv (s : State) : (Stc.startCentring s).dsv = s.dsv := by
  unfold Stc.startCentring
  (repeat' split) <;> simp
@[simp] theorem handOff_dsv (v : EntryEvent) (e : Entry) (s : State) : (handOff v e s).dsv = s.dsv := by
  unfold handOff
  (repeat' split) <;> simp

/-- R29, R30: what the end of an event makes of the table. -/
theorem evaluate_ilt (s : State) : (evaluate s).ilt =
    { s.ilt with slots := mapF s.ilt.slots fun _ x =>
        { x with entry := x.entry.map fun e => e.evaluated (s.activates e.kind e.scope) } } := by
  have fold : ∀ (l : List Entry) (u : State), (l.foldl (fun s e => handOff .changed e s) u).ilt = u.ilt := by
    intro l
    induction l with
    | nil => exact fun _ => rfl
    | cons e l ih => intro u; rw [List.foldl_cons, ih, handOff_ilt]
  unfold evaluate
  dsimp only
  rw [fold, State.modIlt_ilt]

theorem evaluate_dsv (s : State) : (evaluate s).dsv = s.dsv := by
  have fold : ∀ (l : List Entry) (u : State), (l.foldl (fun s e => handOff .changed e s) u).dsv = u.dsv := by
    intro l
    induction l with
    | nil => exact fun _ => rfl
    | cons e l ih => intro u; rw [List.foldl_cons, ih, handOff_dsv]
  unfold evaluate
  dsimp only
  rw [fold, State.modIlt_dsv]

@[simp] theorem dsvJudge_ilt (s : State) : (Dsv.judge s).ilt = s.ilt := by
  unfold Dsv.judge
  simp

/-- With every live entry as its condition gives it, the end of an event judges DSV's outputs and does nothing more. -/
theorem finish_unmoved {s : State} (h : s.inRun = true → s.evaluated = true) : State.finish s = Dsv.judge s := by
  have once : s.evaluated = true → evaluateOnce s = s := fun k => if_pos k
  unfold State.finish reevaluate
  split
  · rename_i k
    rw [once (h k), once (h k), once (h k)]
  · rfl

end Sys2Proof.Machine
end

