-- ==== Sys2Proof/Laws/Evaluation.lean ====
section
/-! SUPPORT. The evaluation of the table (R28 to R30): the model's checks in terms of Safety.lean, what the hand-offs of an evaluation
can move, and that three evaluations settle the table (log 9). -/

namespace Sys2Proof.Machine

/-- R28: the model's activation check is the activation condition. -/
theorem activates_iff (s : State) (e : Entry) : s.activates e.kind e.scope = true ↔ s.ActiveWhen e := by
  unfold State.activates State.ActiveWhen State.standing
  cases e.kind <;> cases e.scope <;> simp [Scope.covers, and_assoc, or_iff_not_imp_left]

/-- R29, R30: every live entry stands as its condition gives it. -/
theorem evaluated_iff {s : State} (run : s.cfg.device = .run) : s.evaluated = true ↔ s.Evaluated := by
  have one : ∀ e : Entry, e.evaluated (s.activates e.kind e.scope) = e ↔
      (e.underlying = true ↔ s.ActiveWhen e) ∧
        (e.state = .waiting ∨ e.state = .active → e.state = if e.underlying then .active else .waiting) := by
    intro e
    rw [← activates_iff]
    obtain ⟨h, k, o, a, sc, p, st, u, d, c⟩ := e
    cases hb : s.activates k sc <;> cases u <;> cases st <;>
      simp [Entry.evaluated, EntryState.follows, shownState]
  unfold State.evaluated
  simp only [List.all_eq_true, decide_eq_true_eq, one]
  exact ⟨fun h => ⟨fun _ e he => (h e he).1, fun _ e he => (h e he).2⟩, fun h e he => ⟨h.underlying run e he, h.shown run e he⟩⟩

/-! ## What the hand-offs of an evaluation move -/

@[simp] theorem brk_command_beside (s : State) : (Brk.command s).rlu = s.rlu ∧ (Brk.command s).crn = s.crn := by
  unfold Brk.command
  simp
@[simp] theorem brk_raiseFloor_beside (s : State) : (Brk.raiseFloor s).rlu = s.rlu ∧ (Brk.raiseFloor s).crn = s.crn := by
  unfold Brk.raiseFloor
  simp
@[simp] theorem brk_setWindow_beside (b : Bool) (s : State) : (Brk.setWindow b s).rlu = s.rlu ∧ (Brk.setWindow b s).crn = s.crn := by
  unfold Brk.setWindow
  simp
@[simp] theorem brk_enterApplying_beside (m : Nat) (s : State) :
    (Brk.enterApplying m s).rlu = s.rlu ∧ (Brk.enterApplying m s).crn = s.crn := by
  unfold Brk.enterApplying
  simp
@[simp] theorem brk_enterHeld_beside (s : State) : (Brk.enterHeld s).rlu = s.rlu ∧ (Brk.enterHeld s).crn = s.crn := by
  unfold Brk.enterHeld
  simp
@[simp] theorem brk_enterRamping_beside (s : State) : (Brk.enterRamping s).rlu = s.rlu ∧ (Brk.enterRamping s).crn = s.crn := by
  unfold Brk.enterRamping
  dsimp only
  (repeat' split) <;> simp
@[simp] theorem brk_leaveWait_beside (s : State) : (Brk.leaveWait s).rlu = s.rlu ∧ (Brk.leaveWait s).crn = s.crn := by
  unfold Brk.leaveWait
  (repeat' split) <;> simp
@[simp] theorem brk_enterWait_beside (s : State) : (Brk.enterWait s).rlu = s.rlu ∧ (Brk.enterWait s).crn = s.crn := by
  unfold Brk.enterWait
  simp
@[simp] theorem brk_reapply_beside (m : Nat) (s : State) : (Brk.reapply m s).rlu = s.rlu ∧ (Brk.reapply m s).crn = s.crn := by
  unfold Brk.reapply
  dsimp only
  (repeat' split) <;> simp
@[simp] theorem brk_moveTarget_beside (m : Nat) (s : State) : (Brk.moveTarget m s).rlu = s.rlu ∧ (Brk.moveTarget m s).crn = s.crn := by
  unfold Brk.moveTarget
  (repeat' split) <;> simp
@[simp] theorem brk_judge_beside (s : State) : (Brk.judge s).rlu = s.rlu ∧ (Brk.judge s).crn = s.crn := by
  unfold Brk.judge
  (repeat' split) <;> simp
@[simp] theorem crn_fromTable_beside (s : State) : (Crn.fromTable s).rlu = s.rlu ∧ (Crn.fromTable s).brk = s.brk := by
  simp [Crn.fromTable, Crn.change]
@[simp] theorem rlu_takeOffsets_brk (r : Nat) (k : Vector Nat 6) (s : State) : (Rlu.takeOffsets r k s).brk = s.brk := by
  simp [Rlu.takeOffsets, Rlu.deriveKneel, Rlu.judgeCurbLow, Crn.change]
@[simp] theorem rlu_fromTable_brk (s : State) : (Rlu.fromTable s).brk = s.brk := by
  unfold Rlu.fromTable
  dsimp only
  split <;> simp
@[simp] theorem stc_startCentring_beside (s : State) :
    (Stc.startCentring s).brk = s.brk ∧ (Stc.startCentring s).rlu = s.rlu ∧ (Stc.startCentring s).crn = s.crn := by
  unfold Stc.startCentring Stc.commandLock
  split <;> simp

/-- The same corners are in FAULT. -/
def Crn.SameFaults (x y : Crn) : Prop := ∀ c, (rd y.corners c).state = .fault ↔ (rd x.corners c).state = .fault

theorem Crn.SameFaults.trans {x y z : Crn} (h : x.SameFaults y) (k : y.SameFaults z) : x.SameFaults z := fun c => (k c).trans (h c)

theorem grantOne_faults {x : Crn} (h : ∀ c ∈ x.queue, (rd x.corners c).state ≠ .fault) :
    (∀ c ∈ x.grantOne.queue, (rd x.grantOne.corners c).state ≠ .fault) ∧ x.SameFaults x.grantOne := by
  unfold Crn.SameFaults Crn.grantOne
  split
  · exact ⟨h, fun _ => Iff.rfl⟩
  · rename_i c rest hq
    split
    · have one : ∀ d, (rd (upd x.corners c (Corner.enter .filling)) d).state = .fault ↔ (rd x.corners d).state = .fault := by
        intro d
        rw [rd_upd]
        split
        · rename_i e
          subst e
          simpa [Corner.enter] using h c (by simp [hq])
        · rfl
      exact ⟨fun d hd => fun k => h d (by simp [hq, hd]) ((one d).mp k), one⟩
    · exact ⟨h, fun _ => Iff.rfl⟩

/-- The settling of the corners takes none into FAULT and none out of it. -/
theorem settle_faults (s : State) : s.crn.SameFaults (Crn.settle s).crn := by
  have waits : ∀ c ∈ s.crn.leaveQueue.queue, (rd s.crn.leaveQueue.corners c).state ≠ .fault := by
    intro c hc
    simp only [Crn.leaveQueue, List.mem_filter, decide_eq_true_eq] at hc
    simp [Crn.leaveQueue, hc.2]
  have h1 := grantOne_faults waits
  have h2 := grantOne_faults h1.1
  have h3 := grantOne_faults h2.1
  rw [settle_crn]
  exact (Crn.SameFaults.trans (fun _ => Iff.rfl) h1.2).trans (h2.2.trans h3.2)

theorem crn_change_faults {f : Fin 6 → Corner → Corner} (hf : ∀ c x, (f c x).state = .fault ↔ x.state = .fault) (s : State) :
    s.crn.SameFaults (Crn.change f s).crn := by
  refine Crn.SameFaults.trans (fun c => ?_) (settle_faults _)
  simpa using hf c _

theorem Corner.gain_fault (r : FreezeReason) (c : Corner) : (c.gain r).state = .fault ↔ c.state = .fault := by
  unfold Corner.gain
  grind [Corner.enter]

theorem Corner.lose_fault (r : FreezeReason) (c : Corner) : (c.lose r).state = .fault ↔ c.state = .fault := by
  unfold Corner.lose
  grind [Corner.enter]

theorem Corner.judge_fault (r : FreezeReason) (b : Bool) (c : Corner) : (c.judge r b).state = .fault ↔ c.state = .fault := by
  unfold Corner.judge
  split
  · exact c.gain_fault r
  · exact c.lose_fault r

theorem crn_fromTable_faults (s : State) : s.crn.SameFaults (Crn.fromTable s).crn :=
  crn_change_faults (fun _ x => ((x.judge _ _).judge_fault _ _).trans (x.judge_fault _ _)) s

theorem rlu_fromTable_faults (s : State) : s.crn.SameFaults (Rlu.fromTable s).crn := by
  unfold Rlu.fromTable
  dsimp only
  split
  · exact fun _ => by simp
  · unfold Rlu.takeOffsets Rlu.deriveKneel Rlu.judgeCurbLow
    dsimp only
    simp only [State.modRlu_crn]
    refine Crn.SameFaults.trans (fun c => ?_) (crn_change_faults (fun c x => ?_) _)
    · simp
    · split
      · rfl
      · exact x.lose_fault _

/-! ## BRK and RLU come to rest after one judgement -/

/-- BRK has nothing to judge anew: R123, R127, R129. -/
def State.BrakesRest (s : State) : Prop :=
  s.inRun = true →
    (s.contributorMax.isSome = true → s.brk.hold = .applying ∨ s.brk.hold = .held)
    ∧ (s.contributorMax = none → s.brk.hold = .released ∨ s.brk.hold = .ramping
      ∨ (s.brk.hold = .waitDrive ∧ ¬(s.mot.driveReq.debounced = true ∨ s.mot.motion = .rolling)))

/-- RLU has nothing to take into force: R104, R105. -/
def State.OffsetsRest (s : State) : Prop :=
  s.offsetsHeld = true ∨ (s.rideOffset = s.rlu.ride ∧ (Vector.ofFn fun c : Fin 6 => s.kneelOffset c) = s.rlu.kneel)

theorem State.live_congr {s t : State} (h : t.ilt = s.ilt) : t.live = s.live := by unfold State.live; rw [h]

theorem State.contributorMax_congr {s t : State} (hl : t.live = s.live) (hm : t.mot = s.mot) (hc : t.cfg = s.cfg) :
    t.contributorMax = s.contributorMax := by
  unfold State.contributorMax State.contributors
  rw [hl, hm, hc]

theorem State.offsets_congr {s t : State} (hl : t.live = s.live) (hc : t.cfg = s.cfg) :
    t.offsetsHeld = s.offsetsHeld ∧ t.rideOffset = s.rideOffset ∧ ∀ c, t.kneelOffset c = s.kneelOffset c := by
  unfold State.offsetsHeld State.anyLive State.rideOffset State.kneelOffset
  rw [hl, hc]
  exact ⟨rfl, rfl, fun _ => rfl⟩

theorem State.brakesRest_congr {s t : State} (hl : t.live = s.live) (hm : t.mot = s.mot) (hc : t.cfg = s.cfg)
    (hb : t.brk = s.brk) : t.BrakesRest ↔ s.BrakesRest := by
  unfold State.BrakesRest State.inRun
  rw [State.contributorMax_congr hl hm hc, hb, hm, hc]

theorem State.offsetsRest_congr {s t : State} (hl : t.live = s.live) (hc : t.cfg = s.cfg)
    (hr : t.rlu.ride = s.rlu.ride ∧ t.rlu.kneel = s.rlu.kneel) : t.OffsetsRest ↔ s.OffsetsRest := by
  obtain ⟨h1, h2, h3⟩ := State.offsets_congr hl hc
  unfold State.OffsetsRest
  rw [h1, h2, hr.1, hr.2]
  simp only [h3]

/-- What a hand-off of an evaluation can do to the inputs of R28: BRK's confirmation moves only where BRK then rests, and the kneel
state only where RLU then does; neither moves once its block rests. -/
structure Calm (s t : State) : Prop where
  ilt : t.ilt = s.ilt
  mot : t.mot = s.mot
  cfg : t.cfg = s.cfg
  faults : s.crn.SameFaults t.crn
  confirmed : t.brk.confirmed = s.brk.confirmed ∨ t.BrakesRest
  brakes : s.BrakesRest → t.BrakesRest ∧ t.brk.confirmed = s.brk.confirmed
  kneel : t.rlu.kneelState = s.rlu.kneelState ∨ t.OffsetsRest
  offsets : s.OffsetsRest → t.OffsetsRest ∧ t.rlu.kneelState = s.rlu.kneelState

theorem Calm.trans {s t u : State} (h : Calm s t) (k : Calm t u) : Calm s u where
  ilt := k.ilt.trans h.ilt
  mot := k.mot.trans h.mot
  cfg := k.cfg.trans h.cfg
  faults := h.faults.trans k.faults
  confirmed := by
    rcases h.confirmed with e | r
    · exact k.confirmed.imp_left fun x => x.trans e
    · exact .inr (k.brakes r).1
  brakes r := ⟨(k.brakes (h.brakes r).1).1, (k.brakes (h.brakes r).1).2.trans (h.brakes r).2⟩
  kneel := by
    rcases h.kneel with e | r
    · exact k.kneel.imp_left fun x => x.trans e
    · exact .inr (k.offsets r).1
  offsets r := ⟨(k.offsets (h.offsets r).1).1, (k.offsets (h.offsets r).1).2.trans (h.offsets r).2⟩

/-- A change that leaves the inputs of R28, BRK and RLU alone. -/
theorem calm_of_still {s t : State} (ilt : t.ilt = s.ilt) (mot : t.mot = s.mot) (cfg : t.cfg = s.cfg)
    (faults : s.crn.SameFaults t.crn) (brk : t.brk = s.brk) (rlu : t.rlu = s.rlu) : Calm s t where
  ilt := ilt
  mot := mot
  cfg := cfg
  faults := faults
  confirmed := .inl (by rw [brk])
  brakes r := ⟨(State.brakesRest_congr (State.live_congr ilt) mot cfg brk).mpr r, by rw [brk]⟩
  kneel := .inl (by rw [rlu])
  offsets r := ⟨(State.offsetsRest_congr (State.live_congr ilt) cfg ⟨by rw [rlu], by rw [rlu]⟩).mpr r, by rw [rlu]⟩

theorem Calm.refl (s : State) : Calm s s := calm_of_still rfl rfl rfl (fun _ => Iff.rfl) rfl rfl

@[simp] theorem brk_raiseFloor_hold (s : State) :
    (Brk.raiseFloor s).brk.hold = s.brk.hold ∧ (Brk.raiseFloor s).brk.confirmed = s.brk.confirmed := by
  simp [Brk.raiseFloor, Brk.command]
@[simp] theorem brk_setWindow_hold (b : Bool) (s : State) :
    (Brk.setWindow b s).brk.hold = s.brk.hold ∧ (Brk.setWindow b s).brk.confirmed = s.brk.confirmed := by
  simp [Brk.setWindow]
@[simp] theorem brk_moveTarget_hold (m : Nat) (s : State) :
    (Brk.moveTarget m s).brk.hold = s.brk.hold ∧ (Brk.moveTarget m s).brk.confirmed = s.brk.confirmed := by
  unfold Brk.moveTarget
  (repeat' split) <;> simp
@[simp] theorem brk_enterApplying_hold (m : Nat) (s : State) : (Brk.enterApplying m s).brk.hold = .applying := by
  simp [Brk.enterApplying]
theorem brk_reapply_hold (m : Nat) (s : State) : (Brk.reapply m s).brk.hold = .applying ∨ (Brk.reapply m s).brk.hold = .held := by
  unfold Brk.reapply Brk.enterHeld
  dsimp only
  split <;> simp
@[simp] theorem brk_enterRamping_hold (s : State) : (Brk.enterRamping s).brk.hold = .ramping := by
  unfold Brk.enterRamping
  dsimp only
  split <;> simp
theorem brk_leaveWait_hold (s : State) (h : s.brk.hold = .waitDrive) :
    (Brk.leaveWait s).brk.hold = .ramping
      ∨ ((Brk.leaveWait s).brk.hold = .waitDrive ∧ ¬(s.mot.driveReq.debounced = true ∨ s.mot.motion = .rolling)) := by
  unfold Brk.leaveWait
  split
  · exact .inl (brk_enterRamping_hold s)
  · rename_i k
    exact .inr ⟨h, fun d => k ⟨h, d⟩⟩

theorem brk_judge_rests (s : State) : (Brk.judge s).BrakesRest := by
  have base := (ev_brkJudge (a := s) (s := s) .refl).base
  have max := State.contributorMax_congr (State.live_congr (brk_judge_ilt s)) base.mot base.cfg
  intro run
  have run' : s.inRun = true := by simpa [State.inRun, base.cfg] using run
  rw [max, base.mot]
  unfold Brk.judge
  rw [if_pos run']
  split <;> rename_i hm hh <;> simp only [hm, Option.isSome_some, Option.isSome_none, Bool.false_eq_true, reduceCtorEq, true_implies,
    false_implies, true_and, and_true]
  · exact .inl (brk_enterApplying_hold _ s)
  · exact .inl ((brk_moveTarget_hold _ s).1.trans hh)
  · exact .inr ((brk_moveTarget_hold _ s).1.trans hh)
  · exact brk_reapply_hold _ s
  · exact brk_reapply_hold _ s
  · exact .inr (brk_leaveWait_hold _ (by simp))
  · exact .inr (brk_leaveWait_hold _ (by simp))
  · exact .inr (brk_leaveWait_hold _ hh)
  · exact .inl hh
  · exact .inr (.inl hh)

theorem brk_judge_confirmed {s : State} (h : s.BrakesRest) : (Brk.judge s).brk.confirmed = s.brk.confirmed := by
  unfold Brk.judge
  split
  · rename_i run
    have rest := h run
    split <;> rename_i hm hh <;> simp only [hm, hh] at rest <;> simp at rest
    · exact (brk_moveTarget_hold _ s).2
    · exact (brk_moveTarget_hold _ s).2
    · unfold Brk.leaveWait
      rw [if_neg]
      simp [rest]
    · rfl
    · rfl
  · rfl

theorem calm_brkJudge (s : State) : Calm s (Brk.judge s) where
  ilt := brk_judge_ilt s
  mot := (ev_brkJudge (a := s) (s := s) .refl).base.mot
  cfg := (ev_brkJudge (a := s) (s := s) .refl).base.cfg
  faults := fun c => by rw [(brk_judge_beside s).2]
  confirmed := .inr (brk_judge_rests s)
  brakes h := ⟨brk_judge_rests s, brk_judge_confirmed h⟩
  kneel := .inl (by rw [(brk_judge_beside s).1])
  offsets h := ⟨(State.offsetsRest_congr (State.live_congr (brk_judge_ilt s)) (ev_brkJudge (a := s) (s := s) .refl).base.cfg
    ⟨by rw [(brk_judge_beside s).1], by rw [(brk_judge_beside s).1]⟩).mpr h, by rw [(brk_judge_beside s).1]⟩

theorem rlu_takeOffsets_rlu (r : Nat) (k : Vector Nat 6) (s : State) :
    (Rlu.takeOffsets r k s).rlu.ride = r ∧ (Rlu.takeOffsets r k s).rlu.kneel = k := by
  simp [Rlu.takeOffsets, Rlu.deriveKneel, Rlu.judgeCurbLow, Crn.change]

theorem rlu_fromTable_rests (s : State) : (Rlu.fromTable s).OffsetsRest := by
  have base := (ev_rluFromTable (a := s) (s := s) .refl).base
  obtain ⟨h1, h2, h3⟩ := State.offsets_congr (State.live_congr (rlu_fromTable_ilt s)) base.cfg
  unfold State.OffsetsRest
  rw [h1, h2]
  simp only [h3]
  unfold Rlu.fromTable
  dsimp only
  split
  · rename_i k
    exact k.imp_right fun e => ⟨by simpa using e.1, by simpa using e.2⟩
  · exact .inr ⟨(rlu_takeOffsets_rlu _ _ _).1.symm, (rlu_takeOffsets_rlu _ _ _).2.symm⟩

theorem rlu_fromTable_kneel {s : State} (h : s.OffsetsRest) : (Rlu.fromTable s).rlu.kneelState = s.rlu.kneelState := by
  unfold Rlu.fromTable
  dsimp only
  rw [if_pos]
  · simp
  · exact h.imp_right fun e => ⟨by simpa using e.1, by simpa using e.2⟩

theorem calm_rluFromTable (s : State) : Calm s (Rlu.fromTable s) where
  ilt := rlu_fromTable_ilt s
  mot := (ev_rluFromTable (a := s) (s := s) .refl).base.mot
  cfg := (ev_rluFromTable (a := s) (s := s) .refl).base.cfg
  faults := rlu_fromTable_faults s
  confirmed := .inl (by rw [rlu_fromTable_brk])
  brakes h := ⟨(State.brakesRest_congr (State.live_congr (rlu_fromTable_ilt s)) (ev_rluFromTable (a := s) (s := s) .refl).base.mot
    (ev_rluFromTable (a := s) (s := s) .refl).base.cfg (rlu_fromTable_brk s)).mpr h, by rw [rlu_fromTable_brk]⟩
  kneel := .inr (rlu_fromTable_rests s)
  offsets h := ⟨rlu_fromTable_rests s, rlu_fromTable_kneel h⟩

theorem calm_crnFromTable (s : State) : Calm s (Crn.fromTable s) :=
  calm_of_still (crn_fromTable_ilt s) (ev_crnFromTable (a := s) (s := s) .refl).base.mot
    (ev_crnFromTable (a := s) (s := s) .refl).base.cfg (crn_fromTable_faults s) (crn_fromTable_beside s).2 (crn_fromTable_beside s).1

theorem calm_startCentring (s : State) : Calm s (Stc.startCentring s) :=
  calm_of_still (stc_startCentring_ilt s) (ev_startCentring (a := s) (s := s) .refl).base.mot
    (ev_startCentring (a := s) (s := s) .refl).base.cfg (fun c => by rw [(stc_startCentring_beside s).2.2])
    (stc_startCentring_beside s).1 (stc_startCentring_beside s).2.1

theorem calm_ite {p : Prop} [Decidable p] {s t u : State} (h : Calm s t) (k : Calm s u) : Calm s (if p then t else u) := by
  split <;> assumption

theorem calm_handOff (e : Entry) (s : State) : Calm s (handOff .changed e s) := by
  unfold handOff
  dsimp only
  rw [if_neg (show ¬(EntryEvent.changed = EntryEvent.opened) by decide)]
  have h1 := calm_ite (p := e.kind.holds = true) (calm_brkJudge s) (.refl s)
  have h2 := h1.trans (calm_ite (p := e.kind.rides = true) (calm_rluFromTable _) (.refl _))
  have h3 := h2.trans (calm_ite (p := e.kind.freezes = true) (calm_crnFromTable _) (.refl _))
  exact h3.trans (calm_ite (calm_startCentring _) (.refl _))

/-! ## The evaluations come to rest -/

/-- The state whose entries are evaluated, before the hand-offs of an evaluation. -/
def State.retabled (s : State) : State :=
  s.modIlt fun t =>
    { t with slots := mapF t.slots fun _ x => { x with entry := x.entry.map fun e => e.evaluated (s.activates e.kind e.scope) } }

theorem retabled_beside (s : State) : s.retabled.mot = s.mot ∧ s.retabled.cfg = s.cfg ∧ s.retabled.crn = s.crn
    ∧ s.retabled.brk = s.brk ∧ s.retabled.rlu = s.rlu := by
  simp [State.retabled]

theorem retabled_live (s : State) : s.retabled.live = s.live.map fun e => e.evaluated (s.activates e.kind e.scope) := by
  unfold State.live State.retabled
  simp only [State.modIlt_ilt, rd_mapF, List.map_filterMap]

theorem evaluate_calm (s : State) : Calm s.retabled (evaluate s) := by
  have fold : ∀ (l : List Entry) (u : State), Calm u (l.foldl (fun s e => handOff .changed e s) u) := by
    intro l
    induction l with
    | nil => exact Calm.refl
    | cons e l ih => intro u; exact (calm_handOff e u).trans (ih _)
  exact fold _ _

theorem evaluate_mot (s : State) : (evaluate s).mot = s.mot := (evaluate_calm s).mot.trans (retabled_beside s).1

theorem evaluate_cfg (s : State) : (evaluate s).cfg = s.cfg := (evaluate_calm s).cfg.trans (retabled_beside s).2.1

theorem evaluate_faults (s : State) : s.crn.SameFaults (evaluate s).crn := by
  have h := (evaluate_calm s).faults
  rw [(retabled_beside s).2.2.1] at h
  exact h

/-- The inputs of R28. -/
structure State.SameInputs (s t : State) : Prop where
  mot : t.mot = s.mot
  cfg : t.cfg = s.cfg
  faults : s.crn.SameFaults t.crn
  confirmed : t.brk.confirmed = s.brk.confirmed
  kneel : t.rlu.kneelState = s.rlu.kneelState

theorem activates_congr {s t : State} (h : s.SameInputs t) (k : Kind) (sc : Scope) : t.activates k sc = s.activates k sc := by
  unfold State.activates State.standing
  rw [h.mot, h.cfg, h.confirmed, h.kneel]
  simp only [h.faults _]

/-- A KNEEL or a RAISE does not read what an evaluation moves. -/
theorem activates_rides {s t : State} (mot : t.mot = s.mot) (cfg : t.cfg = s.cfg) (faults : s.crn.SameFaults t.crn) {k : Kind}
    (hk : k = .kneel ∨ k = .raise) (sc : Scope) : t.activates k sc = s.activates k sc := by
  rcases hk with e | e <;> subst e
  · simp only [State.activates, State.standing, mot, cfg, faults _]
  · rfl

/-- The KNEEL and RAISE entries stand as their conditions give them. -/
def State.RidesStand (s : State) : Prop :=
  ∀ e ∈ s.live, e.kind = .kneel ∨ e.kind = .raise → e.evaluated (s.activates e.kind e.scope) = e

theorem Entry.evaluated_kind (b : Bool) (e : Entry) : (e.evaluated b).kind = e.kind ∧ (e.evaluated b).scope = e.scope := ⟨rfl, rfl⟩

theorem Entry.evaluated_evaluated (b : Bool) (e : Entry) : (e.evaluated b).evaluated b = e.evaluated b := by
  obtain ⟨h, k, o, a, sc, p, st, u, d, c⟩ := e
  cases b <;> cases st <;> simp [Entry.evaluated, EntryState.follows, shownState]

theorem evaluate_live (s : State) : (evaluate s).live = s.live.map fun e => e.evaluated (s.activates e.kind e.scope) :=
  (State.live_congr (evaluate_calm s).ilt).trans (retabled_live s)

theorem evaluate_stands (s : State) : (evaluate s).RidesStand := by
  intro e he hk
  rw [evaluate_live, List.mem_map] at he
  obtain ⟨f, _, rfl⟩ := he
  rw [(f.evaluated_kind _).1] at hk
  rw [(f.evaluated_kind _).1, (f.evaluated_kind _).2, activates_rides (evaluate_mot s) (evaluate_cfg s) (evaluate_faults s) hk,
    Entry.evaluated_evaluated]

theorem evaluate_settled {s : State} (confirmed : (evaluate s).brk.confirmed = s.brk.confirmed)
    (kneel : (evaluate s).rlu.kneelState = s.rlu.kneelState) : (evaluate s).evaluated = true := by
  have same : s.SameInputs (evaluate s) := ⟨evaluate_mot s, evaluate_cfg s, evaluate_faults s, confirmed, kneel⟩
  simp only [State.evaluated, List.all_eq_true, decide_eq_true_eq, activates_congr same, evaluate_live, List.mem_map]
  rintro e ⟨f, _, rfl⟩
  rw [(f.evaluated_kind _).1, (f.evaluated_kind _).2, Entry.evaluated_evaluated]

theorem contributes_evaluated (b : Bool) (m : MotionState) (e : Entry) : (e.evaluated b).contributes m = e.contributes m := by
  obtain ⟨h, k, o, a, sc, p, st, u, d, c⟩ := e
  cases b <;> cases st <;> simp [Entry.evaluated, EntryState.follows, shownState, Entry.contributes, Entry.isSelf]

theorem retabled_brakesRest {s : State} (h : s.BrakesRest) : s.retabled.BrakesRest := by
  have pressure : ∀ (b : Bool) (n : Nat) (e : Entry), (e.evaluated b).holdPressure n = e.holdPressure n := fun _ _ _ => rfl
  have max : s.retabled.contributorMax = s.contributorMax := by
    unfold State.contributorMax State.contributors
    rw [retabled_live, List.filter_map]
    simp only [Function.comp_def, contributes_evaluated, List.foldl_map, pressure, List.isEmpty_map, (retabled_beside s).1,
      (retabled_beside s).2.1]
  unfold State.BrakesRest State.inRun
  rw [max, (retabled_beside s).1, (retabled_beside s).2.1, (retabled_beside s).2.2.2.1]
  exact h

theorem retabled_offsetsRest {s : State} (stand : s.RidesStand) (h : s.OffsetsRest) : s.retabled.OffsetsRest := by
  have any : ∀ p : Entry → Bool, (∀ e ∈ s.live, p (e.evaluated (s.activates e.kind e.scope)) = p e) →
      s.retabled.live.any p = s.live.any p := by
    intro p hp
    rw [retabled_live, List.any_map, Bool.eq_iff_iff]
    simp only [List.any_eq_true, Function.comp]
    exact ⟨fun ⟨e, he, k⟩ => ⟨e, he, hp e he ▸ k⟩, fun ⟨e, he, k⟩ => ⟨e, he, (hp e he).symm ▸ k⟩⟩
  have keep : ∀ p : Entry → Bool, (∀ e ∈ s.live, p e = true → e.kind = .kneel ∨ e.kind = .raise) →
      (∀ e ∈ s.live, p (e.evaluated (s.activates e.kind e.scope)) = true → e.kind = .kneel ∨ e.kind = .raise) →
      s.retabled.live.filter p = s.live.filter p := by
    intro p h1 h2
    rw [retabled_live, List.filter_map]
    have same : ∀ e ∈ s.live, (p ∘ fun e => e.evaluated (s.activates e.kind e.scope)) e = p e := by
      intro e he
      rw [Bool.eq_iff_iff]
      constructor
      · intro k
        have := stand e he (h2 e he k)
        simpa [Function.comp, this] using k
      · intro k
        simpa [Function.comp, stand e he (h1 e he k)] using k
    rw [List.filter_congr same]
    conv_rhs => rw [← List.map_id (s.live.filter p)]
    refine List.map_congr_left fun e he => ?_
    rw [List.mem_filter] at he
    exact stand e he.1 (h1 e he.1 he.2)
  have held : s.retabled.offsetsHeld = s.offsetsHeld := by
    unfold State.offsetsHeld State.anyLive
    rw [any, any]
    · intro e _
      obtain ⟨h, k, o, a, sc, p, st, u, d, c⟩ := e
      cases st <;> cases s.activates k sc <;> simp [Entry.evaluated, EntryState.follows, shownState]
    · exact fun _ _ => rfl
  have ride : s.retabled.rideOffset = s.rideOffset := by
    unfold State.rideOffset
    rw [keep] <;> intro e _ k <;> simp only [decide_eq_true_eq] at k
    · exact .inr k.1
    · exact .inr k.1
  have kneel : ∀ c, s.retabled.kneelOffset c = s.kneelOffset c := by
    intro c
    unfold State.kneelOffset
    rw [(retabled_beside s).2.1, keep] <;> intro e _ k <;> simp only [Bool.and_eq_true, decide_eq_true_eq] at k
    · exact .inl k.1.1
    · exact .inl k.1.1
  unfold State.OffsetsRest
  rw [held, ride, (retabled_beside s).2.2.2.2]
  simp only [kneel]
  exact h

/-- R29, R30, log 9: three evaluations settle the table: in RUN every live entry then stands as its condition gives it. -/
theorem reevaluate_evaluated {s : State} (run : s.inRun = true) : (reevaluate s).evaluated = true := by
  have brakes : ∀ {u : State}, u.BrakesRest → (evaluate u).BrakesRest ∧ (evaluate u).brk.confirmed = u.brk.confirmed :=
    fun h => ⟨((evaluate_calm _).brakes (retabled_brakesRest h)).1,
      ((evaluate_calm _).brakes (retabled_brakesRest h)).2.trans (by rw [(retabled_beside _).2.2.2.1])⟩
  have offsets : ∀ {u : State}, u.RidesStand → u.OffsetsRest →
      (evaluate u).OffsetsRest ∧ (evaluate u).rlu.kneelState = u.rlu.kneelState :=
    fun hs h => ⟨((evaluate_calm _).offsets (retabled_offsetsRest hs h)).1,
      ((evaluate_calm _).offsets (retabled_offsetsRest hs h)).2.trans (by rw [(retabled_beside _).2.2.2.2])⟩
  have confirmed : ∀ u : State, (evaluate u).brk.confirmed = u.brk.confirmed ∨ (evaluate u).BrakesRest :=
    fun u => (evaluate_calm u).confirmed.imp_left fun e => e.trans (by rw [(retabled_beside u).2.2.2.1])
  have kneel : ∀ u : State, (evaluate u).rlu.kneelState = u.rlu.kneelState ∨ (evaluate u).OffsetsRest :=
    fun u => (evaluate_calm u).kneel.imp_left fun e => e.trans (by rw [(retabled_beside u).2.2.2.2])
  have once : ∀ u : State, u.evaluated = true → evaluateOnce u = u := fun _ h => if_pos h
  have moved : ∀ {u : State}, u.evaluated ≠ true → evaluateOnce u = evaluate u := fun h => if_neg h
  unfold reevaluate
  rw [if_pos run]
  by_cases h0 : s.evaluated = true
  · rw [once s h0, once s h0, once s h0]; exact h0
  rw [moved h0]
  by_cases h1 : (evaluate s).evaluated = true
  · rw [once _ h1, once _ h1]; exact h1
  rw [moved h1]
  by_cases h2 : (evaluate (evaluate s)).evaluated = true
  · rw [once _ h2]; exact h2
  rw [moved h2]
  have stand1 := evaluate_stands s
  have stand2 := evaluate_stands (evaluate s)
  have rests : (evaluate (evaluate s)).BrakesRest ∧ (evaluate (evaluate s)).OffsetsRest := by
    have first : (evaluate s).BrakesRest ∨ (evaluate s).OffsetsRest := by
      rcases confirmed s with c | c
      · rcases kneel s with k | k
        · exact absurd (evaluate_settled c k) h1
        · exact .inr k
      · exact .inl c
    rcases first with c | k
    · refine ⟨(brakes c).1, ?_⟩
      rcases kneel (evaluate s) with k | k
      · exact absurd (evaluate_settled (brakes c).2 k) h2
      · exact k
    · refine ⟨?_, (offsets stand1 k).1⟩
      rcases confirmed (evaluate s) with c | c
      · exact absurd (evaluate_settled c (offsets stand1 k).2) h2
      · exact c
  exact evaluate_settled (brakes rests.1).2 (offsets stand2 rests.2).2

/-- The end of an event leaves the table evaluated. -/
theorem finish_evaluated (s : State) : (State.finish s).Evaluated := by
  have off : (State.finish s).cfg.device ≠ .run → (State.finish s).Evaluated := fun h => ⟨fun k => absurd k h, fun k => absurd k h⟩
  by_cases run : (State.finish s).cfg.device = .run
  · refine (evaluated_iff run).mp ?_
    have run' : s.inRun = true := by simpa [State.inRun, (finish_base s).cfg] using run
    have key := reevaluate_evaluated run'
    have live : (Dsv.judge (reevaluate s)).live = (reevaluate s).live := State.live_congr (dsvJudge_ilt _)
    have same : (reevaluate s).SameInputs (Dsv.judge (reevaluate s)) := by
      constructor <;> simp [Dsv.judge, Crn.SameFaults]
    unfold State.finish State.evaluated
    rw [live]
    simp only [activates_congr same]
    exact key
  · exact off run

end Sys2Proof.Machine
end

