-- ==== Sys2Proof/Laws/HandOffs.lean ====
section
/-! SUPPORT. What BRK and CRN make of the table at a hand-off, in terms of Safety.lean: BRK's judgement leaves the hold that the
contributors give (R120 to R129), and CRN's the RAMP and SERVICE reasons that the live entries give (R94). -/

namespace Sys2Proof.Machine

/-! ## The contributors (R120, R121) -/

/-- R120: the model's check of a contributor is the contribution. -/
theorem Entry.contributes_iff (e : Entry) (m : MotionState) : e.contributes m = true ↔ e.HoldsIn m := by
  simp [Entry.contributes, Entry.HoldsIn, Entry.isSelf, and_assoc, or_assoc]

/-- R121: the model's pressure of a contributor is its pressure. -/
theorem Entry.holdPressure_eq {e : Entry} {m : MotionState} (h : e.HoldsIn m) (d : Nat) : e.holdPressure d = e.pressure d := by
  obtain ⟨k | k | k | k, -⟩ := h <;> simp [Entry.holdPressure, Entry.pressure, k]

theorem State.mem_contributors {s : State} {e : Entry} : e ∈ s.contributors ↔ e ∈ s.live ∧ e.HoldsIn s.mot.motion := by
  rw [State.contributors, List.mem_filter, Entry.contributes_iff]

theorem State.contributorMax_none {s : State} : s.contributorMax = none ↔ ∀ e ∈ s.live, ¬ e.HoldsIn s.mot.motion := by
  have empty : s.contributors = [] ↔ ∀ e ∈ s.live, ¬ e.HoldsIn s.mot.motion := by
    simp only [List.eq_nil_iff_forall_not_mem, State.mem_contributors, not_and]
  rw [← empty, State.contributorMax]
  split <;> simp_all [List.isEmpty_iff]

theorem foldl_max_spec (f : Entry → Nat) (l : List Entry) (n : Nat) :
    n ≤ l.foldl (fun acc e => max acc (f e)) n ∧ (∀ e ∈ l, f e ≤ l.foldl (fun acc e => max acc (f e)) n)
      ∧ (l.foldl (fun acc e => max acc (f e)) n = n ∨ ∃ e ∈ l, f e = l.foldl (fun acc e => max acc (f e)) n) := by
  induction l generalizing n with
  | nil => simp
  | cons a l ih =>
    obtain ⟨low, all, got⟩ := ih (max n (f a))
    rw [List.foldl_cons]
    refine ⟨by omega, fun e he => ?_, ?_⟩
    · rcases List.mem_cons.mp he with rfl | he
      · omega
      · exact all e he
    · rcases got with got | ⟨e, he, got⟩
      · rcases Nat.le_total (f a) n with h | h
        · exact .inl (by omega)
        · exact .inr ⟨a, List.mem_cons_self, by omega⟩
      · exact .inr ⟨e, List.mem_cons_of_mem _ he, got⟩

/-- R121: the contributor maximum is the pressure of a contributor, and none is above it. -/
theorem State.contributorMax_some {s : State} {h : Nat} (eq : s.contributorMax = some h) :
    (∀ e ∈ s.live, e.HoldsIn s.mot.motion → e.pressure s.cfg.settings.doorHold ≤ h)
      ∧ ∃ e ∈ s.live, e.HoldsIn s.mot.motion ∧ e.pressure s.cfg.settings.doorHold = h := by
  unfold State.contributorMax at eq
  split at eq
  · cases eq
  · rename_i some
    obtain ⟨low, all, got⟩ := foldl_max_spec (fun e => e.holdPressure s.cfg.settings.doorHold) s.contributors 0
    rw [Option.some.inj eq] at low all got
    refine ⟨fun e he k => ?_, ?_⟩
    · rw [← Entry.holdPressure_eq k]
      exact all e (State.mem_contributors.mpr ⟨he, k⟩)
    · obtain ⟨e, he, k⟩ : ∃ e ∈ s.contributors, e.holdPressure s.cfg.settings.doorHold = h := by
        rcases got with z | k
        · obtain ⟨e, he⟩ := List.exists_mem_of_ne_nil s.contributors (by simpa [List.isEmpty_iff] using some)
          exact ⟨e, he, by have := all e he; omega⟩
        · exact k
      obtain ⟨hl, hk⟩ := State.mem_contributors.mp he
      exact ⟨e, hl, hk, by rw [← Entry.holdPressure_eq hk]; exact k⟩

/-! ## BRK's judgement (R120 to R129) -/

@[simp] theorem brk_raiseFloor_target (s : State) : (Brk.raiseFloor s).brk.target = s.brk.target := by
  simp [Brk.raiseFloor, Brk.command]

@[simp] theorem brk_setWindow_target (b : Bool) (s : State) : (Brk.setWindow b s).brk.target = s.brk.target := by
  simp [Brk.setWindow]

@[simp] theorem brk_enterApplying_target (m : Nat) (s : State) : (Brk.enterApplying m s).brk.target = m := by
  simp [Brk.enterApplying]

theorem brk_moveTarget_target (m : Nat) (s : State) : (Brk.moveTarget m s).brk.target = m := by
  unfold Brk.moveTarget
  split
  · rename_i h
    exact h.symm
  · dsimp only
    split <;> simp

theorem brk_reapply_target (m : Nat) (s : State) : (Brk.reapply m s).brk.target = m := by
  unfold Brk.reapply Brk.enterHeld
  dsimp only
  split <;> simp

/-- R121, R123, R126, R129: with a contributor in RUN the judgement leaves H at the contributor maximum. -/
theorem brk_judge_target {s : State} {m : Nat} (run : s.inRun = true) (h : s.contributorMax = some m) : (Brk.judge s).brk.target = m := by
  unfold Brk.judge
  rw [if_pos run, h]
  cases s.brk.hold <;> simp [brk_moveTarget_target, brk_reapply_target]

/-- R120, R121, R123, R127, R129: what BRK's judgement leaves is what the table gives. -/
theorem brk_judge_holdsFit (s : State) : (Brk.judge s).HoldsFit := by
  have base := (ev_brkJudge (a := s) (s := s) .refl).base
  have live := State.live_congr (brk_judge_ilt s)
  have rests := brk_judge_rests s
  have max := State.contributorMax_congr live base.mot base.cfg
  constructor
  · intro run some
    have run' : (Brk.judge s).inRun = true := by simpa [State.inRun] using run
    obtain ⟨m, hm⟩ : ∃ m, (Brk.judge s).contributorMax = .some m := by
      rw [← Option.isSome_iff_exists, Option.isSome_iff_ne_none, ne_eq, State.contributorMax_none]
      obtain ⟨e, he, k⟩ := some
      exact fun none => none e he k
    have target : (Brk.judge s).brk.target = m :=
      brk_judge_target (by simpa [State.inRun, base.cfg] using run') (by rw [← max]; exact hm)
    rw [target]
    exact ⟨(rests run').1 (by rw [hm]; rfl), State.contributorMax_some hm⟩
  · intro run none
    have := (rests (by simpa [State.inRun] using run)).2 (State.contributorMax_none.mpr none)
    simpa [not_or] using this

/-! ## CRN's freeze reasons of the table (R94, R95) -/

theorem FreezeSet.put_self {f : FreezeSet} {r : FreezeReason} {b : Bool} (h : f.has r = b) : f.put r b = f := by
  cases f
  cases r <;> cases h <;> rfl

theorem Corner.judge_reasons (r : FreezeReason) (b : Bool) (c : Corner) : (c.judge r b).reasons = c.reasons.put r b := by
  unfold Corner.judge Corner.gain Corner.lose Corner.enter
  cases b <;> simp only [Bool.false_eq_true, ↓reduceIte] <;> (repeat' split) <;>
    first
      | rfl
      | exact (FreezeSet.put_self (by assumption)).symm
      | exact (FreezeSet.put_self (Bool.eq_false_iff.mpr (by assumption))).symm

theorem crn_grantOne_reasons (x : Crn) (c : Fin 6) : (rd x.grantOne.corners c).reasons = (rd x.corners c).reasons := by
  unfold Crn.grantOne
  split
  · rfl
  · split
    · dsimp only
      rw [rd_upd]
      split
      · rename_i e
        rw [e]
        rfl
      · rfl
    · rfl

@[simp] theorem settle_reasons (s : State) (c : Fin 6) : (rd (Crn.settle s).crn.corners c).reasons = (rd s.crn.corners c).reasons := by
  rw [settle_crn, Crn.grant, crn_grantOne_reasons, crn_grantOne_reasons, crn_grantOne_reasons]
  rfl

theorem crn_change_reasons (f : Fin 6 → Corner → Corner) (s : State) (c : Fin 6) :
    (rd (Crn.change f s).crn.corners c).reasons = (f c (rd s.crn.corners c)).reasons := by
  rw [Crn.change, settle_reasons]
  simp

/-- R94: what CRN takes from the table is what the live entries give. -/
theorem crn_fromTable_freezesFit (s : State) : (Crn.fromTable s).FreezesFit := by
  have live : (Crn.fromTable s).live = s.live := State.live_congr (crn_change_ilt _ s)
  intro c
  rw [live, Crn.fromTable, crn_change_reasons, Corner.judge_reasons, Corner.judge_reasons]
  simp [FreezeSet.put, State.anyLive]

end Sys2Proof.Machine
end

