-- ==== Sys2Proof/Laws/Invariants.lean ====
section
/-! SUPPORT. The properties of Safety.lean under one raw change: each is kept by it. -/

namespace Sys2Proof.Machine

/-! ## Notices -/

theorem attnFor_iff {notices : Vector NoticeFlag 14} {mask : BitVec 14} :
    attnFor notices mask = true ↔ ∃ i : Fin 14, (rd notices i).raised = true ∧ mask.getLsbD i.val = true := by
  simp [attnFor]

theorem noticesFit_judged {l : Lnk} (record : ∀ i, (rd l.notices i).raised = true ↔ (rd l.notices i).record.isSome = true)
    (flag : ∀ i n, (rd l.notices i).record = some n → n.flag = i)
    (repeated : ∀ i, (rd l.notices i).repeated = true → (rd l.notices i).raised = true) : l.judgeAttn.NoticesFit :=
  ⟨attnFor_iff, record, flag, repeated⟩

theorem noticesFit_congr {l m : Lnk} (h : l.NoticesFit) (e : m.notices = l.notices ∧ m.mask = l.mask ∧ m.attn = l.attn) :
    m.NoticesFit := by
  obtain ⟨e1, e2, e3⟩ := e
  constructor
  · rw [e1, e2, e3]; exact h.attn
  · rw [e1]; exact h.record
  · rw [e1]; exact h.flag
  · rw [e1]; exact h.repeated

theorem noticesFit_post (n : Notice) {s : State} (h : s.lnk.NoticesFit) : (s.post n).lnk.NoticesFit := by
  refine noticesFit_judged (fun i => ?_) (fun i m hm => ?_) (fun i hi => ?_)
  all_goals simp only [rd_upd, NoticeFlag.take] at *
  · split
    · rename_i e; subst e
      split
      · exact h.record _
      · simp
    · exact h.record i
  · split at hm
    · rename_i e; subst e
      split at hm
      · exact h.flag _ _ hm
      · simp only [Option.some.injEq] at hm; rw [hm]
    · exact h.flag i m hm
  · split
    · rename_i e; subst e
      split
      · assumption
      · rfl
    · rename_i e
      rw [if_neg e] at hi
      exact h.repeated i hi

theorem noticesFit_initial (now : Nat) (mask : BitVec 14) (onBus : Option TxFrame) : (Lnk.initial now mask onBus).NoticesFit := by
  constructor <;> simp [Lnk.initial]

theorem raw_noticesFit {lk fit : Bool} {s t : State} (r : Raw lk fit s t) (h : s.lnk.NoticesFit) : t.lnk.NoticesFit := by
  cases r with
  | move m =>
    cases m with
    | post n => exact noticesFit_post n h
    | drop => simpa using h
    | settle => simpa using h
    | touch => simpa using h
    | place => simpa using h
    | dsv => simpa using h
    | crn => simpa using h
    | rlu => simpa using h
    | brk => simpa using h
    | stc => simpa using h
    | command => simpa using h
  | lnk f _ e _ => exact noticesFit_congr h e
  | link f _ _ e => exact noticesFit_congr h e
  | clearFlags w =>
    refine noticesFit_judged (fun i => ?_) (fun i m hm => ?_) (fun i hi => ?_)
    all_goals simp only [rd_mapF, NoticeFlag.clear] at *
    · split
      · simp
      · exact h.record i
    · split at hm
      · exact absurd hm (by simp)
      · exact h.flag i m hm
    · split at hi
      · exact absurd hi (by simp)
      · rename_i e
        rw [if_neg e]
        exact h.repeated i hi
  | setMask w => exact noticesFit_judged h.record h.flag h.repeated
  | odd => simpa using h
  | cold => exact noticesFit_initial _ _ _
  | warm => exact noticesFit_initial _ _ _
  | clock => exact h
  | fresh => exact h
  | mot => exact h
  | contacts => exact h
  | registry => exact h
  | dsv => exact h
  | vda => exact h
  | bank => exact h
  | settings => exact h
  | device => exact h

/-! ## Valve channels -/

theorem gated_take (now value : Nat) {c : Channel} (h : c.gated) : (c.take now value).gated := by
  unfold Channel.take Channel.follow Channel.switchOn Channel.switchOff
  simp only [Channel.gated, Channel.marked, ChannelState.driven] at *
  grind

theorem gated_command (ch : Fin 18) (v : Nat) {s : State} (h : s.vda.Gated) : (s.command ch v).vda.Gated := by
  intro c
  show (rd (upd s.vda.channels ch (Channel.take s.now v)) c).gated
  rw [rd_upd]
  split
  · rename_i e; subst e; exact gated_take _ _ (h _)
  · exact h c

theorem gated_settle {s : State} (h : s.vda.Gated) : (Crn.settle s).vda.Gated := by
  have all : ∀ (l : List (Fin 6)) (u : State), u.vda.Gated → (l.foldl (fun s c => s.commandCorner c) u).vda.Gated := by
    intro l
    induction l with
    | nil => exact fun _ k => k
    | cons c l ih => exact fun u k => ih _ (gated_command _ _ (gated_command _ _ k))
  unfold Crn.settle State.commandCorners
  exact gated_command _ _ (all _ (s.modCrn fun x => x.leaveQueue.grant) h)

theorem gated_initial (now : Nat) (o : Vector Bool 18) : (Vda.initial now o).Gated := by
  intro c
  simp [Vda.initial, Channel.initial, Channel.gated, Channel.marked]

theorem raw_gated {lk fit : Bool} {s t : State} (r : Raw lk fit s t) (h : s.vda.Gated) : t.vda.Gated := by
  cases r with
  | move m =>
    cases m with
    | drop => simpa using h
    | settle f _ _ => exact gated_settle h
    | command ch v _ _ => exact gated_command ch v h
    | post => simpa using h
    | touch => simpa using h
    | place => simpa using h
    | dsv => simpa using h
    | crn => simpa using h
    | rlu => simpa using h
    | brk => simpa using h
    | stc => simpa using h
  | vda f _ k => exact fun c => (k c).2 (h c)
  | odd => simpa using h
  | cold => exact gated_initial _ _
  | warm => exact gated_initial _ _
  | lnk => exact h
  | link => exact h
  | clearFlags => exact h
  | setMask => exact h
  | clock => exact h
  | fresh => exact h
  | mot => exact h
  | contacts => exact h
  | registry => exact h
  | dsv => exact h
  | bank => exact h
  | settings => exact h
  | device => exact h

/-! ## Settings and banks -/

theorem bank_initial_inRange : Bank.initial.inRange := by
  refine ⟨by decide, fun i => ?_⟩
  simp [Bank.initial, Row.inRange]

theorem settings_default_inRange : Settings.default.inRange = true := by decide

theorem raw_ranges {lk fit : Bool} {s t : State} (r : Raw lk fit s t) (h : s.RangesFit) : t.RangesFit := by
  cases r with
  | move m =>
    have b := m.base
    exact ⟨by rw [b.cfg]; exact h.1, by rw [b.bankA]; exact h.2.1, by rw [b.bankB]; exact h.2.2⟩
  | bank id b _ k =>
    cases id with
    | a => exact ⟨h.1, k h.2.1, h.2.2⟩
    | b => exact ⟨h.1, h.2.1, k h.2.2⟩
  | settings g _ k => exact ⟨k h.1, h.2⟩
  | odd => simpa [State.RangesFit] using h
  | cold => exact ⟨settings_default_inRange, bank_initial_inRange, bank_initial_inRange⟩
  | warm => exact h
  | vda => exact h
  | lnk => exact h
  | link => exact h
  | clearFlags => exact h
  | setMask => exact h
  | clock => exact h
  | fresh => exact h
  | mot => exact h
  | contacts => exact h
  | registry => exact h
  | dsv => exact h
  | device => exact h

/-! ## Corners -/

theorem fillingCount_le {x y : Crn} (h : Crn.NoNewFill x y) : y.fillingCount ≤ x.fillingCount := by
  unfold Crn.fillingCount
  refine List.Sublist.length_le (List.monotone_filter_right _ fun c hc => ?_)
  simp only [decide_eq_true_eq] at hc ⊢
  exact h c hc

theorem fillingCount_pos {x : Crn} : 0 < x.fillingCount ↔ ∃ c, (rd x.corners c).state = .filling := by
  unfold Crn.fillingCount
  rw [List.length_pos_iff_exists_mem]
  simp

/-- R92: a grant adds at most one corner, and none when three fill. -/
theorem grantOne_few {x : Crn} (h : x.fillingCount ≤ 3) : x.grantOne.fillingCount ≤ 3 := by
  unfold Crn.grantOne
  split
  · exact h
  · rename_i c rest _
    split
    · rename_i hlt
      have key : ((List.finRange 6).filter fun d => decide ((rd (upd x.corners c (Corner.enter .filling)) d).state = .filling)).length
          ≤ (c :: (List.finRange 6).filter fun d => decide ((rd x.corners d).state = .filling)).length := by
        refine List.Subperm.length_le (List.subperm_of_subset ((List.nodup_finRange 6).filter _) fun d hd => ?_)
        simp only [List.mem_filter, decide_eq_true_eq, rd_upd] at hd
        by_cases e : c = d
        · subst e; exact List.mem_cons_self
        · rw [if_neg e] at hd
          exact List.mem_cons_of_mem _ (by simpa using hd.2)
      simp only [Crn.fillingCount, List.length_cons] at key hlt ⊢
      omega
    · exact h

theorem grant_few {x : Crn} (h : x.fillingCount ≤ 3) : x.grant.fillingCount ≤ 3 :=
  grantOne_few (grantOne_few (grantOne_few h))

theorem cornersFit_settle {s : State} (h : s.crn.fillingCount ≤ 3) : (Crn.settle s).CornersFit := by
  have hc := commandCorners_commands (s.modCrn fun x => x.leaveQueue.grant)
  have hs : Crn.settle s = (s.modCrn fun x => x.leaveQueue.grant).commandCorners := rfl
  have hcrn : (s.modCrn fun x => x.leaveQueue.grant).crn = s.crn.leaveQueue.grant := rfl
  constructor
  · rw [settle_crn]; exact grant_few h
  · intro c
    rw [settle_crn, hs, hc.1 c, hcrn, bit]
    simp
  · intro c
    rw [settle_crn, hs, hc.2.1 c, hcrn, bit]
    simp
  · rw [settle_crn, hs, hc.2.2, hcrn, bit]
    simp [fillingCount_pos]

theorem cornersFit_congr {s t : State} (h : s.CornersFit) (hs : ∀ c, (rd t.crn.corners c).state = (rd s.crn.corners c).state)
    (hv : ∀ d : Fin 18, d.val ≤ 12 → (rd t.vda.channels d).command = (rd s.vda.channels d).command) : t.CornersFit := by
  constructor
  · have : t.crn.fillingCount = s.crn.fillingCount := by simp only [Crn.fillingCount, hs]
    rw [this]; exact h.few
  · intro c; rw [hv _ (by simp only [fillChannel]; omega), hs]; exact h.fill c
  · intro c; rw [hv _ (by simp only [exhaustChannel]; omega), hs]; exact h.exhaust c
  · rw [hv _ (by decide)]; simp only [hs]; exact h.supply

theorem cornersFit_initial {s : State} (n : Nat) (o : Vector Bool 18) (hc : s.crn = Crn.initial n) (hv : s.vda = Vda.initial n o) :
    s.CornersFit := by
  constructor
  · rw [hc]; simp [Crn.initial, Crn.fillingCount, Corner.initial]
  all_goals simp [hc, hv, Crn.initial, Vda.initial, Channel.initial, Corner.initial]

theorem raw_cornersFit {lk fit : Bool} {s t : State} (r : Raw lk fit s t) (h : s.CornersFit) : t.CornersFit := by
  cases r with
  | move m =>
    cases m with
    | drop => exact cornersFit_congr h (fun _ => by simp) fun _ _ => by simp
    | settle f _ k => exact cornersFit_settle (le_trans (fillingCount_le k) h.few)
    | command ch v _ k =>
      refine cornersFit_congr h (fun _ => rfl) fun d hd => ?_
      rw [rd_command, if_neg]
      intro e
      rw [e] at k
      omega
    | crn f _ k => exact cornersFit_congr h (fun c => k.2 c) fun _ _ => rfl
    | post => exact cornersFit_congr h (fun _ => by simp) fun _ _ => by simp
    | touch => exact cornersFit_congr h (fun _ => by simp) fun _ _ => by simp
    | place => exact cornersFit_congr h (fun _ => by simp) fun _ _ => by simp
    | dsv => exact cornersFit_congr h (fun _ => by simp) fun _ _ => by simp
    | rlu => exact cornersFit_congr h (fun _ => by simp) fun _ _ => by simp
    | brk => exact cornersFit_congr h (fun _ => by simp) fun _ _ => by simp
    | stc => exact cornersFit_congr h (fun _ => by simp) fun _ _ => by simp
  | vda f _ k => exact cornersFit_congr h (fun _ => rfl) fun d _ => (k d).1
  | odd => exact cornersFit_congr h (fun _ => by simp) fun _ _ => by simp
  | cold => exact cornersFit_initial _ _ rfl rfl
  | warm => exact cornersFit_initial _ _ rfl rfl
  | lnk => exact cornersFit_congr h (fun _ => rfl) fun _ _ => rfl
  | link => exact cornersFit_congr h (fun _ => rfl) fun _ _ => rfl
  | clearFlags => exact cornersFit_congr h (fun _ => rfl) fun _ _ => rfl
  | setMask => exact cornersFit_congr h (fun _ => rfl) fun _ _ => rfl
  | clock => exact cornersFit_congr h (fun _ => rfl) fun _ _ => rfl
  | fresh => exact cornersFit_congr h (fun _ => rfl) fun _ _ => rfl
  | mot => exact cornersFit_congr h (fun _ => rfl) fun _ _ => rfl
  | contacts => exact cornersFit_congr h (fun _ => rfl) fun _ _ => rfl
  | registry => exact cornersFit_congr h (fun _ => rfl) fun _ _ => rfl
  | dsv => exact cornersFit_congr h (fun _ => rfl) fun _ _ => rfl
  | bank => exact cornersFit_congr h (fun _ => rfl) fun _ _ => rfl
  | settings => exact cornersFit_congr h (fun _ => rfl) fun _ _ => rfl
  | device => exact cornersFit_congr h (fun _ => rfl) fun _ _ => rfl

/-! ## Ride level (R106) -/

theorem targetsFit_initial : Rlu.initial.TargetsFit := by
  intro c
  simp [Rlu.initial, rd_replicate]

theorem raw_targetsFit {lk fit : Bool} {s t : State} (r : Raw lk fit s t) (h : s.rlu.TargetsFit) : t.rlu.TargetsFit := by
  cases r with
  | move m =>
    cases m with
    | rlu f _ k => exact k h
    | _ => simpa using h
  | cold => exact targetsFit_initial
  | warm => exact targetsFit_initial
  | clearFlags => exact h
  | setMask => exact h
  | _ => simpa using h

end Sys2Proof.Machine
end

