-- ==== Sys2Proof/Laws/PerInstr.lean ====
section
/-! SUPPORT. The family Request: a command is a request exactly when it has a sender, and the last byte of a request's content is 0
(section 10.3). -/

namespace Sys2Proof.Laws.Request

/-- A command has request content exactly when it has a sender, of that sender, and byte 7 of the content is 0. -/
def Statement (i : Instr) : Prop :=
  i.request?.map Prod.fst = i.sender? ∧ i.request?.all (fun r => decide (r.2.b7 = 0)) = true

theorem coldReset : Statement (.coldReset) := ⟨rfl, rfl⟩
theorem canFrameArrival (frame : CanFrame) : Statement (.canFrameArrival frame) := ⟨rfl, rfl⟩
theorem canFrameSent : Statement (.canFrameSent) := ⟨rfl, rfl⟩
theorem answerAbandonTimeout : Statement (.answerAbandonTimeout) := ⟨rfl, rfl⟩
theorem spiSelectAssert : Statement (.spiSelectAssert) := ⟨rfl, rfl⟩
theorem spiSelectWithdraw (received : List Byte) : Statement (.spiSelectWithdraw received) := ⟨rfl, rfl⟩
theorem nop (sender : Sender) (tag : Byte) : Statement (.nop sender tag) := ⟨rfl, rfl⟩
theorem openEntry (sender : Sender) (tag kind scope : Byte) (parameter : Word16) (handle : Byte) : Statement (.openEntry sender tag kind scope parameter handle) := ⟨rfl, rfl⟩
theorem amend (sender : Sender) (tag handle : Byte) (parameter : Word16) : Statement (.amend sender tag handle parameter) := ⟨rfl, rfl⟩
theorem refresh (sender : Sender) (tag handle : Byte) : Statement (.refresh sender tag handle) := ⟨rfl, rfl⟩
theorem retire (sender : Sender) (tag handle : Byte) : Statement (.retire sender tag handle) := ⟨rfl, rfl⟩
theorem query (sender : Sender) (tag handle group : Byte) : Statement (.query sender tag handle group) := ⟨rfl, rfl⟩
theorem list (sender : Sender) (tag : Byte) (index : Word16) : Statement (.list sender tag index) := ⟨rfl, rfl⟩
theorem readMotion (sender : Sender) (tag part : Byte) : Statement (.readMotion sender tag part) := ⟨rfl, rfl⟩
theorem readCorner (sender : Sender) (tag corner group : Byte) : Statement (.readCorner sender tag corner group) := ⟨rfl, rfl⟩
theorem readAxle (sender : Sender) (tag axle group part : Byte) : Statement (.readAxle sender tag axle group part) := ⟨rfl, rfl⟩
theorem readSteer (sender : Sender) (tag group part : Byte) : Statement (.readSteer sender tag group part) := ⟨rfl, rfl⟩
theorem readNotices (sender : Sender) (tag flag : Byte) : Statement (.readNotices sender tag flag) := ⟨rfl, rfl⟩
theorem clearNotices (sender : Sender) (tag : Byte) (flags : Word16) : Statement (.clearNotices sender tag flags) := ⟨rfl, rfl⟩
theorem setNoticeMask (sender : Sender) (tag : Byte) (mask : Word16) : Statement (.setNoticeMask sender tag mask) := ⟨rfl, rfl⟩
theorem clearCorner (sender : Sender) (tag corner : Byte) : Statement (.clearCorner sender tag corner) := ⟨rfl, rfl⟩
theorem clearChannel (sender : Sender) (tag channel : Byte) : Statement (.clearChannel sender tag channel) := ⟨rfl, rfl⟩
theorem clearSteerFault (sender : Sender) (tag : Byte) : Statement (.clearSteerFault sender tag) := ⟨rfl, rfl⟩
theorem swapBank (sender : Sender) (tag : Byte) : Statement (.swapBank sender tag) := ⟨rfl, rfl⟩
theorem writeBankRow (sender : Sender) (tag bankField row : Byte) (value : Word16) : Statement (.writeBankRow sender tag bankField row value) := ⟨rfl, rfl⟩
theorem writeSetting (sender : Sender) (tag number place : Byte) (value : Word16) : Statement (.writeSetting sender tag number place value) := ⟨rfl, rfl⟩
theorem writeRegistry (sender : Sender) (tag record rank kinds : Byte) (window : Word16) : Statement (.writeRegistry sender tag record rank kinds window) := ⟨rfl, rfl⟩
theorem start (sender : Sender) (tag : Byte) : Statement (.start sender tag) := ⟨rfl, rfl⟩
theorem restart (sender : Sender) (tag : Byte) : Statement (.restart sender tag) := ⟨rfl, rfl⟩
theorem enterSafe (sender : Sender) (tag : Byte) : Statement (.enterSafe sender tag) := ⟨rfl, rfl⟩
theorem broadcastEvent : Statement (.broadcastEvent) := ⟨rfl, rfl⟩
theorem sampleEvent (channel : Fin 21) (raw : BitVec 12) : Statement (.sampleEvent channel raw) := ⟨rfl, rfl⟩
theorem analogChannelFaulty (channel : Fin 21) (raw : BitVec 12) : Statement (.analogChannelFaulty channel raw) := ⟨rfl, rfl⟩
theorem analogChannelRecovery (channel : Fin 21) (raw : BitVec 12) : Statement (.analogChannelRecovery channel raw) := ⟨rfl, rfl⟩
theorem wheelPulseEdge (wheel : Fin 4) (rotation : Direction) : Statement (.wheelPulseEdge wheel rotation) := ⟨rfl, rfl⟩
theorem speedUpdate : Statement (.speedUpdate) := ⟨rfl, rfl⟩
theorem wheelZeroTimeout (wheel : Fin 4) : Statement (.wheelZeroTimeout wheel) := ⟨rfl, rfl⟩
theorem wheelAgreementRecovery (wheel : Fin 4) : Statement (.wheelAgreementRecovery wheel) := ⟨rfl, rfl⟩
theorem settleTimerExpiry : Statement (.settleTimerExpiry) := ⟨rfl, rfl⟩
theorem driveLineChange (line : DriveLine) (level : Bool) : Statement (.driveLineChange line level) := ⟨rfl, rfl⟩
theorem driveLineDebounceExpiry (line : DriveLine) : Statement (.driveLineDebounceExpiry line) := ⟨rfl, rfl⟩
theorem refreshDeadlineExpiry (handle : Byte) : Statement (.refreshDeadlineExpiry handle) := ⟨rfl, rfl⟩
theorem doorContactChange (door : Fin 4) (level : Bool) : Statement (.doorContactChange door level) := ⟨rfl, rfl⟩
theorem doorContactDebounceExpiry (door : Fin 4) : Statement (.doorContactDebounceExpiry door) := ⟨rfl, rfl⟩
theorem driveInhReleaseExpiry : Statement (.driveInhReleaseExpiry) := ⟨rfl, rfl⟩
theorem fblEdge (level : Bool) : Statement (.fblEdge level) := ⟨rfl, rfl⟩
theorem fblPhaseTimeout : Statement (.fblPhaseTimeout) := ⟨rfl, rfl⟩
theorem cornerUpdate (corner : Fin 6) : Statement (.cornerUpdate corner) := ⟨rfl, rfl⟩
theorem cornerQualified (corner : Fin 6) : Statement (.cornerQualified corner) := ⟨rfl, rfl⟩
theorem actionTimeout (corner : Fin 6) : Statement (.actionTimeout corner) := ⟨rfl, rfl⟩
theorem stallWatchSpan (corner : Fin 6) : Statement (.stallWatchSpan corner) := ⟨rfl, rfl⟩
theorem brakeUpdate : Statement (.brakeUpdate) := ⟨rfl, rfl⟩
theorem holdConfirmed : Statement (.holdConfirmed) := ⟨rfl, rfl⟩
theorem holdUnconfirmedTimeout : Statement (.holdUnconfirmedTimeout) := ⟨rfl, rfl⟩
theorem holdLost : Statement (.holdLost) := ⟨rfl, rfl⟩
theorem holdRampEnd : Statement (.holdRampEnd) := ⟨rfl, rfl⟩
theorem steeringUpdate : Statement (.steeringUpdate) := ⟨rfl, rfl⟩
theorem disagreementTimeout : Statement (.disagreementTimeout) := ⟨rfl, rfl⟩
theorem trackingErrorTimeout : Statement (.trackingErrorTimeout) := ⟨rfl, rfl⟩
theorem centringTimeout : Statement (.centringTimeout) := ⟨rfl, rfl⟩
theorem blankingEnd (channel : Fin 18) : Statement (.blankingEnd channel) := ⟨rfl, rfl⟩
theorem hardShort (channel : Fin 18) : Statement (.hardShort channel) := ⟨rfl, rfl⟩
theorem overCurrentStart (channel : Fin 18) : Statement (.overCurrentStart channel) := ⟨rfl, rfl⟩
theorem overCurrentEnd (channel : Fin 18) : Statement (.overCurrentEnd channel) := ⟨rfl, rfl⟩
theorem qualifyTimeExpiry (channel : Fin 18) : Statement (.qualifyTimeExpiry channel) := ⟨rfl, rfl⟩
theorem retryExpiry (channel : Fin 18) : Statement (.retryExpiry channel) := ⟨rfl, rfl⟩
theorem cleanTimerExpiry (channel : Fin 18) : Statement (.cleanTimerExpiry channel) := ⟨rfl, rfl⟩
theorem diagnosticCheck (channel : Fin 18) (load : Bool) : Statement (.diagnosticCheck channel load) := ⟨rfl, rfl⟩
theorem temperatureSample (degrees : Int) : Statement (.temperatureSample degrees) := ⟨rfl, rfl⟩
theorem supplyVoltageSample (tenths : Nat) : Statement (.supplyVoltageSample tenths) := ⟨rfl, rfl⟩
theorem undervoltageGateClose (tenths : Nat) : Statement (.undervoltageGateClose tenths) := ⟨rfl, rfl⟩
theorem undervoltageGateOpen (tenths : Nat) : Statement (.undervoltageGateOpen tenths) := ⟨rfl, rfl⟩

end Sys2Proof.Laws.Request
end

