-- ==== Sys2Proof/Laws/Requests.lean ====
section
/-! SUPPORT. What a request command comes to: the owner's function of its row, and the answer given to the sender. -/

namespace Sys2Proof.Machine

/-- A request command is the submission of its content. -/
theorem exec_request {i : Instr} {x : Sender} {c : Content} (h : i.request? = some (x, c)) (s : State):
    exec i s = .next (submit x c s) := by
  cases i <;> simp only [Instr.request?, Option.some.injEq, Prod.mk.injEq, reduceCtorEq] at h <;>
    (obtain ⟨rfl, rfl⟩ := h; rfl)

/-- The parameter of a request's bytes is the word laid into them. -/
@[simp] theorem requestBytes_parameter (type tag kind scope handle : Byte) (w : Word16):
    (requestBytes type tag kind scope w handle).parameter = w := by
  simp only [requestBytes, Content.parameter, hiByte, loByte]
  ext i hi
  simp only [BitVec.getElem_append, BitVec.getElem_extractLsb']
  split
  · simp [BitVec.getLsbD_eq_getElem hi]
  · rename_i k
    have : 8 + (i - 8) = i := by omega
    simp [this, BitVec.getLsbD_eq_getElem hi]

/-- With the answer buffer empty, the frame at the front of the queue is taken. -/
theorem takeFrame_front {s : State} {f : QueuedFrame} {rest : List QueuedFrame} (hq : s.lnk.queue = f :: rest)
    (ha : s.lnk.answer = none) {u : State} (hu : (s.modLnk fun l => { l with queue := rest }) = u) :
    takeFrame s =
      State.reply (.can f.partner) f.content.b1 (takeRequest (Fin.ofNat 16 f.partner) f.content u).2
        (takeRequest (Fin.ofNat 16 f.partner) f.content u).1 := by
  subst hu
  unfold takeFrame
  split
  · rename_i g r hg _
    rw [hq] at hg
    injection hg with h1 h2
    subst h1 h2
    rfl
  · rename_i ha'
    rw [ha] at ha'
    exact absurd ha' (by simp)
  · rename_i hg
    rw [hq] at hg
    exact absurd hg (by simp)

/-- A request that is heard is taken at once, and its answer given to the sender. -/
theorem submit_heard {s : State} {x : Sender} (h : s.hears x) (c : Content) :
    submit x c s = State.reply x c.b1 (takeRequest x.partner c s).2 (takeRequest x.partner c s).1 := by
  cases x with
  | host => rfl
  | line n => rfl
  | can n =>
    obtain ⟨hw, hq, ha⟩ := h
    have hn : 1 ≤ n ∧ n ≤ 13 := by simpa [Sender.wf] using hw
    have ht : (s.modLnk fun l => { l with queue := l.queue ++ [{ partner := n, content := c }] }).lnk.queue =
        [{ partner := n, content := c }] := by simp [State.modLnk, hq]
    have hs : ((s.modLnk fun l => { l with queue := l.queue ++ [{ partner := n, content := c }] }).modLnk
        fun l => { l with queue := [] }) = s := by
      simp only [State.modLnk]
      rw [← hq]
    have hd : ¬ 4 ≤ s.lnk.queue.length := by simp [hq]
    have he : s.lnk.queue.isEmpty = true ∧ s.lnk.answer = none := ⟨by simp [hq], ha⟩
    simp only [submit, if_pos hn, arrive, if_neg hd, if_pos he]
    rw [takeFrame_front ht ha hs]
    rfl

theorem exec_nop_heard {s : State} {x : Sender} (h : s.hears x) (t : Byte):
    exec (.nop x t) s = .next (State.reply x t (requestNop x.partner s).2 (requestNop x.partner s).1) := by
  rw [exec_request (i := .nop x t) rfl, submit_heard h]
  simp only [takeRequest, requestBytes_parameter]
  rfl

theorem exec_openEntry_heard {s : State} {x : Sender} (hx : s.hears x) (t : Byte) (k : Byte) (sc : Byte) (w : Word16) (h : Byte):
    exec (.openEntry x t k sc w h) s = .next (State.reply x t (requestOpen x.partner k.toNat sc.toNat w.toNat h.toNat s).2 (requestOpen x.partner k.toNat sc.toNat w.toNat h.toNat s).1) := by
  rw [exec_request (i := .openEntry x t k sc w h) rfl, submit_heard hx]
  simp only [takeRequest, requestBytes_parameter]
  rfl

theorem exec_amend_heard {s : State} {x : Sender} (hx : s.hears x) (t : Byte) (h : Byte) (w : Word16):
    exec (.amend x t h w) s = .next (State.reply x t (requestAmend x.partner h.toNat w.toNat s).2 (requestAmend x.partner h.toNat w.toNat s).1) := by
  rw [exec_request (i := .amend x t h w) rfl, submit_heard hx]
  simp only [takeRequest, requestBytes_parameter]
  rfl

theorem exec_refresh_heard {s : State} {x : Sender} (hx : s.hears x) (t : Byte) (h : Byte):
    exec (.refresh x t h) s = .next (State.reply x t (requestRefresh x.partner h.toNat s).2 (requestRefresh x.partner h.toNat s).1) := by
  rw [exec_request (i := .refresh x t h) rfl, submit_heard hx]
  simp only [takeRequest, requestBytes_parameter]
  rfl

theorem exec_retire_heard {s : State} {x : Sender} (hx : s.hears x) (t : Byte) (h : Byte):
    exec (.retire x t h) s = .next (State.reply x t (requestRetire x.partner h.toNat s).2 (requestRetire x.partner h.toNat s).1) := by
  rw [exec_request (i := .retire x t h) rfl, submit_heard hx]
  simp only [takeRequest, requestBytes_parameter]
  rfl

theorem exec_query_heard {s : State} {x : Sender} (hx : s.hears x) (t : Byte) (h : Byte) (g : Byte):
    exec (.query x t h g) s = .next (State.reply x t (requestQuery x.partner h.toNat g.toNat s).2 (requestQuery x.partner h.toNat g.toNat s).1) := by
  rw [exec_request (i := .query x t h g) rfl, submit_heard hx]
  simp only [takeRequest, requestBytes_parameter]
  rfl

theorem exec_list_heard {s : State} {x : Sender} (hx : s.hears x) (t : Byte) (w : Word16):
    exec (.list x t w) s = .next (State.reply x t (requestList x.partner w.toNat s).2 (requestList x.partner w.toNat s).1) := by
  rw [exec_request (i := .list x t w) rfl, submit_heard hx]
  simp only [takeRequest, requestBytes_parameter]
  rfl

theorem exec_readMotion_heard {s : State} {x : Sender} (hx : s.hears x) (t : Byte) (n : Byte):
    exec (.readMotion x t n) s = .next (State.reply x t (requestReadMotion x.partner n.toNat s).2 (requestReadMotion x.partner n.toNat s).1) := by
  rw [exec_request (i := .readMotion x t n) rfl, submit_heard hx]
  simp only [takeRequest, requestBytes_parameter]
  rfl

theorem exec_readCorner_heard {s : State} {x : Sender} (hx : s.hears x) (t : Byte) (c : Byte) (g : Byte):
    exec (.readCorner x t c g) s = .next (State.reply x t (requestReadCorner x.partner c.toNat g.toNat s).2 (requestReadCorner x.partner c.toNat g.toNat s).1) := by
  rw [exec_request (i := .readCorner x t c g) rfl, submit_heard hx]
  simp only [takeRequest, requestBytes_parameter]
  rfl

theorem exec_readAxle_heard {s : State} {x : Sender} (hx : s.hears x) (t : Byte) (n : Byte) (g : Byte) (q : Byte):
    exec (.readAxle x t n g q) s = .next (State.reply x t (requestReadAxle x.partner n.toNat g.toNat q.toNat s).2 (requestReadAxle x.partner n.toNat g.toNat q.toNat s).1) := by
  rw [exec_request (i := .readAxle x t n g q) rfl, submit_heard hx]
  simp only [takeRequest, requestBytes_parameter]
  rfl

theorem exec_readSteer_heard {s : State} {x : Sender} (hx : s.hears x) (t : Byte) (g : Byte) (q : Byte):
    exec (.readSteer x t g q) s = .next (State.reply x t (requestReadSteer x.partner g.toNat q.toNat s).2 (requestReadSteer x.partner g.toNat q.toNat s).1) := by
  rw [exec_request (i := .readSteer x t g q) rfl, submit_heard hx]
  simp only [takeRequest, requestBytes_parameter]
  rfl

theorem exec_readNotices_heard {s : State} {x : Sender} (hx : s.hears x) (t : Byte) (n : Byte):
    exec (.readNotices x t n) s = .next (State.reply x t (requestReadNotices x.partner n.toNat s).2 (requestReadNotices x.partner n.toNat s).1) := by
  rw [exec_request (i := .readNotices x t n) rfl, submit_heard hx]
  simp only [takeRequest, requestBytes_parameter]
  rfl

theorem exec_clearNotices_heard {s : State} {x : Sender} (hx : s.hears x) (t : Byte) (w : Word16):
    exec (.clearNotices x t w) s = .next (State.reply x t (requestClearNotices x.partner w s).2 (requestClearNotices x.partner w s).1) := by
  rw [exec_request (i := .clearNotices x t w) rfl, submit_heard hx]
  simp only [takeRequest, requestBytes_parameter]
  rfl

theorem exec_setNoticeMask_heard {s : State} {x : Sender} (hx : s.hears x) (t : Byte) (w : Word16):
    exec (.setNoticeMask x t w) s = .next (State.reply x t (requestSetMask x.partner w s).2 (requestSetMask x.partner w s).1) := by
  rw [exec_request (i := .setNoticeMask x t w) rfl, submit_heard hx]
  simp only [takeRequest, requestBytes_parameter]
  rfl

theorem exec_clearCorner_heard {s : State} {x : Sender} (hx : s.hears x) (t : Byte) (c : Byte):
    exec (.clearCorner x t c) s = .next (State.reply x t (requestClearCorner x.partner c.toNat s).2 (requestClearCorner x.partner c.toNat s).1) := by
  rw [exec_request (i := .clearCorner x t c) rfl, submit_heard hx]
  simp only [takeRequest, requestBytes_parameter]
  rfl

theorem exec_clearChannel_heard {s : State} {x : Sender} (hx : s.hears x) (t : Byte) (c : Byte):
    exec (.clearChannel x t c) s = .next (State.reply x t (requestClearChannel x.partner c.toNat s).2 (requestClearChannel x.partner c.toNat s).1) := by
  rw [exec_request (i := .clearChannel x t c) rfl, submit_heard hx]
  simp only [takeRequest, requestBytes_parameter]
  rfl

theorem exec_clearSteerFault_heard {s : State} {x : Sender} (hx : s.hears x) (t : Byte):
    exec (.clearSteerFault x t) s = .next (State.reply x t (requestClearSteerFault x.partner s).2 (requestClearSteerFault x.partner s).1) := by
  rw [exec_request (i := .clearSteerFault x t) rfl, submit_heard hx]
  simp only [takeRequest, requestBytes_parameter]
  rfl

theorem exec_swapBank_heard {s : State} {x : Sender} (hx : s.hears x) (t : Byte):
    exec (.swapBank x t) s = .next (State.reply x t (requestSwapBank x.partner s).2 (requestSwapBank x.partner s).1) := by
  rw [exec_request (i := .swapBank x t) rfl, submit_heard hx]
  simp only [takeRequest, requestBytes_parameter]
  rfl

theorem exec_writeBankRow_heard {s : State} {x : Sender} (hx : s.hears x) (t : Byte) (f : Byte) (r : Byte) (w : Word16):
    exec (.writeBankRow x t f r w) s = .next (State.reply x t (requestWriteBankRow x.partner f r.toNat w s).2 (requestWriteBankRow x.partner f r.toNat w s).1) := by
  rw [exec_request (i := .writeBankRow x t f r w) rfl, submit_heard hx]
  simp only [takeRequest, requestBytes_parameter]
  rfl

theorem exec_writeSetting_heard {s : State} {x : Sender} (hx : s.hears x) (t : Byte) (n : Byte) (i : Byte) (w : Word16):
    exec (.writeSetting x t n i w) s = .next (State.reply x t (requestWriteSetting x.partner n.toNat i.toNat w s).2 (requestWriteSetting x.partner n.toNat i.toNat w s).1) := by
  rw [exec_request (i := .writeSetting x t n i w) rfl, submit_heard hx]
  simp only [takeRequest, requestBytes_parameter]
  rfl

theorem exec_writeRegistry_heard {s : State} {x : Sender} (hx : s.hears x) (t : Byte) (n : Byte) (r : Byte) (k : Byte) (w : Word16):
    exec (.writeRegistry x t n r k w) s = .next (State.reply x t (requestWriteRegistry x.partner n.toNat r k w.toNat s).2 (requestWriteRegistry x.partner n.toNat r k w.toNat s).1) := by
  rw [exec_request (i := .writeRegistry x t n r k w) rfl, submit_heard hx]
  simp only [takeRequest, requestBytes_parameter]
  rfl

theorem exec_start_heard {s : State} {x : Sender} (hx : s.hears x) (t : Byte):
    exec (.start x t) s = .next (State.reply x t (requestStart x.partner s).2 (requestStart x.partner s).1) := by
  rw [exec_request (i := .start x t) rfl, submit_heard hx]
  simp only [takeRequest, requestBytes_parameter]
  rfl

theorem exec_restart_heard {s : State} {x : Sender} (hx : s.hears x) (t : Byte):
    exec (.restart x t) s = .next (State.reply x t (requestRestart x.partner s).2 (requestRestart x.partner s).1) := by
  rw [exec_request (i := .restart x t) rfl, submit_heard hx]
  simp only [takeRequest, requestBytes_parameter]
  rfl

theorem exec_enterSafe_heard {s : State} {x : Sender} (hx : s.hears x) (t : Byte):
    exec (.enterSafe x t) s = .next (State.reply x t (requestEnterSafe x.partner s).2 (requestEnterSafe x.partner s).1) := by
  rw [exec_request (i := .enterSafe x t) rfl, submit_heard hx]
  simp only [takeRequest, requestBytes_parameter]
  rfl

end Sys2Proof.Machine
end

