-- ==== Sys2Proof/Laws/TableFits.lean ====
section
/-! SUPPORT. The table's property of Safety.lean, and the link's queue, under one raw change. -/

namespace Sys2Proof.Machine

/-! ## The table -/

theorem iltFits_congr {t u : Ilt} (h : t.Fits) (hs : u.slots = t.slots) (ho : u.order = t.order) : u.Fits := by
  constructor
  · rw [hs]; exact h.handle
  · rw [hs]; exact h.owner
  · rw [hs]; exact h.parameter
  · rw [hs]; exact h.alone
  · rw [ho]; exact h.once
  · rw [hs, ho]; exact h.lists

/-- A table with no live entry fits. -/
theorem iltFits_empty {t : Ilt} (he : ∀ i, (rd t.slots i).entry = none) (ho : t.order = []) : t.Fits := by
  constructor
  · intro i e h; rw [he] at h; exact absurd h (by simp)
  · intro i e h; rw [he] at h; exact absurd h (by simp)
  · intro i e h; rw [he] at h; exact absurd h (by simp)
  · intro i j e f h; rw [he] at h; exact absurd h (by simp)
  · rw [ho]; exact List.nodup_nil
  · intro i; rw [ho, he]; simp

/-- Every live entry stands in an occupied slot that the order lists. -/
theorem mem_live {s : State} (h : s.ilt.Fits) {e : Entry} : e ∈ s.live ↔ ∃ i, (rd s.ilt.slots i).entry = some e := by
  simp only [State.live, List.mem_filterMap]
  constructor
  · rintro ⟨i, _, hi⟩; exact ⟨i, hi⟩
  · rintro ⟨i, hi⟩; exact ⟨i, (h.lists i).mpr (by rw [hi]; rfl), hi⟩

theorem rd_touch (f : Fin 24 → Entry → Entry) (s : State) (i : Fin 24) :
    rd (s.touch f).ilt.slots i = { rd s.ilt.slots i with entry := (rd s.ilt.slots i).entry.map (f i) } := by
  simp only [State.touch, State.modIlt_ilt, rd_mapF]

theorem iltFits_touch {s : State} {f : Fin 24 → Entry → Entry} (h : s.ilt.Fits)
    (hf : ∀ i (e : Entry), (rd s.ilt.slots i).entry = some e → e.SameIdentity (f i e)) : (s.touch f).ilt.Fits := by
  have old : ∀ i e, (rd (s.touch f).ilt.slots i).entry = some e →
      ∃ x, (rd s.ilt.slots i).entry = some x ∧ f i x = e := by
    intro i e he
    rw [rd_touch] at he
    simpa [Option.map_eq_some_iff] using he
  constructor
  · intro i e he
    obtain ⟨x, hx, rfl⟩ := old i e he
    rw [rd_touch, (hf i x hx).handle]
    exact h.handle i x hx
  · intro i e he
    obtain ⟨x, hx, rfl⟩ := old i e he
    rw [(hf i x hx).owner]
    exact h.owner i x hx
  · intro i e he
    obtain ⟨x, hx, rfl⟩ := old i e he
    exact (hf i x hx).parameter (h.parameter i x hx)
  · intro i j e g he hg k1 k2 k3
    obtain ⟨x, hx, rfl⟩ := old i e he
    obtain ⟨y, hy, rfl⟩ := old j g hg
    rw [(hf i x hx).kind, (hf j y hy).kind] at k1
    rw [(hf i x hx).owner, (hf j y hy).owner] at k2
    rw [(hf i x hx).scope, (hf j y hy).scope] at k3
    exact h.alone i j x y hx hy k1 k2 k3
  · simpa only [State.touch, State.modIlt_ilt] using h.once
  · intro i
    rw [rd_touch]
    simp only [Option.isSome_map, State.touch, State.modIlt_ilt]
    exact h.lists i

theorem iltFits_drop {s : State} (n : Nat) (h : s.ilt.Fits) : (s.dropEntry n).ilt.Fits := by
  unfold State.dropEntry
  split
  · rename_i hlt
    split
    · simp only [State.modIlt_ilt]
      have other : ∀ i e, (rd (upd s.ilt.slots ⟨n / 8, hlt⟩ fun slot =>
          { generation := slot.generation + 1, entry := none }) i).entry = some e →
          (⟨n / 8, hlt⟩ : Fin 24) ≠ i ∧ (rd s.ilt.slots i).entry = some e := by
        intro i e he
        rw [rd_upd] at he
        split at he
        · exact absurd he (by simp)
        · rename_i k; exact ⟨k, he⟩
      constructor
      · intro i e he
        obtain ⟨k, hx⟩ := other i e he
        simp only [rd_upd, if_neg k]
        exact h.handle i e hx
      · intro i e he; exact h.owner i e (other i e he).2
      · intro i e he; exact h.parameter i e (other i e he).2
      · intro i j e f he hf; exact h.alone i j e f (other i e he).2 (other j f hf).2
      · exact h.once.erase _
      · intro i
        simp only [rd_upd]
        rw [h.once.mem_erase_iff, h.lists i]
        split
        · rename_i k; subst k; simp
        · rename_i k
          constructor
          · exact fun x => x.2
          · exact fun x => ⟨fun e => k e.symm, x⟩
    · exact h
  · exact h

theorem iltFits_place {s : State} {slot : Fin 24} {e : Nat → Entry} (hp : s.Placeable slot e) (h : s.ilt.Fits) :
    (s.placeEntry slot e).ilt.Fits := by
  simp only [State.placeEntry, State.modIlt_ilt]
  have read : ∀ i, rd (upd s.ilt.slots slot fun x => { x with entry := some (e (slot.val * 8 + x.generation.val)) }) i =
      if slot = i then { rd s.ilt.slots slot with entry := some (e (slot.val * 8 + (rd s.ilt.slots slot).generation.val)) }
      else rd s.ilt.slots i := by
    intro i
    rw [rd_upd]
  have fresh : ∀ i x, (rd s.ilt.slots i).entry = some x → ∀ n,
      ¬(x.kind = (e n).kind ∧ x.owner = (e n).owner ∧ x.scope = (e n).scope) :=
    fun i x hx n => hp.alone n x ((mem_live h).mpr ⟨i, hx⟩)
  constructor
  · intro i x hx
    simp only [read] at hx ⊢
    split at hx
    · rename_i k; subst k
      simp only [Option.some.injEq] at hx
      subst hx
      simp only [if_true]
      exact hp.handle _
    · rename_i k
      simp only [if_neg k]
      exact h.handle i x hx
  · intro i x hx
    simp only [read] at hx
    split at hx
    · rename_i k; subst k
      simp only [Option.some.injEq] at hx
      subst hx
      exact hp.owner _
    · exact h.owner i x hx
  · intro i x hx
    simp only [read] at hx
    split at hx
    · simp only [Option.some.injEq] at hx
      subst hx
      exact hp.parameter _
    · exact h.parameter i x hx
  · intro i j x y hx hy k1 k2 k3
    simp only [read] at hx hy
    split at hx <;> split at hy
    · rename_i a b; exact a.symm.trans b
    · simp only [Option.some.injEq] at hx
      subst hx
      exact absurd ⟨k1.symm, k2.symm, k3.symm⟩ (fresh j y hy _)
    · simp only [Option.some.injEq] at hy
      subst hy
      exact absurd ⟨k1, k2, k3⟩ (fresh i x hx _)
    · exact h.alone i j x y hx hy k1 k2 k3
  · rw [List.nodup_append]
    refine ⟨h.once, List.nodup_singleton _, fun x hx y hy k => ?_⟩
    rw [List.mem_singleton.mp hy] at k
    subst k
    have := (h.lists x).mp hx
    rw [hp.free] at this
    exact absurd this (by simp)
  · intro i
    simp only [read, List.mem_append, List.mem_singleton]
    split
    · rename_i k; subst k; simp
    · rename_i k
      rw [h.lists i]
      constructor
      · rintro (x | x)
        · exact x
        · exact absurd x.symm k
      · exact Or.inl

theorem move_iltFits {s t : State} (m : Move s t) (h : s.ilt.Fits) : t.ilt.Fits := by
  cases m with
  | touch f _ k => exact iltFits_touch h k
  | drop n _ => exact iltFits_drop n h
  | place i e _ k _ => exact iltFits_place k h
  | settle f _ _ => rw [settle_ilt, State.modCrn_ilt]; exact h
  | post n _ => rw [State.post_ilt]; exact h
  | dsv f _ _ _ => rw [State.modDsv_ilt]; exact h
  | crn f _ _ => rw [State.modCrn_ilt]; exact h
  | rlu f _ => rw [State.modRlu_ilt]; exact h
  | brk f _ => rw [State.modBrk_ilt]; exact h
  | stc f _ _ => rw [State.modStc_ilt]; exact h
  | command ch v _ _ => rw [command_ilt]; exact h

theorem raw_iltFits {lk : Bool} {s t : State} (r : Raw lk true s t) (h : s.ilt.Fits) : t.ilt.Fits := by
  cases r with
  | move m => exact move_iltFits m h
  | contacts => simp only [State.modIlt_ilt]; exact iltFits_congr h rfl rfl
  | registry => simp only [State.modIlt_ilt]; exact iltFits_congr h rfl rfl
  | odd _ _ _ off _ => exact absurd off (by simp)
  | cold => exact iltFits_empty (fun i => by simp [State.coldReset, Ilt.initial]) rfl
  | warm => exact iltFits_empty (fun i => by simp [State.warmRestart, Ilt.emptied]) rfl
  | lnk => simpa using h
  | link => simpa using h
  | clearFlags => exact h
  | setMask => exact h
  | clock => exact h
  | fresh => exact h
  | mot => simpa using h
  | vda => simpa using h
  | dsv => simpa using h
  | bank => simpa using h
  | settings => simpa using h
  | device => simpa using h

theorem scopesFit_congr {t u : Ilt} (h : t.ScopesFit) (e : u.slots = t.slots) : u.ScopesFit := by
  unfold Ilt.ScopesFit
  rw [e]
  exact h

theorem scopesFit_empty {t : Ilt} (he : ∀ i, (rd t.slots i).entry = none) : t.ScopesFit := by
  intro i e h
  rw [he] at h
  exact absurd h (by simp)

/-- The scopes after an entry is placed whose scope is one of its kind. -/
theorem scopesFit_place {s : State} {slot : Fin 24} {e : Nat → Entry} (k : ∀ n, (e n).kind.names (e n).scope)
    (h : s.ilt.ScopesFit) : (s.placeEntry slot e).ilt.ScopesFit := by
  intro i x hx
  simp only [State.placeEntry, State.modIlt_ilt, rd_upd] at hx
  split at hx
  · simp only [Option.some.injEq] at hx
    subst hx
    exact k _
  · exact h i x hx

theorem scopesFit_drop {s : State} (n : Nat) (h : s.ilt.ScopesFit) : (s.dropEntry n).ilt.ScopesFit := by
  unfold State.dropEntry
  (repeat' split)
  all_goals try exact h
  intro i x hx
  simp only [State.modIlt_ilt, rd_upd] at hx
  split at hx
  · exact absurd hx (by simp)
  · exact h i x hx

theorem scopesFit_touch {s : State} {f : Fin 24 → Entry → Entry} (h : s.ilt.ScopesFit)
    (hf : ∀ i (e : Entry), (rd s.ilt.slots i).entry = some e → e.SameIdentity (f i e)) : (s.touch f).ilt.ScopesFit := by
  intro i e he
  rw [rd_touch] at he
  obtain ⟨x, hx, rfl⟩ := Option.map_eq_some_iff.mp he
  rw [(hf i x hx).kind, (hf i x hx).scope]
  exact h i x hx

theorem move_scopesFit {s t : State} (m : Move s t) (h : s.ilt.ScopesFit) : t.ilt.ScopesFit := by
  cases m with
  | touch f _ k => exact scopesFit_touch h k
  | drop n _ => exact scopesFit_drop n h
  | place i e _ _ k => exact scopesFit_place k h
  | settle f _ _ => rw [settle_ilt, State.modCrn_ilt]; exact h
  | post n _ => rw [State.post_ilt]; exact h
  | dsv f _ _ _ => rw [State.modDsv_ilt]; exact h
  | crn f _ _ => rw [State.modCrn_ilt]; exact h
  | rlu f _ => rw [State.modRlu_ilt]; exact h
  | brk f _ => rw [State.modBrk_ilt]; exact h
  | stc f _ _ => rw [State.modStc_ilt]; exact h
  | command ch v _ _ => rw [command_ilt]; exact h

theorem raw_scopesFit {lk fit : Bool} {s t : State} (r : Raw lk fit s t) (h : s.ilt.ScopesFit) : t.ilt.ScopesFit := by
  cases r with
  | move m => exact move_scopesFit m h
  | odd slot e _ _ k => exact scopesFit_place k h
  | contacts => simp only [State.modIlt_ilt]; exact scopesFit_congr h rfl
  | registry => simp only [State.modIlt_ilt]; exact scopesFit_congr h rfl
  | cold => exact scopesFit_empty fun i => by simp [State.coldReset, Ilt.initial]
  | warm => exact scopesFit_empty fun i => by simp [State.warmRestart, Ilt.emptied]
  | lnk => simpa using h
  | link => simpa using h
  | clearFlags => exact h
  | setMask => exact h
  | clock => exact h
  | fresh => exact h
  | mot => simpa using h
  | vda => simpa using h
  | dsv => simpa using h
  | bank => simpa using h
  | settings => simpa using h
  | device => simpa using h

/-! ## The registry, the queue of commands and the clock -/

theorem default_inRange (p : Fin 16) : (PartnerRecord.default p).inRange := by
  unfold PartnerRecord.default PartnerRecord.inRange
  split
  · decide
  · split <;> decide

theorem registryFits_initial : Ilt.initial.RegistryFits := by
  constructor
  · decide
  · decide
  · decide
  · intro p
    simp only [Ilt.initial, rd_ofFn]
    exact default_inRange p

theorem registryFits_congr {t u : Ilt} (h : t.RegistryFits) (e : u.registry = t.registry) : u.RegistryFits := by
  constructor
  · rw [e]; exact h.host
  · rw [e]; exact h.line
  · rw [e]; exact h.self
  · rw [e]; exact h.ranges

theorem registryFits_write {t : Ilt} (h : t.RegistryFits) {n : Nat} {r : PartnerRecord} (hn : 1 ≤ n ∧ n ≤ 13) (hr : r.inRange) :
    Ilt.RegistryFits { t with registry := wrN t.registry n r } := by
  have hlt : n < 16 := by omega
  have other : ∀ p : Fin 16, p.val ≠ n → rd (wrN t.registry n r) p = rd t.registry p := by
    intro p hp
    rw [wrN, dif_pos hlt, rd_wr_other]
    intro e
    exact hp (congrArg Fin.val e).symm
  constructor
  · simp only [other 0 (show (0 : Nat) ≠ n by omega)]; exact h.host
  · simp only [other 14 (show (14 : Nat) ≠ n by omega)]; exact h.line
  · simp only [other 15 (show (15 : Nat) ≠ n by omega)]; exact h.self
  · intro p
    by_cases k : p.val = n
    · have : rd (wrN t.registry n r) p = r := by
        subst k
        rw [wrN, dif_pos hlt]
        exact rd_wr_same _ _ _
      simp only [this]; exact hr
    · simp only [other p k]; exact h.ranges p

theorem raw_registryFits {lk fit : Bool} {s t : State} (r : Raw lk fit s t) (h : s.ilt.RegistryFits) : t.ilt.RegistryFits := by
  cases r with
  | move m => exact registryFits_congr h m.base.registry
  | registry n r _ hn hr => rw [State.modIlt_ilt]; exact registryFits_write h hn hr
  | contacts => rw [State.modIlt_ilt]; exact registryFits_congr h rfl
  | odd => simp only [State.placeEntry, State.modIlt_ilt]; exact registryFits_congr h rfl
  | cold => exact registryFits_initial
  | warm => exact registryFits_congr h (by simp [State.warmRestart, Ilt.emptied])
  | lnk => simpa using h
  | link => simpa using h
  | clearFlags => exact h
  | setMask => exact h
  | clock => exact h
  | fresh => exact h
  | mot => simpa using h
  | vda => simpa using h
  | dsv => simpa using h
  | bank => simpa using h
  | settings => simpa using h
  | device => simpa using h

/-- No command moves the queue, and none moves the clock back. -/
theorem raw_clock {lk fit : Bool} {s t : State} (r : Raw lk fit s t) : t.pending = s.pending ∧ s.now ≤ t.now := by
  cases r with
  | move m => exact ⟨m.base.pending, m.base.now.ge⟩
  | clock n _ h => exact ⟨rfl, h⟩
  | lnk => exact ⟨by simp, by simp⟩
  | link => exact ⟨by simp, by simp⟩
  | odd => exact ⟨by simp, by simp⟩
  | clearFlags => exact ⟨by simp [State.clearFlags], by simp [State.clearFlags]⟩
  | setMask => exact ⟨by simp [State.setMask], by simp [State.setMask]⟩
  | contacts => exact ⟨by simp, by simp⟩
  | registry => exact ⟨by simp, by simp⟩
  | fresh => exact ⟨rfl, Nat.le_refl _⟩
  | mot => exact ⟨by simp, by simp⟩
  | dsv => exact ⟨by simp, by simp⟩
  | vda => exact ⟨by simp, by simp⟩
  | bank => exact ⟨by simp, by simp⟩
  | settings => exact ⟨by simp, by simp⟩
  | device => exact ⟨by simp, by simp⟩
  | cold => exact ⟨rfl, Nat.le_refl _⟩
  | warm => exact ⟨rfl, Nat.le_refl _⟩

/-! ## The input queue and the answer buffer -/

theorem raw_link {fit : Bool} {s t : State} (r : Raw false fit s t) :
    (t.lnk.queue = s.lnk.queue ∧ t.lnk.answer = s.lnk.answer) ∨ (t.lnk.queue = [] ∧ t.lnk.answer = none) := by
  cases r with
  | move m => exact .inl ⟨m.base.queue, m.base.answer⟩
  | lnk f _ _ k => exact .inl k
  | link f _ on => exact absurd on (by simp)
  | odd => exact .inl ⟨by simp, by simp⟩
  | cold => exact .inr ⟨rfl, rfl⟩
  | warm => exact .inr ⟨rfl, rfl⟩
  | clearFlags => exact .inl ⟨rfl, rfl⟩
  | setMask => exact .inl ⟨rfl, rfl⟩
  | contacts => exact .inl ⟨rfl, rfl⟩
  | registry => exact .inl ⟨rfl, rfl⟩
  | clock => exact .inl ⟨rfl, rfl⟩
  | fresh => exact .inl ⟨rfl, rfl⟩
  | mot => exact .inl ⟨rfl, rfl⟩
  | vda => exact .inl ⟨rfl, rfl⟩
  | dsv => exact .inl ⟨rfl, rfl⟩
  | bank => exact .inl ⟨rfl, rfl⟩
  | settings => exact .inl ⟨rfl, rfl⟩
  | device => exact .inl ⟨rfl, rfl⟩

/-- A run that does not touch the link leaves the input queue and the answer buffer, or a reset in it empties both. -/
theorem Runs.link {fit : Bool} {s t : State} (h : Runs false fit s t) :
    (t.lnk.queue = s.lnk.queue ∧ t.lnk.answer = s.lnk.answer) ∨ (t.lnk.queue = [] ∧ t.lnk.answer = none) := by
  induction h with
  | refl => exact .inl ⟨rfl, rfl⟩
  | tail _ r ih =>
    rcases raw_link r with k | k
    · rw [k.1, k.2]; exact ih
    · exact .inr k

/-- The queue and the buffer after any request of a partner. -/
theorem takeRequest_link (p : Fin 16) (c : Content) (s : State) :
    ((takeRequest p c s).1.lnk.queue = s.lnk.queue ∧ (takeRequest p c s).1.lnk.answer = s.lnk.answer)
      ∨ ((takeRequest p c s).1.lnk.queue = [] ∧ (takeRequest p c s).1.lnk.answer = none) :=
  Runs.link (fit := false) (tk_takeRequest p (fun k => absurd k (by simp)) c .refl)

end Sys2Proof.Machine
end

