-- ==== Sys2Proof/Tests/Slice0.lean ====
section
/-! SUPPORT. Tests on fixed values: the ill-formed commands that the check refuses, one step of each command, and for each statement
a state and operands that meet its hypotheses. -/

namespace Sys2Proof.Tests

open Sys2Proof Sys2Proof.Machine

set_option Elab.async false

/-! ## Well-formed commands -/

theorem test_wf_sender_can : (Instr.nop (.can 0) 0).wf = false ∧ (Instr.nop (.can 14) 0).wf = false
    ∧ (Instr.nop (.can 1) 0).wf = true ∧ (Instr.nop (.can 13) 0).wf = true := by decide

theorem test_wf_sender_line : (Instr.nop (.line 0) 0).wf = false ∧ (Instr.nop (.line 5) 0).wf = false
    ∧ (Instr.nop (.line 1) 0).wf = true ∧ (Instr.nop (.line 4) 0).wf = true := by decide

/-- A frame from its fields. -/
def frameOf (remote extended : Bool) (identifier dlc : Nat) (data : List Byte) : CanFrame :=
  { remote := remote, extended := extended, identifier := identifier, dlc := dlc, data := data }

theorem test_wf_frame_identifier : (Instr.canFrameArrival (frameOf false false 2048 0 [])).wf = false
    ∧ (Instr.canFrameArrival (frameOf false true 536870912 0 [])).wf = false
    ∧ (Instr.canFrameArrival (frameOf false true 2048 0 [])).wf = true := by decide

theorem test_wf_frame_dlc : (Instr.canFrameArrival (frameOf false false 1 9 (List.replicate 9 0))).wf = false := by decide

theorem test_wf_frame_length : (Instr.canFrameArrival (frameOf false false 1 2 [0])).wf = false
    ∧ (Instr.canFrameArrival (frameOf true false 1 1 [0])).wf = false
    ∧ (Instr.canFrameArrival (frameOf true false 1 1 [])).wf = true := by decide

/-! ## Small states -/

/-- In RUN with two doors fitted, standing, at 1.0 km/h or below. -/
def running : State :=
  { State.reset with
    cfg := { device := .run, settings := { Settings.default with doorCount := 2 } }
    mot := { State.reset.mot with speed := some 10, motion := .standstill } }

/-- In SAFE. -/
def inSafe : State := State.reset.modCfg fun c => { c with device := .safe }

/-- A bank of two rows, at 0 and 10.0 km/h. -/
def twoRows : Bank :=
  { count := 2, rows := upd (upd Bank.initial.rows 0 fun r => { r with lim := 100 }) 1 fun r => { r with v := 100, lim := 50 } }

/-- In CONFIG, with two doors and bank A VALID. -/
def ready : State :=
  (State.reset.modCfg fun c => { c with settings := { c.settings with doorCount := 2 } }).modStc fun x => { x with bankA := twoRows }

/-- The registry record of partner 3 set. -/
def withPartner (authority window : Nat) (s : State) : State :=
  s.modIlt fun t =>
    { t with registry := wr t.registry 3 { enabled := true, authority := authority, permitted := 0xFF, window := window } }

/-- An entry of a partner placed in a slot. -/
def withEntry (k : Kind) (p : Fin 16) (scope : Scope) (parameter : Option Nat) (slot : Fin 24) (s : State) : State :=
  s.placeEntry slot (s.newEntry k p (s.record p).authority scope parameter (s.record p).window)

/-- The entry of a handle changed. -/
def shows (st : EntryState) (handle : Nat) (s : State) : State := s.updEntry handle fun e => { e with state := st }

/-- An analog channel with a value, VALID or FAULTY. -/
def withAnalog (c : Fin 21) (v : Int) (validity : Validity) (s : State) : State :=
  s.modMot fun m => { m with analog := upd m.analog c fun a => { a with value := v, validity := validity } }

/-- One valve channel changed. -/
def withChannel (c : Fin 18) (f : Channel → Channel) (s : State) : State :=
  s.modVda fun v => { v with channels := upd v.channels c f }

/-- One corner changed. -/
def withCorner (c : Fin 6) (f : Corner → Corner) (s : State) : State :=
  s.modCrn fun x => { x with corners := upd x.corners c f }

/-- The fallback decoder set. -/
def withFbl (level : Bool) (st : FblState) (count : Nat) (s : State) : State :=
  s.modDsv fun x => { x with fbl := { level := level, state := st, since := 0, count := count } }

/-- At an instant. -/
def atTime (n : Nat) (s : State) : State := { s with now := n }

/-- The command answers a next state of which the property holds. -/
def yields (i : Instr) (s : State) (p : State → Bool) : Bool :=
  match exec i s with
  | .next t => p t
  | .fault _ => false
  | .refused _ => false

/-- The command from the host gives the answer bytes. -/
def answers (i : Instr) (s : State) (bytes : List Byte) : Bool := yields i s fun t => decide (t.lnk.slot.toList = bytes)

/-! ## One step of each command -/

theorem test_crc : crc8 [0x31, 0x32, 0x33, 0x34, 0x35, 0x36, 0x37, 0x38, 0x39] = 0x4B := by decide +kernel

theorem test_step_takes_front :
    (match step { running with pending := [.coldReset, .broadcastEvent] } with
      | .next t => decide (t.pending = [.broadcastEvent] ∧ t.cfg.device = .config)
      | .fault _ => false
      | .refused _ => false) = true := by decide +kernel

theorem test_cold_reset : yields .coldReset running (fun t => decide (t = State.reset)) = true := by decide +kernel

/-- A NOP of partner 3, which is not enabled, is answered on 768 + 3 with code 1. -/
theorem test_can_frame_arrival :
    yields (.canFrameArrival (frameOf false false 1283 8 [0, 7, 0, 0, 0, 0, 0, 0])) State.reset (fun t =>
      decide (t.lnk.answer = some (PendingAnswer.mk (TxFrame.mk 771
        { b0 := 1, b1 := 7, b2 := 255, b3 := 0, b4 := 0, b5 := 0, b6 := 0, b7 := 0 }) 0))) = true := by decide +kernel

theorem test_can_frame_ignored :
    yields (.canFrameArrival (frameOf false false 1280 8 [0, 7, 0, 0, 0, 0, 0, 0])) State.reset
      (fun t => decide (t = State.reset)) = true := by decide +kernel

/-- A frame in the answer buffer, on the identifier of partner 2, placed at 0. -/
def answered (s : State) : State :=
  s.modLnk fun l => { l with answer := some (PendingAnswer.mk (TxFrame.mk 770 Content.noAnswer) 0) }

/-- A NOP of partner 3 that waits. -/
def waiting (s : State) : State :=
  s.modLnk fun l => { l with queue := [{ partner := 3, content := requestBytes 0 9 0 0 0 0 }] }

theorem test_can_frame_sent : yields .canFrameSent (waiting (answered State.reset)) (fun t =>
    decide (t.lnk.onBus = some (TxFrame.mk 770 Content.noAnswer) ∧ t.lnk.queue = []
      ∧ (t.lnk.answer.map fun a => a.frame.identifier) = some 771)) = true := by decide +kernel

theorem test_answer_abandon : yields .answerAbandonTimeout (answered State.reset) (fun t =>
    decide (t.now = 100000 ∧ t.lnk.answer = none)) = true := by decide +kernel

theorem test_spi_select_assert : yields .spiSelectAssert State.reset (fun t =>
    decide (t.lnk.shifting = some ([31, 0, 255, 0, 0, 0, 0, 0] ++ [crc8 [31, 0, 255, 0, 0, 0, 0, 0]]))) = true := by decide +kernel

/-- A transaction in progress. -/
def shifting : State := State.reset.modLnk fun l => { l with shifting := some [] }

theorem test_spi_nop : answers (.spiSelectWithdraw ([0, 5, 0, 0, 0, 0, 0, 0] ++ [crc8 [0, 5, 0, 0, 0, 0, 0, 0]])) shifting
    [0, 5, 255, 255, 0, 0, 0, 0] = true := by decide +kernel

theorem test_spi_frame_error : answers (.spiSelectWithdraw [0, 5]) shifting [30, 0, 255, 0, 0, 0, 0, 0] = true := by decide +kernel

theorem test_nop : answers (.nop .host 5) State.reset [0, 5, 255, 255, 0, 0, 0, 0] = true := by decide +kernel

/-- STOP_HOLD at 350 opened by the host takes slot 0, handle 0, and is ACTIVE at STANDSTILL; BRK starts to apply 350. -/
theorem test_open : answers (.openEntry .host 1 3 10 350 0) running [0, 1, 0, 1, 0, 0, 0, 0] = true
    ∧ yields (.openEntry .host 1 3 10 350 0) running
      (fun t => decide (t.brk.hold = .applying ∧ t.brk.target = 350)) = true := by decide +kernel

theorem test_open_not_ready : answers (.openEntry .host 1 3 10 350 0) State.reset [2, 1, 255, 0, 0, 0, 0, 0] = true := by
  decide +kernel

/-- The state with the host's STOP_HOLD of 300 in slot 0. -/
def holding : State := withEntry .stopHold 0 .vehicle (some 300) 0 running

theorem test_amend : answers (.amend .host 2 0 900) holding [0, 2, 0, 1, 1, 0, 0, 0] = true := by decide +kernel

theorem test_refresh : answers (.refresh .host 2 0) holding [0, 2, 0, 1, 8, 0, 0, 0] = true := by decide +kernel

theorem test_retire : answers (.retire .host 2 0) holding [0, 2, 0, 255, 0, 0, 0, 0] = true
    ∧ yields (.retire .host 2 0) holding
      (fun t => decide ((rd t.ilt.slots 0).generation = 1 ∧ t.live = [])) = true := by decide +kernel

theorem test_query : answers (.query .host 2 0 0) holding [0, 2, 0, 1, 0, 3, 0, 10] = true
    ∧ answers (.query .host 2 0 1) holding [0, 2, 0, 1, 8, 1, 44, 0] = true := by decide +kernel

theorem test_list : answers (.list .host 2 0) holding [0, 2, 0, 1, 0, 1, 3, 0] = true
    ∧ answers (.list .host 2 1) holding [0, 2, 255, 255, 0, 1, 0, 0] = true := by decide +kernel

/-- The speed 10, FORWARD, STANDSTILL, NEUTRAL and five clear bits: 00000001 010 0 11 10 00000. -/
theorem test_read_motion : answers (.readMotion .host 2 0) running [0, 2, 0x01, 0x4E, 0, 0, 0, 0] = true := by decide +kernel

/-- HOLDING, height 0, target 0, CONFIG alone: 100 0000000000 00000000 00000100 000 000. -/
theorem test_read_corner : answers (.readCorner .host 2 0 0) State.reset [0, 2, 0x80, 0, 0, 0x20, 0, 0] = true := by
  decide +kernel

/-- Demand 0, pressure 0, HELD, pedal 0: 0000000000 00000000000 01 0000000000. -/
theorem test_read_axle : answers (.readAxle .host 2 1 0 0) State.reset [0, 2, 0, 0, 0x02, 0, 0, 0] = true := by decide +kernel

/-- Damper 1000 after two angles of 11 bits: 1111101000 from bit 22. -/
theorem test_read_steer : answers (.readSteer .host 2 0 1) State.reset [0, 2, 0, 0, 0x03, 0xE8, 0, 0] = true := by decide +kernel

theorem test_read_notices :
    answers (.readNotices .host 2 0) (State.reset.post (.staleEntry 9)) [0, 2, 0, 0x05, 0x09, 0, 0, 0] = true := by
  decide +kernel

theorem test_clear_notices : answers (.clearNotices .host 2 1) (State.reset.post (.staleEntry 9)) [0, 2, 255, 255, 0, 0, 0, 0] = true
    ∧ yields (.clearNotices .host 2 1) (State.reset.post (.staleEntry 9)) (fun t => !t.lnk.attn) = true := by decide +kernel

theorem test_set_notice_mask : answers (.setNoticeMask .host 2 0xC102) State.reset [0, 2, 255, 255, 0, 1, 2, 0] = true := by
  decide +kernel

theorem test_clear_corner :
    answers (.clearCorner .host 2 0) (withCorner 0 (fun c => { c with state := .fault, fault := some .fillTimeout }) running)
      [0, 2, 255, 255, 0, 4, 0, 0] = true := by decide +kernel

theorem test_clear_channel : answers (.clearChannel .host 2 4) (withChannel 4 (fun c => { c with state := .lockedOut, trips := 3 })
    State.reset) [0, 2, 255, 255, 0, 0, 0, 0] = true := by decide +kernel

/-- AN12 is not VALID after a reset: CONDITION with ART_A_SENSOR. -/
theorem test_clear_steer_fault : answers (.clearSteerFault .host 2) State.reset [6, 2, 255, 13, 0, 0, 0, 0] = true := by
  decide +kernel

theorem test_swap_bank : answers (.swapBank .host 2) State.reset [19, 2, 255, 0, 0, 0, 0, 0] = true
    ∧ answers (.swapBank .host 2) (ready.modStc fun x => { x with bankB := twoRows }) [0, 2, 255, 255, 0, 1, 0, 0] = true := by
  decide +kernel

theorem test_write_bank_row : answers (.writeBankRow .host 2 0x14 3 40) State.reset [0, 2, 255, 255, 1, 0, 0, 0] = true
    ∧ yields (.writeBankRow .host 2 0x14 3 40) State.reset
      (fun t => decide ((rd t.stc.bankB.rows 3).slew = 20)) = true := by decide +kernel

theorem test_write_setting : answers (.writeSetting .host 2 2 0 3) State.reset [0, 2, 255, 255, 0, 0, 0, 0] = true
    ∧ yields (.writeSetting .host 2 2 0 3) State.reset (fun t => decide (t.cfg.settings.doorCount = 3)) = true := by decide +kernel

theorem test_write_registry : yields (.writeRegistry .host 2 3 0x82 0x0F 550) State.reset (fun t =>
    decide (rd t.ilt.registry 3 = { enabled := true, authority := 2, permitted := 0x0F, window := 500 }
      ∧ t.lnk.slot.b4 = 1)) = true := by decide +kernel

theorem test_start : answers (.start .host 9) ready [0, 9, 255, 255, 0, 1, 0, 0] = true
    ∧ answers (.start .host 9) State.reset [20, 9, 255, 0, 0, 1, 0, 0] = true := by decide +kernel

theorem test_restart : answers (.restart .host 9) running [2, 9, 255, 0, 0, 1, 0, 0] = true
    ∧ answers (.restart .host 9) inSafe [0, 9, 255, 255, 0, 0, 0, 0] = true := by decide +kernel

theorem test_enter_safe : answers (.enterSafe .host 9) running [0, 9, 255, 255, 0, 2, 0, 0] = true := by decide +kernel

theorem test_broadcast : yields .broadcastEvent running (fun t =>
    decide (t.now = 100000 ∧ (t.lnk.broadcast.map fun f => (f.identifier, f.content.b0, f.content.b7)) = some (768, 0x70, 1)))
      = true := by decide +kernel

/-- A channel with offset 0 and gain 1024 in place of its default 0. -/
def scaled (c : Fin 21) (s : State) : State :=
  s.modCfg fun x => { x with settings := { x.settings with gain := wr x.settings.gain c 1024 } }

theorem test_sample : yields (.sampleEvent 6 200) (scaled 6 State.reset) (fun t =>
    decide ((rd t.mot.analog 6).value = 200 ∧ (rd t.mot.analog 6).validity = .valid ∧ t.now = 5000)) = true
    ∧ yields (.sampleEvent 0 500) (scaled 0 State.reset) (fun t => decide ((rd t.mot.analog 0).value = 300)) = true := by
  decide +kernel

/-- A channel one bad sample short of FAULTY. -/
def failing (c : Fin 21) (s : State) : State :=
  s.modMot fun m => { m with analog := upd m.analog c fun a => { a with bad := 2 } }

theorem test_analog_faulty : yields (.analogChannelFaulty 0 0) (failing 0 running) (fun t =>
    decide ((rd t.mot.analog 0).validity = .faulty ∧ (rd t.crn.corners 0).state = .fault)
      && (rd t.lnk.notices 9).raised) = true := by decide +kernel

/-- A FAULTY channel one good sample short of VALID. -/
def mending (c : Fin 21) (s : State) : State :=
  s.modMot fun m => { m with analog := upd m.analog c fun a => { a with validity := .faulty, good := 4 } }

theorem test_analog_recovery : yields (.analogChannelRecovery 0 200) (mending 0 running) (fun t =>
    decide ((rd t.mot.analog 0).validity = .valid ∧ (rd t.mot.analog 0).good = 0)) = true := by decide +kernel

theorem test_wheel_pulse_edge : yields (.wheelPulseEdge 1 .reverse) (atTime 700 State.reset) (fun t =>
    decide ((rd t.mot.wheels 1).tally = -1 ∧ (rd t.mot.wheels 1).lastEdge = some 700 ∧ (rd t.mot.wheels 1).period = none)) = true := by
  decide +kernel

/-- All four wheels at a period of 7,200 us and 100 pulses a metre: 5.0 km/h, so ROLLING. -/
def turning : State :=
  running.modMot fun m => { m with
    motion := .unknown
    wheels := Vector.replicate 4 { WheelChannel.initial with period := some 7200, lastEdge := some 19000, tally := 3 } }

theorem test_speed_update : yields .speedUpdate turning (fun t =>
    decide (t.now = 20000 ∧ t.mot.speed = some 50 ∧ t.mot.motion = .rolling ∧ t.mot.counter = 3)) = true := by decide +kernel

/-- A wheel whose zero timer, or whose agreement timer, is one update short. -/
def oneShort (speed : Option Nat) (w : WheelChannel) (s : State) : State :=
  s.modMot fun m => { m with speed := speed, wheels := wr m.wheels 0 w }

/-- A wheel at 0 with its zero timer at 1,980. -/
def stuckWheel : WheelChannel := { WheelChannel.initial with zeroTimer := 1980 }

/-- A FAULTY wheel that reads 10.0 km/h, with its agreement timer at 4,980. -/
def agreeingWheel : WheelChannel :=
  { WheelChannel.initial with faulty := true, agreementTimer := 4980, period := some 3600, lastEdge := some 19000 }

theorem test_wheel_zero_timeout : yields (.wheelZeroTimeout 0) (oneShort (some 101) stuckWheel running) (fun t =>
    (rd t.mot.wheels 0).faulty) = true
    ∧ yields (.wheelZeroTimeout 0) (oneShort (some 100) stuckWheel running)
      (fun t => decide (t = oneShort (some 100) stuckWheel running)) = true := by decide +kernel

theorem test_wheel_agreement : yields (.wheelAgreementRecovery 0) (oneShort (some 120) agreeingWheel running) (fun t =>
    !(rd t.mot.wheels 0).faulty) = true := by decide +kernel

/-- SETTLING with the settle timer at 280, below the threshold. -/
def settling : State := running.modMot fun m => { m with motion := .settling, settleTimer := 280, speed := some 4 }

theorem test_settle_timer : yields .settleTimerExpiry settling (fun t =>
    decide (t.mot.motion = .standstill ∧ t.mot.settleTimer = 0) && t.mot.armed) = true := by decide +kernel

theorem test_drive_line : yields (.driveLineChange .selRev true) (atTime 7 running) (fun t =>
    decide (t.mot.selRev = { level := true, debounced := false, since := 7 })) = true := by decide +kernel

/-- SEL_REV at a new level since 0. -/
def reversing : State := running.modMot fun m => { m with armed := true, selRev := { level := true, debounced := false, since := 0 } }

theorem test_drive_line_debounce : yields (.driveLineDebounceExpiry .selRev) reversing (fun t =>
    decide (t.now = 50000 ∧ t.selected = .reverse)) = true := by decide +kernel

/-- Partner 3, of authority 2 and window 500 ms, with a STOP_HOLD of 300 in slot 0. -/
def partnerHolds : State := withEntry .stopHold 3 .vehicle (some 300) 0 (withPartner 2 500 running)

theorem test_refresh_deadline : yields (.refreshDeadlineExpiry 0) partnerHolds (fun t =>
    decide (t.now = 500000 ∧ (t.resolve 0).map (fun e => e.state) = some .stale) && (rd t.lnk.notices 0).raised) = true := by
  decide +kernel

theorem test_door_contact : yields (.doorContactChange 0 false) (atTime 7 running) (fun t =>
    decide ((rd t.dsv.doors 0).contact = { level := false, debounced := false, since := 7 })) = true := by decide +kernel

theorem test_door_contact_debounce : yields (.doorContactDebounceExpiry 0) running (fun t =>
    decide (t.now = 50000 ∧ (rd t.dsv.doors 0).supervision = .shut ∧ rd t.ilt.contacts 0 = true)) = true := by decide +kernel

/-- The drive inhibit in its last 300 ms. -/
def releasing : State := running.modDsv fun x => { x with machine := .releasing 300000, causes := InhibitCauses.none }

theorem test_drive_inh_release : yields .driveInhReleaseExpiry releasing (fun t =>
    decide (t.now = 300000 ∧ t.dsv.machine = .free)) = true := by decide +kernel

theorem test_fbl_edge : yields (.fblEdge true) (atTime 30000 (withFbl false .start 0 running)) (fun t =>
    decide (t.dsv.fbl = { level := true, state := .gap, since := 30000, count := 0 })) = true
    ∧ yields (.fblEdge true) (atTime 15099 (withFbl false .pulse 0 running)) (fun t =>
      decide (t.dsv.fbl = { level := true, state := .space, since := 15099, count := 1 })) = true := by decide +kernel

/-- Two pulses, and the line stays high for 60 ms: the line's STOP_HOLD is opened with its default. -/
theorem test_fbl_timeout : yields .fblPhaseTimeout (withFbl true .space 2 running) (fun t =>
    decide (t.now = 60000 ∧ t.live.map (fun e => (e.kind, e.owner, e.parameter)) = [(.stopHold, 14, some 300)])) = true := by
  decide +kernel

theorem test_corner_update : yields (.cornerUpdate 2) (withAnalog 2 15 .valid running) (fun t =>
    decide (t.now = 20000 ∧ (rd t.crn.corners 2).measured = 15)) = true := by decide +kernel

/-- A corner of half-width 10, IN_BAND and 15 mm high, that qualifies at its next update at STANDSTILL. -/
def highCorner : State :=
  withCorner 0 (fun c => { c with state := .inBand, reasons := FreezeSet.empty, side := .high, qualifyTimer := 180 })
    (withAnalog 0 15 .valid running)

theorem test_corner_qualified : yields (.cornerQualified 0) highCorner (fun t =>
    decide ((rd t.crn.corners 0).state = .exhausting ∧ (rd t.vda.channels 6).command = 1)) = true := by decide +kernel

/-- A corner that still exhausts at its last update before 8,000 ms. -/
def lateCorner : State :=
  withCorner 0 (fun c => { c with state := .exhausting, reasons := FreezeSet.empty, actionTimer := 7980 })
    (withAnalog 0 15 .valid running)

theorem test_action_timeout : yields (.actionTimeout 0) lateCorner (fun t =>
    decide ((rd t.crn.corners 0).state = .fault ∧ (rd t.crn.corners 0).fault = some .exhaustTimeout)) = true := by decide +kernel

/-- A corner that exhausts for a kneel, at the last update of a span of the stall watch, with the reference given. -/
def kneeling (reference : Int) : State :=
  (withCorner 0 (fun c => { c with state := .exhausting, reasons := FreezeSet.empty })
    (withAnalog 0 (-10) .valid running)).modRlu fun r =>
    { r with
      kneel := wr r.kneel 0 70
      targets := wr r.targets 0 (-70)
      watches := wr r.watches 0 { running := true, reference := reference, timer := 980, mark := false } }

theorem test_stall_watch : yields (.stallWatchSpan 0) (kneeling (-6)) (fun t =>
    decide ((rd t.crn.corners 0).state = .holding ∧ t.rlu.kneelState = .stalled) && (rd t.rlu.watches 0).mark) = true
    ∧ yields (.stallWatchSpan 0) (kneeling (-5)) (fun t => !(rd t.rlu.watches 0).mark) = true := by decide +kernel

/-- The pedal at 500: 425 kPa on A1 with the shares as set. -/
theorem test_brake_update : yields .brakeUpdate (withAnalog 20 500 .valid running) (fun t =>
    decide (t.now = 10000 ∧ t.brk.driver = 500 ∧ t.brk.base = 425 ∧ (rd t.brk.axles 0).demand = 425)) = true := by decide +kernel

/-- A hold of 300 in a state, with AN17 and AN18 at a pressure and the three timers one update short. -/
def pressed (hold : HoldState) (pressure : Int) (timers : Nat) : State :=
  withAnalog 17 pressure .valid (withAnalog 18 pressure .valid (running.modBrk fun b =>
    { b with hold := hold, target := 300, confirmTimer := timers, lossTimer := timers, unconfirmed := 990 }))

theorem test_hold_confirmed : yields .holdConfirmed (pressed .applying 270 90) (fun t =>
    decide (t.brk.hold = .held ∧ t.brk.confirmed = true)) = true
    ∧ yields .holdConfirmed (pressed .applying 269 90) (fun t => decide (t.brk.hold = .applying)) = true := by decide +kernel

theorem test_hold_unconfirmed : yields .holdUnconfirmedTimeout (pressed .applying 100 0) (fun t => (rd t.lnk.notices 3).raised) = true := by
  decide +kernel

theorem test_hold_lost : yields .holdLost (pressed .held 239 90) (fun t =>
    decide (t.brk.hold = .applying) && (rd t.lnk.notices 3).raised) = true
    ∧ yields .holdLost (pressed .held 240 90) (fun t => decide (t.brk.hold = .held)) = true := by decide +kernel

/-- A ramp whose target is 6. -/
def ramped : State := running.modBrk fun b => { b with hold := .ramping, target := 6 }

theorem test_hold_ramp_end : yields .holdRampEnd ramped (fun t =>
    decide (t.brk.hold = .released ∧ t.brk.target = 0)) = true := by decide +kernel

/-- The steering frame stands on 768 + 15. -/
theorem test_steering_update : yields .steeringUpdate State.reset (fun t =>
    decide (t.now = 10000 ∧ (t.lnk.steering.map fun f => (f.identifier, f.content.b4)) = some (783, 0) ∧ t.lnk.steerCount = 1)) = true := by
  decide +kernel

/-- The joint angles 2.1 degrees apart, the disagreement timer at 90. -/
def apart : State := withAnalog 12 21 .valid (running.modStc fun x => { x with disagreeTimer := 90 })

theorem test_disagreement : yields .disagreementTimeout apart (fun t =>
    decide (t.stc.latch = some .disagree) && (rd t.lnk.notices 7).raised) = true := by decide +kernel

/-- TRACKING, with the last command 3.1 degrees from the rear angle, and the tracking error timer at 290. -/
def astray : State := running.modStc fun x =>
  { x with state := .tracking, trackTimer := 290, report := { x.report with command := 31 } }

theorem test_tracking_error : yields .trackingErrorTimeout astray (fun t =>
    decide (t.stc.latch = some .trackingError)) = true := by decide +kernel

/-- CENTRING, with the rear angle 0.6 degrees from the centre, and the centring timer at 1,990. -/
def centringLate : State :=
  withAnalog 15 6 .valid (running.modStc fun x => { x with state := .centring, centringTimer := 1990, command := 4 })

theorem test_centring_timeout : yields .centringTimeout centringLate (fun t =>
    decide (t.stc.state = .passive ∧ t.stc.command = 0)) = true := by decide +kernel

theorem test_blanking_end : yields (.blankingEnd 13) (withChannel 13 (fun c => { c with command := 300, state := .blanking, blanking := some 0 }) running)
    (fun t => decide (t.now = 3000 ∧ t.channelState 13 = .on)) = true := by decide +kernel

theorem test_hard_short : yields (.hardShort 4) (withChannel 4 (fun c => { c with state := .on }) running)
    (fun t => decide (t.channelState 4 = .tripped ∧ (rd t.vda.channels 4).trips = 1)) = true := by decide +kernel

theorem test_over_current_start : yields (.overCurrentStart 13) (withChannel 13 (fun c => { c with command := 300, state := .on }) running)
    (fun t => decide (t.channelState 13 = .qualifying)) = true := by decide +kernel

theorem test_over_current_end : yields (.overCurrentEnd 13) (withChannel 13 (fun c => { c with command := 300, state := .qualifying }) running)
    (fun t => decide (t.channelState 13 = .on)) = true := by decide +kernel

/-- A third trip of a series locks the channel out. -/
theorem test_qualify_time : yields (.qualifyTimeExpiry 4)
    (withChannel 4 (fun c => { c with state := .qualifying, qualify := some 0, trips := 2, series := some 0 }) running)
    (fun t => decide (t.now = 2000 ∧ t.channelState 4 = .lockedOut) && (rd t.lnk.notices 9).raised) = true := by decide +kernel

theorem test_retry : yields (.retryExpiry 13) (withChannel 13 (fun c => { c with state := .tripped, retry := some 0, command := 300 }) running)
    (fun t => decide (t.now = 200000 ∧ t.channelState 13 = .blanking)) = true := by decide +kernel

theorem test_clean_timer : yields (.cleanTimerExpiry 4)
    (withChannel 4 (fun c => { c with state := .on, clean := some 0, trips := 2 }) running)
    (fun t => decide (t.now = 5000000 ∧ (rd t.vda.channels 4).trips = 0)) = true := by decide +kernel

theorem test_diagnostic_check : yields (.diagnosticCheck 4 false) running (fun t =>
    decide (t.now = 100000 ∧ t.channelState 4 = .openLoad)) = true
    ∧ yields (.diagnosticCheck 4 true) (withChannel 4 (fun c => { c with state := .openLoad }) running) (fun t => decide (t.now = 0)) = true := by
  decide +kernel

theorem test_temperature : yields (.temperatureSample 150) running (fun t =>
    decide (t.now = 10000 ∧ t.channelState 12 = .disabled ∧ t.channelState 13 = .off)) = true := by decide +kernel

theorem test_supply_voltage : yields (.supplyVoltageSample 159) running (fun t => decide (t.now = 1000 ∧ t.vda.lows = 1)) = true := by
  decide +kernel

/-- The undervoltage gate as given, after nine low samples or forty-nine high ones. -/
def counted (closed : Bool) : State := running.modVda fun v => { v with underClosed := closed, lows := 9, highs := 49 }

theorem test_undervoltage_close : yields (.undervoltageGateClose 159) (counted false) (fun t =>
    decide (t.channelState 17 = .disabled) && t.vda.underClosed) = true := by decide +kernel

theorem test_undervoltage_open : yields (.undervoltageGateOpen 180) (counted true) (fun t => !t.vda.underClosed) = true := by
  decide +kernel

/-! ## The hypotheses of the statements are met: requests -/

theorem hears_host (s : State) : s.hears .host := ⟨rfl, trivial⟩

theorem hears_line_one (s : State) : s.hears (.line 1) := ⟨rfl, trivial⟩

theorem serves_host {s : State} (h : rd s.ilt.registry 0 = PartnerRecord.default 0) : s.serves .host :=
  ⟨hears_host s, show (rd s.ilt.registry 0).enabled = true by rw [h]; rfl,
    show (rd s.ilt.registry 0).authority = 0 by rw [h]; rfl⟩

theorem found {o : Option Entry} {p : Entry → Prop} [DecidablePred p] (h : (o.any fun e => decide (p e)) = true) :
    ∃ e, o = some e ∧ p e := by
  cases o with
  | none => simp at h
  | some e => exact ⟨e, rfl, by simpa using h⟩

/-- A table of the form that every step keeps is one after an entry that no live one equals is placed. -/
theorem fits_withEntry {k : Kind} {p : Fin 16} {scope : Scope} {parameter : Option Nat} {slot : Fin 24} {s : State}
    (h : s.ilt.Fits) (free : (rd s.ilt.slots slot).entry = none) (owner : p = 15 ↔ 18 ≤ slot.val)
    (fits : match k.parameterRange with
      | none => parameter = none
      | some (lo, hi, _) => ∃ v, parameter = some v ∧ lo ≤ v ∧ v ≤ hi)
    (alone : ∀ x ∈ s.live, ¬(x.kind = k ∧ x.owner = p ∧ x.scope = scope)) :
    (withEntry k p scope parameter slot s).ilt.Fits :=
  iltFits_place ⟨free, fun _ => rfl, fun _ => owner, fun _ => newEntry_fits _ _ _ _ _ _ _ fits, fun _ => alone⟩ h

theorem running_fits : running.ilt.Fits := iltFits_empty (by decide +kernel) rfl

theorem running_scopes : running.ilt.ScopesFit := scopesFit_empty (by decide +kernel)

theorem holding_fits : holding.ilt.Fits :=
  fits_withEntry running_fits (by decide +kernel) (by decide) ⟨300, rfl, by decide, by decide⟩ (by decide +kernel)

theorem partnerHolds_fits : partnerHolds.ilt.Fits :=
  fits_withEntry (iltFits_empty (by decide +kernel) rfl) (by decide +kernel) (by decide) ⟨300, rfl, by decide, by decide⟩
    (by decide +kernel)

/-- The state right after a reset at another instant, with a START waiting. -/
def busy : State := { State.reset with now := 5, pending := [.start .host 9] }

theorem witness_stepTakesFront : running.pending = [] := rfl

theorem witness_restartKeeps : running.serves .host ∧ running.cfg.device = .run ∧ inSafe.serves .host
    ∧ inSafe.cfg.device ≠ .run ∧ State.reset.serves .host ∧ State.reset.cfg.device ≠ .run :=
  ⟨serves_host (by decide +kernel), rfl, serves_host (by decide +kernel), by decide, serves_host (by decide +kernel), by decide⟩

theorem witness_stepKeeps : (∃ t, step busy = .next t) ∧ busy.lnk.NoticesFit ∧ busy.lnk.QueueFits ∧ busy.ilt.Fits
    ∧ busy.ilt.ScopesFit ∧ busy.ilt.RegistryFits ∧ busy.RangesFit ∧ busy.CornersFit ∧ busy.vda.Gated ∧ busy.rlu.TargetsFit :=
  ⟨⟨_, rfl⟩, noticesFit_initial _ _ _, ⟨by decide, fun _ h => absurd h (by simp [busy, State.reset, Lnk.initial]),
    fun h => absurd rfl h⟩, iltFits_empty (by decide +kernel) rfl, scopesFit_empty (by decide +kernel), registryFits_initial,
    ⟨settings_default_inRange, bank_initial_inRange, bank_initial_inRange⟩, cornersFit_initial 0 _ rfl rfl, gated_initial _ _,
    targetsFit_initial⟩

theorem witness_stepKeepsOutputs : busy.OutputsFit where
  release := by decide +kernel
  notRun := by decide +kernel
  doorEntry := by decide +kernel
  contactOpen := by decide +kernel
  service := by decide +kernel
  curbLow := by decide +kernel
  inhibited := by decide +kernel

theorem holding_evaluated : holding.Evaluated := (evaluated_iff (by decide +kernel)).mp (by decide +kernel)

theorem witness_stepKeepsOutputs_evaluated : busy.Evaluated ∧ holding.Evaluated :=
  ⟨⟨fun h => absurd h (by decide), fun h => absurd h (by decide)⟩, holding_evaluated⟩

theorem witness_stepKeepsSteering : busy.stc.state = .parked ∧ busy.stc.command = 0 ∧ busy.brk.windowOpen = busy.stc.windowOpen := by
  decide +kernel

theorem witness_sendersAreChecked :
    (Instr.nop (.can 3) 5).request? = some (.can 3, requestBytes 0 5 0 0 0 0) ∧ State.reset.hears (.can 3) ∧ ¬ State.reset.knows (.can 3)
    ∧ (Instr.start (.line 1) 9).request? = some (.line 1, requestBytes 42 9 0 0 0 0) ∧ State.reset.hears (.line 1)
    ∧ State.reset.knows (.line 1) ∧ 24 ≤ (requestBytes 42 9 0 0 0 0).b0.toNat
    ∧ (State.reset.record (Sender.line 1).partner).authority ≠ 0 ∧ State.reset.hears .host ∧ State.reset.knows .host :=
  ⟨rfl, ⟨rfl, rfl, rfl⟩, show ¬ (State.reset.record 3).enabled = true by decide +kernel, rfl, hears_line_one _,
    show (State.reset.record 14).enabled = true by decide +kernel, by decide, by decide +kernel, hears_host _,
    show (State.reset.record 0).enabled = true by decide +kernel⟩

theorem witness_handlesResolve : holding.ilt.Fits ∧ (∃ e, holding.resolve 0 = some e ∧ e.handle = 0)
    ∧ (∃ e, (rd holding.ilt.slots 0).entry = some e ∧ e.handle = 0) ∧ holding.serves .host
    ∧ holding.resolve 1 = none ∧ holding.resolve 192 = none ∧ holding.cfg.device = .run
    ∧ (holding.record 0).permitted.getLsbD 7 = true ∧ (holding.record 0).authority ≤ 1 :=
  ⟨holding_fits, found (by decide +kernel), found (by decide +kernel), serves_host (by decide +kernel), by decide +kernel,
    by decide +kernel, by decide +kernel, by decide +kernel, by decide +kernel⟩

/-- The eighteen slots of the partners occupied. -/
def full : State :=
  (List.finRange 18).foldl (fun s i => withEntry .override 0 (.target i.val) none ⟨i.val, by omega⟩ s) running

/-- A check of OPEN that one state fails, each after the checks before it. -/
theorem witness_openChecksInOrder :
    State.reset.cfg.device ≠ .run
    ∧ (running.record 14).permitted.getLsbD (Kind.code .doorOpen) = false
    ∧ (((withPartner 3 0 running).record 3).permitted.getLsbD (Kind.code .doorOpen) = true
      ∧ Kind.doorOpen.neededAuthority < ((withPartner 3 0 running).record 3).authority)
    ∧ (running.scopeOf .doorOpen 3 0 = none ∧ running.scopeOf .doorOpen 0 0 = none ∧ running.scopeOf .doorOpen 2 0 = some (.door 1))
    ∧ ((running.modMot fun m => { m with speed := some 31 }).admission .doorOpen (.door 1)).isSome = true
    ∧ (running.modMot fun m => { m with speed := some 30 }).admission .doorOpen (.door 1) = none
    ∧ (holding.scopeOf .stopHold 10 0 = some .vehicle ∧ holding.admission .stopHold .vehicle = none
      ∧ (holding.duplicate .stopHold 0 .vehicle).isSome = true)
    ∧ ((withEntry .kneel 0 .curb (some 70) 0 running).admission .raise .vehicle = none
      ∧ (withEntry .kneel 0 .curb (some 70) 0 running).duplicate .raise 0 .vehicle = none
      ∧ ((withEntry .kneel 0 .curb (some 70) 0 running).conflict .raise).isSome = true)
    ∧ (full.admission .raise .vehicle = none ∧ full.duplicate .raise 0 .vehicle = none ∧ full.conflict .raise = none
      ∧ ∀ i : Fin 24, i.val < 18 → (rd full.ilt.slots i).entry.isSome = true) := by decide +kernel

theorem witness_openChecks_senders : running.hears (.line 1) ∧ running.knows (.line 1)
    ∧ (withPartner 3 0 running).hears (.can 3) ∧ (withPartner 3 0 running).knows (.can 3) ∧ running.serves .host ∧ full.serves .host
    ∧ Kind.ofCode (0 : Byte).toNat = some .doorOpen ∧ Kind.ofCode (7 : Byte).toNat = some .override :=
  ⟨hears_line_one _, show (running.record 14).enabled = true by decide +kernel, ⟨rfl, rfl, rfl⟩,
    show ((withPartner 3 0 running).record 3).enabled = true by decide +kernel, serves_host (by decide +kernel),
    serves_host (by decide +kernel), rfl, rfl⟩

/-- At a speed and in a motion state. -/
def atSpeed (v : Option Nat) (m : MotionState) (s : State) : State := s.modMot fun x => { x with speed := v, motion := m }

/-- Every contact that ILT judges reads CLOSED. -/
def closedContacts (s : State) : State := s.modIlt fun t => { t with contacts := Vector.replicate 4 true }

/-- Partner 3 with a RAMP_OUT for door 1 in slot 0, in a state. -/
def ramp (st : EntryState) : State := shows st 0 (withEntry .rampOut 3 (.door 0) none 0 (withPartner 2 500 running))

/-- Each part of R52 and R53 at a state that fails it, and beside it at one that passes. -/
theorem witness_openChecks_admission :
    8 ≤ (8 : Byte).toNat ∧ running.cfg.settings.doorCount = 2
    ∧ (running.admission .doorOpen (.door 0) = none ∧ ((atSpeed none .unknown running).admission .doorOpen (.door 0)).isSome = true
      ∧ (atSpeed (some 30) .rolling running).admission .stopHold .vehicle = none
      ∧ ((atSpeed (some 31) .rolling running).admission .stopHold .vehicle).isSome = true
      ∧ (atSpeed (some 300) .rolling running).admission .raise .vehicle = none
      ∧ ((atSpeed (some 301) .rolling running).admission .raise .vehicle).isSome = true
      ∧ (atSpeed (some 50) .rolling running).admission .kneel .curb = none
      ∧ ((atSpeed (some 51) .rolling running).admission .kneel .curb).isSome = true)
    ∧ ((ramp .active).live.map fun e => e.kind) = [.rampOut] ∧ ((ramp .active).admission .kneel .curb).isSome = true
    ∧ ((withEntry .serviceLock 0 .vehicle none 0 running).live.map fun e => e.kind) = [.serviceLock]
    ∧ ((withEntry .serviceLock 0 .vehicle none 0 running).admission .kneel .curb).isSome = true
    ∧ ((atSpeed (some 4) .settling running).mot.motion ≠ .standstill
      ∧ ((atSpeed (some 4) .settling running).admission .rampOut (.door 0)).isSome = true
      ∧ running.admission .serviceLock .vehicle = none)
    ∧ (running.resolve 0 = none ∧ (holding.admission .override (.target 0)).isSome = true
      ∧ ((ramp .active).admission .override (.target 0)).isSome = true ∧ ((ramp .covered).admission .override (.target 0)).isSome = true
      ∧ ((ramp .stale).admission .override (.target 0)).isSome = true
      ∧ (closedContacts (ramp .stale)).admission .override (.target 0) = none) := by decide +kernel

theorem witness_openPlacesEntry : running.serves .host ∧ running.cfg.device = .run
    ∧ (running.record 0).permitted.getLsbD (Kind.code .doorOpen) = true
    ∧ (running.record 0).authority ≤ Kind.doorOpen.neededAuthority
    ∧ running.scopeOf .doorOpen 1 0 = some (.door 0) ∧ running.admission .doorOpen (.door 0) = none
    ∧ running.duplicate .doorOpen 0 (.door 0) = none ∧ running.conflict .doorOpen = none
    ∧ (rd running.ilt.slots 0).entry = none ∧ (rd running.dsv.doors 0).supervision ≠ .unclaimed
    ∧ (rd holding.ilt.slots 1).entry = none ∧ (rd holding.ilt.slots 0).entry.isSome = true :=
  ⟨serves_host (by decide +kernel), by decide +kernel⟩

/-- Door 1 UNCLAIMED, with the part's DOOR_OPEN in slot 18. -/
def unclaimed : State :=
  (withEntry .doorOpen 15 (.door 0) none 18 running).modDsv fun x =>
    { x with doors := upd x.doors 0 fun d => { d with supervision := .unclaimed, selfHandle := some 144 } }

/-- The other kinds of an OPEN that has an effect of its own: a hold, a ride level, and an OVERRIDE of a STALE RAMP_OUT. -/
theorem witness_openPlacesEntry_kinds : running.mot.motion = .standstill
    ∧ (running.scopeOf .stopHold 10 0 = some .vehicle ∧ running.admission .stopHold .vehicle = none
      ∧ running.duplicate .stopHold 0 .vehicle = none ∧ running.conflict .stopHold = none)
    ∧ (running.scopeOf .raise 10 0 = some .vehicle ∧ running.admission .raise .vehicle = none
      ∧ running.duplicate .raise 0 .vehicle = none ∧ running.conflict .raise = none)
    ∧ ((closedContacts (ramp .stale)).scopeOf .override 11 0 = some (.target 0)
      ∧ (closedContacts (ramp .stale)).admission .override (.target 0) = none
      ∧ (closedContacts (ramp .stale)).duplicate .override 0 (.target 0) = none
      ∧ (closedContacts (ramp .stale)).conflict .override = none
      ∧ (rd (closedContacts (ramp .stale)).ilt.slots 1).entry = none) := by decide +kernel

theorem witness_openClaimsDoor : unclaimed.serves .host ∧ unclaimed.ilt.Fits
    ∧ (∃ f, unclaimed.resolve 144 = some f ∧ f.owner = 15 ∧ f.kind = .doorOpen ∧ f.scope = .door 0 ∧ f.coveredBy = none)
    ∧ unclaimed.cfg.device = .run ∧ (unclaimed.record 0).permitted.getLsbD (Kind.code .doorOpen) = true
    ∧ unclaimed.scopeOf .doorOpen 1 0 = some (.door 0) ∧ unclaimed.admission .doorOpen (.door 0) = none
    ∧ unclaimed.duplicate .doorOpen 0 (.door 0) = none ∧ unclaimed.conflict .doorOpen = none
    ∧ (rd unclaimed.ilt.slots 0).entry = none ∧ (rd unclaimed.dsv.doors 0).supervision = .unclaimed
    ∧ (rd unclaimed.dsv.doors 0).selfHandle = some 144 :=
  ⟨serves_host (by decide +kernel),
    fits_withEntry (s := running) running_fits (by decide +kernel) (by decide) rfl (by decide +kernel),
    found (by decide +kernel), by decide +kernel⟩

theorem witness_amendSetsParameter : holding.serves .host ∧ holding.cfg.device = .run
    ∧ (∃ e, holding.resolve 0 = some e ∧ e.owner = 0 ∧ e.kind.parameterRange = some (150, 500, 300) ∧ e.state = .active) :=
  ⟨serves_host (by decide +kernel), by decide +kernel, found (by decide +kernel)⟩

/-- A DOOR_OPEN of the host, which has no parameter, for a door whose contact is open. -/
def doorOpened : State := withEntry .doorOpen 0 (.door 0) none 0 running

theorem witness_amend_refused : State.reset.serves .host ∧ State.reset.cfg.device ≠ .run ∧ holding.hears (.line 1)
    ∧ holding.knows (.line 1) ∧ (∃ e, holding.resolve 0 = some e ∧ e.owner ≠ 14) ∧ doorOpened.serves .host
    ∧ (∃ e, doorOpened.resolve 0 = some e ∧ e.owner = 0 ∧ e.kind.parameterRange = none)
    ∧ (shows .stale 0 holding).serves .host
    ∧ (∃ e, (shows .stale 0 holding).resolve 0 = some e ∧ e.owner = 0 ∧ e.kind.parameterRange ≠ none ∧ e.state = .stale)
    ∧ holding.Evaluated ∧ holding.ilt.Fits :=
  ⟨serves_host (by decide +kernel), by decide, hears_line_one _, show (holding.record 14).enabled = true by decide +kernel,
    found (by decide +kernel), serves_host (by decide +kernel), found (by decide +kernel), serves_host (by decide +kernel),
    found (by decide +kernel), holding_evaluated, holding_fits⟩

theorem witness_refreshKeepsAlive : holding.serves .host ∧ (∃ e, holding.resolve 0 = some e ∧ e.owner = 0 ∧ e.deadline = .none)
    ∧ partnerHolds.hears (.can 3) ∧ partnerHolds.knows (.can 3) ∧ (partnerHolds.record 3).window ≠ 0
    ∧ (∃ e, partnerHolds.resolve 0 = some e ∧ e.owner = 3 ∧ e.deadline ≠ .none ∧ e.state = .active)
    ∧ partnerHolds.cfg.device = .run :=
  ⟨serves_host (by decide +kernel), found (by decide +kernel), ⟨rfl, rfl, rfl⟩,
    show (partnerHolds.record 3).enabled = true by decide +kernel, by decide +kernel, found (by decide +kernel), by decide +kernel⟩

/-- A RAMP_OUT of one partner in slot 0, in a state and covered as given. -/
def rampOf (p : Fin 16) (st : EntryState) (by' : Option Nat) : State :=
  (withEntry .rampOut p (.door 0) none 0 (withPartner 2 500 running)).touch fun _ e => { e with state := st, coveredBy := by' }

/-- Partner 3 with a RAMP_OUT in slot 0 that the host's OVERRIDE in slot 1 covers, or that is STALE. -/
def covered (st : EntryState) (by' : Option Nat) : State := withEntry .override 0 (.target 0) none 1 (rampOf 3 st by')

theorem rampOf_fits {p : Fin 16} (hp : p = 15 ↔ 18 ≤ (0 : Fin 24).val) (st : EntryState) (by' : Option Nat) :
    (rampOf p st by').ilt.Fits := by
  refine iltFits_touch (fits_withEntry (s := withPartner 2 500 running) (iltFits_empty (by decide +kernel) rfl)
    (by decide +kernel) hp rfl ?_) fun i e h => ⟨rfl, rfl, rfl, rfl, rfl, fun x => x⟩
  have none : (withPartner 2 500 running).live = [] := by decide +kernel
  rw [none]
  exact fun _ h => absurd h List.not_mem_nil

theorem covered_fits (st : EntryState) (by' : Option Nat) (live : ∀ x ∈ (rampOf 3 st by').live, x.kind = .rampOut)
    (free : (rd (rampOf 3 st by').ilt.slots 1).entry = none) : (covered st by').ilt.Fits :=
  fits_withEntry (rampOf_fits (by decide) st by') free (by decide) rfl fun x hx k => absurd k.1 (by rw [live x hx]; decide)

theorem witness_refreshRevives : (covered .covered (some 8)).ilt.Fits ∧ (covered .stale none).ilt.Fits
    ∧ (covered .covered (some 8)).hears (.can 3) ∧ (covered .covered (some 8)).knows (.can 3)
    ∧ (∃ e, (covered .covered (some 8)).resolve 0 = some e ∧ e.owner = 3 ∧ e.deadline ≠ .none ∧ e.state = .covered
      ∧ e.coveredBy = some 8)
    ∧ (∃ e, (covered .stale none).resolve 0 = some e ∧ e.owner = 3 ∧ e.deadline ≠ .none ∧ e.state = .stale
      ∧ e.coveredBy = none)
    ∧ (covered .stale none).cfg.device = .run ∧ ((covered .stale none).record 3).window ≠ 0 :=
  ⟨covered_fits _ _ (by decide +kernel) (by decide +kernel), covered_fits _ _ (by decide +kernel) (by decide +kernel), ⟨rfl, rfl, rfl⟩,
    show ((covered .covered (some 8)).record 3).enabled = true by decide +kernel, found (by decide +kernel),
    found (by decide +kernel), by decide +kernel, by decide +kernel⟩

theorem witness_retireFreesSlot : holding.ilt.Fits ∧ holding.serves .host
    ∧ (∃ e, holding.resolve 0 = some e ∧ e.owner = 0 ∧ holding.retireRight 0 e = none)
    ∧ holding.hears (.line 1) ∧ holding.knows (.line 1)
    ∧ (∃ e, holding.resolve 0 = some e ∧ (holding.retireRight 14 e).isSome = true) ∧ holding.cfg.device = .run :=
  ⟨holding_fits, serves_host (by decide +kernel), found (by decide +kernel), hears_line_one _,
    show (holding.record 14).enabled = true by decide +kernel, found (by decide +kernel), by decide +kernel⟩

/-- The part's STOP_HOLD in slot 18, which BRK holds. -/
def selfHolds : State := (withEntry .stopHold 15 .vehicle (some 450) 18 running).modBrk fun b => { b with selfHandle := some 144 }

theorem selfHolds_fits : selfHolds.ilt.Fits :=
  fits_withEntry running_fits (by decide +kernel) (by decide) ⟨450, rfl, by decide, by decide⟩ (by decide +kernel)

/-- Each clause of R61: out of RUN, a covered entry, an OVERRIDE of a covered one, the last entry of an open door, and a SELF entry. -/
theorem witness_retire_steps : State.reset.serves .host ∧ State.reset.cfg.device ≠ .run
    ∧ ((covered .covered (some 8)).ilt.Fits ∧ (covered .covered (some 8)).hears (.can 3) ∧ (covered .covered (some 8)).knows (.can 3)
      ∧ (∃ e, (covered .covered (some 8)).resolve 0 = some e ∧ e.owner = 3 ∧ e.coveredBy = some 8)
      ∧ ((covered .covered (some 8)).resolve 8).isSome = true)
    ∧ ((covered .covered (some 8)).serves .host
      ∧ ∃ e, (covered .covered (some 8)).resolve 8 = some e ∧ e.owner = 0 ∧ e.scope = .target 0 ∧ e.coveredBy = none)
    ∧ (doorOpened.serves .host ∧ doorOpened.ilt.Fits
      ∧ (∃ e, doorOpened.resolve 0 = some e ∧ e.owner ≠ 15 ∧ e.kind = .doorOpen ∧ e.scope = .door 0)
      ∧ (rd doorOpened.dsv.doors 0).contact.debounced = false ∧ (rd doorOpened.dsv.doors 0).supervision ≠ .unclaimed
      ∧ (doorOpened.live.map fun e => e.handle) = [0] ∧ (rd doorOpened.dsv.doors 0).selfHandle = none
      ∧ (rd doorOpened.ilt.slots 18).entry = none)
    ∧ (selfHolds.serves .host ∧ selfHolds.ilt.Fits
      ∧ ∃ e, selfHolds.resolve 144 = some e ∧ e.owner = 15 ∧ selfHolds.retireRight 0 e = none) :=
  ⟨serves_host (by decide +kernel), by decide,
    ⟨covered_fits _ _ (by decide +kernel) (by decide +kernel), ⟨rfl, rfl, rfl⟩,
      show ((covered .covered (some 8)).record 3).enabled = true by decide +kernel, found (by decide +kernel), by decide +kernel⟩,
    ⟨serves_host (by decide +kernel), found (by decide +kernel)⟩,
    ⟨serves_host (by decide +kernel), fits_withEntry running_fits (by decide +kernel) (by decide) rfl (by decide +kernel),
      found (by decide +kernel), by decide +kernel, by decide +kernel, by decide +kernel, by decide +kernel, by decide +kernel⟩,
    serves_host (by decide +kernel), selfHolds_fits, found (by decide +kernel)⟩

theorem witness_queryAndListAnswer : holding.serves .host ∧ (∃ e, holding.resolve 0 = some e ∧ e.kind = .stopHold)
    ∧ (holding.live[(0 : Word16).toNat]?).isSome = true ∧ holding.live.length ≤ (1 : Word16).toNat ∧ 1 < (2 : Byte).toNat
    ∧ (∃ e, holding.resolve 0 = some e ∧ e.state = .active ∧ e.deadline = .none)
    ∧ (∃ e, partnerHolds.resolve 0 = some e ∧ e.state = .active ∧ e.deadline = .running 500000)
    ∧ (∃ e, (covered .covered (some 8)).resolve 0 = some e ∧ e.state = .covered ∧ e.coveredBy = some 8)
    ∧ (∃ e, (covered .stale none).resolve 0 = some e ∧ e.state = .stale) :=
  ⟨serves_host (by decide +kernel), found (by decide +kernel), by decide +kernel, by decide +kernel, by decide +kernel,
    found (by decide +kernel), found (by decide +kernel), found (by decide +kernel), found (by decide +kernel)⟩

/-- After a brake update the blended share of an axle is formed. -/
def blended : State := running.modBrk fun b => { b with axles := upd b.axles 2 fun a => { a with blended := some 300 } }

theorem witness_readsAnswer : blended.serves .host ∧ (5 : Byte).toNat = (5 : Fin 6).val ∧ 6 ≤ (6 : Byte).toNat
    ∧ (3 : Byte).toNat = (2 : Fin 3).val + 1 ∧ (rd blended.brk.axles 2).blended = some 300 ∧ (rd blended.brk.axles 1).blended = none
    ∧ 3 < (4 : Byte).toNat ∧ 1 < (2 : Byte).toNat := ⟨serves_host (by decide +kernel), by decide +kernel⟩

theorem witness_fieldsArePacked : packWidth ([(11, 10)] ++ (2, 3) :: [(1, 1)]) ≤ 48
    ∧ (0 : Nat) < 48 - packWidth ([(11, 10)] ++ (2, 3) :: [(1, 1)]) ∧ 0 < 10 ∧ -(2 ^ (10 - 1) : Int) ≤ -512 ∧ (511 : Int) < 2 ^ (10 - 1)
    ∧ signedField 10 (-512) = 512 ∧ signedField 10 511 = 511 := by decide

theorem witness_noticeLatchesFirstCause :
    (rd State.reset.lnk.notices (Notice.flag (.staleEntry 9))).raised = false
    ∧ (rd (State.reset.post (.staleEntry 8)).lnk.notices (Notice.flag (.staleEntry 9))).raised = true := by decide +kernel

theorem witness_noticeRequests : State.reset.serves .host ∧ (13 : Byte).toNat = (13 : Fin 14).val ∧ 14 ≤ (14 : Byte).toNat
    ∧ (RetireReason.causeCleared, 5) ∈ [(.speed, 0), (.stale, 1), (.targetRevived, 2), (.targetGone, 3), (.contactOpen, 4), (.causeCleared, 5)]
    ∧ (UnconfirmedCause.lost, 1) ∈ [(.timeout, 0), (.lost, 1)] ∧ (FaultSource.valve, 2) ∈ [(.analog, 0), (.wheel, 1), (.valve, 2)]
    ∧ (FaultKind.openLoad, 2) ∈ [(.faulty, 0), (.lockedOut, 1), (.openLoad, 2)]
    ∧ (SupplyCause.undervoltage, 2) ∈ [(.reservoir, 0), (.thermal, 1), (.undervoltage, 2)]
    ∧ (FblPhase.count, 4) ∈ [(.start, 0), (.gap, 1), (.pulse, 2), (.space, 3), (.count, 4)]
    ∧ SubReason.none = .none ∧ SubReason.speed ≠ .none :=
  ⟨serves_host (by decide +kernel), by decide⟩

/-- Corner 5 in FAULT. -/
def faulted : State := withCorner 5 (fun c => { c with state := .fault, fault := some .fillTimeout }) running

theorem witness_clearCornerClears : faulted.serves .host ∧ State.reset.serves .host ∧ (5 : Byte).toNat = (5 : Fin 6).val
    ∧ State.reset.cfg.device ≠ .run ∧ faulted.cfg.device = .run ∧ (rd faulted.crn.corners 4).state ≠ .fault
    ∧ (rd faulted.crn.corners 5).state = .fault
    ∧ ((rd faulted.mot.analog 5).validity ≠ .faulty ∧ faulted.channelState 5 = .off ∧ faulted.channelState 11 = .off)
    ∧ (rd (withAnalog 5 0 .faulty faulted).mot.analog 5).validity = .faulty
    ∧ (withChannel 5 (fun c => { c with state := .lockedOut }) faulted).channelState 5 = .lockedOut
    ∧ (withChannel 11 (fun c => { c with state := .openLoad }) faulted).channelState 11 = .openLoad :=
  ⟨serves_host (by decide +kernel), serves_host (by decide +kernel), by decide +kernel⟩

theorem witness_clearChannelClears : (withChannel 17 (fun c => { c with state := .lockedOut }) running).serves .host
    ∧ (17 : Byte).toNat = (17 : Fin 18).val ∧ inSafe.cfg.device = .safe
    ∧ (withChannel 17 (fun c => { c with state := .lockedOut }) running).channelState 17 = .lockedOut
    ∧ (withChannel 17 (fun c => { c with state := .openLoad }) running).channelState 17 = .openLoad
    ∧ running.channelState 17 = .off ∧ running.cfg.device ≠ .safe :=
  ⟨serves_host (by decide +kernel), by decide +kernel⟩

/-- The four steering channels VALID. -/
def sensed (s : State) : State := withAnalog 12 0 .valid (withAnalog 13 0 .valid (withAnalog 14 0 .valid (withAnalog 15 0 .valid s)))

/-- The latch set, with the part's STEER_CENTRE in slot 18. -/
def latched : State :=
  (sensed (withEntry .steerCentre 15 .vehicle none 18 running)).modStc fun x =>
    { x with latch := some .disagree, selfHandle := some 144, state := .locked }

/-- The record of an entry for the rights of R59 and R60. -/
def rightsOf (k : Kind) (owner : Fin 16) (rank : Nat) (st : EntryState) : Entry :=
  { running.newEntry k owner rank (if k.isDoor then .door 0 else .vehicle) none 0 0 with state := st }

/-- R59, R60: the fallback line's rank of 1 and partner 3's of 3, against entries of each kind, and a contact that reads CLOSED or OPEN. -/
theorem witness_retire_rights : (running.record 14).authority = 1 ∧ ((withPartner 3 0 running).record 3).authority = 3
    ∧ (rightsOf .kneel 4 2 .active).authority = 2 ∧ (rightsOf .doorOpen 4 2 .stale).scope = .door 0
    ∧ rd (closedContacts running).ilt.contacts 0 = true ∧ rd running.ilt.contacts 0 = false
    ∧ running.retireRight 14 (rightsOf .kneel 4 2 .active) = none
    ∧ (closedContacts running).retireRight 14 (rightsOf .doorOpen 4 2 .stale) = none
    ∧ running.retireRight 14 (rightsOf .doorOpen 4 2 .stale) = some (.refused .notOwner none .contactOpen 0 0)
    ∧ running.retireRight 14 (rightsOf .rampOut 4 2 .waiting) = some (.refused .notOwner none .notStale 0 0)
    ∧ running.retireRight 14 (rightsOf .rampOut 4 1 .waiting) = some (.refused .notOwner none .authorityRank 0 0)
    ∧ running.retireRight 0 (rightsOf .override 4 1 .active) = none
    ∧ running.retireRight 14 (rightsOf .override 4 2 .active) = some (.refused .notOwner none .authorityRank 0 0)
    ∧ running.retireRight 0 (rightsOf .serviceLock 4 0 .active) = some (.refused .notOwner none .ownerOnly 0 0)
    ∧ (closedContacts running).retireRight 14 (rightsOf .doorOpen 15 0 .active) = none
    ∧ (withPartner 3 0 running).retireRight 3 (rightsOf .stopHold 15 0 .active) = some (.refused .notOwner none .authorityRank 0 0)
    ∧ latched.retireRight 0 (rightsOf .steerCentre 15 0 .active) = some (.refused .notClearable none .none 0 0)
    ∧ running.retireRight 0 (rightsOf .steerCentre 15 0 .active) = some (.refused .notOwner none .ownerOnly 0 0) := by decide +kernel

theorem witness_clearSteerFaultClears : latched.serves .host ∧ latched.ilt.Fits
    ∧ (∃ e, latched.resolve 144 = some e ∧ e.owner = 15) ∧ latched.cfg.device = .run ∧ latched.stc.selfHandle = some 144
    ∧ latched.steerFailure = none ∧ latched.stc.latch ≠ none ∧ (latched.channelState lockChannel).unusable = false
    ∧ (sensed running).steerFailure = none ∧ (sensed running).stc.latch = none
    ∧ State.reset.steerFailure = some .artASensor ∧ State.reset.cfg.device ≠ .safe
    ∧ (withAnalog 12 21 .valid (sensed running)).steerFailure = some .disagree
    ∧ (withAnalog 12 20 .valid (sensed running)).steerFailure = none
    ∧ (withAnalog 13 0 .held (sensed running)).steerFailure = some .artBSensor
    ∧ (withAnalog 14 0 .faulty (sensed running)).steerFailure = some .frontSensor
    ∧ (withAnalog 15 0 .held (sensed running)).steerFailure = some .actuatorSensor :=
  ⟨serves_host (by decide +kernel),
    fits_withEntry (s := running) running_fits (by decide +kernel) (by decide) rfl (by decide +kernel),
    found (by decide +kernel), by decide +kernel⟩

/-- The latched state at speed with CL1 LOCKED_OUT: LOCKED is left into TRACKING, which latches again. -/
def latchedMoving : State := withChannel 17 (fun c => { c with state := .lockedOut }) (atSpeed (some 40) .rolling latched)

theorem witness_clearSteerFault_locks : latchedMoving.serves .host ∧ latchedMoving.ilt.Fits ∧ inSafe.serves .host
    ∧ inSafe.cfg.device = .safe ∧ latchedMoving.steerFailure = none ∧ latchedMoving.stc.latch ≠ none
    ∧ latchedMoving.stc.state = .locked ∧ latchedMoving.mot.motion ≠ .standstill
    ∧ (latchedMoving.channelState lockChannel).unusable = true ∧ latchedMoving.stc.selfHandle = some 144
    ∧ (latchedMoving.live.map fun e => (e.kind, e.owner, e.handle)) = [(.steerCentre, 15, 144)]
    ∧ (latched.modStc fun x => { x with state := .passive }).stc.state = .passive :=
  ⟨serves_host (by decide +kernel),
    fits_withEntry (s := running) running_fits (by decide +kernel) (by decide) rfl (by decide +kernel),
    serves_host (by decide +kernel), by decide +kernel⟩

/-- Bank B VALID. -/
def withBankB (s : State) : State := s.modStc fun x => { x with bankB := twoRows }

theorem witness_swapBankSwaps : (withBankB running).serves .host ∧ inSafe.cfg.device = .safe
    ∧ (State.reset.modCfg fun c => { c with settings := { c.settings with bankMode := .fixedA } }).cfg.settings.bankMode ≠ .follow
    ∧ running.cfg.settings.bankMode = .follow ∧ (running.stc.bank running.stc.inUse.other).valid = false
    ∧ ((withBankB running).stc.bank (withBankB running).stc.inUse.other).valid = true
    ∧ (withBankB running).stc.pendingSwap = none ∧ (withBankB running).mot.motion = .standstill
    ∧ (withBankB State.reset).cfg.device = .config
    ∧ (withBankB settling).cfg.device = .run ∧ (withBankB settling).mot.motion ≠ .standstill
    ∧ (running.modStc fun x => { x with pendingSwap := some .b }).stc.pendingSwap ≠ none :=
  ⟨serves_host (by decide +kernel), by decide +kernel⟩

theorem witness_writeBankRowStores : running.serves .host ∧ State.reset.serves .host ∧ running.cfg.device = .run
    ∧ running.stc.inUse = .a
    ∧ (running.stc.bankA.write 0 15 1201).isSome = true ∧ (running.stc.bankB.write 5 15 0).isSome = true
    ∧ (running.stc.bankB.write 6 0 16).isSome = true
    ∧ (running.modStc fun x => { x with pendingSwap := some .b }).stc.pendingSwap = some .b
    ∧ State.reset.cfg.device = .config ∧ (0x06 : Byte).getLsbD 4 = false ∧ (0x16 : Byte).getLsbD 4 = true :=
  ⟨serves_host (by decide +kernel), serves_host (by decide +kernel), by decide +kernel⟩

theorem witness_writeSettingStores : running.serves .host ∧ State.reset.serves .host ∧ running.cfg.device ≠ .config
    ∧ State.reset.cfg.device = .config ∧ State.reset.cfg.settings.write 21 0 0 = none
    ∧ State.reset.cfg.settings.write 6 21 0 = none ∧ (State.reset.cfg.settings.write 6 20 0).isSome = true
    ∧ (State.reset.cfg.settings.write 2 0 5).isSome = true ∧ (State.reset.cfg.settings.write 3 0 1).isSome = true
    ∧ (State.reset.cfg.settings.write 20 0 2).isSome = true
    ∧ (let low := withCorner 5 (fun c => { c with measured := -31 }) State.reset
      (curbSide true 5 = true ∧ (rd low.crn.corners 5).measured < (low.rlu.ride : Int) - 30
        ∧ yields (.writeSetting .host 1 3 0 1) low (fun t => t.rlu.curbLow) = true)
      ∧ curbSide false 5 = false ∧ yields (.writeSetting .host 1 3 0 0) low (fun t => !t.rlu.curbLow) = true) :=
  ⟨serves_host (by decide +kernel), serves_host (by decide +kernel), by decide +kernel⟩

theorem witness_writeRegistryStores : State.reset.hears (.can 3) ∧ ¬ State.reset.knows (.can 3)
    ∧ State.reset.hears (.line 1) ∧ State.reset.knows (.line 1) ∧ (State.reset.record 14).authority ≠ 0
    ∧ running.serves .host ∧ running.cfg.device ≠ .config ∧ State.reset.serves .host ∧ State.reset.cfg.device = .config
    ∧ 13 < (14 : Byte).toNat ∧ (13 : Byte).toNat = (13 : Fin 16).val ∧ (1 : Byte).toNat = (1 : Fin 16).val :=
  ⟨⟨rfl, rfl, rfl⟩, show ¬ (State.reset.record 3).enabled = true by decide +kernel, hears_line_one _,
    show (State.reset.record 14).enabled = true by decide +kernel, by decide +kernel, serves_host (by decide +kernel), by decide +kernel,
    serves_host (by decide +kernel), by decide +kernel⟩

theorem witness_startEntersRun : ready.serves .host ∧ running.cfg.device ≠ .config ∧ ready.cfg.device = .config
    ∧ ¬ (2 ≤ State.reset.cfg.settings.doorCount) ∧ ready.cfg.settings.doorCount = 2
    ∧ rd ready.cfg.settings.share 0 + rd ready.cfg.settings.share 1 + rd ready.cfg.settings.share 2 = 1000
    ∧ rd (wr ready.cfg.settings.share 0 299) 0 + rd ready.cfg.settings.share 1 + rd ready.cfg.settings.share 2 ≠ 1000
    ∧ (ready.stc.bank ready.stc.inUse).valid = true ∧ (ready.stc.bank ready.stc.inUse.other).valid = false
    ∧ ready.cfg.settings.inRange = true ∧ { ready.cfg.settings with threshold := 2 }.inRange = false
    ∧ (ready.modMot fun m => { m with motion := .standstill }).mot.motion = .standstill :=
  ⟨serves_host (by decide +kernel), by decide +kernel⟩

theorem witness_enterSafeFreezes : State.reset.serves .host ∧ inSafe.serves .host ∧ faulted.serves .host
    ∧ State.reset.cfg.device = .config ∧ inSafe.cfg.device = .safe ∧ faulted.cfg.device = .run
    ∧ (rd faulted.crn.corners 5).state = .fault
    ∧ (rd (withCorner 0 (fun c => { c with reasons := FreezeSet.empty, state := .inBand }) running).crn.corners 0).reasons.config
      = false :=
  ⟨serves_host (by decide +kernel), serves_host (by decide +kernel), serves_host (by decide +kernel), by decide +kernel⟩

/-! ## The hypotheses of the statements are met: the link -/

/-- The conditions on an accepted frame, as the statement has them. -/
def accepts (f : CanFrame) (s : State) : Prop :=
  f.remote = false ∧ f.extended = false ∧ f.dlc = 8 ∧ s.cfg.settings.reqBase + 1 ≤ f.identifier
    ∧ f.identifier ≤ s.cfg.settings.reqBase + 13

/-- Four frames that wait. -/
def crowded : State :=
  (answered State.reset).modLnk fun l => { l with queue := List.replicate 4 { partner := 3, content := requestBytes 0 9 0 0 0 0 } }

theorem witness_frameArrives : accepts (frameOf false false 1281 8 (requestBytes 0 7 0 0 0 0).toList) State.reset
    ∧ accepts (frameOf false false 1293 8 (requestBytes 0 7 0 0 0 0).toList) State.reset
    ∧ ¬ accepts (frameOf false false 1294 8 []) State.reset ∧ ¬ accepts (frameOf true false 1281 8 []) State.reset
    ∧ ¬ accepts (frameOf false true 1281 8 []) State.reset ∧ ¬ accepts (frameOf false false 1281 7 []) State.reset
    ∧ 4 ≤ crowded.lnk.queue.length ∧ (waiting State.reset).lnk.queue.length < 4 ∧ (waiting State.reset).lnk.queue ≠ []
    ∧ (answered State.reset).lnk.answer ≠ none ∧ State.reset.lnk.queue = [] ∧ State.reset.lnk.answer = none
    ∧ (Instr.nop (.can 1) 7).request? = some (.can 1, requestBytes 0 7 0 0 0 0) := by
  unfold accepts
  decide +kernel

/-- All three transmit buffers full, on the identifiers given. -/
def buffered (b a st : Nat) : State := State.reset.modLnk fun l =>
  { l with
    broadcast := some (TxFrame.mk b Content.noAnswer)
    answer := some (PendingAnswer.mk (TxFrame.mk a Content.noAnswer) 0)
    steering := some (TxFrame.mk st Content.noAnswer) }

theorem witness_buffersEmpty : (State.reset.lnk.held .broadcast = none ∧ State.reset.lnk.held .answer = none
      ∧ State.reset.lnk.held .steering = none)
    ∧ (buffered 768 770 783).lnk.offered = .broadcast ∧ (buffered 785 770 783).lnk.offered = .answer
    ∧ (buffered 785 784 783).lnk.offered = .steering
    ∧ ((buffered 785 784 783).lnk.held (buffered 785 784 783).lnk.offered).isSome = true
    ∧ (waiting (answered State.reset)).lnk.answer.isSome = true ∧ State.reset.lnk.answer = none := by decide +kernel

theorem witness_spiTransaction : State.reset.lnk.shifting = none ∧ shifting.lnk.shifting ≠ none
    ∧ (Instr.nop .host 5).request? = some (.host, requestBytes 0 5 0 0 0 0) := by decide +kernel

theorem witness_spiTransaction_bad : ∀ b : Content, ([0, 5] : List Byte) ≠ b.toList ++ [crc8 b.toList] := by
  intro b h
  simp [Content.toList] at h

theorem witness_broadcastReports : State.reset.cfg.device = .config ∧ running.cfg.device ≠ .config ∧ running.ilt.Fits
    ∧ running.live = [] ∧ holding.cfg.device ≠ .config ∧ holding.ilt.Fits ∧ holding.live.length = 1 ∧ holding.lnk.rotation = 0
    ∧ (holding.modLnk fun l => { l with rotation := 1 }).lnk.rotation = 1 :=
  ⟨by decide +kernel, by decide +kernel, running_fits, by decide +kernel, by decide +kernel, holding_fits, by decide +kernel⟩

/-! ## The hypotheses of the statements are met: the signals -/

/-- A channel with its validity and counts. -/
def judged (validity : Validity) (bad good : Nat) : State :=
  State.reset.modMot fun m => { m with analog := upd m.analog 0 fun a => { a with validity := validity, bad := bad, good := good } }

/-- The channel of a judged state. -/
def judgedChannel (validity : Validity) (bad good : Nat) : AnalogChannel := rd (judged validity bad good).mot.analog 0

/-- The window is 100 to 3,995: raw values at both of its ends and beside them, and each row of the table of R2. -/
theorem witness_samplesJudgeChannel :
    (State.reset.cfg.settings.inWindow 0 100 = true ∧ State.reset.cfg.settings.inWindow 0 3995 = true
      ∧ State.reset.cfg.settings.inWindow 0 99 = false ∧ State.reset.cfg.settings.inWindow 0 3996 = false)
    ∧ rd State.reset.cfg.settings.low 0 = 100 ∧ rd State.reset.cfg.settings.high 0 = 3995
    ∧ (judgedChannel .valid 0 0).validity = .valid
    ∧ ((judgedChannel .held 1 0).validity = .held ∧ (judgedChannel .held 1 0).bad < 2)
    ∧ ((judgedChannel .held 2 0).validity = .held ∧ (judgedChannel .held 2 0).bad = 2)
    ∧ ((judgedChannel .faulty 0 3).validity = .faulty ∧ (judgedChannel .faulty 0 3).good ≤ 3)
    ∧ ((judgedChannel .faulty 0 4).validity = .faulty ∧ (judgedChannel .faulty 0 4).good = 4) := by decide +kernel

theorem witness_samples_still : busy.OutputsFit ∧ busy.Evaluated := ⟨witness_stepKeepsOutputs, witness_stepKeepsOutputs_evaluated.1⟩

theorem witness_wheelEdgeCounts : rd State.reset.mot.wheels 2 = WheelChannel.initial
    ∧ [(10, Direction.forward), (25, Direction.reverse), (45, Direction.forward)]
      = [(10, Direction.forward)] ++ [(25, Direction.reverse), (45, Direction.forward)] := by decide +kernel

theorem witness_speedOfValidWheels : ([40, 10, 30, 20].Perm [10, 20, 30, 40]) ∧ ([0, 1200, 600].Perm [0, 600, 1200])
    ∧ ([7] : List Nat).length ≤ 1 := by decide

/-- Four wheels with the latest period given, the last edge 1 ms before the update at 20 ms, in a motion state. -/
def rolls (motion : MotionState) (timer period : Nat) : State :=
  running.modMot fun m => { m with
    motion := motion
    settleTimer := timer
    wheels := Vector.replicate 4 { WheelChannel.initial with period := some period, lastEdge := some 19000 } }

/-- The speed that the next update forms. -/
def nextSpeed (s : State) : Option Nat :=
  match exec .speedUpdate s with
  | .next t => t.mot.speed
  | .fault _ => none
  | .refused _ => none

/-- Three FAULTY wheels, one that is not, and its last edge and period as given. -/
def lonely (edge period : Option Nat) : State :=
  running.modMot fun m => { m with
    wheels := wr (Vector.replicate 4 { WheelChannel.initial with faulty := true }) 0
      { WheelChannel.initial with lastEdge := edge, period := period } }

/-- The threshold is 0.5 km/h and the band 0.4 km/h: speeds at both and one step below. -/
theorem witness_speedUpdateForms :
    (nextSpeed (rolls .unknown 0 90000) = some 4 ∧ nextSpeed (rolls .rolling 0 72000) = some 5)
    ∧ (nextSpeed (rolls .settling 260 90000) = some 4 ∧ (rolls .settling 260 90000).mot.settleTimer + 20 < 300)
    ∧ (nextSpeed (rolls .settling 280 90000) = some 4 ∧ 300 ≤ (rolls .settling 280 90000).mot.settleTimer + 20)
    ∧ (nextSpeed (rolls .settling 280 45000) = some 8 ∧ nextSpeed (rolls .settling 280 40000) = some 9)
    ∧ (nextSpeed (rolls .standstill 0 45000) = some 8 ∧ nextSpeed (rolls .standstill 0 40000) = some 9)
    ∧ running.cfg.settings.threshold = 5 ∧ running.cfg.settings.threshold + 2 * 2 ^ running.cfg.settings.band = 9
    ∧ nextSpeed (lonely none none) = none
    ∧ (rd (lonely (some 0) none).mot.wheels 0).period = none
    ∧ ((rd (lonely (some 1) (some 7)).mot.wheels 0).lastEdge = some 1
      ∧ 2000000 < max (atTime 2000002 (lonely (some 1) (some 7))).now 20000 - 1) := by decide +kernel

theorem witness_distanceIsExact : (∃ t, exec .speedUpdate turning = .next t)
    ∧ 0 < turning.mot.residue.den ∧ (∀ i, 0 < rd turning.cfg.settings.ppm i)
    ∧ yields .speedUpdate turning (fun t => decide ((validWheels t.mot.wheels).length = 4)) = true
    ∧ yields .speedUpdate (running.modMot fun m => { m with
        wheels := Vector.replicate 4 { WheelChannel.initial with faulty := true } })
      (fun t => decide ((validWheels t.mot.wheels).length = 0)) = true :=
  ⟨⟨_, rfl⟩, by decide +kernel⟩

/-- With the vehicle speed INVALID, a wheel agrees with another by the second form. -/
def agreesWithOther : State :=
  (oneShort none agreeingWheel running).modMot fun m =>
    { m with wheels := upd m.wheels 3 fun w => { w with period := some 3000, lastEdge := some 19000 } }

theorem witness_speedTimersRunOut :
    (stuckWheel.faulty = false ∧ 2000 ≤ stuckWheel.zeroTimer + 20 ∧ (oneShort (some 101) stuckWheel running).mot.speed = some 101
      ∧ yields .speedUpdate (oneShort (some 101) stuckWheel running) (fun t => decide ((rd t.mot.wheels 0).speed = 0)) = true)
    ∧ (agreeingWheel.faulty = true ∧ 5000 ≤ agreeingWheel.agreementTimer + 20
      ∧ yields .speedUpdate (oneShort (some 120) agreeingWheel running)
        (fun t => decide (5 * (((rd t.mot.wheels 0).speed : Int) - (120 : Nat)).natAbs ≤ 120)) = true)
    ∧ (agreesWithOther.mot.speed = none ∧ yields .speedUpdate agreesWithOther
      (fun t => decide ((rd t.mot.wheels 0).speed = 100 ∧ (rd t.mot.wheels 3).speed = 120)) = true)
    ∧ (settling.mot.motion = .settling ∧ 300 ≤ settling.mot.settleTimer + 20 ∧ nextSpeed settling = some 0
      ∧ 0 < settling.cfg.settings.threshold ∧ settling.cfg.device = .run)
    ∧ ((settling.modCfg fun c => { c with device := .safe }).cfg.device ≠ .run ∧ settling.mot.armed = false)
    ∧ running.mot.motion ≠ .settling ∧ (rd running.mot.wheels 0).zeroTimer = 0 := by decide +kernel

/-- Setting off from STANDSTILL in a steering state, with CL1 in a state of its own. -/
def settingOff (st : SteerState) (cl1 : ChannelState) : State :=
  withChannel 17 (fun c => { c with state := cl1 }) ((rolls .standstill 0 1025).modStc fun x => { x with state := st })

/-- Coming to STANDSTILL with a swap to bank B pending. -/
def stopping (st : SteerState) : State := settling.modStc fun x => { x with state := st, pendingSwap := some .b }

theorem witness_speedUpdate_steering :
    ((settingOff .frozen .on).cfg.device = .run ∧ (settingOff .frozen .on).live = []
      ∧ (settingOff .frozen .on).mot.motion = .standstill ∧ yields .speedUpdate (settingOff .frozen .on)
        (fun t => decide (t.mot.motion = .rolling ∧ t.stc.state = .tracking)) = true)
    ∧ ((settingOff .frozen .tripped).stc.latch = none ∧ (settingOff .frozen .tripped).stc.selfHandle = none
      ∧ (rd (settingOff .frozen .tripped).ilt.slots 18).entry = none ∧ yields .speedUpdate (settingOff .frozen .tripped)
        (fun t => decide (t.mot.motion = .rolling ∧ t.stc.latch = some .lockChannel ∧ t.stc.state = .centring)) = true)
    ∧ yields .speedUpdate (withEntry .steerCentre 0 .vehicle none 0 (settingOff .frozen .on))
      (fun t => decide (t.mot.motion = .rolling ∧ t.stc.state = .centring)) = true
    ∧ yields .speedUpdate (settingOff .tracking .on) (fun t => decide (t.mot.motion = .rolling ∧ t.stc.state = .tracking)) = true
    ∧ (settingOff .locked .on).stc.state = .locked ∧ inSafe.cfg.device ≠ .run
    ∧ ((stopping .tracking).stc.pendingSwap = some .b ∧ ((stopping .tracking).stc.bank .b).valid = false
      ∧ yields .speedUpdate (stopping .tracking) (fun t => decide (t.mot.motion = .standstill ∧ t.stc.state = .frozen)) = true)
    ∧ ((stopping .tracking).modStc (fun x => { x with bankB := twoRows }) |>.stc.bank .b).valid = true := by decide +kernel

/-- Standing with the rollback measurement armed at a reference, the counter at 0 and the selector lines as given. -/
def watchedAt (reference : Int) (fwd rev : Bool) (s : State) : State :=
  s.modMot fun m => { m with
    armed := true
    reference := BitVec.ofInt 32 reference
    selFwd := { level := fwd, debounced := fwd, since := 0 }
    selRev := { level := rev, debounced := rev, since := 0 } }

/-- What the next speed update leaves of the rollback measurement: armed, and its reference. -/
def rollbackAfter (s : State) : Option (Bool × Int) :=
  match exec .speedUpdate s with
  | .next t => some (t.mot.armed, t.mot.reference.toInt)
  | .fault _ => none
  | .refused _ => none

/-- R17, R18: the reference follows travel in the selected direction, and 0.30 m against it disarms; a hold in force moves it. -/
theorem witness_rollback :
    (watchedAt 30 true false running).selected = .forward ∧ (watchedAt 30 false true running).selected = .reverse
    ∧ (watchedAt 30 false false running).selected = .neutral
    ∧ rollbackAfter (watchedAt 29 true false running) = some (true, 29)
    ∧ rollbackAfter (watchedAt 30 true false running) = some (false, 30)
    ∧ rollbackAfter (watchedAt (-30) true false running) = some (true, 0)
    ∧ rollbackAfter (watchedAt (-30) false true running) = some (false, -30)
    ∧ rollbackAfter (watchedAt 30 false true running) = some (true, 0)
    ∧ rollbackAfter (watchedAt 30 false false running) = some (false, 30)
    ∧ rollbackAfter (watchedAt (-30) false false running) = some (false, -30)
    ∧ rollbackAfter (watchedAt 30 true false holding) = some (false, 30)
    ∧ rollbackAfter (watchedAt 30 true false (running.modBrk fun b => { b with hold := .held })) = some (true, 0)
    ∧ running.brk.selfHandle = none ∧ (rd running.ilt.slots 18).entry = none
    ∧ (selfHolds.brk.selfHandle = some 144 ∧ rollbackAfter (watchedAt 30 true false selfHolds) = some (false, 30)) := by
  decide +kernel

/-- What the next speed update makes of the motion state. -/
def motionNext (s : State) : Option MotionState :=
  match exec .speedUpdate s with
  | .next t => some t.mot.motion
  | .fault _ => none
  | .refused _ => none

/-- The rollback measurement at an update that changes the motion state: into ROLLING at 2.3 km/h with no hold, with a hold that rolling
takes from the host's entry, and into SETTLING with a hold that this entry begins. -/
theorem witness_rollback_moving :
    motionNext (watchedAt 30 true false (rolls .standstill 0 15600)) = some .rolling
    ∧ rollbackAfter (watchedAt 30 true false (rolls .standstill 0 15600)) = some (false, 30)
    ∧ rollbackAfter (watchedAt 29 true false (rolls .standstill 0 15600)) = some (true, 29)
    ∧ motionNext (watchedAt 30 true false (rolls .rolling 0 90000)) = some .settling
    ∧ rollbackAfter (watchedAt 30 true false (rolls .rolling 0 90000)) = some (false, 30)
    ∧ rollbackAfter (watchedAt 30 true false (withEntry .stopHold 0 .vehicle (some 300) 0 (rolls .rolling 0 90000))) = some (true, 0)
    ∧ rollbackAfter (watchedAt 30 true false (withEntry .stopHold 15 .vehicle (some 450) 18 (rolls .rolling 0 90000))) = some (true, 0)
    ∧ motionNext (watchedAt 30 true false (rolls .settling 280 90000)) = some .standstill
    ∧ rollbackAfter (watchedAt 30 true false (rolls .settling 280 90000)) = some (true, 0)
    ∧ (rolls .rolling 0 90000).cfg.device = .run ∧ (rd (rolls .rolling 0 90000).ilt.slots 19).entry = none := by decide +kernel

/-- R33, R34: a KNEEL at 5.1 km/h, a RAISE at 35.1 km/h, and one step below. -/
theorem witness_speedRetires :
    (withEntry .kneel 0 .curb (some 70) 0 (rolls .rolling 0 7000)).ilt.Fits
    ∧ (withEntry .raise 0 .vehicle (some 50) 0 (rolls .rolling 0 1025)).ilt.Fits
    ∧ nextSpeed (withEntry .kneel 0 .curb (some 70) 0 (rolls .rolling 0 7000)) = some 51
    ∧ nextSpeed (withEntry .raise 0 .vehicle (some 50) 0 (rolls .rolling 0 1025)) = some 351
    ∧ nextSpeed (withEntry .kneel 0 .curb (some 70) 0 (rolls .rolling 0 7200)) = some 50
    ∧ ((withEntry .kneel 0 .curb (some 70) 0 (rolls .rolling 0 7000)).live.map fun e => e.coveredBy) = [none] :=
  ⟨fits_withEntry (iltFits_empty (by decide +kernel) rfl) (by decide +kernel) (by decide) ⟨70, rfl, by decide, by decide⟩
      (by decide +kernel),
    fits_withEntry (iltFits_empty (by decide +kernel) rfl) (by decide +kernel) (by decide) ⟨50, rfl, by decide, by decide⟩
      (by decide +kernel), by decide +kernel⟩

/-- The part's STOP_HOLD live, SEL_FWD selected and DRIVE_REQ about to be asserted. -/
def departing : State := selfHolds.modMot fun m =>
  { m with
    selFwd := { level := true, debounced := true, since := 0 }
    driveReq := { level := true, debounced := false, since := 0 } }

theorem witness_driveLinesDebounce : (running.mot.line .driveReq).level = false ∧ (running.mot.line .driveReq).debounced = false
    ∧ (reversing.mot.line .selRev).level ≠ (reversing.mot.line .selRev).debounced ∧ reversing.mot.armed = true
    ∧ (departing.mot.line .driveReq).level ≠ (departing.mot.line .driveReq).debounced ∧ departing.brk.selfHandle = some 144
    ∧ (departing.live.map fun e => (e.kind, e.owner, e.handle)) = [(.stopHold, 15, 144)] ∧ departing.cfg.device = .run
    ∧ yields (.driveLineDebounceExpiry .driveReq) departing
      (fun t => t.mot.driveReq.debounced && decide (t.selected = .forward)) = true := by decide +kernel

theorem witness_driveLines_fits : departing.ilt.Fits := selfHolds_fits

theorem witness_eventEndEvaluates : holding.Evaluated
    ∧ (∃ e, (rd holding.ilt.slots 0).entry = some e ∧ e.state = .active)
    ∧ (∃ f, (rd (State.finish holding).ilt.slots 0).entry = some f ∧ f.kind = .stopHold)
    ∧ (∃ e, (rd (shows .stale 0 holding).ilt.slots 0).entry = some e ∧ e.state = .stale)
    ∧ (∃ f, (rd (State.finish (shows .stale 0 holding)).ilt.slots 0).entry = some f ∧ f.state = .stale)
    ∧ (∃ f, (rd (State.finish (shows .waiting 0 holding)).ilt.slots 0).entry = some f ∧ f.state = .active) :=
  ⟨holding_evaluated, found (by decide +kernel), found (by decide +kernel), found (by decide +kernel), found (by decide +kernel),
    found (by decide +kernel)⟩

theorem witness_eventEnd_outputs : busy.OutputsFit ∧ busy.Evaluated :=
  ⟨witness_stepKeepsOutputs, witness_stepKeepsOutputs_evaluated.1⟩

/-! ## The hypotheses of the statements are met: the doors and the fallback line -/

/-- Partner 3 with a RAISE in slot 0. -/
def partnerRaises : State := withEntry .raise 3 .vehicle (some 50) 0 (withPartner 2 500 running)

/-- The host's RAMP_OUT in slot 0, COVERED by partner 3's OVERRIDE in slot 1, which has a deadline. -/
def overridden : State := withEntry .override 3 (.target 0) none 1 (rampOf 0 .covered (some 8))

theorem overridden_fits (live : ∀ x ∈ (rampOf 0 .covered (some 8)).live, x.kind = .rampOut)
    (free : (rd (rampOf 0 .covered (some 8)).ilt.slots 1).entry = none) : overridden.ilt.Fits :=
  fits_withEntry (rampOf_fits (by decide) _ _) free (by decide) rfl fun x hx k => absurd k.1 (by rw [live x hx]; decide)

theorem witness_deadline_override : overridden.ilt.Fits ∧ overridden.cfg.device = .run
    ∧ (∃ e, overridden.resolve 8 = some e ∧ e.kind = .override ∧ e.scope = .target 0 ∧ e.deadline = .running 500000 ∧ e.coveredBy = none)
    ∧ (∃ g, overridden.resolve 0 = some g ∧ g.state = .covered) :=
  ⟨overridden_fits (by decide +kernel) (by decide +kernel), by decide +kernel, found (by decide +kernel), found (by decide +kernel)⟩

theorem witness_deadlineRunsOut : running.resolve 0 = none ∧ State.reset.cfg.device ≠ .run
    ∧ (∃ e, holding.resolve 0 = some e ∧ e.deadline = .none) ∧ holding.cfg.device = .run
    ∧ partnerHolds.ilt.Fits ∧ (∃ e, partnerHolds.resolve 0 = some e ∧ e.deadline = .running 500000 ∧ e.kind = .stopHold
      ∧ e.state = .active)
    ∧ partnerRaises.ilt.Fits ∧ (∃ e, partnerRaises.resolve 0 = some e ∧ e.deadline = .running 500000 ∧ e.kind = .raise)
    ∧ partnerRaises.cfg.device = .run ∧ partnerHolds.cfg.device = .run :=
  ⟨by decide +kernel, by decide, found (by decide +kernel), by decide +kernel, partnerHolds_fits, found (by decide +kernel),
    fits_withEntry (s := withPartner 2 500 running) (iltFits_empty (by decide +kernel) rfl) (by decide +kernel) (by decide)
      ⟨50, rfl, by decide, by decide⟩ (by decide +kernel), found (by decide +kernel), by decide +kernel⟩

/-- A contact that opens. -/
def opening (d : Fin 4) (s : State) : State :=
  s.modDsv fun x => { x with doors := upd x.doors d fun y => { y with contact := { level := false, debounced := true, since := 0 } } }

/-- `running` with the SELF DOOR_OPEN of door 2 held, its part RESETTABLE and its contact opening. -/
def reopening : State :=
  let s := opening 1 (withEntry .doorOpen 15 (.door 1) none 18 running)
  s.modDsv fun x => { x with doors := upd x.doors 1 fun y => { y with supervision := .resettable, selfHandle := some 144 } }

theorem witness_doorContactsDebounce_entry : (opening 1 running).ilt.Fits ∧ (opening 1 running).ilt.ScopesFit
    ∧ (rd (opening 1 running).dsv.doors 1).selfHandle = none
    ∧ (rd (opening 1 running).ilt.slots 18).entry = none ∧ (rd (opening 1 running).dsv.doors 1).supervision ≠ .unclaimed
    ∧ (∀ f ∈ (opening 1 running).live, f.owner = 15 → f.kind = .doorOpen → f.scope ≠ .door 1)
    ∧ yields (.doorContactDebounceExpiry 1) (opening 1 running) (fun t => decide ((rd t.dsv.doors 1).selfHandle = some 144)) = true :=
  ⟨running_fits, running_scopes, by decide +kernel⟩

theorem witness_doorContactsDebounce_kept : reopening.ilt.Fits ∧ reopening.ilt.ScopesFit
    ∧ ((rd reopening.dsv.doors 1).selfHandle = some 144 ∧ (rd reopening.dsv.doors 1).supervision ≠ .unclaimed
      ∧ (reopening.resolve 144).any (fun f => decide (f.owner = 15 ∧ f.kind = .doorOpen ∧ f.scope = .door 1)) = true
      ∧ (rd reopening.ilt.slots 19).entry = none
      ∧ yields (.doorContactDebounceExpiry 1) reopening (fun t => decide ((rd t.dsv.doors 1).supervision = .unclaimed)) = true) :=
  ⟨fits_withEntry (s := running) running_fits (by decide +kernel) (by decide) rfl (by decide +kernel),
    scopesFit_place (s := running) (fun _ => ⟨1, rfl⟩) running_scopes, by decide +kernel⟩

theorem witness_doorContactsDebounce : (rd running.dsv.doors 0).contact.level ≠ (rd running.dsv.doors 0).contact.debounced
    ∧ (rd (opening 1 running).dsv.doors 1).contact.level ≠ (rd (opening 1 running).dsv.doors 1).contact.debounced
    ∧ (rd (opening 1 running).dsv.doors 1).contact.level = false ∧ (1 : Fin 4).val < running.cfg.settings.doorCount
    ∧ running.cfg.settings.doorCount ≤ (2 : Fin 4).val ∧ inSafe.cfg.device ≠ .run ∧ running.cfg.device = .run
    ∧ yields (.doorContactDebounceExpiry 1) (opening 1 running)
      (fun t => decide ((rd t.dsv.doors 1).supervision = .unclaimed)) = true
    ∧ yields (.doorContactDebounceExpiry 0) (withEntry .doorOpen 0 (.door 0) none 0 running)
      (fun t => decide ((rd t.dsv.doors 0).supervision = .authorised)) = true
    ∧ yields (.doorContactDebounceExpiry 0) (withEntry .doorOpen 15 (.door 0) none 18 running)
      (fun t => decide ((rd t.dsv.doors 0).supervision = .resettable)) = true
    ∧ (rd (running.modDsv fun x => { x with doors := upd x.doors 0 fun y =>
        { y with contact := { level := true, debounced := true, since := 0 } } }).dsv.doors 0).contact.level
      = true := by decide +kernel

theorem opening_ilt (d : Fin 4) (s : State) : (opening d s).ilt = s.ilt := State.modDsv_ilt s _

theorem witness_contactOpens_override : (opening 0 (covered .covered (some 8))).ilt.Fits
    ∧ (opening 0 (covered .covered (some 8))).cfg.device = .run
    ∧ ((opening 0 (covered .covered (some 8))).live.map fun e => e.scope) = [.door 0, .target 0] :=
  ⟨(opening_ilt 0 (covered .covered (some 8))).symm ▸ covered_fits .covered (some 8) (by decide +kernel) (by decide +kernel),
    by decide +kernel⟩

theorem witness_driveInhibitReleases : releasing.dsv.machine = .releasing 300000 ∧ releasing.dsv.causes = InhibitCauses.none
    ∧ running.dsv.machine = .inhibited := by decide +kernel

/-- The length of a phase, in 0.1 ms, at each bound of R78 and beside it. -/
def phaseAt (n : Nat) (level : Bool) (st : FblState) : Nat :=
  ((atTime n (withFbl level st 0 running)).now - (withFbl level st 0 running).dsv.fbl.since) / 100

theorem witness_fallbackEdges : (withFbl true .gap 2 running).dsv.fbl.state = .gap ∧ (withFbl true .gap 2 running).dsv.fbl.level = true
    ∧ phaseAt 8000 true .gap = 80 ∧ phaseAt 15099 true .gap = 150 ∧ phaseAt 7999 true .gap = 79
    ∧ phaseAt 8000 true .space = 80 ∧ phaseAt 15000 true .space = 150 ∧ phaseAt 15100 true .space = 151 ∧ phaseAt 59999 true .space = 599
    ∧ phaseAt 59999 true .recover = 599 ∧ phaseAt 5099 false .start = 50 ∧ phaseAt 5100 false .start = 51
    ∧ phaseAt 19999 false .start = 199 ∧ phaseAt 20000 false .start = 200 ∧ phaseAt 40099 false .start = 400
    ∧ phaseAt 8000 false .pulse = 80 ∧ phaseAt 15099 false .pulse = 150 ∧ phaseAt 7999 false .pulse = 79 := by decide +kernel

/-- The fallback line's STOP_HOLD live, and the line high after two pulses. -/
def lineHolds : State := withFbl true .space 2 (withEntry .stopHold 14 .vehicle (some 300) 0 running)

theorem witness_fallbackTimeouts : (withFbl true .space 5 running).dsv.fbl.count = 5 ∧ (withFbl true .space 4 running).dsv.fbl.count = 4
    ∧ (withFbl true .space 3 running).dsv.fbl.count = 3
    ∧ running.live.find? (fun e => decide (e.kind = .stopHold ∧ e.owner = 14)) = none
    ∧ (lineHolds.live.find? (fun e => decide (e.kind = .stopHold ∧ e.owner = 14))).isSome = true
    ∧ (withFbl false .recover 0 running).dsv.fbl.level = false ∧ (withFbl true .recover 0 running).dsv.fbl.level = true := by
  decide +kernel

/-- Door 0 RESETTABLE and door 1 UNCLAIMED, each under the part's DOOR_OPEN. -/
def openedTwice : State :=
  (withEntry .doorOpen 15 (.door 1) none 19 (withEntry .doorOpen 15 (.door 0) none 18 running)).modDsv fun v =>
    { v with doors := mapF v.doors fun d x => if d = 0 then { x with selfHandle := some 144 } else if d = 1 then
        { x with selfHandle := some 152 } else x }

/-- The contact of door 0 reads CLOSED, and that of door 1 OPEN. -/
def shutOne : State :=
  { openedTwice with
    ilt := { openedTwice.ilt with contacts := wr openedTwice.ilt.contacts 0 true }
    dsv := { openedTwice.dsv with doors := upd openedTwice.dsv.doors 0 fun x => { x with contact := { x.contact with debounced := true } } } }

theorem witness_acknowledges : shutOne.cfg.device = .run
    ∧ (∀ d : Fin 4, d.val < shutOne.cfg.settings.doorCount → rd shutOne.ilt.contacts d = (rd shutOne.dsv.doors d).contact.debounced)
    ∧ (∃ e, shutOne.resolve 144 = some e ∧ e.owner = 15 ∧ e.kind = .doorOpen ∧ e.scope = .door 0 ∧ e.coveredBy = none)
    ∧ (∃ e, shutOne.resolve 152 = some e ∧ e.owner = 15 ∧ e.kind = .doorOpen ∧ e.scope = .door 1 ∧ e.coveredBy = none)
    ∧ (0 : Fin 4).val < shutOne.cfg.settings.doorCount ∧ (rd shutOne.dsv.doors 0).contact.debounced = true
    ∧ ((rd shutOne.dsv.doors 0).selfHandle = some 144 ∧ (rd shutOne.dsv.doors 1).selfHandle = some 152)
    ∧ (rd shutOne.dsv.doors 1).contact.debounced = false
    ∧ ((rd shutOne.dsv.doors 2).selfHandle = none ∧ (rd shutOne.dsv.doors 3).selfHandle = none) :=
  ⟨by decide +kernel, by decide +kernel, found (by decide +kernel), found (by decide +kernel), by decide +kernel⟩

/-- The table's form does not look at the contacts handed to ILT. -/
theorem iltFits_contacts {t : Ilt} (h : t.Fits) (c : Vector Bool 4) : { t with contacts := c }.Fits :=
  ⟨h.handle, h.owner, h.parameter, h.alone, h.once, h.lists⟩

/-- The registry's form looks at the registry alone. -/
theorem registryFits_of_registry {t u : Ilt} (h : t.RegistryFits) (e : u.registry = t.registry) : u.RegistryFits :=
  ⟨e ▸ h.host, e ▸ h.line, e ▸ h.self, e ▸ h.ranges⟩

theorem witness_acknowledges_fits : shutOne.ilt.Fits ∧ shutOne.ilt.RegistryFits :=
  ⟨iltFits_contacts (fits_withEntry (fits_withEntry running_fits (by decide +kernel) (by decide) rfl (by decide +kernel))
      (by decide +kernel) (by decide) rfl (by decide +kernel)) _, registryFits_of_registry registryFits_initial (by decide +kernel)⟩

/-! ## The hypotheses of the statements are met: corners, brakes, steering, valves -/

/-- A corner update after its measurements, and after its machine's step. -/
def measured (c : Fin 6) (s : State) : Corner × Crn := let m := Crn.measure c (cornerBegins c s); (rd m.crn.corners c, m.crn)
def stepped (c : Fin 6) (s : State) : Corner := rd (Crn.update c (cornerBegins c s)).crn.corners c

/-- The reservoir at a pressure, and the supply gate OPEN or CLOSED. -/
def supplied (pressure : Int) (isOpen : Bool) (s : State) : State :=
  (withAnalog 19 pressure .valid s).modCrn fun x => { x with gateOpen := isOpen }

/-- Corner 0 in a state with no freeze reason, at a height. -/
def cornerAt (st : CornerState) (height : Int) : State :=
  withCorner 0 (fun c => { c with state := st, reasons := FreezeSet.empty }) (withAnalog 0 height .valid running)

/-- A corner that holds SUPPLY alone, in HOLDING or in FAULT. -/
def starved (st : CornerState) (height : Int) : State :=
  withCorner 0 (fun c => { c with state := st, reasons := { FreezeSet.empty with supply := true } }) (withAnalog 0 height .valid running)

/-- The gate moves at 650 and 700; the corner's machine at the band of 10 mm and the stop margin of 5 mm. -/
theorem witness_cornerUpdateMeasures :
    ((measured 0 (supplied 649 true running)).2.gateOpen = false ∧ (measured 0 (supplied 650 true running)).2.gateOpen = true
      ∧ (measured 0 (supplied 699 false running)).2.gateOpen = false ∧ (measured 0 (supplied 700 false running)).2.gateOpen = true)
    ∧ (curbSide running.cfg.settings.curbRight 1 = true ∧ curbSide running.cfg.settings.curbRight 0 = false)
    ∧ ((measured 0 (supplied 649 true (cornerAt .filling (-15)))).1.state = .holding
      ∧ (measured 0 (atSpeed (some 60) .rolling (withAnalog 12 0 .faulty (cornerAt .inBand 0)))).1.reasons.artic = true
      ∧ (rd (cornerAt .inBand 0).crn.corners 0).reasons.artic = false)
    ∧ ((measured 0 (cornerAt .inBand 10)).1.state = .inBand ∧ (stepped 0 (cornerAt .inBand 10)).side = .none
      ∧ (stepped 0 (cornerAt .inBand 11)).side = .high ∧ (stepped 0 (cornerAt .inBand (-11))).side = .low)
    ∧ ((measured 0 (supplied 800 true (cornerAt .filling (-6)))).1.state = .filling
      ∧ (stepped 0 (supplied 800 true (cornerAt .filling (-6)))).state = .filling
      ∧ (stepped 0 (supplied 800 true (cornerAt .filling (-5)))).state = .inBand)
    ∧ ((measured 0 (cornerAt .exhausting 6)).1.state = .exhausting ∧ (stepped 0 (cornerAt .exhausting 6)).actionTimer = 20
      ∧ (stepped 0 (cornerAt .exhausting 5)).state = .inBand)
    ∧ ((measured 0 (starved .holding (-5))).1.reasons = { FreezeSet.empty with supply := true }
      ∧ (stepped 0 (starved .holding (-5))).state = .inBand ∧ (stepped 0 (starved .holding (-6))).state = .holding
      ∧ (stepped 0 (starved .fault (-5))).reasons = FreezeSet.empty
      ∧ (stepped 0 (starved .fault (-6))).reasons = { FreezeSet.empty with supply := true }) := by decide +kernel

/-- The load in IN_BAND at LEVEL with a VALID pressure, the stall watch before the end of a span, and the kneel states. -/
theorem witness_cornerUpdate_after :
    ((rd (withAnalog 6 300 .valid (cornerAt .inBand 0)).mot.analog (pressureChannel 0)).validity = .valid
      ∧ (stepped 0 (withAnalog 6 300 .valid (cornerAt .inBand 0))).loadValid = true ∧ running.rlu.kneelState = .level)
    ∧ ((stepped 0 (kneeling (-6))).state = .exhausting ∧ 0 < rd (kneeling (-6)).rlu.kneel 0
      ∧ (rd (kneeling (-6)).rlu.watches 0).running = true ∧ (rd (kneeling (-6)).rlu.watches 0).mark = false)
    ∧ yields (.cornerUpdate 0) (kneeling (-5)) (fun t => decide (t.rlu.kneelState = .lowering)) = true
    ∧ yields (.cornerUpdate 0) (kneeling (-6)) (fun t => decide (t.rlu.kneelState = .stalled)) = true
    ∧ yields (.cornerUpdate 0) (cornerAt .inBand (-11)) (fun t => decide (t.rlu.kneelState = .raising)) = true
    ∧ yields (.cornerUpdate 0) (cornerAt .inBand (-10)) (fun t => decide (t.rlu.kneelState = .level)) = true
    ∧ yields (.cornerUpdate 0) ((starved .holding (-70)).modRlu fun r => { r with kneel := wr r.kneel 0 70, targets := wr r.targets 0 (-70) })
      (fun t => decide (t.rlu.kneelState = .kneeled)) = true := by decide +kernel

theorem witness_offsetsHeld : Rlu.TargetsFit running.rlu ∧ (Rlu.fromTable (ramp .active)).rlu.held = true
    ∧ (Rlu.fromTable (shows .stale 0 (withEntry .kneel 0 .curb (some 70) 0 running))).rlu.held = true
    ∧ rd (Rlu.fromTable (withEntry .kneel 0 .curb (some 70) 0 running)).rlu.kneel 1 = 70
    ∧ rd running.rlu.kneel 1 = 0 :=
  ⟨targetsFit_initial, by decide +kernel⟩

/-- A corner 15 mm low that qualifies at its next update at STANDSTILL. -/
def lowCorner : State :=
  withCorner 0 (fun c => { c with state := .inBand, reasons := FreezeSet.empty, side := .low, qualifyTimer := 180 })
    (withAnalog 0 (-15) .valid running)

/-- Three other corners filling, and the supply gate OPEN. -/
def busyValves : State :=
  supplied 800 true (withCorner 1 (fun c => { c with state := .filling }) (withCorner 2 (fun c => { c with state := .filling })
    (withCorner 3 (fun c => { c with state := .filling }) lowCorner)))

theorem witness_cornerTimersRunOut :
    (running.crn.corners.toList.all fun c => decide (c.state ≠ .inBand)) = true
    ∧ ((measured 0 highCorner).1.state = .inBand ∧ (measured 0 highCorner).1.side = .high
      ∧ 200 ≤ (measured 0 highCorner).1.qualifyTimer + 20 ∧ (10 : Int) < (measured 0 highCorner).1.measured - (measured 0 highCorner).1.target
      ∧ rd highCorner.cfg.settings.halfWidth 0 = 10 ∧ highCorner.mot.motion = .standstill)
    ∧ ((measured 0 lowCorner).1.side = .low ∧ (measured 0 lowCorner).1.measured - (measured 0 lowCorner).1.target < -10
      ∧ (measured 0 lowCorner).2.gateOpen = false ∧ (measured 0 lowCorner).1.reasons = FreezeSet.empty)
    ∧ ((measured 0 (supplied 800 true lowCorner)).2.gateOpen = true ∧ (measured 0 (supplied 800 true lowCorner)).2.fillingCount < 3
      ∧ (measured 0 (supplied 800 true lowCorner)).2.queue = [])
    ∧ ((measured 0 busyValves).2.gateOpen = true ∧ (measured 0 busyValves).2.fillingCount = 3)
    ∧ ((measured 0 lateCorner).1.state = .exhausting ∧ 8000 ≤ (measured 0 lateCorner).1.actionTimer + 20
      ∧ rd lateCorner.cfg.settings.halfWidth 0 * rd lateCorner.cfg.settings.stopLevel 0 / 4 = 5
      ∧ (5 : Int) < (measured 0 lateCorner).1.measured - (measured 0 lateCorner).1.target ∧ lateCorner.cfg.device = .run)
    ∧ ((stepped 0 (kneeling (-6))).state = .exhausting ∧ 1000 ≤ (rd (kneeling (-6)).rlu.watches 0).timer + 20
      ∧ (rd (kneeling (-6)).rlu.watches 0).reference - (stepped 0 (kneeling (-6))).measured < 5
      ∧ 5 ≤ (rd (kneeling (-5)).rlu.watches 0).reference - (stepped 0 (kneeling (-5))).measured
      ∧ (stepped 0 (kneeling (-6))).reasons.stall = false) := by decide +kernel

/-- Axle loads of 5, 7 and 4 t. -/
def loaded : State :=
  running.modCrn fun x => { x with axles := Vector.ofFn fun a => { load := if a = 0 then 5000 else if a = 1 then 7000 else 4000, valid := true } }

theorem witness_brakeUpdateForms : (withAnalog 20 500 .valid running).analogValue 20 = 500
    ∧ (ramped.brk.hold = .ramping ∧ ramped.brk.target ≤ 6 ∧ ramped.cfg.device = .run)
    ∧ ((∀ a : Fin 3, (rd loaded.crn.axles a).valid = true) ∧ 0 < (rd loaded.crn.axles 0).load)
    ∧ ((∀ b, (rd loaded.crn.axles b).load ≤ (rd loaded.crn.axles 1).load) ∧ (rd loaded.crn.axles 0).load < (rd loaded.crn.axles 1).load
      ∧ ¬ (rd loaded.crn.axles 1).load ≤ (rd loaded.crn.axles 2).load)
    ∧ (rd running.crn.axles 0).valid = false ∧ loaded.cfg.settings.weight ≠ 63
    ∧ (loaded.modCfg fun c => { c with settings := { c.settings with weight := 63 } }).cfg.settings.weight = 63
    ∧ yields .brakeUpdate loaded (fun t => decide ((rd t.brk.axles 0).loadShare = some 312 ∧ (rd t.brk.axles 1).loadShare = some 438
      ∧ (rd t.brk.axles 2).loadShare = some 250)) = true := by decide +kernel

/-- BRK in a hold state, with the door-seen mark and the departure window as given. -/
def hold (h : HoldState) (seen isOpen : Bool) (s : State) : State :=
  s.modBrk fun b => { b with hold := h, target := 300, doorSeen := seen, windowOpen := isOpen }

/-- The hold after BRK judges its contributors, confirmed or not, and the departure window. -/
def judgedHold (s : State) : HoldState × Bool × Bool :=
  let u := Brk.judge s
  (u.brk.hold, u.brk.confirmed, u.brk.windowOpen)

/-- Each row of the hold machine: with the host's STOP_HOLD of 300 as contributor, and without one. -/
theorem witness_brakesJudge :
    ((holding.live.map fun e => (e.kind, e.state, e.parameter)) = [(.stopHold, .active, some 300)] ∧ running.live = [])
    ∧ (judgedHold (hold .released false true holding) = (.applying, false, false)
      ∧ judgedHold (hold .held true false holding) = (.held, false, false)
      ∧ judgedHold (hold .waitDrive false false (withAnalog 17 270 .valid (withAnalog 18 270 .valid holding))) = (.held, true, false)
      ∧ judgedHold (hold .ramping false false holding) = (.applying, false, false))
    ∧ (judgedHold (hold .held false false running) = (.waitDrive, false, false)
      ∧ judgedHold (hold .held true false (atSpeed (some 60) .rolling running)) = (.ramping, false, true)
      ∧ judgedHold (hold .waitDrive false false (atSpeed (some 60) .rolling running)) = (.ramping, false, false)
      ∧ judgedHold (hold .waitDrive false false running) = (.waitDrive, false, false)
      ∧ judgedHold (hold .released false false running) = (.released, false, false)) := by decide +kernel

/-- The departure window at 12.00 m, one step before it, and above 15.0 km/h. -/
theorem witness_brakeUpdate_window :
    let travelled := fun n : Nat => (hold .released false true running).modMot fun m => { m with counter := BitVec.ofNat 32 n }
    1200 ≤ ((travelled 1200).mot.counter - (travelled 1200).brk.windowRef).toInt
    ∧ ((travelled 1199).mot.counter - (travelled 1199).brk.windowRef).toInt < 1200
    ∧ yields .brakeUpdate (travelled 1200) (fun t => !t.brk.windowOpen) = true
    ∧ yields .brakeUpdate (travelled 1199) (fun t => t.brk.windowOpen) = true
    ∧ yields .brakeUpdate (atSpeed (some 151) .rolling (travelled 0)) (fun t => !t.brk.windowOpen) = true
    ∧ inSafe.cfg.device ≠ .run := by decide +kernel

theorem witness_holdTimersRunOut :
    ((pressed .applying 270 90).cfg.device = .run ∧ (pressed .applying 270 90).brk.hold = .applying
      ∧ 9 * ((pressed .applying 270 90).brk.target : Int) ≤ 10 * (rd (pressed .applying 270 90).mot.analog 17).value
      ∧ (rd (pressed .applying 270 90).mot.analog 17).validity ≠ .faulty ∧ 100 ≤ (pressed .applying 270 90).brk.confirmTimer + 10)
    ∧ (¬ 100 ≤ (pressed .applying 100 0).brk.confirmTimer + 10 ∧ (pressed .applying 100 0).brk.unconfirmedPosted = false
      ∧ 1000 ≤ (pressed .applying 100 0).brk.unconfirmed + 10)
    ∧ ((pressed .held 239 90).brk.hold = .held ∧ 100 ≤ (pressed .held 239 90).brk.lossTimer + 10
      ∧ 10 * (rd (pressed .held 239 90).mot.analog 18).value < 8 * ((pressed .held 239 90).brk.target : Int))
    ∧ (ramped.brk.hold = .ramping ∧ ramped.brk.target = 6)
    ∧ running.brk.hold = .released := by decide +kernel

/-- TRACKING with plausible inputs, a VALID bank in use, and the rear lines debounced as given. -/
def tracking (reverse : Bool) : State :=
  (sensed running).modStc (fun x => { x with state := .tracking, bankA := twoRows }) |>.modMot fun m =>
    { m with motion := .rolling, speed := some 40, selRev := { level := reverse, debounced := reverse, since := 0 } }

theorem witness_steeringUpdateSteers : (tracking true).cfg.device = .run ∧ (tracking true).stc.state = .tracking
    ∧ (tracking true).mot.speed = some 40
    ∧ (∀ c : Fin 21, c = 12 ∨ c = 13 ∨ c = 14 ∨ c = 15 → (tracking true).analogFaulty c = false)
    ∧ ((tracking true).analogValue 12 - (tracking true).analogValue 13).natAbs ≤ 20
    ∧ (tracking true).selected = .reverse ∧ (tracking false).selected ≠ .reverse
    ∧ State.reset.stc.state = .parked ∧ (withAnalog 12 0 .faulty State.reset).analogFaulty 12 = true
    ∧ yields .steeringUpdate (withAnalog 12 480 .valid (withAnalog 13 480 .valid running)) (fun t => t.stc.jointLimit) = true := by
  decide +kernel

/-- CENTRING with the four sensors VALID, the rear angle as given. -/
def centring (angle : Int) (s : State) : State :=
  withAnalog 15 angle .valid ((sensed s).modStc fun x => { x with state := .centring, command := 40, bankA := twoRows })

/-- The latch at a sensor, or at a missing speed; CENTRING away from the centre and at it, with and without a STEER_CENTRE. -/
theorem witness_steeringUpdate_latches :
    ((tracking false).stc.latch = none ∧ (withAnalog 15 0 .faulty (tracking false)).analogFaulty 15 = true
      ∧ (tracking false).analogFaulty 12 = false ∧ (tracking false).stc.selfHandle = none
      ∧ (rd (tracking false).ilt.slots 18).entry = none ∧ (tracking false).live = [])
    ∧ ((atSpeed none .unknown (tracking false)).mot.speed = none ∧ (atSpeed none .unknown (tracking false)).stc.state = .tracking)
    ∧ (5 < ((centring 6 running).analogValue 15).natAbs ∧ (centring 6 running).stc.centringTimer + 10 < 2000
      ∧ yields .steeringUpdate (centring 6 running) (fun t => decide (t.stc.state = .centring)) = true)
    ∧ (((centring 5 running).analogValue 15).natAbs ≤ 5 ∧ ((centring 5 running).modStc fun x => { x with latch := some .disagree }).stc.latch ≠ none
      ∧ ((centring 5 (withEntry .steerCentre 0 .vehicle none 0 running)).live.map fun e => e.kind) = [.steerCentre]
      ∧ yields .steeringUpdate (centring 5 (withEntry .steerCentre 0 .vehicle none 0 running))
        (fun t => decide (t.stc.state = .locked)) = true
      ∧ yields .steeringUpdate (centring 5 running) (fun t => decide (t.stc.state = .frozen)) = true) := by decide +kernel

theorem witness_steeringUpdate_fits : (withAnalog 15 0 .faulty (tracking false)).ilt.Fits := running_fits

/-- CENTRING at the centre with the latch clear: out of LOCKED at once into FROZEN, into TRACKING, and into TRACKING with CL1 not usable. -/
theorem witness_steeringUpdate_unlocks :
    ((centring 5 running).stc.latch = none ∧ (centring 5 running).live = [] ∧ (centring 5 running).mot.speed ≠ none
      ∧ (centring 5 running).mot.motion = .standstill
      ∧ (∀ c : Fin 21, 12 ≤ c.val → c.val ≤ 15 → (centring 5 running).analogFaulty c = false)
      ∧ ((centring 5 running).analogValue 12 - (centring 5 running).analogValue 13).natAbs ≤ 20)
    ∧ ((centring 5 (atSpeed (some 40) .rolling running)).channelState lockChannel).unusable = false
    ∧ yields .steeringUpdate (centring 5 (atSpeed (some 40) .rolling running))
      (fun t => decide (t.stc.state = .tracking ∧ t.stc.latch = none)) = true
    ∧ ((centring 5 (withChannel 17 (fun c => { c with state := .tripped }) (atSpeed (some 40) .rolling running))).channelState
        lockChannel).unusable = true
    ∧ yields .steeringUpdate (centring 5 (withChannel 17 (fun c => { c with state := .tripped }) (atSpeed (some 40) .rolling running)))
      (fun t => decide (t.stc.latch = some .lockChannel)) = true := by decide +kernel

theorem witness_scheduleInterpolates : twoRows.valid = true ∧ (1 : Fin 16).val + 1 = twoRows.count ∧ (rd twoRows.rows 1).v ≤ 100
    ∧ (0 : Fin 16).val + 1 = (1 : Fin 16).val ∧ (1 : Fin 16).val < twoRows.count ∧ (rd twoRows.rows 0).v ≤ 0
    ∧ (99 : Int) < (rd twoRows.rows 1).v ∧ (twoRows.lookup 99).lim = 51 := by decide +kernel

theorem witness_steeringTimersRunOut :
    (apart.analogFaulty 12 = false ∧ apart.analogFaulty 13 = false ∧ 20 < (apart.analogValue 12 - apart.analogValue 13).natAbs
      ∧ apart.stc.disagreeTimer < 100 ∧ 100 ≤ apart.stc.disagreeTimer + 10 ∧ apart.stc.latch = none
      ∧ ∀ c : Fin 21, 12 ≤ c.val → c.val ≤ 15 → apart.analogFaulty c = false)
    ∧ (astray.cfg.device = .run ∧ astray.stc.state = .tracking ∧ astray.mot.speed ≠ none
      ∧ 30 < (astray.stc.report.command - astray.analogValue 15).natAbs ∧ 300 ≤ astray.stc.trackTimer + 10
      ∧ (astray.analogValue 12 - astray.analogValue 13).natAbs ≤ 20
      ∧ ∀ c : Fin 21, 12 ≤ c.val → c.val ≤ 15 → astray.analogFaulty c = false)
    ∧ (centringLate.stc.state = .centring ∧ 5 < (centringLate.analogValue 15).natAbs ∧ 2000 ≤ centringLate.stc.centringTimer + 10
      ∧ centringLate.mot.speed ≠ none ∧ centringLate.stc.latch = none)
    ∧ running.stc.state = .parked ∧ running.stc.disagreeTimer = 0 := by decide +kernel

/-- One channel of a state, with a timer started at 0, two trips and a series begun at 0. -/
def timed (st : ChannelState) (excess : Bool) (command : Nat) : Channel :=
  { Channel.initial 0 excess with
    command := command
    state := st
    trips := 2
    series := some 0
    blanking := some 0
    qualify := some 0
    retry := some 0
    clean := some 0 }

theorem witness_channelTimersRunOut :
    rd (withChannel 13 (fun _ => timed .blanking true 300) running).vda.channels 13 = timed .blanking true 300
    ∧ ((timed .blanking false 1).overCurrent = false ∧ (timed .blanking true 1).overCurrent = true)
    ∧ ((timed .qualifying false 1).qualify = some 0 ∧ ¬ 10000000 < 2000 - 0 ∧ (timed .qualifying false 1).trips = 2)
    ∧ (0 < (timed .tripped false 1).command ∧ (timed .tripped false 0).command = 0 ∧ (timed .on false 1).clean = some 0)
    ∧ ((rd running.vda.channels 0).blanking = none ∧ (rd running.vda.channels 0).qualify = none
      ∧ (rd running.vda.channels 0).retry = none ∧ (rd running.vda.channels 0).clean = none) := by decide +kernel

theorem witness_channelCurrentsAndChecks : (timed .on false 1).state = .on ∧ (timed .qualifying true 1).state = .qualifying
    ∧ (timed .off false 0).state = .off ∧ (timed .blanking false 1).state = .blanking
    ∧ ((rd (withChannel 0 (fun _ => timed .off false 0) running).vda.channels 0).state ≠ .on)
    ∧ (timed .openLoad false 1).state = .openLoad
    ∧ ((timed .on false 1).duty 12 = { num := 1, den := 1 } ∧ (timed .on false 1).duty 17 = { num := 1, den := 1 }
      ∧ (timed .on false 425).duty 13 = { num := 425, den := 850 } ∧ (timed .on false 850).duty 15 = { num := 850, den := 850 }
      ∧ (timed .on false 500).duty 16 = { num := 500, den := 1000 } ∧ ((timed .tripped false 500).duty 16).num = 0) := by
  decide +kernel

/-- A channel in a state, for its report and its hand-off: fill valve 0, exhaust valve 0 (channel 6), and CL1. -/
def channelIn (ch : Fin 18) (st : ChannelState) (s : State) : State := withChannel ch (fun c => { c with state := st, trips := 3 }) s

theorem witness_handsToOwner :
    ((rd (channelIn 0 .lockedOut running).vda.channels 0).state = .lockedOut
      ∧ (rd (handToOwner 0 (channelIn 0 .lockedOut running)).crn.corners 0).fault = some .fillValve)
    ∧ (rd (handToOwner 6 (channelIn 6 .openLoad running)).crn.corners 0).fault = some .exhaustValve
    ∧ (rd (handToOwner 6 (channelIn 6 .openLoad inSafe)).crn.corners 0).fault = none
    ∧ (channelIn 6 .disabled running).channelState 6 = .disabled ∧ (rd running.crn.corners 0).reasons.valvesOff = false
    ∧ ((rd (starved .holding 0).crn.corners 0).state = .holding
      ∧ (rd (withCorner 0 (fun c => { c with state := .holding, reasons := { FreezeSet.empty with valvesOff := true } })
        running).crn.corners 0).reasons = { FreezeSet.empty with valvesOff := true })
    ∧ ((channelIn 17 .tripped (tracking false)).stc.latch = none ∧ (channelIn 17 .tripped (tracking false)).stc.state = .tracking
      ∧ (channelIn 17 .tripped (tracking false)).stc.selfHandle = none ∧ (channelIn 17 .tripped (tracking false)).live = []
      ∧ (rd (channelIn 17 .tripped (tracking false)).ilt.slots 18).entry = none
      ∧ (handToOwner 17 (channelIn 17 .tripped (tracking false))).stc.state = .centring)
    ∧ (rd running.vda.channels 13).state = .off := by decide +kernel

theorem witness_handsToOwner_fits : (channelIn 17 .tripped (tracking false)).ilt.Fits := running_fits

/-- A CLOSED thermal gate and an OPEN one at the bounds, and the undervoltage gate one sample short of moving. -/
theorem witness_gateSamplesMark :
    yields (.temperatureSample 150) running (fun t => t.vda.thermalClosed) = true
    ∧ yields (.temperatureSample 149) running (fun t => !t.vda.thermalClosed) = true
    ∧ yields (.temperatureSample 130) (running.modVda fun v => { v with thermalClosed := true }) (fun t => !t.vda.thermalClosed) = true
    ∧ yields (.temperatureSample 131) (running.modVda fun v => { v with thermalClosed := true }) (fun t => t.vda.thermalClosed) = true
    ∧ ((counted false).vda.underClosed = false ∧ 10 ≤ min 10 ((counted false).vda.lows + 1))
    ∧ ((counted true).vda.underClosed = true ∧ 50 ≤ min 50 ((counted true).vda.highs + 1))
    ∧ (running.vda.underClosed = false ∧ ¬ 10 ≤ min 10 (running.vda.lows + 1)) := by decide +kernel

/-! ## The hypotheses of the statements are met: what the blocks make of a request, of an update and of a START -/

/-- TRACKING in RUN, with CL1 commanded on and the schedule of the bank in use. -/
def steered : State :=
  withChannel 17 (fun c => { c with state := .on, command := 1 }) ((sensed running).modStc fun x =>
    { x with state := .tracking, command := 40, lower := -100, upper := 100, bankA := twoRows, schedule := some (twoRows.lookup 10) })

/-- HELD at 300 kPa by the host's STOP_HOLD, with PB2 and PB3 commanded at it. -/
def braked : State :=
  let s := holding.modBrk fun b =>
    { b with
      hold := .held
      target := 300
      confirmed := true
      axles := mapF b.axles fun a x => { x with demand := if a = 0 then 0 else 300 } }
  withChannel 14 (fun c => { c with state := .on, command := 300 }) (withChannel 15 (fun c => { c with state := .on, command := 300 }) s)

theorem ranges_running : running.RangesFit :=
  ⟨by decide +kernel, bank_initial_inRange, bank_initial_inRange⟩

theorem twoRows_inRange : twoRows.inRange := by
  unfold Bank.inRange Row.inRange
  decide +kernel

theorem witness_stepKeepsSteering_form : steered.RangesFit ∧ steered.SteeringFits ∧ busy.RangesFit ∧ busy.SteeringFits := by
  refine ⟨⟨by decide +kernel, twoRows_inRange, bank_initial_inRange⟩, ⟨by decide +kernel, by decide +kernel, ?_, by decide +kernel,
    by decide +kernel, by decide +kernel, by decide +kernel, by decide +kernel⟩, witness_stepKeeps.2.2.2.2.2.2.1,
    by decide +kernel, by decide +kernel, fun _ h => absurd h nofun, by decide +kernel, by decide +kernel, by decide +kernel,
    by decide +kernel, by decide +kernel⟩
  intro u h
  rw [show steered.stc.schedule = some (twoRows.lookup 10) by decide +kernel] at h
  cases h
  unfold Schedule.inRange
  decide +kernel

theorem witness_stepKeepsBrakes_form : braked.lnk.QueueFits ∧ braked.ilt.Fits ∧ braked.RangesFit ∧ braked.BrakesFit ∧ busy.BrakesFit :=
  ⟨⟨by decide +kernel, fun f h => absurd h (by simp [show braked.lnk.queue = [] by decide +kernel]), by decide +kernel⟩, holding_fits,
    ranges_running, ⟨by decide +kernel, by decide +kernel, by decide +kernel, by decide +kernel, by decide +kernel, by decide +kernel⟩,
    by decide +kernel, by decide +kernel, by decide +kernel, by decide +kernel, by decide +kernel, by decide +kernel⟩

/-- A RAMP_OUT, a SERVICE_LOCK and a STEER_CENTRE that pass the checks, with the corners and the steering as they find them. -/
theorem witness_openPlacesEntry_freezes :
    (running.scopeOf .rampOut 1 0 = some (.door 0) ∧ running.admission .rampOut (.door 0) = none
      ∧ running.duplicate .rampOut 0 (.door 0) = none ∧ running.conflict .rampOut = none
      ∧ (rd running.crn.corners 0).reasons.ramp = false ∧ (rd running.crn.corners 0).state = .holding
      ∧ yields (.openEntry .host 1 1 1 0 0) (withCorner 0 (fun c => { c with state := .inBand, reasons := FreezeSet.empty }) running)
        (fun t => (rd t.crn.corners 0).reasons.ramp && decide ((rd t.crn.corners 0).state = .holding)) = true)
    ∧ (running.scopeOf .serviceLock 10 0 = some .vehicle ∧ running.admission .serviceLock .vehicle = none
      ∧ running.duplicate .serviceLock 0 .vehicle = none ∧ running.conflict .serviceLock = none
      ∧ (rd running.crn.corners 5).reasons.service = false ∧ (rd faulted.crn.corners 5).state = .fault
      ∧ yields (.openEntry .host 1 6 10 0 0) faulted
        (fun t => (rd t.crn.corners 5).reasons.service && decide ((rd t.crn.corners 5).state = .fault)) = true)
    ∧ (running.scopeOf .steerCentre 10 0 = some .vehicle ∧ running.admission .steerCentre .vehicle = none
      ∧ running.duplicate .steerCentre 0 .vehicle = none ∧ running.conflict .steerCentre = none
      ∧ ∀ st, st = SteerState.frozen ∨ st = SteerState.tracking →
        yields (.openEntry .host 1 5 10 0 0) (running.modStc fun x => { x with state := st, centringTimer := 70 })
          (fun t => decide (t.stc.state = .centring ∧ t.stc.centringTimer = 0)) = true) :=
  ⟨by decide +kernel, by decide +kernel, by decide +kernel, by decide +kernel, by decide +kernel, by decide +kernel,
    fun _ h => by rcases h with h | h <;> (subst h; decide +kernel)⟩

theorem witness_openClaimsDoor_ramp : unclaimed.scopeOf .rampOut 1 0 = some (.door 0) ∧ unclaimed.admission .rampOut (.door 0) = none
    ∧ unclaimed.duplicate .rampOut 0 (.door 0) = none ∧ unclaimed.conflict .rampOut = none
    ∧ yields (.openEntry .host 1 1 1 0 0) unclaimed
      (fun t => t.brk.doorSeen && t.rlu.held && (rd t.crn.corners 3).reasons.ramp) = true := by decide +kernel

/-- A RAISE of the host at 50 mm. -/
def raised : State := withEntry .raise 0 .vehicle (some 50) 0 running

/-- Another parameter than the one that stands, and a state in which BRK has taken the one that stands. -/
theorem witness_amend_moves :
    (yields (.amend .host 2 0 350) holding (fun t => decide (t.brk.target = 350 ∧ t.brk.hold = .applying)) = true
      ∧ (hold .applying false false holding).HoldsFit)
    ∧ (∃ e, raised.resolve 0 = some e ∧ e.kind = .raise ∧ e.parameter = some 50 ∧ e.state = .active)
    ∧ yields (.amend .host 2 0 40) raised (fun t => decide (t.rlu.ride = 40)) = true :=
  ⟨⟨by decide +kernel, ⟨by unfold Entry.HoldsIn Entry.pressure; decide +kernel, by unfold Entry.HoldsIn; decide +kernel⟩⟩,
    found (by decide +kernel), by decide +kernel⟩

theorem witness_refresh_refused : State.reset.hears .host ∧ State.reset.knows .host ∧ State.reset.cfg.device ≠ .run
    ∧ holding.hears (.line 1) ∧ holding.knows (.line 1) ∧ (∃ e, holding.resolve 0 = some e ∧ e.owner ≠ 14)
    ∧ answers (.refresh .host 2 0) State.reset [2, 2, 255, 0, 0, 0, 0, 0] = true :=
  ⟨hears_host _, show (State.reset.record 0).enabled = true by decide +kernel, by decide, hears_line_one _,
    show (holding.record 14).enabled = true by decide +kernel, found (by decide +kernel), by decide +kernel⟩

theorem witness_refresh_moves : yields (.refresh (.can 3) 2 0) (covered .stale none)
    (fun t => decide (t.brk.hold = .applying) && t.rlu.held) = true := by decide +kernel

/-- STC in a state, with the host's STEER_CENTRE in slot 0. -/
def locking (st : SteerState) (s : State) : State := (withEntry .steerCentre 0 .vehicle none 0 s).modStc fun x => { x with state := st }

/-- The last RAMP_OUT, and the last STEER_CENTRE in each case of R151: at STANDSTILL, rolling, and rolling with CL1 not usable. -/
theorem witness_retire_moves :
    (let s := withCorner 0 (fun c => { c with reasons := { FreezeSet.empty with ramp := true } }) (withEntry .rampOut 0 (.door 0) none 0 running)
    (s.resolve 0).any (fun e => decide (e.kind = .rampOut ∧ e.owner = 0)) = true ∧ (rd s.crn.corners 0).state = .holding
    ∧ yields (.retire .host 2 0) s (fun t => decide ((rd t.crn.corners 0).state = .inBand ∧ (rd t.crn.corners 1).state = .holding)) = true)
    ∧ ((locking .locked running).resolve 0).any
        (fun e => decide (e.kind = .steerCentre ∧ e.owner = 0 ∧ e.scope = .vehicle ∧ e.coveredBy = none)) = true
    ∧ ((locking .locked running).live.map fun e => e.handle) = [0]
    ∧ (yields (.retire .host 2 0) (locking .locked running) (fun t => decide (t.stc.state = .frozen)) = true
      ∧ yields (.retire .host 2 0) (locking .locked (atSpeed (some 40) .rolling running)) (fun t => decide (t.stc.state = .tracking)) = true
      ∧ yields (.retire .host 2 0) (locking .locked (settingOff .locked .tripped)) (fun t => decide (t.stc.state = .frozen)) = true
      ∧ yields (.retire .host 2 0) (locking .locked (atSpeed (some 40) .rolling (settingOff .locked .tripped)))
        (fun t => decide (t.stc.state = .centring ∧ t.stc.latch = some .lockChannel)) = true
      ∧ yields (.retire .host 2 0) (locking .centring running) (fun t => decide (t.stc.state = .centring)) = true)
    ∧ (let s := withEntry .steerCentre 3 .vehicle none 1 (locking .locked running)
    (s.live.map fun e => e.handle) = [0, 8] ∧ yields (.retire .host 2 0) s (fun t => decide (t.stc.state = .locked)) = true) := by
  decide +kernel

theorem witness_retire_moves_fits : (locking .locked running).ilt.Fits
    ∧ (withEntry .rampOut 0 (.door 0) none 0 running).ilt.Fits :=
  ⟨fits_withEntry running_fits (by decide +kernel) (by decide) rfl (by decide +kernel),
    fits_withEntry running_fits (by decide +kernel) (by decide) rfl (by decide +kernel)⟩

theorem witness_clears_numbers : 6 ≤ (6 : Byte).toNat ∧ 18 ≤ (18 : Byte).toNat ∧ running.cfg.device = .run
    ∧ answers (.clearCorner .host 2 6) running [14, 2, 255, 0, 0, 0, 0, 0] = true
    ∧ answers (.clearChannel .host 2 18) State.reset [14, 2, 255, 0, 0, 0, 0, 0] = true := by decide +kernel

/-- R154 at its bounds, and the refusals of R156: the field code 7, row 16 of a row's field and of the count, and SAFE. -/
theorem witness_writeBankRow_refused : twoRows.valid = true ∧ { twoRows with count := 1 }.valid = false
    ∧ { twoRows with rows := upd twoRows.rows 1 fun r => { r with v := 0 } }.valid = false
    ∧ { twoRows with rows := upd twoRows.rows 0 fun r => { r with v := 1 } }.valid = false
    ∧ (7 : Byte).toNat % 8 = 7 ∧ 16 ≤ (16 : Byte).toNat
    ∧ answers (.writeBankRow .host 2 7 0 0) State.reset [14, 2, 255, 0, 0, 0, 0, 0] = true
    ∧ answers (.writeBankRow .host 2 0 16 0) State.reset [14, 2, 255, 0, 0, 0, 0, 0] = true
    ∧ answers (.writeBankRow .host 2 6 16 2) State.reset [0, 2, 255, 255, 0, 0, 2, 0] = true
    ∧ inSafe.cfg.device = .safe ∧ answers (.writeBankRow .host 2 0 0 0) inSafe [2, 2, 255, 0, 0, 2, 0, 0] = true := by
  decide +kernel

/-- Each standing cause of R97 at START, a door whose contact is open or closed, the latch set, and CL1 not usable away from STANDSTILL. -/
theorem witness_start_judges :
    (∀ i, (rd ready.ilt.slots i).entry = none) ∧ ready.brk.hold = .released ∧ (rd ready.crn.corners 5).state ≠ .fault
    ∧ yields (.start .host 9) (withAnalog 5 0 .faulty ready) (fun t => decide ((rd t.crn.corners 5).fault = some .heightSensor)) = true
    ∧ yields (.start .host 9) (withChannel 5 (fun c => { c with state := .lockedOut }) ready)
      (fun t => decide ((rd t.crn.corners 5).fault = some .fillValve)) = true
    ∧ yields (.start .host 9) (withChannel 11 (fun c => { c with state := .openLoad }) ready)
      (fun t => decide ((rd t.crn.corners 5).fault = some .exhaustValve)) = true
    ∧ ((rd ready.dsv.doors 1).contact.debounced = false ∧ (rd ready.dsv.doors 1).selfHandle = none
      ∧ yields (.start .host 9) ready (fun t => decide ((rd t.dsv.doors 1).supervision = .unclaimed
        ∧ (rd t.dsv.doors 1).selfHandle = some 152)) = true)
    ∧ yields (.start .host 9) (ready.modDsv fun x => { x with doors := upd x.doors 1 fun y =>
        { y with contact := { level := true, debounced := true, since := 0 } } })
      (fun t => decide ((rd t.dsv.doors 1).supervision = .shut)) = true
    ∧ (ready.stc.selfHandle = none ∧ yields (.start .host 9) (ready.modStc fun x => { x with latch := some .disagree })
      (fun t => decide (t.stc.state = .centring)) = true)
    ∧ (ready.mot.motion ≠ .standstill ∧ yields (.start .host 9) (withChannel 17 (fun c => { c with state := .tripped }) ready)
      (fun t => decide (t.stc.latch = some .lockChannel)) = true)
    ∧ yields (.start .host 9) (withAnalog 15 140 .valid ready) (fun t => decide (t.stc.command = 100)) = true := by decide +kernel

theorem witness_frameArrives_shape : (requestBytes 0 7 0 0 0 0).b7 = 0 ∧ { requestBytes 0 7 0 0 0 0 with b7 := 1 }.b7 ≠ 0
    ∧ (requestBytes 7 7 0 0 0 0).b0.toNat ∉ [0, 1, 2, 3, 4, 5, 6, 16, 17, 18, 19, 20, 24, 25, 32, 33, 34, 35, 36, 40, 41, 42, 43, 44]
    ∧ (takeRequest 3 (requestBytes 45 7 0 0 0 0) State.reset).2 = .refused .requestInvalid none .none 0 0
    ∧ (takeRequest 3 (requestBytes 44 7 0 0 0 0) State.reset).2 = .refused .unknownPartner none .none 0 0 := by decide +kernel

/-- Two and three of four wheels that turn show REVERSE. -/
theorem witness_direction :
    let reversed := fun n : Nat => (rolls .rolling 0 7200).modMot fun m =>
      { m with wheels := mapF m.wheels fun i w => { w with direction := if i.val < n then .reverse else .forward } }
    yields .speedUpdate (reversed 2) (fun t => decide (t.mot.direction = .forward)) = true
    ∧ yields .speedUpdate (reversed 3) (fun t => decide (t.mot.direction = .reverse)) = true := by decide +kernel

/-- BRK at a change of the motion state: a hold begins at SETTLING, ramps at ROLLING, waits for DRIVE_REQ, and stays RELEASED. -/
theorem witness_speedUpdate_brakes :
    ((withEntry .stopHold 0 .vehicle (some 300) 0 (rolls .rolling 0 90000)).brk.hold = .released
      ∧ yields .speedUpdate (withEntry .stopHold 0 .vehicle (some 300) 0 (rolls .rolling 0 90000))
        (fun t => decide (t.mot.motion = .settling ∧ t.brk.hold = .applying ∧ t.brk.target = 300)) = true)
    ∧ ((rolls .standstill 0 1025).live = [] ∧ yields .speedUpdate (hold .held true false (rolls .standstill 0 1025))
      (fun t => decide (t.mot.motion = .rolling ∧ t.brk.hold = .ramping) && t.brk.windowOpen && t.stc.windowOpen) = true)
    ∧ yields .speedUpdate (hold .held true false settling) (fun t => decide (t.mot.motion = .standstill ∧ t.brk.hold = .waitDrive)) = true
    ∧ yields .speedUpdate (hold .ramping true false settling) (fun t => decide (t.brk.hold = .ramping)) = true := by decide +kernel

theorem witness_speedUpdate_brakes_fits : (withEntry .stopHold 0 .vehicle (some 300) 0 (rolls .rolling 0 90000)).ilt.Fits :=
  fits_withEntry (iltFits_empty (by decide +kernel) rfl) (by decide +kernel) (by decide) ⟨300, rfl, by decide, by decide⟩
    (by decide +kernel)

/-- DRIVE_REQ about to be asserted. -/
def asking (s : State) : State := s.modMot fun m => { m with driveReq := { level := true, debounced := false, since := 0 } }

/-- WAIT_DRIVE goes into RAMPING at DRIVE_REQ, with and without the door-seen mark; the SELF STOP_HOLD that is the last contributor ends
in RAMPING; and every other line leaves BRK. -/
theorem witness_driveLines_ramp :
    ((asking (hold .waitDrive true false running)).brk.selfHandle = none ∧ running.live = []
      ∧ yields (.driveLineDebounceExpiry .driveReq) (asking (hold .waitDrive true false running))
        (fun t => decide (t.brk.hold = .ramping) && t.brk.windowOpen) = true
      ∧ yields (.driveLineDebounceExpiry .driveReq) (asking (hold .waitDrive false false running))
        (fun t => decide (t.brk.hold = .ramping) && !t.brk.windowOpen) = true)
    ∧ yields (.driveLineDebounceExpiry .driveReq) (hold .held false false departing) (fun t => decide (t.brk.hold = .ramping)) = true
    ∧ reversing.brk.selfHandle = none
    ∧ yields (.driveLineDebounceExpiry .selRev) reversing (fun t => decide (t.brk = reversing.brk)) = true := by decide +kernel

theorem witness_driveLines_fit : reversing.HoldsFit :=
  ⟨by unfold Entry.HoldsIn Entry.pressure; decide +kernel, by unfold Entry.HoldsIn; decide +kernel⟩

theorem witness_deadline_moves :
    yields (.refreshDeadlineExpiry 0) (partnerRaises.modRlu fun r => { r with ride := 50 }) (fun t => decide (t.rlu.ride = 0)) = true
    ∧ yields (.refreshDeadlineExpiry 0) partnerHolds (fun t => decide (t.brk.hold = .applying ∧ t.brk.target = 300)) = true
    ∧ yields (.refreshDeadlineExpiry 0) (withEntry .kneel 3 .curb (some 70) 0 (withPartner 2 500 running)) (fun t => t.rlu.held) = true
    ∧ yields (.refreshDeadlineExpiry 8) overridden (fun t => decide (t.brk.hold = .applying)) = true := by decide +kernel

/-- The demands and the commands of PB1 to PB3 at an update, and at one that loses a hold whose largest contributor has risen to 300. -/
theorem witness_brakeUpdate_commands :
    yields .brakeUpdate (hold .held false false (withAnalog 20 100 .valid running)) (fun t =>
      decide ((rd t.vda.channels 13).command = 85 ∧ (rd t.vda.channels 14).command = 300 ∧ (rd t.vda.channels 15).command = 300)) = true
    ∧ (let s := (withAnalog 17 100 .valid (hold .held false false holding)).modBrk fun b => { b with target := 200, lossTimer := 90 }
      yields .brakeUpdate s (fun t => decide (t.brk.hold = .applying ∧ (rd t.brk.axles 1).demandAtUpdate = 200
        ∧ (rd t.brk.axles 1).demand = 300 ∧ (rd t.vda.channels 14).command = 300)) = true) := by decide +kernel

/-- A steering update that keeps the command: in FROZEN with plausible inputs and with the latch set, in LOCKED, and in PASSIVE. -/
theorem witness_steeringUpdate_keeps :
    (∀ st, st = SteerState.frozen ∨ st = SteerState.locked ∨ st = SteerState.passive →
      yields .steeringUpdate (steered.modStc fun x => { x with state := st, command := 7 })
        (fun t => decide (t.stc.command = 7 ∧ t.stc.state = st ∧ t.stc.schedule = some (twoRows.lookup 10))) = true)
    ∧ yields .steeringUpdate (withAnalog 12 0 .faulty (steered.modStc fun x => { x with state := .frozen, latch := some .disagree }))
      (fun t => decide (t.stc.command = 40 ∧ t.stc.state = .frozen)) = true
    ∧ steered.mot.speed = some 10
    ∧ yields .steeringUpdate (steered.modMot fun m => { m with speed := some 100 })
      (fun t => decide (t.stc.schedule = some (twoRows.lookup 100))) = true
    ∧ yields .steeringUpdate (steered.modMot fun m => { m with speed := none })
      (fun t => decide (t.stc.schedule = some (twoRows.lookup 10))) = true := by
  refine ⟨fun st h => ?_, by decide +kernel⟩
  rcases h with h | h | h <;> (subst h; decide +kernel)

/-- The latch set at this update brings FROZEN with a FAULTY sensor and TRACKING without a speed into CENTRING, which steps toward 0; and
CENTRING without a speed steps by the schedule that stands. -/
theorem witness_steeringUpdate_brought :
    ((steered.stc.latch = none ∧ steered.stc.selfHandle = none ∧ (rd steered.ilt.slots 18).entry = none ∧ steered.live = []))
    ∧ yields .steeringUpdate (withAnalog 15 40 .faulty (steered.modStc fun x => { x with state := .frozen }))
      (fun t => decide (t.stc.state = .centring ∧ t.stc.command = 39 ∧ t.stc.centringTimer = 10)) = true
    ∧ yields .steeringUpdate (withAnalog 15 40 .valid (steered.modMot fun m => { m with speed := none }))
      (fun t => decide (t.stc.state = .centring ∧ t.stc.command = 39 ∧ t.stc.latch = some .speedInvalid)) = true
    ∧ yields .steeringUpdate (steered.modMot fun m => { m with speed := none })
      (fun t => decide (t.stc.state = .locked ∧ t.stc.command = 0)) = true
    ∧ yields .steeringUpdate (withAnalog 15 40 .valid ((steered.modStc fun x => { x with state := .centring, latch := some .disagree }).modMot
        fun m => { m with speed := none }))
      (fun t => decide (t.stc.state = .centring ∧ t.stc.command = 39)) = true := by decide +kernel

end Sys2Proof.Tests
end

