-- ==== Sys2Proof/Proofs/WheelEdges.lean ====
section
/-! PROOF. R5: what a rising edge makes of a wheel channel, what a sequence of edges adds up to, and the statement WheelEdgeCounts. -/

namespace Sys2Proof.Machine

/-! ## One edge of a channel -/

@[simp] theorem WheelChannel.edge_direction (now : Nat) (r : Direction) (w : WheelChannel) : (w.edge now r).direction = r := rfl

@[simp] theorem WheelChannel.edge_lastEdge (now : Nat) (r : Direction) (w : WheelChannel) :
    (w.edge now r).lastEdge = some now := rfl

@[simp] theorem WheelChannel.edge_tally_forward (now : Nat) (w : WheelChannel) :
    (w.edge now .forward).tally = w.tally + 1 := rfl

@[simp] theorem WheelChannel.edge_tally_reverse (now : Nat) (w : WheelChannel) :
    (w.edge now .reverse).tally = w.tally - 1 := rfl

theorem WheelChannel.edge_period_of_lastEdge {last : Nat} {w : WheelChannel} (h : w.lastEdge = some last) (now : Nat)
    (r : Direction) : (w.edge now r).period = some (now - last) := by
  simp [WheelChannel.edge, h]

/-- The first edge has no instant to measure from. -/
theorem WheelChannel.edge_period_of_first {w : WheelChannel} (h : w.lastEdge = none) (now : Nat) (r : Direction) :
    (w.edge now r).period = w.period := by
  simp [WheelChannel.edge, h]

/-! ## A sequence of edges of a channel -/

/-- A channel after a sequence of edges, each at its instant. -/
def WheelChannel.edges (w : WheelChannel) (es : List (Nat × Direction)) : WheelChannel :=
  es.foldl (fun w e => w.edge e.1 e.2) w

@[simp] theorem WheelChannel.edges_nil (w : WheelChannel) : w.edges [] = w := rfl

@[simp] theorem WheelChannel.edges_cons (w : WheelChannel) (e : Nat × Direction) (es : List (Nat × Direction)) :
    w.edges (e :: es) = (w.edge e.1 e.2).edges es := rfl

theorem WheelChannel.edges_append (w : WheelChannel) (es fs : List (Nat × Direction)) :
    w.edges (es ++ fs) = (w.edges es).edges fs := List.foldl_append

theorem WheelChannel.edges_tally (w : WheelChannel) (es : List (Nat × Direction)) :
    (w.edges es).tally = w.tally + (es.countP fun e => decide (e.2 = .forward))
      - (es.countP fun e => decide (e.2 = .reverse)) := by
  induction es generalizing w with
  | nil => simp
  | cons e es ih =>
    obtain ⟨now, r⟩ := e
    rw [WheelChannel.edges_cons, ih]
    cases r with
    | forward =>
      rw [WheelChannel.edge_tally_forward, List.countP_cons_of_pos (by simp), List.countP_cons_of_neg (by simp)]
      omega
    | reverse =>
      rw [WheelChannel.edge_tally_reverse, List.countP_cons_of_neg (by simp), List.countP_cons_of_pos (by simp)]
      omega

/-- Whatever came before, the last two edges fix the period, the last edge time and the direction. -/
theorem WheelChannel.edges_last_two (w : WheelChannel) (before : List (Nat × Direction)) (a b : Nat × Direction) :
    (w.edges (before ++ [a, b])).period = some (b.1 - a.1) ∧ (w.edges (before ++ [a, b])).lastEdge = some b.1
      ∧ (w.edges (before ++ [a, b])).direction = b.2 := by
  rw [WheelChannel.edges_append, WheelChannel.edges_cons, WheelChannel.edges_cons, WheelChannel.edges_nil]
  exact ⟨WheelChannel.edge_period_of_lastEdge (WheelChannel.edge_lastEdge ..) .., WheelChannel.edge_lastEdge ..,
    WheelChannel.edge_direction ..⟩

/-! ## An edge as a command -/

theorem exec_wheelPulseEdge (i : Fin 4) (r : Direction) (s : State) :
    exec (.wheelPulseEdge i r) s
      = .next (s.modMot fun m => { m with wheels := upd m.wheels i (WheelChannel.edge s.now r) }) := by rfl

/-- The state after an edge of channel `i` that comes at its instant. -/
def State.takeEdge (i : Fin 4) (s : State) (e : Nat × Direction) : State :=
  { s with now := e.1 }.modMot fun m => { m with wheels := upd m.wheels i (WheelChannel.edge e.1 e.2) }

theorem State.takeEdge_exec (i : Fin 4) (s : State) (e : Nat × Direction) :
    exec (.wheelPulseEdge i e.2) { s with now := e.1 } = .next (s.takeEdge i e) :=
  exec_wheelPulseEdge i e.2 { s with now := e.1 }

theorem State.takeEdge_wheel (i : Fin 4) (s : State) (e : Nat × Direction) :
    rd (s.takeEdge i e).mot.wheels i = (rd s.mot.wheels i).edge e.1 e.2 := rd_upd_same ..

theorem State.takeEdge_other (i : Fin 4) (s : State) (e : Nat × Direction) {j : Fin 4} (h : j ≠ i) :
    rd (s.takeEdge i e).mot.wheels j = rd s.mot.wheels j := rd_upd_other _ _ _ _ h.symm

theorem State.foldl_takeEdge_wheel (i : Fin 4) (s : State) (es : List (Nat × Direction)) :
    rd (es.foldl (State.takeEdge i) s).mot.wheels i = (rd s.mot.wheels i).edges es :=
  (List.foldl_hom (fun u : State => rd u.mot.wheels i) fun u e => (u.takeEdge_wheel i e).symm).symm

theorem State.foldl_takeEdge_other (i : Fin 4) (s : State) (es : List (Nat × Direction)) {j : Fin 4} (h : j ≠ i) :
    rd (es.foldl (State.takeEdge i) s).mot.wheels j = rd s.mot.wheels j := by
  induction es generalizing s with
  | nil => rfl
  | cons e es ih => rw [List.foldl_cons, ih, State.takeEdge_other i s e h]

/-! ## The statement -/

/-- Settles O40: the first part is `exec_wheelPulseEdge`; in the second a sequence of edges of channel `i` is the fold
`WheelChannel.edges` of that channel, which adds up the tally and whose last two edges fix the period. -/
theorem wheelEdgeCounts : Obligations.WheelEdgeCounts := by
  unfold Obligations.WheelEdgeCounts
  constructor
  · intro i r s
    rw [exec_wheelPulseEdge]
    cases r <;> rfl
  · intro i s t edges edgesRun
    have run : t = edges.foldl (State.takeEdge i) s := by
      simpa only [State.takeEdge_exec] using edgesRun
    have wheel : rd t.mot.wheels i = (rd s.mot.wheels i).edges edges := by rw [run, State.foldl_takeEdge_wheel]
    rw [wheel]
    refine ⟨WheelChannel.edges_tally _ edges, ?_, ?_, ?_⟩
    · rintro before a b rfl
      exact WheelChannel.edges_last_two _ before a b
    · rintro a rfl initial
      rw [initial, WheelChannel.edges_cons, WheelChannel.edges_nil]
      exact ⟨WheelChannel.edge_period_of_first rfl .., WheelChannel.edge_lastEdge ..⟩
    · intro j other
      rw [run, State.foldl_takeEdge_other i s edges other]

end Sys2Proof.Machine
end

