-- ==== Sys2Proof/Proofs/RegistryWrites.lean ====
section
/-! PROOF. R47: the checks that every service request begins with, WRITE_REGISTRY past each of its own checks, and the statement
WriteRegistryStores. -/

namespace Sys2Proof.Machine

/-! ## The first two checks of a service request -/

theorem ifRoot_of_disabled {p : Fin 16} {s : State} (disabled : ¬ (s.record p).enabled = true) (next : State × Answer) :
    ifRoot p s next = (s, .no .unknownPartner) := if_neg disabled

theorem ifRoot_of_authority_ne {p : Fin 16} {s : State} (enabled : (s.record p).enabled = true)
    (lacking : (s.record p).authority ≠ 0) (next : State × Answer) : ifRoot p s next = (s, s.lacksAuthority p 0) :=
  (if_pos enabled).trans (if_neg lacking)

theorem ifRoot_of_serves {x : Sender} {s : State} (served : s.serves x) (next : State × Answer) :
    ifRoot x.partner s next = next := by
  obtain ⟨_, enabled, root⟩ := served
  exact (if_pos enabled).trans (if_pos root)

/-! ## The fields of the request, brought into range -/

/-- The window in the words of R47: a step of 100 ms is reached by dropping what is above it. -/
theorem fitWindow_eq (w : Nat) :
    fitWindow w = if w = 0 then 0 else if w < 100 then 100 else if 2000 < w then 2000 else w - w % 100 := by
  have step : w / 100 * 100 = w - w % 100 := by omega
  rw [fitWindow, step]

theorem lowNibble_toNat (b : Byte) : (b.extractLsb' 0 4).toNat = b.toNat % 16 := by
  simp [BitVec.extractLsb'_toNat]

theorem wrN_val {α : Type} {n : Nat} (v : Vector α n) (i : Fin n) (x : α) : wrN v i.val x = wr v i x := dif_pos i.isLt

/-! ## WRITE_REGISTRY from a sender that is served -/

section
variable {x : Sender} {s : State}

theorem requestWriteRegistry_outside_config (served : s.serves x) (device : s.cfg.device ≠ .config) (number : Nat)
    (rank kinds : Byte) (window : Nat) :
    requestWriteRegistry x.partner number rank kinds window s = (s, s.configOnly) := by
  rw [requestWriteRegistry, ifRoot_of_serves served, if_pos device]

theorem requestWriteRegistry_no_record (served : s.serves x) (device : s.cfg.device = .config) {number : Nat}
    (absent : number < 1 ∨ 13 < number) (rank kinds : Byte) (window : Nat) :
    requestWriteRegistry x.partner number rank kinds window s = (s, .no .requestInvalid) := by
  rw [requestWriteRegistry, ifRoot_of_serves served, if_neg (not_not_intro device), if_pos absent]

/-- A request that passes: the record written is determined by its four fields. -/
theorem requestWriteRegistry_stores (served : s.serves x) (device : s.cfg.device = .config) {r : Fin 16} (low : 1 ≤ r.val)
    (high : r.val ≤ 13) {rank kinds : Byte} {window : Nat} {written : PartnerRecord}
    (enabled : written.enabled = rank.getLsbD 7) (authority : written.authority = min 3 (rank.toNat % 16))
    (permitted : written.permitted = kinds) (fitted : written.window = fitWindow window) :
    requestWriteRegistry x.partner r.val rank kinds window s =
      (s.modIlt fun t => { t with registry := wr t.registry r written },
        .ok (AnswerFlags.ofClamped (decide (3 < rank.toNat % 16 ∨ fitWindow window ≠ window))) 0 0) := by
  have present : ¬ (r.val < 1 ∨ 13 < r.val) := by omega
  obtain ⟨e, a, k, v⟩ := written
  subst enabled authority permitted fitted
  rw [requestWriteRegistry, ifRoot_of_serves served, if_neg (not_not_intro device), if_neg present]
  simp only [lowNibble_toNat, wrN_val]

end

/-! ## The statement -/

/-- Settles O32: a request that is heard is `requestWriteRegistry`, whose first two checks are those of every service request
(`ifRoot`), and each of whose own checks sends it to one of the lemmas above. -/
theorem writeRegistryStores : Obligations.WriteRegistryStores := by
  unfold Obligations.WriteRegistryStores
  intro x tag record rank kinds w s heard
  rw [exec_writeRegistry_heard heard]
  refine ⟨fun unknown => ?unknownPartner, fun known lacking => ?authority, fun served device => ?configOnly,
    fun served device absent => ?requestInvalid, ?stored⟩
  case unknownPartner =>
    rw [requestWriteRegistry, ifRoot_of_disabled unknown]
    rfl
  case authority =>
    rw [requestWriteRegistry, ifRoot_of_authority_ne known lacking]
    rfl
  case configOnly =>
    rw [requestWriteRegistry_outside_config served device]
    rfl
  case requestInvalid =>
    have outside : record.toNat < 1 ∨ 13 < record.toNat := absent.imp_left fun zero => by simp [zero]
    rw [requestWriteRegistry_no_record served device outside]
    rfl
  case stored =>
    intro served device r named low high window inRange written enabled authority permitted fitted
    rw [← fitWindow_eq] at inRange
    subst inRange
    rw [named, requestWriteRegistry_stores served device low high enabled authority permitted fitted]
    rfl

end Sys2Proof.Machine
end

