-- ==== Sys2Proof/Proofs/NoticeLatch.lean ====
section
/-! PROOF. R180: what a notice event makes of its flag, what posting it makes of the link, and the statement
NoticeLatchesFirstCause. -/

namespace Sys2Proof.Machine

/-! ## A notice event on one flag -/

theorem NoticeFlag.take_of_clear {f : NoticeFlag} (clear : f.raised = false) (n : Notice) :
    f.take n = { raised := true, repeated := false, record := some n } := by
  simp [NoticeFlag.take, clear]

theorem NoticeFlag.take_of_raised {f : NoticeFlag} (raised : f.raised = true) (n : Notice) :
    f.take n = { raised := true, repeated := true, record := f.record } := by
  simp [NoticeFlag.take, raised]

/-! ## A notice event posted to the link -/

theorem State.post_named_flag (n : Notice) (s : State) :
    rd (s.post n).lnk.notices n.flag = (rd s.lnk.notices n.flag).take n := by
  rw [State.post_lnk_notices, rd_upd_same]

theorem State.post_other_flag (n : Notice) (s : State) {i : Fin 14} (other : i ≠ n.flag) :
    rd (s.post n).lnk.notices i = rd s.lnk.notices i := by
  rw [State.post_lnk_notices, rd_upd_other _ _ _ _ other.symm]

/-- R181 at a notice event: the mask decides ATTN alone, and is the one that stood before the event. -/
theorem State.post_attn_iff (n : Notice) (s : State) :
    (s.post n).lnk.attn = true ↔
      ∃ i, (rd (s.post n).lnk.notices i).raised = true ∧ s.lnk.mask.getLsbD i.val = true := by
  rw [State.post_lnk_attn, State.post_lnk_notices, attnFor_iff]

theorem State.post_frame (n : Notice) (s : State) :
    s.post n = s.modLnk fun l => { l with notices := (s.post n).lnk.notices, attn := (s.post n).lnk.attn } := by
  rfl

/-! ## The statement -/

/-- Settles O24: the flag that the event names goes through `NoticeFlag.take`, once for a clear flag and once for a set one; the
rest is the frame of `State.post`. -/
theorem noticeLatchesFirstCause : Obligations.NoticeLatchesFirstCause := by
  unfold Obligations.NoticeLatchesFirstCause
  intro n s
  refine ⟨fun clear => ?clear, fun raised => ?raised, fun _ other => State.post_other_flag n s other,
    State.post_attn_iff n s, State.post_frame n s⟩
  case clear => rw [State.post_named_flag, NoticeFlag.take_of_clear clear]
  case raised => rw [State.post_named_flag, NoticeFlag.take_of_raised raised]

end Sys2Proof.Machine
end

