-- ==== Sys2Proof/Proofs/StepInvariants.lean ====
section
/-! PROOF. What a command comes to, said once, and the statements that every step keeps a property of a raw change (O1, O2, O5 to O9). -/

namespace Sys2Proof.Machine

/-! ## A step is a command of the queue, or a microsecond -/

theorem step_nil {s : State} (empty : s.pending = []) : step s = .next { s with now := s.now + 1 } := by
  simp only [step, empty]

theorem step_cons {s : State} {c : Instr} {rest : List Instr} (front : s.pending = c :: rest) :
    step s = exec c { s with pending := rest } := by
  simp only [step, front]

/-- What a property needs to be kept by every step: that it does not read the queue of commands, that each command keeps it, and that
the clock alone does. -/
theorem step_keeps {P : State → Prop} {s t : State} (stepped : step s = .next t)
    (queue : ∀ rest, P s → P { s with pending := rest })
    (command : ∀ c rest, s.pending = c :: rest → exec c { s with pending := rest } = .next t → P { s with pending := rest } → P t)
    (clock : P s → P { s with now := s.now + 1 }) (holds : P s) : P t := by
  cases pending : s.pending with
  | nil =>
    rw [step_nil pending] at stepped
    injection stepped with same
    exact same ▸ clock holds
  | cons c rest =>
    rw [step_cons pending] at stepped
    exact command c rest pending stepped (queue rest holds)

/-- A property that every raw change keeps is kept by every step. -/
theorem step_keeps_raw {P : State → Prop} (fit : Bool) {s t : State} (stepped : step s = .next t)
    (partners : fit = true → s.lnk.partnersFit) (queue : ∀ rest, P s → P { s with pending := rest })
    (raw : ∀ u v, Raw true fit u v → P u → P v) (holds : P s) : P t :=
  step_keeps stepped queue (fun c rest _ ran => (exec_runs fit c { s with pending := rest } t partners ran).keeps raw)
    (raw _ _ (.clock _ s (Nat.le_succ _))) holds

/-! ## The statements -/

/-- Settles O1: both parts are the two arms of `step`. -/
theorem stepTakesFront : Obligations.StepTakesFront := by
  unfold Obligations.StepTakesFront
  exact ⟨fun _ _ _ => step_cons rfl, fun _ empty => step_nil empty⟩

/-- No arm of `exec` is a fault or a refusal. -/
theorem exec_answers (c : Instr) (s : State) : ∃ t, exec c s = .next t := by
  cases c <;> exact ⟨_, rfl⟩

/-- Settles O2: a command is a run of raw changes, each of which leaves the queue of commands and never moves the clock back. -/
theorem everyCommandAnswers : Obligations.EveryCommandAnswers := by
  unfold Obligations.EveryCommandAnswers
  intro c s
  obtain ⟨t, ran⟩ := exec_answers c s
  have runs := exec_runs false c s t (fun on => absurd on (by decide)) ran
  refine ⟨t, ran, runs.keeps (P := fun u => u.pending = s.pending ∧ s.now ≤ u.now) ?_ ⟨rfl, Nat.le_refl _⟩⟩
  rintro u v raw ⟨pending, now⟩
  obtain ⟨samePending, later⟩ := raw_clock raw
  exact ⟨samePending.trans pending, now.trans later⟩

/-- Settles O5: every raw change keeps the form of the notice flags. -/
theorem stepKeepsNotices : Obligations.StepKeepsNotices := by
  unfold Obligations.StepKeepsNotices
  intro s t fits stepped
  exact step_keeps_raw (P := fun u => u.lnk.NoticesFit) false stepped (fun on => absurd on (by decide)) (fun _ h => h)
    (fun _ _ raw => raw_noticesFit raw) fits

/-- Settles O7: with the partners of the waiting frames no step places an entry outside its owner's slots, so every raw change keeps
the form of the table; the scopes need no such premise. -/
theorem stepKeepsTable : Obligations.StepKeepsTable := by
  unfold Obligations.StepKeepsTable
  intro s t stepped
  constructor
  · intro queue fits
    exact step_keeps_raw (P := fun u => u.ilt.Fits) true stepped (fun _ => queue.partners) (fun _ h => h)
      (fun _ _ raw => raw_iltFits raw) fits
  · intro fits
    exact step_keeps_raw (P := fun u => u.ilt.ScopesFit) false stepped (fun on => absurd on (by decide)) (fun _ h => h)
      (fun _ _ raw => raw_scopesFit raw) fits

/-- Settles O8: every raw change keeps the registry's form and the ranges. -/
theorem stepKeepsRanges : Obligations.StepKeepsRanges := by
  unfold Obligations.StepKeepsRanges
  intro s t stepped
  constructor
  · intro fits
    exact step_keeps_raw (P := fun u => u.ilt.RegistryFits) false stepped (fun on => absurd on (by decide)) (fun _ h => h)
      (fun _ _ raw => raw_registryFits raw) fits
  · intro fits
    exact step_keeps_raw (P := State.RangesFit) false stepped (fun on => absurd on (by decide)) (fun _ h => h)
      (fun _ _ raw => raw_ranges raw) fits

/-- Settles O9: every raw change keeps the valve commands, the gated channels and the targets. -/
theorem stepKeepsValves : Obligations.StepKeepsValves := by
  unfold Obligations.StepKeepsValves
  intro s t stepped
  refine ⟨fun fits => ?corners, fun fits => ?gated, fun fits => ?targets⟩
  case corners =>
    exact step_keeps_raw (P := State.CornersFit) false stepped (fun on => absurd on (by decide))
      (fun _ h => ⟨h.few, h.fill, h.exhaust, h.supply⟩) (fun _ _ raw => raw_cornersFit raw) fits
  case gated =>
    exact step_keeps_raw (P := fun u => u.vda.Gated) false stepped (fun on => absurd on (by decide)) (fun _ h => h)
      (fun _ _ raw => raw_gated raw) fits
  case targets =>
    exact step_keeps_raw (P := fun u => u.rlu.TargetsFit) false stepped (fun on => absurd on (by decide)) (fun _ h => h)
      (fun _ _ raw => raw_targetsFit raw) fits

/-! ## The input queue and the answer buffer (R174, R175) -/

theorem queueFits_empty {l : Lnk} (empty : l.queue = []) : l.QueueFits where
  depth := by simp [empty]
  partners := by simp [Lnk.partnersFit, empty]
  full := fun some => absurd empty some

theorem queueFits_congr {l m : Lnk} (fits : l.QueueFits) (queue : m.queue = l.queue) (answer : m.answer = l.answer) :
    m.QueueFits where
  depth := queue ▸ fits.depth
  partners := by unfold Lnk.partnersFit; rw [queue]; exact fits.partners
  full := by rw [queue, answer]; exact fits.full

theorem Runs.queueFits {fit : Bool} {s t : State} (runs : Runs false fit s t) (fits : s.lnk.QueueFits) : t.lnk.QueueFits := by
  rcases runs.link with ⟨queue, answer⟩ | ⟨queue, _⟩
  · exact queueFits_congr fits queue answer
  · exact queueFits_empty queue

/-- Taking the frame at the front fills the answer buffer, and a full buffer leaves the queue; a request of the frame's own can only
empty the queue, in a restart. -/
theorem takeFrame_queueFits {s : State} (depth : s.lnk.queue.length ≤ 4) (partners : s.lnk.partnersFit) :
    (takeFrame s).lnk.QueueFits := by
  unfold takeFrame
  split
  case h_1 f rest queue answer =>
    have shorter : rest.length ≤ 4 := by rw [queue, List.length_cons] at depth; omega
    have others : ∀ g ∈ rest, 1 ≤ g.partner ∧ g.partner ≤ 13 := fun g hg =>
      partners g (queue ▸ List.mem_cons_of_mem f hg)
    rcases takeRequest_link (Fin.ofNat 16 f.partner) f.content (s.modLnk fun l => { l with queue := rest }) with
      ⟨kept, _⟩ | ⟨emptied, _⟩
    · exact ⟨(congrArg List.length kept).trans_le shorter, fun g hg => others g ((congrArg (g ∈ ·) kept).mp hg), fun _ => rfl⟩
    · exact queueFits_empty emptied
  case h_2 f rest a queue answer => exact ⟨depth, partners, fun _ => by rw [answer]; rfl⟩
  case h_3 queue => exact queueFits_empty queue

theorem arrive_queueFits {n : Nat} (partner : 1 ≤ n ∧ n ≤ 13) (c : Content) {s : State} (fits : s.lnk.QueueFits) :
    (arrive n c s).lnk.QueueFits := by
  unfold arrive
  split
  case isTrue => exact queueFits_congr fits (State.post_lnk_queue ..) (State.post_lnk_answer ..)
  case isFalse room =>
    have depth : (s.lnk.queue ++ [QueuedFrame.mk n c]).length ≤ 4 := by simp; omega
    have partners : ∀ f ∈ s.lnk.queue ++ [QueuedFrame.mk n c], 1 ≤ f.partner ∧ f.partner ≤ 13 := by
      intro f hf
      rcases List.mem_append.mp hf with old | new
      · exact fits.partners f old
      · rw [List.mem_singleton.mp new]; exact partner
    dsimp only
    split
    case isTrue => exact takeFrame_queueFits depth partners
    case isFalse busy =>
      refine ⟨depth, partners, fun _ => ?_⟩
      by_cases empty : s.lnk.queue = []
      · have full : s.lnk.answer ≠ none := fun none => busy ⟨by simp [empty], none⟩
        exact Option.isSome_iff_ne_none.mpr full
      · exact fits.full empty

theorem submit_queueFits (x : Sender) (c : Content) {s : State} (fits : s.lnk.QueueFits) : (submit x c s).lnk.QueueFits := by
  unfold submit
  split
  case h_1 => exact (rn_takeFromHost (lk := false) (fit := false) c .refl).queueFits fits
  case h_2 n =>
    split
    case isTrue partner => exact arrive_queueFits partner c fits
    case isFalse => exact fits
  case h_3 command => exact (rn_takeFromLine (lk := false) (fit := false) command c .refl).queueFits fits

theorem receiveFrame_queueFits (f : CanFrame) {s : State} (fits : s.lnk.QueueFits) : (receiveFrame f s).lnk.QueueFits := by
  unfold receiveFrame
  split
  case h_1 accepted _ => exact arrive_queueFits (CanFrame.partner_fits accepted) _ fits
  case h_2 => exact fits
  case h_3 => exact fits

theorem frameSent_queueFits {s : State} (fits : s.lnk.QueueFits) : (frameSent s).lnk.QueueFits := by
  unfold frameSent
  split
  case h_1 => exact fits
  case h_2 =>
    split
    case h_1 => exact queueFits_congr fits rfl rfl
    case h_2 => exact queueFits_congr fits rfl rfl
    case h_3 => exact takeFrame_queueFits fits.depth fits.partners

theorem abandonAnswer_queueFits {s : State} (fits : s.lnk.QueueFits) : (abandonAnswer s).lnk.QueueFits := by
  unfold abandonAnswer
  split
  case h_1 => exact takeFrame_queueFits fits.depth fits.partners
  case h_2 => exact fits

/-! ## What a command comes to -/

/-- The forms that the meaning of a command takes: a row that names one moment of an update is that update or nothing (log 4), and a row
whose timer is stopped is nothing (log 3). -/
inductive Effect (s : State) : State → Prop where
  | nothing : Effect s s
  | request (x : Sender) (c : Content) : Effect s (submit x c s)
  | reset : Effect s s.coldReset
  | frameArrives (f : CanFrame) : Effect s (receiveFrame f s)
  | frameSent : Effect s (frameSent s)
  | answerAbandoned : Effect s (abandonAnswer s)
  | selectAsserted : Effect s (selectAsserted s)
  | selectWithdrawn (received : List Byte) : Effect s (selectWithdrawn received s)
  | broadcast (t : Nat) : Effect s (placeBroadcast (s.advanceTo t))
  | sample (c : Fin 21) (raw : BitVec 12) : Effect s (sampleAt c raw s)
  | wheelEdge (w : Fin 4) (f : WheelChannel → WheelChannel) : Effect s (s.modMot fun m => { m with wheels := upd m.wheels w f })
  | speedUpdate : Effect s (speedUpdateAt s)
  | lineLevel (l : DriveLine) (level : Bool) : Effect s (s.modMot (Mot.changeLine l (InputLine.setLevel s.now level)))
  | lineSettles (l : DriveLine) (t : Nat) : Effect s (lineSettles l (s.advanceTo t))
  | deadline (handle : Nat) : Effect s (deadlineRunsOut handle s)
  | contactLevel (d : Fin 4) (level : Bool) :
      Effect s (Dsv.changeDoor d (fun x => { x with contact := x.contact.setLevel s.now level }) s)
  | contactSettles (d : Fin 4) (t : Nat) : Effect s (contactSettles d (s.advanceTo t))
  | releaseDrive : Effect s (releaseDrive s)
  | fblEdge (level : Bool) : Effect s (lineEdge level s)
  | fblTimeout : Effect s (phaseTimeout s)
  | cornerUpdate (c : Fin 6) : Effect s (cornerUpdateAt c s)
  | brakeUpdate : Effect s (State.finish (brakesMove s))
  | steeringUpdate : Effect s (State.finish (steeringMoves s))
  | channel (ch : Fin 18) (f : Channel → Channel) (t : Nat)
      (proper : (f (rd s.vda.channels ch)).command = (rd s.vda.channels ch).command
        ∧ ((rd s.vda.channels ch).gated → (f (rd s.vda.channels ch)).gated)) :
      Effect s (channelEvent ch f (s.advanceTo t))
  | temperature (degrees : Int) (t : Nat) :
      Effect s (State.finish (sampleTemperature degrees ((s.advanceTo t).modVda fun v => { v with lastTemp := (s.advanceTo t).now })))
  | supply (tenths : Nat) : Effect s (supplyAt tenths s)

section
variable {s : State}

theorem Effect.ite {p : Prop} [Decidable p] {t u : State} (h : Effect s t) (k : Effect s u) : Effect s (if p then t else u) := by
  split <;> assumption

theorem advanceTo_zero (s : State) : s.advanceTo 0 = s := by
  simp [State.advanceTo]

theorem Effect.channelNow (ch : Fin 18) {f : Channel → Channel} (proper : Channel.Proper f) : Effect s (channelEvent ch f s) := by
  have effect := Effect.channel (s := s) ch f 0 ⟨proper.command _, proper.gated _⟩
  rwa [advanceTo_zero] at effect

/-- A timer's row: nothing while the timer is stopped or the channel is in another state. -/
theorem Effect.timer (ch : Fin 18) (st : ChannelState) (timer : Channel → Option Nat) (span : Nat) (f : Nat → Channel → Channel)
    (proper : ∀ n c, c.state = st → (f n c).command = c.command ∧ (c.gated → (f n c).gated)) :
    Effect s (timerEvent ch st timer span f s) := by
  unfold timerEvent
  split
  case h_1 =>
    split
    case isTrue inState => exact .channel ch _ _ (proper _ _ inState)
    case isFalse => exact .nothing
  case h_2 => exact .nothing

theorem exec_effect {i : Instr} {s t : State} (ran : exec i s = .next t) : Effect s t := by
  have done : ∀ {u : State}, exec i s = .next u → Effect s u → Effect s t := by
    intro u same effect
    rw [same] at ran
    injection ran with e
    exact e ▸ effect
  cases request : i.request? with
  | some r => exact done (exec_request request s) (.request r.1 r.2)
  | none =>
    cases i with
    | coldReset => exact done rfl .reset
    | canFrameArrival f => exact done rfl (.frameArrives f)
    | canFrameSent => exact done rfl .frameSent
    | answerAbandonTimeout => exact done rfl .answerAbandoned
    | spiSelectAssert => exact done rfl .selectAsserted
    | spiSelectWithdraw l => exact done rfl (.selectWithdrawn l)
    | broadcastEvent => exact done rfl (.ite .nothing (.broadcast _))
    | sampleEvent c raw => exact done rfl (.sample c raw)
    | analogChannelFaulty c raw => exact done rfl (.ite (.sample c raw) .nothing)
    | analogChannelRecovery c raw => exact done rfl (.ite (.sample c raw) .nothing)
    | wheelPulseEdge w d => exact done rfl (.wheelEdge w _)
    | speedUpdate => exact done rfl .speedUpdate
    | wheelZeroTimeout w => exact done rfl (.ite .speedUpdate .nothing)
    | wheelAgreementRecovery w => exact done rfl (.ite .speedUpdate .nothing)
    | settleTimerExpiry => exact done rfl (.ite .speedUpdate .nothing)
    | driveLineChange l level => exact done rfl (.lineLevel l level)
    | driveLineDebounceExpiry l =>
      refine done rfl ?_
      split
      · exact .lineSettles l _
      · exact .nothing
    | refreshDeadlineExpiry h => exact done rfl (.deadline _)
    | doorContactChange d level => exact done rfl (.contactLevel d level)
    | doorContactDebounceExpiry d =>
      refine done rfl ?_
      split
      · exact .contactSettles d _
      · exact .nothing
    | driveInhReleaseExpiry => exact done rfl .releaseDrive
    | fblEdge level => exact done rfl (.fblEdge level)
    | fblPhaseTimeout => exact done rfl .fblTimeout
    | cornerUpdate c => exact done rfl (.cornerUpdate c)
    | cornerQualified c => exact done rfl (.ite (.cornerUpdate c) .nothing)
    | actionTimeout c => exact done rfl (.ite (.cornerUpdate c) .nothing)
    | stallWatchSpan c => exact done rfl (.ite (.cornerUpdate c) .nothing)
    | brakeUpdate => exact done rfl .brakeUpdate
    | holdConfirmed => exact done rfl (.ite .brakeUpdate .nothing)
    | holdUnconfirmedTimeout => exact done rfl (.ite .brakeUpdate .nothing)
    | holdLost => exact done rfl (.ite .brakeUpdate .nothing)
    | holdRampEnd => exact done rfl (.ite .brakeUpdate .nothing)
    | steeringUpdate => exact done rfl .steeringUpdate
    | disagreementTimeout => exact done rfl (.ite .steeringUpdate .nothing)
    | trackingErrorTimeout => exact done rfl (.ite .steeringUpdate .nothing)
    | centringTimeout => exact done rfl (.ite .steeringUpdate .nothing)
    | blankingEnd ch => exact done rfl (.timer ch _ _ _ _ fun n c st => proper_endBlanking n c st)
    | hardShort ch => exact done rfl (.channelNow ch (proper_hardShort _))
    | overCurrentStart ch => exact done rfl (.channelNow ch (proper_currentRises _))
    | overCurrentEnd ch => exact done rfl (.channelNow ch (proper_currentFalls _))
    | qualifyTimeExpiry ch => exact done rfl (.timer ch _ _ _ _ fun n c st => proper_trip n c (by rw [st]; rfl))
    | retryExpiry ch => exact done rfl (.timer ch _ _ _ _ fun n c st => proper_endRetry n c st)
    | cleanTimerExpiry ch =>
      exact done rfl (.timer ch _ _ _ _ fun _ c _ => ⟨proper_endSeries.command c, proper_endSeries.gated c⟩)
    | diagnosticCheck ch load =>
      exact done rfl (.ite .nothing
        (.channel ch _ _ ⟨(proper_diagnose load _).command _, (proper_diagnose load _).gated _⟩))
    | temperatureSample d => exact done rfl (.temperature d _)
    | supplyVoltageSample n => exact done rfl (.supply n)
    | undervoltageGateClose n => exact done rfl (.ite (.supply n) .nothing)
    | undervoltageGateOpen n => exact done rfl (.ite (.supply n) .nothing)
    | _ => exact absurd request (by simp [Instr.request?])

end

/-- A command that is no frame, no sent or abandoned answer and no request does not touch the link. -/
theorem effect_queueFits {s t : State} (effect : Effect s t) (fits : s.lnk.QueueFits) : t.lnk.QueueFits := by
  have beside : Runs false false s t → t.lnk.QueueFits := fun runs => runs.queueFits fits
  have r : Runs false false s s := .refl
  cases effect with
  | nothing => exact fits
  | request x c => exact submit_queueFits x c fits
  | frameArrives f => exact receiveFrame_queueFits f fits
  | frameSent => exact frameSent_queueFits fits
  | answerAbandoned => exact abandonAnswer_queueFits fits
  | reset => exact beside (r.tail (.cold s))
  | selectAsserted => exact beside (rn_selectAsserted r)
  | selectWithdrawn l => exact beside (rn_selectWithdrawn l r)
  | broadcast n => exact beside (rn_placeBroadcast (rn_advance n r))
  | sample c raw => exact beside (rn_sampleAt c raw r)
  | wheelEdge w f => exact beside (rn_mot _ r)
  | speedUpdate => exact beside (rn_speedUpdateAt r)
  | lineLevel l level => exact beside (rn_mot _ r)
  | lineSettles l n => exact beside (rn_lineSettles l (rn_advance n r))
  | deadline h => exact beside (rn_deadline h r)
  | contactLevel d level => exact beside (rn_dsv _ r)
  | contactSettles d n => exact beside (rn_contactSettles d (rn_advance n r))
  | releaseDrive => exact beside (rn_releaseDrive r)
  | fblEdge level => exact beside (rn_lineEdge level r)
  | fblTimeout => exact beside (rn_phaseTimeout r)
  | cornerUpdate c => exact beside (rn_cornerUpdateAt c r)
  | brakeUpdate => exact beside (rn_finish (rn_brakesMove r))
  | steeringUpdate => exact beside (rn_finish (rn_steeringMoves r))
  | channel ch f n proper => exact beside (rn_channelEvent ch f proper (rn_advance n r))
  | temperature d n => exact beside (rn_finish (rn_sampleTemperature d (rn_vdaGates _ (fun _ => rfl) (rn_advance n r))))
  | supply n => exact beside (rn_supplyAt n r)

/-- Settles O6: the link's own commands keep the queue's form by `takeFrame_queueFits`, and every other command leaves the queue and the
answer buffer, but for a reset that empties both. -/
theorem stepKeepsQueue : Obligations.StepKeepsQueue := by
  unfold Obligations.StepKeepsQueue
  intro s t fits stepped
  exact step_keeps (P := fun u => u.lnk.QueueFits) stepped (fun _ h => h)
    (fun _ _ _ ran => effect_queueFits (exec_effect ran)) id fits

end Sys2Proof.Machine
end

