-- ==== Sys2Proof/Proofs/Resets.lean ====
section
/-! PROOF. What both resets leave, the state right after a reset, and the statements ColdResetClears, RestartKeeps and ResetFits. -/

namespace Sys2Proof.Machine

/-! ## What both resets leave -/

/-- A state whose blocks stand at their reset values: what a cold reset and a warm restart have in common. -/
structure State.AtReset (t : State) : Prop where
  device : t.cfg.device = .config
  lnk : ∃ now mask onBus, t.lnk = Lnk.initial now mask onBus
  table : t.ilt.order = [] ∧ (∀ i, (rd t.ilt.slots i).entry = none) ∧ ∀ d, rd t.ilt.contacts d = false
  mot : ∃ now f r d, t.mot = Mot.initial now f r d
  dsv : ∃ now contacts fbl, t.dsv = Dsv.initial now t.cfg.settings.doorCount contacts fbl
  crn : ∃ now, t.crn = Crn.initial now
  rlu : t.rlu = Rlu.initial
  brk : ∃ now, t.brk = Brk.initial now
  stc : ∃ now a b inUse, t.stc = Stc.initial now a b inUse
  vda : ∃ now o, t.vda = Vda.initial now o

theorem freshlyReset_of_atReset {t : State} (h : t.AtReset) : t.FreshlyReset := by
  obtain ⟨device, ⟨_, _, _, lnk⟩, table, ⟨_, _, _, _, mot⟩, ⟨_, _, _, dsv⟩, ⟨_, crn⟩, rlu, ⟨_, brk⟩, ⟨_, _, _, _, stc⟩, ⟨_, _, vda⟩⟩ := h
  constructor
  case device => exact device
  case table => exact table
  case analog => simp [mot, Mot.initial, AnalogChannel.initial]
  case wheels => simp [mot, Mot.initial]
  case motion => simp [mot, Mot.initial]
  case lines => simp [mot, Mot.initial, InputLine.initial]
  case doors => simp [dsv, Dsv.initial, InputLine.initial]
  case inhibit => simp [dsv, Dsv.initial]
  case fallback => simp [dsv, Dsv.initial, Fbl.initial]
  case corners => simp [crn, Crn.initial, Corner.initial]
  case levelling => simp [crn, Crn.initial]
  case ride => simp [rlu, Rlu.initial]
  case brakes => simp [brk, Brk.initial]
  case axles => simp [brk, Brk.initial]
  case steering => simp [stc, Stc.initial]
  case valves => simp [vda, Vda.initial, Channel.initial, Channel.marked]
  case gates => simp [vda, Vda.initial]
  case buffers =>
    simp only [lnk, Lnk.initial, true_and, and_true]
    decide
  case notices => simp [lnk, Lnk.initial]

theorem coldReset_atReset (s : State) : s.coldReset.AtReset where
  device := rfl
  lnk := ⟨_, _, _, rfl⟩
  table := ⟨rfl, fun i => by simp [State.coldReset, Ilt.initial], fun d => by simp [State.coldReset, Ilt.initial]⟩
  mot := ⟨_, _, _, _, rfl⟩
  dsv := ⟨_, _, _, rfl⟩
  crn := ⟨_, rfl⟩
  rlu := rfl
  brk := ⟨_, rfl⟩
  stc := ⟨_, _, _, _, rfl⟩
  vda := ⟨_, _, rfl⟩

theorem warmRestart_atReset (s : State) : s.warmRestart.AtReset where
  device := rfl
  lnk := ⟨_, _, _, rfl⟩
  table := ⟨rfl, fun i => by simp [State.warmRestart, Ilt.emptied], fun d => by simp [State.warmRestart, Ilt.emptied]⟩
  mot := ⟨_, _, _, _, rfl⟩
  dsv := ⟨_, _, _, rfl⟩
  crn := ⟨_, rfl⟩
  rlu := rfl
  brk := ⟨_, rfl⟩
  stc := ⟨_, _, _, _, rfl⟩
  vda := ⟨_, _, rfl⟩

/-! ## The pins, which no reset moves -/

@[simp] theorem coldReset_contact_level (s : State) (d : Fin 4) :
    (rd s.coldReset.dsv.doors d).contact.level = (rd s.dsv.doors d).contact.level := by
  simp [State.coldReset, Dsv.initial, InputLine.initial]

@[simp] theorem coldReset_line_level (s : State) (line : DriveLine) :
    (s.coldReset.mot.line line).level = (s.mot.line line).level := by
  cases line <;> rfl

@[simp] theorem coldReset_overCurrent (s : State) (c : Fin 18) :
    (rd s.coldReset.vda.channels c).overCurrent = (rd s.vda.channels c).overCurrent := by
  simp [State.coldReset, Vda.initial, Channel.initial]

theorem bank_initial_invalid : Bank.initial.valid = false := by decide

/-- Settles O3: the reset values of each block (`coldReset_atReset`), and the pins. -/
theorem coldResetClears : Obligations.ColdResetClears := by
  unfold Obligations.ColdResetClears
  intro s
  refine ⟨s.coldReset, rfl, freshlyReset_of_atReset (coldReset_atReset s), rfl, fun p => ?registry, fun i => ?generation, rfl, rfl, rfl,
    bank_initial_invalid, bank_initial_invalid, rfl, fun i => ?rows, rfl, rfl, rfl, coldReset_contact_level s, coldReset_line_level s,
    coldReset_overCurrent s⟩
  case registry => simp [State.coldReset, Ilt.initial]
  case generation => simp [State.coldReset, Ilt.initial]
  case rows => simp [State.coldReset, Stc.initial, Bank.initial]

/-! ## RESTART -/

/-- R188: what a warm restart keeps. -/
theorem warmRestart_keeps (s : State) : s.warmRestart.cfg.settings = s.cfg.settings ∧ s.warmRestart.ilt.registry = s.ilt.registry
    ∧ s.warmRestart.lnk.mask = s.lnk.mask ∧ s.warmRestart.stc.bankA = s.stc.bankA ∧ s.warmRestart.stc.bankB = s.stc.bankB
    ∧ s.warmRestart.stc.inUse = s.stc.inUse ∧ s.warmRestart.pending = s.pending ∧ s.warmRestart.now = s.now := by
  simp only [State.warmRestart, Ilt.emptied, Lnk.initial, Stc.initial, and_self]

/-- R42: the generation of an occupied slot goes on. -/
theorem warmRestart_generation (s : State) (i : Fin 24) :
    (rd s.warmRestart.ilt.slots i).generation
      = (rd s.ilt.slots i).generation + (if (rd s.ilt.slots i).entry.isSome then 1 else 0) := by
  simp only [State.warmRestart, Ilt.emptied, rd_mapF]
  split <;> simp

/-- Settles O4: past the checks of a service request, RESTART is refused in RUN and is the warm restart elsewhere. -/
theorem restartKeeps : Obligations.RestartKeeps := by
  unfold Obligations.RestartKeeps
  intro x tag s served
  rw [exec_restart_heard served.1, requestRestart, ifRoot_of_serves served]
  constructor
  · intro run
    have inRun : s.inRun = true := by simpa [State.inRun] using run
    rw [if_pos inRun]
    simp only [State.notReady, Answer.withDetail, run]
    rfl
  · intro out
    have notRun : ¬ s.inRun = true := by simpa [State.inRun] using out
    rw [if_neg notRun]
    obtain ⟨settings, registry, mask, bankA, bankB, inUse, pending, now⟩ := warmRestart_keeps s
    exact ⟨s.warmRestart, rfl, freshlyReset_of_atReset (warmRestart_atReset s), settings, registry, mask, bankA, bankB, inUse,
      warmRestart_generation s, pending, now⟩

/-! ## The state right after a reset -/

theorem reset_live : State.reset.live = [] := rfl

theorem reset_device : State.reset.cfg.device ≠ .run := by decide

/-- The release lines and the causes of the reset state: no entry stands, and no door is fitted. -/
theorem reset_outputsFit : State.reset.OutputsFit where
  release d := by
    constructor
    · intro released
      simp [State.reset, Dsv.initial] at released
    · exact fun ⟨run, _⟩ => absurd run reset_device
  notRun := by decide
  doorEntry := by simp only [reset_live]; simp [State.reset, Dsv.initial]
  contactOpen := by simp [State.reset, Dsv.initial, Settings.default]
  service := by simp only [reset_live]; simp [State.reset, Dsv.initial]
  curbLow := by decide
  inhibited := by decide

theorem reset_steeringFits : State.reset.SteeringFits where
  parked := by decide
  schedule := by decide
  values u some := by simp [State.reset, Stc.initial] at some
  bounds := by decide
  command := by decide
  still := by decide
  lock := by simp [State.reset, Vda.initial, Channel.initial, Stc.initial]
  bank run := absurd run reset_device

theorem reset_brakesFit : State.reset.BrakesFit where
  command a := by simp [State.reset, Vda.initial, Channel.initial, Brk.initial]
  demand a := by simp [State.reset, Brk.initial]
  target := by decide
  floor held := absurd rfl held
  confirmed := by decide
  released := by decide

theorem reset_freezesFit : State.reset.FreezesFit := by
  intro c
  simp only [reset_live]
  simp [State.reset, Crn.initial, Corner.initial, FreezeSet.empty]

theorem reset_holdsFit : State.reset.HoldsFit where
  held run := absurd run reset_device
  free run := absurd run reset_device

theorem reset_ridesFit : State.reset.RidesFit where
  held := by simp only [reset_live]; simp [State.reset, Rlu.initial]
  ride _ := by simp only [reset_live]; simp [State.reset, Rlu.initial]
  kneel _ c := by simp only [reset_live]; simp [State.reset, Rlu.initial]

theorem coldReset_reset : State.reset.coldReset = State.reset := by
  have contacts : (mapF State.reset.dsv.doors fun _ d => d.contact.level) = Vector.replicate 4 true :=
    ext_rd fun d => by simp [State.reset, Dsv.initial, InputLine.initial]
  have overCurrent : (mapF State.reset.vda.channels fun _ c => c.overCurrent) = Vector.replicate 18 false :=
    ext_rd fun c => by simp [State.reset, Vda.initial, Channel.initial]
  rw [State.coldReset, contacts, overCurrent]
  rfl

theorem reset_freshlyReset : State.reset.FreshlyReset := by
  have fresh := freshlyReset_of_atReset (coldReset_atReset State.reset)
  rwa [coldReset_reset] at fresh

/-- Settles O12: each property at the reset state; the table is empty and the device is in CONFIG. -/
theorem resetFits : Obligations.ResetFits := by
  unfold Obligations.ResetFits
  have noEntry : ∀ i, (rd State.reset.ilt.slots i).entry = none := fun i => by simp [State.reset, Ilt.initial]
  exact ⟨noticesFit_initial .., queueFits_empty rfl, iltFits_empty noEntry rfl, scopesFit_empty noEntry, registryFits_initial,
    cornersFit_initial _ _ rfl rfl, gated_initial _ _, targetsFit_initial,
    ⟨settings_default_inRange, bank_initial_inRange, bank_initial_inRange⟩, reset_outputsFit,
    ⟨fun run => absurd run reset_device, fun run => absurd run reset_device⟩, ⟨rfl, rfl⟩, reset_steeringFits, reset_brakesFit,
    reset_freezesFit, reset_holdsFit, reset_ridesFit, reset_freshlyReset, congrArg Host.Outcome.next coldReset_reset⟩

end Sys2Proof.Machine
end

