-- ==== Sys2Proof/Proofs/RequestChecks.lean ====
section
/-! PROOF. The checks that requests share, which handles resolve, and the statements SendersAreChecked and HandlesResolve. -/

namespace Sys2Proof.Machine

/-! ## The checks that requests share -/

section
variable {x : Sender} {p : Fin 16} {s : State}

theorem inRun_iff : s.inRun = true ↔ s.cfg.device = .run := by
  simp [State.inRun]

theorem ifEnabled_of_knows (known : s.knows x) (next : State × Answer) : ifEnabled x.partner s next = next := if_pos known

theorem ifEntry_outside_run (known : s.knows x) (out : s.cfg.device ≠ .run) (handle : Nat) (next : Entry → State × Answer) :
    ifEntry x.partner handle s next = (s, s.notReady) := by
  rw [ifEntry, ifEnabled_of_knows known, if_neg (mt inRun_iff.mp out)]

theorem ifEntry_stale (known : s.knows x) (run : s.cfg.device = .run) {handle : Nat} (stale : s.resolve handle = none)
    (next : Entry → State × Answer) : ifEntry x.partner handle s next = (s, .no .staleHandle) := by
  rw [ifEntry, ifEnabled_of_knows known, if_pos (inRun_iff.mpr run), stale]

theorem ifEntry_resolved (known : s.knows x) (run : s.cfg.device = .run) {handle : Nat} {e : Entry}
    (resolved : s.resolve handle = some e) (next : Entry → State × Answer) : ifEntry x.partner handle s next = next e := by
  rw [ifEntry, ifEnabled_of_knows known, if_pos (inRun_iff.mpr run), resolved]

/-! ## Every request of an unknown sender, and every service request without authority 0 -/

/-- Byte 7 of a request is 0, and byte 0 is one of the catalogue's types (section 10.3). -/
theorem request_shape {c : Instr} {b : Content} (request : c.request? = some (x, b)) :
    b.b7 = 0 ∧ (b.b0.toNat ≤ 6 ∨ (16 ≤ b.b0.toNat ∧ b.b0.toNat ≤ 20) ∨ b.b0.toNat = 24 ∨ b.b0.toNat = 25
      ∨ (32 ≤ b.b0.toNat ∧ b.b0.toNat ≤ 36) ∨ (40 ≤ b.b0.toNat ∧ b.b0.toNat ≤ 44)) := by
  cases c <;> simp only [Instr.request?, Option.some.injEq, Prod.mk.injEq, reduceCtorEq] at request <;>
    (obtain ⟨rfl, rfl⟩ := request; exact ⟨rfl, by simp [requestBytes]⟩)

theorem takeRequest_unknown (disabled : ¬ (s.record p).enabled = true) {c : Instr} {b : Content}
    (request : c.request? = some (x, b)) : takeRequest p b s = (s, .no .unknownPartner) := by
  obtain ⟨zero, type⟩ := request_shape request
  rw [takeRequest, if_neg (not_not_intro zero)]
  generalize b.b0.toNat = n at *
  split
  case h_25 =>
    simp only [imp_false] at *
    omega
  all_goals exact if_neg disabled

theorem takeRequest_lacking (enabled : (s.record p).enabled = true) (lacking : (s.record p).authority ≠ 0) {c : Instr} {b : Content}
    (request : c.request? = some (x, b)) (service : 24 ≤ b.b0.toNat) : takeRequest p b s = (s, s.lacksAuthority p 0) := by
  obtain ⟨zero, type⟩ := request_shape request
  rw [takeRequest, if_neg (not_not_intro zero)]
  generalize b.b0.toNat = n at *
  split
  iterate 12 (next => omega)
  case h_25 =>
    simp only [imp_false] at *
    omega
  all_goals exact ifRoot_of_authority_ne enabled lacking _

end

/-- Settles O13: a request that is heard is `takeRequest`, and each type begins with the checks that refuse. -/
theorem sendersAreChecked : Obligations.SendersAreChecked := by
  unfold Obligations.SendersAreChecked
  refine ⟨?unknown, ?lacking, ?nop⟩
  case unknown =>
    intro c x b s request heard unknown
    rw [exec_request request, submit_heard heard, takeRequest_unknown unknown request]
    rfl
  case lacking =>
    intro c x b s request heard known service lacking
    rw [exec_request request, submit_heard heard, takeRequest_lacking known lacking request service]
    rfl
  case nop =>
    intro x tag s heard known
    rw [exec_nop_heard heard, requestNop, ifEnabled_of_knows known]
    rfl

/-! ## Handles (R21) -/

theorem resolve_eq_some_iff {s : State} {h : Nat} {e : Entry} :
    s.resolve h = some e ↔
      ∃ i : Fin 24, h = i.val * 8 + (rd s.ilt.slots i).generation.val ∧ (rd s.ilt.slots i).entry = some e := by
  constructor
  · intro resolved
    unfold State.resolve at resolved
    split at resolved
    case isFalse => simp at resolved
    case isTrue inTable =>
      dsimp only at resolved
      split at resolved
      case isFalse => simp at resolved
      case isTrue same => exact ⟨⟨h / 8, inTable⟩, by dsimp only; omega, resolved⟩
  · rintro ⟨i, rfl, entry⟩
    have generation := (rd s.ilt.slots i).generation.isLt
    exact State.resolve_of_slot (i := i) (by omega) (by omega) entry

theorem handle_injective {t : Ilt} (fits : t.Fits) {i j : Fin 24} {e f : Entry} (he : (rd t.slots i).entry = some e)
    (hf : (rd t.slots j).entry = some f) (same : e.handle = f.handle) : i = j := by
  have left := fits.handle i e he
  have right := fits.handle j f hf
  have gi := (rd t.slots i).generation.isLt
  have gj := (rd t.slots j).generation.isLt
  exact Fin.ext (by omega)

/-- Settles O14: `resolve_eq_some_iff`, and the third check of AMEND, REFRESH and RETIRE (`ifEntry_stale`); an OPEN of an OVERRIDE meets a
stale target at its check 6. -/
theorem handlesResolve : Obligations.HandlesResolve := by
  unfold Obligations.HandlesResolve
  refine ⟨fun s h e => resolve_eq_some_iff, fun s i j e f fits he hf same => handle_injective fits he hf same, ?named, ?target⟩
  case named =>
    intro x tag h g w s heard known stale
    refine ⟨?_, fun run => ⟨?_, ?_, ?_⟩⟩
    · rw [exec_query_heard heard, requestQuery, ifEnabled_of_knows known, stale]
      rfl
    · rw [exec_amend_heard heard, requestAmend, ifEntry_stale known run stale]
      rfl
    · rw [exec_refresh_heard heard, requestRefresh, ifEntry_stale known run stale]
      rfl
    · rw [exec_retire_heard heard, requestRetire, ifEntry_stale known run stale]
      rfl
  case target =>
    intro x tag h w s heard known stale run permitted authority
    have inRun : ¬ s.inRun = false := by simp [inRun_iff.mpr run]
    have allowed : ¬ (s.record x.partner).permitted.getLsbD Kind.override.code = false := by simpa [Kind.code] using permitted
    have rank : ¬ Kind.override.neededAuthority < (s.record x.partner).authority := by simpa [Kind.neededAuthority] using authority
    have admission : s.admission .override (.target h.toNat) = some (.no .staleHandle) := by
      simp only [State.admission, State.targetCheck, stale]
    have kind : Kind.ofCode (BitVec.toNat (7 : Byte)) = some .override := rfl
    have scope : s.scopeOf .override (BitVec.toNat (11 : Byte)) h.toNat = some (.target h.toNat) := rfl
    rw [exec_openEntry_heard heard, requestOpen, ifEnabled_of_knows known, kind]
    dsimp only
    rw [if_neg inRun, if_neg allowed, if_neg rank, openChecked, scope]
    dsimp only
    rw [admission]
    rfl

end Sys2Proof.Machine
end

