-- ==== Sys2Proof/Proofs/OpenChecks.lean ====
section
/-! PROOF. OPEN check by check (R49 to R54), and the statement OpenChecksInOrder. -/

namespace Sys2Proof.Machine

/-! ## OPEN, check by check (R49) -/

section
variable {x : Sender} {s : State} {kind scope handle given : Nat} {k : Kind} {sc : Scope}

/-- A request past the first four checks: a kind, the device in RUN, the kind permitted, and an authority that the kind allows. -/
structure OpensKind (x : Sender) (kind : Nat) (k : Kind) (s : State) : Prop where
  known : s.knows x
  kind : Kind.ofCode kind = some k
  run : s.cfg.device = .run
  permitted : (s.record x.partner).permitted.getLsbD k.code = true
  authority : (s.record x.partner).authority ≤ k.neededAuthority

theorem requestOpen_no_kind (known : s.knows x) (unnamed : Kind.ofCode kind = none) :
    requestOpen x.partner kind scope given handle s = (s, .no .requestInvalid) := by
  rw [requestOpen, ifEnabled_of_knows known, unnamed]

theorem requestOpen_outside_run (known : s.knows x) (named : Kind.ofCode kind = some k) (out : s.cfg.device ≠ .run) :
    requestOpen x.partner kind scope given handle s = (s, s.notReady) := by
  rw [requestOpen, ifEnabled_of_knows known, named]
  exact if_pos (by simpa [State.inRun] using out)

theorem requestOpen_not_permitted (known : s.knows x) (named : Kind.ofCode kind = some k) (run : s.cfg.device = .run)
    (refused : (s.record x.partner).permitted.getLsbD k.code = false) :
    requestOpen x.partner kind scope given handle s = (s, .withDetail .kindNotPermitted k.code) := by
  rw [requestOpen, ifEnabled_of_knows known, named]
  dsimp only
  rw [if_neg (by simp [inRun_iff.mpr run]), if_pos refused]

theorem requestOpen_lacks_authority (known : s.knows x) (named : Kind.ofCode kind = some k) (run : s.cfg.device = .run)
    (permitted : (s.record x.partner).permitted.getLsbD k.code = true)
    (lacking : k.neededAuthority < (s.record x.partner).authority) :
    requestOpen x.partner kind scope given handle s = (s, s.lacksAuthority x.partner k.neededAuthority) := by
  rw [requestOpen, ifEnabled_of_knows known, named]
  dsimp only
  rw [if_neg (by simp [inRun_iff.mpr run]), if_neg (by simp [permitted]), if_pos lacking]

theorem requestOpen_checked (opens : OpensKind x kind k s) :
    requestOpen x.partner kind scope given handle s = openChecked x.partner k scope given handle s := by
  rw [requestOpen, ifEnabled_of_knows opens.known, opens.kind]
  dsimp only
  rw [if_neg (by simp [inRun_iff.mpr opens.run]), if_neg (by simp [opens.permitted]), if_neg (by have := opens.authority; omega)]

theorem openChecked_bad_scope {p : Fin 16} (unnamed : s.scopeOf k scope handle = none) :
    openChecked p k scope given handle s = (s, .withDetail .badScope scope) := by
  simp only [openChecked, unnamed]

theorem openChecked_not_admitted {p : Fin 16} {a : Answer} (named : s.scopeOf k scope handle = some sc)
    (refusal : s.admission k sc = some a) : openChecked p k scope given handle s = (s, a) := by
  simp only [openChecked, named, refusal]

theorem openChecked_duplicate {p : Fin 16} {e : Entry} (named : s.scopeOf k scope handle = some sc)
    (admitted : s.admission k sc = none) (twin : s.duplicate k p sc = some e) :
    openChecked p k scope given handle s = (s, .refused .duplicate (some e.handle) .none 0 0) := by
  simp only [openChecked, named, admitted, twin]

theorem openChecked_conflict {p : Fin 16} {e : Entry} (named : s.scopeOf k scope handle = some sc)
    (admitted : s.admission k sc = none) (alone : s.duplicate k p sc = none) (clash : s.conflict k = some e) :
    openChecked p k scope given handle s = (s, .refused .conflict (some e.handle) .none 0 0) := by
  simp only [openChecked, named, admitted, alone, clash]

theorem openChecked_full {p : Fin 16} (named : s.scopeOf k scope handle = some sc)
    (admitted : s.admission k sc = none) (alone : s.duplicate k p sc = none) (clear : s.conflict k = none)
    (full : s.freeSlot 0 18 = none) : openChecked p k scope given handle s = (s, .withDetail .tableFull 18) := by
  simp only [openChecked, named, admitted, alone, clear, full]

theorem openChecked_carried {p : Fin 16} {slot : Fin 24} (named : s.scopeOf k scope handle = some sc)
    (admitted : s.admission k sc = none) (alone : s.duplicate k p sc = none) (clear : s.conflict k = none)
    (free : s.freeSlot 0 18 = some slot) : openChecked p k scope given handle s = carryOpen p k sc given slot s := by
  simp only [openChecked, named, admitted, alone, clear, free]

theorem freeSlot_none (lo hi : Nat) (full : ∀ i : Fin 24, lo ≤ i.val → i.val < hi → (rd s.ilt.slots i).entry.isSome = true) :
    s.freeSlot lo hi = none := by
  simp only [State.freeSlot, List.find?_eq_none]
  intro i _ free
  simp only [Bool.and_eq_true, decide_eq_true_eq, Option.isNone_iff_eq_none] at free
  obtain ⟨⟨low, high⟩, empty⟩ := free
  simpa [empty] using full i low high

end

/-! ## The scope of a request (R51) -/

section
variable {s : State} {n h : Nat}

theorem scopeOf_door {k : Kind} (door : k = .doorOpen ∨ k = .rampOut) (d : Fin 4) (fitted : d.val + 1 ≤ s.cfg.settings.doorCount) :
    s.scopeOf k (d.val + 1) h = some (.door d) := by
  have range : 1 ≤ d.val + 1 ∧ d.val + 1 ≤ 4 := by omega
  rcases door with rfl | rfl <;> simp [State.scopeOf, range, fitted]

theorem scopeOf_no_door {k : Kind} (door : k = .doorOpen ∨ k = .rampOut) (unfitted : n = 0 ∨ 4 < n ∨ s.cfg.settings.doorCount < n) :
    s.scopeOf k n h = none := by
  have absent : 1 ≤ n → n ≤ 4 → ¬ n ≤ s.cfg.settings.doorCount := by omega
  rcases door with rfl | rfl <;> simpa [State.scopeOf] using absent

theorem scopeOf_vehicle {k : Kind} (kind : k = .stopHold ∨ k = .raise ∨ k = .steerCentre ∨ k = .serviceLock) :
    s.scopeOf k n h = if n = 10 then some .vehicle else none := by
  rcases kind with rfl | rfl | rfl | rfl <;> rfl

end

/-! ## The oldest live entry of a sort -/

/-- `find?` answers the first element of a list that has the property. -/
theorem List.find?_first {α : Type} {p : α → Bool} {l before after : List α} {a : α} (split : l = before ++ a :: after)
    (has : p a = true) (first : ∀ b ∈ before, ¬ p b = true) : l.find? p = some a := by
  subst split
  rw [List.find?_append, List.find?_eq_none.mpr first, List.find?_cons_of_pos has]
  rfl

/-! ## The admission of a request (R52, R53) -/

section
variable {s : State} {sc : Scope}

theorem speedCheck_invalid (invalid : s.mot.speed = none) (bound : Nat) :
    s.speedCheck bound = some (.because .condition .speedInvalid) := by
  simp only [State.speedCheck, invalid]

theorem speedCheck_above {v bound : Nat} (speed : s.mot.speed = some v) (above : bound < v) :
    s.speedCheck bound = some (.because .condition .speed) := by
  simp only [State.speedCheck, speed, if_neg (Nat.not_le.mpr above)]

theorem speedCheck_passed {v bound : Nat} (speed : s.mot.speed = some v) (within : v ≤ bound) : s.speedCheck bound = none := by
  simp only [State.speedCheck, speed, if_pos within]

theorem standCheck_eq : s.standCheck = if s.mot.motion = .standstill then none else some (.because .condition .notStandstill) := by
  simp [State.standCheck, State.standing]

theorem absentCheck_none {k : Kind} (absent : ∀ e ∈ s.live, e.kind ≠ k) (sub : SubReason) : s.absentCheck k sub = none := by
  have none : s.live.find? (fun e => decide (e.kind = k)) = none := List.find?_eq_none.mpr (by simpa using absent)
  simp only [State.absentCheck, none]

theorem absentCheck_oldest {k : Kind} {before after : List Entry} {e : Entry} (split : s.live = before ++ e :: after)
    (kind : e.kind = k) (first : ∀ f ∈ before, f.kind ≠ k) (sub : SubReason) :
    s.absentCheck k sub = some (.refused .condition (some e.handle) sub 0 0) := by
  have found : s.live.find? (fun e => decide (e.kind = k)) = some e :=
    List.find?_first split (by simpa using kind) (by simpa using first)
  simp only [State.absentCheck, found]

theorem contactClosed_door {e : Entry} {d : Fin 4} (scope : e.scope = .door d) : s.contactClosed e = rd s.ilt.contacts d := by
  simp only [State.contactClosed, scope, Scope.door?]

theorem isDoor_iff {k : Kind} : k.isDoor = true ↔ k = .doorOpen ∨ k = .rampOut := by
  simp [Kind.isDoor]

end

/-- R52: the kinds that are bounded in speed, with their bounds. -/
theorem admission_speed {s : State} {sc : Scope} {k : Kind} {bound : Nat}
    (kind : (k = .doorOpen ∧ bound = 30) ∨ (k = .stopHold ∧ bound = 30) ∨ (k = .raise ∧ bound = 300) ∨ (k = .kneel ∧ bound = 50)) :
    (∀ a, s.speedCheck bound = some a → s.admission k sc = some a)
      ∧ (s.speedCheck bound = none → k ≠ .kneel → s.admission k sc = none) := by
  rcases kind with ⟨rfl, rfl⟩ | ⟨rfl, rfl⟩ | ⟨rfl, rfl⟩ | ⟨rfl, rfl⟩
  case inr.inr.inr => exact ⟨fun a refusal => by simp [State.admission, refusal], fun _ other => absurd rfl other⟩
  all_goals exact ⟨fun _ refusal => refusal, fun passed _ => passed⟩

theorem admission_kneel {s : State} {sc : Scope} (passed : s.speedCheck 50 = none) :
    s.admission .kneel sc = (s.absentCheck .rampOut .rampPresent).or (s.absentCheck .serviceLock .serviceLock) := by
  simp [State.admission, passed]

theorem admission_stand {s : State} {sc : Scope} {k : Kind} (kind : k = .rampOut ∨ k = .serviceLock) :
    s.admission k sc = s.standCheck := by
  rcases kind with rfl | rfl <;> rfl

/-- R53: the target of an OVERRIDE, once it resolves. -/
theorem targetCheck_resolved {s : State} {h : Nat} {e : Entry} (resolved : s.resolve h = some e) :
    s.targetCheck h =
      if e.kind.isDoor = false then some (.because .condition .targetInvalid)
      else if e.state = .covered then some (.refused .condition e.coveredBy .targetCovered 0 0)
      else if e.state ≠ .stale then some (.because .condition .targetInvalid)
      else if s.contactClosed e = false then some (.because .condition .contactOpen) else none := by
  simp only [State.targetCheck, resolved]

/-! ## The statement -/

theorem ofCode_none {n : Nat} (above : 8 ≤ n) : Kind.ofCode n = none := by
  obtain ⟨m, rfl⟩ := Nat.exists_eq_add_of_le' above
  rfl

theorem conflicts_iff {k other : Kind} :
    k.conflicts other = true ↔
      (k = .raise ∧ (other = .kneel ∨ other = .rampOut)) ∨ (k = .kneel ∧ other = .raise) ∨ (k = .rampOut ∧ other = .raise) := by
  cases k <;> simp [Kind.conflicts]

theorem duplicate_none {s : State} {k : Kind} {p : Fin 16} {sc : Scope} :
    s.duplicate k p sc = none ↔ ∀ e ∈ s.live, ¬(e.kind = k ∧ e.owner = p ∧ e.scope = sc) := by
  simp [State.duplicate]

theorem duplicate_some {s : State} {k : Kind} {p : Fin 16} {sc : Scope} {e : Entry} (twin : s.duplicate k p sc = some e) :
    e ∈ s.live ∧ e.kind = k ∧ e.owner = p ∧ e.scope = sc :=
  ⟨List.mem_of_find?_eq_some twin, by simpa using List.find?_some twin⟩

theorem conflict_none {s : State} {k : Kind} : s.conflict k = none ↔ ∀ e ∈ s.live, ¬ k.conflicts e.kind = true := by
  simp [State.conflict]

/-- Settles O15: each check of `requestOpen` and of `openChecked` in turn, then the scopes, the admission, the duplicate and the
conflict that these checks read. -/
theorem openChecksInOrder : Obligations.OpenChecksInOrder := by
  unfold Obligations.OpenChecksInOrder
  refine ⟨?checks, ?noKind, ?scopes, ?admission, ?clashes⟩
  case checks =>
    intro x tag kind scope handle w s k heard known named
    have refused : ∀ {a : Answer}, requestOpen x.partner kind.toNat scope.toNat w.toNat handle.toNat s = (s, a) →
        exec (.openEntry x tag kind scope w handle) s = .next (s.reply x tag a) := by
      intro a answered
      rw [exec_openEntry_heard heard, answered]
    refine ⟨fun out => refused (requestOpen_outside_run known named out), fun run =>
      ⟨fun no => refused (requestOpen_not_permitted known named run no), fun permitted =>
        ⟨fun lacking => refused (requestOpen_lacks_authority known named run permitted lacking), fun authority => ?_⟩⟩⟩
    have checked : ∀ {a : Answer}, openChecked x.partner k scope.toNat w.toNat handle.toNat s = (s, a) →
        exec (.openEntry x tag kind scope w handle) s = .next (s.reply x tag a) :=
      fun answered => refused ((requestOpen_checked ⟨known, named, run, permitted, authority⟩).trans answered)
    refine ⟨fun bad => checked (openChecked_bad_scope bad), fun sc isScope => ⟨fun a refusal => ?_, fun admitted =>
      ⟨fun e twin => ?_, fun alone => ⟨fun e clash => ?_, fun clear full => ?_⟩⟩⟩⟩
    · exact checked (openChecked_not_admitted isScope refusal)
    · exact checked (openChecked_duplicate isScope admitted twin)
    · exact checked (openChecked_conflict isScope admitted alone clash)
    · exact checked (openChecked_full isScope admitted alone clear (freeSlot_none 0 18 fun i _ high => full i high))
  case noKind =>
    intro x tag kind scope handle w s heard known above
    rw [exec_openEntry_heard heard, requestOpen_no_kind known (ofCode_none above)]
    rfl
  case scopes =>
    intro s n h
    refine ⟨fun k door => ⟨?_, scopeOf_no_door door⟩, rfl, fun k kind => scopeOf_vehicle kind, rfl⟩
    rintro d rfl fitted
    exact scopeOf_door door d fitted
  case admission =>
    intro s sc
    refine ⟨fun k bound kind => ?speed, fun v speed within => ?kneel, fun k kind => ?stand, rfl, fun h => ?override⟩
    case speed =>
      obtain ⟨refuses, passes⟩ := admission_speed (s := s) (sc := sc) kind
      exact ⟨fun invalid => refuses _ (speedCheck_invalid invalid bound), fun v speed =>
        ⟨fun above => refuses _ (speedCheck_above speed above), fun within => passes (speedCheck_passed speed within)⟩⟩
    case kneel =>
      rw [admission_kneel (speedCheck_passed speed within)]
      constructor
      · rintro e ⟨before, after, split, kind, first⟩
        rw [absentCheck_oldest split kind first]
        rfl
      · intro noRamp
        rw [absentCheck_none noRamp]
        constructor
        · rintro e ⟨before, after, split, kind, first⟩
          rw [absentCheck_oldest split kind first]
          rfl
        · intro noLock
          rw [absentCheck_none noLock]
          rfl
    case stand =>
      rw [admission_stand kind, standCheck_eq]
      exact ⟨fun moving => if_neg moving, fun standing => if_pos standing⟩
    case override =>
      refine ⟨fun stale => by simp only [State.admission, State.targetCheck, stale, Answer.no], fun e resolved => ?_⟩
      have check : s.admission .override (.target h) = _ := targetCheck_resolved resolved
      rw [check, ← isDoor_iff]
      refine ⟨fun other => ?_, fun door covered => ?_, fun door live => ?_, fun door stale d scope => ?_⟩
      · rw [if_pos (by simpa using other)]
        rfl
      · rw [if_neg (by simp [door]), if_pos covered]
      · have follows : e.state ≠ .covered ∧ e.state ≠ .stale := by rcases live with st | st <;> simp [st]
        rw [if_neg (by simp [door]), if_neg follows.1, if_pos follows.2]
        rfl
      · rw [if_neg (by simp [door]), if_neg (by simp [stale]), if_neg (by simp [stale]), contactClosed_door scope]
        exact ⟨fun opened => if_pos opened, fun closed => if_neg (by simp [closed])⟩
  case clashes =>
    intro s k p sc
    refine ⟨duplicate_none, fun e twin => duplicate_some twin, ?_, fun before e after split clash first => ?_⟩
    · simp only [conflict_none, conflicts_iff]
    · exact List.find?_first split (conflicts_iff.mpr clash) fun f member => mt conflicts_iff.mp (first f member)

end Sys2Proof.Machine
end

