-- ==== Sys2Proof/Proofs/Reads.lean ====
section
/-! PROOF. QUERY, LIST and the reads, answer by answer, and the statements QueryAndListAnswer and ReadsAnswer. -/

namespace Sys2Proof.Machine

section
variable {x : Sender} {s : State}

/-! ## QUERY (R43) -/

section
variable {handle group : Nat} {e : Entry}

theorem requestQuery_identity (known : s.knows x) (resolved : s.resolve handle = some e) :
    requestQuery x.partner handle 0 s = (s, .accepted (some handle) (some e.state) AnswerFlags.none e.kind.code
      (e.owner.val * 16 + e.authority) e.scopeByte) := by
  rw [requestQuery, ifEnabled_of_knows known, resolved]
  rfl

theorem requestQuery_condition (known : s.knows x) (resolved : s.resolve handle = some e) :
    requestQuery x.partner handle 1 s =
      (s, .accepted (some handle) (some e.state) { AnswerFlags.none with noDeadline := decide (e.deadline = .none) }
        (e.parameter.getD 65535 / 256) (e.parameter.getD 65535 % 256) (e.conditionByte s.now)) := by
  rw [requestQuery, ifEnabled_of_knows known, resolved]
  rfl

theorem requestQuery_no_group (known : s.knows x) (resolved : s.resolve handle = some e) (above : 1 < group) :
    requestQuery x.partner handle group s = (s, .no .requestInvalid) := by
  rw [requestQuery, ifEnabled_of_knows known, resolved]
  dsimp only
  rw [if_neg (by omega), if_neg (by omega)]

theorem conditionByte_stale (stale : e.state = .stale) (now : Nat) : e.conditionByte now = 0 := by
  simp only [Entry.conditionByte, stale]

theorem conditionByte_covered {o : Nat} (covered : e.state = .covered) (by' : e.coveredBy = some o) (now : Nat) :
    e.conditionByte now = o := by
  simp only [Entry.conditionByte, covered, by']

theorem conditionByte_follows (follows : e.state = .waiting ∨ e.state = .active) (now : Nat) :
    e.conditionByte now = e.deadline.remaining now := by
  rcases follows with st | st <;> simp only [Entry.conditionByte, st]

end

/-! ## LIST (R44) -/

theorem requestList_entry (known : s.knows x) {index : Nat} {e : Entry} (stands : s.live[index]? = some e) :
    requestList x.partner index s =
      (s, .accepted (some e.handle) (some e.state) AnswerFlags.none s.live.length e.kind.code e.owner.val) := by
  rw [requestList, ifEnabled_of_knows known, stands]

theorem requestList_beyond (known : s.knows x) {index : Nat} (beyond : s.live.length ≤ index) :
    requestList x.partner index s = (s, .accepted none none AnswerFlags.none s.live.length 0 0) := by
  rw [requestList, ifEnabled_of_knows known, List.getElem?_eq_none beyond]

/-! ## READ_MOTION, READ_CORNER, READ_AXLE, READ_STEER (section 10.5.3) -/

theorem requestReadMotion_no_part (known : s.knows x) {part : Nat} (above : 1 < part) :
    requestReadMotion x.partner part s = (s, .no .requestInvalid) := by
  rw [requestReadMotion, ifEnabled_of_knows known, if_neg (by omega), if_neg (by omega)]

theorem requestReadCorner_state (known : s.knows x) (c : Fin 6) :
    requestReadCorner x.partner c.val 0 s = (s, .body (pack 48
      [(3, (rd s.crn.corners c).state.code), (10, signedField 10 (rd s.crn.corners c).measured),
       (8, signedField 8 (rd s.crn.corners c).target), (8, (rd s.crn.corners c).reasons.code),
       (3, s.crn.place c), (3, CornerFault.code (rd s.crn.corners c).fault)])) := by
  rw [requestReadCorner, ifEnabled_of_knows known, dif_pos c.isLt]
  rfl

theorem requestReadCorner_load (known : s.knows x) (c : Fin 6) :
    requestReadCorner x.partner c.val 1 s = (s, .body (pack 48
      [(3, (rd s.crn.corners c).state.code), (16, (rd s.crn.corners c).load), (1, bit (rd s.crn.corners c).loadValid),
       (14, (rd s.crn.axles (cornerAxle c)).load), (1, bit (rd s.crn.axles (cornerAxle c)).valid), (1, bit s.crn.gateOpen)])) := by
  rw [requestReadCorner, ifEnabled_of_knows known, dif_pos c.isLt]
  rfl

theorem requestReadCorner_invalid (known : s.knows x) {corner group : Nat} (outside : 6 ≤ corner ∨ 1 < group) :
    requestReadCorner x.partner corner group s = (s, .no .requestInvalid) := by
  rw [requestReadCorner, ifEnabled_of_knows known]
  split
  case isTrue => rw [if_neg (by omega), if_neg (by omega)]
  case isFalse => rfl

/-- READ_AXLE at an axle that there is. -/
theorem requestReadAxle_axle (known : s.knows x) (a : Fin 3) (group part : Nat) :
    requestReadAxle x.partner (a.val + 1) group part s =
      (let r := rd s.brk.axles a
       if group = 0 ∧ part = 0 then
        (s, .body (pack 48 [(10, r.demandAtUpdate), (11, signedField 11 r.measured), (2, r.validity.code), (10, s.brk.driver)]))
      else if group = 0 ∧ part = 1 then
        match r.blended with
        | some b => (s, .body (pack 48 [(10, b), (10, r.loadShare.getD 1023)]))
        | none =>
          ({ s with fresh := s.fresh + 1 },
            .body (pack 48 [(10, Config.unformedBlendedShare s.fresh), (10, r.loadShare.getD 1023)]))
      else if group = 1 ∧ part = 0 then
        (s, .body (pack 48
          [(3, s.brk.hold.code), (9, s.brk.target), (1, bit s.brk.confirmed), (1, bit s.brk.windowOpen),
           (8, s.brk.selfHandle.getD 255)]))
      else (s, .no .requestInvalid)) := by
  rw [requestReadAxle, ifEnabled_of_knows known, dif_pos (by omega)]
  rfl

theorem requestReadAxle_blended (known : s.knows x) {a : Fin 3} {v : Nat} (formed : (rd s.brk.axles a).blended = some v) :
    requestReadAxle x.partner (a.val + 1) 0 1 s =
      (s, .body (pack 48 [(10, v), (10, (rd s.brk.axles a).loadShare.getD 1023)])) := by
  rw [requestReadAxle_axle known]
  dsimp only
  rw [formed]
  rfl

theorem requestReadAxle_unformed (known : s.knows x) {a : Fin 3} (none : (rd s.brk.axles a).blended = none) :
    requestReadAxle x.partner (a.val + 1) 0 1 s =
      ({ s with fresh := s.fresh + 1 },
        .body (pack 48 [(10, Config.unformedBlendedShare s.fresh), (10, (rd s.brk.axles a).loadShare.getD 1023)])) := by
  rw [requestReadAxle_axle known]
  dsimp only
  rw [none]
  rfl

theorem requestReadAxle_invalid (known : s.knows x) {axle group part : Nat}
    (outside : axle = 0 ∨ 3 < axle ∨ 1 < group ∨ 1 < part ∨ (group = 1 ∧ part = 1)) :
    requestReadAxle x.partner axle group part s = (s, .no .requestInvalid) := by
  rw [requestReadAxle, ifEnabled_of_knows known]
  split
  case isTrue =>
    dsimp only
    rw [if_neg (by omega), if_neg (by omega), if_neg (by omega)]
  case isFalse => rfl

theorem requestReadSteer_invalid (known : s.knows x) {group part : Nat}
    (outside : 1 < group ∨ 1 < part ∨ (group = 1 ∧ part = 1)) :
    requestReadSteer x.partner group part s = (s, .no .requestInvalid) := by
  rw [requestReadSteer, ifEnabled_of_knows known]
  dsimp only
  rw [if_neg (by omega), if_neg (by omega), if_neg (by omega)]

end

/-! ## The statements -/

/-- Settles O21: QUERY and LIST of a heard sender, group by group. -/
theorem queryAndListAnswer : Obligations.QueryAndListAnswer := by
  unfold Obligations.QueryAndListAnswer
  intro x tag s heard known
  refine ⟨fun handle e resolved => ⟨?identity, ?condition, fun g above => ?noGroup⟩, fun index => ⟨fun e stands => ?entry, fun beyond => ?beyond⟩⟩
  case identity =>
    rw [exec_query_heard heard, BitVec.ofNat_eq_ofNat, BitVec.toNat_ofNat, requestQuery_identity known resolved, Entry.scopeByte]
    cases e.scope <;> rfl
  case condition =>
    refine ⟨e.conditionByte s.now, ?_, fun stale => conditionByte_stale stale _, fun o covered by' => conditionByte_covered covered by' _,
      fun follows => ?_⟩
    · rw [exec_query_heard heard, BitVec.ofNat_eq_ofNat, BitVec.toNat_ofNat, requestQuery_condition known resolved]
    · rw [conditionByte_follows follows]
      cases e.deadline <;> rfl
  case noGroup =>
    rw [exec_query_heard heard, requestQuery_no_group known resolved above]
    rfl
  case entry => rw [exec_list_heard heard, requestList_entry known stands]
  case beyond => rw [exec_list_heard heard, requestList_beyond known beyond]

/-- Settles O22: each read of a heard sender, group by group and part by part. -/
theorem readsAnswer : Obligations.ReadsAnswer := by
  unfold Obligations.ReadsAnswer
  constructor
  · intro x tag s heard known
    refine ⟨?_, ?_, fun part above => ?_, fun b c named => ⟨?_, ?_⟩, fun b g outside => ?_⟩
    · rw [exec_readMotion_heard heard, requestReadMotion, ifEnabled_of_knows known]
      rfl
    · rw [exec_readMotion_heard heard, requestReadMotion, ifEnabled_of_knows known]
      rfl
    · rw [exec_readMotion_heard heard, requestReadMotion_no_part known above]
      rfl
    · rw [exec_readCorner_heard heard, named, BitVec.ofNat_eq_ofNat, BitVec.toNat_ofNat, requestReadCorner_state known]
      rfl
    · rw [exec_readCorner_heard heard, named, BitVec.ofNat_eq_ofNat, BitVec.toNat_ofNat, requestReadCorner_load known]
    · rw [exec_readCorner_heard heard, requestReadCorner_invalid known outside]
      rfl
  · intro x tag s heard known
    refine ⟨fun b a named => ⟨?_, fun v formed => ?_, fun unformed => ?_, ?_⟩, fun b g p outside => ?_, ?_, ?_, ?_,
      fun g p outside => ?_⟩
    · rw [exec_readAxle_heard heard, named, requestReadAxle_axle known]
      rfl
    · rw [exec_readAxle_heard heard, named]
      exact congrArg (fun r : State × Answer => Host.Outcome.next (State.reply x tag r.2 r.1)) (requestReadAxle_blended known formed)
    · refine ⟨Config.unformedBlendedShare s.fresh, ?_⟩
      rw [exec_readAxle_heard heard, named]
      exact congrArg (fun r : State × Answer => Host.Outcome.next (State.reply x tag r.2 r.1)) (requestReadAxle_unformed known unformed)
    · rw [exec_readAxle_heard heard, named, requestReadAxle_axle known]
      rfl
    · have outside' : b.toNat = 0 ∨ 3 < b.toNat ∨ 1 < g.toNat ∨ 1 < p.toNat ∨ (g.toNat = 1 ∧ p.toNat = 1) := by
        rcases outside with rfl | above | above | above | ⟨rfl, rfl⟩
        · exact .inl rfl
        · exact .inr (.inl above)
        · exact .inr (.inr (.inl above))
        · exact .inr (.inr (.inr (.inl above)))
        · exact .inr (.inr (.inr (.inr ⟨rfl, rfl⟩)))
      rw [exec_readAxle_heard heard, requestReadAxle_invalid known outside']
      rfl
    · rw [exec_readSteer_heard heard, requestReadSteer, ifEnabled_of_knows known]
      rfl
    · rw [exec_readSteer_heard heard, requestReadSteer, ifEnabled_of_knows known]
      rfl
    · rw [exec_readSteer_heard heard, requestReadSteer, ifEnabled_of_knows known]
      rfl
    · have outside' : 1 < g.toNat ∨ 1 < p.toNat ∨ (g.toNat = 1 ∧ p.toNat = 1) :=
        outside.imp_right (Or.imp_right fun both => ⟨by rw [both.1]; rfl, by rw [both.2]; rfl⟩)
      rw [exec_readSteer_heard heard, requestReadSteer_invalid known outside']
      rfl

end Sys2Proof.Machine
end

