-- ==== Sys2Proof/Proofs/Packing.lean ====
section
/-! PROOF. Fields packed from the top bit downward, the bytes of requests and answers, and the statement FieldsArePacked. -/

namespace Sys2Proof.Machine

/-! ## Packing (R178) -/

/-- One field packed under what is packed above it. -/
def packField (acc : Nat) (f : Nat × Nat) : Nat := acc * 2 ^ f.1 + f.2 % 2 ^ f.1

theorem packWidth_foldl (fields : List (Nat × Nat)) (n : Nat) :
    fields.foldl (fun acc f => acc + f.1) n = n + packWidth fields := by
  induction fields generalizing n with
  | nil => rfl
  | cons f fields ih =>
    rw [packWidth, List.foldl_cons, List.foldl_cons, ih, ih]
    omega

theorem packWidth_cons (f : Nat × Nat) (fields : List (Nat × Nat)) : packWidth (f :: fields) = f.1 + packWidth fields := by
  rw [packWidth, List.foldl_cons, packWidth_foldl]
  omega

theorem packWidth_append (a b : List (Nat × Nat)) : packWidth (a ++ b) = packWidth a + packWidth b := by
  rw [packWidth, List.foldl_append, packWidth_foldl]
  rfl

theorem packNat_foldl (fields : List (Nat × Nat)) (n : Nat) :
    fields.foldl packField n = n * 2 ^ packWidth fields + packNat fields := by
  induction fields generalizing n with
  | nil => simp [packWidth, packNat]
  | cons f fields ih =>
    have ih0 : packNat (f :: fields) = packField 0 f * 2 ^ packWidth fields + packNat fields := ih (packField 0 f)
    rw [List.foldl_cons, ih, ih0, packWidth_cons]
    simp only [packField, pow_add]
    ring

theorem packNat_cons (f : Nat × Nat) (fields : List (Nat × Nat)) :
    packNat (f :: fields) = f.2 % 2 ^ f.1 * 2 ^ packWidth fields + packNat fields := by
  rw [show packNat (f :: fields) = fields.foldl packField (packField 0 f) from rfl, packNat_foldl]
  simp [packField]

theorem packNat_append (a b : List (Nat × Nat)) : packNat (a ++ b) = packNat a * 2 ^ packWidth b + packNat b := by
  rw [show packNat (a ++ b) = b.foldl packField (packNat a) from List.foldl_append, packNat_foldl]

/-- The value packed fits in the fields' width. -/
theorem packNat_lt (fields : List (Nat × Nat)) : packNat fields < 2 ^ packWidth fields := by
  induction fields with
  | nil => simp [packNat, packWidth]
  | cons f fields ih =>
    rw [packNat_cons, packWidth_cons, pow_add]
    have field : f.2 % 2 ^ f.1 < 2 ^ f.1 := Nat.mod_lt _ (Nat.two_pow_pos _)
    calc f.2 % 2 ^ f.1 * 2 ^ packWidth fields + packNat fields
        < f.2 % 2 ^ f.1 * 2 ^ packWidth fields + 2 ^ packWidth fields := by omega
      _ = (f.2 % 2 ^ f.1 + 1) * 2 ^ packWidth fields := by ring
      _ ≤ 2 ^ f.1 * 2 ^ packWidth fields := Nat.mul_le_mul_right _ field

/-- A field lies at its place, counted from the top bit downward. -/
theorem pack_field {n : Nat} {before after : List (Nat × Nat)} {width value : Nat}
    (fits : packWidth (before ++ (width, value) :: after) ≤ n) :
    (pack n (before ++ (width, value) :: after)).extractLsb' (n - packWidth before - width) width = BitVec.ofNat width value := by
  have total : packWidth (before ++ (width, value) :: after) = packWidth before + width + packWidth after := by
    rw [packWidth_append, packWidth_cons]
    omega
  obtain ⟨rest, size⟩ : ∃ rest, n = packWidth before + width + packWidth after + rest := ⟨n - packWidth (before ++ (width, value) :: after), by omega⟩
  have low : packNat after * 2 ^ rest < 2 ^ (packWidth after + rest) := by
    rw [pow_add]
    exact Nat.mul_lt_mul_of_pos_right (packNat_lt after) (Nat.two_pow_pos _)
  have packed : packNat (before ++ (width, value) :: after) * 2 ^ rest
      = 2 ^ (packWidth after + rest) * (packNat before * 2 ^ width + value % 2 ^ width) + packNat after * 2 ^ rest := by
    rw [packNat_append, packNat_cons, packWidth_cons]
    simp only [pow_add]
    ring
  have bound : packNat (before ++ (width, value) :: after) * 2 ^ rest < 2 ^ n := by
    have lt := packNat_lt (before ++ (width, value) :: after)
    rw [size, ← total, pow_add]
    exact Nat.mul_lt_mul_of_pos_right lt (Nat.two_pow_pos _)
  apply BitVec.eq_of_toNat_eq
  have shift : n - packWidth before - width = packWidth after + rest := by omega
  have unused : n - packWidth (before ++ (width, value) :: after) = rest := by omega
  rw [BitVec.extractLsb'_toNat, pack, BitVec.toNat_ofNat, BitVec.toNat_ofNat, unused, Nat.mod_eq_of_lt bound, shift, packed,
    Nat.shiftRight_eq_div_pow, Nat.mul_add_div (Nat.two_pow_pos _), Nat.div_eq_of_lt low, Nat.add_zero, Nat.mul_add_mod_self_right, Nat.mod_mod]

/-- The bits left at the end are 0. -/
theorem pack_unused {n : Nat} (fields : List (Nat × Nat)) {i : Nat} (unused : i < n - packWidth fields) :
    (pack n fields).getLsbD i = false := by
  rw [pack, BitVec.getLsbD_ofNat, Nat.testBit_mul_two_pow, decide_eq_false (by omega : ¬ n - packWidth fields ≤ i)]
  simp

/-! ## Two's complement fields -/

theorem signedField_toInt {width : Nat} {v : Int} (pos : 0 < width) (low : -(2 ^ (width - 1) : Int) ≤ v) (high : v < 2 ^ (width - 1)) :
    (BitVec.ofNat width (signedField width v)).toInt = v := by
  obtain ⟨w, rfl⟩ : ∃ w, width = w + 1 := ⟨width - 1, by omega⟩
  simp only [Nat.add_sub_cancel] at low high
  have field : ((signedField (w + 1) v : Nat) : Int) = v % (2 ^ (w + 1) : Nat) :=
    Int.toNat_of_nonneg (Int.emod_nonneg _ (by positivity))
  have double : (2 : Int) ^ (w + 1) = 2 ^ w * 2 := pow_succ 2 w
  rw [BitVec.toInt_ofNat', field, Int.emod_bmod]
  apply Int.bmod_eq_of_le_mul_two <;> push_cast <;> omega

/-! ## Requests and answers -/

theorem hiByte_append_loByte (w : Word16) : hiByte w ++ loByte w = w :=
  requestBytes_parameter 0 0 0 0 0 w

/-- The six bytes of a body are its bits from the top downward. -/
theorem body_bytes (bits : BitVec 48) :
    bits.extractLsb' 40 8 ++ bits.extractLsb' 32 8 ++ bits.extractLsb' 24 8 ++ bits.extractLsb' 16 8 ++ bits.extractLsb' 8 8
      ++ bits.extractLsb' 0 8 = bits := by
  ext i hi
  simp only [BitVec.getElem_append, BitVec.getElem_extractLsb']
  split_ifs <;> rw [BitVec.getLsbD_eq_getElem (by omega)] <;> congr 1 <;> omega

/-! ## The statement -/

/-- Settles O23: a field of a pack by `pack_field`, the bytes by their definitions, and the codes one named set at a time. -/
theorem fieldsArePacked : Obligations.FieldsArePacked := by
  unfold Obligations.FieldsArePacked
  refine ⟨fun n before after width value fits => ⟨pack_field fits, fun i unused => pack_unused _ unused⟩,
    fun width v pos low high => signedField_toInt pos low high, fun type tag kind scope handle w =>
      ⟨_, rfl, rfl, rfl, rfl, rfl, hiByte_append_loByte w, rfl, rfl⟩,
    fun tag h e f sub c x y z => ⟨?accepted, ?refused⟩, fun tag body => ⟨_, rfl, rfl, rfl, body_bytes body⟩, ?codes, ?freezes, ?causes, ?flags⟩
  case accepted => cases e <;> rfl
  case refused => rfl
  case codes => exact ⟨rfl, rfl, rfl, rfl, rfl, rfl, rfl, rfl, rfl, rfl, rfl, rfl, rfl, rfl, rfl, rfl, rfl, rfl, fun _ => rfl, rfl, rfl, rfl, rfl⟩
  case freezes => exact fun f => rfl
  case causes => exact fun c => rfl
  case flags => exact fun f => rfl

end Sys2Proof.Machine
end

