-- ==== Sys2Proof/Proofs/NoticeReads.lean ====
section
/-! PROOF. The raw flag set, the requests on notices and the 32 bits of each record, and the statement NoticeRequests. -/

namespace Sys2Proof.Machine

/-! ## The raw flag set -/

/-- A set of places as a number: the sum of the powers of its members. -/
def flagSum (n : Nat) (f : Fin n → Bool) : Nat := (List.finRange n).foldl (fun acc i => if f i then acc + 2 ^ i.val else acc) 0

theorem rawFlags_eq (l : Lnk) : l.rawFlags = flagSum 14 fun i => (rd l.notices i).raised := by
  rw [Lnk.rawFlags, flagSum]

theorem flagSum_succ (n : Nat) (f : Fin (n + 1) → Bool) :
    flagSum (n + 1) f = flagSum n (fun i => f i.castSucc) + if f (Fin.last n) then 2 ^ n else 0 := by
  rw [flagSum, List.finRange_succ_last, List.foldl_append, List.foldl_map]
  simp only [List.foldl_cons, List.foldl_nil, Fin.val_castSucc, Fin.val_last]
  split <;> rfl

theorem flagSum_lt (n : Nat) (f : Fin n → Bool) : flagSum n f < 2 ^ n := by
  induction n with
  | zero => simp [flagSum]
  | succ n ih =>
    have below := ih fun i => f i.castSucc
    rw [flagSum_succ, pow_succ]
    split <;> omega

theorem flagSum_testBit (n : Nat) (f : Fin n → Bool) (i : Fin n) : (flagSum n f).testBit i.val = f i := by
  induction n with
  | zero => exact i.elim0
  | succ n ih =>
    have below := flagSum_lt n fun i => f i.castSucc
    rw [flagSum_succ]
    induction i using Fin.lastCases with
    | last =>
      rw [Fin.val_last]
      cases f (Fin.last n)
      · simp [Nat.testBit_lt_two_pow below]
      · simp [Nat.add_comm, Nat.testBit_two_pow_add_eq, Nat.testBit_lt_two_pow below]
    | cast j =>
      rw [Fin.val_castSucc, ← ih (fun i => f i.castSucc) j]
      split
      · rw [Nat.add_comm, Nat.testBit_two_pow_add_gt j.isLt]
      · rfl

theorem rawFlags_lt (l : Lnk) : l.rawFlags < 2 ^ 14 := by
  rw [rawFlags_eq]
  exact flagSum_lt 14 _

theorem rawFlags_testBit (l : Lnk) (i : Fin 14) : l.rawFlags.testBit i.val = (rd l.notices i).raised := by
  rw [rawFlags_eq, flagSum_testBit]

/-! ## READ_NOTICES, CLEAR_NOTICES and SET_NOTICE_MASK (R181) -/

section
variable {x : Sender} {s : State}

theorem requestReadNotices_flag (known : s.knows x) (i : Fin 14) :
    requestReadNotices x.partner i.val s = (s, .body (pack 48
      [(14, s.lnk.rawFlags), (1, bit (rd s.lnk.notices i).repeated), (1, bit (rd s.lnk.notices i).record.isSome),
       (32, ((rd s.lnk.notices i).record.map fun n => n.bits.toNat).getD 0)])) := by
  rw [requestReadNotices, ifEnabled_of_knows known, dif_pos i.isLt]
  cases record : (rd s.lnk.notices i).record <;> simp [record]

theorem requestReadNotices_no_flag (known : s.knows x) {flag : Nat} (above : 14 ≤ flag) :
    requestReadNotices x.partner flag s = (s, .no .requestInvalid) := by
  rw [requestReadNotices, ifEnabled_of_knows known, dif_neg (by omega)]

theorem clearFlags_notice (set : Word16) (s : State) (i : Fin 14) :
    rd (s.clearFlags set).lnk.notices i =
      if set.getLsbD i.val then { raised := false, repeated := false, record := none } else rd s.lnk.notices i := by
  simp [State.clearFlags, Lnk.judgeAttn, NoticeFlag.clear]

theorem setMask_mask (mask : Word16) (s : State) (i : Fin 14) : (s.setMask mask).lnk.mask.getLsbD i.val = mask.getLsbD i.val := by
  simp [State.setMask, Lnk.judgeAttn]

theorem clearFlags_attn (set : Word16) (s : State) :
    (s.clearFlags set).lnk.attn = true ↔
      ∃ i, (rd (s.clearFlags set).lnk.notices i).raised = true ∧ s.lnk.mask.getLsbD i.val = true := by
  simp only [State.clearFlags, State.modLnk_lnk, Lnk.judgeAttn, attnFor_iff]

theorem setMask_attn (mask : Word16) (s : State) :
    (s.setMask mask).lnk.attn = true ↔ ∃ i, (rd s.lnk.notices i).raised = true ∧ mask.getLsbD i.val = true := by
  have judged : (s.setMask mask).lnk.attn = true ↔
      ∃ i : Fin 14, (rd s.lnk.notices i).raised = true ∧ (s.setMask mask).lnk.mask.getLsbD i.val = true := by
    simp only [State.setMask, State.modLnk_lnk, Lnk.judgeAttn, attnFor_iff]
  simpa only [setMask_mask] using judged

theorem clearFlags_frame (set : Word16) (s : State) :
    s.clearFlags set = s.modLnk fun l =>
      { l with notices := (s.clearFlags set).lnk.notices, attn := (s.clearFlags set).lnk.attn } := by
  simp only [State.clearFlags, State.modLnk, Lnk.judgeAttn]

theorem setMask_frame (mask : Word16) (s : State) :
    s.setMask mask = s.modLnk fun l => { l with mask := (s.setMask mask).lnk.mask, attn := (s.setMask mask).lnk.attn } := by
  simp only [State.setMask, State.modLnk, Lnk.judgeAttn]

end

/-! ## The statement -/

/-- Settles O25: the three requests of a heard sender, the raw flag set bit by bit, and the 32 bits of each record, flag by flag. -/
theorem noticeRequests : Obligations.NoticeRequests := by
  unfold Obligations.NoticeRequests
  refine ⟨fun x tag s heard known => ⟨fun b i named => ?read, fun b above => ?noFlag, fun root => ⟨fun flags => ?clear, fun mask => ?mask⟩⟩,
    fun l => ⟨rawFlags_lt l, rawFlags_testBit l⟩, fun handle h => ?handles, ?unconfirmed, fun c r offset height => ?corners,
    fun gamma => ?joint, ?channel, ?supply, ?bank, fun partner => ?overrun, ?malformed, fun command code detail => ?fallback,
    fun sub d5 => ⟨fun none => if_pos none, fun some => if_neg some⟩⟩
  case handles =>
    refine ⟨⟨rfl, by simp only [Notice.bits]⟩, ?_, fun _ => ⟨rfl, by simp only [Notice.bits]⟩, fun _ => ⟨rfl, by simp only [Notice.bits]⟩,
      fun _ _ => ⟨rfl, by simp only [Notice.bits]⟩⟩
    intro r code pair
    have same : r.code = code := by
      simp only [List.mem_cons, Prod.mk.injEq, List.not_mem_nil, or_false] at pair
      rcases pair with ⟨rfl, rfl⟩ | ⟨rfl, rfl⟩ | ⟨rfl, rfl⟩ | ⟨rfl, rfl⟩ | ⟨rfl, rfl⟩ | ⟨rfl, rfl⟩ <;> rfl
    exact ⟨rfl, by simp only [Notice.bits, same]⟩
  case corners => exact ⟨⟨rfl, by simp only [Notice.bits]⟩, rfl, by simp only [Notice.bits]⟩
  case joint => exact ⟨rfl, by simp only [Notice.bits]⟩
  case overrun => exact ⟨rfl, by simp only [Notice.bits]⟩
  case fallback => exact ⟨rfl, by simp only [Notice.bits]⟩
  case read => rw [exec_readNotices_heard heard, named, requestReadNotices_flag known]
  case noFlag =>
    rw [exec_readNotices_heard heard, requestReadNotices_no_flag known above]
    rfl
  case clear =>
    refine ⟨s.clearFlags flags, ?_, clearFlags_notice flags s, clearFlags_attn flags s, clearFlags_frame flags s⟩
    rw [exec_clearNotices_heard heard, requestClearNotices, ifRoot_of_serves ⟨heard, known, root⟩]
    rfl
  case mask =>
    refine ⟨s.setMask mask, ?_, setMask_mask mask s, setMask_attn mask s, setMask_frame mask s⟩
    rw [exec_setNoticeMask_heard heard, requestSetMask, ifRoot_of_serves ⟨heard, known, root⟩]
    rfl
  case unconfirmed =>
    intro target a2 a3 c code pair
    have same : c.code = code := by
      simp only [List.mem_cons, Prod.mk.injEq, List.not_mem_nil, or_false] at pair
      rcases pair with ⟨rfl, rfl⟩ | ⟨rfl, rfl⟩ <;> rfl
    exact ⟨rfl, by simp only [Notice.bits, same]⟩
  case channel =>
    intro source from' sourcePair state code statePair number trips
    have sameSource : source.code = from' := by
      simp only [List.mem_cons, Prod.mk.injEq, List.not_mem_nil, or_false] at sourcePair
      rcases sourcePair with ⟨rfl, rfl⟩ | ⟨rfl, rfl⟩ | ⟨rfl, rfl⟩ <;> rfl
    have sameState : state.code = code := by
      simp only [List.mem_cons, Prod.mk.injEq, List.not_mem_nil, or_false] at statePair
      rcases statePair with ⟨rfl, rfl⟩ | ⟨rfl, rfl⟩ | ⟨rfl, rfl⟩ <;> rfl
    exact ⟨rfl, by simp only [Notice.bits, sameSource, sameState]⟩
  case supply =>
    intro cause code pair value
    have same : cause.code = code := by
      simp only [List.mem_cons, Prod.mk.injEq, List.not_mem_nil, or_false] at pair
      rcases pair with ⟨rfl, rfl⟩ | ⟨rfl, rfl⟩ | ⟨rfl, rfl⟩ <;> rfl
    exact ⟨rfl, by simp only [Notice.bits, same]⟩
  case bank =>
    intro bank taken
    refine ⟨rfl, ?_⟩
    cases taken <;> simp only [Notice.bits] <;> rfl
  case malformed =>
    intro phase code pair count
    have same : phase.code = code := by
      simp only [List.mem_cons, Prod.mk.injEq, List.not_mem_nil, or_false] at pair
      rcases pair with ⟨rfl, rfl⟩ | ⟨rfl, rfl⟩ | ⟨rfl, rfl⟩ | ⟨rfl, rfl⟩ | ⟨rfl, rfl⟩ <;> rfl
    exact ⟨rfl, by simp only [Notice.bits, same]⟩

end Sys2Proof.Machine
end

