-- ==== Sys2Proof/Proofs/EventEnd.lean ====
section
/-! PROOF. What the hand-offs and the end of an event leave, DSV's outputs, and the statements EventEndEvaluates and DriveInhibitReleases (O46, O49). -/

namespace Sys2Proof.Machine

/-! ## What the hand-offs leave

A hand-off moves CRN, RLU, BRK, STC and the commands to VDA, and nothing else. -/

/-- From the first state to the second at most CRN, RLU, BRK, STC and VDA have moved. -/
structure Blocks (s t : State) : Prop where
  pending : t.pending = s.pending
  now : t.now = s.now
  fresh : t.fresh = s.fresh
  cfg : t.cfg = s.cfg
  lnk : t.lnk = s.lnk
  ilt : t.ilt = s.ilt
  mot : t.mot = s.mot
  dsv : t.dsv = s.dsv

theorem Blocks.refl (s : State) : Blocks s s := ⟨rfl, rfl, rfl, rfl, rfl, rfl, rfl, rfl⟩

theorem Blocks.trans {s t u : State} (h : Blocks s t) (k : Blocks t u) : Blocks s u where
  pending := k.pending.trans h.pending
  now := k.now.trans h.now
  fresh := k.fresh.trans h.fresh
  cfg := k.cfg.trans h.cfg
  lnk := k.lnk.trans h.lnk
  ilt := k.ilt.trans h.ilt
  mot := k.mot.trans h.mot
  dsv := k.dsv.trans h.dsv

theorem Blocks.live {s t : State} (h : Blocks s t) : t.live = s.live := State.live_congr h.ilt

theorem Blocks.inRun {s t : State} (h : Blocks s t) : t.inRun = s.inRun := by rw [State.inRun, State.inRun, h.cfg]

section
variable {a s : State}

theorem bl_crn (f : Crn → Crn) (h : Blocks a s) : Blocks a (s.modCrn f) := h.trans ⟨rfl, rfl, rfl, rfl, rfl, rfl, rfl, rfl⟩
theorem bl_rlu (f : Rlu → Rlu) (h : Blocks a s) : Blocks a (s.modRlu f) := h.trans ⟨rfl, rfl, rfl, rfl, rfl, rfl, rfl, rfl⟩
theorem bl_brk (f : Brk → Brk) (h : Blocks a s) : Blocks a (s.modBrk f) := h.trans ⟨rfl, rfl, rfl, rfl, rfl, rfl, rfl, rfl⟩
theorem bl_stc (f : Stc → Stc) (h : Blocks a s) : Blocks a (s.modStc f) := h.trans ⟨rfl, rfl, rfl, rfl, rfl, rfl, rfl, rfl⟩
theorem bl_command (ch : Fin 18) (v : Nat) (h : Blocks a s) : Blocks a (s.command ch v) :=
  h.trans ⟨rfl, rfl, rfl, rfl, rfl, rfl, rfl, rfl⟩

theorem bl_ite {p : Prop} [Decidable p] {t u : State} (h : Blocks a t) (k : Blocks a u) : Blocks a (if p then t else u) := by
  split
  · exact h
  · exact k

theorem bl_foldl {α : Type} (l : List α) (f : State → α → State) (hf : ∀ s x, Blocks a s → Blocks a (f s x))
    (h : Blocks a s) : Blocks a (l.foldl f s) := by
  induction l generalizing s with
  | nil => exact h
  | cons x l ih => exact ih (hf s x h)

theorem bl_settle (h : Blocks a s) : Blocks a (Crn.settle s) :=
  bl_command _ _ (bl_foldl _ _ (fun _ _ k => bl_command _ _ (bl_command _ _ k)) (bl_crn _ h))
theorem bl_change (f : Fin 6 → Corner → Corner) (h : Blocks a s) : Blocks a (Crn.change f s) := bl_settle (bl_crn _ h)
theorem bl_changeOne (c : Fin 6) (f : Corner → Corner) (h : Blocks a s) : Blocks a (Crn.changeOne c f s) := bl_settle (bl_crn _ h)
theorem bl_crnFromTable (h : Blocks a s) : Blocks a (Crn.fromTable s) := bl_change _ h
theorem bl_fromChannels (h : Blocks a s) : Blocks a (Crn.fromChannels s) := bl_change _ h
theorem bl_fromDevice (h : Blocks a s) : Blocks a (Crn.fromDevice s) := bl_change _ h
theorem bl_clearFault (c : Fin 6) (h : Blocks a s) : Blocks a (Crn.clearFault c s) := bl_changeOne _ _ h

theorem bl_deriveKneel (h : Blocks a s) : Blocks a (Rlu.deriveKneel s) := bl_rlu _ h
theorem bl_judgeCurbLow (h : Blocks a s) : Blocks a (Rlu.judgeCurbLow s) := bl_rlu _ h
theorem bl_takeOffsets (ride : Nat) (kneel : Vector Nat 6) (h : Blocks a s) : Blocks a (Rlu.takeOffsets ride kneel s) :=
  bl_deriveKneel (bl_judgeCurbLow (bl_change _ (bl_rlu _ h)))
theorem bl_rluFromTable (h : Blocks a s) : Blocks a (Rlu.fromTable s) :=
  bl_ite (bl_rlu _ h) (bl_takeOffsets _ _ (bl_rlu _ h))

theorem bl_brkCommand (h : Blocks a s) : Blocks a (Brk.command s) := bl_command _ _ (bl_command _ _ (bl_command _ _ h))
theorem bl_raiseFloor (h : Blocks a s) : Blocks a (Brk.raiseFloor s) := bl_brkCommand (bl_brk _ h)
theorem bl_setWindow (b : Bool) (h : Blocks a s) : Blocks a (Brk.setWindow b s) := bl_stc _ (bl_brk _ h)
theorem bl_enterApplying (m : Nat) (h : Blocks a s) : Blocks a (Brk.enterApplying m s) :=
  bl_raiseFloor (bl_setWindow _ (bl_brk _ h))
theorem bl_enterHeld (h : Blocks a s) : Blocks a (Brk.enterHeld s) := bl_brk _ h
theorem bl_enterRamping (h : Blocks a s) : Blocks a (Brk.enterRamping s) :=
  bl_ite (bl_setWindow _ (bl_brk _ (bl_brk _ h))) (bl_brk _ h)
theorem bl_leaveWait (h : Blocks a s) : Blocks a (Brk.leaveWait s) := bl_ite (bl_enterRamping h) h
theorem bl_enterWait (h : Blocks a s) : Blocks a (Brk.enterWait s) := bl_leaveWait (bl_brk _ h)
theorem bl_reapply (m : Nat) (h : Blocks a s) : Blocks a (Brk.reapply m s) :=
  bl_ite (bl_enterHeld (bl_enterApplying m h)) (bl_enterApplying m h)
theorem bl_moveTarget (m : Nat) (h : Blocks a s) : Blocks a (Brk.moveTarget m s) :=
  bl_ite h (bl_ite (bl_raiseFloor (bl_brk _ h)) (bl_brk _ h))

theorem bl_brkJudge (h : Blocks a s) : Blocks a (Brk.judge s) := by
  unfold Brk.judge
  refine bl_ite ?_ h
  cases s.contributorMax with
  | none =>
    cases s.brk.hold with
    | released => exact h
    | applying => exact bl_enterWait h
    | held => exact bl_enterWait h
    | waitDrive => exact bl_leaveWait h
    | ramping => exact h
  | some m =>
    cases s.brk.hold with
    | released => exact bl_enterApplying m h
    | applying => exact bl_moveTarget m h
    | held => exact bl_moveTarget m h
    | waitDrive => exact bl_reapply m h
    | ramping => exact bl_reapply m h

theorem bl_markDoor (e : Entry) (h : Blocks a s) : Blocks a (Brk.markDoor e s) := bl_ite (bl_brk _ h) h
theorem bl_commandLock (h : Blocks a s) : Blocks a (Stc.commandLock s) := bl_command _ _ h
theorem bl_startCentring (h : Blocks a s) : Blocks a (Stc.startCentring s) := bl_ite (bl_commandLock (bl_stc _ h)) h

theorem bl_when {p : Prop} [Decidable p] (f : State → State) (hf : ∀ u, Blocks a u → Blocks a (f u)) (h : Blocks a s) :
    Blocks a (if p then f s else s) := bl_ite (hf s h) h

theorem bl_handOff (v : EntryEvent) (e : Entry) (h : Blocks a s) : Blocks a (handOff v e s) := by
  unfold handOff
  exact bl_when Stc.startCentring (fun _ => bl_startCentring) (bl_when Crn.fromTable (fun _ => bl_crnFromTable)
    (bl_when Rlu.fromTable (fun _ => bl_rluFromTable) (bl_when Brk.judge (fun _ => bl_brkJudge)
      (bl_when (Brk.markDoor e) (fun _ => bl_markDoor e) h))))

end

theorem handOff_blocks (v : EntryEvent) (e : Entry) (s : State) : Blocks s (handOff v e s) := bl_handOff v e (.refl s)
theorem brkJudge_blocks (s : State) : Blocks s (Brk.judge s) := bl_brkJudge (.refl s)

/-- After the table is rewritten, an evaluation is the hand-offs of its changes (R29). -/
theorem evaluate_blocks (s : State) : Blocks s.retabled (evaluate s) := bl_foldl _ _ (fun _ _ k => bl_handOff _ _ k) (.refl _)

@[simp] theorem evaluate_lnk (s : State) : (evaluate s).lnk = s.lnk := (evaluate_blocks s).lnk.trans (State.modIlt_lnk _ _)

/-! ## What an evaluation does to the table (R29, R30) -/

/-- The second entry is the first, or the first with its activation evaluated. -/
def Entry.Reviewed (e f : Entry) : Prop := f = e ∨ ∃ b, f = e.evaluated b

theorem Entry.evaluated_again (a b : Bool) (e : Entry) : (e.evaluated a).evaluated b = e.evaluated b := by
  obtain ⟨h, k, o, au, sc, p, st, u, d, c⟩ := e
  cases a <;> cases b <;> cases st <;> simp [Entry.evaluated, EntryState.follows, shownState]

theorem Entry.Reviewed.trans {e f g : Entry} (h : e.Reviewed f) (k : f.Reviewed g) : e.Reviewed g := by
  rcases h with rfl | ⟨a, rfl⟩
  · exact k
  · rcases k with rfl | ⟨b, rfl⟩
    · exact .inr ⟨a, rfl⟩
    · exact .inr ⟨b, Entry.evaluated_again a b e⟩

section
variable {e f : Entry}

theorem Entry.Reviewed.record (h : e.Reviewed f) : f.record = e.record := by
  rcases h with rfl | ⟨b, rfl⟩ <;> rfl

theorem Entry.Reviewed.coveredBy (h : e.Reviewed f) : f.coveredBy = e.coveredBy := by
  rcases h with rfl | ⟨b, rfl⟩ <;> rfl

theorem Entry.Reviewed.stopped (h : e.Reviewed f) (st : e.state = .stale ∨ e.state = .covered) : f.state = e.state := by
  rcases h with rfl | ⟨b, rfl⟩
  · rfl
  · rcases st with st | st <;> simp [Entry.evaluated, EntryState.follows, st]

theorem Entry.Reviewed.shown (h : e.Reviewed f) (st : e.state = .waiting ∨ e.state = .active) :
    f.state = .waiting ∨ f.state = .active := by
  rcases h with rfl | ⟨b, rfl⟩
  · exact st
  · cases b <;> rcases st with st | st <;> simp [Entry.evaluated, EntryState.follows, shownState, st]

end

/-- A table with every entry rewritten. -/
def Ilt.review (g : Entry → Entry) (t : Ilt) : Ilt :=
  { t with slots := mapF t.slots fun _ x => { x with entry := x.entry.map g } }

theorem Ilt.review_id (t : Ilt) : t.review (fun e => e) = t := by
  have slots : (mapF t.slots fun _ x => { x with entry := x.entry.map fun e => e }) = t.slots :=
    ext_rd fun i => by simp [Slot.map_self]
  rw [Ilt.review, slots]

theorem Ilt.review_review (f g : Entry → Entry) (t : Ilt) : (t.review f).review g = t.review (g ∘ f) := by
  simp only [Ilt.review, Ilt.mk.injEq, and_true]
  exact ext_rd fun i => by simp [Option.map_map]

/-- From the first state to the second the table keeps its order and its slots, and each entry all but its activation. -/
def Reviewed (s t : State) : Prop := ∃ g : Entry → Entry, (∀ e : Entry, e.Reviewed (g e)) ∧ t.ilt = s.ilt.review g

theorem reviewed_of_same {s t : State} (h : t.ilt = s.ilt) : Reviewed s t :=
  ⟨fun e => e, fun _ => .inl rfl, h.trans (Ilt.review_id _).symm⟩

theorem Reviewed.trans {s t u : State} (h : Reviewed s t) (k : Reviewed t u) : Reviewed s u := by
  obtain ⟨f, hf, et⟩ := h
  obtain ⟨g, hg, eu⟩ := k
  exact ⟨g ∘ f, fun e => (hf e).trans (hg (f e)), by rw [eu, et, Ilt.review_review]⟩

section
variable {s t : State}

theorem Reviewed.order (h : Reviewed s t) : t.ilt.order = s.ilt.order := by
  obtain ⟨g, _, e⟩ := h
  rw [e, Ilt.review]

theorem Reviewed.generation (h : Reviewed s t) (i : Fin 24) :
    (rd t.ilt.slots i).generation = (rd s.ilt.slots i).generation := by
  obtain ⟨g, _, e⟩ := h
  simp [e, Ilt.review]

theorem Reviewed.entry_none (h : Reviewed s t) {i : Fin 24} : (rd t.ilt.slots i).entry = none ↔ (rd s.ilt.slots i).entry = none := by
  obtain ⟨g, _, e⟩ := h
  simp [e, Ilt.review]

theorem Reviewed.entry_some (h : Reviewed s t) {i : Fin 24} {e : Entry} (there : (rd s.ilt.slots i).entry = some e) :
    ∃ f, (rd t.ilt.slots i).entry = some f ∧ e.Reviewed f := by
  obtain ⟨g, hg, eq⟩ := h
  exact ⟨g e, by simp [eq, Ilt.review, there], hg e⟩

theorem Reviewed.entry_from (h : Reviewed s t) {i : Fin 24} {f : Entry} (there : (rd t.ilt.slots i).entry = some f) :
    ∃ e, (rd s.ilt.slots i).entry = some e ∧ e.Reviewed f := by
  obtain ⟨g, hg, eq⟩ := h
  simp only [eq, Ilt.review, rd_mapF, Option.map_eq_some_iff] at there
  obtain ⟨e, he, rfl⟩ := there
  exact ⟨e, he, hg e⟩

theorem Reviewed.slot_record (h : Reviewed s t) (i : Fin 24) : (rd t.ilt.slots i).record = (rd s.ilt.slots i).record := by
  obtain ⟨g, hg, eq⟩ := h
  simp only [Slot.record, eq, Ilt.review, rd_mapF, Option.map_map]
  congr 2
  exact funext fun e => (hg e).record

end

theorem evaluate_reviewed (s : State) : Reviewed s (evaluate s) :=
  ⟨fun e => e.evaluated (s.activates e.kind e.scope), fun _ => .inr ⟨_, rfl⟩, evaluate_ilt s⟩

/-! ## The end of an event -/

theorem evaluateOnce_reviewed (s : State) : Reviewed s (evaluateOnce s) := by
  unfold evaluateOnce
  split
  · exact reviewed_of_same rfl
  · exact evaluate_reviewed s

theorem evaluateOnce_lnk (s : State) : (evaluateOnce s).lnk = s.lnk := by
  unfold evaluateOnce
  split
  · rfl
  · exact evaluate_lnk s

theorem reevaluate_reviewed (s : State) : Reviewed s (reevaluate s) := by
  unfold reevaluate
  split
  · exact ((evaluateOnce_reviewed s).trans (evaluateOnce_reviewed _)).trans (evaluateOnce_reviewed _)
  · exact reviewed_of_same rfl

theorem reevaluate_lnk (s : State) : (reevaluate s).lnk = s.lnk := by
  unfold reevaluate
  split
  · rw [evaluateOnce_lnk, evaluateOnce_lnk, evaluateOnce_lnk]
  · rfl

theorem finish_reviewed (s : State) : Reviewed s (State.finish s) :=
  (reevaluate_reviewed s).trans (reviewed_of_same (dsvJudge_ilt _))

@[simp] theorem finish_lnk (s : State) : (State.finish s).lnk = s.lnk := reevaluate_lnk s

/-! ## DSV's outputs (R73, R75, R76) -/

theorem releases_iff (s : State) (d : Fin 4) : s.releases d = true ↔
    s.cfg.device = .run ∧ d.val < s.cfg.settings.doorCount ∧ s.mot.motion = .standstill ∧ s.brk.confirmed = true ∧
      ∃ e ∈ s.live, e.owner ≠ 15 ∧ (e.kind = .doorOpen ∨ e.kind = .rampOut) ∧ e.scope = .door d ∧ e.state = .active := by
  simp only [State.releases, State.inRun, State.fitted, State.standing, Entry.partnerDoor, Entry.isSelf, Kind.isDoor,
    Bool.and_eq_true, decide_eq_true_eq, List.any_eq_true, Bool.not_eq_true', decide_eq_false_iff_not, and_assoc, ne_eq]

theorem inhibitCauses_doorEntry (s : State) : s.inhibitCauses.doorEntry = true ↔
    ∃ e ∈ s.live, (e.kind = .doorOpen ∨ e.kind = .rampOut) ∧ e.state ≠ .covered := by
  simp [State.inhibitCauses, Kind.isDoor]

theorem inhibitCauses_contactOpen (s : State) : s.inhibitCauses.contactOpen = true ↔
    ∃ d : Fin 4, d.val < s.cfg.settings.doorCount ∧ (rd s.dsv.doors d).contact.debounced = false := by
  simp [State.inhibitCauses, State.fitted]

theorem inhibitCauses_service (s : State) : s.inhibitCauses.service = true ↔ ∃ e ∈ s.live, e.kind = .serviceLock := by
  simp [State.inhibitCauses, State.anyLive]

/-- The machine is INHIBITED after a judgement exactly while a cause is present. -/
theorem judge_inhibited (now : Nat) (c : InhibitCauses) (m : InhibitMachine) :
    m.judge now c = .inhibited ↔ (c.notRun || c.doorEntry || c.contactOpen || c.service || c.curbLow) = true := by
  have none_iff : c = InhibitCauses.none ↔ (c.notRun || c.doorEntry || c.contactOpen || c.service || c.curbLow) = false := by
    obtain ⟨a, b, d, e, f⟩ := c
    simp [InhibitCauses.none, and_assoc]
  unfold InhibitMachine.judge
  split
  · rename_i h
    rw [none_iff.mp h]
    cases m <;> simp
  · rename_i h
    have present := Bool.eq_true_of_not_eq_false (mt none_iff.mpr h)
    exact ⟨fun _ => present, fun _ => rfl⟩

/-- A judgement leaves the outputs as they are derived. -/
theorem dsvJudge_outputsFit (s : State) : (Dsv.judge s).OutputsFit where
  release d := by
    rw [← releases_iff]
    simp [Dsv.judge]
    rfl
  notRun := by simp [Dsv.judge, State.inhibitCauses, State.inRun]
  doorEntry := inhibitCauses_doorEntry s
  contactOpen := by
    refine (inhibitCauses_contactOpen s).trans ?_
    simp [Dsv.judge]
  service := inhibitCauses_service s
  curbLow := rfl
  inhibited := judge_inhibited _ _ _

/-- Outputs that are what they are derived from are left by a judgement. -/
theorem dsvJudge_of_outputsFit {s : State} (h : s.OutputsFit) : Dsv.judge s = s := by
  have doors : (mapF s.dsv.doors fun d y => { y with release := s.releases d }) = s.dsv.doors := ext_rd fun d => by
    have same : s.releases d = (rd s.dsv.doors d).release := Bool.eq_iff_iff.mpr ((releases_iff s d).trans (h.release d).symm)
    rw [rd_mapF, same]
  have causes : s.inhibitCauses = s.dsv.causes := by
    have notRun : s.inhibitCauses.notRun = s.dsv.causes.notRun := Bool.eq_iff_iff.mpr
      (Iff.trans (by simp [State.inhibitCauses, State.inRun]) h.notRun.symm)
    have doorEntry := Bool.eq_iff_iff.mpr ((inhibitCauses_doorEntry s).trans h.doorEntry.symm)
    have contactOpen := Bool.eq_iff_iff.mpr ((inhibitCauses_contactOpen s).trans h.contactOpen.symm)
    have service := Bool.eq_iff_iff.mpr ((inhibitCauses_service s).trans h.service.symm)
    have curbLow : s.inhibitCauses.curbLow = s.dsv.causes.curbLow := h.curbLow.symm
    generalize s.inhibitCauses = c at *
    generalize s.dsv.causes = c' at *
    cases c
    cases c'
    simp_all
  have machine : s.dsv.machine.judge s.now s.dsv.causes = s.dsv.machine := by
    have inhibited := h.inhibited
    have judged := judge_inhibited s.now s.dsv.causes s.dsv.machine
    unfold InhibitMachine.judge at judged ⊢
    split
    · rename_i none
      cases hm : s.dsv.machine <;> simp_all [InhibitCauses.none]
    · rename_i some
      rw [if_neg some] at judged
      exact (inhibited.mpr (judged.mp rfl)).symm
  unfold Dsv.judge State.modDsv
  dsimp only
  rw [doors, causes, machine]

theorem finish_outputsFit (s : State) : (State.finish s).OutputsFit := dsvJudge_outputsFit _

/-- With every entry evaluated, the end of an event is DSV's judgement. -/
theorem finish_of_evaluated {s : State} (h : s.Evaluated) : State.finish s = Dsv.judge s :=
  finish_unmoved fun run => (evaluated_iff (of_decide_eq_true run)).mpr h

/-- Settles O46: the end of an event re-evaluates the entries of the table, whose identity stands, and judges DSV's outputs. -/
theorem eventEndEvaluates : Obligations.EventEndEvaluates := by
  unfold Obligations.EventEndEvaluates
  intro s
  have reviewed := finish_reviewed s
  refine ⟨finish_base s, finish_lnk s, reviewed.order, reviewed.slot_record, ?entries, finish_evaluated s, finish_outputsFit s,
    fun h => ?judged, fun h k => ?still⟩
  case entries =>
    intro i e f he hf
    obtain ⟨g, hg, er⟩ := reviewed.entry_some he
    obtain rfl : g = f := Option.some.inj (hg.symm.trans hf)
    exact ⟨er.stopped, er.shown, er.coveredBy⟩
  case judged =>
    rw [finish_of_evaluated h]
    rfl
  case still => rw [finish_of_evaluated h, dsvJudge_of_outputsFit k]

/-! ## The end of the drive-inhibit debounce (R76) -/

/-- Settles O49. -/
theorem driveInhibitReleases : Obligations.DriveInhibitReleases := by
  unfold Obligations.DriveInhibitReleases
  refine fun s => ⟨fun due machine causes => ?runs, fun stopped => ?stopped⟩
  case runs =>
    show execDriveInhReleaseExpiry s = _
    rw [execDriveInhReleaseExpiry, releaseDrive, machine]
    exact congrArg Host.Outcome.next (if_pos causes)
  case stopped =>
    show execDriveInhReleaseExpiry s = _
    rw [execDriveInhReleaseExpiry, releaseDrive]
    cases h : s.dsv.machine with
    | releasing due => exact absurd h (stopped due)
    | inhibited => rfl
    | free => rfl

end Sys2Proof.Machine
end

