-- ==== Sys2Proof/Proofs/Work.lean ====
section
/-! PROOF. The pieces of work that every command is a chain of. -/

namespace Sys2Proof.Machine

/-! ## The work that a command is made of

A command is a chain of the changes below. A property that each of them keeps is kept by every step, and one proof goes through the
requests, the link and the fallback line for all such properties. -/

/-- One piece of work of a command: a change that no other block sees, a reset, or a rule's own work up to the end of its event. -/
inductive Work : State → State → Prop where
  | link (f : Lnk → Lnk) (s : State) : Work s (s.modLnk f)
  | clock (now fresh : Nat) (s : State) : Work s { s with now := now, fresh := fresh }
  | registry (v : Vector PartnerRecord 16) (s : State) : Work s (s.modIlt fun t => { t with registry := v })
  | signals (f : Mot → Mot) (s : State) (motion : (f s.mot).motion = s.mot.motion) : Work s (s.modMot f)
  | doors (f : Dsv → Dsv) (s : State)
      (release : ∀ d, (rd (f s.dsv).doors d).release = (rd s.dsv.doors d).release)
      (debounced : ∀ d, d.val < s.cfg.settings.doorCount →
        (rd (f s.dsv).doors d).contact.debounced = (rd s.dsv.doors d).contact.debounced)
      (causes : (f s.dsv).causes = s.dsv.causes) (machine : (f s.dsv).machine = s.dsv.machine) : Work s (s.modDsv f)
  | refreshed (handle : Nat) (d : Deadline) (s : State) : Work s (s.updEntry handle fun x => { x with deadline := d })
  | pendingSwap (id : Option BankId) (s : State) : Work s (s.modStc fun x => { x with pendingSwap := id })
  | swap (id : BankId) (s : State) (valid : (s.stc.bank id).valid = true) : Work s (s.modStc fun x => { x with inUse := id })
  | bank (id : BankId) (b : Bank) (s : State) (fits : s.RangesFit → b.inRange)
      (unused : ¬ (s.inRun = true ∧ s.stc.inUse = id)) : Work s (s.modStc fun x => x.setBank id b)
  | setting (number place : Nat) (w : Word16) (g : Settings) (v : Int) (s : State) (device : s.cfg.device = .config)
      (write : s.cfg.settings.write number place w = some (g, v)) :
      Work s (settingWritten number (s.modCfg fun c => { c with settings := g }))
  | cold (s : State) : Work s s.coldReset
  | warm (s : State) : Work s s.warmRestart
  | start (s : State) (device : s.cfg.device = .config) (checked : s.startFailure = none) : Work s (enterRun s)
  | safe (s : State) (run : s.cfg.device = .run) : Work s (enterSafe s)
  | opens (p : Fin 16) (k : Kind) (scope : Scope) (given : Nat) (slot : Fin 24) (s : State) :
      Work s (carryOpen p k scope given slot s).1
  | amend (e : Entry) (handle given : Nat) (s : State) (there : s.resolve handle = some e) :
      Work s (State.finish (handAmended e (s.updEntry handle fun x => { x with parameter := (e.kind.fitParameter given).1 })))
  | revive (e : Entry) (s : State) : Work s (revive e s)
  | retire (e : Entry) (s : State) : Work s (State.finish (retireEntry none e s))
  | clearCorner (c : Fin 6) (s : State) : Work s (State.finish (Crn.clearFault c s))
  | clearLatch (s : State) : Work s (State.finish (Stc.clearLatch s))
  | channel (ch : Fin 18) (f : Channel → Channel) (s : State)
      (command : (f (rd s.vda.channels ch)).command = (rd s.vda.channels ch).command) : Work s (channelEvent ch f s)
  | temperature (degrees : Int) (s : State) :
      Work s (State.finish (sampleTemperature degrees (s.modVda fun v => { v with lastTemp := s.now })))
  | supply (tenths : Nat) (s : State) :
      Work s (State.finish (sampleSupply tenths (s.modVda fun v => { v with lastSupply := s.now })))
  | sample (c : Fin 21) (raw : BitVec 12) (s : State) : Work s (sampleAnalog c raw s)
  | speedUpdate (s : State) : Work s (speedUpdate s)
  | lineSettles (l : DriveLine) (s : State) : Work s (lineSettles l s)
  | expire (e : Entry) (s : State) : Work s (State.finish (expireEntry e s))
  | contactSettles (d : Fin 4) (s : State) :
      Work s (State.finish (Dsv.supervise d (handContact d (Dsv.changeDoor d (fun x => { x with contact := x.contact.settle }) s))))
  | releaseDrive (s : State) : Work s (releaseDrive s)
  | cornerUpdate (c : Fin 6) (s : State) : Work s (cornerUpdateAt c s)
  | brakeUpdate (s : State) : Work s (State.finish (brakesMove s))
  | steeringUpdate (s : State) : Work s (State.finish (steeringMoves s))

/-- A chain of such changes. -/
def Works : State → State → Prop := Relation.ReflTransGen Work

/-- A relation that holds of each piece of work, and of chains, holds of every chain of work. -/
theorem Works.keeps {K : State → State → Prop} (refl : ∀ s, K s s) (trans : ∀ {s t u}, K s t → K t u → K s u)
    (work : ∀ {s t}, Work s t → K s t) {s t : State} (h : Works s t) : K s t := by
  induction h with
  | refl => exact refl s
  | tail _ last ih => exact trans ih (work last)

section
variable {a s : State}

theorem Works.then {t : State} (h : Works a s) (w : Work s t) : Works a t := Relation.ReflTransGen.tail h w

theorem wk_post (n : Notice) (h : Works a s) : Works a (s.post n) := h.then (.link _ s)
theorem wk_advance (n : Nat) (h : Works a s) : Works a (s.advanceTo n) := h.then (.clock _ s.fresh s)
theorem wk_changeFbl (f : Fbl → Fbl) (h : Works a s) : Works a (Dsv.changeFbl f s) :=
  h.then (.doors _ s (fun _ => rfl) (fun _ _ => rfl) rfl rfl)

/-- What a request leaves is a chain of work. -/
def Answered (a : State) (r : State × Answer) : Prop := Works a r.1

/-! ### Requests -/

theorem wk_ite {p : Prop} [Decidable p] {t u : State} (h : Works a t) (k : Works a u) : Works a (if p then t else u) := by
  split
  · exact h
  · exact k

theorem an_ite {p : Prop} [Decidable p] {r q : State × Answer} (h : p → Answered a r) (k : ¬ p → Answered a q) :
    Answered a (if p then r else q) := by
  split
  · exact h ‹_›
  · exact k ‹_›

theorem an_ifEnabled {p : Fin 16} {r : State × Answer} (h : Works a s) (k : Answered a r) : Answered a (ifEnabled p s r) :=
  an_ite (fun _ => k) fun _ => h
theorem an_ifRoot {p : Fin 16} {r : State × Answer} (h : Works a s) (k : Answered a r) : Answered a (ifRoot p s r) :=
  an_ifEnabled h (an_ite (fun _ => k) fun _ => h)

theorem an_ifEntry {p : Fin 16} {n : Nat} {f : Entry → State × Answer} (h : Works a s)
    (k : ∀ e, s.resolve n = some e → Answered a (f e)) : Answered a (ifEntry p n s f) := by
  refine an_ifEnabled h (an_ite (fun _ => ?_) fun _ => h)
  split
  case h_1 e there => exact k e there
  case h_2 => exact h

theorem an_openChecked (p : Fin 16) (k : Kind) (sc given n : Nat) (h : Works a s) : Answered a (openChecked p k sc given n s) := by
  unfold openChecked
  split
  case h_1 => exact h
  case h_2 =>
    split
    case h_1 => exact h
    case h_2 =>
      split
      case h_1 => exact h
      case h_2 =>
        split
        case h_1 => exact h
        case h_2 =>
          split
          case h_1 => exact h
          case h_2 => exact h.then (.opens ..)

theorem an_open (p : Fin 16) (k sc given n : Nat) (h : Works a s) : Answered a (requestOpen p k sc given n s) := by
  refine an_ifEnabled h ?_
  split
  case h_1 => exact h
  case h_2 => exact an_ite (fun _ => h) fun _ => an_ite (fun _ => h) fun _ => an_ite (fun _ => h) fun _ => an_openChecked p _ _ _ _ h

/-- The parameter an entry has already is no change. -/
theorem updEntry_same {handle : Nat} {e : Entry} {f : Entry → Entry} (there : s.resolve handle = some e) (same : f e = e) :
    s.updEntry handle f = s := by
  unfold State.updEntry
  split
  case isFalse => rfl
  case isTrue h =>
    have slot : (if handle % 8 = (rd s.ilt.slots ⟨handle / 8, h⟩).generation.val
        then { rd s.ilt.slots ⟨handle / 8, h⟩ with entry := (rd s.ilt.slots ⟨handle / 8, h⟩).entry.map f }
        else rd s.ilt.slots ⟨handle / 8, h⟩) = rd s.ilt.slots ⟨handle / 8, h⟩ := by
      unfold State.resolve at there
      rw [dif_pos h] at there
      dsimp only at there
      split
      case isFalse => rfl
      case isTrue generation =>
        rw [if_pos generation] at there
        rw [there, Option.map_some, same, ← there]
    have slots : (upd s.ilt.slots ⟨handle / 8, h⟩ fun slot =>
        if handle % 8 = slot.generation.val then { slot with entry := slot.entry.map f } else slot) = s.ilt.slots := by
      refine ext_rd fun i => ?_
      rw [rd_upd]
      split
      case isTrue at_ =>
        subst at_
        exact slot
      case isFalse => rfl
    unfold State.modIlt
    dsimp only
    rw [slots]

theorem an_amend (p : Fin 16) (n given : Nat) (h : Works a s) : Answered a (requestAmend p n given s) := by
  refine an_ifEntry h fun e there => an_ite (fun _ => h) fun _ => an_ite (fun _ => h) fun _ => an_ite (fun _ => h) fun _ => ?_
  show Works a (if (e.kind.fitParameter given).1 = e.parameter then _ else _)
  split
  case isTrue same =>
    rw [updEntry_same there (by rw [same])]
    exact h
  case isFalse => exact h.then (.amend e n given s there)

theorem an_refresh (p : Fin 16) (n : Nat) (h : Works a s) : Answered a (requestRefresh p n s) :=
  an_ifEntry h fun e _ => an_ite (fun _ => h) fun _ => an_ite (fun _ => h) fun _ =>
    an_ite (fun _ => h.then (.refreshed ..)) fun _ => h.then (.revive e s)

theorem an_retire (p : Fin 16) (n : Nat) (h : Works a s) : Answered a (requestRetire p n s) := by
  refine an_ifEntry h fun e _ => ?_
  split
  case h_1 => exact h
  case h_2 => exact h.then (.retire e s)

theorem an_query (p : Fin 16) (n g : Nat) (h : Works a s) : Answered a (requestQuery p n g s) := by
  refine an_ifEnabled h ?_
  split
  case h_1 => exact h
  case h_2 => exact an_ite (fun _ => h) fun _ => an_ite (fun _ => h) fun _ => h

theorem an_list (p : Fin 16) (n : Nat) (h : Works a s) : Answered a (requestList p n s) := by
  refine an_ifEnabled h ?_
  split
  case h_1 => exact h
  case h_2 => exact h

theorem an_writeRegistry (p : Fin 16) (n : Nat) (r k : Byte) (w : Nat) (h : Works a s) :
    Answered a (requestWriteRegistry p n r k w s) :=
  an_ifRoot h (an_ite (fun _ => h) fun _ => an_ite (fun _ => h) fun _ => h.then (.registry _ s))

theorem an_readMotion (p : Fin 16) (n : Nat) (h : Works a s) : Answered a (requestReadMotion p n s) :=
  an_ifEnabled h (an_ite (fun _ => h) fun _ => an_ite (fun _ => h) fun _ => h)

theorem an_readCorner (p : Fin 16) (c g : Nat) (h : Works a s) : Answered a (requestReadCorner p c g s) := by
  refine an_ifEnabled h ?_
  split
  case isTrue => exact an_ite (fun _ => h) fun _ => an_ite (fun _ => h) fun _ => h
  case isFalse => exact h

theorem an_readAxle (p : Fin 16) (x g n : Nat) (h : Works a s) : Answered a (requestReadAxle p x g n s) := by
  refine an_ifEnabled h ?_
  split
  case isFalse => exact h
  case isTrue =>
    refine an_ite (fun _ => h) fun _ => an_ite (fun _ => ?_) fun _ => an_ite (fun _ => h) fun _ => h
    split
    case h_1 => exact h
    case h_2 => exact h.then (.clock s.now _ s)

theorem an_readSteer (p : Fin 16) (g n : Nat) (h : Works a s) : Answered a (requestReadSteer p g n s) :=
  an_ifEnabled h (an_ite (fun _ => h) fun _ => an_ite (fun _ => h) fun _ => an_ite (fun _ => h) fun _ => h)

theorem an_readNotices (p : Fin 16) (n : Nat) (h : Works a s) : Answered a (requestReadNotices p n s) := by
  refine an_ifEnabled h ?_
  split
  case isTrue => exact h
  case isFalse => exact h

theorem an_clearNotices (p : Fin 16) (w : Word16) (h : Works a s) : Answered a (requestClearNotices p w s) :=
  an_ifRoot h (h.then (t := s.clearFlags w) (.link _ s))
theorem an_setMask (p : Fin 16) (w : Word16) (h : Works a s) : Answered a (requestSetMask p w s) :=
  an_ifRoot h (h.then (t := s.setMask w) (.link _ s))

theorem an_clearCorner (p : Fin 16) (c : Nat) (h : Works a s) : Answered a (requestClearCorner p c s) := by
  refine an_ifRoot h (an_ite (fun _ => h) fun _ => ?_)
  split
  case isFalse => exact h
  case isTrue =>
    dsimp only
    split
    case h_1 => exact h
    case h_2 => exact wk_ite (h.then (.clearCorner _ s)) h

theorem an_clearChannel (p : Fin 16) (c : Nat) (h : Works a s) : Answered a (requestClearChannel p c s) := by
  refine an_ifRoot h (an_ite (fun _ => h) fun _ => ?_)
  split
  case isTrue => exact wk_ite (h.then (.channel _ _ s ((proper_clear s.now).command _))) h
  case isFalse => exact h

theorem an_clearSteerFault (p : Fin 16) (h : Works a s) : Answered a (requestClearSteerFault p s) := by
  refine an_ifRoot h (an_ite (fun _ => h) fun _ => ?_)
  split
  case h_1 => exact h
  case h_2 => exact wk_ite (h.then (.clearLatch s)) h

theorem an_swapBank (p : Fin 16) (h : Works a s) : Answered a (requestSwapBank p s) := by
  refine an_ifRoot h (an_ite (fun _ => h) fun _ => an_ite (fun _ => h) fun _ => an_ite (fun _ => h.then (.pendingSwap none s))
    fun _ => an_ite (fun _ => h) fun valid => ?_)
  exact wk_ite (wk_post _ (h.then (.swap _ s (Bool.eq_true_of_not_eq_false valid)))) (h.then (.pendingSwap _ s))

theorem an_writeBankRow (p : Fin 16) (bf : Byte) (row : Nat) (v : Word16) (h : Works a s) :
    Answered a (requestWriteBankRow p bf row v s) := by
  refine an_ifRoot h (an_ite (fun _ => h) fun _ => ?_)
  dsimp only
  split
  case h_1 => exact h
  case h_2 b stored write =>
    refine an_ite (fun _ => h) fun unused => an_ite (fun _ => h) fun _ => h.then (.bank _ b s (fun ranges => ?_) unused)
    refine Bank.write_inRange write ?_
    split
    · exact ranges.2.2
    · exact ranges.2.1

theorem an_writeSetting (p : Fin 16) (n place : Nat) (v : Word16) (h : Works a s) :
    Answered a (requestWriteSetting p n place v s) := by
  refine an_ifRoot h (an_ite (fun _ => h) fun device => ?_)
  split
  case h_1 => exact h
  case h_2 write => exact h.then (.setting n place v _ _ s (not_not.mp device) write)

theorem an_start (p : Fin 16) (h : Works a s) : Answered a (requestStart p s) := by
  refine an_ifRoot h (an_ite (fun _ => h) fun device => ?_)
  split
  case h_1 => exact h
  case h_2 checked => exact h.then (.start s (not_not.mp device) checked)

theorem an_restart (p : Fin 16) (h : Works a s) : Answered a (requestRestart p s) :=
  an_ifRoot h (an_ite (fun _ => h) fun _ => h.then (.warm s))

theorem an_enterSafe (p : Fin 16) (h : Works a s) : Answered a (requestEnterSafe p s) := by
  refine an_ifRoot h ?_
  split
  case h_1 => exact h
  case h_2 run => exact h.then (.safe s run)
  case h_3 => exact h

theorem an_request (p : Fin 16) (c : Content) (h : Works a s) : Answered a (takeRequest p c s) := by
  unfold takeRequest
  refine an_ite (fun _ => h) fun _ => ?_
  split
  case h_1 => exact an_ifEnabled h h
  case h_2 => exact an_open _ _ _ _ _ h
  case h_3 => exact an_amend _ _ _ h
  case h_4 => exact an_refresh _ _ h
  case h_5 => exact an_retire _ _ h
  case h_6 => exact an_query _ _ _ h
  case h_7 => exact an_list _ _ h
  case h_8 => exact an_readMotion _ _ h
  case h_9 => exact an_readCorner _ _ _ h
  case h_10 => exact an_readAxle _ _ _ _ h
  case h_11 => exact an_readSteer _ _ _ h
  case h_12 => exact an_readNotices _ _ h
  case h_13 => exact an_clearNotices _ _ h
  case h_14 => exact an_setMask _ _ h
  case h_15 => exact an_clearCorner _ _ h
  case h_16 => exact an_clearChannel _ _ h
  case h_17 => exact an_clearSteerFault _ h
  case h_18 => exact an_swapBank _ h
  case h_19 => exact an_writeBankRow _ _ _ _ h
  case h_20 => exact an_writeSetting _ _ _ _ h
  case h_21 => exact an_writeRegistry _ _ _ _ _ h
  case h_22 => exact an_start _ h
  case h_23 => exact an_restart _ h
  case h_24 => exact an_enterSafe _ h
  case h_25 => exact h

/-! ### The link and the fallback line -/

theorem wk_takeFrame (h : Works a s) : Works a (takeFrame s) := by
  unfold takeFrame
  split
  case h_1 f rest _ _ => exact Works.then (an_request (Fin.ofNat 16 f.partner) f.content (h.then (.link _ s))) (.link _ _)
  case h_2 => exact h
  case h_3 => exact h

theorem wk_arrive (n : Nat) (c : Content) (h : Works a s) : Works a (arrive n c s) := by
  unfold arrive
  split
  case isTrue => exact wk_post _ h
  case isFalse =>
    have queued := h.then (.link (fun l => { l with queue := l.queue ++ [{ partner := n, content := c }] }) s)
    exact wk_ite (wk_takeFrame queued) queued

theorem wk_receiveFrame (f : CanFrame) (h : Works a s) : Works a (receiveFrame f s) := by
  unfold receiveFrame
  split
  case h_1 => exact wk_arrive _ _ h
  case h_2 => exact h
  case h_3 => exact h

theorem wk_takeFromHost (c : Content) (h : Works a s) : Works a (takeFromHost c s) := by
  unfold takeFromHost
  exact Works.then (an_request 0 c h) (.link _ _)

theorem wk_takeFromLine (n : Nat) (c : Content) (h : Works a s) : Works a (takeFromLine n c s) := by
  unfold takeFromLine
  dsimp only
  split
  case h_1 => exact wk_post _ (an_request 14 c h)
  case h_2 => exact an_request 14 c h
  case h_3 => exact an_request 14 c h

theorem wk_submit (x : Sender) (c : Content) (h : Works a s) : Works a (submit x c s) := by
  unfold submit
  split
  case h_1 => exact wk_takeFromHost c h
  case h_2 => exact wk_ite (wk_arrive _ _ h) h
  case h_3 => exact wk_takeFromLine _ _ h

theorem wk_frameSent (h : Works a s) : Works a (frameSent s) := by
  unfold frameSent
  split
  case h_1 => exact h
  case h_2 =>
    split
    case h_1 => exact h.then (.link _ s)
    case h_2 => exact h.then (.link _ s)
    case h_3 => exact wk_takeFrame (h.then (.link _ s))

theorem wk_abandonAnswer (h : Works a s) : Works a (abandonAnswer s) := by
  unfold abandonAnswer
  split
  case h_1 => exact wk_takeFrame ((wk_advance _ h).then (.link _ _))
  case h_2 => exact h

theorem wk_selectWithdrawn (l : List Byte) (h : Works a s) : Works a (selectWithdrawn l s) := by
  unfold selectWithdrawn
  refine wk_ite h ?_
  have judged := h.then (.link (fun l => { l with shifting := none }) s)
  dsimp only
  split
  case h_1 => exact wk_takeFromHost _ judged
  case h_2 => exact judged.then (.link _ _)
  case h_3 => exact judged.then (.link _ _)

theorem wk_toggle (n : Nat) (k : Kind) (sc : Scope) (h : Works a s) : Works a (toggle n k sc s) := by
  unfold toggle
  split
  case h_1 => exact wk_takeFromLine _ _ h
  case h_2 => exact wk_takeFromLine _ _ h

theorem wk_acknowledgeDoor (d : Fin 4) (h : Works a s) : Works a (acknowledgeDoor d s) := by
  unfold acknowledgeDoor
  split
  case h_1 => exact wk_ite (wk_takeFromLine _ _ h) h
  case h_2 => exact h

theorem wk_foldl {α : Type} (l : List α) (f : State → α → State) (hf : ∀ s x, Works a s → Works a (f s x))
    (h : Works a s) : Works a (l.foldl f s) := by
  induction l generalizing s with
  | nil => exact h
  | cons x l ih => exact ih (hf s x h)

theorem wk_carryOut (n : Nat) (h : Works a s) : Works a (carryOut n s) := by
  unfold carryOut
  split
  case h_1 => exact wk_toggle _ _ _ h
  case h_2 => exact wk_toggle _ _ _ h
  case h_3 => exact wk_foldl _ _ (fun _ d k => wk_acknowledgeDoor d k) h
  case h_4 => exact wk_toggle _ _ _ h
  case h_5 => exact h

theorem wk_malformed (p : FblPhase) (h : Works a s) : Works a (malformed p s) := wk_post _ (wk_changeFbl _ h)

theorem wk_endCommand (h : Works a s) : Works a (endCommand s) :=
  wk_ite (wk_post _ (wk_changeFbl _ h)) (wk_carryOut _ (wk_changeFbl _ h))

theorem wk_runOut (h : Works a s) : Works a (runOut s) := by
  unfold runOut
  cases s.dsv.fbl.state with
  | idle => exact h
  | start => exact wk_malformed _ h
  | gap => exact wk_malformed _ h
  | pulse => exact wk_malformed _ h
  | space => exact wk_endCommand h
  | recover => exact wk_changeFbl _ h

theorem wk_lineFalls (h : Works a s) : Works a (lineFalls s) := by
  have low : Works a (Dsv.changeFbl (fun f => { f with level := false }) s) := wk_changeFbl _ h
  unfold lineFalls
  dsimp only
  cases s.dsv.fbl.state with
  | idle => exact wk_changeFbl _ low
  | start => exact low
  | gap => exact wk_ite (wk_malformed _ low) (wk_changeFbl _ low)
  | pulse => exact low
  | space => exact wk_ite (wk_changeFbl _ low) (wk_malformed _ low)
  | recover => exact wk_changeFbl _ low

theorem wk_lineRises (h : Works a s) : Works a (lineRises s) := by
  have high : Works a (Dsv.changeFbl (fun f => { f with level := true }) s) := wk_changeFbl _ h
  unfold lineRises
  dsimp only
  cases s.dsv.fbl.state with
  | idle => exact high
  | start => exact wk_ite (wk_changeFbl _ high) (wk_ite (wk_malformed _ high) (wk_changeFbl _ high))
  | gap => exact high
  | pulse => exact wk_ite (wk_malformed _ high) (wk_changeFbl _ high)
  | space => exact high
  | recover => exact wk_changeFbl _ high

theorem wk_lineEdge (level : Bool) (h : Works a s) : Works a (lineEdge level s) := by
  refine wk_ite h ?_
  have settled := wk_ite (p := s.dsv.fbl.overdue s.now = true) (wk_runOut h) h
  exact wk_ite (wk_lineRises settled) (wk_lineFalls settled)

theorem wk_phaseTimeout (h : Works a s) : Works a (phaseTimeout s) := by
  unfold phaseTimeout
  split
  case h_1 => exact wk_runOut (wk_advance _ h)
  case h_2 => exact h

theorem wk_deadline (n : Nat) (h : Works a s) : Works a (deadlineRunsOut n s) := by
  unfold deadlineRunsOut
  split
  case h_1 => exact h
  case h_2 =>
    split
    case h_1 => exact (wk_advance _ h).then (.expire _ _)
    case h_2 => exact h
    case h_3 => exact h
    case h_4 => exact h

theorem wk_contactSettles (d : Fin 4) (h : Works a s) : Works a (contactSettles d s) := by
  unfold contactSettles
  dsimp only
  split
  case isTrue => exact h.then (.contactSettles d s)
  case isFalse unfitted =>
    refine h.then (.doors _ s (fun e => ?_) (fun e fitted => ?_) rfl rfl)
    · rw [rd_upd]
      split
      case isTrue same => rw [same]
      case isFalse => rfl
    · have other : d ≠ e := fun same => unfitted (same ▸ decide_eq_true fitted)
      rw [rd_upd_other _ _ _ _ other]

theorem wk_contactLevel (d : Fin 4) (f : InputLine → InputLine) (keeps : ∀ l, (f l).debounced = l.debounced)
    (h : Works a s) : Works a (Dsv.changeDoor d (fun x => { x with contact := f x.contact }) s) := by
  refine h.then (.doors _ s (fun e => ?_) (fun e _ => ?_) rfl rfl)
  · rw [rd_upd]
    split
    case isTrue same => rw [same]
    case isFalse => rfl
  · rw [rd_upd]
    split
    case isTrue same =>
      rw [← same]
      exact keeps _
    case isFalse => rfl

theorem setLevel_debounced (now : Nat) (level : Bool) (l : InputLine) : (l.setLevel now level).debounced = l.debounced := by
  unfold InputLine.setLevel
  split
  · rfl
  · rfl

end

/-- What a command comes to is a chain of work. -/
theorem effect_works {s t : State} (effect : Effect s t) : Works s t := by
  have r : Works s s := .refl
  cases effect with
  | nothing => exact r
  | request x c => exact wk_submit x c r
  | reset => exact r.then (.cold s)
  | frameArrives f => exact wk_receiveFrame f r
  | frameSent => exact wk_frameSent r
  | answerAbandoned => exact wk_abandonAnswer r
  | selectAsserted => exact r.then (.link _ s)
  | selectWithdrawn l => exact wk_selectWithdrawn l r
  | broadcast n => exact (wk_advance n r).then (.link _ _)
  | sample c raw => exact (wk_advance _ r).then (.sample c raw _)
  | wheelEdge w f => exact r.then (.signals _ s rfl)
  | speedUpdate => exact ((wk_advance _ r).then (.signals _ _ rfl)).then (.speedUpdate _)
  | lineLevel l level => exact r.then (.signals _ s (by cases l <;> rfl))
  | lineSettles l n => exact (wk_advance n r).then (.lineSettles l _)
  | deadline h => exact wk_deadline h r
  | contactLevel d level => exact wk_contactLevel d _ (setLevel_debounced _ _) r
  | contactSettles d n => exact wk_contactSettles d (wk_advance n r)
  | releaseDrive => exact r.then (.releaseDrive s)
  | fblEdge level => exact wk_lineEdge level r
  | fblTimeout => exact wk_phaseTimeout r
  | cornerUpdate c => exact r.then (.cornerUpdate c s)
  | brakeUpdate => exact r.then (.brakeUpdate s)
  | steeringUpdate => exact r.then (.steeringUpdate s)
  | channel ch f n proper => exact (wk_advance n r).then (.channel ch f _ proper.1)
  | temperature d n => exact (wk_advance n r).then (.temperature d _)
  | supply n => exact (wk_advance _ r).then (.supply n _)

/-- A property that every piece of work keeps is kept by every step. -/
theorem step_keeps_work {P : State → Prop} {s t : State} (stepped : step s = .next t) (queue : ∀ rest, P s → P { s with pending := rest })
    (work : ∀ {u v}, Work u v → P u → P v) (holds : P s) : P t :=
  step_keeps stepped queue
    (fun _ _ _ ran => Works.keeps (K := fun u v => P u → P v) (fun _ h => h) (fun h k p => k (h p)) work
      (effect_works (exec_effect ran)))
    (work (.clock _ _ s)) holds

end Sys2Proof.Machine
end

