-- ==== Sys2Proof/Proofs/StepOutputs.lean ====
section
/-! PROOF. What the outputs and the activation conditions read, and the statement StepKeepsOutputs (O10). -/

namespace Sys2Proof.Machine

/-! ## The outputs and the evaluation read little of the state -/

/-- What DSV's outputs and an entry's activation read of an entry. -/
def Entry.view (e : Entry) : Kind × Fin 16 × Scope × EntryState × Bool := (e.kind, e.owner, e.scope, e.state, e.underlying)

/-- Two states that DSV's outputs and the activation conditions do not tell apart. -/
structure SameView (s t : State) : Prop where
  device : t.cfg.device = s.cfg.device
  doorCount : t.cfg.settings.doorCount = s.cfg.settings.doorCount
  side : s.cfg.device = .run → t.cfg.settings.curbRight = s.cfg.settings.curbRight
  motion : t.mot.motion = s.mot.motion
  confirmed : t.brk.confirmed = s.brk.confirmed
  live : t.live.map Entry.view = s.live.map Entry.view
  release : ∀ d, (rd t.dsv.doors d).release = (rd s.dsv.doors d).release
  debounced : ∀ d, d.val < s.cfg.settings.doorCount →
    (rd t.dsv.doors d).contact.debounced = (rd s.dsv.doors d).contact.debounced
  causes : t.dsv.causes = s.dsv.causes
  inhibited : t.dsv.machine = .inhibited ↔ s.dsv.machine = .inhibited
  rlu : t.rlu = s.rlu
  crn : t.crn = s.crn

section
variable {s t : State}

/-- An entry of a view stands in the one table exactly when one stands in the other. -/
theorem SameView.ex (h : SameView s t) (P : Kind × Fin 16 × Scope × EntryState × Bool → Prop) :
    (∃ e ∈ t.live, P e.view) ↔ ∃ e ∈ s.live, P e.view := by
  have viewed : ∀ u : State, (∃ e ∈ u.live, P e.view) ↔ ∃ v ∈ u.live.map Entry.view, P v := fun u => by simp
  rw [viewed, viewed, h.live]

theorem SameView.outputsFit (h : SameView s t) (fits : s.OutputsFit) : t.OutputsFit where
  release d := by
    rw [h.release, fits.release, h.device, h.doorCount, h.motion, h.confirmed]
    have entries := h.ex fun v => v.2.1 ≠ 15 ∧ (v.1 = .doorOpen ∨ v.1 = .rampOut) ∧ v.2.2.1 = .door d ∧ v.2.2.2.1 = .active
    exact and_congr_right fun _ => and_congr_right fun _ => and_congr_right fun _ => and_congr_right fun _ => entries.symm
  notRun := by rw [h.causes, h.device]; exact fits.notRun
  doorEntry := by
    rw [h.causes, fits.doorEntry]
    exact (h.ex fun v => (v.1 = .doorOpen ∨ v.1 = .rampOut) ∧ v.2.2.2.1 ≠ .covered).symm
  contactOpen := by
    rw [h.causes, fits.contactOpen, h.doorCount]
    exact exists_congr fun d => and_congr_right fun fitted => by rw [h.debounced d fitted]
  service := by
    rw [h.causes, fits.service]
    exact (h.ex fun v => v.1 = .serviceLock).symm
  curbLow := by rw [h.causes, h.rlu]; exact fits.curbLow
  inhibited := by rw [h.inhibited, h.causes]; exact fits.inhibited

theorem SameView.activeWhen (h : SameView s t) (run : s.cfg.device = .run) {e f : Entry} (same : f.view = e.view) : t.ActiveWhen f ↔ s.ActiveWhen e := by
  have kind : f.kind = e.kind := congrArg (fun v => v.1) same
  have scope : f.scope = e.scope := congrArg (fun v => v.2.2.1) same
  unfold State.ActiveWhen
  rw [kind, scope, h.motion, h.confirmed, h.side run, h.rlu, h.crn]

theorem SameView.evaluated (h : SameView s t) (fits : s.Evaluated) : t.Evaluated := by
  have partner : ∀ e ∈ t.live, ∃ f ∈ s.live, f.view = e.view := fun e there =>
    (h.ex fun v => v = e.view).mp ⟨e, there, rfl⟩
  constructor
  · intro run e there
    obtain ⟨f, thereF, same⟩ := partner e there
    have underlying : f.underlying = e.underlying := congrArg (fun v => v.2.2.2.2) same
    rw [← underlying, fits.underlying (h.device ▸ run) f thereF]
    exact (h.activeWhen (h.device ▸ run) same.symm).symm
  · intro run e there shown
    obtain ⟨f, thereF, same⟩ := partner e there
    have underlying : f.underlying = e.underlying := congrArg (fun v => v.2.2.2.2) same
    have state : f.state = e.state := congrArg (fun v => v.2.2.2.1) same
    rw [← underlying, ← state]
    exact fits.shown (h.device ▸ run) f thereF (by rwa [state])

end

/-- Two states with the same table, settings, outputs and published values. -/
theorem sameView_of_live {s t : State} (live : t.live = s.live) (cfg : t.cfg = s.cfg) (motion : t.mot.motion = s.mot.motion)
    (dsv : t.dsv = s.dsv) (brk : t.brk = s.brk) (rlu : t.rlu = s.rlu) (crn : t.crn = s.crn) : SameView s t where
  device := congrArg (fun c => c.device) cfg
  doorCount := congrArg (fun c => c.settings.doorCount) cfg
  side _ := congrArg (fun c => c.settings.curbRight) cfg
  motion := motion
  confirmed := congrArg (fun b => b.confirmed) brk
  live := congrArg (List.map Entry.view) live
  release d := by rw [dsv]
  debounced d _ := by rw [dsv]
  causes := congrArg (fun x => x.causes) dsv
  inhibited := by rw [dsv]
  rlu := rlu
  crn := crn

/-! ## The outputs and the evaluation after each piece of work -/

/-- The outputs and the evaluation are kept from the first state to the second. -/
structure Settles (s t : State) : Prop where
  outputs : s.OutputsFit → t.OutputsFit
  evaluated : s.Evaluated → t.Evaluated

theorem Settles.trans {s t u : State} (h : Settles s t) (k : Settles t u) : Settles s u :=
  ⟨fun fits => k.outputs (h.outputs fits), fun fits => k.evaluated (h.evaluated fits)⟩

theorem SameView.settles {s t : State} (h : SameView s t) : Settles s t := ⟨h.outputsFit, h.evaluated⟩

theorem settles_of_live {s t : State} (live : t.live = s.live) (cfg : t.cfg = s.cfg) (motion : t.mot.motion = s.mot.motion)
    (dsv : t.dsv = s.dsv) (brk : t.brk = s.brk) (rlu : t.rlu = s.rlu) (crn : t.crn = s.crn) : Settles s t :=
  (sameView_of_live live cfg motion dsv brk rlu crn).settles

theorem settles_finish (s u : State) : Settles s (State.finish u) := ⟨fun _ => finish_outputsFit u, fun _ => finish_evaluated u⟩

theorem evaluated_out_of_run {s : State} (device : s.cfg.device ≠ .run) : s.Evaluated :=
  ⟨fun run => absurd run device, fun run => absurd run device⟩

theorem settles_link (f : Lnk → Lnk) (s : State) : Settles s (s.modLnk f) :=
  settles_of_live (State.live_congr rfl) rfl rfl rfl rfl rfl rfl

theorem settles_stc (f : Stc → Stc) (s : State) : Settles s (s.modStc f) :=
  settles_of_live (State.live_congr rfl) rfl rfl rfl rfl rfl rfl

theorem settles_doors (f : Dsv → Dsv) (s : State) (release : ∀ d, (rd (f s.dsv).doors d).release = (rd s.dsv.doors d).release)
    (debounced : ∀ d, d.val < s.cfg.settings.doorCount →
      (rd (f s.dsv).doors d).contact.debounced = (rd s.dsv.doors d).contact.debounced)
    (causes : (f s.dsv).causes = s.dsv.causes) (machine : (f s.dsv).machine = s.dsv.machine) : Settles s (s.modDsv f) :=
  have live : (s.modDsv f).live = s.live := State.live_congr rfl
  SameView.settles ⟨rfl, rfl, fun _ => rfl, rfl, rfl, by rw [live], release, debounced, causes, by rw [State.modDsv_dsv, machine], rfl, rfl⟩

/-- A table whose entries are rewritten in what no view shows. -/
theorem touch_view {f : Fin 24 → Entry → Entry} (same : ∀ i e, (f i e).view = e.view) (s : State) :
    (s.touch f).live.map Entry.view = s.live.map Entry.view := by
  have slot : ∀ i, (rd (s.touch f).ilt.slots i).entry.map Entry.view = (rd s.ilt.slots i).entry.map Entry.view := fun i => by
    rw [rd_touch, Option.map_map]
    exact congrArg (fun g => (rd s.ilt.slots i).entry.map g) (funext (same i))
  have order : (s.touch f).ilt.order = s.ilt.order := by simp only [State.touch, State.modIlt_ilt]
  simp only [State.live, List.map_filterMap, slot, order]

theorem updEntry_view {f : Entry → Entry} (same : ∀ e : Entry, (f e).view = e.view) (handle : Nat) (s : State) :
    (s.updEntry handle f).live.map Entry.view = s.live.map Entry.view := by
  rw [State.updEntry_eq_touch]
  refine touch_view (fun i e => ?_) s
  split
  · exact same e
  · rfl

theorem settles_refreshed (handle : Nat) (d : Deadline) (s : State) :
    Settles s (s.updEntry handle fun x => { x with deadline := d }) := by
  have live := updEntry_view (f := fun x => { x with deadline := d }) (fun _ => rfl) handle s
  rw [State.updEntry_eq_touch] at live ⊢
  refine SameView.settles ⟨?_, ?_, fun _ => ?_, ?_, ?_, live, fun _ => ?_, fun _ _ => ?_, ?_, ?_, ?_, ?_⟩
  all_goals simp only [State.touch_cfg, State.touch_mot, State.touch_brk, State.touch_dsv, State.touch_rlu, State.touch_crn]

/-- Out of RUN nothing is released and the table is empty right after a reset, so the causes are NOT_RUN and the open contacts. -/
theorem atReset_outputsFit {t : State} (h : t.AtReset) : t.OutputsFit := by
  have fresh := freshlyReset_of_atReset h
  obtain ⟨notRun, doorEntry, contactOpen, service, curbLow, machine⟩ := fresh.inhibit
  have out : t.cfg.device ≠ .run := by rw [fresh.device]; decide
  have live : t.live = [] := by rw [State.live, fresh.table.1]; rfl
  constructor
  case release =>
    intro d
    obtain ⟨_, _, _, released⟩ := fresh.doors d
    rw [released]
    exact ⟨fun no => absurd no Bool.false_ne_true, fun yes => absurd yes.1 out⟩
  case notRun => exact ⟨fun _ => out, fun _ => notRun⟩
  case doorEntry => rw [doorEntry, live]; simp
  case contactOpen =>
    rw [contactOpen]
    constructor
    · exact fun some => ⟨0, some, (fresh.doors 0).1⟩
    · exact fun ⟨d, fitted, _⟩ => (Nat.zero_le _).trans_lt fitted
  case service => rw [service, live]; simp
  case curbLow => rw [curbLow, fresh.ride.2.2.2.2.2.1]
  case inhibited => rw [machine, notRun]; simp

theorem settles_atReset (s : State) {t : State} (h : t.AtReset) : Settles s t :=
  ⟨fun _ => atReset_outputsFit h, fun _ => evaluated_out_of_run (by rw [h.device]; decide)⟩

theorem settles_releaseDrive (s : State) : Settles s (releaseDrive s) := by
  have still : Settles s s := ⟨id, id⟩
  unfold releaseDrive
  split
  case h_1 due machine =>
    dsimp only
    split
    case isTrue =>
      have live : ((s.advanceTo due).modDsv fun x => { x with machine := .free }).live = s.live := State.live_congr rfl
      refine SameView.settles ⟨rfl, rfl, fun _ => rfl, rfl, rfl, by rw [live], fun _ => rfl, fun _ _ => rfl, rfl, ?_, rfl, rfl⟩
      simp [machine]
    case isFalse => exact settles_of_live (State.live_congr rfl) rfl rfl rfl rfl rfl rfl
  case h_2 => exact still
  case h_3 => exact still

/-- Only setting 2 moves the door count. -/
theorem settings_write_doorCount {g g' : Settings} {number place : Nat} {w : Word16} {v : Int}
    (write : g.write number place w = some (g', v)) (other : number ≠ 2) : g'.doorCount = g.doorCount := by
  unfold Settings.write at write
  dsimp only at write
  split at write
  case h_3 => exact absurd rfl other
  all_goals grind [writeOne, writeAt, writeAxle]

/-- A write of a setting is taken in CONFIG, where only the door count is read. -/
theorem settles_setting {number place : Nat} {w : Word16} {g : Settings} {v : Int} {s : State} (device : s.cfg.device = .config)
    (write : s.cfg.settings.write number place w = some (g, v)) :
    Settles s (settingWritten number (s.modCfg fun c => { c with settings := g })) := by
  have still : (s.modCfg fun c => { c with settings := g }).cfg.device ≠ .run := by simp [device]
  have kept : number ≠ 2 → Settles s (s.modCfg fun c => { c with settings := g }) := fun other => by
    have live : (s.modCfg fun c => { c with settings := g }).live = s.live := State.live_congr rfl
    exact SameView.settles ⟨rfl, settings_write_doorCount write other, fun run => absurd run (by simp [device]), rfl, rfl,
      by rw [live], fun _ => rfl, fun _ _ => rfl, rfl, .rfl, rfl, rfl⟩
  unfold settingWritten
  split
  case isTrue n => exact (kept (by omega)).trans (settles_stc _ _)
  case isFalse =>
    split
    case isTrue => exact ⟨fun _ => dsvJudge_outputsFit _, fun _ => evaluated_out_of_run still⟩
    case isFalse n =>
      split
      case isTrue => exact ⟨fun _ => dsvJudge_outputsFit _, fun _ => evaluated_out_of_run still⟩
      case isFalse => exact kept n

theorem settles_enterRun (s : State) : Settles s (enterRun s) := by
  unfold enterRun placeBroadcast
  exact (settles_finish s _).trans (settles_link _ _)

theorem work_settles {s t : State} (work : Work s t) : Settles s t := by
  cases work with
  | link f => exact settles_link f s
  | clock => exact settles_of_live (State.live_congr rfl) rfl rfl rfl rfl rfl rfl
  | registry => exact settles_of_live rfl rfl rfl rfl rfl rfl rfl
  | signals f _ motion => exact settles_of_live (State.live_congr rfl) rfl motion rfl rfl rfl rfl
  | doors f _ release debounced causes machine => exact settles_doors f s release debounced causes machine
  | refreshed handle d => exact settles_refreshed handle d s
  | pendingSwap => exact settles_stc _ s
  | swap => exact settles_stc _ s
  | bank => exact settles_stc _ s
  | setting number place w g v _ device write => exact settles_setting device write
  | cold => exact settles_atReset s (coldReset_atReset s)
  | warm => exact settles_atReset s (warmRestart_atReset s)
  | start => exact settles_enterRun s
  | safe => exact settles_finish s _
  | opens => exact settles_finish s _
  | amend => exact settles_finish s _
  | revive => exact settles_finish s _
  | retire => exact settles_finish s _
  | clearCorner => exact settles_finish s _
  | clearLatch => exact settles_finish s _
  | channel => exact settles_finish s _
  | temperature => exact settles_finish s _
  | supply => exact settles_finish s _
  | sample => exact settles_finish s _
  | speedUpdate => exact settles_finish s _
  | lineSettles => exact settles_finish s _
  | expire => exact settles_finish s _
  | contactSettles => exact settles_finish s _
  | releaseDrive => exact settles_releaseDrive s
  | cornerUpdate => exact settles_finish s _
  | brakeUpdate => exact settles_finish s _
  | steeringUpdate => exact settles_finish s _

/-- Settles O10: work that ends an event leaves both by `finish_outputsFit` and `finish_evaluated`, whatever stood before; the rest of the
work moves nothing that they read. -/
theorem stepKeepsOutputs : Obligations.StepKeepsOutputs := by
  unfold Obligations.StepKeepsOutputs
  intro s t stepped
  have kept := step_keeps_work (P := fun u => Settles s u) stepped ?queue (fun work h => h.trans (work_settles work)) ⟨id, id⟩
  case queue =>
    exact fun rest h => h.trans (settles_of_live (State.live_congr rfl) rfl rfl rfl rfl rfl rfl)
  exact ⟨kept.outputs, kept.evaluated⟩

end Sys2Proof.Machine
end

