-- ==== Sys2Proof/Proofs/Settings.lean ====
section
/-! PROOF. The writes of banks and settings, and the statements SwapBankSwaps, WriteBankRowStores and WriteSettingStores (O29 to O31). -/

namespace Sys2Proof.Machine

/-! ## SWAP_BANK (R157) -/

section
variable {x : Sender} {s : State}

theorem requestSwapBank_safe (served : s.serves x) (safe : s.cfg.device = .safe) :
    requestSwapBank x.partner s = (s, s.notReady) := by
  rw [requestSwapBank, ifRoot_of_serves served, if_pos safe]

theorem requestSwapBank_fixed (served : s.serves x) (device : s.cfg.device ≠ .safe) (fixed : s.cfg.settings.bankMode ≠ .follow) :
    requestSwapBank x.partner s = (s, .no .bankFixed) := by
  rw [requestSwapBank, ifRoot_of_serves served, if_neg device, if_pos fixed]

theorem requestSwapBank_cancelled (served : s.serves x) (device : s.cfg.device ≠ .safe) (follow : s.cfg.settings.bankMode = .follow)
    (pending : s.stc.pendingSwap ≠ none) :
    requestSwapBank x.partner s = (s.modStc fun b => { b with pendingSwap := none },
      .ok { AnswerFlags.none with cancelled := true } s.stc.inUse.code 0) := by
  rw [requestSwapBank, ifRoot_of_serves served, if_neg device, if_neg (not_not_intro follow),
    if_pos (Option.isSome_iff_ne_none.mpr pending)]
  rfl

theorem requestSwapBank_invalid (served : s.serves x) (device : s.cfg.device ≠ .safe) (follow : s.cfg.settings.bankMode = .follow)
    (idle : s.stc.pendingSwap = none) (invalid : (s.stc.bank s.stc.inUse.other).valid = false) :
    requestSwapBank x.partner s = (s, .no .bankInvalid) := by
  rw [requestSwapBank, ifRoot_of_serves served, if_neg device, if_neg (not_not_intro follow), if_neg (by simp [idle])]
  exact if_pos invalid

/-- Past every check the swap is taken at once or becomes pending. -/
theorem requestSwapBank_swaps (served : s.serves x) (device : s.cfg.device ≠ .safe) (follow : s.cfg.settings.bankMode = .follow)
    (idle : s.stc.pendingSwap = none) (valid : (s.stc.bank s.stc.inUse.other).valid = true) :
    requestSwapBank x.partner s =
      if s.cfg.device = .config ∨ s.standing then
        ((s.modStc fun b => { b with inUse := s.stc.inUse.other }).post (.bankSwapped s.stc.inUse.other true),
          .ok AnswerFlags.none s.stc.inUse.other.code 0)
      else
        (s.modStc fun b => { b with pendingSwap := some s.stc.inUse.other }, .ok AnswerFlags.none s.stc.inUse.code 1) := by
  rw [requestSwapBank, ifRoot_of_serves served, if_neg device, if_neg (not_not_intro follow), if_neg (by simp [idle])]
  dsimp only
  rw [if_neg (by simp [valid])]
  split <;> simp [Stc.swapAnswer, idle, bit]

theorem standing_iff : s.standing = true ↔ s.mot.motion = .standstill := by
  simp [State.standing]

end

/-- Settles O29: the checks of `requestSwapBank` in order. -/
theorem swapBankSwaps : Obligations.SwapBankSwaps := by
  unfold Obligations.SwapBankSwaps
  intro x tag s served
  rw [exec_swapBank_heard served.1]
  refine ⟨fun safe => ?safe, fun device => ⟨fun fixed => ?fixed, fun follow => ⟨fun pending => ?cancelled, fun idle =>
    ⟨fun invalid => ?invalid, fun valid => ⟨fun now => ?taken, fun run moving => ?pending⟩⟩⟩⟩⟩
  case safe =>
    rw [requestSwapBank_safe served safe]
    simp only [State.notReady, Answer.withDetail, safe]
    rfl
  case fixed =>
    rw [requestSwapBank_fixed served device fixed]
    rfl
  case cancelled =>
    rw [requestSwapBank_cancelled served device follow pending]
    rfl
  case invalid =>
    rw [requestSwapBank_invalid served device follow idle invalid]
    rfl
  case taken =>
    rw [requestSwapBank_swaps served device follow idle valid, if_pos (now.imp_right standing_iff.mpr)]
    rfl
  case pending =>
    have later : ¬ (s.cfg.device = .config ∨ s.standing = true) := by simp [run, standing_iff, moving]
    rw [requestSwapBank_swaps served device follow idle valid, if_neg later]
    rfl

/-! ## WRITE_BANK_ROW (R154, R156) -/

/-- R154: VALID, row after row. -/
theorem bank_valid_iff (b : Bank) :
    b.valid = true ↔ (2 ≤ b.count ∧ b.count ≤ 16) ∧ (rd b.rows 0).v = 0
      ∧ ∀ i j : Fin 16, j.val = i.val + 1 → j.val < b.count → (rd b.rows i).v < (rd b.rows j).v := by
  have ascends : b.ascends = true ↔ ∀ i j : Fin 16, j.val = i.val + 1 → j.val < b.count → (rd b.rows i).v < (rd b.rows j).v := by
    simp only [Bank.ascends, List.all_eq_true, List.mem_finRange, forall_const, Bool.or_eq_true, decide_eq_true_eq]
    constructor
    · intro rows i j next below
      have pair := rows ⟨i.val, by omega⟩
      have lower : (⟨i.val, by omega⟩ : Fin 15).castSucc = i := rfl
      have upper : (⟨i.val, by omega⟩ : Fin 15).succ = j := Fin.ext next.symm
      rw [lower, upper] at pair
      exact pair.resolve_left (by dsimp only; omega)
    · intro rows i
      refine or_iff_not_imp_left.mpr fun below => rows i.castSucc i.succ rfl ?_
      rw [Fin.val_succ]
      omega
  simp only [Bank.valid, Bool.and_eq_true, decide_eq_true_eq, ascends, and_assoc]

section
variable {x : Sender} {s : State} {f : Byte} {row : Nat} {w : Word16}

theorem lowThree_toNat (b : Byte) : (b.extractLsb' 0 3).toNat = b.toNat % 8 := by
  simp [BitVec.extractLsb'_toNat]

theorem bank_write_invalid {field : Nat} (low : field < 8) (invalid : field = 7 ∨ (field ≠ 6 ∧ 16 ≤ row)) (v : Int) (b : Bank) :
    b.write field row v = none := by
  rw [Bank.write, if_neg (by omega)]
  split
  case isTrue inBank =>
    have code : field = 7 := by omega
    rw [code]
    rfl
  case isFalse => rfl

theorem requestWriteBankRow_safe (served : s.serves x) (safe : s.cfg.device = .safe) :
    requestWriteBankRow x.partner f row w s = (s, s.notReady) := by
  rw [requestWriteBankRow, ifRoot_of_serves served, if_pos safe]

theorem requestWriteBankRow_invalid (served : s.serves x) (device : s.cfg.device ≠ .safe)
    (invalid : f.toNat % 8 = 7 ∨ (f.toNat % 8 ≠ 6 ∧ 16 ≤ row)) :
    requestWriteBankRow x.partner f row w s = (s, .no .requestInvalid) := by
  rw [requestWriteBankRow, ifRoot_of_serves served, if_neg device]
  simp only [lowThree_toNat, bank_write_invalid (Nat.mod_lt _ (by decide)) invalid]

/-- A write of a field that there is: the two refusals in RUN, and the bank stored. -/
theorem requestWriteBankRow_written (served : s.serves x) (device : s.cfg.device ≠ .safe) {id : BankId} {b : Bank} {v : Int}
    (named : id = (if f.getLsbD 4 then .b else .a)) (write : (s.stc.bank id).write (f.toNat % 8) row w.toInt = some (b, v)) :
    requestWriteBankRow x.partner f row w s =
      if s.cfg.device = .run ∧ s.stc.inUse = id then (s, .no .bankActive)
      else if s.cfg.device = .run ∧ s.stc.pendingSwap = some id then (s, .no .bankPending)
      else (s.modStc fun y => y.setBank id b, .ok (AnswerFlags.ofClamped (decide (v ≠ w.toInt))) (bit b.valid) b.count) := by
  rw [requestWriteBankRow, ifRoot_of_serves served, if_neg device]
  simp only [lowThree_toNat, ← named, write, inRun_iff]

end

/-- Settles O30: when a bank is VALID, the checks of `requestWriteBankRow` in order, and the field that each code writes. -/
theorem writeBankRowStores : Obligations.WriteBankRowStores := by
  unfold Obligations.WriteBankRowStores
  refine ⟨bank_valid_iff, ?refused, ?written, ?fields⟩
  case refused =>
    intro x tag f row w s served
    rw [exec_writeBankRow_heard served.1]
    constructor
    · intro safe
      rw [requestWriteBankRow_safe served safe]
      simp only [State.notReady, Answer.withDetail, safe]
      rfl
    · intro device invalid
      rw [requestWriteBankRow_invalid served device invalid]
      rfl
  case written =>
    intro x tag f row w s id b v served device named write
    rw [exec_writeBankRow_heard served.1, requestWriteBankRow_written served device named write]
    refine ⟨fun run used => ?_, fun run unused pending => ?_, fun free => ?_⟩
    · rw [if_pos ⟨run, used⟩]
      rfl
    · rw [if_neg (fun both => unused both.2), if_pos ⟨run, pending⟩]
      rfl
    · have neither : ¬ (s.cfg.device = .run ∧ s.stc.inUse = id) ∧ ¬ (s.cfg.device = .run ∧ s.stc.pendingSwap = some id) := by
        rcases free with config | ⟨unused, noSwap⟩
        · simp [config]
        · exact ⟨fun both => unused both.2, fun both => noSwap both.2⟩
      rw [if_neg neither.1, if_neg neither.2]
      rfl
  case fields =>
    intro b row h v
    have six : ∀ n, n ≠ 6 → b.write n row v =
        (Row.write n v (rd b.rows ⟨row, h⟩)).map fun p => ({ b with rows := wr b.rows ⟨row, h⟩ p.1 }, p.2) := fun n other => by
      rw [Bank.write, if_neg other, dif_pos h]
    refine ⟨?_, ?_, ?_, ?_, ?_, ?_, rfl⟩
    all_goals
      rw [six _ (by decide)]
      rfl

/-! ## WRITE_SETTING (R155, R184, R185; logs 22 and 42) -/

section
variable {x : Sender} {s : State} {number place : Nat} {w : Word16}

theorem requestWriteSetting_outside_config (served : s.serves x) (device : s.cfg.device ≠ .config) :
    requestWriteSetting x.partner number place w s = (s, s.configOnly) := by
  rw [requestWriteSetting, ifRoot_of_serves served, if_pos device]

theorem requestWriteSetting_invalid (served : s.serves x) (device : s.cfg.device = .config)
    (invalid : s.cfg.settings.write number place w = none) :
    requestWriteSetting x.partner number place w s = (s, .no .requestInvalid) := by
  rw [requestWriteSetting, ifRoot_of_serves served, if_neg (not_not_intro device), invalid]

theorem requestWriteSetting_written (served : s.serves x) (device : s.cfg.device = .config) {g : Settings} {v : Int}
    (write : s.cfg.settings.write number place w = some (g, v)) :
    requestWriteSetting x.partner number place w s =
      (settingWritten number (s.modCfg fun c => { c with settings := g }),
        .ok (AnswerFlags.ofClamped (decide (v ≠ givenSetting number w))) 0 0) := by
  rw [requestWriteSetting, ifRoot_of_serves served, if_neg (not_not_intro device), write]
  simp only [device]
  rfl

end

/-! The table of section 11.2, number by number. -/

theorem settings_write_none (g : Settings) (w : Word16) :
    (∀ n i, 20 < n → g.write n i w = none)
    ∧ (∀ n i, (n ≤ 3 ∨ (14 ≤ n ∧ n ≤ 20)) → 0 < i → g.write n i w = none)
    ∧ (∀ i, 4 ≤ i → g.write 4 i w = none) ∧ (∀ n i, 5 ≤ n → n ≤ 8 → 21 ≤ i → g.write n i w = none)
    ∧ (∀ n i, n = 9 ∨ n = 10 → 6 ≤ i → g.write n i w = none)
    ∧ (∀ n i, 11 ≤ n → n ≤ 13 → i = 0 ∨ 4 ≤ i → g.write n i w = none) := by
  have at_ : ∀ {α : Type} {n : Nat} (v : Vector α n) (i : Nat) (x : α), n ≤ i → writeAt v i x = none := fun v i x out => by
    rw [writeAt, dif_neg (by omega)]
  have axle : ∀ (v : Vector Nat 3) (i x : Nat), i = 0 ∨ 4 ≤ i → writeAxle v i x = none := fun v i x out => by
    unfold writeAxle
    split
    · rfl
    · exact at_ v _ x (by omega)
  have one : ∀ (c : Settings) (i : Nat), 0 < i → writeOne i c = none := fun c i out => if_neg (by omega)
  refine ⟨?unnumbered, ?single, ?fourWheels, ?analog, ?corners, ?axles⟩
  case unnumbered =>
    intro n i big
    obtain ⟨m, rfl⟩ : ∃ m, n = m + 21 := ⟨n - 21, by omega⟩
    rfl
  case single =>
    intro n i number out
    rcases number with low | ⟨least, most⟩
    · interval_cases n <;> simp [Settings.write, one, out]
    · interval_cases n <;> simp [Settings.write, one, out]
  case fourWheels =>
    intro i out
    simp [Settings.write, at_, out]
  case analog =>
    intro n i least most out
    interval_cases n <;> simp [Settings.write, at_, out]
  case corners =>
    intro n i number out
    rcases number with rfl | rfl <;> simp [Settings.write, at_, out]
  case axles =>
    intro n i least most out
    interval_cases n <;> simp [Settings.write, axle, out]

theorem writeAt_fin {α : Type} {n : Nat} (v : Vector α n) (i : Fin n) (x : α) : writeAt v i.val x = some (wr v i x) := by
  rw [writeAt, dif_pos i.isLt]

theorem writeAxle_fin (v : Vector Nat 3) (i : Fin 3) (x : Nat) : writeAxle v (i.val + 1) x = some (wr v i x) := by
  rw [writeAxle, if_neg (Nat.succ_ne_zero _), Nat.add_sub_cancel, writeAt_fin]

theorem bankMode_ofValue_clamped (n : Nat) :
    BankMode.ofValue (max 0 (min 2 n)) = if n = 0 then .fixedA else if n = 1 then .fixedB else .follow := by
  unfold BankMode.ofValue
  grind

/-- Every setting is stored brought into its range, in its own instances. -/
theorem settings_write_stores (g : Settings) (w : Word16) :
    let fit := fun lo hi : Nat => max lo (min hi w.toNat)
    let stores := fun (n i lo hi : Nat) (g' : Settings) => g.write n i w = some (g', ((fit lo hi : Nat) : Int))
    stores 0 0 3 10 { g with threshold := fit 3 10 } ∧ stores 1 0 0 3 { g with band := fit 0 3 }
    ∧ stores 2 0 0 4 { g with doorCount := fit 0 4 } ∧ stores 3 0 0 1 { g with curbRight := decide (0 < w.toNat) }
    ∧ (∀ i : Fin 4, stores 4 i.val 20 500 { g with ppm := wr g.ppm i (fit 20 500) })
    ∧ (∀ i : Fin 21, stores 5 i.val 0 4095 { g with offset := wr g.offset i (fit 0 4095) }
      ∧ g.write 6 i.val w
        = some ({ g with gain := wr g.gain i (max (-16384) (min 16384 w.toInt)) }, max (-16384) (min 16384 w.toInt))
      ∧ stores 7 i.val 0 4095 { g with low := wr g.low i (fit 0 4095) }
      ∧ stores 8 i.val 0 4095 { g with high := wr g.high i (fit 0 4095) })
    ∧ (∀ i : Fin 6, stores 9 i.val 2 63 { g with halfWidth := wr g.halfWidth i (fit 2 63) }
      ∧ (w.toNat ≤ 1 → fit 2 63 = 2) ∧ stores 10 i.val 0 3 { g with stopLevel := wr g.stopLevel i (fit 0 3) })
    ∧ (∀ i : Fin 3, stores 11 (i.val + 1) 10 400 { g with area := wr g.area i (fit 10 400) }
      ∧ stores 12 (i.val + 1) 0 3000 { g with unsprung := wr g.unsprung i (fit 0 3000) }
      ∧ stores 13 (i.val + 1) 100 600 { g with share := wr g.share i (fit 100 600) })
    ∧ stores 14 0 0 63 { g with weight := fit 0 63 } ∧ stores 15 0 150 500 { g with doorHold := fit 150 500 }
    ∧ stores 16 0 0 50 { g with curbGuard := fit 0 50 } ∧ stores 17 0 0 100 { g with rateGain := fit 0 100 }
    ∧ stores 18 0 1024 2034 { g with reqBase := fit 1024 2034 } ∧ stores 19 0 0 1008 { g with ansBase := fit 0 1008 }
    ∧ stores 20 0 0 2
      { g with bankMode := if w.toNat = 0 then .fixedA else if w.toNat = 1 then .fixedB else .follow } := by
  dsimp only
  refine ⟨rfl, rfl, rfl, ?side, fun i => ?wheels, fun i => ⟨?offset, ?gain, ?low, ?high⟩, fun i => ⟨?half, ?least, ?stop⟩,
    fun i => ⟨?area, ?unsprung, ?share⟩, rfl, rfl, rfl, rfl, rfl, rfl, ?mode⟩
  case side =>
    simp only [Settings.write, clampNat, writeOne, if_pos, Option.map_some, Option.some.injEq, Prod.mk.injEq, Settings.mk.injEq,
      and_true, true_and]
    exact decide_eq_decide.mpr (by omega)
  case wheels => simp [Settings.write, writeAt_fin, clampNat]
  case offset => simp [Settings.write, writeAt_fin, clampNat]
  case gain => simp [Settings.write, writeAt_fin, clampInt]
  case low => simp [Settings.write, writeAt_fin, clampNat]
  case high => simp [Settings.write, writeAt_fin, clampNat]
  case half => simp [Settings.write, writeAt_fin, clampNat]
  case least => omega
  case stop => simp [Settings.write, writeAt_fin, clampNat]
  case area => simp [Settings.write, writeAxle_fin, clampNat]
  case unsprung => simp [Settings.write, writeAxle_fin, clampNat]
  case share => simp [Settings.write, writeAxle_fin, clampNat]
  case mode =>
    simp only [Settings.write, clampNat, writeOne, if_pos, Option.map_some, bankMode_ofValue_clamped]

/-! What a write does at its event, number by number (log 22). -/

theorem settingWritten_mode (s : State) :
    settingWritten 20 s = s.modStc fun x => { x with inUse := bankForMode s.cfg.settings.bankMode x.inUse } := rfl
theorem settingWritten_doorCount (s : State) : settingWritten 2 s = Dsv.judge s := rfl
theorem settingWritten_curbSide (s : State) : settingWritten 3 s = Dsv.judge (Rlu.judgeCurbLow s) := rfl

theorem settingWritten_other {n : Nat} (s : State) (mode : n ≠ 20) (doors : n ≠ 2) (side : n ≠ 3) : settingWritten n s = s := by
  rw [settingWritten, if_neg mode, if_neg doors, if_neg side]

theorem curbLowNow_iff (s : State) : s.curbLowNow = true ↔
    ∃ c, curbSide s.cfg.settings.curbRight c = true ∧ (rd s.crn.corners c).measured < (s.rlu.ride : Int) - 30 := by
  simp [State.curbLowNow]

/-- A judgement of DSV's outputs moves the release lines, the causes and the machine, and nothing else. -/
theorem dsvJudge_frame (s : State) : Dsv.judge s = { s with dsv := (Dsv.judge s).dsv } ∧ (Dsv.judge s).dsv.fbl = s.dsv.fbl
    ∧ ∀ d, rd (Dsv.judge s).dsv.doors d = { rd s.dsv.doors d with release := (rd (Dsv.judge s).dsv.doors d).release } := by
  refine ⟨rfl, rfl, fun d => ?_⟩
  simp [Dsv.judge]

theorem byte_eq_iff (n : Byte) (k : Nat) (small : k < 256) : n.toNat = k ↔ n = BitVec.ofNat 8 k := by
  constructor
  · intro same
    rw [← same, BitVec.ofNat_toNat, BitVec.setWidth_eq]
  · rintro rfl
    simp [Nat.mod_eq_of_lt small]

/-- What a taken write leaves, by its number. -/
theorem settingWritten_stores (n : Byte) (g : Settings) (s : State) (device : s.cfg.device = .config) :
    let t := settingWritten n.toNat (s.modCfg fun c => { c with settings := g })
    t.cfg.settings = g ∧ t.cfg.device = .config
      ∧ t.stc.inUse = (if n = 20 then (match g.bankMode with
          | .fixedA => .a
          | .fixedB => .b
          | .follow => s.stc.inUse) else s.stc.inUse)
      ∧ (n ≠ 2 → n ≠ 3 → n ≠ 20 → t = s.modCfg fun c => { c with settings := g })
      ∧ (n = 20 → t = State.modStc (s.modCfg fun c => { c with settings := g }) fun y => { y with inUse := t.stc.inUse })
      ∧ (n = 2 ∨ n = 3 → t = { s with cfg := { s.cfg with settings := g }, rlu := t.rlu, dsv := t.dsv } ∧ t.OutputsFit
        ∧ t.dsv.fbl = s.dsv.fbl
        ∧ ∀ d, rd t.dsv.doors d = { rd s.dsv.doors d with release := (rd t.dsv.doors d).release })
      ∧ (n = 2 → t.rlu = s.rlu)
      ∧ (n = 3 → t.rlu = { s.rlu with curbLow := t.rlu.curbLow }
        ∧ (t.rlu.curbLow = true ↔ ∃ c, curbSide g.curbRight c = true
          ∧ (rd s.crn.corners c).measured < (s.rlu.ride : Int) - 30))
      ∧ t.mot = s.mot ∧ t.ilt = s.ilt ∧ t.lnk = s.lnk ∧ t.crn = s.crn ∧ t.brk = s.brk ∧ t.vda = s.vda := by
  have other : ∀ m : Byte, n = m → ∀ k : Byte, k ≠ m → n ≠ k := fun m same k apart both => apart (both.symm.trans same)
  by_cases mode : n = 20
  · subst mode
    refine ⟨rfl, device, ?_, fun _ _ no => absurd rfl no, fun _ => rfl, fun no => absurd no (by decide), fun no => absurd no (by decide),
      fun no => absurd no (by decide), rfl, rfl, rfl, rfl, rfl, rfl⟩
    rw [if_pos rfl]
    show bankForMode g.bankMode s.stc.inUse = _
    cases g.bankMode <;> rfl
  by_cases doors : n = 2
  · subst doors
    have frame := dsvJudge_frame (s.modCfg fun c => { c with settings := g })
    exact ⟨rfl, device, rfl, fun no => absurd rfl no, fun no => absurd no (by decide),
      fun _ => ⟨rfl, dsvJudge_outputsFit _, rfl, frame.2.2⟩, fun _ => rfl, fun no => absurd no (by decide),
      rfl, rfl, rfl, rfl, rfl, rfl⟩
  by_cases side : n = 3
  · subst side
    have frame := dsvJudge_frame (Rlu.judgeCurbLow (s.modCfg fun c => { c with settings := g }))
    exact ⟨rfl, device, rfl, fun _ no => absurd rfl no, fun no => absurd no (by decide),
      fun _ => ⟨rfl, dsvJudge_outputsFit _, rfl, frame.2.2⟩, fun no => absurd no (by decide),
      fun _ => ⟨rfl, curbLowNow_iff (s.modCfg fun c => { c with settings := g })⟩, rfl, rfl, rfl, rfl, rfl, rfl⟩
  · have number : ∀ k, k < 256 → n ≠ BitVec.ofNat 8 k → n.toNat ≠ k := fun k small => mt (byte_eq_iff n k small).mp
    rw [settingWritten_other _ (number 20 (by decide) mode) (number 2 (by decide) doors) (number 3 (by decide) side)]
    refine ⟨rfl, device, ?_, fun _ _ _ => rfl, fun yes => absurd yes mode, fun yes => ?_, fun yes => absurd yes doors,
      fun yes => absurd yes side, rfl, rfl, rfl, rfl, rfl, rfl⟩
    · rw [if_neg mode]
      rfl
    · rcases yes with yes | yes
      · exact absurd yes doors
      · exact absurd yes side

/-- Settles O31: the checks of WRITE_SETTING in order, what a write leaves by its number, and the table of section 11.2. -/
theorem writeSettingStores : Obligations.WriteSettingStores := by
  unfold Obligations.WriteSettingStores
  refine ⟨?requests, fun g w => ?table⟩
  case requests =>
    intro x tag n i w s served
    rw [exec_writeSetting_heard served.1]
    refine ⟨fun device => ?outside, fun device => ⟨fun invalid => ?invalid, fun g v write => ?written⟩⟩
    case outside =>
      rw [requestWriteSetting_outside_config served device]
      rfl
    case invalid =>
      rw [requestWriteSetting_invalid served device invalid]
      rfl
    case written =>
      rw [requestWriteSetting_written served device write]
      have given : givenSetting n.toNat w = if n = 6 then w.toInt else (w.toNat : Int) := by
        simp only [givenSetting, byte_eq_iff n 6 (by decide)]
        rfl
      exact ⟨_, by rw [given]; rfl, settingWritten_stores n g s device⟩
  case table =>
    obtain ⟨unnumbered, single, wheels, analog, corners, axles⟩ := settings_write_none g w
    exact ⟨unnumbered, single, wheels, analog, corners, axles, settings_write_stores g w⟩

end Sys2Proof.Machine
end

