-- ==== Sys2Proof/Proofs/Link.lean ====
section
/-! PROOF. Frames, transmit buffers, the SPI port and the status broadcast, and the statements FrameArrives, BuffersEmpty, SpiTransaction and BroadcastReports. -/

namespace Sys2Proof.Machine

/-! ## Frames on the bus (R174, R175, R177) -/

theorem takeRequest_invalid {p : Fin 16} {b : Content} {s : State}
    (invalid : b.b7 ≠ 0 ∨ b.b0.toNat ∉ [0, 1, 2, 3, 4, 5, 6, 16, 17, 18, 19, 20, 24, 25, 32, 33, 34, 35, 36, 40, 41, 42, 43, 44]) :
    takeRequest p b s = (s, .refused .requestInvalid none .none 0 0) := by
  rw [takeRequest]
  by_cases zero : b.b7 = 0
  · rw [if_neg (not_not_intro zero)]
    have unlisted := invalid.resolve_left (not_not_intro zero)
    generalize b.b0.toNat = n at *
    split
    case h_25 => rfl
    all_goals exact absurd (by decide) unlisted
  · rw [if_pos zero]
    rfl

theorem contentOf_toList (b : Content) (rest : List Byte) : contentOf (b.toList ++ rest) = some b := rfl

/-- R174: a frame that LNK takes for one of a partner. -/
def AcceptedFrame (reqBase : Nat) (f : CanFrame) : Prop :=
  f.remote = false ∧ f.extended = false ∧ f.dlc = 8 ∧ reqBase + 1 ≤ f.identifier ∧ f.identifier ≤ reqBase + 13

theorem receiveFrame_ignored {f : CanFrame} {s : State} (ignored : ¬ AcceptedFrame s.cfg.settings.reqBase f) : receiveFrame f s = s := by
  have none' : CanFrame.partner f s.cfg.settings.reqBase = none := if_neg ignored
  rw [receiveFrame, none']

theorem receiveFrame_accepted {f : CanFrame} {s : State} {b : Content} (accepted : AcceptedFrame s.cfg.settings.reqBase f)
    (data : f.data = b.toList) : receiveFrame f s = arrive (f.identifier - s.cfg.settings.reqBase) b s := by
  have partner : CanFrame.partner f s.cfg.settings.reqBase = some (f.identifier - s.cfg.settings.reqBase) := if_pos accepted
  rw [receiveFrame, partner, data]
  rfl

theorem arrive_dropped {n : Nat} {b : Content} {s : State} (full : 4 ≤ s.lnk.queue.length) :
    arrive n b s = s.post (.linkOverrun n) := if_pos full

theorem arrive_queued {n : Nat} {b : Content} {s : State} (room : s.lnk.queue.length < 4)
    (waits : s.lnk.queue ≠ [] ∨ s.lnk.answer ≠ none) :
    arrive n b s = s.modLnk fun l => { l with queue := l.queue ++ [{ partner := n, content := b }] } := by
  rw [arrive, if_neg (not_le.mpr room), if_neg]
  rintro ⟨empty, free⟩
  exact waits.elim (· (List.isEmpty_iff.mp empty)) (· free)

/-- Settles O35: a frame is ignored, dropped, queued, or taken at once. -/
theorem frameArrives : Obligations.FrameArrives := by
  unfold Obligations.FrameArrives
  refine ⟨fun p b s invalid => takeRequest_invalid invalid, fun f s => ⟨fun ignored => ?_, ?_⟩⟩
  · exact congrArg Host.Outcome.next (receiveFrame_ignored ignored)
  · rintro b n accepted data rfl
    have received : exec (.canFrameArrival f) s = .next (arrive (f.identifier - s.cfg.settings.reqBase) b s) :=
      congrArg Host.Outcome.next (receiveFrame_accepted accepted data)
    have partner : 1 ≤ f.identifier - s.cfg.settings.reqBase ∧ f.identifier - s.cfg.settings.reqBase ≤ 13 := by
      obtain ⟨-, -, -, low, high⟩ := accepted
      omega
    have submits : submit (.can (f.identifier - s.cfg.settings.reqBase)) b s
        = arrive (f.identifier - s.cfg.settings.reqBase) b s := if_pos partner
    refine ⟨fun full => ?_, fun room waits => ?_, fun empty free => ⟨?_, fun i request => ?_⟩⟩
    · rw [received, arrive_dropped full]
    · rw [received, arrive_queued room waits]
    · have heard : s.hears (.can (f.identifier - s.cfg.settings.reqBase)) := ⟨by simpa [Sender.wf] using partner, empty, free⟩
      rw [received, ← submits, submit_heard heard]
      rfl
    · rw [received, exec_request request, submits]

/-! ## The transmit buffers (R175) -/

/-- R175: of two buffers, LNK offers one that holds a frame if either does, and none with a lower identifier stands in them. -/
theorem first_lowest (l : Lnk) (a b c : TxBuffer) {f : TxFrame} (held : l.held c = some f) (one : c = a ∨ c = b) :
    ∃ g, l.held (l.first a b) = some g ∧ g.identifier ≤ f.identifier := by
  unfold Lnk.first
  cases ha : l.held a with
  | none =>
    obtain rfl | rfl := one
    · exact absurd (ha.symm.trans held) (by simp)
    · exact ⟨f, held, le_refl _⟩
  | some x =>
    cases hb : l.held b with
    | none =>
      obtain rfl | rfl := one
      · exact ⟨f, held, le_refl _⟩
      · exact absurd (hb.symm.trans held) (by simp)
    | some y =>
      by_cases lower : y.identifier < x.identifier
      · refine ⟨y, by simp only [if_pos lower, hb], ?_⟩
        obtain rfl | rfl := one
        · exact (Option.some.inj (ha.symm.trans held)) ▸ lower.le
        · exact (Option.some.inj (hb.symm.trans held)) ▸ le_refl _
      · refine ⟨x, by simp only [if_neg lower, ha], ?_⟩
        obtain rfl | rfl := one
        · exact (Option.some.inj (ha.symm.trans held)) ▸ le_refl _
        · exact (Option.some.inj (hb.symm.trans held)) ▸ not_lt.mp lower

theorem offered_lowest (l : Lnk) (b : TxBuffer) {f : TxFrame} (held : l.held b = some f) :
    ∃ g, l.held l.offered = some g ∧ g.identifier ≤ f.identifier := by
  have inner : ∀ c : TxBuffer, c = .broadcast ∨ c = .answer → ∀ {h : TxFrame}, l.held c = some h →
      ∃ g, l.held l.offered = some g ∧ g.identifier ≤ h.identifier := by
    intro c one h stands
    obtain ⟨x, at', le⟩ := first_lowest l .broadcast .answer c stands one
    obtain ⟨g, offered, le'⟩ := first_lowest l _ .steering _ at' (Or.inl rfl)
    exact ⟨g, offered, le'.trans le⟩
  cases b with
  | broadcast => exact inner _ (Or.inl rfl) held
  | answer => exact inner _ (Or.inr rfl) held
  | steering => exact first_lowest l _ .steering .steering held (Or.inr rfl)

/-- With the answer buffer empty, `takeFrame` answers the frame at the front of the queue, if there is one. -/
theorem takeFrame_emptied {s : State} (free : s.lnk.answer = none) :
    takeFrame s = match s.lnk.queue with
      | [] => s
      | q :: rest =>
        let r := takeRequest (Fin.ofNat 16 q.partner) q.content (s.modLnk fun l => { l with queue := rest })
        State.reply (.can q.partner) q.content.b1 r.2 r.1 := by
  cases queue : s.lnk.queue with
  | nil => simp only [takeFrame, queue]
  | cons q rest => exact takeFrame_front queue free rfl

/-- Settles O36. -/
theorem buffersEmpty : Obligations.BuffersEmpty := by
  unfold Obligations.BuffersEmpty
  intro s
  refine ⟨fun empty => ?_, fun b f => offered_lowest s.lnk b, fun f held => ⟨fun at' => ?_, fun at' => ?_, fun at' => ?_⟩,
    fun free => ?_, fun a full => ?_⟩
  · show Host.Outcome.next (frameSent s) = _
    rw [frameSent, empty]
  · show Host.Outcome.next (frameSent s) = _
    rw [frameSent, held, at']
  · show Host.Outcome.next (frameSent s) = _
    rw [frameSent, held, at']
  · show Host.Outcome.next (frameSent s) = _
    rw [frameSent, held, at']
    exact congrArg Host.Outcome.next (takeFrame_emptied rfl)
  · show Host.Outcome.next (abandonAnswer s) = _
    rw [abandonAnswer, free]
  · show Host.Outcome.next (abandonAnswer s) = _
    rw [abandonAnswer, full]
    exact congrArg Host.Outcome.next (takeFrame_emptied rfl)

/-! ## The SPI port (R176) -/

theorem crcBit_eq (c : Byte) : crcBit c = if c.getLsbD 7 then (c <<< 1) ^^^ 0x1D else c <<< 1 := by
  rw [crcBit, BitVec.msb_eq_getLsbD_last]

theorem contentOf_length {l : List Byte} (nine : l.length = 9) : ∃ (b : Content) (x : Byte), l = b.toList ++ [x] := by
  match l, nine with
  | [b0, b1, b2, b3, b4, b5, b6, b7, x], _ => exact ⟨⟨b0, b1, b2, b3, b4, b5, b6, b7⟩, x, rfl⟩

/-- R176: a transaction is good exactly when it holds eight bytes and their CRC. -/
theorem frameGood_iff (l : List Byte) : frameGood l = true ↔ ∃ b : Content, l = b.toList ++ [crc8 b.toList] := by
  constructor
  · intro good
    simp only [frameGood, Bool.and_eq_true, decide_eq_true_eq] at good
    obtain ⟨b, x, rfl⟩ := contentOf_length good.1
    have last : x = crc8 b.toList := Option.some.inj good.2
    exact ⟨b, last ▸ rfl⟩
  · rintro ⟨b, rfl⟩
    simp [frameGood, Content.toList]

theorem selectWithdrawn_good {s : State} (shifting : s.lnk.shifting ≠ none) (b : Content) :
    selectWithdrawn (b.toList ++ [crc8 b.toList]) s = takeFromHost b (s.modLnk fun l => { l with shifting := none }) := by
  rw [selectWithdrawn, if_neg shifting, (frameGood_iff _).mpr ⟨b, rfl⟩]
  rfl

theorem selectWithdrawn_bad {s : State} (shifting : s.lnk.shifting ≠ none) {bytes : List Byte}
    (bad : ∀ b : Content, bytes ≠ b.toList ++ [crc8 b.toList]) :
    selectWithdrawn bytes s = s.modLnk fun l => { l with shifting := none, slot := frameError } := by
  have ill : frameGood bytes = false := by
    rw [← Bool.not_eq_true, frameGood_iff]
    rintro ⟨b, same⟩
    exact bad b same
  rw [selectWithdrawn, if_neg shifting, ill]
  rfl

/-- Settles O37. -/
theorem spiTransaction : Obligations.SpiTransaction := by
  unfold Obligations.SpiTransaction
  refine ⟨fun bytes => ?_, fun s => ⟨rfl, fun idle bytes => ?_, fun shifting => ⟨fun b i request => ?_, fun b => ?_, fun bytes bad => ?_⟩⟩⟩
  · have byte : crcByte = fun c b => (List.range 8).foldl
        (fun (x : Byte) _ => if x.getLsbD 7 then (x <<< 1) ^^^ 0x1D else x <<< 1) (c ^^^ b) := by
      funext c b
      simp only [crcByte, crcBit_eq, List.range, List.range.loop, List.foldl]
    rw [crc8, byte]
  · exact congrArg Host.Outcome.next (if_pos idle)
  · rw [exec_request request]
    exact congrArg Host.Outcome.next (selectWithdrawn_good shifting b)
  · exact congrArg Host.Outcome.next (selectWithdrawn_good shifting b)
  · exact congrArg Host.Outcome.next (selectWithdrawn_bad shifting bad)

/-! ## The status broadcast (R179) -/

/-- Every place of the arrival order of a table of the form holds an entry. -/
theorem live_length {s : State} (fits : s.ilt.Fits) : s.live.length = s.ilt.order.length := by
  rw [State.live, List.length_filterMap_eq_countP, List.countP_eq_length]
  intro i listed
  exact (fits.lists i).mp listed

/-- The eight bytes of a broadcast or an answer, put together again. -/
theorem broadcast_bytes (bits : BitVec 64) :
    bits.extractLsb' 56 8 ++ bits.extractLsb' 48 8 ++ bits.extractLsb' 40 8 ++ bits.extractLsb' 32 8 ++ bits.extractLsb' 24 8
      ++ bits.extractLsb' 16 8 ++ bits.extractLsb' 8 8 ++ bits.extractLsb' 0 8 = bits := by
  ext i hi
  simp only [BitVec.getElem_append, BitVec.getElem_extractLsb']
  split_ifs <;> rw [BitVec.getLsbD_eq_getElem (by omega)] <;> congr 1 <;> omega

theorem reportedEntry_eq {s : State} (fits : s.ilt.Fits) :
    s.reportedEntry = if s.live.length ≤ s.lnk.rotation then s.live[0]? else s.live[s.lnk.rotation]? := by
  rw [State.reportedEntry, State.reportedPlace, ← live_length fits]
  split <;> rfl

/-- R179: the rotation index after a broadcast. -/
theorem rotation_after {s : State} (fits : s.ilt.Fits) :
    (if s.reportedEntry.isSome then s.reportedPlace + 1 else 0)
      = if s.live = [] then 0 else if s.live.length ≤ s.lnk.rotation then 1 else s.lnk.rotation + 1 := by
  rw [State.reportedEntry, State.reportedPlace, ← live_length fits]
  by_cases empty : s.live = []
  · simp [empty]
  · have some' : 0 < s.live.length := List.length_pos_iff.mpr empty
    rw [if_neg empty]
    split <;> rename_i at' <;> simp <;> omega

/-- Settles O38. -/
theorem broadcastReports : Obligations.BroadcastReports := by
  unfold Obligations.BroadcastReports
  intro s
  refine ⟨fun config => congrArg Host.Outcome.next (if_pos config), fun config fits => ?_⟩
  refine ⟨s.broadcastContent, _, rfl, ?_, ?_⟩
  · refine congrArg Host.Outcome.next ((if_neg config).trans ?_)
    have rotation := rotation_after (s := s.advanceTo (s.lnk.lastBroadcast + 100000)) fits
    simp only [placeBroadcast, State.modLnk]
    rw [rotation]
    rfl
  · rintro e rfl
    have doors : (List.finRange 4).map (fun d : Fin 4 =>
        (3, if d.val < s.cfg.settings.doorCount then (rd s.dsv.doors d).supervision.code else 0))
        = [(3, s.reportedSupervision 0), (3, s.reportedSupervision 1), (3, s.reportedSupervision 2), (3, s.reportedSupervision 3)] := by
      simp [List.finRange_succ, State.reportedSupervision, State.fitted]
    rw [← reportedEntry_eq fits, doors]
    simp only [State.broadcastContent, Nat.mul_zero, Nat.sub_zero, Nat.reduceMul, Nat.reduceSub]
    rw [broadcast_bytes]
    rfl

end Sys2Proof.Machine
end

