-- ==== Sys2Proof/Proofs/Ends.lean ====
section
/-! PROOF. What the end of an event leaves of the notices, the steering and the corners. -/

namespace Sys2Proof.Machine

/-! ## A raised notice flag stays raised -/

theorem post_flagged_self (n : Notice) (s : State) : (s.post n).flagged n.flag := by
  rw [State.flagged, State.post_named_flag, NoticeFlag.take]
  split <;> simp_all

theorem post_flagged (n : Notice) {s : State} {i : Fin 14} (raised : s.flagged i) : (s.post n).flagged i := by
  by_cases same : i = n.flag
  · exact same ▸ post_flagged_self n s
  · rw [State.flagged, State.post_other_flag n s same]
    exact raised

theorem flagged_congr {s t : State} {i : Fin 14} (same : t.lnk = s.lnk) (raised : s.flagged i) : t.flagged i := by
  rw [State.flagged, same]
  exact raised

/-- No move between the blocks clears a notice flag. -/
theorem Evolves.flagged {s t : State} (h : Evolves s t) {i : Fin 14} (raised : s.flagged i) : t.flagged i := by
  induction h with
  | refl => exact raised
  | tail _ m ih =>
    cases m with
    | post n => exact post_flagged n ih
    | touch f => exact flagged_congr (State.touch_lnk _ _) ih
    | drop handle => exact flagged_congr (State.dropEntry_lnk _ _) ih
    | place slot e => exact flagged_congr rfl ih
    | settle f => exact flagged_congr (settle_lnk _) ih
    | dsv f => exact flagged_congr rfl ih
    | crn f => exact flagged_congr rfl ih
    | rlu f => exact flagged_congr rfl ih
    | brk f => exact flagged_congr rfl ih
    | stc f => exact flagged_congr rfl ih
    | command ch v => exact flagged_congr rfl ih

theorem finish_flagged {s : State} {i : Fin 14} (raised : s.flagged i) : (State.finish s).flagged i :=
  flagged_congr (finish_lnk s) raised

/-! ## What the hand-offs of an evaluation leave of the steering -/

/-- The command that VDA has for CL1. -/
def State.lockCommand (s : State) : Nat := (rd s.vda.channels lockChannel).command

/-- From the first state to the second STC keeps all but the window, or it has entered CENTRING with a STEER_CENTRE live (R150). -/
structure SteerEnds (s t : State) : Prop where
  live : t.anyLive .steerCentre = s.anyLive .steerCentre
  stc : ∃ w, (t.stc = { s.stc with windowOpen := w } ∧ t.lockCommand = s.lockCommand)
    ∨ ((s.stc.state = .frozen ∨ s.stc.state = .tracking) ∧ s.anyLive .steerCentre = true
      ∧ t.stc = { s.stc with state := .centring, centringTimer := 0, windowOpen := w } ∧ t.lockCommand = 1)

theorem SteerEnds.refl (s : State) : SteerEnds s s := ⟨rfl, s.stc.windowOpen, .inl ⟨rfl, rfl⟩⟩

theorem SteerEnds.trans {s t u : State} (h : SteerEnds s t) (k : SteerEnds t u) : SteerEnds s u := by
  obtain ⟨live, w, ⟨same, lock⟩ | ⟨from', centre, entered, lock⟩⟩ := h
  · obtain ⟨live', w', ⟨same', lock'⟩ | ⟨from', centre, entered, lock'⟩⟩ := k
    · exact ⟨live'.trans live, w', .inl ⟨by rw [same', same], lock'.trans lock⟩⟩
    · exact ⟨live'.trans live, w', .inr ⟨by rwa [same] at from', live.symm.trans centre, by rw [entered, same], lock'⟩⟩
  · obtain ⟨live', w', ⟨same', lock'⟩ | ⟨from'', -, -⟩⟩ := k
    · exact ⟨live'.trans live, w', .inr ⟨from', centre, by rw [same', entered], lock'.trans lock⟩⟩
    · rw [entered] at from''
      exact absurd from'' (by simp)

theorem anyLive_congr {s t : State} {k : Kind} (same : t.live = s.live) : t.anyLive k = s.anyLive k := by
  rw [State.anyLive, same]
  rfl

theorem commandLock_lockCommand (s : State) : (Stc.commandLock s).lockCommand = bit s.stc.state.lockOn := by
  rw [State.lockCommand, Stc.commandLock, rd_command, if_pos rfl, Channel.take_command]

theorem brkCommand_lockCommand (s : State) : (Brk.command s).lockCommand = s.lockCommand := by
  have other : ∀ a : Fin 3, brakeChannel a ≠ lockChannel := by decide
  simp only [State.lockCommand, Brk.command, rd_command, if_neg (other _)]

theorem settle_lockCommand (s : State) : (Crn.settle s).lockCommand = s.lockCommand := commandCorners_other _ lockChannel (by decide)

section
variable {a s : State}

theorem se_still {t : State} (h : SteerEnds a s) (ilt : t.ilt = s.ilt) (stc : t.stc = s.stc) (lock : t.lockCommand = s.lockCommand) :
    SteerEnds a t := h.trans ⟨anyLive_congr (State.live_congr ilt), s.stc.windowOpen, .inl ⟨stc, lock⟩⟩

theorem se_brk (f : Brk → Brk) (h : SteerEnds a s) : SteerEnds a (s.modBrk f) := se_still h rfl rfl rfl
theorem se_rlu (f : Rlu → Rlu) (h : SteerEnds a s) : SteerEnds a (s.modRlu f) := se_still h rfl rfl rfl

theorem se_ite {p : Prop} [Decidable p] {t u : State} (h : SteerEnds a t) (k : SteerEnds a u) : SteerEnds a (if p then t else u) := by
  split
  · exact h
  · exact k

theorem se_foldl {α : Type} (l : List α) (f : State → α → State) (hf : ∀ s x, SteerEnds a s → SteerEnds a (f s x))
    (h : SteerEnds a s) : SteerEnds a (l.foldl f s) := by
  induction l generalizing s with
  | nil => exact h
  | cons x l ih => exact ih (hf s x h)

theorem se_setWindow (b : Bool) (h : SteerEnds a s) : SteerEnds a (Brk.setWindow b s) :=
  h.trans ⟨anyLive_congr (State.live_congr rfl), b, .inl ⟨rfl, rfl⟩⟩

theorem se_raiseFloor (h : SteerEnds a s) : SteerEnds a (Brk.raiseFloor s) :=
  se_still (se_brk _ h) rfl rfl (brkCommand_lockCommand _)
theorem se_enterApplying (m : Nat) (h : SteerEnds a s) : SteerEnds a (Brk.enterApplying m s) :=
  se_raiseFloor (se_setWindow _ (se_brk _ h))
theorem se_enterRamping (h : SteerEnds a s) : SteerEnds a (Brk.enterRamping s) :=
  se_ite (se_setWindow _ (se_brk _ (se_brk _ h))) (se_brk _ h)
theorem se_leaveWait (h : SteerEnds a s) : SteerEnds a (Brk.leaveWait s) := se_ite (se_enterRamping h) h
theorem se_enterWait (h : SteerEnds a s) : SteerEnds a (Brk.enterWait s) := se_leaveWait (se_brk _ h)
theorem se_reapply (m : Nat) (h : SteerEnds a s) : SteerEnds a (Brk.reapply m s) :=
  se_ite (se_brk _ (se_enterApplying m h)) (se_enterApplying m h)
theorem se_moveTarget (m : Nat) (h : SteerEnds a s) : SteerEnds a (Brk.moveTarget m s) :=
  se_ite h (se_ite (se_raiseFloor (se_brk _ h)) (se_brk _ h))

theorem se_brkJudge (h : SteerEnds a s) : SteerEnds a (Brk.judge s) := by
  unfold Brk.judge
  refine se_ite ?_ h
  cases s.contributorMax with
  | none =>
    cases s.brk.hold with
    | released => exact h
    | applying => exact se_enterWait h
    | held => exact se_enterWait h
    | waitDrive => exact se_leaveWait h
    | ramping => exact h
  | some m =>
    cases s.brk.hold with
    | released => exact se_enterApplying m h
    | applying => exact se_moveTarget m h
    | held => exact se_moveTarget m h
    | waitDrive => exact se_reapply m h
    | ramping => exact se_reapply m h

theorem se_change (f : Fin 6 → Corner → Corner) (h : SteerEnds a s) : SteerEnds a (Crn.change f s) :=
  se_still h (settle_ilt _) (settle_stc _) (settle_lockCommand _)

theorem se_deriveKneel (h : SteerEnds a s) : SteerEnds a (Rlu.deriveKneel s) := se_rlu _ h
theorem se_judgeCurbLow (h : SteerEnds a s) : SteerEnds a (Rlu.judgeCurbLow s) := se_rlu _ h
theorem se_takeOffsets (ride : Nat) (kneel : Vector Nat 6) (h : SteerEnds a s) : SteerEnds a (Rlu.takeOffsets ride kneel s) :=
  se_deriveKneel (se_judgeCurbLow (se_change _ (se_rlu _ h)))

theorem se_rluFromTable (h : SteerEnds a s) : SteerEnds a (Rlu.fromTable s) :=
  se_ite (se_rlu _ h) (se_takeOffsets _ _ (se_rlu _ h))

theorem se_startCentring (h : SteerEnds a s) : SteerEnds a (Stc.startCentring s) := by
  refine h.trans ?_
  unfold Stc.startCentring
  split
  case isTrue centres =>
    exact ⟨anyLive_congr (State.live_congr rfl), s.stc.windowOpen, .inr ⟨centres.1, centres.2, rfl, commandLock_lockCommand _⟩⟩
  case isFalse => exact .refl s

theorem se_when {p : Prop} [Decidable p] (f : State → State) (hf : ∀ u, SteerEnds a u → SteerEnds a (f u)) (h : SteerEnds a s) :
    SteerEnds a (if p then f s else s) := se_ite (hf s h) h

theorem se_handOff (v : EntryEvent) (e : Entry) (h : SteerEnds a s) : SteerEnds a (handOff v e s) := by
  unfold handOff
  exact se_when Stc.startCentring (fun _ => se_startCentring) (se_when Crn.fromTable (fun _ => se_change _)
    (se_when Rlu.fromTable (fun _ => se_rluFromTable) (se_when Brk.judge (fun _ => se_brkJudge)
      (se_when (Brk.markDoor e) (fun _ k => se_ite (se_brk _ k) k) h))))

end

theorem handOff_steerEnds (v : EntryEvent) (e : Entry) (s : State) : SteerEnds s (handOff v e s) := se_handOff v e (.refl s)

theorem retabled_anyLive (s : State) (k : Kind) : s.retabled.anyLive k = s.anyLive k := by
  rw [State.anyLive, retabled_live, List.any_map]
  rfl

theorem retabled_steerEnds (s : State) : SteerEnds s s.retabled where
  live := retabled_anyLive s _
  stc := ⟨s.stc.windowOpen, .inl ⟨State.modIlt_stc _ _, by rw [State.lockCommand, State.retabled, State.modIlt_vda, ← State.lockCommand]⟩⟩

theorem evaluate_steerEnds (s : State) : SteerEnds s (evaluate s) := by
  have handed : SteerEnds s.retabled (evaluate s) := se_foldl _ _ (fun _ _ k => se_handOff _ _ k) (.refl _)
  exact (retabled_steerEnds s).trans handed

theorem evaluateOnce_steerEnds (s : State) : SteerEnds s (evaluateOnce s) := by
  unfold evaluateOnce
  split
  · exact .refl s
  · exact evaluate_steerEnds s

theorem finish_steerEnds (s : State) : SteerEnds s (State.finish s) := by
  refine se_still (s := reevaluate s) ?_ rfl rfl rfl
  unfold reevaluate
  exact se_ite (((evaluateOnce_steerEnds s).trans (evaluateOnce_steerEnds _)).trans (evaluateOnce_steerEnds _)) (.refl s)

theorem SteerEnds.latch {s t : State} (h : SteerEnds s t) : t.stc.latch = s.stc.latch := by
  obtain ⟨-, w, ⟨same, -⟩ | ⟨-, -, same, -⟩⟩ := h <;> rw [same]

theorem SteerEnds.state {s t : State} (h : SteerEnds s t) : (t.stc.state = s.stc.state ∧ t.stc.centringTimer = s.stc.centringTimer)
    ∨ ((s.stc.state = .frozen ∨ s.stc.state = .tracking) ∧ s.anyLive .steerCentre = true ∧ t.stc.state = .centring
      ∧ t.stc.centringTimer = 0) := by
  obtain ⟨-, w, ⟨same, -⟩ | ⟨from', centre, same, -⟩⟩ := h
  · exact .inl (by rw [same]; exact ⟨rfl, rfl⟩)
  · exact .inr ⟨from', centre, by rw [same]; exact ⟨rfl, rfl⟩⟩

/-! ## The faults of the corners, and the motion -/

theorem Crn.SameFaults.refl (x : Crn) : x.SameFaults x := fun _ => .rfl

theorem evaluateOnce_faults (s : State) : s.crn.SameFaults (evaluateOnce s).crn := by
  unfold evaluateOnce
  split
  · exact .refl _
  · exact evaluate_faults s

/-- No corner enters FAULT or leaves it at the end of an event. -/
theorem finish_faults (s : State) : s.crn.SameFaults (State.finish s).crn := by
  show s.crn.SameFaults (reevaluate s).crn
  unfold reevaluate
  split
  · exact ((evaluateOnce_faults s).trans (evaluateOnce_faults _)).trans (evaluateOnce_faults _)
  · exact .refl _

theorem finish_mot (s : State) : (State.finish s).mot = s.mot := (finish_base s).mot
theorem finish_cfg (s : State) : (State.finish s).cfg = s.cfg := (finish_base s).cfg
theorem finish_now (s : State) : (State.finish s).now = s.now := (finish_base s).now

end Sys2Proof.Machine
end

