-- ==== Sys2Proof/Proofs/Samples.lean ====
section
/-! PROOF. The sample events of the analog channels, and the statement SamplesJudgeChannel. -/

namespace Sys2Proof.Machine

/-! ## Analog channels (R1 to R3) -/

/-- The record of a channel after its next sample event (R2). -/
def State.sampled (s : State) (c : Fin 21) (raw : BitVec 12) : AnalogChannel :=
  AnalogChannel.sample (if s.cfg.settings.inWindow c raw then some (s.cfg.settings.convert c raw) else none)
    { rd s.mot.analog c with raw := raw, lastSample := max s.now ((rd s.mot.analog c).lastSample + 5000) }

/-- The state of a sample event before what follows from it. -/
def State.withSample (s : State) (c : Fin 21) (raw : BitVec 12) : State :=
  { s with now := max s.now ((rd s.mot.analog c).lastSample + 5000), mot := { s.mot with analog := wr s.mot.analog c (s.sampled c raw) } }

section
variable (c : Fin 21) (raw : BitVec 12) (s : State)

theorem inWindow_iff (g : Settings) : g.inWindow c raw = true ↔ rd g.low c ≤ raw.toNat ∧ raw.toNat ≤ rd g.high c := decide_eq_true_iff

theorem sampleAt_eq : sampleAt c raw s = State.finish
    (if s.analogFaulty c = false ∧ (s.withSample c raw).analogFaulty c then analogFails c (s.withSample c raw) else s.withSample c raw) := rfl

theorem ev_analogFails {a s : State} (h : Evolves a s) : Evolves a (analogFails c s) := by
  unfold analogFails
  refine ev_ite (ev_setLatch _ ?_) ?_ <;>
  · split
    · exact ev_crnFault _ _ (ev_post _ h)
    · exact ev_post _ h

theorem sampleAt_evolves : Evolves (s.withSample c raw) (sampleAt c raw s) := by
  rw [sampleAt_eq]
  exact ev_finish (ev_ite (ev_analogFails c .refl) .refl)

theorem sampleAt_mot : (sampleAt c raw s).mot = { s.mot with analog := wr s.mot.analog c (s.sampled c raw) } :=
  (sampleAt_evolves c raw s).base.mot

theorem sampleAt_now : (sampleAt c raw s).now = max s.now ((rd s.mot.analog c).lastSample + 5000) := (sampleAt_evolves c raw s).base.now

theorem sampleAt_channel : rd (sampleAt c raw s).mot.analog c = s.sampled c raw := by rw [sampleAt_mot, rd_wr_same]

theorem sampled_taken : (s.sampled c raw).raw = raw
    ∧ (s.sampled c raw).lastSample = max s.now ((rd s.mot.analog c).lastSample + 5000) := by
  unfold State.sampled AnalogChannel.sample
  split
  iterate 3 (next => exact ⟨rfl, rfl⟩)
  · split <;> exact ⟨rfl, rfl⟩
  · split <;> exact ⟨rfl, rfl⟩
  · exact ⟨rfl, rfl⟩

/-- A sample that brings no fault changes nothing beside the channel and the clock. -/
theorem sampleAt_quiet (fits : s.OutputsFit) (evaluated : s.Evaluated)
    (quiet : (s.sampled c raw).validity ≠ .faulty ∨ (rd s.mot.analog c).validity = .faulty) :
    sampleAt c raw s = s.withSample c raw := by
  have settles : Settles s (s.withSample c raw) := settles_of_live (State.live_congr rfl) rfl rfl rfl rfl rfl rfl
  have no_fault : ¬ (s.analogFaulty c = false ∧ (s.withSample c raw).analogFaulty c = true) := by
    simp only [State.analogFaulty, State.withSample, rd_wr_same, decide_eq_true_eq, decide_eq_false_iff_not]
    rintro ⟨sound, faulty⟩
    exact quiet.elim (· faulty) sound
  rw [sampleAt_eq, if_neg no_fault, finish_of_evaluated (settles.2 evaluated), dsvJudge_of_outputsFit (settles.1 fits)]

end

section
variable {c : Fin 21} {raw : BitVec 12} {s : State}

theorem sampled_in (inside : s.cfg.settings.inWindow c raw = true) : s.sampled c raw
    = AnalogChannel.sample (some (s.cfg.settings.convert c raw))
      { rd s.mot.analog c with raw := raw, lastSample := max s.now ((rd s.mot.analog c).lastSample + 5000) } := by
  rw [State.sampled, if_pos inside]

theorem sampled_out (outside : s.cfg.settings.inWindow c raw = false) : s.sampled c raw
    = AnalogChannel.sample none
      { rd s.mot.analog c with raw := raw, lastSample := max s.now ((rd s.mot.analog c).lastSample + 5000) } := by
  rw [State.sampled, if_neg (by simp [outside])]

/-- A sound channel takes an in-window sample. -/
theorem sampled_sound_in (inside : s.cfg.settings.inWindow c raw = true) (sound : (rd s.mot.analog c).validity ≠ .faulty) :
    (s.sampled c raw).validity = .valid ∧ (s.sampled c raw).value = s.cfg.settings.convert c raw ∧ (s.sampled c raw).bad = 0
      ∧ (s.sampled c raw).good = (rd s.mot.analog c).good := by
  rw [sampled_in inside]
  cases validity : (rd s.mot.analog c).validity with
  | valid => simp [AnalogChannel.sample, validity]
  | held => simp [AnalogChannel.sample, validity]
  | faulty => exact absurd validity sound

/-- The third out-of-window sample in a row makes the channel FAULTY. -/
theorem sampled_fails (outside : s.cfg.settings.inWindow c raw = false) (held : (rd s.mot.analog c).validity = .held)
    (bad : 2 ≤ (rd s.mot.analog c).bad) : (s.sampled c raw).validity = .faulty ∧ (s.sampled c raw).value = (rd s.mot.analog c).value
      ∧ (s.sampled c raw).bad = 3 ∧ (s.sampled c raw).good = 0 := by
  rw [sampled_out outside]
  simp [AnalogChannel.sample, held, bad]

/-- The fifth in-window sample in a row makes a FAULTY channel VALID. -/
theorem sampled_recovers (inside : s.cfg.settings.inWindow c raw = true) (faulty : (rd s.mot.analog c).validity = .faulty)
    (good : 4 ≤ (rd s.mot.analog c).good) : (s.sampled c raw).validity = .valid
      ∧ (s.sampled c raw).value = s.cfg.settings.convert c raw ∧ (s.sampled c raw).bad = 0 ∧ (s.sampled c raw).good = 0 := by
  rw [sampled_in inside]
  simp [AnalogChannel.sample, faulty, good]

end

/-! ## A channel that fails (R3, R97, R141) -/

/-- R97: in RUN the corner is in FAULT after a fault is put to it, whether it was before or not. -/
theorem crnFault_faults {s : State} (run : s.inRun = true) (c : Fin 6) (r : CornerFault) :
    (rd (Crn.fault c r s).crn.corners c).state = .fault := by
  unfold Crn.fault
  split
  case isTrue =>
    rw [State.post_crn, Crn.changeOne, settle_faults _ c, State.modCrn_crn, rd_upd_same]
    rfl
  case isFalse sound => exact not_not.mp fun other => sound ⟨run, other⟩

theorem openSelf_stc_latch (k : Kind) (sc : Scope) (p : Option Nat) (s : State) : (openSelf k sc p s).1.stc.latch = s.stc.latch := by
  unfold openSelf
  split
  case isFalse => rfl
  case isTrue =>
    split
    · rfl
    · split
      · rfl
      · exact (handOff_steerEnds _ _ _).latch.trans (by rw [State.placeEntry_stc])

/-- R141: the latch is set after it is asked for, whether it was before or not. -/
theorem setLatch_latched (cause : LatchCause) (s : State) : (Stc.setLatch cause s).stc.latch ≠ none := by
  unfold Stc.setLatch
  split
  case isTrue latched => exact Option.isSome_iff_ne_none.mp latched
  case isFalse =>
    rw [State.post_stc, Stc.askEntry]
    split
    · simp [openSelf_stc_latch]
    · simp

section
variable {c : Fin 21} {s : State}

theorem analogFails_flagged : (analogFails c s).flagged 9 := by
  have posted : (s.post (.channelFault .analog c.val .faulty 0)).flagged 9 := post_flagged_self _ s
  have evolves : Evolves (s.post (.channelFault .analog c.val .faulty 0)) (analogFails c s) := by
    unfold analogFails
    refine ev_ite (ev_setLatch _ ?_) ?_ <;>
    · split
      · exact ev_crnFault _ _ .refl
      · exact .refl
  exact evolves.flagged posted

theorem analogFails_corner (run : s.inRun = true) {k : Fin 6} (corner : k.val = c.val) :
    (rd (analogFails c s).crn.corners k).state = .fault := by
  have small : c.val < 6 := corner ▸ k.isLt
  have other : ¬ (c = 12 ∨ c = 13 ∨ c = 14) := by
    rintro (rfl | rfl | rfl) <;> exact absurd small (by decide)
  have fault : analogFails c s = Crn.fault ⟨c.val, small⟩ .heightSensor (s.post (.channelFault .analog c.val .faulty 0)) := by
    simp only [analogFails, dif_pos small, if_neg other]
  have running : (s.post (.channelFault .analog c.val .faulty 0)).inRun = true := by
    rw [State.inRun, State.post_cfg]
    exact run
  rw [fault, show k = ⟨c.val, small⟩ from Fin.ext corner]
  exact crnFault_faults running _ _

theorem analogFails_latch (steers : c = 12 ∨ c = 13 ∨ c = 14) : (analogFails c s).stc.latch ≠ none := by
  rw [analogFails, if_pos steers]
  exact setLatch_latched _ _

end

/-- The sample event that makes a channel FAULTY (R3, R97, R141). -/
theorem sampleAt_fails {c : Fin 21} {raw : BitVec 12} {s : State} (held : (rd s.mot.analog c).validity = .held)
    (faulty : (s.sampled c raw).validity = .faulty) : sampleAt c raw s = State.finish (analogFails c (s.withSample c raw)) := by
  have fails : s.analogFaulty c = false ∧ (s.withSample c raw).analogFaulty c = true := by
    simp [State.analogFaulty, State.withSample, held, faulty]
  rw [sampleAt_eq, if_pos fails]

/-- Settles O39. -/
theorem samplesJudgeChannel : Obligations.SamplesJudgeChannel := by
  unfold Obligations.SamplesJudgeChannel
  refine ⟨fun _ => rfl, ?judges, ?fails, ?recovers, fun c raw s => ⟨?noFault, ?noRecovery⟩⟩
  case judges =>
    rintro c raw s x inWindow converted rfl rfl rfl
    have inside : ∀ h : rd s.cfg.settings.low c ≤ raw.toNat ∧ raw.toNat ≤ rd s.cfg.settings.high c,
        s.cfg.settings.inWindow c raw = true := (inWindow_iff c raw _).mpr
    have outside : ∀ h : ¬ (rd s.cfg.settings.low c ≤ raw.toNat ∧ raw.toNat ≤ rd s.cfg.settings.high c),
        s.cfg.settings.inWindow c raw = false := fun h => Bool.eq_false_iff.mpr fun h' => h ((inWindow_iff c raw _).mp h')
    refine ⟨_, _, rfl, rfl, sampleAt_now c raw s, ?_, ?_, ?_, ?_, ?_, ?_, ?_, ?_, ?_, ?_, ?_, ?_⟩
    all_goals rw [sampleAt_channel]
    · rw [sampleAt_now]
      exact (sampled_taken c raw s).2
    · exact (sampled_taken c raw s).1
    · exact fun valid h => sampled_sound_in (inside h) (by simp [valid])
    · intro valid h
      rw [sampled_out (outside h)]
      simp [AnalogChannel.sample, valid]
    · exact fun held h => sampled_sound_in (inside h) (by simp [held])
    · intro held h bad
      rw [sampled_out (outside h)]
      simp [AnalogChannel.sample, held, Nat.not_le.mpr bad]
    · exact fun held h bad => sampled_fails (outside h) held bad.ge
    · intro faulty h good
      rw [sampled_in (inside h)]
      simp [AnalogChannel.sample, faulty, show ¬ 4 ≤ (rd s.mot.analog c).good by omega]
    · exact fun faulty h good => sampled_recovers (inside h) faulty good.ge
    · intro faulty h
      rw [sampled_out (outside h)]
      simp [AnalogChannel.sample, faulty]
    · exact sampleAt_mot c raw s
    · intro fits evaluated quiet
      rw [sampleAt_quiet c raw s fits evaluated quiet]
      rfl
  case fails =>
    intro c raw s held bad outside
    have faulty := (sampled_fails outside held bad.ge).1
    have same : exec (.analogChannelFaulty c raw) s = .next (sampleAt c raw s) :=
      congrArg Host.Outcome.next (if_pos (by simp [AnalogChannel.failing, held, bad, outside]))
    refine ⟨same, _, same, by rw [sampleAt_channel, faulty], ?_, fun run k corner => ?_, fun steers => ?_⟩
    · rw [sampleAt_fails held faulty]
      exact finish_flagged analogFails_flagged
    · rw [sampleAt_fails held faulty]
      exact (finish_faults _ k).mpr (analogFails_corner (s := s.withSample c raw) (inRun_iff.mpr run) corner)
    · rw [sampleAt_fails held faulty, (finish_steerEnds _).latch]
      exact analogFails_latch steers
  case recovers =>
    intro c raw s faulty good inside
    obtain ⟨valid, value, -, -⟩ := sampled_recovers inside faulty good.ge
    have same : exec (.analogChannelRecovery c raw) s = .next (sampleAt c raw s) :=
      congrArg Host.Outcome.next (if_pos (by simp [AnalogChannel.recovering, faulty, good, inside]))
    exact ⟨same, _, same, by rw [sampleAt_channel, valid], by rw [sampleAt_channel, value]⟩
  case noFault =>
    intro sound
    refine congrArg Host.Outcome.next (if_neg ?_)
    simp only [AnalogChannel.failing, Bool.and_eq_true, decide_eq_true_eq, Bool.not_eq_true']
    rintro ⟨⟨held, bad⟩, outside⟩
    rcases sound with other | few | inside
    · exact other held
    · omega
    · simp [outside] at inside
  case noRecovery =>
    intro stays
    refine congrArg Host.Outcome.next (if_neg ?_)
    simp only [AnalogChannel.recovering, Bool.and_eq_true, decide_eq_true_eq]
    rintro ⟨⟨faulty, good⟩, inside⟩
    rcases stays with other | few | outside
    · exact other faulty
    · omega
    · simp [outside] at inside

end Sys2Proof.Machine
end

