-- ==== Sys2Proof/Proofs/Speed.lean ====
section
/-! PROOF. What a speed update forms, and the statements SpeedOfValidWheels and SpeedUpdateForms. -/

namespace Sys2Proof.Machine

/-! ## The vehicle speed and direction (R10, R11) -/

theorem vehicleSpeed_perm {l m : List Nat} (perm : l.Perm m) : vehicleSpeed l = vehicleSpeed m := by
  have top : l.foldl max 0 = m.foldl max 0 := perm.foldl_eq 0
  have bottom : l.foldl min 1200 = m.foldl min 1200 := perm.foldl_eq 1200
  rw [vehicleSpeed, vehicleSpeed, top, bottom, perm.length_eq, perm.sum_eq]

/-- Settles O41: the extremes that R10 leaves out are the first and the last of the channels in order. -/
theorem speedOfValidWheels : Obligations.SpeedOfValidWheels := by
  unfold Obligations.SpeedOfValidWheels
  refine ⟨fun l a b c d ab bc cd bound perm => ?four, fun l a b c ab bc bound perm => ?three, fun a b => ?two, fun l few => ?few⟩
  case four =>
    rw [vehicleSpeed_perm perm]
    simp only [vehicleSpeed, List.foldl_cons, List.foldl_nil, List.length_cons, List.length_nil, List.sum_cons, List.sum_nil,
      Option.some.injEq]
    omega
  case three =>
    rw [vehicleSpeed_perm perm]
    simp only [vehicleSpeed, List.foldl_cons, List.foldl_nil, List.length_cons, List.length_nil, List.sum_cons, List.sum_nil,
      Option.some.injEq]
    omega
  case two => simp [vehicleSpeed]
  case few =>
    match l, few with
    | [], _ => rfl
    | [_], _ => rfl

/-- R11: the direction is REVERSE exactly while more VALID channels that turn show REVERSE than FORWARD. -/
theorem vehicleDirection_reverse (w : Vector WheelChannel 4) :
    let showing := fun r : Direction => ((List.finRange 4).filter fun i => decide ((rd w i).faulty = false
      ∧ 0 < (rd w i).speed ∧ (rd w i).direction = r)).length
    vehicleDirection w = .reverse ↔ showing .forward < showing .reverse := by
  intro showing
  let moving := (validWheels w).filter fun i => decide (0 < (rd w i).speed)
  have shown : ∀ r, (moving.filter fun i => decide ((rd w i).direction = r)).length = showing r := by
    intro r
    simp only [moving, showing, validWheels, List.filter_filter]
    congr 2
    funext i
    cases (rd w i).faulty <;> simp [and_comm]
  have rest : (moving.filter fun i => !decide ((rd w i).direction = .reverse)) = moving.filter fun i => decide ((rd w i).direction = .forward) := by
    refine congrArg (moving.filter ·) (funext fun i => ?_)
    cases (rd w i).direction <;> rfl
  have split : moving.length = showing .reverse + showing .forward := by
    rw [← shown .reverse, ← shown .forward, ← rest]
    exact List.length_eq_length_filter_add _
  have back : vehicleDirection w = if moving.length < 2 * showing .reverse then .reverse else .forward := by
    rw [← shown .reverse]
    rfl
  rw [back, split]
  split_ifs with more
  · exact iff_of_true rfl (by omega)
  · exact iff_of_false (by simp) (by omega)

/-! ## The motion state (R15) -/

section
variable {low band v timer : Nat}

theorem motionAfter_stopping {m : MotionState} (from' : m = .unknown ∨ m = .rolling) (below : v < low) :
    motionAfter low band (some v) m timer = (.settling, 0) := by
  rcases from' with rfl | rfl <;> simp [motionAfter, below]

theorem motionAfter_driving {m : MotionState} (from' : m = .unknown ∨ m = .rolling) (above : low ≤ v) :
    motionAfter low band (some v) m timer = (.rolling, timer) := by
  rcases from' with rfl | rfl <;> simp [motionAfter, Nat.not_lt.mpr above]

theorem motionAfter_settling :
    motionAfter low band (some v) .settling timer
      = if v < low then (if timer + 20 < 300 then (.settling, timer + 20) else (.standstill, 0))
        else if v < low + band then (.settling, 0) else (.rolling, 0) := rfl

theorem motionAfter_standing : motionAfter low band (some v) .standstill timer
    = if v < low + band then (.standstill, timer) else (.rolling, timer) := rfl

end

/-! ## A speed update -/

/-- The state at the start of a speed update. -/
def State.atSpeedUpdate (s : State) : State :=
  (s.advanceTo (s.mot.lastUpdate + 20000)).modMot fun m => { m with lastUpdate := max s.now (s.mot.lastUpdate + 20000) }

/-- What MOT forms at a speed update, before it hands it on. -/
def State.formed (s : State) : State :=
  Mot.formMotion (Mot.formDistance (Mot.formSpeed s.mot.wheels (Mot.judgeWheels s.atSpeedUpdate)))

/-- From the first state to the second MOT has moved no value but the rollback watch, and the base of R15's hand-off stands. -/
structure Watches (s t : State) : Prop where
  now : t.now = s.now
  cfg : t.cfg = s.cfg
  registry : t.ilt.registry = s.ilt.registry
  queue : t.lnk.queue = s.lnk.queue
  answer : t.lnk.answer = s.lnk.answer
  lastTemp : t.vda.lastTemp = s.vda.lastTemp
  mot : ∃ a r, t.mot = { s.mot with armed := a, reference := r }

theorem Watches.trans {s t u : State} (h : Watches s t) (k : Watches t u) : Watches s u where
  now := k.now.trans h.now
  cfg := k.cfg.trans h.cfg
  registry := k.registry.trans h.registry
  queue := k.queue.trans h.queue
  answer := k.answer.trans h.answer
  lastTemp := k.lastTemp.trans h.lastTemp
  mot := by
    obtain ⟨a, r, first⟩ := h.mot
    obtain ⟨a', r', second⟩ := k.mot
    exact ⟨a', r', by rw [second, first]⟩

theorem SameBase.watches {s t : State} (h : SameBase s t) : Watches s t :=
  ⟨h.now, h.cfg, h.registry, h.queue, h.answer, h.lastTemp, s.mot.armed, s.mot.reference, h.mot⟩

theorem Evolves.watches {s t : State} (h : Evolves s t) : Watches s t := h.base.watches

theorem Watches.refl (s : State) : Watches s s := Evolves.refl.watches

theorem watches_rollback (a : Bool) (r : BitVec 32) (s : State) : Watches s (s.modMot fun m => { m with armed := a, reference := r }) :=
  ⟨rfl, rfl, rfl, rfl, rfl, rfl, a, r, rfl⟩

theorem Watches.ite {p : Prop} [Decidable p] {s t u : State} (h : Watches s t) (k : Watches s u) : Watches s (if p then t else u) := by
  split
  · exact h
  · exact k

theorem reportWheels_evolves (before : Vector WheelChannel 4) (s : State) : Evolves s (reportWheels before s) :=
  ev_foldl _ _ (fun _ _ h => ev_ite (ev_post _ h) h) .refl

theorem arm_watches (s : State) : Watches s (Mot.arm s) := .ite (watches_rollback _ _ s) (.refl s)

theorem motionChanged_watches (s : State) : Watches s (motionChanged s) :=
  (arm_watches s).trans (Evolves.watches (ev_onMotion (ev_brkJudge .refl)))

theorem rollback_evolves (s : State) : Evolves s (Brk.rollback s) := by
  unfold Brk.rollback
  refine ev_post _ ?_
  split
  · exact ev_brk _ (ev_openSelf _ _ _ ⟨450, rfl, by decide, by decide⟩ rfl .refl)
  · exact .refl

theorem judgeRollback_watches (s : State) : Watches s (Mot.judgeRollback s) := by
  unfold Mot.judgeRollback
  have moved := watches_rollback s.mot.armed (movedReference s.rollWatched s.selected s.mot.counter s.mot.reference) s
  exact .ite (.ite ((moved.trans (watches_rollback false _ _)).trans (rollback_evolves _).watches) moved) (.refl s)

theorem speedUpdateAt_watches (s : State) : Watches s.formed (speedUpdateAt s) := by
  have reported := (reportWheels_evolves s.mot.wheels s.formed).watches
  have handed : Watches s.formed (if (reportWheels s.mot.wheels s.formed).mot.motion ≠ s.mot.motion then
      motionChanged (reportWheels s.mot.wheels s.formed) else reportWheels s.mot.wheels s.formed) :=
    .ite (reported.trans (motionChanged_watches _)) reported
  exact (handed.trans (judgeRollback_watches _)).trans (Evolves.watches (ev_finish (ev_retireForSpeed .refl)))

/-! ## What MOT forms -/

section
variable (s : State)

/-- The wheel channels judged at the speed update of a state (R6 to R8). -/
def State.judgedWheels : Vector WheelChannel 4 :=
  mapF s.mot.wheels fun i w => w.judge s.mot.speed s.atSpeedUpdate.wheelSpeeds i

theorem formed_mot : s.formed.mot = { s.mot with
    lastUpdate := max s.now (s.mot.lastUpdate + 20000)
    wheels := mapF s.judgedWheels fun _ w => { w with tally := 0 }
    speed := vehicleSpeed (((List.finRange 4).filter fun i =>
        !(rd s.mot.wheels i).faulty && !(rd s.judgedWheels i).faulty).map fun i => (rd s.judgedWheels i).speed)
    direction := vehicleDirection s.judgedWheels
    counter := if (validWheels s.judgedWheels).isEmpty then s.mot.counter
      else s.mot.counter + BitVec.ofInt 32 (intervalTravel s.judgedWheels s.cfg.settings.ppm s.mot.residue).trunc
    residue := if (validWheels s.judgedWheels).isEmpty then s.mot.residue
      else (intervalTravel s.judgedWheels s.cfg.settings.ppm s.mot.residue).rest
    motion := (motionAfter s.cfg.settings.threshold s.cfg.settings.bandWidth s.formed.mot.speed s.mot.motion s.mot.settleTimer).1
    settleTimer := (motionAfter s.cfg.settings.threshold s.cfg.settings.bandWidth s.formed.mot.speed s.mot.motion
      s.mot.settleTimer).2 } := rfl

theorem formed_motion : (s.formed.mot.motion, s.formed.mot.settleTimer)
    = motionAfter s.cfg.settings.threshold s.cfg.settings.bandWidth s.formed.mot.speed s.mot.motion s.mot.settleTimer := rfl

theorem speedUpdateAt_mot : ∃ a r, (speedUpdateAt s).mot = { s.formed.mot with armed := a, reference := r } :=
  (speedUpdateAt_watches s).mot

theorem speedUpdateAt_wheels : (speedUpdateAt s).mot.wheels = mapF s.judgedWheels fun _ w => { w with tally := 0 } := by
  obtain ⟨a, r, same⟩ := speedUpdateAt_mot s
  rw [same, formed_mot]

theorem speedUpdateAt_wheel (i : Fin 4) : rd (speedUpdateAt s).mot.wheels i
    = { (rd s.mot.wheels i).judge s.mot.speed s.atSpeedUpdate.wheelSpeeds i with tally := 0 } := by
  rw [speedUpdateAt_wheels, rd_mapF, State.judgedWheels, rd_mapF]

theorem judge_speed (prev : Option Nat) (speeds : Vector Nat 4) (i : Fin 4) (w : WheelChannel) :
    (w.judge prev speeds i).speed = rd speeds i := by
  unfold WheelChannel.judge
  grind [WheelChannel.become]

theorem speedUpdateAt_motion : ((speedUpdateAt s).mot.motion, (speedUpdateAt s).mot.settleTimer)
    = motionAfter s.cfg.settings.threshold s.cfg.settings.bandWidth (speedUpdateAt s).mot.speed s.mot.motion s.mot.settleTimer := by
  obtain ⟨a, r, same⟩ := speedUpdateAt_mot s
  have motion : (speedUpdateAt s).mot.motion = s.formed.mot.motion := by rw [same]
  have timer : (speedUpdateAt s).mot.settleTimer = s.formed.mot.settleTimer := by rw [same]
  have speed : (speedUpdateAt s).mot.speed = s.formed.mot.speed := by rw [same]
  rw [motion, timer, speed]
  exact formed_motion s

/-- The speed of a wheel after the update is the one R6 gives. -/
theorem speedUpdateAt_wheelSpeed (i : Fin 4) : (rd (speedUpdateAt s).mot.wheels i).speed
    = wheelSpeed (max s.now (s.mot.lastUpdate + 20000)) (rd s.cfg.settings.ppm i) (s.fresh + i.val) (rd s.mot.wheels i) := by
  rw [speedUpdateAt_wheel]
  show ((rd s.mot.wheels i).judge s.mot.speed s.atSpeedUpdate.wheelSpeeds i).speed = _
  rw [judge_speed, State.wheelSpeeds, rd_mapF]
  rfl

theorem speedUpdateAt_speeds : (mapF (speedUpdateAt s).mot.wheels fun _ w => w.speed) = s.atSpeedUpdate.wheelSpeeds :=
  ext_rd fun i => by
    rw [rd_mapF, speedUpdateAt_wheelSpeed, State.wheelSpeeds, rd_mapF]
    rfl

theorem rd_judged (i : Fin 4) : (rd s.judgedWheels i).faulty = (rd (speedUpdateAt s).mot.wheels i).faulty
    ∧ (rd s.judgedWheels i).speed = (rd (speedUpdateAt s).mot.wheels i).speed
    ∧ (rd s.judgedWheels i).direction = (rd (speedUpdateAt s).mot.wheels i).direction := by
  rw [speedUpdateAt_wheels, rd_mapF]
  exact ⟨rfl, rfl, rfl⟩

theorem validWheels_judged : validWheels (speedUpdateAt s).mot.wheels = validWheels s.judgedWheels := by
  simp only [validWheels, (rd_judged s _).1]

theorem vehicleDirection_judged : vehicleDirection (speedUpdateAt s).mot.wheels = vehicleDirection s.judgedWheels := by
  simp only [vehicleDirection, validWheels_judged, (rd_judged s _).2.1, (rd_judged s _).2.2]

end

theorem wheelSpeed_still {now ppm fresh : Nat} {w : WheelChannel} (still : w.lastEdge = none ∨ w.period = none
    ∨ ∃ e, w.lastEdge = some e ∧ 2000000 < now - e) : wheelSpeed now ppm fresh w = 0 := by
  unfold wheelSpeed
  split
  case h_1 p e period edge =>
    simp only [period, edge, Option.some.injEq, exists_eq_left', reduceCtorEq, false_or] at still
    rw [if_pos still]
  case h_2 => rfl
  case h_3 => rfl

theorem wheelSpeed_turning {now ppm fresh p e : Nat} {w : WheelChannel} (edge : w.lastEdge = some e) (period : w.period = some p)
    (fresh' : now - e ≤ 2000000) (pos : 0 < max p (now - e)) :
    wheelSpeed now ppm fresh w = min 1200 (36000000 / (ppm * max p (now - e))) := by
  simp only [wheelSpeed, edge, period]
  rw [if_neg (Nat.not_lt.mpr fresh'), if_neg pos.ne']

/-- Settles O42. -/
theorem speedUpdateForms : Obligations.SpeedUpdateForms := by
  unfold Obligations.SpeedUpdateForms
  intro s
  obtain ⟨a, r, mot⟩ := speedUpdateAt_mot s
  have watches := speedUpdateAt_watches s
  have now : (speedUpdateAt s).now = max s.now (s.mot.lastUpdate + 20000) := watches.now
  have edges : ∀ i, (rd (speedUpdateAt s).mot.wheels i).speed
      = wheelSpeed (speedUpdateAt s).now (rd s.cfg.settings.ppm i) (s.fresh + i.val) (rd s.mot.wheels i) := by
    intro i
    rw [now, speedUpdateAt_wheelSpeed]
  have direction : (speedUpdateAt s).mot.direction = vehicleDirection (speedUpdateAt s).mot.wheels := by
    rw [vehicleDirection_judged, mot, formed_mot]
  have motion : ((speedUpdateAt s).mot.motion, (speedUpdateAt s).mot.settleTimer)
      = motionAfter s.cfg.settings.threshold s.cfg.settings.bandWidth (speedUpdateAt s).mot.speed s.mot.motion s.mot.settleTimer := speedUpdateAt_motion s
  refine ⟨_, rfl, now, ?_, watches.cfg, ?_, ?_, ?_, ?_, watches.registry, watches.queue, watches.answer, watches.lastTemp,
    ?_, ?_, ?_, ?_, direction, ?_, ?_, ?_⟩
  · rw [now, mot, formed_mot]
  iterate 4 (next => rw [mot, formed_mot])
  · intro i
    rw [speedUpdateAt_speeds, speedUpdateAt_wheel]
  · intro i e edge
    rw [edges]
    exact ⟨fun old => wheelSpeed_still (.inr (.inr ⟨e, edge, old⟩)), fun first => wheelSpeed_still (.inr (.inl first)),
      fun p period fresh pos => wheelSpeed_turning edge period fresh pos⟩
  · intro i none
    rw [edges]
    exact wheelSpeed_still (.inl none)
  · simp only [← (rd_judged s _).1, ← (rd_judged s _).2.1]
    rw [mot, formed_mot]
  · rw [direction]
    exact vehicleDirection_reverse _
  · intro none
    rw [none] at motion
    exact Prod.mk.inj motion
  · rintro v low high speed rfl rfl
    rw [speed] at motion
    have both : ∀ {m : MotionState} {n : Nat}, motionAfter s.cfg.settings.threshold s.cfg.settings.bandWidth (some v) s.mot.motion
        s.mot.settleTimer = (m, n) → (speedUpdateAt s).mot.motion = m ∧ (speedUpdateAt s).mot.settleTimer = n :=
      fun h => Prod.mk.inj (motion.trans h)
    have high : s.cfg.settings.threshold + 2 * 2 ^ s.cfg.settings.band = s.cfg.settings.threshold + s.cfg.settings.bandWidth := rfl
    rw [high]
    refine ⟨fun from' below => both (motionAfter_stopping from' below), fun from' above => both (motionAfter_driving from' above),
      fun from' below early => both ?_, fun from' below late => both ?_, fun from' above below => both ?_, fun from' above => both ?_,
      fun from' below => both ?_, fun from' above => both ?_⟩
    · rw [from', motionAfter_settling, if_pos below, if_pos early]
    · rw [from', motionAfter_settling, if_pos below, if_neg (Nat.not_lt.mpr late)]
    · rw [from', motionAfter_settling, if_neg (Nat.not_lt.mpr above), if_pos below]
    · rw [from', motionAfter_settling, if_neg (by omega), if_neg (Nat.not_lt.mpr above)]
    · rw [from', motionAfter_standing, if_pos below]
    · rw [from', motionAfter_standing, if_neg (Nat.not_lt.mpr above)]

end Sys2Proof.Machine
end

