-- ==== Sys2Proof/Proofs/Distance.lean ====
section
/-! PROOF. The distance counter in exact fractions, and the statement DistanceIsExact. -/

namespace Sys2Proof.Machine

/-! ## Exact fractions (R12) -/

/-- The rational number that a fraction stands for. -/
def ratOf (f : Fraction) : ℚ := (f.num : ℚ) / f.den

theorem ratOf_reduce {num : Int} {den : Nat} (pos : 0 < den) :
    ratOf (Fraction.reduce num den) = (num : ℚ) / den ∧ 0 < (Fraction.reduce num den).den := by
  have gcd_pos : 0 < Nat.gcd num.natAbs den := Nat.gcd_pos_of_pos_right _ pos
  have g : max 1 (Nat.gcd num.natAbs den) = Nat.gcd num.natAbs den := by omega
  obtain ⟨d, hd⟩ : Nat.gcd num.natAbs den ∣ den := Nat.gcd_dvd_right _ _
  obtain ⟨n, hn⟩ : (Nat.gcd num.natAbs den : Int) ∣ num := Int.natCast_dvd.mpr (Nat.gcd_dvd_left _ _)
  have shape : Fraction.reduce num den = { num := n, den := d } := by
    simp only [Fraction.reduce, g]
    generalize Nat.gcd num.natAbs den = k at *
    rw [hd, hn, Nat.mul_div_cancel_left _ gcd_pos, Int.mul_ediv_cancel_left _ (by omega)]
  have cast : (num : ℚ) / den = n / d := by
    have nonzero : (Nat.gcd num.natAbs den : ℚ) ≠ 0 := by exact_mod_cast gcd_pos.ne'
    rw [show (num : ℚ) = Nat.gcd num.natAbs den * n by exact_mod_cast hn, show (den : ℚ) = Nat.gcd num.natAbs den * d by exact_mod_cast hd,
      mul_div_mul_left _ _ nonzero]
  rw [shape, cast]
  refine ⟨rfl, Nat.pos_of_ne_zero ?_⟩
  rintro rfl
  omega

theorem ratOf_add {a b : Fraction} (ha : 0 < a.den) (hb : 0 < b.den) :
    ratOf (a.add b) = ratOf a + ratOf b ∧ 0 < (a.add b).den := by
  obtain ⟨value, pos⟩ := ratOf_reduce (num := a.num * b.den + b.num * a.den) (Nat.mul_pos ha hb)
  refine ⟨value.trans ?_, pos⟩
  have ha' : (a.den : ℚ) ≠ 0 := by exact_mod_cast ha.ne'
  have hb' : (b.den : ℚ) ≠ 0 := by exact_mod_cast hb.ne'
  rw [ratOf, ratOf]
  push_cast
  field_simp

/-- Fractions added one after the other. -/
theorem ratOf_foldl {α : Type} (f : α → Fraction) (l : List α) {start : Fraction} (hs : 0 < start.den)
    (hf : ∀ x, 0 < (f x).den) :
    ratOf (l.foldl (fun acc x => acc.add (f x)) start) = (l.map fun x => ratOf (f x)).sum + ratOf start
      ∧ 0 < (l.foldl (fun acc x => acc.add (f x)) start).den := by
  induction l generalizing start with
  | nil => exact ⟨(zero_add _).symm, hs⟩
  | cons x l ih =>
    obtain ⟨value, pos⟩ := ratOf_add hs (hf x)
    obtain ⟨total, pos'⟩ := ih pos
    refine ⟨?_, pos'⟩
    rw [List.foldl_cons, total, value, List.map_cons, List.sum_cons]
    ring

theorem ratOf_nonneg {a : Fraction} (pos : 0 < a.den) : 0 ≤ ratOf a ↔ 0 ≤ a.num := by
  have den : (0 : ℚ) < a.den := by exact_mod_cast pos
  rw [ratOf, le_div_iff₀ den, zero_mul]
  exact Int.cast_nonneg_iff

theorem ratOf_trunc {a : Fraction} (pos : 0 < a.den) :
    (0 ≤ ratOf a → a.trunc = ⌊ratOf a⌋) ∧ (ratOf a < 0 → a.trunc = ⌈ratOf a⌉) := by
  constructor
  · intro nonneg
    rw [ratOf, Rat.floor_intCast_div_natCast, Fraction.trunc, Int.tdiv_eq_ediv_of_nonneg ((ratOf_nonneg pos).mp nonneg)]
  · intro neg
    have below : a.num < 0 := not_le.mp fun h => not_le.mpr neg ((ratOf_nonneg pos).mpr h)
    rw [ratOf, Rat.ceil_intCast_div_natCast, Fraction.trunc, ← Int.tdiv_eq_ediv_of_nonneg (by omega), Int.neg_tdiv, neg_neg]

theorem ratOf_rest {a : Fraction} (pos : 0 < a.den) :
    ratOf a.rest = ratOf a - a.trunc ∧ 0 < a.rest.den := by
  obtain ⟨value, pos'⟩ := ratOf_reduce (num := a.num - a.trunc * a.den) pos
  refine ⟨value.trans ?_, pos'⟩
  have den : (a.den : ℚ) ≠ 0 := by exact_mod_cast pos.ne'
  rw [ratOf]
  push_cast
  field_simp

/-! ## The distance counter -/

theorem judge_tally (prev : Option Nat) (speeds : Vector Nat 4) (i : Fin 4) (w : WheelChannel) :
    (w.judge prev speeds i).tally = w.tally := by
  unfold WheelChannel.judge
  grind [WheelChannel.become]

/-- R12: the travel of an interval is the sum of the mean travels and the residue. -/
theorem ratOf_intervalTravel {w : Vector WheelChannel 4} {ppm : Vector Nat 4} {residue : Fraction} (some' : 0 < (validWheels w).length)
    (pos : ∀ i, 0 < rd ppm i) (den : 0 < residue.den) :
    ratOf (intervalTravel w ppm residue) = ((validWheels w).map fun i =>
        ((100 * (rd w i).tally : Int) : ℚ) / ((rd ppm i * (validWheels w).length : Nat) : ℚ)).sum + ratOf residue
      ∧ 0 < (intervalTravel w ppm residue).den := by
  have share : ∀ i, 0 < rd ppm i * (validWheels w).length := fun i => Nat.mul_pos (pos i) some'
  obtain ⟨value, pos'⟩ := ratOf_foldl (fun i => Fraction.reduce (100 * (rd w i).tally) (rd ppm i * (validWheels w).length))
    (validWheels w) den fun i => (ratOf_reduce (share i)).2
  refine ⟨value.trans ?_, pos'⟩
  simp only [fun i => (ratOf_reduce (num := 100 * (rd w i).tally) (share i)).1]

theorem speedUpdateAt_distance (s : State) : (speedUpdateAt s).mot.counter = s.formed.mot.counter
    ∧ (speedUpdateAt s).mot.residue = s.formed.mot.residue := by
  obtain ⟨a, r, same⟩ := speedUpdateAt_mot s
  rw [same]
  exact ⟨rfl, rfl⟩

theorem judged_tally (s : State) (i : Fin 4) : (rd s.judgedWheels i).tally = (rd s.mot.wheels i).tally := by
  rw [State.judgedWheels, rd_mapF, judge_tally]

/-- Settles O43. -/
theorem distanceIsExact : Obligations.DistanceIsExact := by
  unfold Obligations.DistanceIsExact
  rintro s t k ran rfl
  obtain rfl : speedUpdateAt s = t := by
    injection ran
  obtain ⟨counter, residue⟩ := speedUpdateAt_distance s
  rw [counter, residue, validWheels_judged, formed_mot]
  constructor
  · intro none
    have empty : (validWheels s.judgedWheels).isEmpty = true := List.isEmpty_iff.mpr (List.length_eq_zero_iff.mp none)
    exact ⟨if_pos empty, if_pos empty⟩
  · intro some' den ppm
    have filled : ¬ (validWheels s.judgedWheels).isEmpty = true := fun empty =>
      absurd (List.isEmpty_iff.mp empty) (List.length_pos_iff.mp some')
    obtain ⟨value, pos⟩ := ratOf_intervalTravel (w := s.judgedWheels) some' ppm den
    obtain ⟨whole, rest⟩ := ratOf_trunc pos
    obtain ⟨left, pos'⟩ := ratOf_rest pos
    refine ⟨ratOf (intervalTravel s.judgedWheels s.cfg.settings.ppm s.mot.residue), _, ?_, whole, rest, if_neg filled, ?_, ?_⟩
    · rw [value]
      simp only [judged_tally]
      rfl
    · simp only [if_neg filled]
      exact pos'
    · simp only [if_neg filled]
      exact left

end Sys2Proof.Machine
end

