-- ==== Sys2Proof/Proofs/HoldFits.lean ====
section
/-! PROOF. BRK at a hand-off and at the end of an event: where it stands as the table gives it. -/

namespace Sys2Proof.Machine

/-! ## BRK as the table gives it (R120, R121) -/

/-- The contributors' pressures decide what `HoldsFit` asks of BRK. -/
theorem holdsFit_congr {s t : State} (h : s.HoldsFit) (cfg : t.cfg = s.cfg) (motion : t.mot.motion = s.mot.motion)
    (drive : t.mot.driveReq.debounced = s.mot.driveReq.debounced)
    (entries : ∀ P : Nat → Prop, (∃ e ∈ t.live, e.HoldsIn s.mot.motion ∧ P (e.pressure s.cfg.settings.doorHold))
      ↔ ∃ e ∈ s.live, e.HoldsIn s.mot.motion ∧ P (e.pressure s.cfg.settings.doorHold))
    (hold : t.brk.hold = s.brk.hold) (target : t.brk.target = s.brk.target) : t.HoldsFit := by
  have all : ∀ P : Nat → Prop, (∀ e ∈ t.live, e.HoldsIn s.mot.motion → P (e.pressure s.cfg.settings.doorHold))
      ↔ ∀ e ∈ s.live, e.HoldsIn s.mot.motion → P (e.pressure s.cfg.settings.doorHold) := by
    intro P
    have none := not_congr (entries fun p => ¬ P p)
    simpa only [not_exists, not_and, not_not] using none
  have some' := entries fun _ => True
  simp only [and_true] at some'
  have none := all fun _ => False
  constructor
  · rw [cfg, motion, hold, target, some', all fun p => p ≤ s.brk.target, entries fun p => p = s.brk.target]
    exact h.held
  · rw [cfg, motion, hold, drive, none]
    exact h.free

theorem holdsFit_of_live {s t : State} (h : s.HoldsFit) (live : t.live = s.live) (cfg : t.cfg = s.cfg) (mot : t.mot = s.mot)
    (brk : t.brk = s.brk) : t.HoldsFit :=
  holdsFit_congr h cfg (by rw [mot]) (by rw [mot]) (fun _ => by rw [live]) (by rw [brk]) (by rw [brk])

/-- BRK's judgement changes nothing where BRK already stands as the table gives it. -/
theorem brkJudge_of_holdsFit {s : State} (h : s.HoldsFit) : Brk.judge s = s := by
  unfold Brk.judge
  split
  case isFalse => rfl
  case isTrue run =>
    have device : s.cfg.device = .run := inRun_iff.mp run
    cases max : s.contributorMax with
    | some m =>
      obtain ⟨bound, e, there, holds, largest⟩ := State.contributorMax_some max
      obtain ⟨hold, above, f, there', holds', largest'⟩ := h.held device ⟨e, there, holds⟩
      have target : m = s.brk.target := le_antisymm (largest ▸ above e there holds) (largest' ▸ bound f there' holds')
      rcases hold with hold | hold <;> simp only [hold, Brk.moveTarget, if_pos target]
    | none =>
      rcases h.free device (State.contributorMax_none.mp max) with hold | hold | ⟨hold, drive, motion⟩
      · simp only [hold]
      · simp only [hold]
      · have stays : ¬ (s.brk.hold = .waitDrive ∧ (s.mot.driveReq.debounced = true ∨ s.mot.motion = .rolling)) := by
          simp [drive, motion]
        simp only [hold, Brk.leaveWait] at stays ⊢
        exact if_neg stays

theorem handOff_brk_after (v : EntryEvent) (e : Entry) (s : State) : (handOff v e s).brk =
    (if e.kind.holds then Brk.judge (if v = .opened then Brk.markDoor e s else s) else (if v = .opened then Brk.markDoor e s else s)).brk := by
  unfold handOff
  have startCentring : ∀ {p : Prop} [Decidable p] (u : State), (if p then Stc.startCentring u else u).brk = u.brk := fun u => by
    split
    · exact (stc_startCentring_beside u).1
    · rfl
  have fromTable : ∀ {p : Prop} [Decidable p] (u : State), (if p then Crn.fromTable u else u).brk = u.brk := fun u => by
    split
    · exact (crn_fromTable_beside u).2
    · rfl
  have rides : ∀ {p : Prop} [Decidable p] (u : State), (if p then Rlu.fromTable u else u).brk = u.brk := fun u => by
    split
    · exact rlu_fromTable_brk u
    · rfl
  rw [startCentring, fromTable, rides]

theorem handOff_changed_brk {s : State} (e : Entry) {v : EntryEvent} (v' : v ≠ .opened) (h : s.HoldsFit) : (handOff v e s).brk = s.brk := by
  rw [handOff_brk_after, if_neg v', brkJudge_of_holdsFit h, ite_self]

theorem markDoor_hold (e : Entry) (s : State) : (Brk.markDoor e s).brk.hold = s.brk.hold ∧ (Brk.markDoor e s).brk.target = s.brk.target := by
  unfold Brk.markDoor
  split <;> exact ⟨rfl, rfl⟩

/-- A hand-off to BRK leaves it as the table gives it, and any other hand-off keeps it so. -/
theorem handOff_holdsFit {s : State} (v : EntryEvent) (e : Entry) (h : e.kind.holds = true ∨ s.HoldsFit) : (handOff v e s).HoldsFit := by
  let u := if v = .opened then Brk.markDoor e s else s
  have marked : Blocks s u := bl_ite (bl_markDoor e (.refl s)) (.refl s)
  have blocks := handOff_blocks v e s
  have same : (handOff v e s).brk = (if e.kind.holds then Brk.judge u else u).brk := handOff_brk_after v e s
  cases holds : e.kind.holds with
  | true =>
    have judged := brkJudge_blocks u
    rw [holds, if_pos rfl] at same
    refine holdsFit_of_live (brk_judge_holdsFit u) ?_ ?_ ?_ same
    · rw [blocks.live, judged.live, marked.live]
    · rw [blocks.cfg, judged.cfg, marked.cfg]
    · rw [blocks.mot, judged.mot, marked.mot]
  | false =>
    have fits : s.HoldsFit := h.resolve_left (by simp [holds])
    have hold : u.brk.hold = s.brk.hold ∧ u.brk.target = s.brk.target := by
      unfold u
      split
      · exact markDoor_hold e s
      · exact ⟨rfl, rfl⟩
    rw [holds, if_neg (by simp)] at same
    exact holdsFit_congr fits blocks.cfg (by rw [blocks.mot]) (by rw [blocks.mot]) (fun _ => by rw [blocks.live])
      (by rw [same, hold.1]) (by rw [same, hold.2])

theorem holdsIn_evaluated (b : Bool) (m : MotionState) (e : Entry) : (e.evaluated b).HoldsIn m ↔ e.HoldsIn m := by
  rw [← Entry.contributes_iff, ← Entry.contributes_iff, contributes_evaluated]

theorem retabled_holdsFit {s : State} (h : s.HoldsFit) : s.retabled.HoldsFit := by
  obtain ⟨mot, cfg, -, brk, -⟩ := retabled_beside s
  refine holdsFit_congr h cfg (by rw [mot]) (by rw [mot]) (fun P => ?_) (by rw [brk]) (by rw [brk])
  rw [retabled_live]
  simp only [List.mem_map, exists_exists_and_eq_and, holdsIn_evaluated]
  rfl

theorem handOffs_brk (l : List Entry) {s : State} (h : s.HoldsFit) :
    (l.foldl (fun s e => handOff .changed e s) s).HoldsFit ∧ (l.foldl (fun s e => handOff .changed e s) s).brk = s.brk := by
  induction l generalizing s with
  | nil => exact ⟨h, rfl⟩
  | cons e l ih =>
    obtain ⟨fits, same⟩ := ih (handOff_holdsFit .changed e (.inr h))
    exact ⟨fits, same.trans (handOff_changed_brk e (by simp) h)⟩

theorem evaluate_brk {s : State} (h : s.HoldsFit) : (evaluate s).HoldsFit ∧ (evaluate s).brk = s.brk := by
  obtain ⟨fits, same⟩ := handOffs_brk (s.live.filter fun e => decide ((e.evaluated (s.activates e.kind e.scope)).state ≠ e.state))
    (retabled_holdsFit h)
  exact ⟨fits, same.trans (retabled_beside s).2.2.2.1⟩

theorem evaluateOnce_brk {s : State} (h : s.HoldsFit) : (evaluateOnce s).HoldsFit ∧ (evaluateOnce s).brk = s.brk := by
  unfold evaluateOnce
  split
  · exact ⟨h, rfl⟩
  · exact evaluate_brk h

/-- The end of an event leaves BRK where it stands as the table gives it. -/
theorem finish_brk {s : State} (h : s.HoldsFit) : (State.finish s).HoldsFit ∧ (State.finish s).brk = s.brk := by
  have settled : (reevaluate s).HoldsFit ∧ (reevaluate s).brk = s.brk := by
    unfold reevaluate
    split
    · have one := evaluateOnce_brk h
      have two := evaluateOnce_brk one.1
      have three := evaluateOnce_brk two.1
      exact ⟨three.1, three.2.trans (two.2.trans one.2)⟩
    · exact ⟨h, rfl⟩
  exact ⟨holdsFit_of_live settled.1 (State.live_congr (dsvJudge_ilt _)) rfl rfl rfl, settled.2⟩

theorem finish_holdsFit {s : State} (h : s.HoldsFit) : (State.finish s).HoldsFit := (finish_brk h).1

end Sys2Proof.Machine
end

