-- ==== Sys2Proof/Proofs/RideFits.lean ====
section
/-! PROOF. RLU at a hand-off and at the end of an event: where it stands as the table gives it. -/

namespace Sys2Proof.Machine

/-! ## RLU as the table gives it (R103, R104) -/

/-- What RLU reads of an entry. -/
def Entry.rideView (e : Entry) : Kind × EntryState × Scope × Option Nat :=
  (e.kind, if e.kind = .rampOut then .stale else e.state, e.scope, e.parameter)

/-- From the first state to the second the table shows RLU the same entries. -/
structure RideViews (s t : State) : Prop where
  forth : ∀ e ∈ s.live, e.kind.rides = true → ∃ f ∈ t.live, f.rideView = e.rideView
  back : ∀ e ∈ t.live, e.kind.rides = true → ∃ f ∈ s.live, f.rideView = e.rideView

theorem rideViews_of_live {s t : State} (same : t.live = s.live) : RideViews s t :=
  ⟨fun e there _ => ⟨e, same ▸ there, rfl⟩, fun e there _ => ⟨e, same ▸ there, rfl⟩⟩

theorem RideViews.ex {s t : State} (h : RideViews s t) {Q : Entry → Prop} (rides : ∀ e, Q e → e.kind.rides = true)
    (views : ∀ e f : Entry, f.rideView = e.rideView → Q e → Q f) : (∃ e ∈ t.live, Q e) ↔ ∃ e ∈ s.live, Q e := by
  constructor
  · rintro ⟨e, there, q⟩
    obtain ⟨f, there', same⟩ := h.back e there (rides e q)
    exact ⟨f, there', views e f same q⟩
  · rintro ⟨e, there, q⟩
    obtain ⟨f, there', same⟩ := h.forth e there (rides e q)
    exact ⟨f, there', views e f same q⟩

theorem rideView_kind {e f : Entry} (same : f.rideView = e.rideView) : f.kind = e.kind := congrArg (fun v => v.1) same
theorem rideView_scope {e f : Entry} (same : f.rideView = e.rideView) : f.scope = e.scope := congrArg (fun v => v.2.2.1) same
theorem rideView_parameter {e f : Entry} (same : f.rideView = e.rideView) : f.parameter = e.parameter :=
  congrArg (fun v => v.2.2.2) same
theorem rideView_state {e f : Entry} (same : f.rideView = e.rideView) (kind : e.kind ≠ .rampOut) : f.state = e.state := by
  have view : (if f.kind = .rampOut then EntryState.stale else f.state) = if e.kind = .rampOut then .stale else e.state :=
    congrArg (fun v => v.2.1) same
  rwa [rideView_kind same, if_neg kind, if_neg kind] at view

theorem rides_iff {k : Kind} : k.rides = true ↔ k = .raise ∨ k = .kneel ∨ k = .rampOut := by simp [Kind.rides]

theorem ridesFit_congr {s t : State} (h : s.RidesFit) (views : RideViews s t)
    (side : t.cfg.settings.curbRight = s.cfg.settings.curbRight)
    (held : t.rlu.held = s.rlu.held) (ride : t.rlu.ride = s.rlu.ride) (kneel : t.rlu.kneel = s.rlu.kneel) : t.RidesFit := by
  have ramp := views.ex (Q := fun e => e.kind = .rampOut) (fun e q => rides_iff.mpr (by simp [q]))
    fun e f same q => (rideView_kind same).trans q
  have stale := views.ex (Q := fun e => e.kind = .kneel ∧ e.state = .stale) (fun e q => rides_iff.mpr (by simp [q.1]))
    fun e f same q => ⟨(rideView_kind same).trans q.1, (rideView_state same (by simp [q.1])).trans q.2⟩
  have raises : ∀ P : Nat → Prop, (∃ e ∈ t.live, e.kind = .raise ∧ e.state = .active ∧ P (e.parameter.getD 0))
      ↔ ∃ e ∈ s.live, e.kind = .raise ∧ e.state = .active ∧ P (e.parameter.getD 0) := fun P =>
    views.ex (fun e q => rides_iff.mpr (by simp [q.1])) fun e f same q =>
      ⟨(rideView_kind same).trans q.1, (rideView_state same (by simp [q.1])).trans q.2.1, by rw [rideView_parameter same]; exact q.2.2⟩
  have kneels : ∀ (C : Scope → Prop) (P : Nat → Prop),
      (∃ e ∈ t.live, e.kind = .kneel ∧ e.state = .active ∧ C e.scope ∧ P (e.parameter.getD 0))
        ↔ ∃ e ∈ s.live, e.kind = .kneel ∧ e.state = .active ∧ C e.scope ∧ P (e.parameter.getD 0) := fun C P =>
    views.ex (fun e q => rides_iff.mpr (by simp [q.1])) fun e f same q =>
      ⟨(rideView_kind same).trans q.1, (rideView_state same (by simp [q.1])).trans q.2.1, by rw [rideView_scope same]; exact q.2.2.1,
        by rw [rideView_parameter same]; exact q.2.2.2⟩
  constructor
  · rw [held, ramp, stale]
    exact h.held
  · rw [held, ride]
    intro free
    obtain ⟨bound, largest⟩ := h.ride free
    refine ⟨?_, largest.imp_right (raises fun p => p = s.rlu.ride).mpr⟩
    have none := not_congr (raises fun p => ¬ p ≤ s.rlu.ride)
    simp only [not_exists, not_and, not_not] at none
    exact none.mpr bound
  · rw [held, kneel, side]
    intro free c
    obtain ⟨bound, largest⟩ := h.kneel free c
    let C : Scope → Prop := fun sc => sc = .full ∨ (sc = .curb ∧ curbSide s.cfg.settings.curbRight c = true)
    refine ⟨?_, largest.imp_right (kneels C fun p => p = rd s.rlu.kneel c).mpr⟩
    have none := not_congr (kneels C fun p => ¬ p ≤ rd s.rlu.kneel c)
    simp only [not_exists, not_and, not_not] at none
    exact none.mpr bound

theorem ridesFit_of_live {s t : State} (h : s.RidesFit) (live : t.live = s.live) (cfg : t.cfg = s.cfg) (rlu : t.rlu = s.rlu) :
    t.RidesFit :=
  ridesFit_congr h (rideViews_of_live live) (by rw [cfg]) (by rw [rlu]) (by rw [rlu]) (by rw [rlu])

theorem covers_iff (curbRight : Bool) (c : Fin 6) (sc : Scope) :
    sc.covers curbRight c = true ↔ sc = .full ∨ (sc = .curb ∧ curbSide curbRight c = true) := by
  cases sc <;> simp [Scope.covers]

/-- The offsets in force are R103's and R104's where RLU has come to rest on the table. -/
theorem ridesFit_of_rests {s : State} (held : s.rlu.held = s.offsetsHeld) (rests : s.OffsetsRest) : s.RidesFit := by
  have free : s.rlu.held = false → s.rideOffset = s.rlu.ride ∧ (Vector.ofFn fun c : Fin 6 => s.kneelOffset c) = s.rlu.kneel := by
    intro free
    exact rests.resolve_left (by rw [← held, free]; simp)
  constructor
  · rw [held]
    simp [State.offsetsHeld, State.anyLive]
  · intro h
    obtain ⟨ride, -⟩ := free h
    rw [← ride]
    obtain ⟨-, bound, largest⟩ := foldl_max_spec (fun e => e.parameter.getD 0)
      (s.live.filter fun e => decide (e.kind = .raise ∧ e.state = .active)) 0
    simp only [List.mem_filter, decide_eq_true_eq] at bound largest
    exact ⟨fun e there kind state => bound e ⟨there, kind, state⟩,
      largest.imp_right fun ⟨e, ⟨there, kind, state⟩, same⟩ => ⟨e, there, kind, state, same⟩⟩
  · intro h c
    obtain ⟨-, kneel⟩ := free h
    rw [← kneel, rd_ofFn]
    obtain ⟨-, bound, largest⟩ := foldl_max_spec (fun e => e.parameter.getD 0)
      (s.live.filter fun e => decide (e.kind = .kneel ∧ e.state = .active) && e.scope.covers s.cfg.settings.curbRight c) 0
    simp only [List.mem_filter, Bool.and_eq_true, decide_eq_true_eq, covers_iff] at bound largest
    exact ⟨fun e there kind state covers => bound e ⟨there, ⟨kind, state⟩, covers⟩,
      largest.imp_right fun ⟨e, ⟨there, ⟨kind, state⟩, covers⟩, same⟩ => ⟨e, there, kind, state, covers, same⟩⟩

theorem rluFromTable_ridesFit (s : State) : (Rlu.fromTable s).RidesFit := by
  have blocks := bl_rluFromTable (.refl s)
  have held : (Rlu.fromTable s).rlu.held = s.offsetsHeld := by
    unfold Rlu.fromTable Rlu.takeOffsets
    dsimp only
    split <;> simp [Rlu.deriveKneel, Rlu.judgeCurbLow, Crn.change]
  refine ridesFit_of_rests ?_ (rlu_fromTable_rests s)
  rw [held, (State.offsets_congr blocks.live blocks.cfg).1]

theorem handOff_rlu_after (v : EntryEvent) (e : Entry) (s : State) :
    ∃ u, Blocks s u ∧ u.rlu = s.rlu ∧ (handOff v e s).rlu = (if e.kind.rides then Rlu.fromTable u else u).rlu := by
  refine ⟨if e.kind.holds then Brk.judge (if v = .opened then Brk.markDoor e s else s) else (if v = .opened then Brk.markDoor e s else s),
    bl_when Brk.judge (fun _ => bl_brkJudge) (bl_when (Brk.markDoor e) (fun _ => bl_markDoor e) (.refl s)), ?_, ?_⟩
  · have marked : (if v = .opened then Brk.markDoor e s else s).rlu = s.rlu := by
      split
      · unfold Brk.markDoor
        split <;> rfl
      · rfl
    rw [← marked]
    split
    · exact (brk_judge_beside _).1
    · rfl
  · unfold handOff
    have startCentring : ∀ {p : Prop} [Decidable p] (u : State), (if p then Stc.startCentring u else u).rlu = u.rlu := fun u => by
      split
      · exact (stc_startCentring_beside u).2.1
      · rfl
    have fromTable : ∀ {p : Prop} [Decidable p] (u : State), (if p then Crn.fromTable u else u).rlu = u.rlu := fun u => by
      split
      · exact (crn_fromTable_beside u).1
      · rfl
    rw [startCentring, fromTable]

/-- A hand-off to RLU leaves it as the table gives it, and any other hand-off keeps it so. -/
theorem handOff_ridesFit {s : State} (v : EntryEvent) (e : Entry) (h : e.kind.rides = true ∨ s.RidesFit) : (handOff v e s).RidesFit := by
  have blocks := handOff_blocks v e s
  obtain ⟨u, before, rlu, same⟩ := handOff_rlu_after v e s
  cases rides : e.kind.rides with
  | true =>
    rw [rides, if_pos rfl] at same
    have judged := bl_rluFromTable (.refl u)
    exact ridesFit_of_live (rluFromTable_ridesFit u) (by rw [blocks.live, judged.live, before.live])
      (by rw [blocks.cfg, judged.cfg, before.cfg]) same
  | false =>
    rw [rides, if_neg (by simp), rlu] at same
    exact ridesFit_of_live (h.resolve_left (by simp [rides])) blocks.live blocks.cfg same

theorem handOffs_ridesFit (l : List Entry) {s : State} (h : (∃ e ∈ l, e.kind.rides = true) ∨ s.RidesFit) :
    (l.foldl (fun s e => handOff .changed e s) s).RidesFit := by
  induction l generalizing s with
  | nil => exact h.resolve_left (by simp)
  | cons e l ih =>
    refine ih ?_
    rcases h with ⟨f, there, rides⟩ | fits
    · rcases List.mem_cons.mp there with rfl | later
      · exact .inr (handOff_ridesFit _ _ (.inl rides))
      · exact .inl ⟨f, later, rides⟩
    · exact .inr (handOff_ridesFit _ _ (.inr fits))

theorem evaluate_ridesFit {s : State} (h : s.RidesFit) : (evaluate s).RidesFit := by
  refine handOffs_ridesFit (s.live.filter fun e => decide ((e.evaluated (s.activates e.kind e.scope)).state ≠ e.state)) ?_
  by_cases changed : ∃ e ∈ s.live, e.kind.rides = true ∧ (e.evaluated (s.activates e.kind e.scope)).state ≠ e.state
  · obtain ⟨e, there, rides, other⟩ := changed
    exact .inl ⟨e, by simp [there, other], rides⟩
  · refine .inr ?_
    obtain ⟨-, cfg, -, -, rlu⟩ := retabled_beside s
    have view : ∀ e ∈ s.live, e.kind.rides = true → (e.evaluated (s.activates e.kind e.scope)).rideView = e.rideView := by
      intro e there rides
      have same : (e.evaluated (s.activates e.kind e.scope)).state = e.state := not_not.mp fun other => changed ⟨e, there, rides, other⟩
      rw [Entry.rideView, same]
      rfl
    show s.retabled.RidesFit
    refine ridesFit_congr h ⟨fun e there rides => ?_, fun e there rides => ?_⟩ (by rw [cfg]) (by rw [rlu]) (by rw [rlu]) (by rw [rlu])
    · rw [retabled_live]
      exact ⟨_, List.mem_map_of_mem there, view e there rides⟩
    · rw [retabled_live, List.mem_map] at there
      obtain ⟨f, there, rfl⟩ := there
      exact ⟨f, there, (view f there rides).symm⟩

theorem evaluateOnce_ridesFit {s : State} (h : s.RidesFit) : (evaluateOnce s).RidesFit := by
  unfold evaluateOnce
  split
  · exact h
  · exact evaluate_ridesFit h

/-- The end of an event keeps RLU as the table gives it. -/
theorem finish_ridesFit {s : State} (h : s.RidesFit) : (State.finish s).RidesFit := by
  have settled : (reevaluate s).RidesFit := by
    unfold reevaluate
    split
    · exact evaluateOnce_ridesFit (evaluateOnce_ridesFit (evaluateOnce_ridesFit h))
    · exact h
  exact ridesFit_of_live settled (State.live_congr (dsvJudge_ilt _)) rfl rfl

end Sys2Proof.Machine
end

