-- ==== Sys2Proof/Proofs/CornerFollows.lean ====
section
/-! PROOF. The corners, the freezes and the valve channels through the hand-offs and the end of an event. -/

namespace Sys2Proof.Machine

/-! ## What the hand-offs leave of a corner (R94, R95) -/

/-- A corner that does not act stands by its freeze reasons (R95). -/
def Corner.AtRest (c : Corner) : Prop := c.state = if c.reasons = FreezeSet.empty then .inBand else .holding

/-- The second record comes from the first by gains and losses of the reasons named, and by grants. -/
structure Corner.Follows (may : FreezeReason → Prop) (b a : Corner) : Prop where
  frame : ∃ st rs sd q n, a = { b with state := st, reasons := rs, side := sd, qualifyTimer := q, actionTimer := n }
  rests : b.AtRest → a.AtRest
  fault : a.state = .fault ↔ b.state = .fault
  reasons : ∀ r, ¬ may r → a.reasons.has r = b.reasons.has r

theorem Corner.Follows.refl (may : FreezeReason → Prop) (b : Corner) : b.Follows may b :=
  ⟨⟨b.state, b.reasons, b.side, b.qualifyTimer, b.actionTimer, rfl⟩, id, .rfl, fun _ _ => rfl⟩

theorem Corner.Follows.trans {may : FreezeReason → Prop} {a b c : Corner} (h : a.Follows may b) (k : b.Follows may c) :
    a.Follows may c where
  frame := by
    obtain ⟨st, rs, sd, q, n, first⟩ := h.frame
    obtain ⟨st', rs', sd', q', n', second⟩ := k.frame
    exact ⟨st', rs', sd', q', n', by rw [second, first]⟩
  rests := k.rests ∘ h.rests
  fault := k.fault.trans h.fault
  reasons r out := (k.reasons r out).trans (h.reasons r out)

theorem Corner.Follows.mono {may may' : FreezeReason → Prop} {b a : Corner} (h : b.Follows may a) (wider : ∀ r, may r → may' r) :
    b.Follows may' a := ⟨h.frame, h.rests, h.fault, fun r out => h.reasons r fun m => out (wider r m)⟩

theorem Corner.Follows.cause {may : FreezeReason → Prop} {b a : Corner} (h : b.Follows may a) :
    a.fault = b.fault ∧ a.loadValid = b.loadValid ∧ a.load = b.load ∧ a.measured = b.measured ∧ a.target = b.target := by
  obtain ⟨st, rs, sd, q, n, same⟩ := h.frame
  rw [same]
  exact ⟨rfl, rfl, rfl, rfl, rfl⟩

/-- R95, as the statements say it. -/
theorem Corner.Follows.followsReasons {may : FreezeReason → Prop} {b a : Corner} (h : b.Follows may a) : b.FollowsReasons a :=
  ⟨fun holding some' => h.rests (by rw [Corner.AtRest, if_neg some', holding]), h.fault.mpr⟩

theorem FreezeSet.ext_has {x y : FreezeSet} (h : ∀ r, x.has r = y.has r) : x = y := by
  obtain ⟨a1, a2, a3, a4, a5, a6, a7, a8⟩ := x
  obtain ⟨b1, b2, b3, b4, b5, b6, b7, b8⟩ := y
  have ramp := h .ramp
  have service := h .service
  have config := h .config
  have artic := h .artic
  have brake := h .brake
  have valvesOff := h .valvesOff
  have stall := h .stall
  have supply := h .supply
  simp only [FreezeSet.has] at *
  simp [*]

theorem FreezeSet.has_put (f : FreezeSet) (r q : FreezeReason) (b : Bool) : (f.put r b).has q = if q = r then b else f.has q := by
  cases r <;> cases q <;> rfl

theorem FreezeSet.put_ne_empty (f : FreezeSet) (r : FreezeReason) : f.put r true ≠ FreezeSet.empty := by
  intro same
  have has : (f.put r true).has r = true := by rw [FreezeSet.has_put, if_pos rfl]
  rw [same] at has
  cases r <;> exact nomatch has

theorem FreezeSet.has_ne_empty {f : FreezeSet} {r : FreezeReason} (h : f.has r = true) : f ≠ FreezeSet.empty := by
  rintro rfl
  cases r <;> exact nomatch h

theorem Corner.gain_follows (r : FreezeReason) (c : Corner) : c.Follows (· = r) (c.gain r) := by
  unfold Corner.gain
  split
  case isTrue => exact .refl _ c
  case isFalse lacks =>
    dsimp only
    have has : ∀ q, ¬ q = r → (c.reasons.put r true).has q = c.reasons.has q := fun q other => by rw [FreezeSet.has_put, if_neg other]
    split
    case isTrue stays =>
      refine ⟨⟨_, _, _, _, _, rfl⟩, fun rest => ?_, .rfl, has⟩
      rcases stays with holding | fault
      · rw [Corner.AtRest, if_neg (FreezeSet.put_ne_empty _ _), holding]
      · rw [Corner.AtRest, fault] at rest
        split at rest <;> exact nomatch rest
    case isFalse acts =>
      refine ⟨⟨_, _, _, _, _, rfl⟩, fun _ => by rw [Corner.AtRest, Corner.enter, if_neg (FreezeSet.put_ne_empty _ _)], ?_, has⟩
      exact iff_of_false (by simp [Corner.enter]) fun fault => acts (.inr fault)

theorem Corner.lose_follows (r : FreezeReason) (c : Corner) : c.Follows (· = r) (c.lose r) := by
  unfold Corner.lose
  split
  case isFalse => exact .refl _ c
  case isTrue has =>
    dsimp only
    have keeps : ∀ q, ¬ q = r → (c.reasons.put r false).has q = c.reasons.has q := fun q other => by rw [FreezeSet.has_put, if_neg other]
    have holds : c.AtRest → c.state = .holding := fun rest => by rwa [Corner.AtRest, if_neg (FreezeSet.has_ne_empty has)] at rest
    split
    case isTrue leaves =>
      refine ⟨⟨_, _, _, _, _, rfl⟩, fun _ => by rw [Corner.AtRest, Corner.enter, if_pos leaves.2], ?_, keeps⟩
      exact iff_of_false (by simp [Corner.enter]) (by simp [leaves.1])
    case isFalse stays =>
      refine ⟨⟨_, _, _, _, _, rfl⟩, fun rest => ?_, .rfl, keeps⟩
      rw [Corner.AtRest, if_neg fun empty => stays ⟨holds rest, empty⟩]
      exact holds rest

theorem Corner.judge_follows (r : FreezeReason) (b : Bool) (c : Corner) : c.Follows (· = r) (c.judge r b) := by
  unfold Corner.judge
  split
  · exact c.gain_follows r
  · exact c.lose_follows r

/-- A judgement leaves the corner holding for a reason that it did not have, unless it is in FAULT. -/
theorem Corner.gain_holds {r : FreezeReason} {c : Corner} (lacks : c.reasons.has r = false) (sound : c.state ≠ .fault) :
    (c.gain r).state = .holding := by
  unfold Corner.gain
  rw [if_neg (by simp [lacks])]
  dsimp only
  split
  case isTrue stays => exact stays.resolve_right sound
  case isFalse => rfl

/-! ## The corners through a settling and a hand-off -/

/-- From the first state to the second every corner follows, and the axle loads and the supply gate stand. -/
structure CornersFollow (may : FreezeReason → Prop) (s t : State) : Prop where
  corners : ∀ c, (rd s.crn.corners c).Follows may (rd t.crn.corners c)
  axles : t.crn.axles = s.crn.axles
  gateOpen : t.crn.gateOpen = s.crn.gateOpen

theorem CornersFollow.trans {may : FreezeReason → Prop} {s t u : State} (h : CornersFollow may s t) (k : CornersFollow may t u) :
    CornersFollow may s u :=
  ⟨fun c => (h.corners c).trans (k.corners c), k.axles.trans h.axles, k.gateOpen.trans h.gateOpen⟩

theorem cornersFollow_of_same {may : FreezeReason → Prop} {s t : State} (same : t.crn = s.crn) : CornersFollow may s t := by
  refine ⟨fun c => ?_, by rw [same], by rw [same]⟩
  rw [same]
  exact .refl _ _

theorem CornersFollow.refl (may : FreezeReason → Prop) (s : State) : CornersFollow may s s := cornersFollow_of_same rfl

theorem CornersFollow.mono {may may' : FreezeReason → Prop} {s t : State} (h : CornersFollow may s t) (wider : ∀ r, may r → may' r) :
    CornersFollow may' s t := ⟨fun c => (h.corners c).mono wider, h.axles, h.gateOpen⟩

theorem CornersFollow.ite {may : FreezeReason → Prop} {p : Prop} [Decidable p] {s t u : State} (h : CornersFollow may s t)
    (k : CornersFollow may s u) : CornersFollow may s (if p then t else u) := by
  split
  · exact h
  · exact k

theorem CornersFollow.foldl {may : FreezeReason → Prop} {α : Type} (l : List α) (f : State → α → State)
    (hf : ∀ s x, CornersFollow may s (f s x)) (s : State) : CornersFollow may s (l.foldl f s) := by
  induction l generalizing s with
  | nil => exact .refl _ s
  | cons x l ih => exact (hf s x).trans (ih _)

/-- The corners of the queue wait for a grant or have had one. -/
def Crn.QueueWaits (x : Crn) : Prop := ∀ c ∈ x.queue, (rd x.corners c).state = .fillWait ∨ (rd x.corners c).state = .filling

theorem grantOne_follows {x : Crn} (waits : x.QueueWaits) : x.grantOne.QueueWaits
    ∧ (∀ c, (rd x.corners c).Follows (fun _ => False) (rd x.grantOne.corners c))
    ∧ x.grantOne.axles = x.axles ∧ x.grantOne.gateOpen = x.gateOpen := by
  unfold Crn.grantOne
  split
  case h_1 => exact ⟨waits, fun c => .refl _ _, rfl, rfl⟩
  case h_2 front rest queue =>
    split
    case isFalse => exact ⟨waits, fun c => .refl _ _, rfl, rfl⟩
    case isTrue =>
      have state := waits front (by simp [queue])
      refine ⟨fun d later => ?_, fun c => ?_, rfl, rfl⟩
      · dsimp only
        rw [rd_upd]
        split
        · exact .inr rfl
        · exact waits d (by simp [queue, show d ∈ rest from later])
      · dsimp only
        rw [rd_upd]
        split
        case isTrue same =>
          subst same
          refine ⟨⟨_, _, _, _, _, rfl⟩, fun rest => ?_, iff_of_false (by simp [Corner.enter]) fun fault => ?_, fun _ _ => rfl⟩
          · unfold Corner.AtRest at rest
            split at rest <;> exact absurd state (by simp [rest])
          · exact absurd state (by simp [fault])
        case isFalse => exact .refl _ _

theorem settle_follows (s : State) : CornersFollow (fun _ => False) s (Crn.settle s) := by
  have waits : s.crn.leaveQueue.QueueWaits := by
    intro c there
    simp only [Crn.leaveQueue, List.mem_filter, decide_eq_true_eq] at there
    exact .inl there.2
  obtain ⟨waits1, one, axles1, gate1⟩ := grantOne_follows waits
  obtain ⟨waits2, two, axles2, gate2⟩ := grantOne_follows waits1
  obtain ⟨-, three, axles3, gate3⟩ := grantOne_follows waits2
  refine ⟨fun c => ?_, ?_, ?_⟩ <;> rw [settle_crn]
  · exact ((one c).trans (two c)).trans (three c)
  · exact axles3.trans (axles2.trans axles1)
  · exact gate3.trans (gate2.trans gate1)

theorem change_follows {may : FreezeReason → Prop} {f : Fin 6 → Corner → Corner} (hf : ∀ c x, Corner.Follows may x (f c x)) (s : State) :
    CornersFollow may s (Crn.change f s) := by
  refine CornersFollow.trans (t := s.modCrn fun x => { x with corners := mapF x.corners f }) ⟨fun c => ?_, rfl, rfl⟩
    ((settle_follows _).mono fun _ no => no.elim)
  rw [State.modCrn_crn, rd_mapF]
  exact hf c _

/-- The reasons that the table and RLU move (R94, R105). -/
def tableReason (r : FreezeReason) : Prop := r = .ramp ∨ r = .service ∨ r = .stall

theorem crnFromTable_follows (s : State) : CornersFollow (fun r => r = .ramp ∨ r = .service) s (Crn.fromTable s) :=
  change_follows (fun _ x => ((x.judge_follows .ramp _).mono fun _ => .inl).trans ((Corner.judge_follows .service _ _).mono fun _ => .inr)) s

theorem takeOffsets_follows (ride : Nat) (kneel : Vector Nat 6) (s : State) :
    CornersFollow (· = .stall) s (Rlu.takeOffsets ride kneel s) := by
  unfold Rlu.takeOffsets
  have derived : ∀ u, CornersFollow (· = .stall) u (Rlu.deriveKneel u) := fun u => cornersFollow_of_same (State.modRlu_crn u _)
  have judged : ∀ u, CornersFollow (· = .stall) u (Rlu.judgeCurbLow u) := fun u => cornersFollow_of_same (State.modRlu_crn u _)
  refine (cornersFollow_of_same (State.modRlu_crn s _)).trans
    (((change_follows (fun c x => ?_) _).trans (judged _)).trans (derived _))
  split
  · exact .refl _ x
  · exact x.lose_follows .stall

theorem rluFromTable_follows (s : State) : CornersFollow (· = .stall) s (Rlu.fromTable s) := by
  unfold Rlu.fromTable
  exact .ite (cornersFollow_of_same (State.modRlu_crn s _))
    ((cornersFollow_of_same (State.modRlu_crn s _)).trans (takeOffsets_follows _ _ _))

theorem brkJudge_crn (s : State) : (Brk.judge s).crn = s.crn := (brk_judge_beside s).2

theorem markDoor_crn (e : Entry) (s : State) : (Brk.markDoor e s).crn = s.crn := by
  unfold Brk.markDoor
  split <;> rfl

theorem handOff_follows (v : EntryEvent) (e : Entry) (s : State) : CornersFollow tableReason s (handOff v e s) := by
  unfold handOff
  have mark : CornersFollow tableReason s (if v = .opened then Brk.markDoor e s else s) :=
    .ite (cornersFollow_of_same (markDoor_crn e s)) (.refl _ s)
  have judge : ∀ u, CornersFollow tableReason u (if e.kind.holds then Brk.judge u else u) := fun u =>
    .ite (cornersFollow_of_same (brkJudge_crn u)) (.refl _ u)
  have ride : ∀ u, CornersFollow tableReason u (if e.kind.rides then Rlu.fromTable u else u) := fun u =>
    .ite ((rluFromTable_follows u).mono fun _ stall => .inr (.inr stall)) (.refl _ u)
  have freeze : ∀ u, CornersFollow tableReason u (if e.kind.freezes then Crn.fromTable u else u) := fun u =>
    .ite ((crnFromTable_follows u).mono fun _ moves => moves.elim .inl fun service => .inr (.inl service)) (.refl _ u)
  have centre : ∀ u, CornersFollow tableReason u (if e.kind = .steerCentre then Stc.startCentring u else u) := fun u =>
    .ite (cornersFollow_of_same (stc_startCentring_beside u).2.2) (.refl _ u)
  exact (((mark.trans (judge _)).trans (ride _)).trans (freeze _)).trans (centre _)

theorem evaluate_follows (s : State) : CornersFollow tableReason s (evaluate s) := by
  have handed : ∀ (l : List Entry) (u : State), CornersFollow tableReason u (l.foldl (fun s e => handOff .changed e s) u) := fun l =>
    .foldl l _ fun u e => handOff_follows .changed e u
  exact (cornersFollow_of_same (retabled_beside s).2.2.1).trans (handed _ _)

theorem evaluateOnce_follows (s : State) : CornersFollow tableReason s (evaluateOnce s) := .ite (.refl _ s) (evaluate_follows s)

/-- The end of an event moves no corner but by the reasons of the table. -/
theorem finish_follows (s : State) : CornersFollow tableReason s (State.finish s) := by
  refine CornersFollow.trans (t := reevaluate s) ?_ (cornersFollow_of_same rfl)
  exact .ite (((evaluateOnce_follows s).trans (evaluateOnce_follows _)).trans (evaluateOnce_follows _)) (.refl _ s)

/-! ## CRN's freezes as the table gives them (R94) -/

theorem freezesFit_congr {s t : State} (h : s.FreezesFit) (ramp : t.anyLive .rampOut = s.anyLive .rampOut)
    (service : t.anyLive .serviceLock = s.anyLive .serviceLock) {may : FreezeReason → Prop} (follows : CornersFollow may s t)
    (stays : ¬ may .ramp ∧ ¬ may .service) : t.FreezesFit := by
  have live : ∀ (u : State) (k : Kind), (∃ e ∈ u.live, e.kind = k) ↔ u.anyLive k = true := fun u k => by simp [State.anyLive]
  intro c
  have reasons := (follows.corners c).reasons
  have fits := h c
  rw [live, live] at fits ⊢
  rw [ramp, service]
  exact ⟨by rw [show (rd t.crn.corners c).reasons.ramp = (rd s.crn.corners c).reasons.ramp from reasons .ramp stays.1]; exact fits.1,
    by rw [show (rd t.crn.corners c).reasons.service = (rd s.crn.corners c).reasons.service from reasons .service stays.2]; exact fits.2⟩

theorem freezesFit_of_crn {s t : State} (h : s.FreezesFit) (live : t.live = s.live) (crn : t.crn = s.crn) : t.FreezesFit :=
  freezesFit_congr h (anyLive_congr live) (anyLive_congr live) (cornersFollow_of_same (may := fun _ => False) crn) ⟨id, id⟩

/-- A hand-off to CRN leaves it as the table gives it, and any other hand-off keeps it so. -/
theorem handOff_freezesFit {s : State} (v : EntryEvent) (e : Entry) (h : e.kind.freezes = true ∨ s.FreezesFit) :
    (handOff v e s).FreezesFit := by
  unfold handOff
  have centre : ∀ {u : State}, u.FreezesFit → (if e.kind = .steerCentre then Stc.startCentring u else u).FreezesFit := fun {u} fits => by
    split
    · exact freezesFit_of_crn fits (bl_startCentring (.refl u)).live (stc_startCentring_beside u).2.2
    · exact fits
  refine centre ?_
  cases freezes : e.kind.freezes with
  | true =>
    rw [if_pos rfl]
    exact crn_fromTable_freezesFit _
  | false =>
    have fits : s.FreezesFit := h.resolve_left (by simp [freezes])
    rw [if_neg (by simp)]
    have mark : (if v = .opened then Brk.markDoor e s else s).FreezesFit := by
      split
      · exact freezesFit_of_crn fits (bl_markDoor e (.refl s)).live (markDoor_crn e s)
      · exact fits
    have judge : ∀ {u : State}, u.FreezesFit → (if e.kind.holds then Brk.judge u else u).FreezesFit := fun {u} fits => by
      split
      · exact freezesFit_of_crn fits (brkJudge_blocks u).live (brkJudge_crn u)
      · exact fits
    have ride : ∀ {u : State}, u.FreezesFit → (if e.kind.rides then Rlu.fromTable u else u).FreezesFit := fun {u} fits => by
      split
      · have live := (bl_rluFromTable (.refl u)).live
        exact freezesFit_congr fits (anyLive_congr live) (anyLive_congr live) (rluFromTable_follows u) ⟨by simp, by simp⟩
      · exact fits
    exact ride (judge mark)

theorem evaluate_freezesFit {s : State} (h : s.FreezesFit) : (evaluate s).FreezesFit := by
  have retabled : s.retabled.FreezesFit := freezesFit_congr h (retabled_anyLive s _) (retabled_anyLive s _)
    (cornersFollow_of_same (may := fun _ => False) (retabled_beside s).2.2.1) ⟨id, id⟩
  have hand : ∀ (l : List Entry) {u : State}, u.FreezesFit → (l.foldl (fun s e => handOff .changed e s) u).FreezesFit := by
    intro l
    induction l with
    | nil => exact fun fits => fits
    | cons e l ih => exact fun fits => ih (handOff_freezesFit _ e (.inr fits))
  exact hand _ retabled

theorem evaluateOnce_freezesFit {s : State} (h : s.FreezesFit) : (evaluateOnce s).FreezesFit := by
  unfold evaluateOnce
  split
  · exact h
  · exact evaluate_freezesFit h

/-- The end of an event keeps CRN's freezes as the table gives them. -/
theorem finish_freezesFit {s : State} (h : s.FreezesFit) : (State.finish s).FreezesFit := by
  have settled : (reevaluate s).FreezesFit := by
    unfold reevaluate
    split
    · exact evaluateOnce_freezesFit (evaluateOnce_freezesFit (evaluateOnce_freezesFit h))
    · exact h
  exact freezesFit_of_crn settled (State.live_congr (dsvJudge_ilt _)) rfl

/-! ## What no command changes of a channel's record -/

/-- What every command to a channel keeps of its record, the moves between the blocks keep. -/
theorem Evolves.channel {P : Channel → Prop} (closed : ∀ now v c, P c → P (Channel.take now v c)) {s t : State} (h : Evolves s t)
    (ch : Fin 18) (fits : P (rd s.vda.channels ch)) : P (rd t.vda.channels ch) := by
  have command : ∀ (d : Fin 18) (v : Nat) {u : State}, P (rd u.vda.channels ch) → P (rd (u.command d v).vda.channels ch) := by
    intro d v u fits
    rw [rd_command]
    split
    · exact closed _ _ _ fits
    · exact fits
  have settle : ∀ {u : State}, P (rd u.vda.channels ch) → P (rd (Crn.settle u).vda.channels ch) := by
    intro u fits
    have corners : ∀ (l : List (Fin 6)) {w : State}, P (rd w.vda.channels ch) →
        P (rd (l.foldl (fun s c => s.commandCorner c) w).vda.channels ch) := by
      intro l
      induction l with
      | nil => exact fun fits => fits
      | cons c l ih => exact fun fits => ih (command _ _ (command _ _ fits))
    exact command _ _ (corners _ fits)
  induction h with
  | refl => exact fits
  | tail _ m ih =>
    cases m with
    | post n => exact ih
    | touch f => rw [State.touch_vda]; exact ih
    | drop handle => rw [State.dropEntry_vda]; exact ih
    | place slot e => exact ih
    | settle f => exact settle ih
    | dsv f => exact ih
    | crn f => exact ih
    | rlu f => exact ih
    | brk f => exact ih
    | stc f => exact ih
    | command d v => exact command d v ih

end Sys2Proof.Machine
end

