-- ==== Sys2Proof/Proofs/Clears.lean ====
section
/-! PROOF. The clears of corners and channels, and the statements ClearCornerClears and ClearChannelClears. -/

namespace Sys2Proof.Machine

section
variable {x : Sender} {s : State}

/-! ## CLEAR_CORNER (R98) -/

theorem requestClearCorner_outside_run (served : s.serves x) (out : s.cfg.device ≠ .run) (n : Nat) :
    requestClearCorner x.partner n s = (s, s.notReady) := by
  rw [requestClearCorner, ifRoot_of_serves served, if_pos (by simpa [State.inRun] using out)]

theorem requestClearCorner_no_corner (served : s.serves x) (run : s.cfg.device = .run) {n : Nat} (above : 6 ≤ n) :
    requestClearCorner x.partner n s = (s, .no .requestInvalid) := by
  rw [requestClearCorner, ifRoot_of_serves served, if_neg (by simp [State.inRun, run]), dif_neg (by omega)]

theorem requestClearCorner_corner (served : s.serves x) (run : s.cfg.device = .run) (c : Fin 6) :
    requestClearCorner x.partner c.val s = match s.standingCause c with
      | some r => (s, .because .condition r.sub)
      | none => ((if (rd s.crn.corners c).state = .fault then State.finish (Crn.clearFault c s) else s),
          .ok AnswerFlags.none (rd (if (rd s.crn.corners c).state = .fault then State.finish (Crn.clearFault c s) else s).crn.corners c).state.code 0) := by
  rw [requestClearCorner, ifRoot_of_serves served, if_neg (by simp [State.inRun, run]), dif_pos c.isLt] <;>
  rfl

theorem failed_iff (st : ChannelState) : st.failed = true ↔ st = .lockedOut ∨ st = .openLoad := by simp [ChannelState.failed]

theorem analogFaulty_iff (c : Fin 21) : s.analogFaulty c = true ↔ (rd s.mot.analog c).validity = .faulty := decide_eq_true_iff

theorem cornerCause_eq (c : Fin 6) : s.cornerCause c =
    if (rd s.mot.analog ⟨c.val, by omega⟩).validity = .faulty then some .heightSensor
    else if s.channelState ⟨c.val, by omega⟩ = .lockedOut ∨ s.channelState ⟨c.val, by omega⟩ = .openLoad then some .fillValve
    else if s.channelState ⟨c.val + 6, by omega⟩ = .lockedOut ∨ s.channelState ⟨c.val + 6, by omega⟩ = .openLoad then
      some .exhaustValve
    else none := by
  simp only [State.cornerCause, analogFaulty_iff, failed_iff]
  rfl

/-- R98: after the clear the corner's fault is gone, and it stands by its freeze reasons to the end of the event. -/
theorem clearFault_clears (c : Fin 6) (s : State) :
    (rd (State.finish (Crn.clearFault c s)).crn.corners c).fault = none ∧ (rd (State.finish (Crn.clearFault c s)).crn.corners c).AtRest := by
  let before : State := s.modCrn fun y => { y with corners := upd y.corners c fun z =>
    { z.enter (if z.reasons = FreezeSet.empty then .inBand else .holding) with fault := none } }
  have settled : (rd before.crn.corners c).Follows (fun r => tableReason r) (rd (State.finish (Crn.clearFault c s)).crn.corners c) :=
    (((settle_follows before).mono fun _ no => no.elim).trans (finish_follows (Crn.clearFault c s))).corners c
  have cleared : rd before.crn.corners c = { (rd s.crn.corners c).enter
      (if (rd s.crn.corners c).reasons = FreezeSet.empty then .inBand else .holding) with fault := none } := by
    simp only [before, State.modCrn_crn, rd_upd_same]
  refine ⟨settled.cause.1.trans (by rw [cleared]), settled.rests ?_⟩
  rw [cleared]
  rfl

theorem clearFault_base (c : Fin 6) (s : State) : SameBase s (State.finish (Crn.clearFault c s)) :=
  (ev_finish (ev_clearFault c .refl)).base

end

/-- Settles O26. -/
theorem clearCornerClears : Obligations.ClearCornerClears := by
  unfold Obligations.ClearCornerClears
  refine ⟨fun x tag b s served => ⟨fun out => ?_, fun run above => ?_⟩, fun x tag b c s served named run => ⟨fun sound => ?_, fun fault => ?_⟩⟩
  · rw [exec_clearCorner_heard served.1, requestClearCorner_outside_run served out]
    rfl
  · rw [exec_clearCorner_heard served.1, requestClearCorner_no_corner served run above]
    rfl
  · have free : s.standingCause c = none := if_neg sound
    rw [exec_clearCorner_heard served.1, named, requestClearCorner_corner served run, free]
    simp only [if_neg sound]
    rfl
  · have cause : s.standingCause c = s.cornerCause c := if_pos fault
    rw [exec_clearCorner_heard served.1, named, requestClearCorner_corner served run, cause, cornerCause_eq]
    simp only [if_pos fault]
    refine ⟨fun height => ?_, fun height fill => ?_, fun height fill exhaust => ?_, fun height fill exhaust => ?_⟩
    · rw [if_pos height]
      rfl
    · rw [if_neg height, if_pos fill]
      rfl
    · rw [if_neg height, if_neg fill, if_pos exhaust]
      rfl
    · rw [if_neg height, if_neg fill, if_neg exhaust]
      obtain ⟨gone, rest⟩ := clearFault_clears c s
      exact ⟨_, rfl, gone, rest, clearFault_base c s⟩

/-! ## CLEAR_CHANNEL (R172) -/

section
variable {x : Sender} {s : State}

theorem requestClearChannel_safe (served : s.serves x) (safe : s.cfg.device = .safe) (n : Nat) :
    requestClearChannel x.partner n s = (s, s.notReady) := by
  rw [requestClearChannel, ifRoot_of_serves served, if_pos safe]

theorem requestClearChannel_no_channel (served : s.serves x) (device : s.cfg.device ≠ .safe) {n : Nat} (above : 18 ≤ n) :
    requestClearChannel x.partner n s = (s, .no .requestInvalid) := by
  rw [requestClearChannel, ifRoot_of_serves served, if_neg device, dif_neg (by omega)]

theorem requestClearChannel_channel (served : s.serves x) (device : s.cfg.device ≠ .safe) (ch : Fin 18) :
    requestClearChannel x.partner ch.val s =
      ((if (s.channelState ch).failed then State.finish (atChannel ch (Channel.clear s.now) s) else s),
        .ok AnswerFlags.none ((if (s.channelState ch).failed then State.finish (atChannel ch (Channel.clear s.now) s) else s).channelState ch).code
          (rd (if (s.channelState ch).failed then State.finish (atChannel ch (Channel.clear s.now) s) else s).vda.channels ch).trips) := by
  rw [requestClearChannel, ifRoot_of_serves served, if_neg device, dif_pos ch.isLt]

end

/-- R172: a channel without trips stands by its marks and its command. -/
def Channel.Cleared (marked : Bool) (c : Channel) : Prop :=
  c.trips = 0 ∧ c.marked = marked ∧ c.state = if marked then .disabled else if 0 < c.command then .blanking else .off

theorem Channel.clear_cleared {now : Nat} {c : Channel} (failed : c.state = .lockedOut ∨ c.state = .openLoad) :
    (c.clear now).Cleared c.marked := by
  have reset : c.clear now = if c.marked then { c with trips := 0, series := none, retry := none, clean := none, state := .disabled }
      else Channel.follow now { c with trips := 0, series := none, retry := none, clean := none, state := .off } := if_pos failed
  rw [reset]
  cases marks : c.marked with
  | true => exact ⟨rfl, marks, rfl⟩
  | false =>
    rw [if_neg (by simp), Channel.follow]
    by_cases commanded : 0 < c.command
    · rw [if_pos commanded]
      exact ⟨rfl, marks, (if_pos commanded).symm⟩
    · rw [if_neg commanded]
      exact ⟨rfl, marks, (if_neg commanded).symm⟩

theorem Channel.take_cleared {marked : Bool} (now v : Nat) (c : Channel) (h : c.Cleared marked) : (c.take now v).Cleared marked := by
  obtain ⟨trips, marks, state⟩ := h
  unfold Channel.Cleared Channel.take Channel.follow Channel.switchOn Channel.switchOff Channel.marked ChannelState.driven at *
  grind

theorem atChannel_evolves (ch : Fin 18) (f : Channel → Channel) (s : State) :
    Evolves (s.modVda fun v => { v with channels := upd v.channels ch f }) (atChannel ch f s) := by
  unfold atChannel
  exact ev_ite .refl (ev_handToOwner ch (ev_reportChannel ch .refl))

/-- Settles O27. -/
theorem clearChannelClears : Obligations.ClearChannelClears := by
  unfold Obligations.ClearChannelClears
  refine ⟨fun x tag b s served => ⟨fun safe => ?_, fun device above => ?_⟩, fun x tag b ch s served named device =>
    ⟨fun locked load => ?_, fun failed => ?_⟩⟩
  · rw [exec_clearChannel_heard served.1, requestClearChannel_safe served safe, State.notReady, safe]
    rfl
  · rw [exec_clearChannel_heard served.1, requestClearChannel_no_channel served device above]
    rfl
  · have sound : ¬ (s.channelState ch).failed = true := by simp [failed_iff, locked, load]
    rw [exec_clearChannel_heard served.1, named, requestClearChannel_channel served device]
    simp only [if_neg sound]
    rfl
  · rw [exec_clearChannel_heard served.1, named, requestClearChannel_channel served device]
    simp only [if_pos ((failed_iff _).mpr failed)]
    have evolves : Evolves (s.modVda fun v => { v with channels := upd v.channels ch (Channel.clear s.now) })
        (State.finish (atChannel ch (Channel.clear s.now) s)) := ev_finish (atChannel_evolves ch _ s)
    obtain ⟨trips, -, state⟩ : (rd (State.finish (atChannel ch (Channel.clear s.now) s)).vda.channels ch).Cleared
        (rd s.vda.channels ch).marked := by
      refine evolves.channel (fun now v c => Channel.take_cleared now v c) ch ?_
      rw [State.modVda_vda, rd_upd_same]
      exact Channel.clear_cleared failed
    rw [trips]
    exact ⟨_, rfl, trips, state, evolves.base⟩

end Sys2Proof.Machine
end

