-- ==== Sys2Proof/Proofs/Safe.lean ====
section
/-! PROOF. The entry into SAFE, and the statement EnterSafeFreezes. -/

namespace Sys2Proof.Machine

/-! ## The entry into SAFE (R41, R135, R187) -/

/-- Out of RUN the end of an event is DSV's judgement. -/
theorem finish_outside_run {s : State} (out : s.inRun = false) : State.finish s = Dsv.judge s :=
  finish_unmoved fun run => absurd run (by simp [out])

/-- The state of `enterSafe` before CRN takes the device state. -/
def State.parkedSafe (s : State) : State :=
  (Stc.exitRun (Brk.setWindow false (freezeTable (s.modCfg fun c => { c with device := .safe })))).modMot fun m => { m with armed := false }

section
variable (s : State)

theorem parkedSafe_ilt : s.parkedSafe.ilt = { s.ilt with
    slots := mapF s.ilt.slots fun _ x => { x with entry := x.entry.map fun e => { e with deadline := e.deadline.stop s.now } } } := by
  simp only [State.parkedSafe, State.modMot_ilt, Stc.exitRun, command_ilt, Stc.commandLock, State.modStc_ilt, Brk.setWindow,
    State.modBrk_ilt, freezeTable, State.modIlt_ilt, State.modCfg_ilt, State.modCfg_now]

theorem enterSafe_eq : enterSafe s = Dsv.judge (Crn.fromDevice s.parkedSafe) := finish_outside_run rfl

theorem exitRun_lock (u : State) : (Stc.exitRun u).lockCommand = 0
    ∧ (rd (Stc.exitRun u).vda.channels damperChannel).command = 1000 := by
  have other : damperChannel ≠ lockChannel := by decide
  constructor
  · rw [State.lockCommand, Stc.exitRun, rd_command, if_neg other]
    exact commandLock_lockCommand _
  · rw [Stc.exitRun, rd_command, if_pos rfl, Channel.take_command]

theorem fromDevice_out {u : State} (out : u.inRun = false) (c : Fin 6) :
    (rd u.crn.corners c |>.gain .config).Follows (fun _ => False) (rd (Crn.fromDevice u).crn.corners c) := by
  have settled := (settle_follows (u.modCrn fun x => { x with corners := mapF x.corners fun _ y => y.judge .config (!u.inRun) })).corners c
  have gained : (rd u.crn.corners c).judge .config (!u.inRun) = (rd u.crn.corners c).gain .config := by
    rw [out]
    rfl
  rw [State.modCrn_crn, rd_mapF, gained] at settled
  rw [Crn.fromDevice, Crn.change]
  exact settled

theorem fromDevice_beside (u : State) : (Crn.fromDevice u).stc = u.stc ∧ (Crn.fromDevice u).brk = u.brk ∧ (Crn.fromDevice u).rlu = u.rlu := by
  rw [Crn.fromDevice, Crn.change, settle_stc, settle_brk, settle_rlu]
  exact ⟨rfl, rfl, rfl⟩

theorem fromDevice_commands (u : State) {ch : Fin 18} (high : 13 ≤ ch.val) :
    (rd (Crn.fromDevice u).vda.channels ch).command = (rd u.vda.channels ch).command := by
  rw [Crn.fromDevice, Crn.change, Crn.settle, commandCorners_other _ ch high]
  rfl

theorem enterSafe_corner (c : Fin 6) : (rd s.crn.corners c |>.gain .config).Follows (fun _ => False) (rd (enterSafe s).crn.corners c) := by
  rw [enterSafe_eq]
  exact fromDevice_out (u := s.parkedSafe) rfl c

theorem gain_has (r : FreezeReason) (c : Corner) : (c.gain r).reasons.has r = true := by
  have judged := Corner.judge_reasons r true c
  rw [Corner.judge, if_pos rfl] at judged
  rw [judged, FreezeSet.has_put, if_pos rfl]

end

theorem requestEnterSafe_config {x : Sender} {s : State} (served : s.serves x) (device : s.cfg.device = .config) :
    requestEnterSafe x.partner s = (s, s.notReady) := by
  rw [requestEnterSafe, ifRoot_of_serves served, device]

theorem requestEnterSafe_safe {x : Sender} {s : State} (served : s.serves x) (device : s.cfg.device = .safe) :
    requestEnterSafe x.partner s = (s, s.deviceAnswer) := by
  rw [requestEnterSafe, ifRoot_of_serves served, device]

theorem requestEnterSafe_run {x : Sender} {s : State} (served : s.serves x) (device : s.cfg.device = .run) :
    requestEnterSafe x.partner s = (enterSafe s, (enterSafe s).deviceAnswer) := by
  rw [requestEnterSafe, ifRoot_of_serves served, device]

/-- Settles O34. -/
theorem enterSafeFreezes : Obligations.EnterSafeFreezes := by
  unfold Obligations.EnterSafeFreezes
  intro x tag s served
  rw [exec_enterSafe_heard served.1]
  refine ⟨fun device => ?_, fun device => ?_, fun device => ?_⟩
  · rw [requestEnterSafe_config served device, State.notReady, device]
    rfl
  · rw [requestEnterSafe_safe served device, State.deviceAnswer, device]
    rfl
  rw [requestEnterSafe_run served device]
  have blocks : Blocks s.parkedSafe (Crn.fromDevice s.parkedSafe) := bl_fromDevice (.refl _)
  have fits := dsvJudge_outputsFit (Crn.fromDevice s.parkedSafe)
  have safe : (Crn.fromDevice s.parkedSafe).cfg.device = .safe := by
    rw [blocks.cfg]
    rfl
  have beside := fromDevice_beside s.parkedSafe
  have stc : (enterSafe s).stc = s.parkedSafe.stc := by rw [enterSafe_eq, Dsv.judge, State.modDsv_stc, beside.1]
  have brk : (enterSafe s).brk = s.parkedSafe.brk := by rw [enterSafe_eq, Dsv.judge, State.modDsv_brk, beside.2.1]
  have vda : ∀ ch : Fin 18, 13 ≤ ch.val →
      (rd (enterSafe s).vda.channels ch).command = (rd s.parkedSafe.vda.channels ch).command := fun ch high => by
    rw [enterSafe_eq, Dsv.judge, State.modDsv_vda, fromDevice_commands _ high]
  have ilt : (enterSafe s).ilt = s.parkedSafe.ilt := by rw [enterSafe_eq, Dsv.judge, State.modDsv_ilt, blocks.ilt]
  have cfg : (enterSafe s).cfg = s.parkedSafe.cfg := by rw [enterSafe_eq, Dsv.judge, State.modDsv_cfg, blocks.cfg]
  have mot : (enterSafe s).mot = s.parkedSafe.mot := by rw [enterSafe_eq, Dsv.judge, State.modDsv_mot, blocks.mot]
  obtain ⟨lock, damper⟩ := exitRun_lock (Brk.setWindow false (freezeTable (s.modCfg fun c => { c with device := .safe })))
  have parkedStc : s.parkedSafe.stc = { s.stc with
      state := .parked, command := 0, windowOpen := false, schedule := none, disagreeTimer := 0, trackTimer := 0
      centringTimer := 0, damper := 1000 } := rfl
  have parkedBrk : s.parkedSafe.brk = { s.brk with windowOpen := false } := rfl
  refine ⟨_, rfl, ?_, ?_, ?_, fun i => ?_, ?_, ?_, ?_, ?_, ?_, ?_, ?_, ?_, fun d => ?_, ?_, ?_, ?_, ?_, ?_, ?_, ?_, ?_, ?_, fun c => ?_⟩
  · rw [cfg]
    rfl
  · rw [cfg]
    rfl
  · rw [enterSafe_eq, Dsv.judge, State.modDsv_now, blocks.now]
    rfl
  · rw [ilt]
    rw [parkedSafe_ilt]
    simp only [rd_mapF, Slot.mk.injEq, true_and]
    refine congrFun (congrArg Option.map (funext fun e => ?_)) _
    cases deadline : e.deadline <;> simp only [Deadline.stop]
  · rw [ilt, parkedSafe_ilt]
  · rw [ilt, parkedSafe_ilt]
  · rw [enterSafe_eq, Dsv.judge, State.modDsv_lnk, blocks.lnk]
    rfl
  iterate 4 (next => rw [brk, parkedBrk])
  · rw [mot]
    rfl
  · rw [enterSafe_eq, ← Bool.not_eq_true, fits.release]
    rintro ⟨run, -⟩
    exact absurd (safe.symm.trans run) (by decide)
  · rw [enterSafe_eq, fits.notRun]
    exact fun run => absurd (safe.symm.trans run) (by decide)
  · rw [enterSafe_eq, fits.inhibited]
    have notRun : (Dsv.judge (Crn.fromDevice s.parkedSafe)).dsv.causes.notRun = true :=
      fits.notRun.mpr fun run => absurd (safe.symm.trans run) (by decide)
    simp [notRun]
  iterate 5 (next => rw [stc, parkedStc])
  · rw [vda _ (by decide)]
    exact lock
  · rw [vda _ (by decide)]
    exact damper
  · have follows := enterSafe_corner s c
    have config : (rd (enterSafe s).crn.corners c).reasons.has .config = true := (follows.reasons .config id).trans (gain_has _ _)
    refine ⟨config, fun sound free => ?_, fun fault => ?_⟩
    · have holding := Corner.gain_holds (r := .config) free sound
      have rest : ((rd s.crn.corners c).gain .config).AtRest := by
        rw [Corner.AtRest, if_neg (FreezeSet.has_ne_empty (gain_has _ _)), holding]
      have after := follows.rests rest
      rwa [Corner.AtRest, if_neg (FreezeSet.has_ne_empty config)] at after
    · exact follows.fault.mpr (((rd s.crn.corners c).gain_fault .config).mpr fault)

end Sys2Proof.Machine
end

