-- ==== Sys2Proof/Proofs/Lookup.lean ====
section
/-! PROOF. The lookup in a bank of rows, and the statement ScheduleInterpolates. -/

namespace Sys2Proof.Machine

/-! ## The lookup in a bank (R144) -/

/-- The speeds of a valid bank ascend over every distance. -/
theorem valid_ascends {b : Bank} (valid : b.valid = true) {i j : Fin 16} (before : i.val < j.val) (below : j.val < b.count) :
    (rd b.rows i).v < (rd b.rows j).v := by
  obtain ⟨-, -, next⟩ := (bank_valid_iff b).mp valid
  induction distance : j.val - i.val generalizing i with
  | zero => omega
  | succ n ih =>
    by_cases adjacent : j.val = i.val + 1
    · exact next i j adjacent below
    · let k : Fin 16 := ⟨i.val + 1, by omega⟩
      exact (next i k rfl (by simp only [k]; omega)).trans (ih (i := k) (by simp only [k]; omega) (by simp only [k]; omega))

theorem last_eq {b : Bank} {i : Fin 16} (final : i.val + 1 = b.count) : b.last = rd b.rows i := by
  have same : (⟨min (b.count - 1) 15, by omega⟩ : Fin 16) = i := Fin.ext (by dsimp only; omega)
  rw [Bank.last, same]

theorem lookup_last {b : Bank} {v : Int} (above : b.last.v ≤ v) : b.lookup v = b.last.schedule := if_pos above

theorem lookup_between {b : Bank} (valid : b.valid = true) {v : Int} {i j : Fin 16} (next : j.val = i.val + 1) (below : j.val < b.count)
    (low : (rd b.rows i).v ≤ v) (high : v < (rd b.rows j).v) : b.lookup v = Row.between v (rd b.rows i) (rd b.rows j) := by
  obtain ⟨⟨two, sixteen⟩, -⟩ := (bank_valid_iff b).mp valid
  let top : Fin 16 := ⟨b.count - 1, by omega⟩
  have topAbove : (rd b.rows j).v ≤ (rd b.rows top).v := by
    by_cases same : j = top
    · rw [same]
    · have apart : j.val ≠ b.count - 1 := fun h => same (Fin.ext h)
      exact (valid_ascends valid (by simp only [top]; omega) (by simp only [top]; omega)).le
  rw [Bank.lookup, if_neg (by rw [last_eq (i := top) (by simp only [top]; omega)]; omega)]
  let k : Fin 15 := ⟨i.val, by omega⟩
  have lower : k.castSucc = i := rfl
  have upper : k.succ = j := Fin.ext next.symm
  cases found : (List.finRange 15).find? fun i =>
      decide (i.val + 1 < b.count ∧ (rd b.rows i.castSucc).v ≤ v ∧ v < (rd b.rows i.succ).v) with
  | none =>
    have nowhere := List.find?_eq_none.mp found k (List.mem_finRange k)
    rw [decide_eq_true_eq, lower, upper] at nowhere
    exact absurd ⟨by simp only [k]; omega, low, high⟩ nowhere
  | some m =>
    have holds := List.find?_some found
    rw [decide_eq_true_eq] at holds
    obtain ⟨inside, mLow, mHigh⟩ := holds
    have same : m = k := by
      refine Fin.ext (le_antisymm (not_lt.mp fun less => ?_) (not_lt.mp fun less => ?_))
      · have ordered : (rd b.rows j).v ≤ (rd b.rows m.castSucc).v := by
          by_cases met : j = m.castSucc
          · rw [met]
          · have apart : j.val ≠ m.val := fun h => met (Fin.ext h)
            have less' : i.val < m.val := less
            exact (valid_ascends valid (by simp only [Fin.val_castSucc]; omega) (by simp only [Fin.val_castSucc]; omega)).le
        omega
      · have ordered : (rd b.rows m.succ).v ≤ (rd b.rows i).v := by
          by_cases met : m.succ = i
          · rw [met]
          · have apart : m.val + 1 ≠ i.val := fun h => met (Fin.ext h)
            have less' : m.val < i.val := less
            exact (valid_ascends valid (by simp only [Fin.val_succ]; omega) (by omega)).le
        omega
    rw [same]
    exact congrArg₂ (Row.between v) (congrArg (rd b.rows) lower) (congrArg (rd b.rows) upper)

/-- Settles O56. -/
theorem scheduleInterpolates : Obligations.ScheduleInterpolates := by
  unfold Obligations.ScheduleInterpolates
  intro b v valid
  refine ⟨fun i final above => ?_, fun i j p q next below hp hq low high => ?_⟩
  · rw [lookup_last (by rwa [last_eq final]), last_eq final]
  · subst hp hq
    rw [lookup_between valid next below low high]
    exact ⟨rfl, rfl, rfl, rfl, rfl⟩

end Sys2Proof.Machine
end

