-- ==== Sys2Proof/Proofs/Opens.lean ====
section
/-! PROOF. An entry placed in the table, and the entries that the part opens for itself. -/

namespace Sys2Proof.Machine

/-! ## An entry placed in the table -/

section
variable (slot : Fin 24) (e : Nat → Entry) (s : State)

theorem placeEntry_slot (i : Fin 24) : rd (s.placeEntry slot e).ilt.slots i =
    if slot = i then { rd s.ilt.slots i with entry := some (e (s.handleOf slot)) } else rd s.ilt.slots i := by
  rw [State.placeEntry, State.modIlt_ilt, rd_upd]
  split
  case isTrue same =>
    subst same
    rfl
  case isFalse => rfl

theorem placeEntry_resolve : (s.placeEntry slot e).resolve (s.handleOf slot) = some (e (s.handleOf slot)) := by
  refine resolve_eq_some_iff.mpr ⟨slot, ?_, ?_⟩
  · rw [placeEntry_slot, if_pos rfl]
    rfl
  · rw [placeEntry_slot, if_pos rfl]

theorem placeEntry_mem_live : e (s.handleOf slot) ∈ (s.placeEntry slot e).live := by
  refine List.mem_filterMap.mpr ⟨slot, ?_, ?_⟩
  · rw [State.placeEntry, State.modIlt_ilt]
    exact List.mem_append_right _ (List.mem_singleton_self slot)
  · rw [placeEntry_slot, if_pos rfl]

end

theorem freeSlot_exists {s : State} {lo hi : Nat} (free : ∃ i : Fin 24, (lo ≤ i.val ∧ i.val < hi) ∧ (rd s.ilt.slots i).entry = none) :
    ∃ slot, s.freeSlot lo hi = some slot := by
  rw [← Option.isSome_iff_exists, State.freeSlot, List.find?_isSome]
  obtain ⟨i, inside, empty⟩ := free
  exact ⟨i, List.mem_finRange i, by simp [inside, empty]⟩

/-! ## OPEN on the internal path (R37 to R39) -/

section
variable {k : Kind} {sc : Scope} {p : Option Nat} {s : State}

theorem openSelf_outside_run (out : s.inRun = false) : openSelf k sc p s = (s, none) := if_neg (by simp [out])

theorem openSelf_stands (run : s.inRun = true) {e : Entry}
    (found : (s.live.find? fun e => e.isSelf && decide (e.kind = k ∧ e.scope = sc)) = some e) :
    openSelf k sc p s = (s, some e.handle) := by
  rw [openSelf, if_pos run, found]

theorem openSelf_full (run : s.inRun = true) (clear : (s.live.find? fun e => e.isSelf && decide (e.kind = k ∧ e.scope = sc)) = none)
    (full : s.freeSlot 18 24 = none) : openSelf k sc p s = (s, none) := by
  rw [openSelf, if_pos run, clear]
  dsimp only
  rw [full]

theorem openSelf_places (run : s.inRun = true) (clear : (s.live.find? fun e => e.isSelf && decide (e.kind = k ∧ e.scope = sc)) = none)
    {slot : Fin 24} (free : s.freeSlot 18 24 = some slot) :
    openSelf k sc p s = (handOff .opened (s.newEntry k 15 0 sc p 0 (s.handleOf slot)) (s.placeEntry slot (s.newEntry k 15 0 sc p 0)),
      some (s.handleOf slot)) := by
  rw [openSelf, if_pos run, clear]
  dsimp only
  rw [free]

theorem resolve_congr {t : State} (same : t.ilt = s.ilt) (h : Nat) : t.resolve h = s.resolve h := by
  rw [State.resolve, same, State.resolve]

end

/-! ## The entry that a latch asks for (R142, R150) -/

theorem handOff_steerCentre {v : EntryEvent} {e : Entry} (kind : e.kind = .steerCentre) (s : State) :
    handOff v e s = Stc.startCentring s := by
  have marked : Brk.markDoor e s = s := if_neg (by simp [Entry.partnerDoor, Kind.isDoor, kind])
  simp [handOff, kind, Kind.holds, Kind.rides, Kind.freezes, marked]

theorem startCentring_enters {s : State} (from' : s.stc.state = .frozen ∨ s.stc.state = .tracking) (centre : s.anyLive .steerCentre = true) :
    Stc.startCentring s = Stc.commandLock (s.modStc fun x => { x with state := .centring, centringTimer := 0 }) := if_pos ⟨from', centre⟩

/-- STC holds a SELF STEER_CENTRE. -/
def State.HoldsCentre (s : State) : Prop :=
  ∃ h e, s.stc.selfHandle = some h ∧ s.resolve h = some e ∧ e.owner = 15 ∧ e.kind = .steerCentre

/-- A SELF STEER_CENTRE can be opened: there is none, and a slot of the part's own is free. -/
structure State.CentreOpens (s : State) : Prop where
  none_held : s.stc.selfHandle = none
  free : ∃ i : Fin 24, 18 ≤ i.val ∧ (rd s.ilt.slots i).entry = none
  none_live : ∀ e ∈ s.live, ¬(e.owner = 15 ∧ e.kind = .steerCentre)

theorem centreOpens_congr {s t : State} (h : s.CentreOpens) (ilt : t.ilt = s.ilt) (handle : t.stc.selfHandle = s.stc.selfHandle) :
    t.CentreOpens :=
  ⟨handle.trans h.none_held, by rw [ilt]; exact h.free, by rw [State.live_congr ilt]; exact h.none_live⟩

/-- STC in FROZEN or TRACKING turns to CENTRING with its timer at 0 and CL1 on; else its state stays. -/
structure TurnsToCentre (s t : State) : Prop where
  entered : s.stc.state = .frozen ∨ s.stc.state = .tracking →
    t.stc = { s.stc with state := .centring, centringTimer := 0, selfHandle := t.stc.selfHandle } ∧ t.lockCommand = 1
  kept : s.stc.state ≠ .frozen → s.stc.state ≠ .tracking →
    t.stc = { s.stc with selfHandle := t.stc.selfHandle } ∧ t.lockCommand = s.lockCommand

theorem askEntry_opens {s : State} (run : s.inRun = true) (opens : s.CentreOpens) :
    (Stc.askEntry s).HoldsCentre ∧ TurnsToCentre s (Stc.askEntry s) ∧ (Stc.askEntry s).anyLive .steerCentre = true := by
  have clear : (s.live.find? fun e => e.isSelf && decide (e.kind = .steerCentre ∧ e.scope = .vehicle)) = none := by
    refine List.find?_eq_none.mpr fun e live => ?_
    simp only [Entry.isSelf, Bool.and_eq_true, decide_eq_true_eq, not_and]
    exact fun self kind => absurd ⟨self, kind⟩ (opens.none_live e live)
  obtain ⟨slot, free⟩ : ∃ slot, s.freeSlot 18 24 = some slot := by
    obtain ⟨i, above, empty⟩ := opens.free
    exact freeSlot_exists ⟨i, ⟨above, i.isLt⟩, empty⟩
  let entry := s.newEntry .steerCentre 15 0 .vehicle none 0
  let placed := s.placeEntry slot entry
  have asked : Stc.askEntry s = (Stc.startCentring placed).modStc fun x => { x with selfHandle := some (s.handleOf slot) } := by
    rw [Stc.askEntry, if_pos ⟨run, opens.none_held⟩, openSelf_places run clear free]
    dsimp only
    rw [handOff_steerCentre (by rfl)]
  have centre : placed.anyLive .steerCentre = true := by
    refine List.any_eq_true.mpr ⟨entry (s.handleOf slot), placeEntry_mem_live slot entry s, ?_⟩
    exact decide_eq_true rfl
  have placedStc : placed.stc = s.stc := State.placeEntry_stc _ _ _
  have placedLock : placed.lockCommand = s.lockCommand := by rw [State.lockCommand, State.placeEntry_vda, State.lockCommand]
  have ilt : (Stc.askEntry s).ilt = placed.ilt := by
    rw [asked, State.modStc_ilt, (bl_startCentring (.refl placed)).ilt]
  refine ⟨⟨s.handleOf slot, entry (s.handleOf slot), ?_, ?_, rfl, rfl⟩, ⟨fun from' => ?_, fun frozen tracking => ?_⟩, ?_⟩
  · rw [asked, State.modStc_stc]
  · rw [resolve_congr ilt]
    exact placeEntry_resolve slot entry s
  · rw [asked, startCentring_enters (by rwa [placedStc]) centre]
    refine ⟨?_, commandLock_lockCommand _⟩
    rw [State.modStc_stc, Stc.commandLock, command_stc, State.modStc_stc, placedStc]
  · have stays : Stc.startCentring placed = placed := if_neg (by rw [placedStc]; simp [frozen, tracking])
    rw [asked, stays]
    refine ⟨?_, placedLock⟩
    rw [State.modStc_stc, placedStc]
  · rw [anyLive_congr (State.live_congr ilt)]
    exact centre

theorem setLatch_stands {s : State} {cause q : LatchCause} (latched : s.stc.latch = some q) : Stc.setLatch cause s = s :=
  if_pos (by simp [latched])

theorem setLatch_eq {s : State} {cause : LatchCause} (clear : s.stc.latch = none) : Stc.setLatch cause s =
    (Stc.askEntry (s.modStc fun x => { x with latch := some cause })).post
      (.steerFault cause s.stc.state (Stc.askEntry (s.modStc fun x => { x with latch := some cause })).stc.selfHandle) :=
  if_neg (by simp [clear])

theorem askEntry_latch (s : State) : (Stc.askEntry s).stc.latch = s.stc.latch := by
  unfold Stc.askEntry
  split
  · exact openSelf_stc_latch _ _ _ _
  · rfl

/-- R141: a clear latch takes the cause that is put to it, with a notice. -/
theorem setLatch_takes {s : State} (cause : LatchCause) (clear : s.stc.latch = none) :
    (Stc.setLatch cause s).stc.latch = some cause ∧ (Stc.setLatch cause s).flagged 7 := by
  rw [setLatch_eq clear]
  refine ⟨?_, post_flagged_self _ _⟩
  rw [State.post_stc, askEntry_latch, State.modStc_stc]

/-- R142, R150: a latch set where the entry opens brings FROZEN and TRACKING to CENTRING. -/
theorem setLatch_opens {s : State} (cause : LatchCause) (clear : s.stc.latch = none) (run : s.inRun = true) (opens : s.CentreOpens) :
    (Stc.setLatch cause s).HoldsCentre
      ∧ TurnsToCentre (s.modStc fun x => { x with latch := some cause }) (Stc.setLatch cause s)
      ∧ (Stc.setLatch cause s).anyLive .steerCentre = true := by
  obtain ⟨⟨h, e, handle, resolved, entry⟩, turns, live⟩ := askEntry_opens (s := s.modStc fun x => { x with latch := some cause }) run
    (centreOpens_congr opens rfl rfl)
  rw [setLatch_eq clear]
  refine ⟨⟨h, e, ?_, ?_, entry⟩, ⟨fun from' => ?_, fun frozen tracking => ?_⟩, ?_⟩
  · rwa [State.post_stc]
  · rwa [resolve_congr (State.post_ilt _ _)]
  · rw [State.post_stc, State.lockCommand, State.post_vda]
    exact turns.entered from'
  · rw [State.post_stc, State.lockCommand, State.post_vda]
    exact turns.kept frozen tracking
  · rwa [anyLive_congr (State.live_congr (State.post_ilt _ _))]

end Sys2Proof.Machine
end

