-- ==== Sys2Proof/Proofs/ChannelTimers.lean ====
section
/-! PROOF. An event at one valve channel, and the statement ChannelTimersRunOut. -/

namespace Sys2Proof.Machine

/-! ## An event at one channel (R162 to R167, R171) -/

/-- The record of one channel replaced. -/
def State.putChannel (s : State) (ch : Fin 18) (c : Channel) : State := s.modVda fun v => { v with channels := wr v.channels ch c }

section
variable {ch : Fin 18} {f : Channel → Channel} {s : State}

theorem putChannel_channel (c : Channel) : rd (s.putChannel ch c).vda.channels ch = c := by
  rw [State.putChannel, State.modVda_vda, rd_wr_same]

theorem atChannel_eq : atChannel ch f s =
    if (f (rd s.vda.channels ch)).state = s.channelState ch then s.putChannel ch (f (rd s.vda.channels ch))
    else handToOwner ch (reportChannel ch (s.putChannel ch (f (rd s.vda.channels ch)))) := by
  have after : (s.putChannel ch (f (rd s.vda.channels ch))).channelState ch = (f (rd s.vda.channels ch)).state :=
    congrArg Channel.state (putChannel_channel _)
  rw [← after]
  rfl

/-- A channel's event that changes its state: the report and the hand-off follow. -/
theorem channelEvent_moves (moved : (f (rd s.vda.channels ch)).state ≠ s.channelState ch) :
    channelEvent ch f s = State.finish (handToOwner ch (reportChannel ch (s.putChannel ch (f (rd s.vda.channels ch))))) := by
  rw [channelEvent, atChannel_eq, if_neg moved]

theorem channelEvent_stays (same : (f (rd s.vda.channels ch)).state = s.channelState ch) :
    channelEvent ch f s = State.finish (s.putChannel ch (f (rd s.vda.channels ch))) := by
  rw [channelEvent, atChannel_eq, if_pos same]

theorem handed_base (u : State) : SameBase u (State.finish (handToOwner ch (reportChannel ch u))) :=
  (ev_finish (ev_handToOwner ch (ev_reportChannel ch .refl))).base

end

section
variable {ch : Fin 18} {st : ChannelState} {timer : Channel → Option Nat} {span : Nat} {f : Nat → Channel → Channel} {s : State}

theorem timerEvent_stopped (stopped : timer (rd s.vda.channels ch) = none) : timerEvent ch st timer span f s = s := by
  rw [timerEvent, stopped]

theorem timerEvent_runs {t : Nat} (state : (rd s.vda.channels ch).state = st) (running : timer (rd s.vda.channels ch) = some t) :
    timerEvent ch st timer span f s = channelEvent ch (f (max s.now (t + span))) (s.advanceTo (t + span)) := by
  rw [timerEvent, running]
  exact if_pos state

/-- A timer that runs out changes the state of its channel, which is reported and handed on. -/
theorem timerEvent_moves {t : Nat} (state : (rd s.vda.channels ch).state = st) (running : timer (rd s.vda.channels ch) = some t)
    {c : Channel} (after : f (max s.now (t + span)) (rd s.vda.channels ch) = c) (moved : c.state ≠ st) :
    timerEvent ch st timer span f s
      = State.finish (handToOwner ch (reportChannel ch (State.putChannel { s with now := max s.now (t + span) } ch c))) := by
  subst after
  rw [timerEvent_runs state running]
  exact channelEvent_moves (by rwa [← state] at moved)

end

/-- R166: the trip count goes on from 1 with the first trip, and where a series is over. -/
theorem tripCount_eq (now : Nat) (c : Channel) : c.tripCount now =
    if c.trips = 0 ∨ c.series = none ∨ (∃ first, c.series = some first ∧ 10000000 < now - first) then 1 else c.trips + 1 := by
  unfold Channel.tripCount
  cases series : c.series with
  | none => simp
  | some t => simp

theorem qualifyTime_eq (ch : Fin 18) : qualifyTime ch = if 13 ≤ ch.val ∧ ch.val ≤ 16 then 5000 else 2000 := by
  simp only [qualifyTime, proportional, decide_eq_true_eq]

/-- Settles O58. -/
theorem channelTimersRunOut : Obligations.ChannelTimersRunOut := by
  unfold Obligations.ChannelTimersRunOut
  rintro ch s x rfl
  refine ⟨fun t n state running hn => ⟨fun clear => ?_, fun above => ?_⟩, fun t n trips state running hn counted => ?_,
    fun t n state running hn => ⟨fun on => ?_, fun off => ?_⟩, fun t n state running hn => ?_, fun stopped => ?_, fun stopped => ?_,
    fun stopped => ?_, fun stopped => ?_⟩
  · subst hn
    refine ⟨congrArg Host.Outcome.next (timerEvent_moves state running ?_ (by simp)), handed_base _⟩
    simp [Channel.endBlanking, clear]
  · subst hn
    refine ⟨congrArg Host.Outcome.next (timerEvent_moves state running ?_ (by simp)), handed_base _⟩
    simp [Channel.endBlanking, above]
  · rw [← qualifyTime_eq] at hn
    subst hn
    rw [← tripCount_eq] at counted
    subst counted
    refine ⟨congrArg Host.Outcome.next (timerEvent_moves state running rfl ?_), handed_base _⟩
    dsimp only
    split <;> simp
  · subst hn
    refine ⟨congrArg Host.Outcome.next (timerEvent_moves state running ?_ (by simp)), handed_base _⟩
    simp [Channel.endRetry, Channel.follow, Channel.switchOn, on]
  · subst hn
    refine ⟨congrArg Host.Outcome.next (timerEvent_moves state running ?_ (by simp)), handed_base _⟩
    simp [Channel.endRetry, Channel.follow, off]
  · subst hn
    refine congrArg Host.Outcome.next ((timerEvent_runs state running).trans ?_)
    exact channelEvent_stays rfl
  iterate 4 exact congrArg Host.Outcome.next (timerEvent_stopped stopped)

end Sys2Proof.Machine
end

