-- ==== Sys2Proof/Proofs/OwnerHandOff.lean ====
section
/-! PROOF. A channel's change of state handed to its corner or to STC (R97, R141, R171). -/

namespace Sys2Proof.Machine

/-! ## The corners that a change leaves to the settling -/

theorem change_corner (f : Fin 6 → Corner → Corner) (s : State) (c : Fin 6) :
    (f c (rd s.crn.corners c)).Follows (fun _ => False) (rd (Crn.change f s).crn.corners c) := by
  have settled := (settle_follows (s.modCrn fun x => { x with corners := mapF x.corners f })).corners c
  rwa [State.modCrn_crn, rd_mapF] at settled

theorem changeOne_corner (k : Fin 6) (f : Corner → Corner) (s : State) (c : Fin 6) :
    (if k = c then f (rd s.crn.corners c) else rd s.crn.corners c).Follows (fun _ => False)
      (rd (Crn.changeOne k f s).crn.corners c) := by
  have settled := (settle_follows (s.modCrn fun x => { x with corners := upd x.corners k f })).corners c
  rw [State.modCrn_crn, rd_upd] at settled
  rw [Crn.changeOne]
  split at settled
  case isTrue same =>
    subst same
    rwa [if_pos rfl]
  case isFalse other => rwa [if_neg other]

/-- R90: a corner's two commands after the settling. -/
theorem settle_commands (s : State) (c : Fin 6) :
    (rd (Crn.settle s).vda.channels (fillChannel c)).command = bit (decide ((rd (Crn.settle s).crn.corners c).state = .filling))
    ∧ (rd (Crn.settle s).vda.channels (exhaustChannel c)).command
      = bit (decide ((rd (Crn.settle s).crn.corners c).state = .exhausting)) := by
  obtain ⟨fill, exhaust, -⟩ := commandCorners_commands (s.modCrn fun x => x.leaveQueue.grant)
  rw [settle_crn]
  exact ⟨fill c, exhaust c⟩

/-- The blocks that neither the corners nor the channels move. -/
def KeepsOthers (s t : State) : Prop :=
  t.ilt = s.ilt ∧ t.rlu = s.rlu ∧ t.brk = s.brk ∧ t.stc = s.stc ∧ t.dsv = s.dsv ∧ t.lnk = s.lnk ∧ t.cfg = s.cfg

theorem change_keepsOthers (f : Fin 6 → Corner → Corner) (s : State) : KeepsOthers s (Crn.change f s) := by
  simp [KeepsOthers, Crn.change]

theorem changeOne_keepsOthers (k : Fin 6) (f : Corner → Corner) (s : State) : KeepsOthers s (Crn.changeOne k f s) := by
  simp [KeepsOthers, Crn.changeOne]

/-! ## A corner's fault (R97) -/

section
variable {k : Fin 6} {r : CornerFault} {s : State}

theorem crnFault_stays (out : s.inRun = false ∨ (rd s.crn.corners k).state = .fault) : Crn.fault k r s = s := by
  refine if_neg ?_
  rcases out with out | fault
  · simp [out]
  · simp [fault]

theorem crnFault_enters (run : s.inRun = true) (sound : (rd s.crn.corners k).state ≠ .fault) :
    Crn.fault k r s = (Crn.changeOne k (fun x => { x.enter .fault with fault := some r }) s).post (.cornerFault k r) := if_pos ⟨run, sound⟩

theorem crnFault_entered (run : s.inRun = true) (sound : (rd s.crn.corners k).state ≠ .fault) :
    (rd (Crn.fault k r s).crn.corners k).state = .fault ∧ (rd (Crn.fault k r s).crn.corners k).fault = some r
      ∧ (rd (Crn.fault k r s).crn.corners k).reasons = (rd s.crn.corners k).reasons
      ∧ (Crn.fault k r s).flagged 5
      ∧ (rd (Crn.fault k r s).vda.channels (fillChannel k)).command = 0
      ∧ (rd (Crn.fault k r s).vda.channels (exhaustChannel k)).command = 0 := by
  have follows := changeOne_corner k (fun x => { x.enter .fault with fault := some r }) s k
  rw [if_pos rfl] at follows
  have state : (rd (Crn.changeOne k (fun x => { x.enter .fault with fault := some r }) s).crn.corners k).state = .fault :=
    follows.fault.mpr rfl
  rw [crnFault_enters run sound]
  refine ⟨?_, ?_, ?_, post_flagged_self _ _, ?_, ?_⟩
  · rw [State.post_crn, state]
  · rw [State.post_crn, follows.cause.1]
  · rw [State.post_crn]
    exact FreezeSet.ext_has fun q => follows.reasons q id
  · rw [State.post_vda, Crn.changeOne, (settle_commands _ k).1, ← Crn.changeOne, state]
    rfl
  · rw [State.post_vda, Crn.changeOne, (settle_commands _ k).2, ← Crn.changeOne, state]
    rfl

theorem crnFault_other {c : Fin 6} (other : c ≠ k) :
    (rd s.crn.corners c).Follows (fun _ => False) (rd (Crn.fault k r s).crn.corners c) := by
  by_cases enters : s.inRun = true ∧ (rd s.crn.corners k).state ≠ .fault
  · have follows := changeOne_corner k (fun x => { x.enter .fault with fault := some r }) s c
    rw [if_neg other.symm] at follows
    rwa [crnFault_enters enters.1 enters.2, State.post_crn]
  · rw [Crn.fault, if_neg enters]
    exact .refl _ _

theorem crnFault_beside : (Crn.fault k r s).ilt = s.ilt ∧ (Crn.fault k r s).rlu = s.rlu ∧ (Crn.fault k r s).brk = s.brk
    ∧ (Crn.fault k r s).stc = s.stc ∧ (Crn.fault k r s).dsv = s.dsv := by
  by_cases enters : s.inRun = true ∧ (rd s.crn.corners k).state ≠ .fault
  · obtain ⟨ilt, rlu, brk, stc, dsv, -⟩ := changeOne_keepsOthers k (fun x => { x.enter .fault with fault := some r }) s
    rw [crnFault_enters enters.1 enters.2, State.post_ilt, State.post_rlu, State.post_brk, State.post_stc, State.post_dsv]
    exact ⟨ilt, rlu, brk, stc, dsv⟩
  · rw [Crn.fault, if_neg enters]
    exact ⟨rfl, rfl, rfl, rfl, rfl⟩

end

/-! ## A change of state handed to CRN (R94, R97, R171) -/

/-- A failed channel is failed after any command, and no command makes a channel fail. -/
theorem Channel.take_failed {b : Bool} (now v : Nat) (c : Channel) (h : c.state.failed = b) : (c.take now v).state.failed = b := by
  unfold Channel.take Channel.follow Channel.switchOn Channel.switchOff ChannelState.driven ChannelState.failed at *
  grind

/-- One of a corner's two channels is DISABLED. -/
def State.valvesOff (s : State) (c : Fin 6) : Bool :=
  decide (s.channelState (fillChannel c) = .disabled) || decide (s.channelState (exhaustChannel c) = .disabled)

section
variable {u : State}

theorem fromChannels_corner (u : State) (c : Fin 6) :
    ((rd u.crn.corners c).judge .valvesOff (u.valvesOff c)).Follows (fun _ => False) (rd (Crn.fromChannels u).crn.corners c) := by
  rw [Crn.fromChannels]
  exact change_corner (fun i x => x.judge .valvesOff (u.valvesOff i)) u c

theorem fromChannels_failed (ch : Fin 18) : ((Crn.fromChannels u).channelState ch).failed = (u.channelState ch).failed :=
  (ev_fromChannels (a := u) .refl).channel (P := fun c => c.state.failed = (u.channelState ch).failed)
    (fun now v c => Channel.take_failed now v c) ch rfl

theorem fromChannels_state_fault (c : Fin 6) :
    (rd (Crn.fromChannels u).crn.corners c).state = .fault ↔ (rd u.crn.corners c).state = .fault :=
  (fromChannels_corner u c).fault.trans ((rd u.crn.corners c).judge_follows .valvesOff _).fault

theorem fromChannels_keepsOthers (u : State) : KeepsOthers u (Crn.fromChannels u) := change_keepsOthers _ u

theorem fromChannels_inRun : (Crn.fromChannels u).inRun = u.inRun := by
  obtain ⟨-, -, -, -, -, -, cfg⟩ := fromChannels_keepsOthers u
  rw [State.inRun, cfg, State.inRun]

/-- The corner of a fill or an exhaust channel. -/
def ownerCorner (ch : Fin 18) : Fin 6 := ⟨ch.val % 6, by omega⟩

/-- The cause that a fill or an exhaust channel gives its corner. -/
def channelCause (ch : Fin 18) : CornerFault := if ch.val < 6 then .fillValve else .exhaustValve

theorem ownerCorner_iff {ch : Fin 18} (corner : ch.val < 12) (c : Fin 6) : ownerCorner ch = c ↔ ch.val = c.val ∨ ch.val = c.val + 6 := by
  have small := c.isLt
  simp only [Fin.ext_iff, ownerCorner]
  omega

theorem faultFromChannel_eq {ch : Fin 18} (corner : ch.val < 12) (s : State) : faultFromChannel ch s =
    if (s.channelState ch).failed then Crn.fault (ownerCorner ch) (channelCause ch) s else s := by
  by_cases failed : (s.channelState ch).failed = true
  · rw [faultFromChannel, if_pos failed, if_pos failed, channelCause]
    by_cases low : ch.val < 6
    · have same : (⟨ch.val, low⟩ : Fin 6) = ownerCorner ch := Fin.ext (by simp only [ownerCorner]; omega)
      rw [dif_pos low, if_pos low, same]
    · have same : (⟨ch.val - 6, by omega⟩ : Fin 6) = ownerCorner ch := Fin.ext (by simp only [ownerCorner]; omega)
      rw [dif_neg low, dif_pos corner, if_neg low, same]
  · rw [faultFromChannel, if_neg failed, if_neg failed]

theorem handToOwner_corner {ch : Fin 18} (corner : ch.val < 12) : handToOwner ch u =
    if (u.channelState ch).failed then Crn.fault (ownerCorner ch) (channelCause ch) (Crn.fromChannels u) else Crn.fromChannels u := by
  rw [handToOwner, if_pos corner, faultFromChannel_eq corner, fromChannels_failed]

theorem handToOwner_none {ch : Fin 18} (low : 12 ≤ ch.val) (high : ch.val ≤ 16) : handToOwner ch u = u := by
  have other : ch ≠ lockChannel := by
    rintro rfl
    exact absurd high (by decide)
  rw [handToOwner, if_neg (by omega), if_neg other]

theorem handToOwner_lock : handToOwner lockChannel u = Stc.judgeLock u := by
  rw [handToOwner, if_neg (by decide), if_pos rfl]

/-- The change of state puts its corner in FAULT. -/
def FaultsCorner (ch : Fin 18) (u : State) (c : Fin 6) : Prop :=
  ownerCorner ch = c ∧ (u.channelState ch).failed = true ∧ u.inRun = true ∧ (rd u.crn.corners c).state ≠ .fault

theorem handToOwner_faults {ch : Fin 18} (corner : ch.val < 12) {c : Fin 6} (faults : FaultsCorner ch u c) :
    handToOwner ch u = Crn.fault c (channelCause ch) (Crn.fromChannels u) ∧ (Crn.fromChannels u).inRun = true
      ∧ (rd (Crn.fromChannels u).crn.corners c).state ≠ .fault := by
  obtain ⟨rfl, failed, run, sound⟩ := faults
  exact ⟨by rw [handToOwner_corner corner, if_pos failed], by rwa [fromChannels_inRun],
    fun fault => sound ((fromChannels_state_fault _).mp fault)⟩

/-- Where the corner is the channel's and gets no fault, the hand-off is the judgement of VALVES_OFF alone. -/
theorem handToOwner_no_fault {ch : Fin 18} (corner : ch.val < 12) (quiet : ¬ FaultsCorner ch u (ownerCorner ch)) :
    handToOwner ch u = Crn.fromChannels u := by
  rw [handToOwner_corner corner]
  split
  case isFalse => rfl
  case isTrue failed =>
    refine crnFault_stays ?_
    rw [fromChannels_inRun, fromChannels_state_fault]
    by_contra both
    rw [not_or, Bool.not_eq_false] at both
    exact quiet ⟨rfl, failed, both⟩

theorem handToOwner_follows {ch : Fin 18} (corner : ch.val < 12) {c : Fin 6} (quiet : ¬ FaultsCorner ch u c) :
    ((rd u.crn.corners c).judge .valvesOff (u.valvesOff c)).Follows (fun _ => False) (rd (handToOwner ch u).crn.corners c) := by
  by_cases mine : ownerCorner ch = c
  · rw [handToOwner_no_fault corner (mine ▸ quiet)]
    exact fromChannels_corner u c
  · rw [handToOwner_corner corner]
    split
    · exact (fromChannels_corner u c).trans (crnFault_other (Ne.symm mine))
    · exact fromChannels_corner u c

theorem handToOwner_beside {ch : Fin 18} (corner : ch.val < 12) : (handToOwner ch u).ilt = u.ilt ∧ (handToOwner ch u).rlu = u.rlu
    ∧ (handToOwner ch u).brk = u.brk ∧ (handToOwner ch u).stc = u.stc ∧ (handToOwner ch u).dsv = u.dsv := by
  obtain ⟨ilt, rlu, brk, stc, dsv, -⟩ := fromChannels_keepsOthers u
  rw [handToOwner_corner corner]
  split
  · obtain ⟨ilt', rlu', brk', stc', dsv'⟩ := crnFault_beside (k := ownerCorner ch) (r := channelCause ch) (s := Crn.fromChannels u)
    exact ⟨ilt'.trans ilt, rlu'.trans rlu, brk'.trans brk, stc'.trans stc, dsv'.trans dsv⟩
  · exact ⟨ilt, rlu, brk, stc, dsv⟩

theorem has_valvesOff (f : FreezeSet) : f.has .valvesOff = f.valvesOff := rfl

/-- VALVES_OFF stands as the two channels give it, and moves a corner only as R95 says. -/
theorem judged_follows {b a : Corner} {off : Bool} (h : (b.judge .valvesOff off).Follows (fun _ => False) a) :
    a.reasons.valvesOff = off ∧ a.fault = b.fault ∧ (b.state = .fault → a.state = .fault)
      ∧ (off = true → b.reasons.valvesOff = false → b.state ≠ .fault → a.state = .holding)
      ∧ (off = false → b.reasons = { FreezeSet.empty with valvesOff := true } → b.state = .holding → a.state = .inBand) := by
  have judged := b.judge_follows .valvesOff off
  refine ⟨?_, h.cause.1.trans judged.cause.1, fun fault => h.fault.mpr (judged.fault.mpr fault), fun gains lacks sound => ?_,
    fun loses only holding => ?_⟩
  · rw [← has_valvesOff, h.reasons _ id, Corner.judge_reasons, FreezeSet.has_put, if_pos rfl]
  · subst gains
    have holding : (b.gain .valvesOff).state = .holding := Corner.gain_holds lacks sound
    have rest := h.rests (show (b.gain .valvesOff).AtRest by rw [Corner.AtRest, if_neg (FreezeSet.has_ne_empty (gain_has _ _)), holding])
    have held : a.reasons.has .valvesOff = true := (h.reasons _ id).trans (gain_has _ _)
    rwa [Corner.AtRest, if_neg (FreezeSet.has_ne_empty held)] at rest
  · subst loses
    have rest : b.AtRest := by
      rw [Corner.AtRest, only, holding]
      rfl
    have after := h.rests (judged.rests rest)
    have empty : a.reasons = FreezeSet.empty := by
      refine FreezeSet.ext_has fun q => ?_
      rw [h.reasons q id, Corner.judge_reasons, only]
      rfl
    rwa [Corner.AtRest, if_pos empty] at after

/-! ## CL1 handed to STC (R141) -/

theorem unusable_iff (st : ChannelState) :
    st.unusable = true ↔ st = .tripped ∨ st = .lockedOut ∨ st = .openLoad ∨ st = .disabled := by simp [ChannelState.unusable]

theorem judgeLock_quiet (quiet : ¬ (u.inRun = true ∧ u.stc.state = .tracking ∧ (u.channelState lockChannel).unusable = true)) :
    Stc.judgeLock u = u := if_neg quiet

theorem judgeLock_sets (run : u.inRun = true) (tracking : u.stc.state = .tracking)
    (unusable : (u.channelState lockChannel).unusable = true) : Stc.judgeLock u = Stc.setLatch .lockChannel u :=
  if_pos ⟨run, tracking, unusable⟩

end

end Sys2Proof.Machine
end

