-- ==== Sys2Proof/Proofs/ChannelEvents.lean ====
section
/-! PROOF. Over-current, hard shorts and diagnostic checks, and the statement ChannelCurrentsAndChecks. -/

namespace Sys2Proof.Machine

section
variable {ch : Fin 18} {f : Channel → Channel} {s : State} {c : Channel}

theorem channelEvent_moves_to (after : f (rd s.vda.channels ch) = c) (moved : c.state ≠ s.channelState ch) :
    channelEvent ch f s = State.finish (handToOwner ch (reportChannel ch (s.putChannel ch c))) := by
  subst after
  exact channelEvent_moves moved

theorem channelEvent_stays_at (after : f (rd s.vda.channels ch) = c) (same : c.state = s.channelState ch) :
    channelEvent ch f s = State.finish (s.putChannel ch c) := by
  subst after
  exact channelEvent_stays same

theorem driven_iff (st : ChannelState) : st.driven = true ↔ st = .blanking ∨ st = .on ∨ st = .qualifying := by
  simp [ChannelState.driven]

theorem proportional_iff (ch : Fin 18) : proportional ch = true ↔ 13 ≤ ch.val ∧ ch.val ≤ 16 := by simp [proportional]

theorem overCurrentAbove_eq (ch : Fin 18) : overCurrentAbove ch = if 13 ≤ ch.val ∧ ch.val ≤ 16 then 30 else 20 := by
  simp only [overCurrentAbove, proportional_iff]

/-- R161: the duty of a driven output, by the channel's type. -/
theorem duty_driven (driven : c.state.driven = true) :
    (ch.val ≤ 12 ∨ ch.val = 17 → c.duty ch = { num := 1, den := 1 })
      ∧ (13 ≤ ch.val → ch.val ≤ 15 → c.duty ch = { num := c.command, den := 850 })
      ∧ (ch.val = 16 → c.duty ch = { num := c.command, den := 1000 }) := by
  refine ⟨fun onOff => ?_, fun low high => ?_, fun damper => ?_⟩
  · have plain : ¬ proportional ch = true := by
      rw [proportional_iff]
      omega
    simp [Channel.duty, driven, fullCommand, plain]
  · have scaled : proportional ch = true := (proportional_iff ch).mpr ⟨low, by omega⟩
    have brake : ch ≠ damperChannel := by
      rintro rfl
      exact absurd high (by decide)
    simp [Channel.duty, driven, fullCommand, scaled, brake]
  · have scaled : proportional ch = true := (proportional_iff ch).mpr ⟨by omega, by omega⟩
    have full : fullCommand ch = 1000 := by rw [fullCommand, if_pos scaled, if_pos (Fin.ext damper)]
    simp [Channel.duty, driven, full, scaled]

theorem duty_off (off : ¬ c.state.driven = true) : (c.duty ch).num = 0 := by rw [Channel.duty, if_neg off]

theorem hardShort_driven {now : Nat} (driven : c.state.driven = true) :
    c.hardShort now = Channel.trip now { c with overCurrent := true } := if_pos driven

theorem hardShort_off {now : Nat} (off : ¬ c.state.driven = true) : c.hardShort now = { c with overCurrent := true } := if_neg off

/-- R164, R166: a trip leaves TRIPPED or LOCKED_OUT. -/
theorem trip_moves {now : Nat} (driven : c.state.driven = true) : (c.trip now).state ≠ c.state := by
  have state : (c.trip now).state = if 3 ≤ c.tripCount now then .lockedOut else .tripped := rfl
  rw [state]
  rcases (driven_iff _).mp driven with st | st | st <;> rw [st] <;> split <;> simp

end

theorem next_congr {t u : State} (same : t = u) : (Host.Outcome.next t : Host.Outcome State Fault Refusal) = .next u :=
  congrArg Host.Outcome.next same

theorem execDiagnosticCheck_open {ch : Fin 18} {s : State} (load : Bool) (state : s.channelState ch = .openLoad) :
    exec (.diagnosticCheck ch load) s = .next s := congrArg Host.Outcome.next (if_pos state)

theorem execDiagnosticCheck_checks {ch : Fin 18} {s : State} (load : Bool) (state : s.channelState ch ≠ .openLoad) :
    exec (.diagnosticCheck ch load) s = .next (channelEvent ch
      (fun c => { c with lastCheck := max s.now ((rd s.vda.channels ch).lastCheck + 100000) }.diagnose load)
      { s with now := max s.now ((rd s.vda.channels ch).lastCheck + 100000) }) := congrArg Host.Outcome.next (if_neg state)

/-- Settles O59. -/
theorem channelCurrentsAndChecks : Obligations.ChannelCurrentsAndChecks := by
  unfold Obligations.ChannelCurrentsAndChecks
  refine ⟨?events, ?owners⟩
  case events =>
    rintro ch s x rfl
    refine ⟨fun on => ⟨next_congr (channelEvent_moves_to ?_ ?_), handed_base _⟩, fun off => next_congr (channelEvent_stays_at ?_ rfl),
      fun qualifying => ⟨next_congr (channelEvent_moves_to ?_ ?_), handed_base _⟩,
      fun other => next_congr (channelEvent_stays_at ?_ rfl), fun trips counted driven => ⟨next_congr (channelEvent_moves_to ?_ ?_), handed_base _⟩,
      fun blanking on qualifying => next_congr (channelEvent_stays_at (hardShort_off ?_) rfl), ?_⟩
    · exact if_pos on
    · simp [State.channelState, on]
    · exact if_neg off
    · exact if_pos qualifying
    · simp [State.channelState, qualifying]
    · exact if_neg other
    · rw [← tripCount_eq] at counted
      subst counted
      exact hardShort_driven ((driven_iff _).mpr driven)
    · rw [← tripCount_eq] at counted
      subst counted
      exact trip_moves (c := { rd s.vda.channels ch with overCurrent := true }) ((driven_iff _).mpr driven)
    · simp [driven_iff, blanking, on, qualifying]
    rintro n rfl
    refine ⟨fun off => ⟨?_, handed_base _⟩, fun load state => execDiagnosticCheck_open load state, fun load state sound => ?_,
      fun blanking on qualifying => duty_off (by simp [driven_iff, blanking, on, qualifying]),
      fun driven => duty_driven ((driven_iff _).mpr driven), overCurrentAbove_eq ch, rfl⟩
    · rw [execDiagnosticCheck_checks false (by simp [State.channelState, off])]
      refine next_congr (channelEvent_moves_to ?_ ?_)
      · exact if_pos ⟨off, rfl⟩
      · simp [State.channelState, off]
    · refine (execDiagnosticCheck_checks load state).trans (next_congr (channelEvent_stays_at (if_neg ?_) rfl))
      rintro ⟨off, none⟩
      rcases sound with other | there
      · exact other off
      · simp [there] at none
  case owners =>
    rintro ch u w x rfl rfl
    refine ⟨fun lockedOut => if_pos lockedOut, fun openLoad => ?_, fun sound => ?_, (ev_handToOwner ch .refl).base, handToOwner_none,
      fun c corner => ?_, fun lock => ?_⟩
    · rw [reportChannel, if_neg (by simp [openLoad]), if_pos openLoad]
    · rw [reportChannel, if_neg (fun h => sound (.inl h)), if_neg fun h => sound (.inr h)]
    · have mineIff := ownerCorner_iff corner c
      obtain ⟨ilt, rlu, brk, stc, dsv⟩ := handToOwner_beside (u := u) corner
      have faultsIff : FaultsCorner ch u c ↔ ((ch.val = c.val ∨ ch.val = c.val + 6)
          ∧ ((rd u.vda.channels ch).state = .lockedOut ∨ (rd u.vda.channels ch).state = .openLoad) ∧ u.cfg.device = .run
          ∧ (rd u.crn.corners c).state ≠ .fault) := by
        rw [FaultsCorner, mineIff, failed_iff, inRun_iff]
        rfl
      have offIff : (u.channelState ⟨c.val, by omega⟩ = .disabled ∨ u.channelState ⟨c.val + 6, by omega⟩ = .disabled)
          ↔ u.valvesOff c = true := by
        simp only [State.valvesOff, Bool.or_eq_true, decide_eq_true_eq]
        rfl
      simp only [← faultsIff, offIff]
      refine ⟨?_, fun faults => ?_, fun quiet => ?_, fun mine quiet => ?_, ilt, rlu, brk, stc, dsv⟩
      · by_cases faults : FaultsCorner ch u c
        · obtain ⟨fault, run, sound⟩ := handToOwner_faults corner faults
          obtain ⟨-, -, reasons, -⟩ := crnFault_entered (k := c) (r := channelCause ch) run sound
          rw [fault, reasons, (judged_follows (fromChannels_corner u c)).1]
        · rw [(judged_follows (handToOwner_follows corner faults)).1]
      · obtain ⟨fault, run, sound⟩ := handToOwner_faults corner faults
        obtain ⟨state, cause, -, posted, fill, exhaust⟩ := crnFault_entered (k := c) (r := channelCause ch) run sound
        rw [fault]
        refine ⟨state, posted, cause.trans ?_, fill, exhaust⟩
        have mine := mineIff.mp faults.1
        rw [channelCause]
        split
        case isTrue low => rw [if_pos (by omega)]
        case isFalse high => rw [if_neg (by omega)]
      · obtain ⟨-, cause, faulted, gains, loses⟩ := judged_follows (handToOwner_follows corner quiet)
        exact ⟨cause, faulted, gains, fun on => loses (Bool.eq_false_iff.mpr on)⟩
      · have owner := mineIff.mpr mine
        rw [handToOwner_no_fault corner (owner ▸ quiet)]
        obtain ⟨-, -, -, -, -, lnk, -⟩ := fromChannels_keepsOthers u
        exact lnk
    · obtain rfl : ch = lockChannel := Fin.ext lock
      rw [handToOwner_lock]
      simp only [← unusable_iff, ← inRun_iff]
      refine ⟨fun quiet => ?_, fun ⟨run, tracking, clear, unusable⟩ => ?_⟩
      · by_cases judged : u.inRun = true ∧ u.stc.state = .tracking ∧ (u.channelState lockChannel).unusable = true
        · obtain ⟨run, tracking, unusable⟩ := judged
          obtain ⟨q, latched⟩ := Option.ne_none_iff_exists'.mp fun clear => quiet ⟨run, tracking, clear, unusable⟩
          rw [judgeLock_sets run tracking unusable, setLatch_stands latched]
        · exact judgeLock_quiet judged
      · rw [judgeLock_sets run tracking unusable]
        obtain ⟨latched, posted⟩ := setLatch_takes .lockChannel clear
        refine ⟨latched, posted, fun unheld fits free centreless => ?_⟩
        obtain ⟨holds, turns, -⟩ := setLatch_opens .lockChannel clear run ⟨unheld, free, centreless⟩
        refine ⟨?_, holds⟩
        rw [(turns.entered (.inr tracking)).1]

end Sys2Proof.Machine
end

