-- ==== Sys2Proof/Proofs/Gates.lean ====
section
/-! PROOF. The samples of the die temperature and the supply voltage, and the statement GateSamplesMark. -/

namespace Sys2Proof.Machine

/-! ## The gates (R168 to R170) -/

/-- A state that a mark leaves. -/
def ChannelState.Shut (st : ChannelState) : Prop := st = .disabled ∨ st = .lockedOut ∨ st = .openLoad

theorem Channel.take_shut (now v : Nat) (c : Channel) (h : c.state.Shut) : (c.take now v).state.Shut := by
  unfold ChannelState.Shut Channel.take Channel.follow Channel.switchOn Channel.switchOff ChannelState.driven at *
  grind

theorem disable_state (c : Channel) : c.disable.state.Shut := by
  unfold ChannelState.Shut Channel.disable
  grind

theorem disable_record (c : Channel) :
    c.disable.thermal = c.thermal ∧ c.disable.undervoltage = c.undervoltage ∧ c.disable.trips = c.trips := by
  unfold Channel.disable
  grind

theorem enable_record (now : Nat) (c : Channel) :
    (c.enable now).thermal = c.thermal ∧ (c.enable now).undervoltage = c.undervoltage ∧ (c.enable now).trips = c.trips := by
  unfold Channel.enable Channel.follow Channel.switchOn
  grind

/-- The channels of a group moved, before the hand-off. -/
def State.gateMoved (group : Fin 18 → Bool) (f : Channel → Channel) (s : State) : State :=
  s.modVda fun v => { v with channels := mapF v.channels fun i c => if group i then f c else c }

theorem gateMoved_channel (group : Fin 18 → Bool) (f : Channel → Channel) (s : State) (c : Fin 18) :
    rd (s.gateMoved group f).vda.channels c = if group c then f (rd s.vda.channels c) else rd s.vda.channels c := by
  rw [State.gateMoved, State.modVda_vda, rd_mapF]

theorem ev_atGate {group : Fin 18 → Bool} {f : Channel → Channel} {s : State} : Evolves (s.gateMoved group f) (atGate group f s) :=
  ev_judgeLock (ev_fromChannels .refl)

theorem thermalGroup_iff (c : Fin 18) : thermalGroup c = true ↔ c.val ≤ 12 := by simp [thermalGroup]

/-! ## The temperature sample -/

/-- The state of a temperature sample before what it brings. -/
def State.withTemp (s : State) : State :=
  { s with now := max s.now (s.vda.lastTemp + 10000), vda := { s.vda with lastTemp := max s.now (s.vda.lastTemp + 10000) } }

theorem temperatureSample_eq (degrees : Int) (s : State) :
    exec (.temperatureSample degrees) s = .next (State.finish (sampleTemperature degrees s.withTemp)) := rfl

section
variable {degrees : Int} {s : State}

theorem sampleTemperature_closes (shut : s.vda.thermalClosed = false) (hot : 150 ≤ degrees) : ∃ u, Evolves (State.gateMoved thermalGroup
      Channel.markThermal (s.modVda fun v => { v with thermalClosed := true })) u
    ∧ sampleTemperature degrees s = u.post (.supply .thermal degrees) := ⟨_, ev_atGate, if_pos ⟨shut, hot⟩⟩

theorem sampleTemperature_opens (closed : s.vda.thermalClosed = true) (cool : degrees ≤ 130) :
    Evolves (State.gateMoved thermalGroup (Channel.unmarkThermal s.now) (s.modVda fun v => { v with thermalClosed := false }))
      (sampleTemperature degrees s) := by
  rw [sampleTemperature, if_neg (by simp [closed]), if_pos ⟨closed, cool⟩]
  exact ev_atGate

theorem sampleTemperature_stays (still : s.vda.thermalClosed = false ∧ degrees < 150 ∨ s.vda.thermalClosed = true ∧ 130 < degrees) :
    sampleTemperature degrees s = s := by
  rw [sampleTemperature, if_neg, if_neg]
  · rintro ⟨closed, cool⟩
    rcases still with ⟨opened, -⟩ | ⟨-, warm⟩
    · simp [closed] at opened
    · omega
  · rintro ⟨opened, hot⟩
    rcases still with ⟨-, cool⟩ | ⟨closed, -⟩
    · omega
    · simp [opened] at closed

end

/-! ## The supply sample -/

/-- The counts of a supply sample. -/
def State.withSupply (tenths : Nat) (s : State) : State :=
  { s with
    now := max s.now (s.vda.lastSupply + 1000)
    vda := { s.vda with
      lastSupply := max s.now (s.vda.lastSupply + 1000)
      lows := if tenths < 160 then min 10 (s.vda.lows + 1) else 0
      highs := if 180 ≤ tenths then min 50 (s.vda.highs + 1) else 0 } }

section
variable {tenths : Nat} {s : State}

theorem supplyAt_eq (tenths : Nat) (s : State) : supplyAt tenths s = State.finish
    (if (s.withSupply tenths).vda.underClosed = false ∧ 10 ≤ (s.withSupply tenths).vda.lows then closeUnderGate tenths (s.withSupply tenths)
    else if (s.withSupply tenths).vda.underClosed ∧ 50 ≤ (s.withSupply tenths).vda.highs then openUnderGate (s.withSupply tenths)
    else s.withSupply tenths) := rfl

theorem withSupply_lows : 10 ≤ (s.withSupply tenths).vda.lows ↔ tenths < 160 ∧ 10 ≤ s.vda.lows + 1 := by
  show 10 ≤ (if tenths < 160 then min 10 (s.vda.lows + 1) else 0) ↔ _
  split <;> omega

theorem withSupply_highs : 50 ≤ (s.withSupply tenths).vda.highs ↔ 180 ≤ tenths ∧ 50 ≤ s.vda.highs + 1 := by
  show 50 ≤ (if 180 ≤ tenths then min 50 (s.vda.highs + 1) else 0) ↔ _
  split <;> omega

/-- What a supply sample leaves, where it closes the gate, opens it, or does neither. -/
theorem supplyAt_closed (shut : s.vda.underClosed = false) (low : 10 ≤ (s.withSupply tenths).vda.lows) :
    SameBase (State.gateMoved (fun _ => true) Channel.markUnder ((s.withSupply tenths).modVda fun v => { v with underClosed := true }))
      (supplyAt tenths s) ∧ (supplyAt tenths s).flagged 10 ∧ ∀ c, ((supplyAt tenths s).channelState c).Shut := by
  have sampled : supplyAt tenths s = State.finish (closeUnderGate tenths (s.withSupply tenths)) := by
    rw [supplyAt_eq, if_pos ⟨shut, low⟩]
  have evolves : Evolves (State.gateMoved (fun _ => true) Channel.markUnder
      ((s.withSupply tenths).modVda fun v => { v with underClosed := true })) (supplyAt tenths s) := by
    rw [sampled]
    exact ev_finish (ev_post _ ev_atGate)
  refine ⟨evolves.base, sampled ▸ finish_flagged (post_flagged_self _ _), fun c => ?_⟩
  refine evolves.channel (P := fun c => c.state.Shut) (fun now v c => Channel.take_shut now v c) c ?_
  rw [gateMoved_channel, if_pos rfl]
  exact disable_state _

theorem supplyAt_opens (closed : s.vda.underClosed = true) (high : 50 ≤ (s.withSupply tenths).vda.highs) :
    Evolves (State.gateMoved (fun _ => true) (Channel.unmarkUnder (s.withSupply tenths).now)
      ((s.withSupply tenths).modVda fun v => { v with underClosed := false })) (supplyAt tenths s) := by
  have unshut : ¬ ((s.withSupply tenths).vda.underClosed = false ∧ 10 ≤ (s.withSupply tenths).vda.lows) := by
    simp [State.withSupply, closed]
  rw [supplyAt_eq, if_neg unshut, if_pos ⟨closed, high⟩]
  exact ev_finish ev_atGate

theorem supplyAt_stays (uncloses : ¬ (s.vda.underClosed = false ∧ 10 ≤ (s.withSupply tenths).vda.lows))
    (unopens : ¬ (s.vda.underClosed = true ∧ 50 ≤ (s.withSupply tenths).vda.highs)) :
    supplyAt tenths s = State.finish (s.withSupply tenths) := by
  exact (supplyAt_eq tenths s).trans (congrArg State.finish ((if_neg uncloses).trans (if_neg unopens)))

end

/-- Settles O60. -/
theorem gateSamplesMark : Obligations.GateSamplesMark := by
  unfold Obligations.GateSamplesMark
  refine ⟨fun degrees s => ⟨_, temperatureSample_eq degrees s, ?_⟩, ?supply⟩
  case supply =>
    rintro tenths s lows highs closes opens lowsAre highsAre rfl rfl
    obtain rfl : lows = (s.withSupply tenths).vda.lows := lowsAre
    obtain rfl : highs = (s.withSupply tenths).vda.highs := highsAre
    refine ⟨⟨_, rfl, ?_⟩, fun ⟨shut, low⟩ => next_congr (if_pos ?_), fun stays => next_congr (if_neg ?_),
      fun ⟨closed, high⟩ => next_congr (if_pos ?_), fun stays => next_congr (if_neg ?_)⟩
    · by_cases closing : s.vda.underClosed = false ∧ 10 ≤ (s.withSupply tenths).vda.lows
      · obtain ⟨base, posted, shut⟩ := supplyAt_closed closing.1 closing.2
        have record (c : Fin 18) := gateMoved_channel (fun _ => true) Channel.markUnder
          ((s.withSupply tenths).modVda fun v => { v with underClosed := true }) c
        refine ⟨base.now, base.lastSupply.trans base.now.symm, base.cfg, base.mot, base.lows, base.highs, fun _ =>
          ⟨base.underClosed, posted, fun c => ⟨?_, shut c⟩⟩, fun ⟨closed, _⟩ => ?_, fun stays => absurd closing stays, fun c => ?_⟩
        · rw [base.undervoltage, record, if_pos rfl, Channel.markUnder, (disable_record _).2.1]
        · simp [closing.1] at closed
        · rw [base.trips, base.thermal, record, if_pos rfl, Channel.markUnder]
          obtain ⟨thermal, -, trips⟩ := disable_record { rd s.vda.channels c with undervoltage := true }
          exact ⟨trips, thermal⟩
      by_cases opening : s.vda.underClosed = true ∧ 50 ≤ (s.withSupply tenths).vda.highs
      · have base := (supplyAt_opens opening.1 opening.2).base
        have record (c : Fin 18) := gateMoved_channel (fun _ => true) (Channel.unmarkUnder (s.withSupply tenths).now)
          ((s.withSupply tenths).modVda fun v => { v with underClosed := false }) c
        refine ⟨base.now, base.lastSupply.trans base.now.symm, base.cfg, base.mot, base.lows, base.highs,
          fun closing' => absurd closing' closing, fun _ => ⟨base.underClosed, fun c => ?_⟩, fun _ stays => absurd opening stays, fun c => ?_⟩
        · rw [base.undervoltage, record, if_pos rfl, Channel.unmarkUnder, (enable_record _ _).2.1]
        · rw [base.trips, base.thermal, record, if_pos rfl, Channel.unmarkUnder]
          obtain ⟨thermal, -, trips⟩ := enable_record (s.withSupply tenths).now { rd s.vda.channels c with undervoltage := false }
          exact ⟨trips, thermal⟩
      · rw [supplyAt_stays closing opening]
        have base := finish_base (s.withSupply tenths)
        exact ⟨base.now, base.lastSupply.trans base.now.symm, base.cfg, base.mot, base.lows, base.highs,
          fun closing' => absurd closing' closing, fun opening' => absurd opening' opening,
          fun _ _ => ⟨base.underClosed, congrArg Lnk.notices (finish_lnk (s.withSupply tenths)), base.undervoltage⟩,
          fun c => ⟨base.trips c, base.thermal c⟩⟩
    · simp [shut, withSupply_lows.mp low]
    · rw [withSupply_lows] at stays
      simpa using stays
    · simp [closed, withSupply_highs.mp high]
    · rw [withSupply_highs] at stays
      simpa using stays
  by_cases closing : s.vda.thermalClosed = false ∧ 150 ≤ degrees
  · obtain ⟨shut, hot⟩ := closing
    obtain ⟨u, evolved, sampled⟩ := sampleTemperature_closes (s := s.withTemp) shut hot
    rw [sampled]
    have evolves := ev_finish (ev_post (.supply .thermal degrees) evolved)
    have base := evolves.base
    have closed : (State.finish (u.post (.supply .thermal degrees))).vda.thermalClosed = true := base.thermalClosed
    have record (c : Fin 18) := gateMoved_channel thermalGroup Channel.markThermal (s.withTemp.modVda fun v => { v with thermalClosed := true }) c
    refine ⟨base.now, base.lastTemp.trans base.now.symm, base.cfg, base.mot, ?_, fun same => ?_, fun _ c => ?_, fun _ _ =>
      ⟨finish_flagged (post_flagged_self _ _), fun c low => ?_⟩, fun c => ?_⟩
    · simp [closed, hot]
    · rw [closed, shut] at same
      exact absurd same (by simp)
    · rw [base.thermal, record, closed]
      split
      case isTrue inside => rw [if_pos ((thermalGroup_iff c).mp inside), Channel.markThermal, (disable_record _).1]
      case isFalse outside => rw [if_neg (fun low => outside ((thermalGroup_iff c).mpr low))]; rfl
    · refine evolves.channel (P := fun c => c.state.Shut) (fun now v c => Channel.take_shut now v c) c ?_
      rw [record, if_pos ((thermalGroup_iff c).mpr low)]
      exact disable_state _
    · rw [base.trips, base.undervoltage, record]
      split
      · obtain ⟨-, under, trips⟩ := disable_record { rd s.vda.channels c with thermal := true }
        exact ⟨trips, under⟩
      · exact ⟨rfl, rfl⟩
  by_cases opening : s.vda.thermalClosed = true ∧ degrees ≤ 130
  · obtain ⟨shut, cool⟩ := opening
    have evolves := ev_finish (sampleTemperature_opens (s := s.withTemp) shut cool)
    have base := evolves.base
    have opened : (State.finish (sampleTemperature degrees s.withTemp)).vda.thermalClosed = false := base.thermalClosed
    have record (c : Fin 18) := gateMoved_channel thermalGroup (Channel.unmarkThermal s.withTemp.now)
      (s.withTemp.modVda fun v => { v with thermalClosed := false }) c
    refine ⟨base.now, base.lastTemp.trans base.now.symm, base.cfg, base.mot, ?_, fun same => ?_, fun _ c => ?_, fun closed =>
      absurd (opened.symm.trans closed) (by simp), fun c => ?_⟩
    · simp only [opened]
      constructor
      · exact fun no => absurd no (by simp)
      · rintro (hot | ⟨warm, -⟩) <;> omega
    · rw [opened, shut] at same
      exact absurd same (by simp)
    · rw [base.thermal, record, opened]
      split
      case isTrue inside => rw [if_pos ((thermalGroup_iff c).mp inside), Channel.unmarkThermal, (enable_record _ _).1]
      case isFalse outside => rw [if_neg (fun low => outside ((thermalGroup_iff c).mpr low))]; rfl
    · rw [base.trips, base.undervoltage, record]
      split
      · obtain ⟨-, under, trips⟩ := enable_record s.withTemp.now { rd s.vda.channels c with thermal := false }
        exact ⟨trips, under⟩
      · exact ⟨rfl, rfl⟩
  · have still : s.vda.thermalClosed = false ∧ degrees < 150 ∨ s.vda.thermalClosed = true ∧ 130 < degrees := by
      cases shut : s.vda.thermalClosed <;> simp [shut] at closing opening ⊢ <;> omega
    rw [sampleTemperature_stays (s := s.withTemp) still]
    have base := finish_base s.withTemp
    have same : (State.finish s.withTemp).vda.thermalClosed = s.vda.thermalClosed := base.thermalClosed
    refine ⟨base.now, base.lastTemp.trans base.now.symm, base.cfg, base.mot, ?_, fun _ => ⟨by rw [finish_lnk]; rfl, base.thermal⟩,
      fun moved => absurd same moved, fun closed opened => ?_, fun c => ⟨base.trips c, base.undervoltage c⟩⟩
    · rw [same]
      rcases still with ⟨opened, cool⟩ | ⟨closed, warm⟩
      · simp [opened, cool]
      · simp [closed, warm]
    · rw [same, opened] at closed
      exact absurd closed (by simp)

end Sys2Proof.Machine
end

