-- ==== Sys2Proof/Proofs/TableMoves.lean ====
section
/-! PROOF. An entry changed or dropped by its handle, and AMEND step by step. -/

namespace Sys2Proof.Machine

/-! ## An entry changed or dropped by its handle -/

section
variable {s : State} {handle : Nat} {e : Entry}

theorem slot_of_resolve (resolved : s.resolve handle = some e) : ∃ i : Fin 24, i.val = handle / 8
    ∧ handle % 8 = (rd s.ilt.slots i).generation.val ∧ (rd s.ilt.slots i).entry = some e := by
  obtain ⟨i, rfl, entry⟩ := resolve_eq_some_iff.mp resolved
  have generation := (rd s.ilt.slots i).generation.isLt
  exact ⟨i, by omega, by omega, entry⟩

/-- The entry that a handle resolves to is changed, and the other slots stand. -/
theorem updEntry_slot (resolved : s.resolve handle = some e) (f : Entry → Entry) (j : Fin 24) :
    rd (s.updEntry handle f).ilt.slots j =
      if j.val = handle / 8 then { rd s.ilt.slots j with entry := some (f e) } else rd s.ilt.slots j := by
  obtain ⟨i, place, generation, entry⟩ := slot_of_resolve resolved
  have inTable : handle / 8 < 24 := place ▸ i.isLt
  have same : (⟨handle / 8, inTable⟩ : Fin 24) = i := Fin.ext place.symm
  rw [State.updEntry, dif_pos inTable, same, State.modIlt_ilt, rd_upd, ← place]
  by_cases here : i = j
  · subst here
    rw [if_pos rfl, if_pos rfl, if_pos generation, entry]
    rfl
  · rw [if_neg here, if_neg fun h => here (Fin.ext h.symm)]

theorem updEntry_order (handle : Nat) (f : Entry → Entry) (s : State) : (s.updEntry handle f).ilt.order = s.ilt.order := by
  unfold State.updEntry
  split <;> rfl

theorem updEntry_resolve (resolved : s.resolve handle = some e) (f : Entry → Entry) :
    (s.updEntry handle f).resolve handle = some (f e) := by
  obtain ⟨i, place, generation, entry⟩ := slot_of_resolve resolved
  have slot := updEntry_slot resolved f i
  rw [if_pos place] at slot
  exact State.resolve_of_slot place (by rw [slot]; exact generation) (by rw [slot])

/-- The slot of a retired handle is empty and its generation has advanced; the other slots stand. -/
theorem dropEntry_slot (resolved : s.resolve handle = some e) (j : Fin 24) : rd (s.dropEntry handle).ilt.slots j =
    if j.val = handle / 8 then { generation := (rd s.ilt.slots j).generation + 1, entry := none } else rd s.ilt.slots j := by
  obtain ⟨i, place, -⟩ := slot_of_resolve resolved
  have inTable : handle / 8 < 24 := place ▸ i.isLt
  have same : (⟨handle / 8, inTable⟩ : Fin 24) = i := Fin.ext place.symm
  rw [State.dropEntry, dif_pos inTable, if_pos (by rw [resolved]; rfl), same, State.modIlt_ilt, rd_upd, ← place]
  by_cases here : i = j
  · subst here
    rw [if_pos rfl, if_pos rfl]
  · rw [if_neg here, if_neg fun h => here (Fin.ext h.symm)]

theorem dropEntry_order (resolved : s.resolve handle = some e) {i : Fin 24} (place : i.val = handle / 8) :
    (s.dropEntry handle).ilt.order = s.ilt.order.erase i := by
  have inTable : handle / 8 < 24 := place ▸ i.isLt
  have same : (⟨handle / 8, inTable⟩ : Fin 24) = i := Fin.ext place.symm
  rw [State.dropEntry, dif_pos inTable, if_pos (by rw [resolved]; rfl), same, State.modIlt_ilt]

theorem dropEntry_unresolved (gone : s.resolve handle = none) : s.dropEntry handle = s := by
  rw [State.dropEntry]
  split
  · rw [gone]
    exact if_neg (by simp)
  · rfl

theorem resolve_none_of_slot {t : State} {i : Fin 24} (place : i.val = handle / 8)
    (empty : (rd t.ilt.slots i).entry = none ∨ handle % 8 ≠ (rd t.ilt.slots i).generation.val) : t.resolve handle = none := by
  refine Option.eq_none_iff_forall_ne_some.mpr fun f resolved => ?_
  obtain ⟨j, place', generation, entry⟩ := slot_of_resolve resolved
  obtain rfl : i = j := Fin.ext (place.trans place'.symm)
  rcases empty with empty | apart
  · rw [empty] at entry
    exact absurd entry (by simp)
  · exact apart generation

theorem dropEntry_resolve (handle : Nat) (s : State) : (s.dropEntry handle).resolve handle = none := by
  cases resolved : s.resolve handle with
  | none => rw [dropEntry_unresolved resolved, resolved]
  | some e =>
    obtain ⟨i, place, -⟩ := slot_of_resolve resolved
    have slot := dropEntry_slot resolved i
    rw [if_pos place] at slot
    exact resolve_none_of_slot place (.inl (by rw [slot]))

/-- The handle of an entry, by the table's property. -/
theorem handle_of_resolve (fits : s.ilt.Fits) (resolved : s.resolve handle = some e) : e.handle = handle := by
  obtain ⟨i, rfl, entry⟩ := resolve_eq_some_iff.mp resolved
  exact fits.handle i e entry

theorem resolve_of_live (fits : s.ilt.Fits) (live : e ∈ s.live) : s.resolve e.handle = some e := by
  obtain ⟨i, entry⟩ := (mem_live fits).mp live
  exact resolve_eq_some_iff.mpr ⟨i, fits.handle i e entry, entry⟩

theorem live_of_resolve (fits : s.ilt.Fits) (resolved : s.resolve handle = some e) : e ∈ s.live := by
  obtain ⟨i, -, entry⟩ := resolve_eq_some_iff.mp resolved
  exact (mem_live fits).mpr ⟨i, entry⟩

theorem Reviewed.resolve {t : State} (h : Reviewed s t) (resolved : s.resolve handle = some e) :
    ∃ f, t.resolve handle = some f ∧ e.Reviewed f := by
  obtain ⟨i, place, generation, entry⟩ := slot_of_resolve resolved
  obtain ⟨f, there, reviewed⟩ := h.entry_some entry
  exact ⟨f, State.resolve_of_slot place (by rw [h.generation]; exact generation) there, reviewed⟩

theorem Reviewed.resolve_none {t : State} (h : Reviewed s t) (gone : s.resolve handle = none) : t.resolve handle = none := by
  refine Option.eq_none_iff_forall_ne_some.mpr fun f resolved => ?_
  obtain ⟨i, place, generation, entry⟩ := slot_of_resolve resolved
  obtain ⟨e, there, -⟩ := h.entry_from entry
  rw [h.generation] at generation
  rw [State.resolve_of_slot place generation there] at gone
  exact absurd gone (by simp)

end

/-! ## AMEND (R56) -/

section
variable {x : Sender} {s : State} {handle given : Nat} {e : Entry}

theorem requestAmend_outside_run (known : s.knows x) (out : s.cfg.device ≠ .run) :
    requestAmend x.partner handle given s = (s, s.notReady) := ifEntry_outside_run known out _ _

theorem requestAmend_other (known : s.knows x) (run : s.cfg.device = .run) (resolved : s.resolve handle = some e)
    (owner : e.owner ≠ x.partner) : requestAmend x.partner handle given s = (s, .because .notOwner .ownerOnly) := by
  rw [requestAmend, ifEntry_resolved known run resolved, if_pos owner]

theorem requestAmend_fixed (known : s.knows x) (run : s.cfg.device = .run) (resolved : s.resolve handle = some e)
    (owner : e.owner = x.partner) (fixed : e.kind.parameterRange = none) :
    requestAmend x.partner handle given s = (s, .no .requestInvalid) := by
  rw [requestAmend, ifEntry_resolved known run resolved, if_neg (not_not_intro owner), if_pos (by simp [fixed])]

theorem requestAmend_stopped (known : s.knows x) (run : s.cfg.device = .run) (resolved : s.resolve handle = some e)
    (owner : e.owner = x.partner) (ranged : e.kind.parameterRange ≠ none) (stopped : e.state = .stale ∨ e.state = .covered) :
    requestAmend x.partner handle given s = (s, .no .entryStale) := by
  have follows : e.state.follows = false := by rcases stopped with st | st <;> simp [EntryState.follows, st]
  rw [requestAmend, ifEntry_resolved known run resolved, if_neg (not_not_intro owner), if_neg (by simpa using ranged), if_pos follows]

/-- The state after an AMEND to a parameter. -/
def State.amended (handle : Nat) (e : Entry) (p : Option Nat) (s : State) : State :=
  if p = e.parameter then s else State.finish (handAmended e (s.updEntry handle fun x => { x with parameter := p }))

theorem requestAmend_taken (known : s.knows x) (run : s.cfg.device = .run) (resolved : s.resolve handle = some e)
    (owner : e.owner = x.partner) (ranged : e.kind.parameterRange ≠ none) (shown : e.state = .waiting ∨ e.state = .active) :
    requestAmend x.partner handle given s = (s.amended handle e (e.kind.fitParameter given).1,
      .accepted (some handle) ((s.amended handle e (e.kind.fitParameter given).1).entryState handle)
        (AnswerFlags.ofClamped (e.kind.fitParameter given).2) 0 0 0) := by
  have follows : e.state.follows = true := by rcases shown with st | st <;> simp [EntryState.follows, st]
  have same : ∀ p, (if p = e.parameter then s.updEntry handle fun x => { x with parameter := p }
      else State.finish (handAmended e (s.updEntry handle fun x => { x with parameter := p }))) = s.amended handle e p := by
    intro p
    rw [State.amended]
    split
    case isTrue unchanged => exact updEntry_same resolved (by rw [unchanged])
    case isFalse => rfl
  rw [requestAmend, ifEntry_resolved known run resolved, if_neg (not_not_intro owner), if_neg (by simpa using ranged),
    if_neg (by simp [follows])]
  dsimp only
  rw [same]

theorem handAmended_blocks (e : Entry) (s : State) : Blocks s (handAmended e s) :=
  bl_ite (bl_brkJudge (.refl s)) (bl_rluFromTable (.refl s))

theorem handAmended_faults (e : Entry) (s : State) : s.crn.SameFaults (handAmended e s).crn := by
  unfold handAmended
  split
  · rw [brkJudge_crn]
    exact .refl _
  · exact fun c => ((rluFromTable_follows s).corners c).fault

/-- The parameter of one entry set. -/
def State.withParameter (handle : Nat) (p : Option Nat) (s : State) : State := s.updEntry handle fun x => { x with parameter := p }

theorem amended_cases (resolved : s.resolve handle = some e) (p : Option Nat) :
    (p = e.parameter ∧ s.amended handle e p = s.withParameter handle p ∧ s.amended handle e p = s)
      ∨ (p ≠ e.parameter ∧ s.amended handle e p = State.finish (handAmended e (s.withParameter handle p))) := by
  by_cases same : p = e.parameter
  · have still : s.amended handle e p = s := if_pos same
    exact .inl ⟨same, still.trans (updEntry_same resolved (by rw [same])).symm, still⟩
  · exact .inr ⟨same, if_neg same⟩

theorem amended_reviewed (resolved : s.resolve handle = some e) (p : Option Nat) :
    Reviewed (s.withParameter handle p) (s.amended handle e p) := by
  obtain ⟨-, same, -⟩ | ⟨-, same⟩ := amended_cases resolved p <;> rw [same]
  · exact reviewed_of_same rfl
  · exact (reviewed_of_same (handAmended_blocks e _).ilt).trans (finish_reviewed _)

theorem amended_lnk (resolved : s.resolve handle = some e) (p : Option Nat) : (s.amended handle e p).lnk = s.lnk := by
  obtain ⟨-, -, same⟩ | ⟨-, same⟩ := amended_cases resolved p <;> rw [same]
  rw [finish_lnk, (handAmended_blocks e _).lnk, State.withParameter, State.updEntry_lnk]

theorem ev_handAmended {a u : State} (e : Entry) (h : Evolves a u) : Evolves a (handAmended e u) :=
  ev_ite (ev_brkJudge h) (ev_rluFromTable h)

/-- The end of an event and the hand-off of a parameter leave the motion, the settings and the faults of the corners. -/
theorem amended_inputs (resolved : s.resolve handle = some e) (p : Option Nat) : (s.amended handle e p).mot = s.mot
    ∧ (s.amended handle e p).cfg = s.cfg ∧ s.crn.SameFaults (s.amended handle e p).crn := by
  obtain ⟨-, -, same⟩ | ⟨-, same⟩ := amended_cases resolved p <;> rw [same]
  · exact ⟨rfl, rfl, .refl _⟩
  · refine ⟨?_, ?_, ?_⟩
    · rw [finish_mot, (handAmended_blocks e _).mot, State.withParameter, State.updEntry_mot]
    · rw [finish_cfg, (handAmended_blocks e _).cfg, State.withParameter, State.updEntry_cfg]
    · have faults := (handAmended_faults e (s.withParameter handle p)).trans (finish_faults _)
      rwa [State.withParameter, State.updEntry_crn] at faults

end

end Sys2Proof.Machine
end

