-- ==== Sys2Proof/Proofs/Amend.lean ====
section
/-! PROOF. The statement AmendSetsParameter. -/

namespace Sys2Proof.Machine

theorem updEntry_base (handle : Nat) (f : Entry → Entry) (s : State) : SameBase s (s.updEntry handle f) := by
  unfold State.updEntry
  split
  · constructor <;> intros <;> rfl
  · exact .refl s

section
variable {s : State} {handle : Nat} {e : Entry}

theorem amended_base (resolved : s.resolve handle = some e) (p : Option Nat) : SameBase s (s.amended handle e p) := by
  obtain ⟨-, -, same⟩ | ⟨-, same⟩ := amended_cases resolved p <;> rw [same]
  · exact .refl s
  · exact (updEntry_base handle _ s).trans (ev_finish (ev_handAmended e .refl)).base

theorem rangedKinds {k : Kind} {r : Nat × Nat × Nat} (ranged : k.parameterRange = some r) : k = .kneel ∨ k = .stopHold ∨ k = .raise := by
  cases k <;> simp [Kind.parameterRange] at ranged ⊢

/-- The condition of a kind with a parameter reads the motion, the settings and the faults of the corners alone. -/
theorem activeWhen_of_inputs {t : State} {f : Entry} (kind : e.kind = .kneel ∨ e.kind = .stopHold ∨ e.kind = .raise)
    (sameKind : f.kind = e.kind) (sameScope : f.scope = e.scope) (mot : t.mot = s.mot) (cfg : t.cfg = s.cfg)
    (faults : s.crn.SameFaults t.crn) : t.ActiveWhen f ↔ s.ActiveWhen e := by
  unfold State.ActiveWhen
  rw [sameKind, sameScope, mot, cfg]
  rcases kind with kind | kind | kind <;> rw [kind]
  dsimp only
  simp only [ne_eq, faults _]

/-- An entry that shows its condition still does after an AMEND. -/
theorem amended_shows {r : Nat × Nat × Nat} {p : Option Nat} {f : Entry} (run : s.cfg.device = .run) (fits : s.ilt.Fits)
    (evaluated : s.Evaluated) (resolved : s.resolve handle = some e) (ranged : e.kind.parameterRange = some r)
    (shown : e.state = .waiting ∨ e.state = .active) (after : (s.amended handle e p).resolve handle = some f)
    (reviewed : Entry.Reviewed { e with parameter := p } f) (fits' : f ∈ (s.amended handle e p).live) :
    f.state = e.state ∧ f.underlying = e.underlying ∧ (s.amended handle e p).Evaluated := by
  have evaluated' : (s.amended handle e p).Evaluated := by
    obtain ⟨-, -, same⟩ | ⟨-, same⟩ := amended_cases resolved p <;> rw [same]
    · exact evaluated
    · exact finish_evaluated _
  obtain ⟨mot, cfg, faults⟩ := amended_inputs resolved p
  have run' : (s.amended handle e p).cfg.device = .run := by rw [cfg, run]
  have identity := reviewed.record
  simp only [Entry.record, Prod.mk.injEq] at identity
  obtain ⟨-, kind, -, -, scope, -, -⟩ := identity
  have live := live_of_resolve fits resolved
  have underlying : f.underlying = e.underlying := Bool.eq_iff_iff.mpr ((evaluated'.underlying run' f fits').trans
    ((activeWhen_of_inputs (rangedKinds ranged) kind scope mot cfg faults).trans (evaluated.underlying run e live).symm))
  refine ⟨?_, underlying, evaluated'⟩
  rw [evaluated'.shown run' f fits' (reviewed.shown shown), evaluated.shown run e live shown, underlying]

end

theorem fitParameter_ranged {k : Kind} {lo hi dflt given : Nat} (ranged : k.parameterRange = some (lo, hi, dflt)) :
    k.fitParameter given = (some (if given = 65535 then dflt else max lo (min hi given)),
      decide (given ≠ 65535 ∧ (if given = 65535 then dflt else max lo (min hi given)) ≠ given)) := by
  rw [Kind.fitParameter, ranged]
  dsimp only
  split
  case isTrue default => simp [default]
  case isFalse other =>
    have clamped : clampNat lo hi given = max lo (min hi given) := rfl
    simp [other, clamped]

/-- Settles O18. -/
theorem amendSetsParameter : Obligations.AmendSetsParameter := by
  unfold Obligations.AmendSetsParameter
  refine ⟨fun x tag handle w s e lo hi dflt heard known run resolved owner ranged shown => ?_, fun x tag handle w s heard known =>
    ⟨fun out => ?_, fun e run resolved => ⟨fun other => ?_, fun owner => ⟨fun fixed => ?_, fun ranged stopped => ?_⟩⟩⟩⟩
  case refine_2 => rw [exec_amend_heard heard, requestAmend_outside_run known out]; rfl
  case refine_3 => rw [exec_amend_heard heard, requestAmend_other known run resolved other]; rfl
  case refine_4 => rw [exec_amend_heard heard, requestAmend_fixed known run resolved owner fixed]; rfl
  case refine_5 => rw [exec_amend_heard heard, requestAmend_stopped known run resolved owner ranged stopped]; rfl
  obtain ⟨p, hp⟩ : ∃ p, p = if w.toNat = 65535 then dflt else max lo (min hi w.toNat) := ⟨_, rfl⟩
  have reviewed := amended_reviewed resolved (some p)
  obtain ⟨f, after, amended⟩ := reviewed.resolve (updEntry_resolve resolved fun x => { x with parameter := some p })
  have record := amended.record
  simp only [Entry.record, Prod.mk.injEq] at record
  obtain ⟨sameHandle, sameKind, sameOwner, sameAuthority, sameScope, sameParameter, sameDeadline⟩ := record
  have run' : (s.amended handle.toNat e (some p)).entryState handle.toNat = some f.state := by rw [State.entryState, after]; rfl
  have cases' := amended_cases resolved (some p)
  refine ⟨s.amended handle.toNat e (some p), f, p, hp, ?_, after, sameParameter, sameHandle, sameKind, sameOwner, sameAuthority, sameScope,
    sameDeadline, amended.coveredBy, amended.shown shown, fun evaluated fits => ?_, ?_, fun i other => ?_, fun kind fitted => ?_,
    fun kind fitted => ?_, amended_lnk resolved _, amended_base resolved _⟩
  · rw [exec_amend_heard heard, requestAmend_taken known run resolved owner (by simp [ranged]) shown, fitParameter_ranged ranged, ← hp, run']
  · refine amended_shows run fits evaluated resolved ranged shown after amended ?_
    obtain ⟨i, place, -, entry⟩ := slot_of_resolve resolved
    obtain ⟨j, place', -, entry'⟩ := slot_of_resolve after
    obtain rfl : j = i := Fin.ext (place'.trans place.symm)
    refine List.mem_filterMap.mpr ⟨j, ?_, entry'⟩
    rw [reviewed.order, State.withParameter, updEntry_order, fits.lists, entry]
    rfl
  · rw [reviewed.order, State.withParameter, updEntry_order]
  · rw [reviewed.slot_record, State.withParameter, updEntry_slot resolved, if_neg other]
  · obtain ⟨same, -, still⟩ | ⟨-, moved⟩ := cases'
    · rw [still]
      exact fitted.resolve_left fun changed => changed same.symm
    · rw [moved, handAmended, if_pos kind]
      exact finish_holdsFit (brk_judge_holdsFit _)
  · obtain ⟨same, -, still⟩ | ⟨-, moved⟩ := cases'
    · rw [still]
      exact fitted.resolve_left fun changed => changed same.symm
    · have other : e.kind ≠ .stopHold := by rcases kind with kind | kind <;> simp [kind]
      rw [moved, handAmended, if_neg other]
      exact finish_ridesFit (rluFromTable_ridesFit _)

end Sys2Proof.Machine
end

