-- ==== Sys2Proof/Proofs/Refresh.lean ====
section
/-! PROOF. REFRESH and the revival of an entry, and the statement RefreshKeepsAlive. -/

namespace Sys2Proof.Machine

/-! ## REFRESH (R31, R32, R57, R64) -/

section
variable {x : Sender} {s : State} {handle : Nat} {e : Entry}

theorem requestRefresh_outside_run (known : s.knows x) (out : s.cfg.device ≠ .run) :
    requestRefresh x.partner handle s = (s, s.notReady) := ifEntry_outside_run known out _ _

theorem requestRefresh_other (known : s.knows x) (run : s.cfg.device = .run) (resolved : s.resolve handle = some e)
    (owner : e.owner ≠ x.partner) : requestRefresh x.partner handle s = (s, .because .notOwner .ownerOnly) := by
  rw [requestRefresh, ifEntry_resolved known run resolved, if_pos owner]

theorem requestRefresh_endless (known : s.knows x) (run : s.cfg.device = .run) (resolved : s.resolve handle = some e)
    (owner : e.owner = x.partner) (endless : e.deadline = .none) : requestRefresh x.partner handle s =
      (s, .accepted (some handle) (some e.state) { AnswerFlags.none with noDeadline := true } 0 0 0) := by
  rw [requestRefresh, ifEntry_resolved known run resolved, if_neg (not_not_intro owner), if_pos endless]

theorem fullWindow_running (window : (s.record e.owner).window ≠ 0) :
    s.fullWindow e = .running (s.now + (s.record e.owner).window * 1000) := if_neg window

theorem requestRefresh_follows (known : s.knows x) (run : s.cfg.device = .run) (resolved : s.resolve handle = some e)
    (owner : e.owner = x.partner) (deadline : e.deadline ≠ .none) (shown : e.state = .waiting ∨ e.state = .active) :
    requestRefresh x.partner handle s = (s.updEntry handle fun y => { y with deadline := s.fullWindow e },
      .accepted (some handle) (some e.state) AnswerFlags.none 0 0 0) := by
  have follows : e.state.follows = true := by rcases shown with st | st <;> simp [EntryState.follows, st]
  rw [requestRefresh, ifEntry_resolved known run resolved, if_neg (not_not_intro owner), if_neg deadline, if_pos follows]
  dsimp only
  rw [State.entryState, updEntry_resolve resolved]
  rfl

theorem requestRefresh_revives (known : s.knows x) (run : s.cfg.device = .run) (resolved : s.resolve handle = some e)
    (owner : e.owner = x.partner) (deadline : e.deadline ≠ .none) (stopped : e.state = .stale ∨ e.state = .covered) :
    requestRefresh x.partner handle s = (revive e s,
      .accepted (some handle) ((revive e s).entryState handle) { AnswerFlags.none with revived := true } 0 0 0) := by
  have follows : ¬ e.state.follows = true := by rcases stopped with st | st <;> simp [EntryState.follows, st]
  rw [requestRefresh, ifEntry_resolved known run resolved, if_neg (not_not_intro owner), if_neg deadline, if_neg follows]

end

/-! ## The revival of an entry (R32, R64) -/

/-- A revived entry. -/
def Entry.revived (active : Bool) (d : Deadline) (e : Entry) : Entry :=
  { e with state := shownState active, underlying := active, deadline := d, coveredBy := none }

/-- The table of a revival before the hand-off: the entry revived, and the OVERRIDE that covered it gone. -/
def State.reviving (e : Entry) (s : State) : State :=
  match e.coveredBy with
  | some o => dropOverride o .targetRevived (s.updEntry e.handle (Entry.revived (s.activates e.kind e.scope) (s.fullWindow e)))
  | none => s.updEntry e.handle (Entry.revived (s.activates e.kind e.scope) (s.fullWindow e))

theorem revive_eq (e : Entry) (s : State) : revive e s = State.finish (handOff .changed e (s.reviving e)) := by
  unfold revive State.reviving
  cases e.coveredBy <;> rfl

section
variable {s : State} {e : Entry}

theorem reviving_uncovered (uncovered : e.coveredBy = none) :
    s.reviving e = s.updEntry e.handle (Entry.revived (s.activates e.kind e.scope) (s.fullWindow e)) := by
  rw [State.reviving, uncovered]

theorem reviving_covered {o : Nat} (covered : e.coveredBy = some o) : s.reviving e =
    ((s.updEntry e.handle (Entry.revived (s.activates e.kind e.scope) (s.fullWindow e))).dropEntry o).post (.partRetired o .targetRevived) := by
  rw [State.reviving, covered]
  rfl

/-- A drop leaves the slots of the other handles. -/
theorem dropEntry_slot_other {u : State} {o : Nat} {i : Fin 24} (other : i.val ≠ o / 8) :
    rd (u.dropEntry o).ilt.slots i = rd u.ilt.slots i := by
  cases resolved : u.resolve o with
  | none => rw [dropEntry_unresolved resolved]
  | some f => rw [dropEntry_slot resolved, if_neg other]

/-- A handle survives the retirement of another. -/
theorem dropEntry_resolve_other {u : State} {o handle : Nat} {f : Entry} (other : o ≠ handle) (resolved : u.resolve handle = some f) :
    (u.dropEntry o).resolve handle = some f := by
  cases there : u.resolve o with
  | none => rwa [dropEntry_unresolved there]
  | some g =>
    obtain ⟨i, place, generation, entry⟩ := slot_of_resolve resolved
    obtain ⟨j, place', generation', -⟩ := slot_of_resolve there
    have apart : i.val ≠ o / 8 := by
      intro same
      obtain rfl : i = j := Fin.ext (same.trans place'.symm)
      omega
    have slot := dropEntry_slot_other (u := u) apart
    exact State.resolve_of_slot place (by rw [slot]; exact generation) (by rw [slot]; exact entry)

theorem reviving_resolve (resolved : s.resolve e.handle = some e) (other : e.coveredBy ≠ some e.handle) :
    (s.reviving e).resolve e.handle = some (e.revived (s.activates e.kind e.scope) (s.fullWindow e)) := by
  have updated := updEntry_resolve resolved (Entry.revived (s.activates e.kind e.scope) (s.fullWindow e))
  cases covered : e.coveredBy with
  | none => rwa [reviving_uncovered covered]
  | some o =>
    rw [reviving_covered covered, resolve_congr (State.post_ilt _ _)]
    exact dropEntry_resolve_other (by rintro rfl; exact other covered) updated

theorem reviving_slot (resolved : s.resolve e.handle = some e) {i : Fin 24} (other : i.val ≠ e.handle / 8)
    (uncovering : ∀ o, e.coveredBy = some o → i.val ≠ o / 8) : rd (s.reviving e).ilt.slots i = rd s.ilt.slots i := by
  have updated := updEntry_slot resolved (Entry.revived (s.activates e.kind e.scope) (s.fullWindow e)) i
  rw [if_neg other] at updated
  cases covered : e.coveredBy with
  | none => rw [reviving_uncovered covered, updated]
  | some o => rw [reviving_covered covered, State.post_ilt, dropEntry_slot_other (uncovering o covered), updated]

theorem reviving_base (e : Entry) (s : State) : SameBase s (s.reviving e) := by
  have updated := updEntry_base e.handle (Entry.revived (s.activates e.kind e.scope) (s.fullWindow e)) s
  cases covered : e.coveredBy with
  | none => rwa [reviving_uncovered covered]
  | some o =>
    rw [reviving_covered covered]
    exact updated.trans (ev_post _ (ev_drop o .refl)).base

end

/-- Settles O19. -/
theorem refreshKeepsAlive : Obligations.RefreshKeepsAlive := by
  unfold Obligations.RefreshKeepsAlive
  refine ⟨fun x tag handle s e heard known run resolved owner => ⟨fun endless => ?_, fun deadline shown window => ?_⟩,
    fun x tag handle s heard known => ⟨fun out => ?_, fun e run resolved other => ?_⟩,
    fun x tag handle s e heard known run fits resolved owner deadline stopped window uncovered => ?_⟩
  · rw [exec_refresh_heard heard, requestRefresh_endless known run resolved owner endless]
  · rw [exec_refresh_heard heard, requestRefresh_follows known run resolved owner deadline shown, fullWindow_running window]
  · rw [exec_refresh_heard heard, requestRefresh_outside_run known out]
    rfl
  · rw [exec_refresh_heard heard, requestRefresh_other known run resolved other]
    rfl
  have named := handle_of_resolve fits resolved
  rw [← named] at resolved uncovered ⊢
  have handed : Reviewed (s.reviving e) (revive e s) := by
    rw [revive_eq]
    exact (reviewed_of_same (handOff_blocks .changed e _).ilt).trans (finish_reviewed _)
  obtain ⟨f, after, reviewed⟩ := handed.resolve (reviving_resolve resolved uncovered)
  have record := reviewed.record
  simp only [Entry.record, Prod.mk.injEq] at record
  obtain ⟨-, sameKind, sameOwner, sameAuthority, sameScope, sameParameter, sameDeadline⟩ := record
  have shown : (revive e s).entryState e.handle = some f.state := by rw [State.entryState, after]; rfl
  have lnk : (revive e s).lnk = (s.reviving e).lnk := by rw [revive_eq, finish_lnk, (handOff_blocks .changed e _).lnk]
  refine ⟨revive e s, f, ?_, after, reviewed.shown ?_, reviewed.coveredBy, sameDeadline.trans (fullWindow_running window), sameKind, sameOwner,
    sameAuthority, sameScope, sameParameter, fun o covered => ⟨?_, ?_⟩, fun i other uncovering => ?_, fun holds => ?_, fun rides => ?_,
    fun plain => ?_, ?_⟩
  · rw [exec_refresh_heard heard, ← named, requestRefresh_revives known run resolved owner deadline stopped, shown]
  · cases active : s.activates e.kind e.scope <;> simp [Entry.revived, shownState]
  · refine handed.resolve_none ?_
    rw [reviving_covered covered, resolve_congr (State.post_ilt _ _), dropEntry_resolve]
  · refine flagged_congr lnk ?_
    rw [reviving_covered covered]
    exact post_flagged_self _ _
  · rw [handed.slot_record, reviving_slot resolved other uncovering]
  · rw [revive_eq]
    exact finish_holdsFit (handOff_holdsFit .changed e (.inl (by simpa [Kind.holds] using holds)))
  · rw [revive_eq]
    exact finish_ridesFit (handOff_ridesFit .changed e (.inl (rides_iff.mpr (by simpa using rides))))
  · rw [lnk, reviving_uncovered plain, State.updEntry_lnk]
  · rw [revive_eq]
    exact (reviving_base e s).trans (ev_finish (ev_handOff .changed e .refl)).base

end Sys2Proof.Machine
end

