-- ==== Sys2Proof/Proofs/Opening.lean ====
section
/-! PROOF. The hand-offs of an opened entry to BRK, CRN and DSV. -/

namespace Sys2Proof.Machine

/-! ## The hand-off of an opened entry (R94, R120, R130) -/

section
variable {s : State} {e : Entry}

theorem brkCommand_brk (s : State) : (Brk.command s).brk = s.brk := by simp only [Brk.command, command_brk]

/-- R130: while a partner's door entry is live, the door-seen mark stands through BRK's judgement. -/
theorem brkJudge_doorSeen (seen : s.brk.doorSeen = true) (live : s.live.any Entry.partnerDoor = true) :
    (Brk.judge s).brk.doorSeen = true := by
  have raised : ∀ u : State, (Brk.raiseFloor u).brk.doorSeen = u.brk.doorSeen := fun u => by
    rw [Brk.raiseFloor, brkCommand_brk]
    rfl
  have applying : ∀ m, (Brk.enterApplying m s).brk.doorSeen = true := fun m => by
    rw [Brk.enterApplying, raised]
    exact live
  have ramping : ∀ u : State, (Brk.enterRamping u).brk.doorSeen = u.brk.doorSeen := fun u => by
    unfold Brk.enterRamping
    dsimp only
    split <;> rfl
  have leaves : ∀ u : State, (Brk.leaveWait u).brk.doorSeen = u.brk.doorSeen := fun u => by
    unfold Brk.leaveWait
    split
    · exact ramping u
    · rfl
  have reapplied : ∀ m, (Brk.reapply m s).brk.doorSeen = true := fun m => by
    unfold Brk.reapply
    dsimp only
    split
    · exact applying m
    · exact applying m
  have moved : ∀ m, (Brk.moveTarget m s).brk.doorSeen = true := fun m => by
    unfold Brk.moveTarget
    dsimp only
    split
    · exact seen
    · split
      · rw [raised]
        exact seen
      · exact seen
  unfold Brk.judge
  split
  case isFalse => exact seen
  case isTrue =>
    split
    · exact applying _
    · exact moved _
    · exact moved _
    · exact reapplied _
    · exact reapplied _
    · exact (leaves _).trans seen
    · exact (leaves _).trans seen
    · exact (leaves _).trans seen
    · exact seen
    · exact seen

theorem handOff_doorSeen (door : e.partnerDoor = true) (live : e ∈ s.live) : (handOff .opened e s).brk.doorSeen = true := by
  have holds : e.kind.holds = true := by
    simp only [Entry.partnerDoor, Kind.isDoor, Bool.and_eq_true, decide_eq_true_eq] at door
    rcases door.2 with kind | kind <;> simp [Kind.holds, kind]
  rw [handOff_brk_after, if_pos holds, if_pos rfl]
  have marked : Brk.markDoor e s = s.modBrk fun b => { b with doorSeen := true } := if_pos door
  rw [marked]
  exact brkJudge_doorSeen rfl (List.any_eq_true.mpr ⟨e, live, door⟩)

/-- A corner that gains RAMP or SERVICE at a hand-off of the table holds (R94, R95). -/
theorem crnFromTable_gains {c : Fin 6} {r : FreezeReason} (freezes : (r = .ramp ∧ s.anyLive .rampOut = true) ∨ (r = .service ∧ s.anyLive .serviceLock = true))
    (lacks : (rd s.crn.corners c).reasons.has r = false) (sound : (rd s.crn.corners c).state ≠ .fault) :
    (rd (Crn.fromTable s).crn.corners c).AtRest := by
  have follows := change_corner (fun _ c => (c.judge .ramp (s.anyLive .rampOut)).judge .service (s.anyLive .serviceLock)) s c
  refine follows.rests ?_
  have gained : ∀ (q : FreezeReason) (b : Corner), b.reasons.has q = false → b.state ≠ .fault → (b.judge q true).AtRest := by
    intro q b lacks sound
    have holding : (b.gain q).state = .holding := Corner.gain_holds lacks sound
    show (b.gain q).AtRest
    rw [Corner.AtRest, if_neg (FreezeSet.has_ne_empty (gain_has _ _)), holding]
  rcases freezes with ⟨rfl, live⟩ | ⟨rfl, live⟩
  · rw [live]
    exact (Corner.judge_follows .service _ _).rests (gained .ramp _ lacks sound)
  · rw [live]
    have first := (rd s.crn.corners c).judge_follows .ramp (s.anyLive .rampOut)
    refine gained .service _ ?_ (mt first.fault.mp sound)
    rw [first.reasons .service (by simp), lacks]

theorem handOff_gains {v : EntryEvent} {c : Fin 6} {r : FreezeReason} (live : e ∈ s.live)
    (kind : (r = .ramp ∧ e.kind = .rampOut) ∨ (r = .service ∧ e.kind = .serviceLock))
    (lacks : (rd s.crn.corners c).reasons.has r = false) (sound : (rd s.crn.corners c).state ≠ .fault) :
    (rd (handOff v e s).crn.corners c).AtRest := by
  have freezes : e.kind.freezes = true := by rcases kind with ⟨-, kind⟩ | ⟨-, kind⟩ <;> simp [Kind.freezes, kind]
  have still : e.kind ≠ .steerCentre := by rcases kind with ⟨-, kind⟩ | ⟨-, kind⟩ <;> simp [kind]
  unfold handOff
  dsimp only
  rw [if_neg still, if_pos freezes]
  let marked := if v = .opened then Brk.markDoor e s else s
  let judged := if e.kind.holds then Brk.judge marked else marked
  let ridden := if e.kind.rides then Rlu.fromTable judged else judged
  have blocks : Blocks s ridden := bl_ite (bl_rluFromTable (bl_ite (bl_brkJudge (bl_ite (bl_markDoor e (.refl s)) (.refl s)))
    (bl_ite (bl_markDoor e (.refl s)) (.refl s)))) (bl_ite (bl_brkJudge (bl_ite (bl_markDoor e (.refl s)) (.refl s)))
    (bl_ite (bl_markDoor e (.refl s)) (.refl s)))
  have crn : judged.crn = s.crn := by
    have first : marked.crn = s.crn := by
      unfold marked
      split
      · exact markDoor_crn e s
      · rfl
    unfold judged
    split
    · rw [brkJudge_crn, first]
    · exact first
  have follows : (rd s.crn.corners c).Follows (· = .stall) (rd ridden.crn.corners c) := by
    rw [← crn]
    exact (CornersFollow.ite (rluFromTable_follows judged) (.refl _ judged)).corners c
  have unstalled : r ≠ .stall := by rcases kind with ⟨rfl, -⟩ | ⟨rfl, -⟩ <;> simp
  refine crnFromTable_gains (s := ridden) (r := r) ?_ ((follows.reasons r unstalled).trans lacks) (mt follows.fault.mp sound)
  rcases kind with ⟨rfl, kind⟩ | ⟨rfl, kind⟩
  · exact .inl ⟨rfl, List.any_eq_true.mpr ⟨e, blocks.live ▸ live, decide_eq_true kind⟩⟩
  · exact .inr ⟨rfl, List.any_eq_true.mpr ⟨e, blocks.live ▸ live, decide_eq_true kind⟩⟩

end

/-! ## The hand-off to DSV (R68 to R70) -/

section
variable {s : State} {d : Fin 4}

/-- A door whose supervision is not UNCLAIMED is derived, and nothing else happens. -/
theorem supervise_derives (claimed : s.supervisionOf d ≠ .unclaimed) : Dsv.supervise d s =
    if s.inRun ∧ s.fitted d then Dsv.changeDoor d (fun x => { x with supervision := s.supervisionOf d }) s else s := by
  unfold Dsv.supervise
  split
  · exact if_neg fun h => claimed h.1
  · rfl

theorem supervisionOf_claimed (claims : s.partnerClaims d = true) : s.supervisionOf d = .authorised := if_pos claims

theorem partnerClaims_of_live {e : Entry} (live : e ∈ s.live) (door : e.partnerDoor = true) (scope : e.scope = .door d) :
    s.partnerClaims d = true := List.any_eq_true.mpr ⟨e, live, by simp [door, scope]⟩

end

end Sys2Proof.Machine
end

