-- ==== Sys2Proof/Proofs/Carried.lean ====
section
/-! PROOF. An admitted OPEN carried out. -/

namespace Sys2Proof.Machine

/-! ## An admitted OPEN (R23, R62, R68 to R70) -/

section
variable {s : State} {e : Entry}

/-- The opening of an entry whose door, if it names one, is not UNCLAIMED moves DSV's records alone. -/
theorem claim_quiet (live : e ∈ s.live) (partner : e.owner ≠ 15) (door : ∀ d, e.scope = .door d → e.kind.isDoor = true)
    (quiet : ∀ d, e.scope = .door d → (rd s.dsv.doors d).supervision ≠ .unclaimed) : ∃ v, Dsv.claim e s = { s with dsv := v } := by
  unfold Dsv.claim
  cases scope : e.scope with
  | door d =>
    have isDoor := door d scope
    have partnerDoor : e.partnerDoor = true := by simp [Entry.partnerDoor, Entry.isSelf, partner, isDoor]
    have claimed : s.supervisionOf d ≠ .unclaimed := by
      rw [supervisionOf_claimed (partnerClaims_of_live live partnerDoor scope)]
      simp
    have derived : Dsv.superviseFor e s = Dsv.supervise d s := by
      unfold Dsv.superviseFor
      rw [scope]
      exact if_pos isDoor
    simp only [Scope.door?]
    rw [if_neg fun h => quiet d scope h.2, derived, supervise_derives claimed]
    split <;> exact ⟨_, rfl⟩
  | curb => exact ⟨s.dsv, rfl⟩
  | full => exact ⟨s.dsv, rfl⟩
  | vehicle => exact ⟨s.dsv, rfl⟩
  | target t => exact ⟨s.dsv, rfl⟩

theorem coverTarget_none {sc : Scope} {by' : Nat} (plain : ∀ t, sc ≠ .target t) : coverTarget sc by' s = s := by
  cases sc with
  | target t => exact absurd rfl (plain t)
  | door d => rfl
  | curb => rfl
  | full => rfl
  | vehicle => rfl

theorem coverTarget_covers {t by' : Nat} {g : Entry} (resolved : s.resolve t = some g) : coverTarget (.target t) by' s =
    handOff .changed g (s.updEntry t fun x => { x with state := .covered, coveredBy := some by' }) := by
  simp only [coverTarget, resolved]

end

/-- The entry that an OPEN places. -/
def State.openedEntry (s : State) (p : Fin 16) (k : Kind) (sc : Scope) (given : Nat) (slot : Fin 24) : Entry :=
  s.newEntry k p (s.record p).authority sc (k.fitParameter given).1 (s.record p).window (s.handleOf slot)

/-- The table with the new entry in it, before any hand-off. -/
def State.placed (s : State) (p : Fin 16) (k : Kind) (sc : Scope) (given : Nat) (slot : Fin 24) : State :=
  s.placeEntry slot (s.newEntry k p (s.record p).authority sc (k.fitParameter given).1 (s.record p).window)

/-- The state of an OPEN before the end of the event. -/
def State.opened (s : State) (p : Fin 16) (k : Kind) (sc : Scope) (given : Nat) (slot : Fin 24) : State :=
  coverTarget sc (s.handleOf slot) (handOffOpened (s.openedEntry p k sc given slot) (s.placed p k sc given slot))

section
variable {s : State} {p : Fin 16} {k : Kind} {sc : Scope} {given : Nat} {slot : Fin 24}

theorem carryOpen_eq : carryOpen p k sc given slot s = (State.finish (s.opened p k sc given slot),
    .accepted (some (s.handleOf slot)) ((State.finish (s.opened p k sc given slot)).entryState (s.handleOf slot))
      (AnswerFlags.ofClamped (k.fitParameter given).2) 0 0 0) := rfl

theorem placed_live : s.openedEntry p k sc given slot ∈ (s.placed p k sc given slot).live := placeEntry_mem_live _ _ _

theorem placed_slot (i : Fin 24) : rd (s.placed p k sc given slot).ilt.slots i =
    if slot = i then { rd s.ilt.slots i with entry := some (s.openedEntry p k sc given slot) } else rd s.ilt.slots i :=
  placeEntry_slot _ _ _ i

/-- A handle that resolves still does when an entry is placed in a free slot. -/
theorem placed_resolve {h : Nat} {g : Entry} (free : (rd s.ilt.slots slot).entry = none) (resolved : s.resolve h = some g) :
    (s.placed p k sc given slot).resolve h = some g := by
  obtain ⟨i, place, generation, entry⟩ := slot_of_resolve resolved
  have apart : slot ≠ i := by
    rintro rfl
    rw [free] at entry
    exact absurd entry (by simp)
  have same := placed_slot (s := s) (p := p) (k := k) (sc := sc) (given := given) (slot := slot) i
  rw [if_neg apart] at same
  exact State.resolve_of_slot place (by rw [same]; exact generation) (by rw [same]; exact entry)

theorem placed_beside : (s.placed p k sc given slot).cfg = s.cfg ∧ (s.placed p k sc given slot).mot = s.mot
    ∧ (s.placed p k sc given slot).dsv = s.dsv ∧ (s.placed p k sc given slot).crn = s.crn ∧ (s.placed p k sc given slot).stc = s.stc
    ∧ (s.placed p k sc given slot).lnk = s.lnk ∧ (s.placed p k sc given slot).vda = s.vda :=
  ⟨rfl, rfl, rfl, rfl, rfl, rfl, rfl⟩

theorem scopeOf_isDoor {code h : Nat} {d : Fin 4} (named : s.scopeOf k code h = some (.door d)) : k = .doorOpen ∨ k = .rampOut := by
  unfold State.scopeOf at named
  cases k <;> simp at named ⊢ <;> split at named <;> simp_all

theorem scopeOf_isTarget {code h t : Nat} (named : s.scopeOf k code h = some (.target t)) : k = .override := by
  unfold State.scopeOf at named
  cases k <;> simp at named ⊢ <;> (repeat' split at named) <;> simp_all

theorem scopeOf_override {code h : Nat} (named : s.scopeOf .override code h = some sc) : sc = .target h := by
  unfold State.scopeOf at named
  dsimp only at named
  split at named
  · exact (Option.some.inj named).symm
  · exact absurd named (by simp)

end

/-- What an OPEN needs to be carried out in a slot without a claim: the facts that its checks establish. -/
structure Opening (s : State) (p : Fin 16) (k : Kind) (sc : Scope) (slot : Fin 24) : Prop where
  run : s.cfg.device = .run
  partner : p ≠ 15
  free : (rd s.ilt.slots slot).entry = none
  door : ∀ d, sc = .door d → k.isDoor = true
  target : (∃ t, sc = .target t) ↔ k = .override
  admitted : s.admission k sc = none

section
variable {s : State} {p : Fin 16} {k : Kind} {sc : Scope} {given : Nat} {slot : Fin 24}

/-- The state after the hand-off of the new entry to BRK, RLU, CRN and STC. -/
def State.handed (s : State) (p : Fin 16) (k : Kind) (sc : Scope) (given : Nat) (slot : Fin 24) : State :=
  handOff .opened (s.openedEntry p k sc given slot) (s.placed p k sc given slot)

theorem handed_blocks : Blocks (s.placed p k sc given slot) (s.handed p k sc given slot) := handOff_blocks _ _ _

theorem opened_plain (opening : Opening s p k sc slot) (plain : k ≠ .override)
    (quiet : ∀ d, sc = .door d → (rd s.dsv.doors d).supervision ≠ .unclaimed) :
    ∃ v, s.opened p k sc given slot = { s.handed p k sc given slot with dsv := v } := by
  have live : s.openedEntry p k sc given slot ∈ (s.handed p k sc given slot).live := by
    rw [handed_blocks.live]
    exact placed_live
  obtain ⟨v, claimed⟩ := claim_quiet live opening.partner opening.door fun d scope => by
    rw [handed_blocks.dsv]
    exact quiet d scope
  refine ⟨v, ?_⟩
  rw [State.opened, coverTarget_none fun t target => plain (opening.target.mp ⟨t, target⟩), handOffOpened]
  exact claimed

theorem override_handed {e : Entry} {u : State} (kind : e.kind = .override) : handOff .opened e u = u := by
  have marked : Brk.markDoor e u = u := if_neg (by simp [Entry.partnerDoor, Kind.isDoor, kind])
  simp [handOff, kind, Kind.holds, Kind.rides, Kind.freezes, marked]

/-- An OVERRIDE covers its target, which is a STALE door entry. -/
theorem opened_override {t : Nat} (opening : Opening s p .override (.target t) slot) : ∃ g, s.resolve t = some g ∧ g.kind.isDoor = true
    ∧ s.opened p .override (.target t) given slot = handOff .changed g ((s.placed p .override (.target t) given slot).updEntry t
      fun x => { x with state := .covered, coveredBy := some (s.handleOf slot) }) := by
  have admitted : s.targetCheck t = none := opening.admitted
  cases resolved : s.resolve t with
  | none => simp [State.targetCheck, resolved] at admitted
  | some g =>
    have isDoor : g.kind.isDoor = true := by
      by_contra other
      rw [targetCheck_resolved resolved, if_pos (by simpa using other)] at admitted
      exact absurd admitted (by simp)
    refine ⟨g, rfl, isDoor, ?_⟩
    have claimed : handOffOpened (s.openedEntry p .override (.target t) given slot) (s.placed p .override (.target t) given slot)
        = s.placed p .override (.target t) given slot := by
      rw [handOffOpened, override_handed rfl]
      rfl
    rw [State.opened, claimed, coverTarget_covers (placed_resolve opening.free resolved)]

end

end Sys2Proof.Machine
end

