-- ==== Sys2Proof/Proofs/Placed.lean ====
section
/-! PROOF. The table and the blocks after an OPEN. -/

namespace Sys2Proof.Machine

section
variable {s : State} {p : Fin 16} {k : Kind} {sc : Scope} {given : Nat} {slot : Fin 24}

theorem placeEntry_base (slot : Fin 24) (e : Nat → Entry) (s : State) : SameBase s (s.placeEntry slot e) := by
  constructor <;> intros <;> rfl

theorem ev_coverTarget {a u : State} (sc : Scope) (by' : Nat) (h : Evolves a u) : Evolves a (coverTarget sc by' u) := by
  unfold coverTarget
  split
  case h_1 =>
    split
    · exact ev_handOff _ _ (ev_updEntry _ _ (fun e => sameIdentity_of_fields e _ _ _ _) h)
    · exact h
  all_goals exact h

theorem opened_base : SameBase s (State.finish (s.opened p k sc given slot)) :=
  (placeEntry_base slot _ s).trans (ev_finish (ev_coverTarget sc _ (ev_handOffOpened _ .refl))).base

/-! ## The table of an OPEN before the end of the event -/

theorem opened_plain_ilt (opening : Opening s p k sc slot) (plain : k ≠ .override)
    (quiet : ∀ d, sc = .door d → (rd s.dsv.doors d).supervision ≠ .unclaimed) :
    (s.opened p k sc given slot).ilt = (s.placed p k sc given slot).ilt := by
  obtain ⟨v, same⟩ := opened_plain (given := given) opening plain quiet
  rw [same]
  exact handed_blocks.ilt

/-- The order, the new slot and the other slots. -/
structure PlacesEntry (s : State) (slot : Fin 24) (e : Entry) (t : State) : Prop where
  order : t.ilt.order = s.ilt.order ++ [slot]
  new : rd t.ilt.slots slot = { rd s.ilt.slots slot with entry := some e }
  other : ∀ i, i ≠ slot → (rd t.ilt.slots i).record = (rd s.ilt.slots i).record

theorem placed_placesEntry : PlacesEntry s slot (s.openedEntry p k sc given slot) (s.placed p k sc given slot) where
  order := rfl
  new := by rw [placed_slot, if_pos rfl]
  other i apart := by rw [placed_slot, if_neg apart.symm]

theorem opened_placesEntry (opening : Opening s p k sc slot)
    (quiet : ∀ d, sc = .door d → (rd s.dsv.doors d).supervision ≠ .unclaimed) :
    PlacesEntry s slot (s.openedEntry p k sc given slot) (s.opened p k sc given slot) := by
  have placed := placed_placesEntry (s := s) (p := p) (k := k) (sc := sc) (given := given) (slot := slot)
  by_cases override : k = .override
  · subst override
    obtain ⟨t, rfl⟩ := opening.target.mpr rfl
    obtain ⟨g, resolved, -, opened⟩ := opened_override (given := given) opening
    have there := placed_resolve (p := p) (k := .override) (sc := .target t) (given := given) opening.free resolved
    obtain ⟨i, place, -, entry⟩ := slot_of_resolve resolved
    have apart : slot.val ≠ t / 8 := by
      intro same
      obtain rfl : slot = i := Fin.ext (same.trans place.symm)
      rw [opening.free] at entry
      exact absurd entry (by simp)
    have ilt := (handOff_blocks .changed g ((s.placed p .override (.target t) given slot).updEntry t
      fun x => { x with state := .covered, coveredBy := some (s.handleOf slot) })).ilt
    rw [← opened] at ilt
    refine ⟨?_, ?_, fun j other => ?_⟩
    · rw [ilt, updEntry_order, placed.order]
    · rw [ilt, updEntry_slot there, if_neg apart, placed.new]
    · rw [ilt, updEntry_slot there]
      split
      case isFalse => exact placed.other j other
      case isTrue here =>
        obtain rfl : j = i := Fin.ext (here.trans place.symm)
        rw [← placed.other j other]
        have same : (rd (s.placed p .override (.target t) given slot).ilt.slots j).entry = some g := by
          rw [placed_slot, if_neg other.symm, entry]
        simp only [Slot.record, same, Option.map_some]
        rfl
  · have ilt := opened_plain_ilt (given := given) opening override quiet
    exact ⟨by rw [ilt, placed.order], by rw [ilt, placed.new], fun i other => by rw [ilt, placed.other i other]⟩

theorem PlacesEntry.live {e : Entry} {t : State} (h : PlacesEntry s slot e t) : e ∈ t.live := by
  refine List.mem_filterMap.mpr ⟨slot, ?_, by rw [h.new]⟩
  rw [h.order]
  exact List.mem_append_right _ (List.mem_singleton_self slot)

/-- An OPEN out of the hands of the event's end: the new entry shows its condition, and the table is as it was placed. -/
theorem PlacesEntry.ends {e : Entry} {u : State} (h : PlacesEntry s slot e u) (run : u.cfg.device = .run)
    (shown : e.state = .waiting ∨ e.state = .active) : ∃ f, PlacesEntry s slot f (State.finish u) ∧ f.record = e.record
      ∧ f.coveredBy = e.coveredBy ∧ (f.state = .waiting ∨ f.state = .active)
      ∧ (f.state = .active ↔ (State.finish u).ActiveWhen f) ∧ (State.finish u).Evaluated ∧ f ∈ (State.finish u).live := by
  have reviewed := finish_reviewed u
  obtain ⟨f, there, from'⟩ := reviewed.entry_some (i := slot) (by rw [h.new])
  have placed : PlacesEntry s slot f (State.finish u) := by
    refine ⟨reviewed.order.trans h.order, ?_, fun i other => (reviewed.slot_record i).trans (h.other i other)⟩
    have generation := reviewed.generation slot
    rw [h.new] at generation
    exact congrArg₂ Slot.mk generation there
  have evaluated := finish_evaluated u
  have run' : (State.finish u).cfg.device = .run := by rw [finish_cfg, run]
  have state := evaluated.shown run' f placed.live (from'.shown shown)
  refine ⟨f, placed, from'.record, from'.coveredBy, from'.shown shown, ?_, evaluated, placed.live⟩
  rw [← evaluated.underlying run' f placed.live, state]
  cases f.underlying <;> simp

theorem openedEntry_shown : (s.openedEntry p k sc given slot).state = .waiting ∨ (s.openedEntry p k sc given slot).state = .active := by
  have state : (s.openedEntry p k sc given slot).state = shownState (s.activates k sc) := rfl
  rw [state]
  cases s.activates k sc <;> simp [shownState]

theorem PlacesEntry.resolve {e : Entry} {t : State} (h : PlacesEntry s slot e t) : t.resolve (s.handleOf slot) = some e :=
  resolve_eq_some_iff.mpr ⟨slot, by rw [h.new]; rfl, by rw [h.new]⟩

/-! ## The blocks after an OPEN -/

theorem opened_holdsFit (opening : Opening s p k sc slot) (quiet : ∀ d, sc = .door d → (rd s.dsv.doors d).supervision ≠ .unclaimed)
    (kind : k.holds = true ∨ k = .override) : (s.opened p k sc given slot).HoldsFit := by
  by_cases override : k = .override
  · subst override
    obtain ⟨t, rfl⟩ := opening.target.mpr rfl
    obtain ⟨g, -, isDoor, opened⟩ := opened_override (given := given) opening
    rw [opened]
    refine handOff_holdsFit .changed g (.inl ?_)
    rcases isDoor_iff.mp isDoor with kind | kind <;> simp [Kind.holds, kind]
  · obtain ⟨v, same⟩ := opened_plain (given := given) opening override quiet
    rw [same]
    have fits : (s.handed p k sc given slot).HoldsFit := handOff_holdsFit .opened _ (.inl (kind.resolve_right override))
    exact holdsFit_of_live fits rfl rfl rfl rfl

theorem opened_ridesFit (opening : Opening s p k sc slot) (quiet : ∀ d, sc = .door d → (rd s.dsv.doors d).supervision ≠ .unclaimed)
    (kind : k.rides = true) : (s.opened p k sc given slot).RidesFit := by
  obtain ⟨v, same⟩ := opened_plain (given := given) opening (by rintro rfl; simp [Kind.rides] at kind) quiet
  rw [same]
  have fits : (s.handed p k sc given slot).RidesFit := handOff_ridesFit .opened _ (.inl kind)
  exact ridesFit_of_live fits rfl rfl rfl

theorem opened_freezesFit (opening : Opening s p k sc slot) (quiet : ∀ d, sc = .door d → (rd s.dsv.doors d).supervision ≠ .unclaimed)
    (kind : k.freezes = true) : (s.opened p k sc given slot).FreezesFit := by
  obtain ⟨v, same⟩ := opened_plain (given := given) opening (by rintro rfl; simp [Kind.freezes] at kind) quiet
  rw [same]
  have fits : (s.handed p k sc given slot).FreezesFit := handOff_freezesFit .opened _ (.inl kind)
  exact freezesFit_of_crn fits rfl rfl

end

end Sys2Proof.Machine
end

