-- ==== Sys2Proof/Proofs/OpenStatement.lean ====
section
/-! PROOF. What an OPEN leaves, and the statement OpenPlacesEntry. -/

namespace Sys2Proof.Machine

theorem partner_ne_self_of_hears {x : Sender} {s : State} (heard : s.hears x) : x.partner ≠ 15 := by
  cases x with
  | host => decide
  | can n => exact partner_ne_self (by simpa [Sender.wf] using heard.1)
  | line c => exact (by decide : (14 : Fin 16) ≠ 15)

theorem freeSlot_lowest {s : State} {lo hi : Nat} {slot : Fin 24} (inside : lo ≤ slot.val ∧ slot.val < hi)
    (free : (rd s.ilt.slots slot).entry = none) (taken : ∀ i : Fin 24, lo ≤ i.val → i < slot → (rd s.ilt.slots i).entry.isSome = true) :
    s.freeSlot lo hi = some slot := by
  obtain ⟨found, first⟩ := freeSlot_exists ⟨slot, inside, free⟩
  obtain ⟨low, -, empty⟩ := State.freeSlot_some first
  rw [first]
  congr 1
  refine le_antisymm (not_lt.mp fun later => ?_) (not_lt.mp fun earlier => ?_)
  · obtain ⟨-, before, after, split, rest⟩ := List.find?_eq_some_iff_append.mp first
    have listed : slot ∈ before := by
      have sorted := List.pairwise_lt_finRange 24
      have member := List.mem_finRange slot
      rw [split] at sorted member
      rcases List.mem_append.mp member with before | rest
      · exact before
      · rcases List.mem_cons.mp rest with rfl | after
        · exact absurd later (lt_irrefl _)
        · exact absurd ((List.pairwise_cons.mp (List.pairwise_append.mp sorted).2.1).1 slot after) (not_lt.mpr later.le)
    have refused := rest slot listed
    simp [inside, free] at refused
  · have occupied := taken found low earlier
    rw [empty] at occupied
    exact absurd occupied (by simp)

section
variable {s : State} {p : Fin 16} {k : Kind} {sc : Scope} {given : Nat} {slot : Fin 24}

/-- R130: after the opening of a partner's door entry the door-seen mark is set. -/
theorem opened_doorSeen (opening : Opening s p k sc slot) (quiet : ∀ d, sc = .door d → (rd s.dsv.doors d).supervision ≠ .unclaimed)
    (door : k.isDoor = true) : (State.finish (s.opened p k sc given slot)).brk.doorSeen = true := by
  have kind := isDoor_iff.mp door
  have plain : k ≠ .override := by rcases kind with rfl | rfl <;> simp
  have holds : k.holds = true := by rcases kind with rfl | rfl <;> rfl
  rw [(finish_brk (opened_holdsFit opening quiet (.inl holds))).2]
  obtain ⟨v, same⟩ := opened_plain (given := given) opening plain quiet
  rw [same]
  have partnerDoor : (s.openedEntry p k sc given slot).partnerDoor = true := by
    simp [Entry.partnerDoor, Entry.isSelf, State.openedEntry, State.newEntry, opening.partner, door]
  exact handOff_doorSeen partnerDoor placed_live

/-- R94, R95: how the corners stand after an OPEN. -/
theorem opened_follows (opening : Opening s p k sc slot) (plain : k ≠ .override)
    (quiet : ∀ d, sc = .door d → (rd s.dsv.doors d).supervision ≠ .unclaimed) (c : Fin 6) :
    (rd s.crn.corners c).Follows tableReason (rd (State.finish (s.opened p k sc given slot)).crn.corners c) := by
  obtain ⟨v, same⟩ := opened_plain (given := given) opening plain quiet
  have handed : CornersFollow tableReason (s.placed p k sc given slot) (s.handed p k sc given slot) := handOff_follows .opened _ _
  have follows := (finish_follows (s.opened p k sc given slot)).corners c
  rw [same] at follows ⊢
  exact (handed.corners c).trans follows

theorem opened_gains {r : FreezeReason} (opening : Opening s p k sc slot)
    (quiet : ∀ d, sc = .door d → (rd s.dsv.doors d).supervision ≠ .unclaimed)
    (kind : (r = .ramp ∧ k = .rampOut) ∨ (r = .service ∧ k = .serviceLock)) {c : Fin 6}
    (lacks : (rd s.crn.corners c).reasons.has r = false) (sound : (rd s.crn.corners c).state ≠ .fault) :
    (rd (State.finish (s.opened p k sc given slot)).crn.corners c).AtRest := by
  have plain : k ≠ .override := by rcases kind with ⟨-, rfl⟩ | ⟨-, rfl⟩ <;> simp
  obtain ⟨v, same⟩ := opened_plain (given := given) opening plain quiet
  have handed : (rd (s.handed p k sc given slot).crn.corners c).AtRest :=
    handOff_gains (r := r) placed_live kind lacks sound
  have follows := (finish_follows (s.opened p k sc given slot)).corners c
  rw [same] at follows ⊢
  exact follows.rests handed

/-- R150: a STEER_CENTRE takes FROZEN and TRACKING to CENTRING, and leaves every other state. -/
theorem opened_steerCentre (opening : Opening s p .steerCentre sc slot)
    (quiet : ∀ d, sc = .door d → (rd s.dsv.doors d).supervision ≠ .unclaimed) :
    (s.stc.state = .frozen ∨ s.stc.state = .tracking → (State.finish (s.opened p .steerCentre sc given slot)).stc.state = .centring
        ∧ (State.finish (s.opened p .steerCentre sc given slot)).stc.centringTimer = 0
        ∧ (State.finish (s.opened p .steerCentre sc given slot)).lockCommand = 1)
      ∧ (s.stc.state ≠ .frozen → s.stc.state ≠ .tracking →
        (State.finish (s.opened p .steerCentre sc given slot)).stc.state = s.stc.state) := by
  obtain ⟨v, same⟩ := opened_plain (given := given) opening (by simp) quiet
  have handed : s.handed p .steerCentre sc given slot = Stc.startCentring (s.placed p .steerCentre sc given slot) :=
    handOff_steerCentre rfl _
  have ends := (finish_steerEnds (s.opened p .steerCentre sc given slot)).stc
  have stc : (s.opened p .steerCentre sc given slot).stc = (s.handed p .steerCentre sc given slot).stc := by rw [same]
  have lock : (s.opened p .steerCentre sc given slot).lockCommand = (s.handed p .steerCentre sc given slot).lockCommand := by
    rw [same]
    rfl
  have centre : (s.placed p .steerCentre sc given slot).anyLive .steerCentre = true :=
    List.any_eq_true.mpr ⟨_, placed_live, decide_eq_true rfl⟩
  constructor
  · intro from'
    have entered := startCentring_enters (s := s.placed p .steerCentre sc given slot) from' centre
    have state : (s.opened p .steerCentre sc given slot).stc.state = .centring := by
      rw [stc, handed, entered]
      rfl
    obtain ⟨w, ⟨kept, locked⟩ | ⟨moving, -⟩⟩ := ends
    · rw [kept]
      refine ⟨state, ?_, ?_⟩
      · rw [stc, handed, entered]
        rfl
      · rw [locked, lock, handed, entered]
        exact commandLock_lockCommand _
    · rw [state] at moving
      exact absurd moving (by simp)
  · intro frozen tracking
    have stays : Stc.startCentring (s.placed p .steerCentre sc given slot) = s.placed p .steerCentre sc given slot :=
      if_neg fun h => h.1.elim frozen tracking
    have state : (s.opened p .steerCentre sc given slot).stc.state = s.stc.state := by
      rw [stc, handed, stays]
      rfl
    obtain ⟨w, ⟨kept, -⟩ | ⟨moving, -⟩⟩ := ends
    · rw [kept]
      exact state
    · rw [state] at moving
      exact absurd moving (by simp [frozen, tracking])

theorem opened_lnk (opening : Opening s p k sc slot) (quiet : ∀ d, sc = .door d → (rd s.dsv.doors d).supervision ≠ .unclaimed) :
    (State.finish (s.opened p k sc given slot)).lnk = s.lnk := by
  rw [finish_lnk]
  by_cases override : k = .override
  · subst override
    obtain ⟨t, rfl⟩ := opening.target.mpr rfl
    obtain ⟨g, -, -, opened⟩ := opened_override (given := given) opening
    rw [opened, (handOff_blocks .changed g _).lnk, State.updEntry_lnk]
    rfl
  · obtain ⟨v, same⟩ := opened_plain (given := given) opening override quiet
    rw [same]
    exact handed_blocks.lnk

/-- R62: the target is COVERED by the new OVERRIDE to the end of the event. -/
theorem opened_covers {t : Nat} (opening : Opening s p .override (.target t) slot) :
    ∃ g, (State.finish (s.opened p .override (.target t) given slot)).resolve t = some g ∧ g.state = .covered
      ∧ g.coveredBy = some (s.handleOf slot) := by
  obtain ⟨g, resolved, -, opened⟩ := opened_override (given := given) opening
  have covered := updEntry_resolve (placed_resolve (p := p) (k := .override) (sc := .target t) (given := given) opening.free resolved)
    fun x => { x with state := .covered, coveredBy := some (s.handleOf slot) }
  have reviewed : Reviewed ((s.placed p .override (.target t) given slot).updEntry t
      fun x => { x with state := .covered, coveredBy := some (s.handleOf slot) }) (State.finish (s.opened p .override (.target t) given slot)) := by
    rw [opened]
    exact (reviewed_of_same (handOff_blocks .changed g _).ilt).trans (finish_reviewed _)
  obtain ⟨f, there, from'⟩ := reviewed.resolve covered
  exact ⟨f, there, from'.stopped (.inr rfl), from'.coveredBy⟩

/-- The checks of an OPEN establish what its carrying out needs. -/
theorem opening_of_checks {x : Sender} {code h : Nat} (heard : s.hears x) (run : s.cfg.device = .run)
    (named : s.scopeOf k code h = some sc) (admitted : s.admission k sc = none) (free : (rd s.ilt.slots slot).entry = none) :
    Opening s x.partner k sc slot where
  run := run
  partner := partner_ne_self_of_hears heard
  free := free
  door d scope := isDoor_iff.mpr (scopeOf_isDoor (scope ▸ named))
  target := by
    constructor
    · rintro ⟨t, rfl⟩
      exact scopeOf_isTarget named
    · rintro rfl
      exact ⟨h, scopeOf_override named⟩
  admitted := admitted

end

theorem holds_iff (k : Kind) : k.holds = true ↔ k = .doorOpen ∨ k = .rampOut ∨ k = .stopHold ∨ k = .serviceLock := by simp [Kind.holds]

/-- Settles O16. -/
theorem openPlacesEntry : Obligations.OpenPlacesEntry := by
  unfold Obligations.OpenPlacesEntry
  intro x tag kind scope handle w s k sc slot heard known run named permitted authority isScope admitted alone clear low free taken quiet
  have opening := opening_of_checks heard run isScope admitted free
  have placed := opened_placesEntry (given := w.toNat) opening quiet
  have base : SameBase s (State.finish (s.opened x.partner k sc w.toNat slot)) := opened_base
  have run' : (s.opened x.partner k sc w.toNat slot).cfg.device = .run := by
    rw [← finish_cfg, base.cfg, run]
  obtain ⟨f, ends, record, covered, shown, active, evaluated, live⟩ := placed.ends run' openedEntry_shown
  have identity := record
  simp only [Entry.record, Prod.mk.injEq] at identity
  obtain ⟨sameHandle, sameKind, sameOwner, sameAuthority, sameScope, sameParameter, sameDeadline⟩ := identity
  have handleIs : f.handle = s.handleOf slot := sameHandle
  have holdsFit (kinds : k.holds = true ∨ k = .override) := finish_holdsFit (opened_holdsFit (given := w.toNat) opening quiet kinds)
  refine ⟨State.finish (s.opened x.partner k sc w.toNat slot), f, ?_, by rw [ends.new], handleIs, sameKind, sameOwner, sameAuthority, sameScope,
    sameParameter, sameDeadline, shown, active, covered, evaluated, ?_, ends.order, ends.other, fun kinds motion => ?_, fun kinds => ?_,
    fun door => opened_doorSeen opening quiet (isDoor_iff.mpr door), fun kinds =>
      finish_ridesFit (opened_ridesFit opening quiet (rides_iff.mpr kinds)), fun kinds => ?_, ?_, opened_lnk opening quiet, base⟩
  · rw [exec_openEntry_heard heard, requestOpen_checked ⟨known, named, run, permitted, authority⟩,
      openChecked_carried isScope admitted alone clear (freeSlot_lowest ⟨Nat.zero_le _, low⟩ free fun i _ => taken i), carryOpen_eq, handleIs]
    have state : (State.finish (s.opened x.partner k sc w.toNat slot)).entryState (s.handleOf slot) = some f.state := by
      rw [State.entryState, ends.resolve]
      rfl
    rw [state]
  · rintro t rfl
    obtain rfl := scopeOf_isTarget isScope
    rw [handleIs]
    exact opened_covers opening
  · have fits := holdsFit (.inl ((holds_iff k).mpr kinds))
    have settled : (State.finish (s.opened x.partner k sc w.toNat slot)).mot = s.mot := base.mot
    refine (fits.held (by rw [base.cfg, run]) ⟨f, live, ?_⟩).1
    rw [settled, Entry.HoldsIn, sameKind]
    exact ⟨kinds, by rcases shown with st | st <;> simp [st], motion.elim .inl fun m => .inr (.inl m)⟩
  · refine holdsFit ?_
    rw [holds_iff]
    simpa only [or_assoc] using kinds
  · have freezes : k.freezes = true := by rcases kinds with rfl | rfl <;> rfl
    have plain : k ≠ .override := by rcases kinds with rfl | rfl <;> simp
    have fits := finish_freezesFit (opened_freezesFit (given := w.toNat) opening quiet freezes)
    refine ⟨fits, fun c => ⟨fun gains sound => ?_, (opened_follows opening plain quiet c).followsReasons⟩⟩
    obtain ⟨r, kind, lacks⟩ : ∃ r, ((r = .ramp ∧ k = .rampOut) ∨ (r = .service ∧ k = .serviceLock))
        ∧ (rd s.crn.corners c).reasons.has r = false := by
      rcases gains with ⟨kind, lacks⟩ | ⟨kind, lacks⟩
      · exact ⟨.ramp, .inl ⟨rfl, kind⟩, lacks⟩
      · exact ⟨.service, .inr ⟨rfl, kind⟩, lacks⟩
    have rest := opened_gains (given := w.toNat) opening quiet kind lacks sound
    have held : (rd (State.finish (s.opened x.partner k sc w.toNat slot)).crn.corners c).reasons.has r = true := by
      rcases kind with ⟨rfl, rfl⟩ | ⟨rfl, rfl⟩
      · exact (fits c).1.mpr ⟨f, live, sameKind⟩
      · exact (fits c).2.mpr ⟨f, live, sameKind⟩
    rwa [Corner.AtRest, if_neg (FreezeSet.has_ne_empty held)] at rest
  · rintro rfl
    exact opened_steerCentre opening quiet

end Sys2Proof.Machine
end

