-- ==== Sys2Proof/Proofs/BlockFits.lean ====
section
/-! PROOF. What the entries that the part opens for itself leave of the blocks and of the table. -/

namespace Sys2Proof.Machine

/-! ## Entries that come and go in the table -/

theorem mem_live_iff {s : State} {e : Entry} : e ∈ s.live ↔ ∃ i ∈ s.ilt.order, (rd s.ilt.slots i).entry = some e := List.mem_filterMap

/-- The live entries of some kinds are the same. -/
def AgreesOn (Q : Kind → Bool) (s t : State) : Prop := ∀ e : Entry, Q e.kind = true → (e ∈ t.live ↔ e ∈ s.live)

theorem agreesOn_of_live {Q : Kind → Bool} {s t : State} (same : t.live = s.live) : AgreesOn Q s t := fun e _ => by rw [same]

/-- A change of one slot leaves the live entries of the kinds that it neither held nor holds. -/
theorem agreesOn_of_slot {Q : Kind → Bool} {s t : State} (i : Fin 24)
    (order : ∀ j, j ≠ i → (j ∈ t.ilt.order ↔ j ∈ s.ilt.order))
    (slots : ∀ j, j ≠ i → (rd t.ilt.slots j).entry = (rd s.ilt.slots j).entry)
    (old : ∀ e, (rd s.ilt.slots i).entry = some e → Q e.kind = false)
    (new : ∀ e, (rd t.ilt.slots i).entry = some e → Q e.kind = false) : AgreesOn Q s t := by
  intro e reads
  rw [mem_live_iff, mem_live_iff]
  constructor
  · rintro ⟨j, listed, entry⟩
    have apart : j ≠ i := by
      rintro rfl
      rw [new e entry] at reads
      exact absurd reads (by simp)
    exact ⟨j, (order j apart).mp listed, by rw [← slots j apart]; exact entry⟩
  · rintro ⟨j, listed, entry⟩
    have apart : j ≠ i := by
      rintro rfl
      rw [old e entry] at reads
      exact absurd reads (by simp)
    exact ⟨j, (order j apart).mpr listed, by rw [slots j apart]; exact entry⟩

section
variable {Q : Kind → Bool} {s : State}

theorem placeEntry_agrees {slot : Fin 24} {f : Nat → Entry} (free : (rd s.ilt.slots slot).entry = none)
    (other : Q (f (s.handleOf slot)).kind = false) : AgreesOn Q s (s.placeEntry slot f) := by
  refine agreesOn_of_slot slot (fun j apart => ?_) (fun j apart => ?_) (fun e there => ?_) fun e there => ?_
  · rw [State.placeEntry, State.modIlt_ilt, List.mem_append, List.mem_singleton]
    exact or_iff_left apart
  · rw [placeEntry_slot, if_neg apart.symm]
  · rw [free] at there
    exact absurd there (by simp)
  · rw [placeEntry_slot, if_pos rfl] at there
    rw [← Option.some.inj there]
    exact other

theorem dropEntry_agrees {handle : Nat} (other : ∀ e, s.resolve handle = some e → Q e.kind = false) :
    AgreesOn Q s (s.dropEntry handle) := by
  cases resolved : s.resolve handle with
  | none =>
    rw [dropEntry_unresolved resolved]
    exact agreesOn_of_live rfl
  | some e =>
    obtain ⟨i, place, -, entry⟩ := slot_of_resolve resolved
    refine agreesOn_of_slot i (fun j apart => ?_) (fun j apart => ?_) (fun f there => ?_) fun f there => ?_
    · rw [dropEntry_order resolved place, List.mem_erase_of_ne apart]
    · rw [dropEntry_slot resolved, if_neg fun h => apart (Fin.ext (h.trans place.symm))]
    · rw [entry] at there
      rw [← Option.some.inj there]
      exact other e resolved
    · rw [dropEntry_slot resolved, if_pos place] at there
      exact absurd there (by simp)

theorem updEntry_agrees {handle : Nat} {e : Entry} {f : Entry → Entry} (resolved : s.resolve handle = some e) (kind : (f e).kind = e.kind)
    (other : Q e.kind = false) : AgreesOn Q s (s.updEntry handle f) := by
  obtain ⟨i, place, -, entry⟩ := slot_of_resolve resolved
  refine agreesOn_of_slot i (fun j _ => by rw [updEntry_order]) (fun j apart => ?_) (fun g there => ?_) fun g there => ?_
  · rw [updEntry_slot resolved, if_neg fun h => apart (Fin.ext (h.trans place.symm))]
  · rw [entry] at there
    rw [← Option.some.inj there]
    exact other
  · rw [updEntry_slot resolved, if_pos place] at there
    rw [← Option.some.inj there, kind]
    exact other

end

/-! ## A handle that the blocks forget (R39, R61) -/

/-- A handle held, once another is forgotten. -/
def keptHandle (n : Nat) (h : Option Nat) : Option Nat := if h = some n then none else h

theorem keptHandle_ne (n : Nat) (h : Option Nat) : keptHandle n h ≠ some n := by
  unfold keptHandle
  split
  · simp
  · assumption

theorem forgetHandle_handles (n : Nat) (s : State) :
    (forgetHandle n s).brk = { s.brk with selfHandle := keptHandle n s.brk.selfHandle }
    ∧ (forgetHandle n s).stc = { s.stc with selfHandle := keptHandle n s.stc.selfHandle }
    ∧ ∀ d, rd (forgetHandle n s).dsv.doors d = { rd s.dsv.doors d with selfHandle := keptHandle n (rd s.dsv.doors d).selfHandle } := by
  refine ⟨?_, ?_, fun d => ?_⟩
  · show (if s.brk.selfHandle = some n then { s.brk with selfHandle := none } else s.brk) = _
    unfold keptHandle
    split <;> rfl
  · show (if s.stc.selfHandle = some n then { s.stc with selfHandle := none } else s.stc) = _
    unfold keptHandle
    split <;> rfl
  · show rd (mapF s.dsv.doors fun _ d => if d.selfHandle = some n then { d with selfHandle := none } else d) d = _
    rw [rd_mapF]
    unfold keptHandle
    split <;> rfl

theorem forgetHandle_beside (n : Nat) (s : State) : (forgetHandle n s).ilt = s.ilt ∧ (forgetHandle n s).lnk = s.lnk
    ∧ (forgetHandle n s).crn = s.crn ∧ (forgetHandle n s).rlu = s.rlu ∧ (forgetHandle n s).cfg = s.cfg ∧ (forgetHandle n s).mot = s.mot
    ∧ (forgetHandle n s).vda = s.vda := by
  simp only [forgetHandle, State.modStc_ilt, State.modBrk_ilt, State.modDsv_ilt, State.modStc_lnk, State.modBrk_lnk, State.modDsv_lnk,
    State.modStc_crn, State.modBrk_crn, State.modDsv_crn, State.modStc_rlu, State.modBrk_rlu, State.modDsv_rlu, State.modStc_cfg,
    State.modBrk_cfg, State.modDsv_cfg, State.modStc_mot, State.modBrk_mot, State.modDsv_mot, State.modStc_vda, State.modBrk_vda,
    State.modDsv_vda, and_self]

/-! ## A block that stands as the table gives it -/

/-- A property of the blocks that entries of some kinds decide: a hand-off of such a kind establishes it, and what reads no such entry
keeps it. -/
structure BlockFit (F : State → Prop) (Q : Kind → Bool) : Prop where
  handed : ∀ v e s, Q e.kind = true ∨ F s → F (handOff v e s)
  moved : ∀ s t : State, F s → AgreesOn Q s t → t.cfg = s.cfg → t.mot = s.mot → t.brk.hold = s.brk.hold →
    t.brk.target = s.brk.target → t.rlu = s.rlu → t.crn = s.crn → F t
  ended : ∀ s, F s → F (State.finish s)

theorem holdsFit_blockFit : BlockFit State.HoldsFit Kind.holds where
  handed v e s h := handOff_holdsFit v e h
  moved s t fits agrees cfg mot hold target _ _ := by
    refine holdsFit_congr fits cfg (by rw [mot]) (by rw [mot]) (fun P => ?_) hold target
    have reads : ∀ e : Entry, e.HoldsIn s.mot.motion → e.kind.holds = true := fun e k => (holds_iff _).mpr k.1
    exact ⟨fun ⟨e, there, k, p⟩ => ⟨e, (agrees e (reads e k)).mp there, k, p⟩,
      fun ⟨e, there, k, p⟩ => ⟨e, (agrees e (reads e k)).mpr there, k, p⟩⟩
  ended s := finish_holdsFit

theorem ridesFit_blockFit : BlockFit State.RidesFit Kind.rides where
  handed v e s h := handOff_ridesFit v e h
  moved s t fits agrees cfg _ _ _ rlu _ :=
    ridesFit_congr fits ⟨fun e there rides => ⟨e, (agrees e rides).mpr there, rfl⟩, fun e there rides => ⟨e, (agrees e rides).mp there, rfl⟩⟩
      (by rw [cfg]) (by rw [rlu]) (by rw [rlu]) (by rw [rlu])
  ended s := finish_ridesFit

theorem freezesFit_blockFit : BlockFit State.FreezesFit Kind.freezes where
  handed v e s h := handOff_freezesFit v e h
  moved s t fits agrees _ _ _ _ _ crn := by
    have live : ∀ k : Kind, k.freezes = true → t.anyLive k = s.anyLive k := by
      intro k freezes
      rw [Bool.eq_iff_iff, State.anyLive, State.anyLive, List.any_eq_true, List.any_eq_true]
      simp only [decide_eq_true_eq]
      exact ⟨fun ⟨e, there, kind⟩ => ⟨e, (agrees e (kind ▸ freezes)).mp there, kind⟩,
        fun ⟨e, there, kind⟩ => ⟨e, (agrees e (kind ▸ freezes)).mpr there, kind⟩⟩
    exact freezesFit_congr fits (live _ rfl) (live _ rfl) (cornersFollow_of_same (may := fun _ => False) crn) ⟨id, id⟩
  ended s := finish_freezesFit

/-- A property that the entries which the part opens for itself keep, and what the blocks do with their handles. -/
structure OpenClosed (P : State → Prop) : Prop where
  stc : ∀ f s, P s → P (s.modStc f)
  dsv : ∀ f s, P s → P (s.modDsv f)
  post : ∀ n s, P s → P (State.post n s)
  command : ∀ ch v s, P s → P (State.command ch v s)
  forget : ∀ n s, P s → P (forgetHandle n s)
  opens : ∀ (s : State) (slot : Fin 24) (k : Kind) (sc : Scope) (p : Option Nat), 18 ≤ slot.val → (rd s.ilt.slots slot).entry = none → P s →
    P (handOff .opened (s.newEntry k 15 0 sc p 0 (s.handleOf slot)) (s.placeEntry slot (s.newEntry k 15 0 sc p 0)))

section
variable {P : State → Prop} {s : State}

theorem oc_ite {p : Prop} [Decidable p] {t u : State} (h : P t) (k : P u) : P (if p then t else u) := by
  split
  · exact h
  · exact k

theorem oc_openSelf (b : OpenClosed P) (k : Kind) (sc : Scope) (p : Option Nat) (h : P s) : P (openSelf k sc p s).1 := by
  unfold openSelf
  split
  case isFalse => exact h
  case isTrue =>
    split
    · exact h
    · split
      · exact h
      · rename_i found
        obtain ⟨high, -, free⟩ := State.freeSlot_some found
        exact b.opens s _ k sc p high free h

theorem oc_stcAskEntry (b : OpenClosed P) (h : P s) : P (Stc.askEntry s) := oc_ite (b.stc _ _ (oc_openSelf b _ _ _ h)) h
theorem oc_setLatch (b : OpenClosed P) (c : LatchCause) (h : P s) : P (Stc.setLatch c s) :=
  oc_ite h (b.post _ _ (oc_stcAskEntry b (b.stc _ _ h)))
theorem oc_judgeLock (b : OpenClosed P) (h : P s) : P (Stc.judgeLock s) := oc_ite (oc_setLatch b _ h) h
theorem oc_startCentring (b : OpenClosed P) (h : P s) : P (Stc.startCentring s) := oc_ite (b.command _ _ _ (b.stc _ _ h)) h
theorem oc_enterMoving (b : OpenClosed P) (h : P s) : P (Stc.enterMoving s) :=
  oc_startCentring b (oc_judgeLock b (b.command _ _ _ (b.stc _ _ h)))
theorem oc_leaveLocked (b : OpenClosed P) (h : P s) : P (Stc.leaveLocked s) := oc_ite (oc_enterMoving b (b.stc _ _ h)) h
theorem oc_dsvAskEntry (b : OpenClosed P) (d : Fin 4) (h : P s) : P (Dsv.askEntry d s) :=
  oc_ite (b.dsv _ _ (oc_openSelf b _ _ _ h)) h
theorem oc_supervise (b : OpenClosed P) (d : Fin 4) (h : P s) : P (Dsv.supervise d s) :=
  oc_ite (oc_ite (b.post _ _ (oc_dsvAskEntry b d (b.dsv _ _ h))) (b.dsv _ _ h)) h

theorem oc_superviseFor (b : OpenClosed P) (e : Entry) (h : P s) : P (Dsv.superviseFor e s) := by
  unfold Dsv.superviseFor
  split
  · exact oc_ite (oc_supervise b _ h) h
  · exact h

/-- The end of a retirement's hand-off, after BRK, RLU and CRN have it. -/
theorem oc_handOffRetired (b : OpenClosed P) (e : Entry) (h : P (handOff .retired e s)) : P (handOffRetired e s) := by
  have forgotten := b.forget e.handle _ h
  exact oc_superviseFor b e (oc_ite (oc_leaveLocked b forgotten) forgotten)

end

theorem BlockFit.openClosed {F : State → Prop} {Q : Kind → Bool} (b : BlockFit F Q) : OpenClosed F := by
  have same : ∀ s t : State, F s → t.live = s.live → t.cfg = s.cfg → t.mot = s.mot →
      t.brk.hold = s.brk.hold ∧ t.brk.target = s.brk.target → t.rlu = s.rlu → t.crn = s.crn → F t :=
    fun s t h live cfg mot brk rlu crn => b.moved s t h (agreesOn_of_live live) cfg mot brk.1 brk.2 rlu crn
  constructor
  · exact fun f s h => same s _ h rfl rfl rfl ⟨rfl, rfl⟩ rfl rfl
  · exact fun f s h => same s _ h rfl rfl rfl ⟨rfl, rfl⟩ rfl rfl
  · exact fun n s h => same s _ h (State.live_congr (State.post_ilt n s)) (State.post_cfg n s) (State.post_mot n s)
      ⟨by rw [State.post_brk], by rw [State.post_brk]⟩ (State.post_rlu n s) (State.post_crn n s)
  · exact fun ch v s h => same s _ h (State.live_congr (command_ilt ch v s)) (command_cfg ch v s) (command_mot ch v s)
      ⟨by rw [command_brk], by rw [command_brk]⟩ (command_rlu ch v s) (command_crn ch v s)
  · intro n s h
    have brk := (forgetHandle_handles n s).1
    obtain ⟨ilt, -, crn, rlu, cfg, mot, -⟩ := forgetHandle_beside n s
    exact same s _ h (State.live_congr ilt) cfg mot (by rw [brk]; exact ⟨rfl, rfl⟩) rlu crn
  · intro s slot k sc p _ free h
    refine b.handed _ _ _ ?_
    cases reads : Q (s.newEntry k 15 0 sc p 0 (s.handleOf slot)).kind with
    | true => exact .inl rfl
    | false => exact .inr (b.moved s _ h (placeEntry_agrees free reads) rfl rfl rfl rfl rfl rfl)

/-! ## What the table gains after a retirement -/

/-- From the first state to the second every entry stays, but for its activation, and each new one is the part's own in a slot of its. -/
structure Gains (s t : State) : Prop where
  generation : ∀ i, (rd t.ilt.slots i).generation = (rd s.ilt.slots i).generation
  kept : ∀ i e, (rd s.ilt.slots i).entry = some e → ∃ f, (rd t.ilt.slots i).entry = some f ∧ e.Reviewed f
  new : ∀ i f, (rd t.ilt.slots i).entry = some f → (rd s.ilt.slots i).entry = none →
    f.owner = 15 ∧ 18 ≤ i.val ∧ f.handle = i.val * 8 + (rd s.ilt.slots i).generation.val
  stays : ∀ i ∈ s.ilt.order, i ∈ t.ilt.order
  added : ∀ i ∈ t.ilt.order, i ∈ s.ilt.order ∨ 18 ≤ i.val

theorem gains_of_reviewed {s t : State} (h : Reviewed s t) : Gains s t where
  generation := h.generation
  kept _ _ there := h.entry_some there
  new i f there empty := by
    rw [h.entry_none.mpr empty] at there
    exact absurd there (by simp)
  stays i there := by rwa [h.order]
  added i there := .inl (by rwa [h.order] at there)

theorem Gains.refl (s : State) : Gains s s := gains_of_reviewed (reviewed_of_same rfl)

theorem Gains.trans {s t u : State} (h : Gains s t) (k : Gains t u) : Gains s u where
  generation i := (k.generation i).trans (h.generation i)
  kept i e there := by
    obtain ⟨f, there', one⟩ := h.kept i e there
    obtain ⟨g, there'', two⟩ := k.kept i f there'
    exact ⟨g, there'', one.trans two⟩
  new i f there empty := by
    cases middle : (rd t.ilt.slots i).entry with
    | none =>
      obtain ⟨owner, high, handle⟩ := k.new i f there middle
      exact ⟨owner, high, by rw [handle, h.generation]⟩
    | some g =>
      obtain ⟨owner, high, handle⟩ := h.new i g middle empty
      obtain ⟨f', there', reviewed⟩ := k.kept i g middle
      obtain rfl : f' = f := Option.some.inj (there'.symm.trans there)
      have record := reviewed.record
      simp only [Entry.record, Prod.mk.injEq] at record
      exact ⟨record.2.2.1.trans owner, high, record.1.trans handle⟩
  stays i there := k.stays i (h.stays i there)
  added i there := (k.added i there).elim (h.added i) .inr

theorem gains_of_ilt {s t : State} (same : t.ilt = s.ilt) : Gains s t := gains_of_reviewed (reviewed_of_same same)

theorem gains_openClosed (a : State) : OpenClosed (Gains a) where
  stc f s h := h.trans (gains_of_ilt rfl)
  dsv f s h := h.trans (gains_of_ilt rfl)
  post n s h := h.trans (gains_of_ilt (State.post_ilt n s))
  command ch v s h := h.trans (gains_of_ilt (command_ilt ch v s))
  forget n s h := h.trans (gains_of_ilt (forgetHandle_beside n s).1)
  opens s slot k sc p high free h := by
    refine h.trans (Gains.trans (t := s.placeEntry slot (s.newEntry k 15 0 sc p 0)) ?_ (gains_of_ilt (handOff_blocks .opened _ _).ilt))
    refine ⟨fun i => ?_, fun i e there => ⟨e, ?_, .inl rfl⟩, fun i f there empty => ?_, fun i there => ?_, fun i there => ?_⟩
    · rw [placeEntry_slot]
      split <;> rfl
    · rw [placeEntry_slot, if_neg, there]
      rintro rfl
      rw [free] at there
      exact absurd there (by simp)
    · rw [placeEntry_slot] at there
      split at there
      case isTrue here =>
        subst here
        rw [← Option.some.inj there]
        exact ⟨rfl, high, rfl⟩
      case isFalse =>
        rw [empty] at there
        exact absurd there (by simp)
    · exact List.mem_append_left _ there
    · refine (List.mem_append.mp there).imp_right fun last => ?_
      rw [List.mem_singleton.mp last]
      exact high

section
variable {s t : State} {handle : Nat} {e : Entry}

theorem Gains.resolve (h : Gains s t) (resolved : s.resolve handle = some e) : ∃ f, t.resolve handle = some f ∧ e.Reviewed f := by
  obtain ⟨i, place, generation, entry⟩ := slot_of_resolve resolved
  obtain ⟨f, there, reviewed⟩ := h.kept i e entry
  exact ⟨f, State.resolve_of_slot place (by rw [h.generation]; exact generation) there, reviewed⟩

/-- A retired handle does not come to life again: its slot's generation has gone on. -/
theorem Gains.retired (resolved : s.resolve handle = some e) (h : Gains (s.dropEntry handle) t) : t.resolve handle = none := by
  obtain ⟨i, place, generation, -⟩ := slot_of_resolve resolved
  refine resolve_none_of_slot place (.inr ?_)
  rw [h.generation, dropEntry_slot resolved, if_pos place, generation]
  intro same
  have cycle : ∀ g : Fin 8, g.val ≠ (g + 1).val := by decide
  exact cycle _ same

end

end Sys2Proof.Machine
end

