-- ==== Sys2Proof/Proofs/Claims.lean ====
section
/-! PROOF. A partner's claim on an UNCLAIMED door. -/

namespace Sys2Proof.Machine

/-! ## A claim on an UNCLAIMED door (R70) -/

theorem reevaluate_dsv (s : State) : (reevaluate s).dsv = s.dsv := by
  have once : ∀ u : State, (evaluateOnce u).dsv = u.dsv := fun u => by
    unfold evaluateOnce
    split
    · rfl
    · exact (evaluate_blocks u).dsv.trans (State.modIlt_dsv _ _)
  unfold reevaluate
  split
  · rw [once, once, once]
  · rfl

/-- The end of an event leaves what DSV derives of a door and the handle it holds. -/
theorem finish_door (s : State) (d : Fin 4) : (rd (State.finish s).dsv.doors d).supervision = (rd s.dsv.doors d).supervision
    ∧ (rd (State.finish s).dsv.doors d).selfHandle = (rd s.dsv.doors d).selfHandle := by
  rw [State.finish, Dsv.judge, State.modDsv_dsv]
  simp only [rd_mapF]
  rw [reevaluate_dsv]
  exact ⟨rfl, rfl⟩

/-- A door's supervision set. -/
def State.withSupervision (d : Fin 4) (v : Supervision) (s : State) : State := Dsv.changeDoor d (fun x => { x with supervision := v }) s

theorem withSupervision_door (d : Fin 4) (v : Supervision) (s : State) :
    rd (s.withSupervision d v).dsv.doors d = { rd s.dsv.doors d with supervision := v } := by
  rw [State.withSupervision, Dsv.changeDoor, State.modDsv_dsv, rd_upd_same]

section
variable {s : State} {d : Fin 4}

theorem supervise_authorises {e : Entry} (run : s.inRun = true) (fitted : s.fitted d = true) (live : e ∈ s.live)
    (door : e.partnerDoor = true) (scope : e.scope = .door d) : Dsv.supervise d s = s.withSupervision d .authorised := by
  have claimed := supervisionOf_claimed (partnerClaims_of_live live door scope)
  rw [supervise_derives (by rw [claimed]; simp), if_pos ⟨run, fitted⟩, claimed]
  rfl

/-- The part's own entry retired for a partner's claim: the state before the end of the event. -/
def State.claimRetires (d : Fin 4) (f : Entry) (s : State) : State :=
  (forgetHandle f.handle (handOff .retired f (((s.withSupervision d .authorised).dropEntry f.handle).post
    (.partRetired f.handle .causeCleared)))).withSupervision d .authorised

theorem claim_retires {e f : Entry} {h : Nat} (run : s.inRun = true) (fitted : s.fitted d = true) (live : e ∈ s.live)
    (door : e.partnerDoor = true) (scope : e.scope = .door d) (unclaimed : (rd s.dsv.doors d).supervision = .unclaimed)
    (held : (rd s.dsv.doors d).selfHandle = some h) (resolved : s.resolve h = some f) (self : f.owner = 15) (kind : f.kind = .doorOpen)
    (scope' : f.scope = .door d) (uncovered : f.coveredBy = none)
    (stays : e ∈ ((s.withSupervision d .authorised).dropEntry f.handle).live) : Dsv.claim e s = s.claimRetires d f := by
  let dropped := ((s.withSupervision d .authorised).dropEntry f.handle).post (.partRetired f.handle .causeCleared)
  let forgotten := forgetHandle f.handle (handOff .retired f dropped)
  have blocks := handOff_blocks .retired f dropped
  have supervised := supervise_authorises run fitted live door scope
  have cfg : forgotten.cfg = s.cfg := by
    show (handOff .retired f dropped).cfg = s.cfg
    rw [blocks.cfg, State.post_cfg, State.dropEntry_cfg]
    rfl
  have live' : e ∈ forgotten.live := by
    have same : forgotten.live = ((s.withSupervision d .authorised).dropEntry f.handle).live :=
      State.live_congr (blocks.ilt.trans (State.post_ilt _ _))
    rwa [same]
  have again : Dsv.supervise d forgotten = forgotten.withSupervision d .authorised :=
    supervise_authorises (by rw [State.inRun, cfg]; exact run) (by rw [State.fitted, cfg]; exact fitted) live' door scope
  have retired : retireEntry (some .causeCleared) f (s.withSupervision d .authorised) = s.claimRetires d f := by
    have handed : handOffRetired f dropped = s.claimRetires d f := by
      rw [handOffRetired, if_neg (by simp [kind]), Dsv.superviseFor, scope']
      show (if f.kind.isDoor = true then Dsv.supervise d forgotten else forgotten) = _
      rw [if_pos (by simp [kind, Kind.isDoor]), again]
      rfl
    simp only [retireEntry, uncovered, scope']
    exact handed
  have running : (s.withSupervision d .authorised).inRun = true := run
  have there : (s.withSupervision d .authorised).resolve h = some f := (resolve_congr (s := s) rfl h).trans resolved
  have selfRetired : retireSelf h (s.withSupervision d .authorised) = s.claimRetires d f := by
    rw [retireSelf, if_pos running, there]
    dsimp only
    rw [if_pos (by simp [Entry.isSelf, self]), retired]
  rw [Dsv.claim, scope]
  dsimp only [Scope.door?]
  rw [if_pos ⟨door, unclaimed⟩, supervised, held]
  exact selfRetired

end

/-! ## The end of an event for one entry -/

/-- A WAITING or ACTIVE entry shows its condition at the end of an event in RUN. -/
theorem entry_ends {u : State} {i : Fin 24} {e : Entry} (run : u.cfg.device = .run) (there : (rd u.ilt.slots i).entry = some e)
    (listed : i ∈ u.ilt.order) (shown : e.state = .waiting ∨ e.state = .active) : ∃ f, (rd (State.finish u).ilt.slots i).entry = some f
      ∧ f.record = e.record ∧ (f.state = .waiting ∨ f.state = .active) ∧ (f.state = .active ↔ (State.finish u).ActiveWhen f)
      ∧ f ∈ (State.finish u).live := by
  have reviewed := finish_reviewed u
  obtain ⟨f, there', from'⟩ := reviewed.entry_some there
  have live : f ∈ (State.finish u).live := mem_live_iff.mpr ⟨i, by rwa [reviewed.order], there'⟩
  have evaluated := finish_evaluated u
  have run' : (State.finish u).cfg.device = .run := by rw [finish_cfg, run]
  refine ⟨f, there', from'.record, from'.shown shown, ?_, live⟩
  rw [← evaluated.underlying run' f live, evaluated.shown run' f live (from'.shown shown)]
  cases f.underlying <;> simp

end Sys2Proof.Machine
end

