-- ==== Sys2Proof/Proofs/ClaimStatement.lean ====
section
/-! PROOF. The statement OpenClaimsDoor. -/

namespace Sys2Proof.Machine

theorem dropEntry_keeps_live {s : State} {handle : Nat} {j : Fin 24} {e : Entry} (apart : j.val ≠ handle / 8) (listed : j ∈ s.ilt.order)
    (there : (rd s.ilt.slots j).entry = some e) : j ∈ (s.dropEntry handle).ilt.order ∧ e ∈ (s.dropEntry handle).live := by
  have order : j ∈ (s.dropEntry handle).ilt.order := by
    cases resolved : s.resolve handle with
    | none => rwa [dropEntry_unresolved resolved]
    | some f =>
      obtain ⟨i, place, -⟩ := slot_of_resolve resolved
      rw [dropEntry_order resolved place]
      exact (List.mem_erase_of_ne fun same => apart (by rw [same, place])).mpr listed
  exact ⟨order, mem_live_iff.mpr ⟨j, order, by rw [dropEntry_slot_other apart]; exact there⟩⟩

section
variable {s : State} {d : Fin 4} {f : Entry}

/-- The table before the part's own entry retires for a claim. -/
def State.claimDrops (d : Fin 4) (f : Entry) (s : State) : State :=
  ((s.withSupervision d .authorised).dropEntry f.handle).post (.partRetired f.handle .causeCleared)

theorem withSupervision_beside (v : Supervision) (u : State) : (u.withSupervision d v).ilt = u.ilt ∧ (u.withSupervision d v).lnk = u.lnk
    ∧ (u.withSupervision d v).brk = u.brk := ⟨State.modDsv_ilt _ _, State.modDsv_lnk _ _, State.modDsv_brk _ _⟩

/-- After the drop come BRK, RLU, CRN and STC, the handle is forgotten, and DSV derives the door. -/
theorem claimRetires_beside : (s.claimRetires d f).ilt = (s.claimDrops d f).ilt ∧ (s.claimRetires d f).lnk = (s.claimDrops d f).lnk
    ∧ (s.claimRetires d f).brk = (forgetHandle f.handle (handOff .retired f (s.claimDrops d f))).brk := by
  have blocks := handOff_blocks .retired f (s.claimDrops d f)
  obtain ⟨ilt, lnk, -⟩ := forgetHandle_beside f.handle (handOff .retired f (s.claimDrops d f))
  obtain ⟨ilt', lnk', brk'⟩ := withSupervision_beside (d := d) .authorised (forgetHandle f.handle (handOff .retired f (s.claimDrops d f)))
  exact ⟨ilt'.trans (ilt.trans blocks.ilt), lnk'.trans (lnk.trans blocks.lnk), brk'⟩

theorem claimRetires_table : (s.claimRetires d f).ilt = (s.dropEntry f.handle).ilt := by
  have same : (s.withSupervision d .authorised).ilt = s.ilt := State.modDsv_ilt _ _
  have dropped : ((s.withSupervision d .authorised).dropEntry f.handle).ilt = (s.dropEntry f.handle).ilt := by
    unfold State.dropEntry
    rw [resolve_congr same]
    split
    · split
      · rw [State.modIlt_ilt, State.modIlt_ilt, same]
      · exact same
    · exact same
  exact claimRetires_beside.1.trans ((State.post_ilt _ _).trans dropped)

theorem claimRetires_door (held : (rd s.dsv.doors d).selfHandle = some f.handle) :
    (rd (s.claimRetires d f).dsv.doors d).supervision = .authorised ∧ (rd (s.claimRetires d f).dsv.doors d).selfHandle = none := by
  rw [State.claimRetires, withSupervision_door]
  refine ⟨rfl, ?_⟩
  have same : (rd (handOff .retired f (s.claimDrops d f)).dsv.doors d).selfHandle = some f.handle := by
    rw [(handOff_blocks .retired f _).dsv, State.claimDrops, State.post_dsv, State.dropEntry_dsv, withSupervision_door]
    exact held
  show (rd (forgetHandle f.handle (handOff .retired f (s.claimDrops d f))).dsv.doors d).selfHandle = none
  rw [(forgetHandle_handles _ _).2.2 d]
  dsimp only
  rw [same]
  exact if_pos rfl

/-- The blocks stand as the table gives them after the claim, if they did before or the part's own entry is one that they read. -/
theorem claimRetires_keeps {F : State → Prop} {Q : Kind → Bool} (b : BlockFit F Q) (resolved : s.resolve f.handle = some f)
    (before : Q f.kind = true ∨ F s) : F (s.claimRetires d f) := by
  have closed := b.openClosed
  have supervised (v : Supervision) (u : State) (h : F u) : F (u.withSupervision d v) :=
    closed.dsv (fun x => { x with doors := upd x.doors d fun y => { y with supervision := v } }) u h
  refine supervised _ _ (closed.forget _ _ (b.handed _ _ _ ?_))
  cases reads : Q f.kind with
  | true => exact .inl rfl
  | false =>
    refine .inr (closed.post _ _ (b.moved (s.withSupervision d .authorised) _ (supervised _ _ (before.resolve_left (by simp [reads])))
      (dropEntry_agrees fun e there => ?_) (State.dropEntry_cfg _ _) (State.dropEntry_mot _ _) ?_ ?_ (State.dropEntry_rlu _ _)
      (State.dropEntry_crn _ _)))
    · have same : (s.withSupervision d .authorised).resolve f.handle = some f :=
        (resolve_congr (s := s) rfl f.handle).trans resolved
      obtain rfl : e = f := Option.some.inj (there.symm.trans same)
      exact reads
    · rw [State.dropEntry_brk]
    · rw [State.dropEntry_brk]

theorem claimRetires_doorSeen (kind : f.kind = .doorOpen) {e : Entry} (seen : s.brk.doorSeen = true) (door : e.partnerDoor = true)
    (live : e ∈ (s.dropEntry f.handle).live) : (s.claimRetires d f).brk.doorSeen = true := by
  have live' : (s.claimDrops d f).live = (s.claimRetires d f).live := (State.live_congr claimRetires_beside.1).symm
  have same : (s.claimRetires d f).live = (s.dropEntry f.handle).live := State.live_congr claimRetires_table
  have brk : (s.claimDrops d f).brk = s.brk := by
    rw [State.claimDrops, State.post_brk, State.dropEntry_brk]
    rfl
  rw [claimRetires_beside.2.2, (forgetHandle_handles _ _).1]
  dsimp only
  rw [handOff_brk_after, if_pos (by simp [kind, Kind.holds]), if_neg (by simp)]
  exact brkJudge_doorSeen (by rw [brk, seen]) (List.any_eq_true.mpr ⟨e, by rw [live', same]; exact live, door⟩)

end

theorem scopeOf_fitted {s : State} {k : Kind} {code h : Nat} {d : Fin 4} (named : s.scopeOf k code h = some (.door d)) :
    d.val < s.cfg.settings.doorCount := by
  have door (g : Option Scope) (here : g = if range : 1 ≤ code ∧ code ≤ 4 then
      (if code ≤ s.cfg.settings.doorCount then some (.door ⟨code - 1, by omega⟩) else none) else none) (is : g = some (.door d)) :
      d.val < s.cfg.settings.doorCount := by
    subst here
    split at is
    · split at is
      · obtain rfl : (⟨code - 1, by omega⟩ : Fin 4) = d := by simpa using is
        simp only
        omega
      · exact absurd is (by simp)
    · exact absurd is (by simp)
  rcases scopeOf_isDoor named with rfl | rfl <;> exact door _ rfl named

/-- Settles O17. -/
theorem openClaimsDoor : Obligations.OpenClaimsDoor := by
  unfold Obligations.OpenClaimsDoor
  intro x tag kind scope handle w s k d h f slot heard known run named permitted authority isScope admitted alone clear low free taken
    unclaimed held fits resolved self selfKind selfScope uncovered
  have opening := opening_of_checks heard run isScope admitted free
  have door := scopeOf_isDoor isScope
  have isDoor := isDoor_iff.mpr door
  obtain rfl : f.handle = h := handle_of_resolve fits resolved
  let e := s.openedEntry x.partner k (.door d) w.toNat slot
  let u := s.handed x.partner k (.door d) w.toNat slot
  have blocks : Blocks (s.placed x.partner k (.door d) w.toNat slot) u := handed_blocks
  have partnerDoor : e.partnerDoor = true := by
    simp [e, Entry.partnerDoor, Entry.isSelf, State.openedEntry, State.newEntry, opening.partner, isDoor]
  have live : e ∈ u.live := by
    rw [blocks.live]
    exact placed_live
  have there : u.resolve f.handle = some f := (resolve_congr blocks.ilt _).trans (placed_resolve free resolved)
  have runU : u.inRun = true := by
    rw [blocks.inRun]
    exact inRun_iff.mpr run
  have fitted : u.fitted d = true := by
    rw [State.fitted, blocks.cfg]
    exact decide_eq_true (scopeOf_fitted isScope)
  obtain ⟨i, place, -, entry⟩ := slot_of_resolve resolved
  have apart : slot.val ≠ f.handle / 8 := by
    intro same
    obtain rfl : slot = i := Fin.ext (same.trans place.symm)
    rw [free] at entry
    exact absurd entry (by simp)
  have placed := placed_placesEntry (s := s) (p := x.partner) (k := k) (sc := .door d) (given := w.toNat) (slot := slot)
  have new : (rd u.ilt.slots slot).entry = some e := by rw [blocks.ilt, placed.new]
  have listed : slot ∈ u.ilt.order := by
    rw [blocks.ilt, placed.order]
    exact List.mem_append_right _ (List.mem_singleton_self slot)
  obtain ⟨-, stays⟩ := dropEntry_keeps_live apart listed new
  obtain ⟨order', stays'⟩ := dropEntry_keeps_live (s := u.withSupervision d .authorised) apart listed new
  have dsv : u.dsv = s.dsv := blocks.dsv
  have unclaimedU : (rd u.dsv.doors d).supervision = .unclaimed := by rw [dsv, unclaimed]
  have heldU : (rd u.dsv.doors d).selfHandle = some f.handle := by rw [dsv, held]
  have claimed : s.opened x.partner k (.door d) w.toNat slot = u.claimRetires d f := by
    rw [State.opened, coverTarget_none (by simp), handOffOpened]
    exact claim_retires runU fitted live partnerDoor rfl unclaimedU heldU there self
      selfKind selfScope uncovered stays'
  have table := claimRetires_table (s := u) (d := d) (f := f)
  have base : SameBase s (State.finish (s.opened x.partner k (.door d) w.toNat slot)) := opened_base
  rw [claimed] at base
  have run' : (u.claimRetires d f).cfg.device = .run := by rw [← finish_cfg, base.cfg, run]
  have new' : (rd (u.claimRetires d f).ilt.slots slot).entry = some e := by rw [table, dropEntry_slot_other apart, new]
  have listed' : slot ∈ (u.claimRetires d f).ilt.order := by
    rw [table]
    exact (dropEntry_keeps_live apart listed new).1
  obtain ⟨g, ends, record, shown, active, -⟩ := entry_ends run' new' listed' openedEntry_shown
  simp only [Entry.record, Prod.mk.injEq] at record
  obtain ⟨sameHandle, sameKind, sameOwner, -, sameScope, -, -⟩ := record
  have handleIs : g.handle = s.handleOf slot := sameHandle
  have holdsFit : (u.claimRetires d f).HoldsFit := claimRetires_keeps holdsFit_blockFit there (.inl (by simp [selfKind, Kind.holds]))
  obtain ⟨supervision, selfHandle⟩ := claimRetires_door (s := u) (d := d) (f := f) heldU
  obtain ⟨supervision', selfHandle'⟩ := finish_door (u.claimRetires d f) d
  refine ⟨State.finish (u.claimRetires d f), g, ?_, ends, sameKind, sameOwner, sameScope, shown, active, finish_evaluated _, ?_,
    supervision'.trans supervision, selfHandle'.trans selfHandle, finish_holdsFit holdsFit, ?_, fun ramp => ⟨?_, ?_⟩, ?_, base⟩
  · have state : (State.finish (s.opened x.partner k (.door d) w.toNat slot)).entryState (s.handleOf slot) = some g.state := by
      have resolves : (State.finish (u.claimRetires d f)).resolve (s.handleOf slot) = some g := by
        refine resolve_eq_some_iff.mpr ⟨slot, ?_, ends⟩
        rw [(finish_reviewed _).generation, table, dropEntry_slot_other apart, blocks.ilt, placed.new]
        rfl
      rw [claimed, State.entryState, resolves]
      rfl
    rw [exec_openEntry_heard heard, requestOpen_checked ⟨known, named, run, permitted, authority⟩,
      openChecked_carried isScope admitted alone clear (freeSlot_lowest ⟨Nat.zero_le _, low⟩ free fun i _ => taken i), carryOpen_eq, state,
      handleIs, claimed]
  · refine (finish_reviewed _).resolve_none ?_
    rw [resolve_congr table, dropEntry_resolve]
  · have seen : u.brk.doorSeen = true := handOff_doorSeen partnerDoor placed_live
    rw [(finish_brk holdsFit).2]
    exact claimRetires_doorSeen selfKind seen partnerDoor stays
  · exact finish_ridesFit (claimRetires_keeps ridesFit_blockFit there (.inr (handOff_ridesFit .opened _ (.inl (by rw [ramp]; rfl)))))
  · exact finish_freezesFit (claimRetires_keeps freezesFit_blockFit there (.inr (handOff_freezesFit .opened _ (.inl (by rw [ramp]; rfl)))))
  · exact finish_flagged (flagged_congr claimRetires_beside.2.1 (post_flagged_self _ _))

end Sys2Proof.Machine
end

