-- ==== Sys2Proof/Proofs/Forgets.lean ====
section
/-! PROOF. A handle is gone: no block keeps it, and no later entry bears it -/

namespace Sys2Proof.Machine

/-! ## A retired handle, and the handles that the blocks hold (R39, R61) -/

theorem Evolves.fits {s t : State} (h : Evolves s t) (fits : s.ilt.Fits) : t.ilt.Fits := by
  induction h with
  | refl => exact fits
  | tail _ m ih => exact move_iltFits m ih

/-- The generation of a handle's slot has gone on. -/
def State.PastHandle (handle : Nat) (s : State) : Prop := ∀ i : Fin 24, i.val = handle / 8 → handle % 8 ≠ (rd s.ilt.slots i).generation.val

theorem pastHandle_gains {handle : Nat} {s t : State} (h : s.PastHandle handle) (gains : Gains s t) : t.PastHandle handle := by
  intro i place
  rw [gains.generation]
  exact h i place

theorem PastHandle.resolve_ne {handle h : Nat} {s : State} (past : s.PastHandle handle) {e : Entry} (resolved : s.resolve h = some e) :
    h ≠ handle := by
  rintro rfl
  obtain ⟨i, place, generation, -⟩ := slot_of_resolve resolved
  exact past i place generation

/-- The handles that BRK, STC and DSV hold are not the one named. -/
def State.Forgets (handle : Nat) (s : State) : Prop :=
  s.brk.selfHandle ≠ some handle ∧ s.stc.selfHandle ≠ some handle ∧ ∀ d, (rd s.dsv.doors d).selfHandle ≠ some handle

theorem forgetHandle_forgets (handle : Nat) (s : State) : (forgetHandle handle s).Forgets handle := by
  obtain ⟨brk, stc, dsv⟩ := forgetHandle_handles handle s
  refine ⟨?_, ?_, fun d => ?_⟩
  · rw [brk]
    exact keptHandle_ne _ _
  · rw [stc]
    exact keptHandle_ne _ _
  · rw [dsv]
    exact keptHandle_ne _ _

section
variable {s : State}

/-- BRK's judgement keeps the handle that BRK holds. -/
theorem brkJudge_selfHandle (s : State) : (Brk.judge s).brk.selfHandle = s.brk.selfHandle := by
  have raised : ∀ u : State, (Brk.raiseFloor u).brk.selfHandle = u.brk.selfHandle := fun u => by
    rw [Brk.raiseFloor, brkCommand_brk]
    rfl
  have applying : ∀ m, (Brk.enterApplying m s).brk.selfHandle = s.brk.selfHandle := fun m => by
    rw [Brk.enterApplying, raised]
    rfl
  have ramping : ∀ u : State, (Brk.enterRamping u).brk.selfHandle = u.brk.selfHandle := fun u => by
    unfold Brk.enterRamping
    dsimp only
    split <;> rfl
  have leaves : ∀ u : State, (Brk.leaveWait u).brk.selfHandle = u.brk.selfHandle := fun u => by
    unfold Brk.leaveWait
    split
    · exact ramping u
    · rfl
  have reapplied : ∀ m, (Brk.reapply m s).brk.selfHandle = s.brk.selfHandle := fun m => by
    unfold Brk.reapply
    dsimp only
    split
    · exact applying m
    · exact applying m
  have moved : ∀ m, (Brk.moveTarget m s).brk.selfHandle = s.brk.selfHandle := fun m => by
    unfold Brk.moveTarget
    dsimp only
    split
    · rfl
    · split
      · rw [raised]
        rfl
      · rfl
  unfold Brk.judge
  split
  case isFalse => rfl
  case isTrue =>
    split
    · exact applying _
    · exact moved _
    · exact moved _
    · exact reapplied _
    · exact reapplied _
    · exact leaves _
    · exact leaves _
    · exact leaves _
    · rfl
    · rfl

theorem handOff_selfHandle (v : EntryEvent) (e : Entry) (s : State) : (handOff v e s).brk.selfHandle = s.brk.selfHandle := by
  have marked : (if v = .opened then Brk.markDoor e s else s).brk.selfHandle = s.brk.selfHandle := by
    unfold Brk.markDoor
    split
    · split <;> rfl
    · rfl
  rw [handOff_brk_after]
  split
  · rw [brkJudge_selfHandle, marked]
  · exact marked

theorem handOff_stc_selfHandle (v : EntryEvent) (e : Entry) (s : State) : (handOff v e s).stc.selfHandle = s.stc.selfHandle := by
  obtain ⟨w, ⟨same, -⟩ | ⟨-, -, same, -⟩⟩ := (handOff_steerEnds v e s).stc <;> rw [same]

theorem handOff_forgets {handle : Nat} {v : EntryEvent} {e : Entry} (h : s.Forgets handle) : (handOff v e s).Forgets handle := by
  obtain ⟨brk, stc, dsv⟩ := h
  refine ⟨by rwa [handOff_selfHandle], by rwa [handOff_stc_selfHandle], fun d => ?_⟩
  rw [(handOff_blocks v e s).dsv]
  exact dsv d

theorem evaluateOnce_selfHandle (s : State) : (evaluateOnce s).brk.selfHandle = s.brk.selfHandle := by
  unfold evaluateOnce
  split
  case isTrue => rfl
  case isFalse =>
    have handed : ∀ (l : List Entry) (u : State), (l.foldl (fun s e => handOff .changed e s) u).brk.selfHandle = u.brk.selfHandle := by
      intro l
      induction l with
      | nil => exact fun _ => rfl
      | cons e l ih => exact fun u => (ih _).trans (handOff_selfHandle _ _ _)
    exact (handed _ s.retabled).trans (by rw [(retabled_beside s).2.2.2.1])

theorem finish_forgets {handle : Nat} (h : s.Forgets handle) : (State.finish s).Forgets handle := by
  obtain ⟨brk, stc, dsv⟩ := h
  refine ⟨?_, ?_, fun d => ?_⟩
  · have same : (State.finish s).brk.selfHandle = s.brk.selfHandle := by
      show (reevaluate s).brk.selfHandle = s.brk.selfHandle
      unfold reevaluate
      split
      · rw [evaluateOnce_selfHandle, evaluateOnce_selfHandle, evaluateOnce_selfHandle]
      · rfl
    rwa [same]
  · obtain ⟨w, ⟨same, -⟩ | ⟨-, -, same, -⟩⟩ := (finish_steerEnds s).stc <;> rwa [same]
  · rw [(finish_door s d).2]
    exact dsv d

/-- A state whose table fits and knows a handle no more, and whose blocks have forgotten it. -/
structure State.Past (handle : Nat) (s : State) : Prop where
  fits : s.ilt.Fits
  past : s.PastHandle handle
  forgets : s.Forgets handle

variable {handle : Nat}

theorem pa_same {t : State} (h : s.Past handle) (ilt : t.ilt = s.ilt) (brk : t.brk = s.brk) (stc : t.stc.selfHandle = s.stc.selfHandle)
    (dsv : ∀ d, (rd t.dsv.doors d).selfHandle = (rd s.dsv.doors d).selfHandle) : t.Past handle where
  fits := ilt ▸ h.fits
  past := pastHandle_gains h.past (gains_of_ilt ilt)
  forgets := ⟨by rw [brk]; exact h.forgets.1, by rw [stc]; exact h.forgets.2.1, fun d => by rw [dsv]; exact h.forgets.2.2 d⟩

theorem pa_ite {p : Prop} [Decidable p] {t u : State} (h : t.Past handle) (k : u.Past handle) : (if p then t else u).Past handle := by
  split
  · exact h
  · exact k

theorem pa_post (n : Notice) (h : s.Past handle) : (s.post n).Past handle :=
  pa_same h (State.post_ilt n s) (State.post_brk n s) (by rw [State.post_stc]) fun d => by rw [State.post_dsv]

/-- The answer of an OPEN on the internal path resolves to an entry of the part's own. -/
theorem openSelf_resolves {k : Kind} {sc : Scope} {p : Option Nat} {h : Nat} (fits : s.ilt.Fits) (answer : (openSelf k sc p s).2 = some h) :
    ∃ e, (openSelf k sc p s).1.resolve h = some e ∧ e.owner = 15 ∧ e.kind = k ∧ e.scope = sc := by
  cases run : s.inRun with
  | false =>
    rw [openSelf_outside_run run] at answer
    exact absurd answer (by simp)
  | true =>
    cases found : s.live.find? fun e => e.isSelf && decide (e.kind = k ∧ e.scope = sc) with
    | some e =>
      rw [openSelf_stands run found] at answer ⊢
      have is := List.find?_some found
      simp only [Entry.isSelf, Bool.and_eq_true, decide_eq_true_eq] at is
      obtain ⟨owner, kind, scope⟩ := is
      rw [← Option.some.inj answer]
      exact ⟨e, resolve_of_live fits (List.mem_of_find?_eq_some found), owner, kind, scope⟩
    | none =>
      cases free : s.freeSlot 18 24 with
      | none =>
        rw [openSelf_full run found free] at answer
        exact absurd answer (by simp)
      | some slot =>
        rw [openSelf_places run found free] at answer ⊢
        rw [← Option.some.inj answer]
        exact ⟨_, (resolve_congr (handOff_blocks .opened _ _).ilt _).trans (placeEntry_resolve _ _ _), rfl, rfl, rfl⟩

/-- An entry that the part opens for itself has another handle. -/
theorem pa_openSelf {k : Kind} {sc : Scope} {p : Option Nat} (parameter : selfParameterFits k p) (names : k.names sc)
    (h : s.Past handle) : (openSelf k sc p s).1.Past handle ∧ (openSelf k sc p s).2 ≠ some handle := by
  have past := pastHandle_gains h.past (oc_openSelf (gains_openClosed s) k sc p (.refl s))
  refine ⟨⟨(ev_openSelf k sc p parameter names .refl).fits h.fits, past, ?_⟩, fun answer => ?_⟩
  · unfold openSelf
    split
    · split
      · exact h.forgets
      · split
        · exact h.forgets
        · exact handOff_forgets h.forgets
    · exact h.forgets
  · obtain ⟨e, resolved, -⟩ := openSelf_resolves h.fits answer
    exact PastHandle.resolve_ne past resolved rfl

theorem pa_stc (f : Stc → Stc) (same : ∀ x, (f x).selfHandle = x.selfHandle) (h : s.Past handle) : (s.modStc f).Past handle :=
  pa_same h rfl rfl (same _) fun _ => rfl

theorem pa_command (ch : Fin 18) (v : Nat) (h : s.Past handle) : (s.command ch v).Past handle :=
  pa_same h (command_ilt ch v s) (command_brk ch v s) (by rw [command_stc]) fun d => by rw [command_dsv]

theorem pa_stcAskEntry (h : s.Past handle) : (Stc.askEntry s).Past handle := by
  refine pa_ite ?_ h
  obtain ⟨⟨fits, past, brk, -, dsv⟩, answer⟩ := pa_openSelf (k := .steerCentre) (sc := .vehicle) (p := none) rfl rfl h
  exact ⟨fits, past, brk, answer, dsv⟩

theorem pa_setLatch (c : LatchCause) (h : s.Past handle) : (Stc.setLatch c s).Past handle :=
  pa_ite h (pa_post _ (pa_stcAskEntry (pa_stc _ (fun _ => rfl) h)))
theorem pa_judgeLock (h : s.Past handle) : (Stc.judgeLock s).Past handle := pa_ite (pa_setLatch _ h) h
theorem pa_startCentring (h : s.Past handle) : (Stc.startCentring s).Past handle :=
  pa_ite (pa_command _ _ (pa_stc _ (fun _ => rfl) h)) h
theorem pa_enterMoving (h : s.Past handle) : (Stc.enterMoving s).Past handle :=
  pa_startCentring (pa_judgeLock (pa_command _ _ (pa_stc _ (fun _ => by split <;> rfl) h)))
theorem pa_leaveLocked (h : s.Past handle) : (Stc.leaveLocked s).Past handle := pa_ite (pa_enterMoving (pa_stc _ (fun _ => rfl) h)) h

theorem changeDoor_door (d : Fin 4) (f : Door → Door) (s : State) (j : Fin 4) :
    rd (Dsv.changeDoor d f s).dsv.doors j = if d = j then f (rd s.dsv.doors j) else rd s.dsv.doors j := by
  rw [Dsv.changeDoor, State.modDsv_dsv, rd_upd]
  split
  case isTrue same => rw [same]
  case isFalse => rfl

theorem pa_dsvAskEntry (d : Fin 4) (h : s.Past handle) : (Dsv.askEntry d s).Past handle := by
  refine pa_ite ?_ h
  obtain ⟨⟨fits, past, brk, stc, dsv⟩, answer⟩ := pa_openSelf (k := .doorOpen) (sc := .door d) (p := none) rfl ⟨d, rfl⟩ h
  refine ⟨fits, past, brk, stc, fun j => ?_⟩
  rw [changeDoor_door]
  split
  · exact answer
  · exact dsv j

theorem pa_withSupervision (d : Fin 4) (v : Supervision) (h : s.Past handle) : (s.withSupervision d v).Past handle :=
  pa_same h rfl rfl rfl fun j => by
    rw [State.withSupervision, changeDoor_door]
    split <;> rfl

theorem pa_supervise (d : Fin 4) (h : s.Past handle) : (Dsv.supervise d s).Past handle :=
  pa_ite (pa_ite (pa_post _ (pa_dsvAskEntry d (pa_withSupervision d _ h))) (pa_withSupervision d _ h)) h

theorem pa_superviseFor (e : Entry) (h : s.Past handle) : (Dsv.superviseFor e s).Past handle := by
  unfold Dsv.superviseFor
  split
  · exact pa_ite (pa_supervise _ h) h
  · exact h

end

end Sys2Proof.Machine
end

