-- ==== Sys2Proof/Proofs/Retirement.lean ====
section
/-! PROOF. What the retirement of an entry takes out of the table -/

namespace Sys2Proof.Machine

/-! ## The retirement of an entry (R24, R36, R61, R65) -/

/-- The entry dropped, and with it the OVERRIDE that covers it. -/
def State.retireDrops (e : Entry) (s : State) : State :=
  match e.coveredBy with
  | some o => dropOverride o .targetGone (s.dropEntry e.handle)
  | none => s.dropEntry e.handle

/-- The target of a dropped OVERRIDE returned to STALE. -/
def State.retireUncovers (e : Entry) (s : State) : State :=
  match e.scope with
  | .target t => uncover t s
  | .door _ => s
  | .curb => s
  | .full => s
  | .vehicle => s

theorem retireEntry_eq (e : Entry) (s : State) : retireEntry none e s = handOffRetired e ((s.retireDrops e).retireUncovers e) := by
  unfold retireEntry State.retireDrops State.retireUncovers
  cases e.coveredBy <;> cases e.scope <;> rfl

section
variable {s : State} {e : Entry}

theorem retireDrops_uncovered (uncovered : e.coveredBy = none) : s.retireDrops e = s.dropEntry e.handle := by
  rw [State.retireDrops, uncovered]

theorem retireDrops_covered {o : Nat} (covered : e.coveredBy = some o) :
    s.retireDrops e = ((s.dropEntry e.handle).dropEntry o).post (.partRetired o .targetGone) := by
  rw [State.retireDrops, covered]
  rfl

theorem retireDrops_beside : (s.retireDrops e).crn = s.crn ∧ (s.retireDrops e).stc = s.stc ∧ (s.retireDrops e).dsv = s.dsv
    ∧ (s.retireDrops e).cfg = s.cfg ∧ (s.retireDrops e).mot = s.mot ∧ (s.retireDrops e).vda = s.vda := by
  cases covered : e.coveredBy with
  | none =>
    rw [retireDrops_uncovered covered]
    exact ⟨State.dropEntry_crn _ _, State.dropEntry_stc _ _, State.dropEntry_dsv _ _, State.dropEntry_cfg _ _, State.dropEntry_mot _ _,
      State.dropEntry_vda _ _⟩
  | some o =>
    rw [retireDrops_covered covered]
    refine ⟨?_, ?_, ?_, ?_, ?_, ?_⟩
    · rw [State.post_crn, State.dropEntry_crn, State.dropEntry_crn]
    · rw [State.post_stc, State.dropEntry_stc, State.dropEntry_stc]
    · rw [State.post_dsv, State.dropEntry_dsv, State.dropEntry_dsv]
    · rw [State.post_cfg, State.dropEntry_cfg, State.dropEntry_cfg]
    · rw [State.post_mot, State.dropEntry_mot, State.dropEntry_mot]
    · rw [State.post_vda, State.dropEntry_vda, State.dropEntry_vda]

/-- A drop leaves an empty slot as it is. -/
theorem dropEntry_slot_empty {u : State} {o : Nat} {i : Fin 24} (empty : (rd u.ilt.slots i).entry = none) :
    rd (u.dropEntry o).ilt.slots i = rd u.ilt.slots i := by
  cases resolved : u.resolve o with
  | none => rw [dropEntry_unresolved resolved]
  | some g =>
    obtain ⟨j, place, -, entry⟩ := slot_of_resolve resolved
    refine dropEntry_slot_other fun here => ?_
    obtain rfl : i = j := Fin.ext (here.trans place.symm)
    rw [empty] at entry
    exact absurd entry (by simp)

theorem dropEntry_order_sub {u : State} {o : Nat} {i : Fin 24} (there : i ∈ (u.dropEntry o).ilt.order) : i ∈ u.ilt.order := by
  cases resolved : u.resolve o with
  | none => rwa [dropEntry_unresolved resolved] at there
  | some g =>
    obtain ⟨j, place, -⟩ := slot_of_resolve resolved
    rw [dropEntry_order resolved place] at there
    exact List.mem_of_mem_erase there

theorem dropEntry_live_sub {u : State} {o : Nat} {f : Entry} (there : f ∈ (u.dropEntry o).live) : f ∈ u.live := by
  obtain ⟨i, listed, entry⟩ := mem_live_iff.mp there
  refine mem_live_iff.mpr ⟨i, dropEntry_order_sub listed, ?_⟩
  by_cases here : i.val = o / 8
  · cases resolved : u.resolve o with
    | none => rwa [dropEntry_unresolved resolved] at entry
    | some g =>
      rw [dropEntry_slot resolved, if_pos here] at entry
      exact absurd entry (by simp)
  · rwa [dropEntry_slot_other here] at entry

/-- The dropped slot. -/
theorem retireDrops_slot (resolved : s.resolve e.handle = some e) {i : Fin 24} (place : i.val = e.handle / 8) :
    rd (s.retireDrops e).ilt.slots i = { generation := (rd s.ilt.slots i).generation + 1, entry := none } := by
  have first := dropEntry_slot resolved i
  rw [if_pos place] at first
  cases covered : e.coveredBy with
  | none => rw [retireDrops_uncovered covered, first]
  | some o => rw [retireDrops_covered covered, State.post_ilt, dropEntry_slot_empty (by rw [first]), first]

theorem retireDrops_slot_other {i : Fin 24} (other : i.val ≠ e.handle / 8) (uncovering : ∀ o, e.coveredBy = some o → i.val ≠ o / 8) :
    rd (s.retireDrops e).ilt.slots i = rd s.ilt.slots i := by
  have first : rd (s.dropEntry e.handle).ilt.slots i = rd s.ilt.slots i := dropEntry_slot_other other
  cases covered : e.coveredBy with
  | none => rw [retireDrops_uncovered covered, first]
  | some o => rw [retireDrops_covered covered, State.post_ilt, dropEntry_slot_other (uncovering o covered), first]

theorem retireDrops_order (fits : s.ilt.Fits) (resolved : s.resolve e.handle = some e) {i : Fin 24} (place : i.val = e.handle / 8) :
    i ∉ (s.retireDrops e).ilt.order := by
  have first : i ∉ (s.dropEntry e.handle).ilt.order := by
    rw [dropEntry_order resolved place]
    exact fits.once.not_mem_erase
  cases covered : e.coveredBy with
  | none => rwa [retireDrops_uncovered covered]
  | some o =>
    rw [retireDrops_covered covered, State.post_ilt]
    exact fun there => first (dropEntry_order_sub there)

theorem retireDrops_live_sub {f : Entry} (there : f ∈ (s.retireDrops e).live) : f ∈ (s.dropEntry e.handle).live := by
  cases covered : e.coveredBy with
  | none => rwa [retireDrops_uncovered covered] at there
  | some o =>
    rw [retireDrops_covered covered, State.live_congr (State.post_ilt _ _)] at there
    exact dropEntry_live_sub there

/-- The other live entries have other handles. -/
theorem dropEntry_live_other (fits : s.ilt.Fits) (resolved : s.resolve e.handle = some e) {f : Entry}
    (there : f ∈ (s.dropEntry e.handle).live) : f ∈ s.live ∧ f.handle ≠ e.handle := by
  have before := dropEntry_live_sub there
  refine ⟨before, fun same => ?_⟩
  have resolves := resolve_of_live (iltFits_drop e.handle fits) there
  rw [same, dropEntry_resolve] at resolves
  exact absurd resolves (by simp)

theorem pastHandle_of_drop {u : State} {o : Nat} {f : Entry} (resolved : u.resolve o = some f) : (u.dropEntry o).PastHandle o := by
  intro i place
  obtain ⟨j, place', generation, -⟩ := slot_of_resolve resolved
  obtain rfl : i = j := Fin.ext (place.trans place'.symm)
  rw [dropEntry_slot resolved, if_pos place, generation]
  have cycle : ∀ g : Fin 8, g.val ≠ (g + 1).val := by decide
  exact cycle _

theorem retireDrops_past (resolved : s.resolve e.handle = some e) : (s.retireDrops e).PastHandle e.handle := by
  intro i place
  have dropped := pastHandle_of_drop resolved i place
  rw [dropEntry_slot resolved, if_pos place] at dropped
  rw [retireDrops_slot resolved place]
  exact dropped

theorem retireDrops_past_override (resolved : s.resolve e.handle = some e) {o : Nat} {f : Entry} (covered : e.coveredBy = some o)
    (there : s.resolve o = some f) : (s.retireDrops e).PastHandle o := by
  by_cases same : o = e.handle
  · rw [same]
    exact retireDrops_past resolved
  · have still : (s.dropEntry e.handle).resolve o = some f := dropEntry_resolve_other (Ne.symm same) there
    rw [retireDrops_covered covered]
    exact pastHandle_gains (pastHandle_of_drop still) (gains_of_ilt (State.post_ilt _ _))

/-- The target of a retired OVERRIDE still resolves. -/
theorem retireDrops_resolve {t : Nat} {g : Entry} (there : s.resolve t = some g) (other : t ≠ e.handle) (uncovering : e.coveredBy ≠ some t) :
    (s.retireDrops e).resolve t = some g := by
  have first : (s.dropEntry e.handle).resolve t = some g := dropEntry_resolve_other (Ne.symm other) there
  cases covered : e.coveredBy with
  | none => rwa [retireDrops_uncovered covered]
  | some o =>
    rw [retireDrops_covered covered, resolve_congr (State.post_ilt _ _)]
    exact dropEntry_resolve_other (by rintro rfl; exact uncovering covered) first

/-! ### The return of a target (R65) -/

theorem uncover_cases (t : Nat) (u : State) : uncover t u = u ∨ ∃ g, u.resolve t = some g ∧ g.state = .covered
    ∧ uncover t u = handOff .changed g (u.updEntry t fun x => { x with state := .stale, coveredBy := none }) := by
  unfold uncover
  cases resolved : u.resolve t with
  | none => exact .inl rfl
  | some g =>
    dsimp only
    by_cases covered : g.state = .covered
    · exact .inr ⟨g, rfl, covered, if_pos covered⟩
    · exact .inl (if_neg covered)

/-- A return of the target keeps every slot but what the target shows. -/
structure Returns (u v : State) : Prop where
  order : v.ilt.order = u.ilt.order
  record : ∀ i, (rd v.ilt.slots i).record = (rd u.ilt.slots i).record
  empty : ∀ i, (rd u.ilt.slots i).entry = none → (rd v.ilt.slots i).entry = none
  crn : CornersFollow tableReason u v

theorem Returns.refl (u : State) : Returns u u := ⟨rfl, fun _ => rfl, fun _ h => h, .refl _ u⟩

theorem uncover_returns (t : Nat) (u : State) : Returns u (uncover t u) := by
  obtain same | ⟨g, resolved, -, same⟩ := uncover_cases t u
  · rw [same]
    exact .refl u
  · have ilt := (handOff_blocks .changed g (u.updEntry t fun x => { x with state := .stale, coveredBy := none })).ilt
    rw [same]
    refine ⟨by rw [ilt, updEntry_order], fun i => ?_, fun i empty => ?_, ?_⟩
    · rw [ilt, updEntry_slot resolved]
      split
      case isFalse => rfl
      case isTrue here =>
        obtain ⟨j, place, -, entry⟩ := slot_of_resolve resolved
        obtain rfl : i = j := Fin.ext (here.trans place.symm)
        simp only [Slot.record, entry, Option.map_some]
        rfl
    · rw [ilt, updEntry_slot resolved, if_neg, empty]
      intro here
      obtain ⟨j, place, -, entry⟩ := slot_of_resolve resolved
      obtain rfl : i = j := Fin.ext (here.trans place.symm)
      rw [empty] at entry
      exact absurd entry (by simp)
    · exact (cornersFollow_of_same (State.updEntry_crn _ _ u)).trans (handOff_follows .changed g _)

theorem retireUncovers_returns (e : Entry) (u : State) : Returns u (u.retireUncovers e) := by
  unfold State.retireUncovers
  cases e.scope with
  | target t => exact uncover_returns t u
  | door d => exact .refl u
  | curb => exact .refl u
  | full => exact .refl u
  | vehicle => exact .refl u

theorem retireUncovers_plain (plain : ∀ t, e.scope ≠ .target t) (u : State) : u.retireUncovers e = u := by
  unfold State.retireUncovers
  cases scope : e.scope with
  | target t => exact absurd scope (plain t)
  | door d => rfl
  | curb => rfl
  | full => rfl
  | vehicle => rfl

theorem Returns.generation {u v : State} (h : Returns u v) (i : Fin 24) :
    (rd v.ilt.slots i).generation = (rd u.ilt.slots i).generation := congrArg Prod.fst (h.record i)

theorem Returns.past {u v : State} {handle : Nat} (h : Returns u v) (past : u.PastHandle handle) : v.PastHandle handle := by
  intro i place
  rw [h.generation]
  exact past i place

end

end Sys2Proof.Machine
end

