-- ==== Sys2Proof/Proofs/Retired.lean ====
section
/-! PROOF. The state after an entry's retirement -/

namespace Sys2Proof.Machine

section
variable {s : State} {e : Entry}

theorem ev_retireDrops {a u : State} (e : Entry) (h : Evolves a u) : Evolves a (u.retireDrops e) := by
  unfold State.retireDrops
  split
  · exact ev_dropOverride _ _ (ev_drop _ h)
  · exact ev_drop _ h

theorem ev_retireUncovers {a u : State} (e : Entry) (h : Evolves a u) : Evolves a (u.retireUncovers e) := by
  unfold State.retireUncovers
  split
  · exact ev_uncover _ h
  all_goals exact h

/-- The table of a retirement before BRK, RLU, CRN, STC and DSV have it. -/
def State.retiring (e : Entry) (s : State) : State := (s.retireDrops e).retireUncovers e

/-- The state after a retirement, to the end of the event. -/
def State.retired (e : Entry) (s : State) : State := State.finish (handOffRetired e (s.retiring e))

theorem retired_eq (e : Entry) (s : State) : State.finish (retireEntry none e s) = s.retired e := congrArg State.finish (retireEntry_eq e s)

theorem retired_gains : Gains (s.retiring e) (s.retired e) :=
  (oc_handOffRetired (gains_openClosed _) e (gains_of_ilt (handOff_blocks .retired e _).ilt)).trans (gains_of_reviewed (finish_reviewed _))

theorem retiring_past (resolved : s.resolve e.handle = some e) : (s.retiring e).PastHandle e.handle :=
  (retireUncovers_returns e _).past (retireDrops_past resolved)

theorem PastHandle.resolve_none {handle : Nat} {u : State} (past : u.PastHandle handle) : u.resolve handle = none :=
  Option.eq_none_iff_forall_ne_some.mpr fun _ resolved => PastHandle.resolve_ne past resolved rfl

theorem retired_resolve (resolved : s.resolve e.handle = some e) : (s.retired e).resolve e.handle = none :=
  PastHandle.resolve_none (pastHandle_gains (retiring_past resolved) retired_gains)

theorem retired_slot (fits : s.ilt.Fits) (resolved : s.resolve e.handle = some e) {i : Fin 24} (place : i.val = e.handle / 8) :
    (rd (s.retired e).ilt.slots i).generation = (rd s.ilt.slots i).generation + 1
      ∧ (i.val < 18 → (rd (s.retired e).ilt.slots i).entry = none ∧ i ∉ (s.retired e).ilt.order)
      ∧ (18 ≤ i.val → ∀ f, (rd (s.retired e).ilt.slots i).entry = some f → f.owner = 15 ∧ f.handle ≠ e.handle) := by
  have returns := retireUncovers_returns e (s.retireDrops e)
  have gains := retired_gains (s := s) (e := e)
  have dropped := retireDrops_slot resolved place
  have empty : (rd (s.retiring e).ilt.slots i).entry = none := returns.empty i (by rw [dropped])
  have past := retiring_past resolved i place
  refine ⟨?_, fun low => ⟨?_, fun there => ?_⟩, fun high f there => ?_⟩
  · rw [gains.generation, State.retiring, returns.generation, dropped]
  · refine Option.eq_none_iff_forall_ne_some.mpr fun f there => ?_
    have high := (gains.new i f there empty).2.1
    omega
  · rcases gains.added i there with before | high
    · rw [State.retiring, returns.order] at before
      exact retireDrops_order fits resolved place before
    · omega
  · obtain ⟨owner, -, handle⟩ := gains.new i f there empty
    refine ⟨owner, fun same => past ?_⟩
    have generation := (rd (s.retiring e).ilt.slots i).generation.isLt
    omega

theorem Gains.slot_record {u v : State} (h : Gains u v) {i : Fin 24} (there : (rd u.ilt.slots i).entry.isSome = true) :
    (rd v.ilt.slots i).record = (rd u.ilt.slots i).record := by
  obtain ⟨f, entry⟩ := Option.isSome_iff_exists.mp there
  obtain ⟨g, after, reviewed⟩ := h.kept i f entry
  simp only [Slot.record, h.generation, entry, after, Option.map_some, reviewed.record]

theorem retired_slot_other {i : Fin 24} (other : i.val ≠ e.handle / 8) (uncovering : ∀ o, e.coveredBy = some o → i.val ≠ o / 8)
    (there : (rd s.ilt.slots i).entry.isSome = true) : (rd (s.retired e).ilt.slots i).record = (rd s.ilt.slots i).record := by
  have returns := (retireUncovers_returns e (s.retireDrops e)).record i
  rw [retireDrops_slot_other other uncovering] at returns
  have there' : (rd (s.retiring e).ilt.slots i).entry.isSome = true := by
    have same : ((rd (s.retiring e).ilt.slots i).entry.map Entry.record).isSome = ((rd s.ilt.slots i).entry.map Entry.record).isSome :=
      congrArg (fun r => Option.isSome r.2) returns
    rwa [Option.isSome_map, Option.isSome_map, there] at same
  rw [retired_gains.slot_record there']
  exact returns

theorem retired_override (resolved : s.resolve e.handle = some e) {o : Nat} {f : Entry} (covered : e.coveredBy = some o)
    (there : s.resolve o = some f) : (s.retired e).resolve o = none ∧ (s.retired e).flagged 1 := by
  refine ⟨PastHandle.resolve_none (pastHandle_gains ((retireUncovers_returns e _).past (retireDrops_past_override resolved covered there))
    retired_gains), ?_⟩
  have posted : (s.retireDrops e).flagged 1 := by
    rw [retireDrops_covered covered]
    exact post_flagged_self _ _
  exact (ev_finish (ev_handOffRetired e (ev_retireUncovers e .refl))).flagged posted

/-- R65: the target of a retired OVERRIDE is STALE at the end of the event, and BRK has it. -/
theorem retired_target {t : Nat} {g : Entry} (scope : e.scope = .target t) (there : s.resolve t = some g) (covered : g.state = .covered)
    (other : t ≠ e.handle) (uncovering : e.coveredBy ≠ some t) :
    (∃ g', (s.retired e).resolve t = some g' ∧ g'.state = .stale ∧ g'.coveredBy = none ∧ g'.record = g.record)
      ∧ (g.kind.holds = true → (s.retired e).HoldsFit) := by
  have still := retireDrops_resolve there other uncovering
  have uncovered : s.retiring e = handOff .changed g ((s.retireDrops e).updEntry t fun x => { x with state := .stale, coveredBy := none }) := by
    simp only [State.retiring, State.retireUncovers, scope, uncover, still]
    exact if_pos covered
  have stale := updEntry_resolve still fun x => { x with state := .stale, coveredBy := none }
  have gains : Gains ((s.retireDrops e).updEntry t fun x => { x with state := .stale, coveredBy := none }) (s.retired e) := by
    refine Gains.trans ?_ retired_gains
    rw [uncovered]
    exact gains_of_ilt (handOff_blocks .changed g _).ilt
  obtain ⟨g', resolves, reviewed⟩ := gains.resolve stale
  refine ⟨⟨g', resolves, reviewed.stopped (.inl rfl), reviewed.coveredBy, reviewed.record⟩, fun holds => ?_⟩
  have fits : (s.retiring e).HoldsFit := by
    rw [uncovered]
    exact handOff_holdsFit .changed g (.inl holds)
  exact finish_holdsFit (oc_handOffRetired holdsFit_blockFit.openClosed e (handOff_holdsFit .retired e (.inr fits)))

theorem retired_keeps {F : State → Prop} {Q : Kind → Bool} (b : BlockFit F Q) (reads : Q e.kind = true) : F (s.retired e) :=
  b.ended _ (oc_handOffRetired b.openClosed e (b.handed _ _ _ (.inl reads)))

theorem follows_openClosed (a : State) : OpenClosed (CornersFollow tableReason a) where
  stc _ _ h := h.trans (cornersFollow_of_same rfl)
  dsv _ _ h := h.trans (cornersFollow_of_same rfl)
  post n u h := h.trans (cornersFollow_of_same (State.post_crn n u))
  command ch v u h := h.trans (cornersFollow_of_same (command_crn ch v u))
  forget n u h := h.trans (cornersFollow_of_same (forgetHandle_beside n u).2.2.1)
  opens u _ _ _ _ _ _ h := (h.trans (t := u) (cornersFollow_of_same (State.placeEntry_crn _ _ _))).trans (handOff_follows _ _ _)

theorem retired_follows : CornersFollow tableReason s (s.retired e) := by
  have first : CornersFollow tableReason s (s.retiring e) :=
    (cornersFollow_of_same retireDrops_beside.1).trans (retireUncovers_returns e _).crn
  have handed := first.trans (handOff_follows .retired e (s.retiring e))
  exact (oc_handOffRetired (follows_openClosed s) e handed).trans (finish_follows _)

theorem retired_forgets (fits : s.ilt.Fits) (resolved : s.resolve e.handle = some e) : (s.retired e).Forgets e.handle := by
  have evolves : Evolves s (forgetHandle e.handle (handOff .retired e (s.retiring e))) :=
    ev_forgetHandle _ (ev_handOff _ _ (ev_retireUncovers e (ev_retireDrops e .refl)))
  have past : (forgetHandle e.handle (handOff .retired e (s.retiring e))).Past e.handle :=
    ⟨evolves.fits fits, pastHandle_gains (pastHandle_gains (retiring_past resolved) (gains_of_ilt (handOff_blocks .retired e _).ilt))
      (gains_of_ilt (forgetHandle_beside _ _).1), forgetHandle_forgets _ _⟩
  exact finish_forgets (pa_superviseFor e (pa_ite (pa_leaveLocked past) past)).forgets

end

end Sys2Proof.Machine
end

