-- ==== Sys2Proof/Proofs/LeaveLocked.lean ====
section
/-! PROOF. STC leaves LOCKED (R141) -/

namespace Sys2Proof.Machine

/-! ## LOCKED left at a retirement (R141, R151) -/

/-- The steering command and the tracking timer stand, and CL1 stays commanded on. -/
def KeepsCommand (s t : State) : Prop :=
  t.stc.command = s.stc.command ∧ t.stc.trackTimer = s.stc.trackTimer ∧ (s.lockCommand = 1 → t.lockCommand = 1)

theorem KeepsCommand.trans {s t u : State} (h : KeepsCommand s t) (k : KeepsCommand t u) : KeepsCommand s u :=
  ⟨k.1.trans h.1, k.2.1.trans h.2.1, fun on => k.2.2 (h.2.2 on)⟩

theorem SteerEnds.keepsCommand {s t : State} (h : SteerEnds s t) : KeepsCommand s t := by
  obtain ⟨-, w, ⟨same, lock⟩ | ⟨-, -, same, lock⟩⟩ := h
  · exact ⟨by rw [same], by rw [same], fun on => lock.trans on⟩
  · exact ⟨by rw [same], by rw [same], fun _ => lock⟩

section
variable {s : State}

theorem openSelf_keepsCommand (k : Kind) (sc : Scope) (p : Option Nat) (s : State) : KeepsCommand s (openSelf k sc p s).1 := by
  have refl : KeepsCommand s s := ⟨rfl, rfl, id⟩
  unfold openSelf
  split
  case isFalse => exact refl
  case isTrue =>
    split
    · exact refl
    · split
      · exact refl
      · have placed (slot : Fin 24) : KeepsCommand s (s.placeEntry slot (s.newEntry k 15 0 sc p 0)) := ⟨rfl, rfl, id⟩
        exact (placed _).trans (handOff_steerEnds .opened _ _).keepsCommand

theorem setLatch_keepsCommand (c : LatchCause) (s : State) : KeepsCommand s (Stc.setLatch c s) := by
  cases latch : s.stc.latch with
  | some q =>
    rw [setLatch_stands latch]
    exact ⟨rfl, rfl, id⟩
  | none =>
    let marked := s.modStc fun x => { x with latch := some c }
    have asked : KeepsCommand marked (Stc.askEntry marked) := by
      unfold Stc.askEntry
      split
      · exact (openSelf_keepsCommand .steerCentre .vehicle none marked).trans ⟨rfl, rfl, id⟩
      · exact ⟨rfl, rfl, id⟩
    rw [setLatch_eq latch]
    refine KeepsCommand.trans (t := marked) ⟨rfl, rfl, id⟩ (asked.trans ⟨?_, ?_, fun on => ?_⟩)
    · rw [State.post_stc]
    · rw [State.post_stc]
    · rw [State.lockCommand, State.post_vda]
      exact on

/-- STC on the way out of LOCKED, before CL1 is judged. -/
def State.leaving (s : State) : State :=
  Stc.commandLock (s.modStc fun x => if s.standing then { x with state := .frozen, command := 0 }
    else { x with state := .tracking, command := 0, trackTimer := 0 })

theorem leaving_lock (s : State) : s.leaving.lockCommand = 1 := by
  rw [State.leaving, commandLock_lockCommand, State.modStc_stc]
  cases s.standing <;> rfl

theorem leaving_stc (s : State) : s.leaving.stc = if s.standing then { s.stc with state := .frozen, command := 0 }
    else { s.stc with state := .tracking, command := 0, trackTimer := 0 } := by
  rw [State.leaving, Stc.commandLock, command_stc, State.modStc_stc]

theorem leaving_unusable (s : State) : (s.leaving.channelState lockChannel).unusable = (s.channelState lockChannel).unusable := by
  have evolves : Evolves s s.leaving := ev_commandLock (ev_stc _ (fun _ => by split <;> exact ⟨rfl, rfl⟩) .refl)
  refine evolves.channel (P := fun c => c.state.unusable = (s.channelState lockChannel).unusable) (fun now v c same => ?_) lockChannel rfl
  rw [← same]
  unfold Channel.take Channel.follow Channel.switchOn Channel.switchOff ChannelState.driven ChannelState.unusable
  grind

theorem leaveLocked_stays (stays : s.stc.state ≠ .locked ∨ s.anyLive .steerCentre = true) : Stc.leaveLocked s = s :=
  if_neg (by rcases stays with other | live <;> simp [*])

theorem leaveLocked_leaves (locked : s.stc.state = .locked) (free : s.anyLive .steerCentre = false) :
    Stc.leaveLocked s = Stc.startCentring (Stc.judgeLock s.leaving) := by
  rw [Stc.leaveLocked, if_pos ⟨locked, free⟩, Stc.enterMoving]
  have same : (s.modStc fun x => { x with command := 0 }).modStc (fun x =>
      if (s.modStc fun x => { x with command := 0 }).standing then { x with state := .frozen } else { x with state := .tracking, trackTimer := 0 })
      = s.modStc fun x => if s.standing then { x with state := .frozen, command := 0 }
        else { x with state := .tracking, command := 0, trackTimer := 0 } := by
    show (s.modStc fun x => if s.standing then { x with command := 0, state := .frozen }
      else { x with command := 0, state := .tracking, trackTimer := 0 }) = _
    rfl
  rw [same]
  rfl

theorem leaving_anyLive (s : State) (k : Kind) : s.leaving.anyLive k = s.anyLive k :=
  anyLive_congr (State.live_congr ((command_ilt _ _ _).trans (State.modStc_ilt _ _)))

theorem startCentring_free (free : s.anyLive .steerCentre = false) : Stc.startCentring s = s := if_neg (by simp [free])

/-- R151: LOCKED left at standstill is FROZEN. -/
theorem leaveLocked_frozen (locked : s.stc.state = .locked) (free : s.anyLive .steerCentre = false) (standing : s.standing = true) :
    Stc.leaveLocked s = s.leaving := by
  have stc := leaving_stc s
  rw [if_pos standing] at stc
  have quiet : Stc.judgeLock s.leaving = s.leaving := judgeLock_quiet (by simp [stc])
  rw [leaveLocked_leaves locked free, quiet, startCentring_free (by rw [leaving_anyLive, free])]

/-- R151: LOCKED left in motion is TRACKING, where CL1 is usable or a latch is set. -/
theorem leaveLocked_tracking (locked : s.stc.state = .locked) (free : s.anyLive .steerCentre = false) (moving : s.standing = false)
    (usable : s.stc.latch ≠ none ∨ (s.channelState lockChannel).unusable = false) : Stc.leaveLocked s = s.leaving := by
  have stc := leaving_stc s
  rw [if_neg (by simp [moving])] at stc
  have quiet : Stc.judgeLock s.leaving = s.leaving := by
    rcases usable with latched | usable
    · obtain ⟨q, latched⟩ := Option.ne_none_iff_exists'.mp latched
      unfold Stc.judgeLock
      split
      · exact setLatch_stands (by rw [stc]; exact latched)
      · rfl
    · exact judgeLock_quiet (by rw [leaving_unusable, usable]; simp)
  rw [leaveLocked_leaves locked free, quiet, startCentring_free (by rw [leaving_anyLive, free])]

/-- R141: LOCKED left in motion with a clear latch and an unusable CL1 sets the latch. -/
theorem leaveLocked_latches (locked : s.stc.state = .locked) (free : s.anyLive .steerCentre = false) (moving : s.standing = false)
    (run : s.inRun = true) (clear : s.stc.latch = none) (unusable : (s.channelState lockChannel).unusable = true) :
    Stc.leaveLocked s = Stc.startCentring (Stc.setLatch .lockChannel s.leaving) := by
  have stc := leaving_stc s
  rw [if_neg (by simp [moving])] at stc
  have running : s.leaving.inRun = true := by
    rw [State.inRun, State.leaving, Stc.commandLock, command_cfg, State.modStc_cfg]
    exact run
  rw [leaveLocked_leaves locked free, judgeLock_sets running (by rw [stc]) (by rw [leaving_unusable, unusable])]

theorem startCentring_steerEnds (s : State) : SteerEnds s (Stc.startCentring s) := se_startCentring (.refl s)

/-- What LOCKED leaves where it is left: the command 0 and CL1 on. -/
theorem leaveLocked_command (locked : s.stc.state = .locked) (free : s.anyLive .steerCentre = false) :
    (Stc.leaveLocked s).stc.command = 0 ∧ (Stc.leaveLocked s).lockCommand = 1
      ∧ (s.standing = false → (Stc.leaveLocked s).stc.trackTimer = 0) := by
  have judged : KeepsCommand s.leaving (Stc.judgeLock s.leaving) := by
    unfold Stc.judgeLock
    split
    · exact setLatch_keepsCommand _ _
    · exact ⟨rfl, rfl, id⟩
  have keeps := judged.trans (startCentring_steerEnds (Stc.judgeLock s.leaving)).keepsCommand
  rw [leaveLocked_leaves locked free]
  obtain ⟨command, timer, lock⟩ := keeps
  refine ⟨?_, lock (leaving_lock s), fun moving => ?_⟩
  · rw [command, leaving_stc]
    split <;> rfl
  · rw [timer, leaving_stc, if_neg (by simp [moving])]

end

/-! ## The retirement of a STEER_CENTRE -/

section
variable {s : State} {e : Entry}

/-- The state in which STC judges whether it leaves LOCKED. -/
def State.centreless (e : Entry) (s : State) : State := forgetHandle e.handle (s.dropEntry e.handle)

theorem centreless_beside : (s.centreless e).ilt = (s.dropEntry e.handle).ilt ∧ (s.centreless e).cfg = s.cfg ∧ (s.centreless e).mot = s.mot
    ∧ (s.centreless e).vda = s.vda ∧ (s.centreless e).stc = { s.stc with selfHandle := keptHandle e.handle s.stc.selfHandle } := by
  obtain ⟨ilt, -, -, -, cfg, mot, vda⟩ := forgetHandle_beside e.handle (s.dropEntry e.handle)
  refine ⟨ilt, cfg.trans (State.dropEntry_cfg _ _), mot.trans (State.dropEntry_mot _ _), vda.trans (State.dropEntry_vda _ _), ?_⟩
  rw [State.centreless, (forgetHandle_handles _ _).2.1, State.dropEntry_stc]

theorem retired_centre (kind : e.kind = .steerCentre) (scope : e.scope = .vehicle) (uncovered : e.coveredBy = none)
    (still : s.stc.state ≠ .frozen ∧ s.stc.state ≠ .tracking) : s.retired e = State.finish (Stc.leaveLocked (s.centreless e)) := by
  have dropped : s.retiring e = s.dropEntry e.handle := by
    rw [State.retiring, retireUncovers_plain (by simp [scope]), retireDrops_uncovered uncovered]
  have handed : handOff .retired e (s.dropEntry e.handle) = s.dropEntry e.handle := by
    rw [handOff_steerCentre kind]
    refine if_neg ?_
    rw [State.dropEntry_stc]
    simp [still]
  have plain (u : State) : Dsv.superviseFor e u = u := by
    rw [Dsv.superviseFor, scope]
    rfl
  rw [State.retired, dropped, handOffRetired, handed, plain, if_pos kind]
  rfl

theorem centreless_anyLive (fits : s.ilt.Fits) (resolved : s.resolve e.handle = some e) : (s.centreless e).anyLive .steerCentre = true ↔
    ∃ f ∈ s.live, f.kind = .steerCentre ∧ f.handle ≠ e.handle := by
  rw [State.anyLive, State.live_congr centreless_beside.1, List.any_eq_true]
  simp only [decide_eq_true_eq]
  constructor
  · rintro ⟨f, there, kind⟩
    obtain ⟨before, other⟩ := dropEntry_live_other fits resolved there
    exact ⟨f, before, kind, other⟩
  · rintro ⟨f, there, kind, other⟩
    have resolves := dropEntry_resolve_other (Ne.symm other) (resolve_of_live fits there)
    exact ⟨f, live_of_resolve (iltFits_drop e.handle fits) resolves, kind⟩

theorem finish_stc_still {u : State} (still : u.stc.state ≠ .frozen ∧ u.stc.state ≠ .tracking ∨ u.anyLive .steerCentre = false) :
    (State.finish u).stc.state = u.stc.state := by
  rcases (finish_steerEnds u).state with ⟨same, -⟩ | ⟨from', live, -⟩
  · exact same
  · rcases still with ⟨frozen, tracking⟩ | free
    · exact absurd from' (by simp [frozen, tracking])
    · rw [free] at live
      exact absurd live (by simp)

end

end Sys2Proof.Machine
end

