-- ==== Sys2Proof/Proofs/RetiredSteering.lean ====
section
/-! PROOF. The steering after the retirement of a STEER_CENTRE -/

namespace Sys2Proof.Machine

section
variable {s : State} {e : Entry}

/-- R150, R151: STC leaves LOCKED with the last STEER_CENTRE, and no other steering state ends here. -/
theorem retired_keeps_state (fits : s.ilt.Fits) (resolved : s.resolve e.handle = some e) (kind : e.kind = .steerCentre)
    (scope : e.scope = .vehicle) (uncovered : e.coveredBy = none)
    (state : s.stc.state = .parked ∨ s.stc.state = .centring ∨ s.stc.state = .passive
      ∨ (s.stc.state = .locked ∧ ∃ f ∈ s.live, f.kind = .steerCentre ∧ f.handle ≠ e.handle)) :
    (s.retired e).stc.state = s.stc.state := by
  have still : s.stc.state ≠ .frozen ∧ s.stc.state ≠ .tracking := by
    rcases state with st | st | st | ⟨st, -⟩ <;> simp [st]
  obtain ⟨-, -, -, -, stc⟩ := centreless_beside (s := s) (e := e)
  have same : (s.centreless e).stc.state = s.stc.state := by rw [stc]
  have stays : Stc.leaveLocked (s.centreless e) = s.centreless e := by
    refine leaveLocked_stays ?_
    rw [same, centreless_anyLive fits resolved]
    rcases state with st | st | st | ⟨-, others⟩
    · simp [st]
    · simp [st]
    · simp [st]
    · exact .inr others
  rw [retired_centre kind scope uncovered still, stays, finish_stc_still (.inl (by rwa [same])), same]

theorem finish_keepsCommand (u : State) : KeepsCommand u (State.finish u) := (finish_steerEnds u).keepsCommand

/-- What the retirement of the last STEER_CENTRE leaves of LOCKED. -/
theorem retired_leaves (run : s.cfg.device = .run) (fits : s.ilt.Fits) (resolved : s.resolve e.handle = some e) (kind : e.kind = .steerCentre)
    (scope : e.scope = .vehicle) (uncovered : e.coveredBy = none) (locked : s.stc.state = .locked)
    (last : ¬ ∃ f ∈ s.live, f.kind = .steerCentre ∧ f.handle ≠ e.handle) :
    (s.retired e).stc.command = 0 ∧ (s.retired e).lockCommand = 1
      ∧ (s.mot.motion = .standstill → (s.retired e).stc.state = .frozen ∧ (s.retired e).stc.latch = s.stc.latch)
      ∧ (s.mot.motion ≠ .standstill → (s.retired e).stc.trackTimer = 0
        ∧ (s.stc.latch ≠ none ∨ ¬ (s.channelState lockChannel).unusable = true →
          (s.retired e).stc.state = .tracking ∧ (s.retired e).stc.latch = s.stc.latch)
        ∧ (s.stc.latch = none → (s.channelState lockChannel).unusable = true →
          (s.retired e).stc.latch = some .lockChannel ∧ (s.retired e).flagged 7
          ∧ (s.stc.selfHandle = none → (∃ i : Fin 24, 18 ≤ i.val ∧ (rd s.ilt.slots i).entry = none) →
            (s.retired e).stc.state = .centring))) := by
  obtain ⟨ilt, cfg, mot, vda, stc⟩ := centreless_beside (s := s) (e := e)
  let u := s.centreless e
  have lockedU : u.stc.state = .locked := by simp only [u, stc, locked]
  have latchU : u.stc.latch = s.stc.latch := by simp only [u, stc]
  have freeU : u.anyLive .steerCentre = false := Bool.eq_false_iff.mpr (mt (centreless_anyLive fits resolved).mp last)
  have standing : u.standing = true ↔ s.mot.motion = .standstill := by rw [standing_iff, mot]
  have channel : u.channelState lockChannel = s.channelState lockChannel := by rw [State.channelState, vda, State.channelState]
  have ended : s.retired e = State.finish (Stc.leaveLocked u) := retired_centre kind scope uncovered (by simp [locked])
  have leavingFree : u.leaving.anyLive .steerCentre = false := by rw [leaving_anyLive, freeU]
  have latchEnds (w : State) : (State.finish w).stc.latch = w.stc.latch := (finish_steerEnds w).latch
  have leavingLatch : u.leaving.stc.latch = u.stc.latch := by
    rw [leaving_stc]
    split <;> rfl
  obtain ⟨command, lock, timer⟩ := leaveLocked_command lockedU freeU
  obtain ⟨command', timer', lock'⟩ := finish_keepsCommand (Stc.leaveLocked u)
  rw [ended]
  refine ⟨command'.trans command, lock' lock, fun standstill => ?_, fun moves => ⟨timer'.trans (timer ?_), fun usable => ?_, fun clear unusable => ?_⟩⟩
  · have stand := standing.mpr standstill
    rw [leaveLocked_frozen lockedU freeU stand]
    refine ⟨?_, ?_⟩
    · rw [finish_stc_still (.inr leavingFree), leaving_stc, if_pos stand]
    · rw [latchEnds, leavingLatch, latchU]
  · exact Bool.eq_false_iff.mpr (mt standing.mp moves)
  · have moving : u.standing = false := Bool.eq_false_iff.mpr (mt standing.mp moves)
    rw [leaveLocked_tracking lockedU freeU moving (by rw [latchU, channel]; simpa using usable)]
    refine ⟨?_, ?_⟩
    · rw [finish_stc_still (.inr leavingFree), leaving_stc, if_neg (by simp [moving])]
    · rw [latchEnds, leavingLatch, latchU]
  · have moving : u.standing = false := Bool.eq_false_iff.mpr (mt standing.mp moves)
    have runU : u.inRun = true := by
      rw [State.inRun, cfg]
      exact inRun_iff.mpr run
    rw [leaveLocked_latches lockedU freeU moving runU (by rw [latchU, clear]) (by rw [channel, unusable])]
    have clear' : u.leaving.stc.latch = none := by rw [leavingLatch, latchU, clear]
    obtain ⟨latched, posted⟩ := setLatch_takes .lockChannel clear'
    have centring := startCentring_steerEnds (Stc.setLatch .lockChannel u.leaving)
    refine ⟨?_, ?_, fun unheld free => ?_⟩
    · rw [latchEnds, centring.latch, latched]
    · exact finish_flagged ((ev_startCentring .refl).flagged posted)
    · have tracking : u.leaving.stc.state = .tracking := by rw [leaving_stc, if_neg (by simp [moving])]
      have runL : u.leaving.inRun = true := by
        rw [State.inRun, State.leaving, Stc.commandLock, command_cfg, State.modStc_cfg]
        exact runU
      have iltL : u.leaving.ilt = u.ilt := (command_ilt _ _ _).trans (State.modStc_ilt _ _)
      have opens : u.leaving.CentreOpens := by
        refine ⟨?_, ?_, fun f there is => ?_⟩
        · rw [leaving_stc, if_neg (by simp [moving])]
          show u.stc.selfHandle = none
          simp only [u, stc, unheld]
          exact if_neg (by simp)
        · obtain ⟨i, high, empty⟩ := free
          exact ⟨i, high, by rw [iltL, ilt, dropEntry_slot_empty empty, empty]⟩
        · have live : u.leaving.anyLive .steerCentre = true := List.any_eq_true.mpr ⟨f, there, decide_eq_true is.2⟩
          rw [leavingFree] at live
          exact absurd live (by simp)
      obtain ⟨-, turns, -⟩ := setLatch_opens .lockChannel clear' runL opens
      have entered : (Stc.setLatch .lockChannel u.leaving).stc.state = .centring := by rw [(turns.entered (.inr tracking)).1]
      have stays : Stc.startCentring (Stc.setLatch .lockChannel u.leaving) = Stc.setLatch .lockChannel u.leaving := if_neg (by simp [entered])
      rw [stays, finish_stc_still (.inl (by simp [entered])), entered]

end

end Sys2Proof.Machine
end

