-- ==== Sys2Proof/Proofs/RetiredDoor.lean ====
section
/-! PROOF. The supervision of a door after the retirement of its entry (R68) -/

namespace Sys2Proof.Machine

/-! ## A door becomes UNCLAIMED (R68, R69) -/

section
variable {s : State} {d : Fin 4}

theorem openSelf_dsv (k : Kind) (sc : Scope) (p : Option Nat) (s : State) : (openSelf k sc p s).1.dsv = s.dsv := by
  unfold openSelf
  split
  case isFalse => rfl
  case isTrue =>
    split
    · rfl
    · split
      · rfl
      · exact (handOff_blocks .opened _ _).dsv.trans (State.placeEntry_dsv _ _ _)

/-- A door that becomes UNCLAIMED is reported, and DSV asks for an entry where it holds none. -/
theorem supervise_unclaims (run : s.inRun = true) (fitted : s.fitted d = true) (now : s.supervisionOf d = .unclaimed)
    (before : (rd s.dsv.doors d).supervision ≠ .unclaimed) : Dsv.supervise d s = State.post
      (.doorUnclaimed d (rd (Dsv.askEntry d (s.withSupervision d .unclaimed)).dsv.doors d).selfHandle)
      (Dsv.askEntry d (s.withSupervision d .unclaimed)) := by
  unfold Dsv.supervise
  rw [if_pos ⟨run, fitted⟩]
  dsimp only
  rw [now, if_pos ⟨rfl, before⟩]
  rfl

theorem dsvAskEntry_held (held : (rd s.dsv.doors d).selfHandle ≠ none) : Dsv.askEntry d s = s := if_neg held

theorem dsvAskEntry_asks (unheld : (rd s.dsv.doors d).selfHandle = none) : Dsv.askEntry d s =
    Dsv.changeDoor d (fun x => { x with selfHandle := (openSelf .doorOpen (.door d) none s).2 }) (openSelf .doorOpen (.door d) none s).1 :=
  if_pos unheld

theorem dsvAskEntry_supervision (d : Fin 4) (s : State) : (rd (Dsv.askEntry d s).dsv.doors d).supervision = (rd s.dsv.doors d).supervision := by
  by_cases unheld : (rd s.dsv.doors d).selfHandle = none
  · rw [dsvAskEntry_asks unheld, changeDoor_door, if_pos rfl, openSelf_dsv]
  · rw [dsvAskEntry_held unheld]

/-- DSV holds a SELF DOOR_OPEN for the door. -/
def State.HoldsDoor (d : Fin 4) (s : State) : Prop :=
  ∃ h f, (rd s.dsv.doors d).selfHandle = some h ∧ s.resolve h = some f ∧ f.owner = 15 ∧ f.kind = .doorOpen ∧ f.scope = .door d

/-- A SELF DOOR_OPEN for the door can be opened: there is none, and a slot of the part's own is free. -/
structure State.DoorOpens (d : Fin 4) (s : State) : Prop where
  none_held : (rd s.dsv.doors d).selfHandle = none
  free : ∃ i : Fin 24, 18 ≤ i.val ∧ (rd s.ilt.slots i).entry = none
  none_live : ∀ f ∈ s.live, f.owner = 15 → f.kind = .doorOpen → f.scope ≠ .door d

theorem dsvAskEntry_opens (run : s.inRun = true) (opens : s.DoorOpens d) : (Dsv.askEntry d s).HoldsDoor d := by
  have clear : (s.live.find? fun e => e.isSelf && decide (e.kind = .doorOpen ∧ e.scope = .door d)) = none := by
    refine List.find?_eq_none.mpr fun e live => ?_
    simp only [Entry.isSelf, Bool.and_eq_true, decide_eq_true_eq, not_and]
    exact opens.none_live e live
  obtain ⟨slot, free⟩ : ∃ slot, s.freeSlot 18 24 = some slot := by
    obtain ⟨i, above, empty⟩ := opens.free
    exact freeSlot_exists ⟨i, ⟨above, i.isLt⟩, empty⟩
  have placed := openSelf_places (k := .doorOpen) (sc := .door d) (p := none) run clear free
  refine ⟨s.handleOf slot, s.newEntry .doorOpen 15 0 (.door d) none 0 (s.handleOf slot), ?_, ?_, rfl, rfl, rfl⟩
  · rw [dsvAskEntry_asks opens.none_held, changeDoor_door, if_pos rfl, placed]
  · rw [dsvAskEntry_asks opens.none_held, placed]
    exact (resolve_congr (handOff_blocks .opened _ _).ilt _).trans (placeEntry_resolve _ _ _)

theorem finish_holdsDoor (h : s.HoldsDoor d) : (State.finish s).HoldsDoor d := by
  obtain ⟨n, f, held, resolved, owner, kind, scope⟩ := h
  obtain ⟨g, after, reviewed⟩ := (finish_reviewed s).resolve resolved
  have record := reviewed.record
  simp only [Entry.record, Prod.mk.injEq] at record
  obtain ⟨-, sameKind, sameOwner, -, sameScope, -, -⟩ := record
  exact ⟨n, g, (finish_door s d).2.trans held, after, sameOwner.trans owner, sameKind.trans kind, sameScope.trans scope⟩

/-- What a derivation leaves of a door that becomes UNCLAIMED. -/
theorem supervise_becomes (run : s.inRun = true) (fitted : s.fitted d = true) (now : s.supervisionOf d = .unclaimed)
    (before : (rd s.dsv.doors d).supervision ≠ .unclaimed) :
    (rd (Dsv.supervise d s).dsv.doors d).supervision = .unclaimed ∧ (Dsv.supervise d s).flagged 2
      ∧ (s.DoorOpens d → (Dsv.supervise d s).HoldsDoor d) := by
  have same := supervise_unclaims run fitted now before
  refine ⟨?_, ?_, fun opens => ?_⟩
  · rw [same, State.post_dsv, dsvAskEntry_supervision, withSupervision_door]
  · rw [same]
    exact post_flagged_self _ _
  · have opens' : (s.withSupervision d .unclaimed).DoorOpens d :=
      ⟨by rw [withSupervision_door]; exact opens.none_held, opens.free, opens.none_live⟩
    obtain ⟨n, f, held, resolved, is⟩ := dsvAskEntry_opens (s := s.withSupervision d .unclaimed) run opens'
    rw [same]
    exact ⟨n, f, by rwa [State.post_dsv], by rwa [resolve_congr (State.post_ilt _ _)], is⟩

/-- What the end of an event shows of a door that became UNCLAIMED. -/
theorem supervise_unclaimed (run : s.inRun = true) (fitted : s.fitted d = true) (now : s.supervisionOf d = .unclaimed)
    (before : (rd s.dsv.doors d).supervision ≠ .unclaimed) :
    (rd (State.finish (Dsv.supervise d s)).dsv.doors d).supervision = .unclaimed ∧ (State.finish (Dsv.supervise d s)).flagged 2
      ∧ (s.DoorOpens d → (State.finish (Dsv.supervise d s)).HoldsDoor d) := by
  obtain ⟨supervision, posted, opens⟩ := supervise_becomes run fitted now before
  exact ⟨(finish_door _ d).1.trans supervision, finish_flagged posted, fun h => finish_holdsDoor (opens h)⟩

theorem supervisionOf_unclaimed (clear : s.partnerClaims d = false) (unshut : (rd s.dsv.doors d).contact.debounced = false) :
    s.supervisionOf d = .unclaimed := by
  rw [State.supervisionOf, if_neg (by simp [clear]), if_pos unshut]

end

/-! ## The retirement of a door entry -/

section
variable {s : State} {e : Entry}

theorem partnerDoor_iff (f : Entry) : f.partnerDoor = true ↔ f.owner ≠ 15 ∧ (f.kind = .doorOpen ∨ f.kind = .rampOut) := by
  simp [Entry.partnerDoor, Entry.isSelf, Kind.isDoor]

theorem retired_door {d : Fin 4} (run : s.cfg.device = .run) (fits : s.ilt.Fits) (resolved : s.resolve e.handle = some e)
    (kind : e.kind = .doorOpen ∨ e.kind = .rampOut) (scope : e.scope = .door d) (fitted : d.val < s.cfg.settings.doorCount)
    (unshut : (rd s.dsv.doors d).contact.debounced = false) (before : (rd s.dsv.doors d).supervision ≠ .unclaimed)
    (last : ∀ f ∈ s.live, f.owner ≠ 15 → f.kind = .doorOpen ∨ f.kind = .rampOut → f.scope = .door d → f.handle = e.handle) :
    (rd (s.retired e).dsv.doors d).supervision = .unclaimed ∧ (s.retired e).flagged 2
      ∧ ((rd s.dsv.doors d).selfHandle = none → (∃ i : Fin 24, 18 ≤ i.val ∧ (rd s.ilt.slots i).entry = none) →
        (∀ f ∈ s.live, f.owner = 15 → f.kind = .doorOpen → f.scope ≠ .door d) → (s.retired e).HoldsDoor d) := by
  let w := forgetHandle e.handle (handOff .retired e (s.retireDrops e))
  have plain : s.retiring e = s.retireDrops e := retireUncovers_plain (by simp [scope]) _
  have other : e.kind ≠ .steerCentre := by rcases kind with kind | kind <;> simp [kind]
  have ended : s.retired e = State.finish (Dsv.supervise d w) := by
    rw [State.retired, plain, handOffRetired, if_neg other, Dsv.superviseFor, scope]
    exact congrArg State.finish (if_pos (isDoor_iff.mpr kind))
  have blocks := handOff_blocks .retired e (s.retireDrops e)
  obtain ⟨-, -, dsv, cfg, -, -⟩ := retireDrops_beside (s := s) (e := e)
  obtain ⟨ilt, -, -, -, cfg', -, -⟩ := forgetHandle_beside e.handle (handOff .retired e (s.retireDrops e))
  have cfgW : w.cfg = s.cfg := cfg'.trans (blocks.cfg.trans cfg)
  have iltW : w.ilt = (s.retireDrops e).ilt := ilt.trans blocks.ilt
  have doorW : rd w.dsv.doors d = { rd s.dsv.doors d with selfHandle := keptHandle e.handle (rd s.dsv.doors d).selfHandle } := by
    rw [(forgetHandle_handles _ _).2.2 d, blocks.dsv, dsv]
  have liveW (f : Entry) (there : f ∈ w.live) : f ∈ s.live ∧ f.handle ≠ e.handle := by
    rw [State.live_congr iltW] at there
    exact dropEntry_live_other fits resolved (retireDrops_live_sub there)
  have clear : w.partnerClaims d = false := by
    refine Bool.eq_false_iff.mpr fun claims => ?_
    obtain ⟨f, there, is⟩ := List.any_eq_true.mp claims
    obtain ⟨door, scope⟩ := Bool.and_eq_true_iff.mp is
    obtain ⟨owner, kind⟩ := (partnerDoor_iff f).mp door
    obtain ⟨live, apart⟩ := liveW f there
    exact apart (last f live owner kind (of_decide_eq_true scope))
  have runW : w.inRun = true := by
    rw [State.inRun, cfgW]
    exact inRun_iff.mpr run
  have fittedW : w.fitted d = true := by
    rw [State.fitted, cfgW]
    exact decide_eq_true fitted
  obtain ⟨supervision, posted, opens⟩ := supervise_unclaimed runW fittedW (supervisionOf_unclaimed clear (by rw [doorW]; exact unshut))
    (by rw [doorW]; exact before)
  rw [ended]
  refine ⟨supervision, posted, fun unheld ⟨i, high, empty⟩ none_live => opens ⟨?_, ⟨i, high, ?_⟩, fun f there => none_live f (liveW f there).1⟩⟩
  · simp [doorW, unheld, keptHandle]
  · have dropped : rd (s.dropEntry e.handle).ilt.slots i = rd s.ilt.slots i := dropEntry_slot_empty empty
    rw [iltW]
    cases covered : e.coveredBy with
    | none => rw [retireDrops_uncovered covered, dropped, empty]
    | some o => rw [retireDrops_covered covered, State.post_ilt, dropEntry_slot_empty (by rw [dropped, empty]), dropped, empty]

end

end Sys2Proof.Machine
end

