-- ==== Sys2Proof/Proofs/RetireStatement.lean ====
section
/-! PROOF. RETIRE and its right (R58 to R61) -/

namespace Sys2Proof.Machine

/-! ## RETIRE's answer (R58) -/

section
variable {x : Sender} {s : State} {handle : Nat} {e : Entry}

theorem requestRetire_outside_run (known : s.knows x) (out : s.cfg.device ≠ .run) :
    requestRetire x.partner handle s = (s, s.notReady) := ifEntry_outside_run known out _ _

theorem requestRetire_refused (known : s.knows x) (run : s.cfg.device = .run) (resolved : s.resolve handle = some e) {a : Answer}
    (refused : s.retireRight x.partner e = some a) : requestRetire x.partner handle s = (s, a) := by
  rw [requestRetire, ifEntry_resolved known run resolved, refused]

theorem requestRetire_taken (known : s.knows x) (run : s.cfg.device = .run) (resolved : s.resolve handle = some e)
    (right : s.retireRight x.partner e = none) :
    requestRetire x.partner handle s = (s.retired e, .accepted (some handle) none AnswerFlags.none 0 0 0) := by
  rw [requestRetire, ifEntry_resolved known run resolved, right, ← retired_eq]

end

/-! ## The right to retire (R59, R60) -/

section
variable {s : State} {p : Fin 16} {e : Entry}

theorem retireRight_owner (other : e.owner ≠ 15) (owner : e.owner = p) : s.retireRight p e = none := by
  rw [State.retireRight, if_neg (by simpa [Entry.isSelf] using other), if_pos owner]

theorem retireRight_partner (other : e.owner ≠ 15) (apart : e.owner ≠ p) :
    s.retireRight p e = s.partnerRight (s.record p).authority e := by
  rw [State.retireRight, if_neg (by simpa [Entry.isSelf] using other), if_neg apart]

theorem retireRight_self (self : e.owner = 15) : s.retireRight p e = s.selfRight (s.record p).authority e :=
  if_pos (decide_eq_true self)

variable {rank : Nat}

theorem partnerRight_ranked (kind : e.kind = .kneel ∨ e.kind = .stopHold ∨ e.kind = .raise ∨ e.kind = .steerCentre) :
    s.partnerRight rank e = if rank < e.authority then none else some (.because .notOwner .authorityRank) := by
  rcases kind with kind | kind | kind | kind <;> simp only [State.partnerRight, kind]

theorem partnerRight_door (kind : e.kind = .doorOpen ∨ e.kind = .rampOut) :
    s.partnerRight rank e = if e.authority ≤ rank then some (.because .notOwner .authorityRank)
      else if e.state.follows then some (.because .notOwner .notStale)
      else if s.contactClosed e then none else some (.because .notOwner .contactOpen) := by
  rcases kind with kind | kind <;> simp only [State.partnerRight, kind]

theorem partnerRight_override (kind : e.kind = .override) : s.partnerRight rank e =
    if rank < e.authority ∧ rank = 0 then none else some (.because .notOwner .authorityRank) := by
  simp only [State.partnerRight, kind]

theorem partnerRight_serviceLock (kind : e.kind = .serviceLock) : s.partnerRight rank e = some (.because .notOwner .ownerOnly) := by
  simp only [State.partnerRight, kind]

theorem selfRight_doorOpen (kind : e.kind = .doorOpen) : s.selfRight rank e =
    if 1 < rank then some (.because .notOwner .authorityRank)
    else if s.contactClosed e then none else some (.because .notOwner .contactOpen) := by
  simp only [State.selfRight, kind]

theorem selfRight_stopHold (kind : e.kind = .stopHold) : s.selfRight rank e =
    if 1 < rank then some (.because .notOwner .authorityRank) else none := by
  simp only [State.selfRight, kind]

theorem selfRight_steerCentre (kind : e.kind = .steerCentre) : s.selfRight rank e =
    if s.stc.latch.isSome then some (.no .notClearable) else some (.because .notOwner .ownerOnly) := by
  simp only [State.selfRight, kind]

theorem contactClosed_of (closed : ∃ d, e.scope = .door d ∧ rd s.ilt.contacts d = true) : s.contactClosed e = true := by
  obtain ⟨d, scope, shut⟩ := closed
  rw [contactClosed_door scope, shut]

theorem contactClosed_of_opened (opened : ∃ d, e.scope = .door d ∧ rd s.ilt.contacts d = false) : ¬ s.contactClosed e = true := by
  obtain ⟨d, scope, unshut⟩ := opened
  simp [contactClosed_door scope, unshut]

end

/-- R59 and R60, kind by kind. -/
theorem retireRight_ranks (s : State) (p : Fin 16) (e : Entry) :
    let rank := (s.record p).authority
    let given := s.retireRight p e = none
    let turned := fun sub : SubReason => s.retireRight p e = some (.refused .notOwner none sub 0 0)
    let closed := ∃ d, e.scope = .door d ∧ rd s.ilt.contacts d = true
    let opened := ∃ d, e.scope = .door d ∧ rd s.ilt.contacts d = false
    (e.owner ≠ 15 → e.owner ≠ p →
      (e.kind = .kneel ∨ e.kind = .stopHold ∨ e.kind = .raise ∨ e.kind = .steerCentre →
        (rank < e.authority → given) ∧ (e.authority ≤ rank → turned .authorityRank))
      ∧ (e.kind = .doorOpen ∨ e.kind = .rampOut →
        (e.authority ≤ rank → turned .authorityRank)
        ∧ (rank < e.authority → (e.state = .waiting ∨ e.state = .active → turned .notStale)
          ∧ (e.state = .stale ∨ e.state = .covered → (closed → given) ∧ (opened → turned .contactOpen))))
      ∧ (e.kind = .override → (rank = 0 → rank < e.authority → given) ∧ (rank ≠ 0 ∨ e.authority ≤ rank → turned .authorityRank))
      ∧ (e.kind = .serviceLock → turned .ownerOnly))
    ∧ (e.owner = 15 →
      (e.kind = .doorOpen → (1 < rank → turned .authorityRank)
        ∧ (rank ≤ 1 → (closed → given) ∧ (opened → turned .contactOpen)))
      ∧ (e.kind = .stopHold → (1 < rank → turned .authorityRank) ∧ (rank ≤ 1 → given))
      ∧ (e.kind = .steerCentre → (s.stc.latch = none → turned .ownerOnly)
        ∧ (s.stc.latch ≠ none → s.retireRight p e = some (.refused .notClearable none .none 0 0)))) := by
  refine ⟨fun other apart => ?_, fun self => ?_⟩
  · dsimp only
    rw [retireRight_partner other apart]
    refine ⟨fun kind => ?_, fun kind => ?_, fun kind => ?_, fun kind => ?_⟩
    · rw [partnerRight_ranked kind]
      exact ⟨fun below => if_pos below, fun above => if_neg (by omega)⟩
    · rw [partnerRight_door kind]
      refine ⟨fun above => if_pos above, fun below => ?_⟩
      rw [if_neg (by omega)]
      refine ⟨fun shown => if_pos (decide_eq_true shown), fun stopped => ?_⟩
      have unfollowed : ¬ e.state.follows = true := by rcases stopped with st | st <;> simp [EntryState.follows, st]
      rw [if_neg unfollowed]
      exact ⟨fun closed => if_pos (contactClosed_of closed), fun opened => if_neg (contactClosed_of_opened opened)⟩
    · rw [partnerRight_override kind]
      exact ⟨fun zero below => if_pos ⟨below, zero⟩, fun lacks => if_neg fun ⟨below, zero⟩ => by omega⟩
    · exact partnerRight_serviceLock kind
  · dsimp only
    rw [retireRight_self self]
    refine ⟨fun kind => ?_, fun kind => ?_, fun kind => ?_⟩
    · rw [selfRight_doorOpen kind]
      refine ⟨fun above => if_pos above, fun low => ?_⟩
      rw [if_neg (by omega)]
      exact ⟨fun closed => if_pos (contactClosed_of closed), fun opened => if_neg (contactClosed_of_opened opened)⟩
    · rw [selfRight_stopHold kind]
      exact ⟨fun above => if_pos above, fun low => if_neg (by omega)⟩
    · rw [selfRight_steerCentre kind]
      exact ⟨fun clear => if_neg (by simp [clear]), fun set => if_pos (Option.isSome_iff_ne_none.mpr set)⟩

/-- Settles O20. -/
theorem retireFreesSlot : Obligations.RetireFreesSlot := by
  unfold Obligations.RetireFreesSlot
  refine ⟨fun x tag handle s heard known out => ?_, fun x tag handle s e heard known run fits resolved => ?_, retireRight_ranks⟩
  · rw [exec_retire_heard heard, requestRetire_outside_run known out]
    rfl
  have named := handle_of_resolve fits resolved
  refine ⟨fun owner => retireRight_owner (by rw [owner]; exact partner_ne_self_of_hears heard) owner, fun a refused => ?_, fun right => ?_⟩
  · rw [exec_retire_heard heard, requestRetire_refused known run resolved refused]
  have answered : exec (.retire x tag handle) s = .next ((s.retired e).reply x tag
      (.accepted (some handle.toNat) none AnswerFlags.none 0 0 0)) := by
    rw [exec_retire_heard heard, requestRetire_taken known run resolved right]
  refine ⟨s.retired e, answered, ?_⟩
  rw [← named] at resolved ⊢
  have evaluated : (s.retired e).Evaluated := finish_evaluated _
  have base : SameBase s (s.retired e) := by
    rw [← retired_eq]
    exact (ev_finish (ev_retireEntry none e .refl)).base
  exact ⟨retired_resolve resolved, fun i place => retired_slot fits resolved place,
    fun i other uncovering there => retired_slot_other other uncovering there, fun o f covered there => retired_override resolved covered there,
    fun t g scope there covered other uncovering =>
      have target := retired_target scope there covered other uncovering
      ⟨target.1, fun door => target.2 ((holds_iff _).mpr (by tauto))⟩,
    fun kind => retired_keeps holdsFit_blockFit ((holds_iff _).mpr kind),
    fun kind => retired_keeps ridesFit_blockFit (rides_iff.mpr kind),
    fun kind => ⟨retired_keeps freezesFit_blockFit (decide_eq_true kind), fun c => (retired_follows.corners c).followsReasons⟩,
    fun kind scope uncovered => ⟨retired_keeps_state fits resolved kind scope uncovered,
      retired_leaves run fits resolved kind scope uncovered⟩,
    fun d _ kind scope fitted unshut before last => retired_door run fits resolved kind scope fitted unshut before last,
    retired_forgets fits resolved, evaluated, base⟩

end Sys2Proof.Machine
end

