-- ==== Sys2Proof/Proofs/OwnReasons.lean ====
section
/-! PROOF. A retirement for a reason of the part's own, and LOCKED left with the latch clear -/

namespace Sys2Proof.Machine

/-! ## A retirement for a reason of the part's own -/

section
variable {s : State} {e : Entry}

/-- The notice of a retirement and the drop of its entry come in either order. -/
theorem retireEntry_some (r : RetireReason) (e : Entry) (s : State) :
    retireEntry (some r) e s = retireEntry none e (s.post (.partRetired e.handle r)) := by
  have commutes : (s.dropEntry e.handle).post (.partRetired e.handle r) = (s.post (.partRetired e.handle r)).dropEntry e.handle := by
    unfold State.dropEntry
    rw [resolve_congr (State.post_ilt _ _)]
    split
    · split <;> rfl
    · rfl
  unfold retireEntry
  dsimp only
  rw [commutes]

theorem post_resolve (n : Notice) (s : State) (h : Nat) : (s.post n).resolve h = s.resolve h := resolve_congr (State.post_ilt _ _) h

theorem post_live (n : Notice) (s : State) : (s.post n).live = s.live := State.live_congr (State.post_ilt _ _)

theorem Evolves.unusable {t : State} (h : Evolves s t) (ch : Fin 18) :
    (t.channelState ch).unusable = (s.channelState ch).unusable := by
  refine h.channel (P := fun c => c.state.unusable = (s.channelState ch).unusable) (fun now v c same => ?_) ch rfl
  rw [← same]
  unfold Channel.take Channel.follow Channel.switchOn Channel.switchOff ChannelState.driven ChannelState.unusable
  grind

end

/-! ## The steering through hand-offs and openings of other kinds -/

/-- STC keeps all but the window, or it has gone from FROZEN or TRACKING into CENTRING. -/
def SteerMoves (s t : State) : Prop :=
  ∃ w, (t.stc = { s.stc with windowOpen := w } ∧ t.lockCommand = s.lockCommand)
    ∨ ((s.stc.state = .frozen ∨ s.stc.state = .tracking)
      ∧ t.stc = { s.stc with state := .centring, centringTimer := 0, windowOpen := w } ∧ t.lockCommand = 1)

section
variable {s t u : State}

theorem SteerMoves.of_same (stc : t.stc = s.stc) (vda : t.vda = s.vda) : SteerMoves s t :=
  ⟨s.stc.windowOpen, .inl ⟨stc, by rw [State.lockCommand, vda, State.lockCommand]⟩⟩

theorem SteerMoves.refl (s : State) : SteerMoves s s := .of_same rfl rfl

theorem SteerEnds.moves (h : SteerEnds s t) : SteerMoves s t := by
  obtain ⟨-, w, same | ⟨from', -, entered⟩⟩ := h
  · exact ⟨w, .inl same⟩
  · exact ⟨w, .inr ⟨from', entered⟩⟩

theorem SteerMoves.trans (h : SteerMoves s t) (k : SteerMoves t u) : SteerMoves s u := by
  obtain ⟨w, ⟨same, lock⟩ | ⟨from', entered, lock⟩⟩ := h
  · obtain ⟨w', ⟨same', lock'⟩ | ⟨from', entered, lock'⟩⟩ := k
    · exact ⟨w', .inl ⟨by rw [same', same], lock'.trans lock⟩⟩
    · exact ⟨w', .inr ⟨by rwa [same] at from', by rw [entered, same], lock'⟩⟩
  · obtain ⟨w', ⟨same', lock'⟩ | ⟨from'', -, -⟩⟩ := k
    · exact ⟨w', .inr ⟨from', by rw [same', entered], lock'.trans lock⟩⟩
    · rw [entered] at from''
      exact absurd from'' (by simp)

/-- What every such move keeps. -/
theorem SteerMoves.keeps (h : SteerMoves s t) : t.stc.latch = s.stc.latch ∧ t.stc.selfHandle = s.stc.selfHandle
    ∧ t.stc.disagreeTimer = s.stc.disagreeTimer ∧ t.stc.trackTimer = s.stc.trackTimer := by
  obtain ⟨w, ⟨same, -⟩ | ⟨-, same, -⟩⟩ := h <;> exact ⟨by rw [same], by rw [same], by rw [same], by rw [same]⟩

theorem SteerMoves.stays (h : SteerMoves s t) (still : s.stc.state ≠ .frozen ∧ s.stc.state ≠ .tracking) :
    t.stc.state = s.stc.state ∧ t.stc.centringTimer = s.stc.centringTimer ∧ t.lockCommand = s.lockCommand := by
  obtain ⟨w, ⟨same, lock⟩ | ⟨from', -⟩⟩ := h
  · exact ⟨by rw [same], by rw [same], lock⟩
  · exact absurd from' (by simp [still])

theorem SteerMoves.locked (h : SteerMoves s t) (locked : t.stc.state = .locked) : s.stc.state = .locked := by
  obtain ⟨w, ⟨same, -⟩ | ⟨-, same, -⟩⟩ := h
  · rwa [same] at locked
  · rw [same] at locked
    exact absurd locked (by simp)

theorem openSelf_moves (k : Kind) (sc : Scope) (p : Option Nat) (s : State) : SteerMoves s (openSelf k sc p s).1 := by
  unfold openSelf
  split
  case isFalse => exact .refl s
  case isTrue =>
    split
    · exact .refl s
    · split
      · exact .refl s
      · next slot _ =>
        exact (SteerMoves.of_same (t := s.placeEntry slot (s.newEntry k 15 0 sc p 0)) (State.placeEntry_stc _ _ _)
          (State.placeEntry_vda _ _ _)).trans (handOff_steerEnds .opened _ _).moves

theorem dsvAskEntry_moves (d : Fin 4) (s : State) : SteerMoves s (Dsv.askEntry d s) := by
  unfold Dsv.askEntry
  split
  · exact (openSelf_moves _ _ _ s).trans (.of_same rfl rfl)
  · exact .refl s

theorem supervise_moves (d : Fin 4) (s : State) : SteerMoves s (Dsv.supervise d s) := by
  unfold Dsv.supervise
  split
  · have derived : SteerMoves s (s.withSupervision d (s.supervisionOf d)) := .of_same rfl rfl
    dsimp only
    split
    · refine derived.trans ((dsvAskEntry_moves d _).trans (.of_same (State.post_stc _ _) (State.post_vda _ _)))
    · exact derived
  · exact .refl s

theorem superviseFor_moves (e : Entry) (s : State) : SteerMoves s (Dsv.superviseFor e s) := by
  unfold Dsv.superviseFor
  split
  · split
    · exact supervise_moves _ s
    · exact .refl s
  · exact .refl s

theorem retireDrops_moves (e : Entry) (s : State) : SteerMoves s (s.retireDrops e) := by
  obtain ⟨-, stc, -, -, -, vda⟩ := retireDrops_beside (s := s) (e := e)
  exact .of_same stc vda

theorem retireUncovers_moves (e : Entry) (s : State) : SteerMoves s (s.retireUncovers e) := by
  unfold State.retireUncovers
  split
  · next target _ =>
    obtain same | ⟨g, -, -, same⟩ := uncover_cases target s
    · rw [same]
      exact .refl s
    · rw [same]
      exact (SteerMoves.of_same (State.updEntry_stc _ _ _) (State.updEntry_vda _ _ _)).trans (handOff_steerEnds .changed g _).moves
  all_goals exact .refl s

theorem retiring_moves (e : Entry) (s : State) : SteerMoves s (s.retiring e) :=
  (retireDrops_moves e s).trans (retireUncovers_moves e _)

end

/-! ## What LOCKED left keeps of the latch -/

section
variable {s : State}

/-- Where LOCKED is left with the latch clear: it is set only in motion with an unusable CL1 (R141, R151). -/
theorem leaveLocked_clear (run : s.inRun = true) (clear : s.stc.latch = none) (timers : s.stc.disagreeTimer = 0 ∧ s.stc.trackTimer = 0) :
    let sets := s.stc.state = .locked ∧ s.anyLive .steerCentre = false ∧ s.standing = false ∧ (s.channelState lockChannel).unusable = true
    let t := Stc.leaveLocked s
    t.stc.disagreeTimer = 0 ∧ t.stc.trackTimer = 0
      ∧ (sets → t.stc.latch = some .lockChannel ∧ t.flagged 7)
      ∧ (¬ sets → t.stc.latch = none ∧ t.stc.selfHandle = s.stc.selfHandle) := by
  obtain ⟨disagree, track⟩ := timers
  intro sets t
  have leaves (v : State) (same : t = v) (quiet : ¬ sets) (kept : v.stc.disagreeTimer = 0 ∧ v.stc.trackTimer = 0 ∧ v.stc.latch = none
      ∧ v.stc.selfHandle = s.stc.selfHandle) : t.stc.disagreeTimer = 0 ∧ t.stc.trackTimer = 0
      ∧ (sets → t.stc.latch = some .lockChannel ∧ t.flagged 7) ∧ (¬ sets → t.stc.latch = none ∧ t.stc.selfHandle = s.stc.selfHandle) := by
    rw [same]
    exact ⟨kept.1, kept.2.1, fun is => absurd is quiet, fun _ => kept.2.2⟩
  have leaving : s.leaving.stc.disagreeTimer = 0 ∧ s.leaving.stc.trackTimer = 0 ∧ s.leaving.stc.latch = none
      ∧ s.leaving.stc.selfHandle = s.stc.selfHandle := by
    rw [leaving_stc]
    split
    · exact ⟨disagree, track, clear, rfl⟩
    · exact ⟨disagree, rfl, clear, rfl⟩
  by_cases locked : s.stc.state = .locked
  case neg => exact leaves s (leaveLocked_stays (.inl locked)) (fun is => locked is.1) ⟨disagree, track, clear, rfl⟩
  cases free : s.anyLive .steerCentre with
  | true => exact leaves s (leaveLocked_stays (.inr free)) (fun is => absurd is.2.1 (by simp [free])) ⟨disagree, track, clear, rfl⟩
  | false =>
    cases stands : s.standing with
    | true => exact leaves _ (leaveLocked_frozen locked free stands) (fun is => absurd is.2.2.1 (by simp [stands])) leaving
    | false =>
      cases unusable : (s.channelState lockChannel).unusable with
      | false =>
        exact leaves _ (leaveLocked_tracking locked free stands (.inr unusable)) (fun is => absurd is.2.2.2 (by simp [unusable])) leaving
      | true =>
        have same : t = Stc.startCentring (Stc.setLatch .lockChannel s.leaving) := leaveLocked_latches locked free stands run clear unusable
        obtain ⟨latched, posted⟩ := setLatch_takes .lockChannel leaving.2.2.1
        have moves : SteerMoves (Stc.setLatch .lockChannel s.leaving) t := by
          rw [same]
          exact (startCentring_steerEnds (Stc.setLatch .lockChannel s.leaving)).moves
        obtain ⟨latch, -, disagree', track'⟩ := moves.keeps
        have keeps := setLatch_keepsCommand .lockChannel s.leaving
        have sets' : sets := ⟨locked, free, stands, unusable⟩
        refine ⟨?_, ?_, fun _ => ⟨latch.trans latched, ?_⟩, fun quiet => absurd sets' quiet⟩
        · rw [disagree', setLatch_eq leaving.2.2.1, State.post_stc]
          have asked (v : State) : (Stc.askEntry v).stc.disagreeTimer = v.stc.disagreeTimer := by
            unfold Stc.askEntry
            split
            · exact (openSelf_moves _ _ _ v).keeps.2.2.1
            · rfl
          rw [asked]
          exact leaving.1
        · rw [track', keeps.2.1, leaving.2.1]
        · rw [same]
          exact (ev_startCentring .refl).flagged posted

end

end Sys2Proof.Machine
end

