-- ==== Sys2Proof/Proofs/RetiredClear.lean ====
section
/-! PROOF. The steering after the retirement of any entry with the latch clear -/

namespace Sys2Proof.Machine

/-! ## What a retirement leaves live -/

section
variable {s : State} {e : Entry}

theorem retireDrops_live (fits : s.ilt.Fits) (resolved : s.resolve e.handle = some e) (f : Entry) :
    f ∈ (s.retireDrops e).live ↔ f ∈ s.live ∧ f.handle ≠ e.handle ∧ e.coveredBy ≠ some f.handle := by
  constructor
  · intro there
    obtain ⟨before, other⟩ := dropEntry_live_other fits resolved (retireDrops_live_sub there)
    refine ⟨before, other, fun covered => ?_⟩
    rw [retireDrops_covered covered, post_live] at there
    have resolves := resolve_of_live (iltFits_drop f.handle (iltFits_drop e.handle fits)) there
    rw [dropEntry_resolve] at resolves
    exact absurd resolves (by simp)
  · rintro ⟨before, other, uncovering⟩
    exact live_of_resolve ((ev_retireDrops e .refl).fits fits) (retireDrops_resolve (resolve_of_live fits before) other uncovering)

theorem anyLive_iff {k : Kind} : s.anyLive k = true ↔ ∃ f ∈ s.live, f.kind = k := by
  simp only [State.anyLive, List.any_eq_true, decide_eq_true_eq]

/-- The kinds of the live entries are among those of a table with the same records. -/
theorem anyLive_of_records {u v : State} {k : Kind} (order : v.ilt.order = u.ilt.order)
    (record : ∀ i, (rd v.ilt.slots i).record = (rd u.ilt.slots i).record) (live : v.anyLive k = true) : u.anyLive k = true := by
  obtain ⟨f, there, kind⟩ := anyLive_iff.mp live
  obtain ⟨i, listed, entry⟩ := mem_live_iff.mp there
  have same : (rd v.ilt.slots i).entry.map Entry.record = (rd u.ilt.slots i).entry.map Entry.record := congrArg Prod.snd (record i)
  rw [entry, Option.map_some] at same
  obtain ⟨g, entry', sameRecord⟩ := Option.map_eq_some_iff.mp same.symm
  have sameKind : g.kind = f.kind := congrArg (fun r => r.2.1) sameRecord
  exact anyLive_iff.mpr ⟨g, mem_live_iff.mpr ⟨i, order ▸ listed, entry'⟩, sameKind.trans kind⟩

theorem Returns.anyLive {u v : State} (h : Returns u v) (k : Kind) : v.anyLive k = u.anyLive k :=
  Bool.eq_iff_iff.mpr ⟨anyLive_of_records h.order h.record, anyLive_of_records h.order.symm fun i => (h.record i).symm⟩

/-- The state of the blocks when STC judges whether it leaves LOCKED. -/
def State.retireHanded (e : Entry) (s : State) : State := forgetHandle e.handle (handOff .retired e (s.retiring e))

theorem retireHanded_ilt : (s.retireHanded e).ilt = (s.retiring e).ilt :=
  (forgetHandle_beside _ _).1.trans (handOff_blocks .retired e _).ilt

theorem retireHanded_anyLive (fits : s.ilt.Fits) (resolved : s.resolve e.handle = some e) (k : Kind) :
    (s.retireHanded e).anyLive k = true ↔ ∃ f ∈ s.live, f.kind = k ∧ f.handle ≠ e.handle ∧ e.coveredBy ≠ some f.handle := by
  rw [anyLive_congr (State.live_congr retireHanded_ilt), State.retiring, (retireUncovers_returns e _).anyLive, anyLive_iff]
  simp only [retireDrops_live fits resolved]
  exact ⟨fun ⟨f, ⟨there, apart⟩, kind⟩ => ⟨f, there, kind, apart⟩, fun ⟨f, there, kind, apart⟩ => ⟨f, ⟨there, apart⟩, kind⟩⟩

theorem retireHanded_evolves : Evolves s (s.retireHanded e) :=
  ev_forgetHandle _ (ev_handOff _ _ (ev_retireUncovers e (ev_retireDrops e .refl)))

/-- STC has moved as the hand-offs move it, and then forgotten the handle. -/
theorem retireHanded_moves : ∃ u, SteerMoves s u ∧ (s.retireHanded e).stc = { u.stc with selfHandle := keptHandle e.handle u.stc.selfHandle }
    ∧ (s.retireHanded e).lockCommand = u.lockCommand := by
  refine ⟨handOff .retired e (s.retiring e), (retiring_moves e s).trans (handOff_steerEnds .retired e _).moves,
    (forgetHandle_handles _ _).2.1, ?_⟩
  rw [State.lockCommand, State.retireHanded, (forgetHandle_beside _ _).2.2.2.2.2.2, State.lockCommand]

theorem retired_after (e : Entry) (s : State) : SteerMoves (if e.kind = .steerCentre then Stc.leaveLocked (s.retireHanded e) else s.retireHanded e)
    (s.retired e) := (superviseFor_moves e _).trans (finish_steerEnds _).moves

/-! ## The steering after the retirement of any entry, with the latch clear -/

/-- LOCKED is left by the retirement in motion, with a CL1 that is not usable. -/
def State.RetireLatches (e : Entry) (s : State) : Prop :=
  e.kind = .steerCentre ∧ s.stc.state = .locked ∧ s.mot.motion ≠ .standstill ∧ (s.channelState lockChannel).unusable = true
    ∧ ∀ f ∈ s.live, f.kind = .steerCentre → f.handle = e.handle ∨ e.coveredBy = some f.handle

theorem retired_clear (run : s.inRun = true) (fits : s.ilt.Fits) (resolved : s.resolve e.handle = some e) (clear : s.stc.latch = none)
    (timers : s.stc.disagreeTimer = 0 ∧ s.stc.trackTimer = 0) :
    (s.retired e).stc.disagreeTimer = 0 ∧ (s.retired e).stc.trackTimer = 0
      ∧ (s.RetireLatches e → (s.retired e).stc.latch = some .lockChannel ∧ (s.retired e).flagged 7)
      ∧ (¬ s.RetireLatches e → (s.retired e).stc.latch = none
        ∧ (s.stc.selfHandle = some e.handle → (s.retired e).stc.selfHandle = none)) := by
  let w := s.retireHanded e
  obtain ⟨u, moves, stc, -⟩ := retireHanded_moves (s := s) (e := e)
  obtain ⟨latch, handle, disagree, track⟩ := moves.keeps
  have base : SameBase s w := retireHanded_evolves.base
  have clearW : w.stc.latch = none := by
    rw [stc]
    exact latch.trans clear
  have timersW : w.stc.disagreeTimer = 0 ∧ w.stc.trackTimer = 0 := by
    rw [stc]
    exact ⟨disagree.trans timers.1, track.trans timers.2⟩
  have handleW (held : s.stc.selfHandle = some e.handle) : w.stc.selfHandle = none := by
    rw [stc, handle, held]
    exact if_pos rfl
  obtain ⟨latch', handle', disagree', track'⟩ := (retired_after e s).keeps
  by_cases kind : e.kind = .steerCentre
  case neg =>
    rw [if_neg kind] at latch' handle' disagree' track'
    exact ⟨disagree'.trans timersW.1, track'.trans timersW.2, fun is => absurd is.1 kind,
      fun _ => ⟨latch'.trans clearW, fun held => handle'.trans (handleW held)⟩⟩
  case pos =>
    rw [if_pos kind] at latch' handle' disagree' track'
    have runW : w.inRun = true := by
      rw [State.inRun, base.cfg]
      exact run
    have standing : w.standing = s.standing := by rw [State.standing, base.mot, State.standing]
    have moving : s.standing = false ↔ s.mot.motion ≠ .standstill := by
      rw [← Bool.not_eq_true, standing_iff]
    have sets : (w.stc.state = .locked ∧ w.anyLive .steerCentre = false ∧ w.standing = false ∧ (w.channelState lockChannel).unusable = true)
        ↔ s.RetireLatches e := by
      have locked : w.stc.state = .locked ↔ s.stc.state = .locked := by
        rw [stc]
        exact ⟨moves.locked, fun before => (moves.stays (by simp [before])).1.trans before⟩
      have free : w.anyLive .steerCentre = false ↔ ∀ f ∈ s.live, f.kind = .steerCentre → f.handle = e.handle ∨ e.coveredBy = some f.handle := by
        rw [← Bool.not_eq_true, retireHanded_anyLive fits resolved]
        push Not
        exact forall₂_congr fun f _ => ⟨fun h kind => or_iff_not_imp_left.mpr (h kind), fun h kind => or_iff_not_imp_left.mp (h kind)⟩
      rw [locked, free, standing, moving, retireHanded_evolves.unusable lockChannel, State.RetireLatches]
      tauto
    obtain ⟨disagreeL, trackL, set, quiet⟩ := leaveLocked_clear runW clearW timersW
    refine ⟨disagree'.trans disagreeL, track'.trans trackL, fun is => ⟨latch'.trans (set (sets.mpr is)).1, ?_⟩,
      fun isNot => ⟨latch'.trans (quiet (mt sets.mp isNot)).1, fun held => handle'.trans ((quiet (mt sets.mp isNot)).2.trans (handleW held))⟩⟩
    have flagged : (Stc.leaveLocked w).flagged 7 := (set (sets.mpr is)).2
    have same : s.retired e = State.finish (Dsv.superviseFor e (Stc.leaveLocked w)) := by
      rw [State.retired, handOffRetired, if_pos kind]
      rfl
    rw [same]
    exact (ev_finish (ev_superviseFor e .refl)).flagged flagged

theorem retired_still (still : s.stc.state ≠ .frozen ∧ s.stc.state ≠ .tracking) (unlocked : s.stc.state ≠ .locked) :
    (s.retired e).stc.state = s.stc.state ∧ (s.retired e).stc.centringTimer = s.stc.centringTimer
      ∧ (s.retired e).lockCommand = s.lockCommand := by
  obtain ⟨u, moves, stc, lock⟩ := retireHanded_moves (s := s) (e := e)
  obtain ⟨state, timer, command⟩ := moves.stays still
  have stateW : (s.retireHanded e).stc.state = s.stc.state := by rw [stc, ← state]
  have after := retired_after e s
  have stays : Stc.leaveLocked (s.retireHanded e) = s.retireHanded e := leaveLocked_stays (.inl (by rwa [stateW]))
  rw [stays, ite_self] at after
  obtain ⟨state', timer', command'⟩ := after.stays (by rwa [stateW])
  refine ⟨state'.trans stateW, timer'.trans ?_, command'.trans (lock.trans command)⟩
  rw [stc, ← timer]

end

end Sys2Proof.Machine
end

