-- ==== Sys2Proof/Proofs/ClearSteer.lean ====
section
/-! PROOF. CLEAR_STEER_FAULT (R143) -/

namespace Sys2Proof.Machine

/-! ## CLEAR_STEER_FAULT (R143) -/

section
variable {x : Sender} {s : State}

theorem requestClearSteerFault_safe (served : s.serves x) (safe : s.cfg.device = .safe) :
    requestClearSteerFault x.partner s = (s, s.notReady) := by
  rw [requestClearSteerFault, ifRoot_of_serves served, if_pos safe]

theorem requestClearSteerFault_refused (served : s.serves x) (device : s.cfg.device ≠ .safe) {sub : SubReason}
    (failure : s.steerFailure = some sub) : requestClearSteerFault x.partner s = (s, .because .condition sub) := by
  rw [requestClearSteerFault, ifRoot_of_serves served, if_neg device, failure]

theorem requestClearSteerFault_quiet (served : s.serves x) (device : s.cfg.device ≠ .safe) (sound : s.steerFailure = none)
    (clear : s.stc.latch = none) : requestClearSteerFault x.partner s = (s, .ok AnswerFlags.none 0 s.stc.state.code) := by
  rw [requestClearSteerFault, ifRoot_of_serves served, if_neg device, sound]
  simp [clear, bit]

theorem requestClearSteerFault_clears (served : s.serves x) (device : s.cfg.device ≠ .safe) (sound : s.steerFailure = none)
    (latched : s.stc.latch ≠ none) : requestClearSteerFault x.partner s = (State.finish (Stc.clearLatch s),
      .ok AnswerFlags.none (bit (State.finish (Stc.clearLatch s)).stc.latch.isSome) (State.finish (Stc.clearLatch s)).stc.state.code) := by
  rw [requestClearSteerFault, ifRoot_of_serves served, if_neg device, sound]
  dsimp only
  rw [if_pos (Option.isSome_iff_ne_none.mpr latched)]

/-- The latch cleared, and PASSIVE gone to CENTRING, before the retirement. -/
def State.unlatched (s : State) : State :=
  let t := s.modStc fun x => { x with latch := none, disagreeTimer := 0, trackTimer := 0 }
  if t.stc.state = .passive then Stc.commandLock (t.modStc fun x => { x with state := .centring, centringTimer := 0 }) else t

theorem unlatched_ilt : s.unlatched.ilt = s.ilt := by
  unfold State.unlatched
  dsimp only
  split
  · exact command_ilt _ _ _
  · rfl

theorem unlatched_stc : s.unlatched.stc = if s.stc.state = .passive
    then { s.stc with latch := none, disagreeTimer := 0, trackTimer := 0, state := .centring, centringTimer := 0 }
    else { s.stc with latch := none, disagreeTimer := 0, trackTimer := 0 } := by
  unfold State.unlatched
  dsimp only
  rw [State.modStc_stc]
  split
  · exact command_stc _ _ _
  · rfl

theorem unlatched_passive (passive : s.stc.state = .passive) :
    s.unlatched.stc.state = .centring ∧ s.unlatched.stc.centringTimer = 0 ∧ s.unlatched.lockCommand = 1 := by
  have stc := unlatched_stc (s := s)
  rw [if_pos passive] at stc
  refine ⟨by rw [stc], by rw [stc], ?_⟩
  have same : s.unlatched = Stc.commandLock ((s.modStc fun x => { x with latch := none, disagreeTimer := 0, trackTimer := 0 }).modStc fun x =>
      { x with state := .centring, centringTimer := 0 }) := if_pos passive
  rw [same, commandLock_lockCommand, State.modStc_stc]
  rfl

theorem unlatched_evolves : Evolves s s.unlatched := by
  have first : Evolves s (s.modStc fun x => { x with latch := none, disagreeTimer := 0, trackTimer := 0 }) :=
    ev_stc _ (fun _ => ⟨rfl, rfl⟩) .refl
  exact ev_ite (ev_commandLock (ev_stc _ (fun _ => ⟨rfl, rfl⟩) first)) first

/-- An entry of the part's own that STC holds in RUN. -/
def State.SteerHolds (h : Nat) (e : Entry) (s : State) : Prop :=
  s.cfg.device = .run ∧ s.stc.selfHandle = some h ∧ s.resolve h = some e ∧ e.owner = 15

theorem unlatched_selfHandle : s.unlatched.stc.selfHandle = s.stc.selfHandle := by
  rw [unlatched_stc]
  split <;> rfl

theorem clearLatch_eq : Stc.clearLatch s = match s.unlatched.stc.selfHandle with
    | some h => retireSelf h s.unlatched
    | none => s.unlatched := rfl

theorem clearLatch_retires {h : Nat} {e : Entry} (held : s.SteerHolds h e) :
    State.finish (Stc.clearLatch s) = (s.unlatched.post (.partRetired e.handle .causeCleared)).retired e := by
  obtain ⟨run, handle, resolved, self⟩ := held
  have runU : s.unlatched.inRun = true := by
    rw [State.inRun, unlatched_evolves.base.cfg]
    exact inRun_iff.mpr run
  have resolvedU : s.unlatched.resolve h = some e := (resolve_congr unlatched_ilt h).trans resolved
  have retires : Stc.clearLatch s = retireEntry (some .causeCleared) e s.unlatched := by
    rw [clearLatch_eq, unlatched_selfHandle, handle]
    dsimp only
    rw [retireSelf, if_pos runU, resolvedU]
    exact if_pos (decide_eq_true self)
  rw [retires, retireEntry_some, retired_eq]

theorem clearLatch_plain (unheld : ¬ ∃ h e, s.SteerHolds h e) : Stc.clearLatch s = s.unlatched := by
  rw [clearLatch_eq, unlatched_selfHandle]
  cases handle : s.stc.selfHandle with
  | none => rfl
  | some h =>
    dsimp only
    unfold retireSelf
    by_cases run : s.unlatched.inRun = true
    case neg => exact if_neg run
    rw [if_pos run]
    have runS : s.cfg.device = .run := by
      rw [State.inRun, unlatched_evolves.base.cfg] at run
      exact inRun_iff.mp run
    cases resolved : s.unlatched.resolve h with
    | none => rfl
    | some e =>
      refine if_neg fun self => unheld ⟨h, e, runS, handle, ?_, of_decide_eq_true self⟩
      rwa [resolve_congr unlatched_ilt] at resolved

/-- The SELF STEER_CENTRE's retirement takes LOCKED to TRACKING with an unusable CL1. -/
def State.ClearLatches (s : State) : Prop :=
  s.stc.state = .locked ∧ s.mot.motion ≠ .standstill ∧ (s.channelState lockChannel).unusable = true
    ∧ ∃ h e, s.SteerHolds h e ∧ e.kind = .steerCentre ∧ ∀ f ∈ s.live, f.kind = .steerCentre → f.handle = h ∨ e.coveredBy = some f.handle

/-- What a clear of the latch leaves, whether or not an entry is retired for it. -/
theorem clearLatch_ends (fits : s.ilt.Fits) :
    let t := State.finish (Stc.clearLatch s)
    t.stc.disagreeTimer = 0 ∧ t.stc.trackTimer = 0
      ∧ (¬ s.ClearLatches → t.stc.latch = none) ∧ (s.ClearLatches → t.stc.latch = some .lockChannel ∧ t.flagged 7)
      ∧ (s.stc.state = .passive → t.stc.state = .centring ∧ t.stc.centringTimer = 0 ∧ t.lockCommand = 1)
      ∧ (∀ h e, s.SteerHolds h e → t.resolve h = none ∧ t.flagged 1 ∧ (¬ s.ClearLatches → t.stc.selfHandle = none)) := by
  intro t
  have stc := unlatched_stc (s := s)
  have clear : s.unlatched.stc.latch = none := by
    rw [stc]
    split <;> rfl
  have timers : s.unlatched.stc.disagreeTimer = 0 ∧ s.unlatched.stc.trackTimer = 0 := by
    rw [stc]
    split <;> exact ⟨rfl, rfl⟩
  by_cases held : ∃ h e, s.SteerHolds h e
  case neg =>
    have ended : t = State.finish s.unlatched := congrArg State.finish (clearLatch_plain held)
    have moves : SteerMoves s.unlatched t := by
      rw [ended]
      exact (finish_steerEnds _).moves
    obtain ⟨latch, -, disagree, track⟩ := moves.keeps
    refine ⟨disagree.trans timers.1, track.trans timers.2, fun _ => latch.trans clear, fun ⟨_, _, _, h, e, is, _⟩ => absurd ⟨h, e, is⟩ held,
      fun passive => ?_, fun h e is => absurd ⟨h, e, is⟩ held⟩
    obtain ⟨state, timer, lock⟩ := unlatched_passive passive
    obtain ⟨state', timer', lock'⟩ := moves.stays (by simp [state])
    exact ⟨state'.trans state, timer'.trans timer, lock'.trans lock⟩
  case pos =>
    obtain ⟨h, e, is⟩ := held
    obtain rfl : e.handle = h := handle_of_resolve fits is.2.2.1
    let p := s.unlatched.post (.partRetired e.handle .causeCleared)
    have ended : t = p.retired e := clearLatch_retires is
    obtain ⟨run, handle, resolved, self⟩ := is
    have evolves : Evolves s p := ev_post _ unlatched_evolves
    have ilt : p.ilt = s.ilt := (State.post_ilt _ _).trans unlatched_ilt
    have stcP : p.stc = s.unlatched.stc := State.post_stc _ _
    have runP : p.inRun = true := by
      rw [State.inRun, evolves.base.cfg]
      exact inRun_iff.mpr run
    have resolvedP : p.resolve e.handle = some e := (resolve_congr ilt _).trans resolved
    have latches : p.RetireLatches e ↔ s.ClearLatches := by
      have locked : p.stc.state = .locked ↔ s.stc.state = .locked := by
        rw [stcP, stc]
        split
        case isTrue passive => simp [passive]
        case isFalse => rfl
      rw [State.RetireLatches, locked, evolves.base.mot, evolves.unusable lockChannel, State.live_congr ilt]
      constructor
      · rintro ⟨kind, locked, moving, unusable, only⟩
        exact ⟨locked, moving, unusable, e.handle, e, ⟨run, handle, resolved, self⟩, kind, only⟩
      · rintro ⟨locked, moving, unusable, h, f, ⟨-, handle', resolved', -⟩, kind, only⟩
        obtain rfl : e.handle = h := Option.some.inj (handle.symm.trans handle')
        obtain rfl : e = f := Option.some.inj (resolved.symm.trans resolved')
        exact ⟨kind, locked, moving, unusable, only⟩
    obtain ⟨disagree, track, set, quiet⟩ := retired_clear runP (evolves.fits fits) resolvedP (by rw [stcP, clear]) (by rwa [stcP])
    rw [ended]
    refine ⟨disagree, track, fun isNot => (quiet (mt latches.mp isNot)).1, fun is => set (latches.mpr is), fun passive => ?_,
      fun h f is => ?_⟩
    · obtain ⟨state, timer, lock⟩ := unlatched_passive passive
      obtain ⟨state', timer', lock'⟩ := retired_still (s := p) (e := e) (by simp [stcP, state]) (by simp [stcP, state])
      refine ⟨by rw [state', stcP, state], by rw [timer', stcP, timer], lock'.trans ?_⟩
      rw [State.lockCommand, State.post_vda]
      exact lock
    · obtain ⟨-, handle', -⟩ := is
      obtain rfl : e.handle = h := Option.some.inj (handle.symm.trans handle')
      refine ⟨retired_resolve resolvedP, ?_, fun isNot => (quiet (mt latches.mp isNot)).2 (by rw [stcP, unlatched_selfHandle, handle])⟩
      rw [← retired_eq]
      exact (ev_finish (ev_retireEntry none e .refl)).flagged (post_flagged_self _ _)

/-- R143: the checks in their order. -/
theorem steerFailure_checks (s : State) :
    let valid := fun c : Fin 21 => (rd s.mot.analog c).validity = .valid
    let near := (s.analogValue 12 - s.analogValue 13).natAbs ≤ 20
    let fails := fun sub : SubReason => s.steerFailure = some sub
    (¬ valid 12 → fails .artASensor) ∧ (valid 12 → ¬ valid 13 → fails .artBSensor)
      ∧ (valid 12 → valid 13 → ¬ valid 14 → fails .frontSensor)
      ∧ (valid 12 → valid 13 → valid 14 → ¬ valid 15 → fails .actuatorSensor)
      ∧ (valid 12 → valid 13 → valid 14 → valid 15 → ¬ near → fails .disagree)
      ∧ (s.steerFailure = none ↔ (valid 12 ∧ valid 13 ∧ valid 14 ∧ valid 15) ∧ near) := by
  intro valid near fails
  have disagree : s.anglesDisagree = true ↔ ¬ near := by
    simp only [State.anglesDisagree, decide_eq_true_eq, near]
    omega
  have checks : s.steerFailure = if ¬ valid 12 then some .artASensor else if ¬ valid 13 then some .artBSensor
      else if ¬ valid 14 then some .frontSensor else if ¬ valid 15 then some .actuatorSensor
      else if ¬ near then some .disagree else none := by
    simp only [State.steerFailure, disagree]
    rfl
  simp only [fails, checks]
  refine ⟨fun a => if_pos a, fun a b => ?_, fun a b c => ?_, fun a b c d => ?_, fun a b c d e => ?_, ?_⟩
  · rw [if_neg (not_not_intro a), if_pos b]
  · rw [if_neg (not_not_intro a), if_neg (not_not_intro b), if_pos c]
  · rw [if_neg (not_not_intro a), if_neg (not_not_intro b), if_neg (not_not_intro c), if_pos d]
  · rw [if_neg (not_not_intro a), if_neg (not_not_intro b), if_neg (not_not_intro c), if_neg (not_not_intro d), if_pos e]
  · by_cases a : valid 12 <;> by_cases b : valid 13 <;> by_cases c : valid 14 <;> by_cases d : valid 15 <;> simp [a, b, c, d]

end

/-- Settles O28. -/
theorem clearSteerFaultClears : Obligations.ClearSteerFaultClears := by
  unfold Obligations.ClearSteerFaultClears
  intro x tag s served
  obtain ⟨heard, -⟩ := id served
  refine ⟨fun safe => ?_, ?_, fun device sound clear => ?_, fun device sound latched fits => ?_⟩
  · rw [exec_clearSteerFault_heard heard, requestClearSteerFault_safe served safe, State.notReady, safe]
    rfl
  · intro valid near refusedFor device
    obtain ⟨a, b, c, d, e, all⟩ := steerFailure_checks s
    have refused {sub : SubReason} (failure : s.steerFailure = some sub) : refusedFor sub := by
      show exec (.clearSteerFault x tag) s = _
      rw [exec_clearSteerFault_heard heard, requestClearSteerFault_refused served device failure]
      rfl
    exact ⟨fun h => refused (a h), fun h i => refused (b h i), fun h i j => refused (c h i j), fun h i j k => refused (d h i j k),
      fun h i j k l => refused (e h i j k l), all⟩
  · rw [exec_clearSteerFault_heard heard, requestClearSteerFault_quiet served device sound clear]
    rfl
  · refine ⟨State.finish (Stc.clearLatch s), ?_, ?_⟩
    · rw [exec_clearSteerFault_heard heard, requestClearSteerFault_clears served device sound latched]
      rfl
    · obtain ⟨disagree, track, quiet, set, passive, retired⟩ := clearLatch_ends fits
      have base : SameBase s (State.finish (Stc.clearLatch s)) := by
        refine (ev_finish ?_).base
        rw [clearLatch_eq]
        split
        · exact ev_retireSelf _ unlatched_evolves
        · exact unlatched_evolves
      exact ⟨disagree, track, quiet, set, passive, retired, base⟩

end Sys2Proof.Machine
end

