-- ==== Sys2Proof/Proofs/Launch.lean ====
section
/-! PROOF. STC's entry into RUN (R148) -/

namespace Sys2Proof.Machine

/-! ## What the openings of the part leave of the steering -/

/-- STC's schedule, command and limits stand; once out of PARKED it stays out, and CL1 commanded on stays on. -/
structure SteerStands (s t : State) : Prop where
  schedule : t.stc.schedule = s.stc.schedule
  command : t.stc.command = s.stc.command
  lower : t.stc.lower = s.stc.lower
  upper : t.stc.upper = s.stc.upper
  banks : t.stc.bankInUse = s.stc.bankInUse
  parked : s.stc.state ≠ .parked → t.stc.state ≠ .parked
  lock : s.lockCommand = 1 → t.lockCommand = 1

section
variable {s t u : State}

theorem SteerStands.trans (h : SteerStands s t) (k : SteerStands t u) : SteerStands s u :=
  ⟨k.schedule.trans h.schedule, k.command.trans h.command, k.lower.trans h.lower, k.upper.trans h.upper, k.banks.trans h.banks,
    k.parked ∘ h.parked, k.lock ∘ h.lock⟩

theorem SteerStands.of_same (stc : t.stc = s.stc) (vda : t.vda = s.vda) : SteerStands s t := by
  refine ⟨?_, ?_, ?_, ?_, ?_, ?_, ?_⟩
  iterate 5 (next => rw [stc])
  · rw [stc]
    exact id
  · rw [State.lockCommand, State.lockCommand, vda]
    exact id

theorem SteerMoves.stands (h : SteerMoves s t) : SteerStands s t := by
  obtain ⟨w, ⟨same, lock⟩ | ⟨-, same, lock⟩⟩ := h
  · exact ⟨by rw [same], by rw [same], by rw [same], by rw [same], by rw [same]; rfl, by rw [same]; exact id, by rw [lock]; exact id⟩
  · exact ⟨by rw [same], by rw [same], by rw [same], by rw [same], by rw [same]; rfl, fun _ => by rw [same]; simp, fun _ => lock⟩

theorem askEntry_stands (s : State) : SteerStands s (Stc.askEntry s) := by
  unfold Stc.askEntry
  split
  · exact (openSelf_moves .steerCentre .vehicle none s).stands.trans ⟨rfl, rfl, rfl, rfl, rfl, id, id⟩
  · exact .of_same rfl rfl

theorem setLatch_stands_steering (c : LatchCause) (s : State) : SteerStands s (Stc.setLatch c s) := by
  cases latch : s.stc.latch with
  | some q =>
    rw [setLatch_stands latch]
    exact .of_same rfl rfl
  | none =>
    have marked : SteerStands s (s.modStc fun x => { x with latch := some c }) := ⟨rfl, rfl, rfl, rfl, rfl, id, id⟩
    rw [setLatch_eq latch]
    exact marked.trans ((askEntry_stands _).trans (.of_same (State.post_stc _ _) (State.post_vda _ _)))

theorem judgeLock_stands (s : State) : SteerStands s (Stc.judgeLock s) := by
  unfold Stc.judgeLock
  split
  · exact setLatch_stands_steering _ s
  · exact .of_same rfl rfl

end

/-! ## The entry into RUN: STC (R148) -/

section
variable {s : State}

/-- STC with the schedule in force and the command from the measured angle, in FROZEN or TRACKING. -/
def State.launched (s : State) : State :=
  let u := s.scheduleAtStart
  Stc.commandLock (s.modStc fun x => { x with
    schedule := some u, command := clampInt (-u.lim) u.lim (s.analogValue 15), lower := -u.lim, upper := u.lim
    state := if s.standing then .frozen else .tracking, trackTimer := if s.standing then x.trackTimer else 0 })

/-- STC on its way, before it asks for the entry of a latch that stands. -/
def State.moving (s : State) : State := Stc.startCentring (Stc.judgeLock s.launched)

theorem enterRun_eq (s : State) : Stc.enterRun s = if s.moving.stc.latch.isSome then Stc.askEntry s.moving else s.moving := by
  have same : Stc.enterMoving (s.modStc fun x =>
      { x with schedule := some s.scheduleAtStart, command := clampInt (-s.scheduleAtStart.lim) s.scheduleAtStart.lim (s.analogValue 15)
               lower := -s.scheduleAtStart.lim, upper := s.scheduleAtStart.lim }) = s.moving := by
    unfold Stc.enterMoving State.moving State.launched
    dsimp only
    refine congrArg (fun v => Stc.startCentring (Stc.judgeLock (Stc.commandLock v))) ?_
    have standing : (s.modStc fun x => { x with schedule := some s.scheduleAtStart
                                                command := clampInt (-s.scheduleAtStart.lim) s.scheduleAtStart.lim (s.analogValue 15)
                                                lower := -s.scheduleAtStart.lim, upper := s.scheduleAtStart.lim }).standing = s.standing := rfl
    rw [standing]
    cases s.standing <;> rfl
  unfold Stc.enterRun
  dsimp only
  rw [same]

theorem launched_stc (s : State) : s.launched.stc = { s.stc with
    schedule := some s.scheduleAtStart, command := clampInt (-s.scheduleAtStart.lim) s.scheduleAtStart.lim (s.analogValue 15)
    lower := -s.scheduleAtStart.lim, upper := s.scheduleAtStart.lim
    state := if s.standing then .frozen else .tracking, trackTimer := if s.standing then s.stc.trackTimer else 0 } := by
  rw [State.launched, Stc.commandLock, command_stc, State.modStc_stc]

theorem launched_lock (s : State) : s.launched.lockCommand = 1 := by
  rw [State.launched, commandLock_lockCommand, State.modStc_stc]
  cases s.standing <;> rfl

theorem launched_evolves : Evolves s s.launched := ev_commandLock (ev_stc _ (fun _ => ⟨rfl, rfl⟩) .refl)

theorem moving_stands : SteerStands s.launched s.moving :=
  (judgeLock_stands _).trans (startCentring_steerEnds (Stc.judgeLock s.launched)).moves.stands

theorem enterRun_stands : SteerStands s.launched (Stc.enterRun s) := by
  rw [enterRun_eq]
  split
  · exact moving_stands.trans (askEntry_stands _)
  · exact moving_stands

theorem launched_ilt : s.launched.ilt = s.ilt := (command_ilt _ _ _).trans (State.modStc_ilt _ _)

theorem launched_anyLive (k : Kind) : s.launched.anyLive k = s.anyLive k := anyLive_congr (State.live_congr launched_ilt)

theorem launched_inRun : s.launched.inRun = s.inRun := by rw [State.inRun, launched_evolves.base.cfg, State.inRun]

/-- The latch is set on the way where STC goes into TRACKING with a CL1 that is not usable. -/
def State.LaunchLatches (s : State) : Prop :=
  s.stc.latch = none ∧ s.mot.motion ≠ .standstill ∧ (s.channelState lockChannel).unusable = true

theorem launched_tracking : s.launched.stc.state = .tracking ↔ s.mot.motion ≠ .standstill := by
  rw [launched_stc, ne_eq, ← standing_iff]
  cases s.standing <;> simp

theorem judgeLock_launched (quiet : ¬ s.LaunchLatches) : Stc.judgeLock s.launched = s.launched := by
  cases latched : s.launched.stc.latch with
  | some q =>
    unfold Stc.judgeLock
    split
    · exact setLatch_stands latched
    · rfl
  | none =>
    refine judgeLock_quiet fun ⟨_, tracking, unusable⟩ => quiet ⟨?_, launched_tracking.mp tracking, ?_⟩
    · rw [launched_stc] at latched
      exact latched
    · rwa [launched_evolves.unusable lockChannel] at unusable

/-- Where no STEER_CENTRE is live: the latch and the state that the entry into RUN leaves (R142, R148, R150). -/
theorem enterRun_latch (run : s.inRun = true) (free : s.anyLive .steerCentre = false) :
    (s.LaunchLatches → (Stc.enterRun s).stc.latch = some .lockChannel ∧ (Stc.enterRun s).flagged 7)
      ∧ (¬ s.LaunchLatches → (Stc.enterRun s).stc.latch = s.stc.latch)
      ∧ ((Stc.enterRun s).stc.latch = none → (Stc.enterRun s).stc.state = (if s.mot.motion = .standstill then .frozen else .tracking)
        ∧ (Stc.enterRun s).anyLive .steerCentre = false)
      ∧ ((Stc.enterRun s).stc.latch ≠ none → s.stc.selfHandle = none → (∃ i : Fin 24, 18 ≤ i.val ∧ (rd s.ilt.slots i).entry = none) →
        (Stc.enterRun s).stc.state = .centring ∧ (Stc.enterRun s).stc.centringTimer = 0 ∧ (Stc.enterRun s).HoldsCentre) := by
  have runL : s.launched.inRun = true := by rw [launched_inRun, run]
  have freeL : s.launched.anyLive .steerCentre = false := by rw [launched_anyLive, free]
  have latchL : s.launched.stc.latch = s.stc.latch := by rw [launched_stc]
  have fromL : s.launched.stc.state = .frozen ∨ s.launched.stc.state = .tracking := by
    rw [launched_stc]
    cases s.standing <;> simp
  have stateL : s.launched.stc.state = if s.mot.motion = .standstill then .frozen else .tracking := by
    rw [launched_stc]
    cases stands : s.standing with
    | true => simp [standing_iff.mp stands]
    | false =>
      have moves : s.mot.motion ≠ .standstill := fun is => by simp [standing_iff.mpr is] at stands
      simp [moves]
  have opensL (unheld : s.stc.selfHandle = none) (room : ∃ i : Fin 24, 18 ≤ i.val ∧ (rd s.ilt.slots i).entry = none) : s.launched.CentreOpens := by
    refine ⟨by rw [launched_stc]; exact unheld, by rwa [launched_ilt], fun f there is => ?_⟩
    have live : s.launched.anyLive .steerCentre = true := anyLive_iff.mpr ⟨f, there, is.2⟩
    rw [freeL] at live
    exact absurd live (by simp)
  by_cases latches : s.LaunchLatches
  case pos =>
    have clearL : s.launched.stc.latch = none := latchL.trans latches.1
    have judged : Stc.judgeLock s.launched = Stc.setLatch .lockChannel s.launched :=
      judgeLock_sets runL (launched_tracking.mpr latches.2.1) (by rw [launched_evolves.unusable lockChannel, latches.2.2])
    have moving : s.moving = Stc.startCentring (Stc.setLatch .lockChannel s.launched) := congrArg Stc.startCentring judged
    obtain ⟨latched, posted⟩ := setLatch_takes .lockChannel clearL
    have latchM : s.moving.stc.latch = some .lockChannel := by rw [moving, (startCentring_steerEnds (Stc.setLatch .lockChannel s.launched)).latch, latched]
    have asked : Stc.enterRun s = Stc.askEntry s.moving := by rw [enterRun_eq, if_pos (by simp [latchM])]
    have latchE : (Stc.enterRun s).stc.latch = some .lockChannel := by rw [asked, askEntry_latch, latchM]
    refine ⟨fun _ => ⟨latchE, ?_⟩, fun quiet => absurd latches quiet, fun clear => absurd (clear.symm.trans latchE) (by simp),
      fun _ unheld room => ?_⟩
    · rw [asked]
      refine (ev_stcAsk (Evolves.refl (s := s.moving))).flagged ?_
      rw [moving]
      exact (ev_startCentring .refl).flagged posted
    · obtain ⟨holds, turns, -⟩ := setLatch_opens .lockChannel clearL runL (opensL unheld room)
      have entered := (turns.entered fromL).1
      have state : (Stc.setLatch .lockChannel s.launched).stc.state = .centring := by rw [entered]
      have stays : s.moving = Stc.setLatch .lockChannel s.launched := moving.trans (if_neg (by simp [state]))
      obtain ⟨h, e, handle, -⟩ := id holds
      have still : Stc.enterRun s = Stc.setLatch .lockChannel s.launched := by
        rw [asked, stays]
        exact if_neg (by simp [handle])
      rw [still]
      exact ⟨state, by rw [entered], holds⟩
  case neg =>
    have moving : s.moving = s.launched := by rw [State.moving, judgeLock_launched latches, startCentring_free freeL]
    have entered : Stc.enterRun s = if s.stc.latch.isSome then Stc.askEntry s.launched else s.launched := by
      rw [enterRun_eq, moving, latchL]
    have latchE : (Stc.enterRun s).stc.latch = s.stc.latch := by
      rw [entered]
      split
      · rw [askEntry_latch, latchL]
      · exact latchL
    refine ⟨fun is => absurd is latches, fun _ => latchE, fun clear => ?_, fun latched unheld room => ?_⟩
    · rw [latchE] at clear
      rw [entered, if_neg (by simp [clear])]
      exact ⟨stateL, freeL⟩
    · rw [latchE] at latched
      obtain ⟨holds, turns, -⟩ := askEntry_opens runL (opensL unheld room)
      have centring := (turns.entered fromL).1
      rw [entered, if_pos (Option.isSome_iff_ne_none.mpr latched)]
      exact ⟨by rw [centring], by rw [centring], holds⟩

end

end Sys2Proof.Machine
end

