-- ==== Sys2Proof/Proofs/DoorsAtStart.lean ====
section
/-! PROOF. The doors derived one after the other (R72) -/

namespace Sys2Proof.Machine

/-! ## The doors derived in their order (R72) -/

section
variable {s : State} {d : Fin 4}

theorem dsvAskEntry_door_other {j : Fin 4} (other : j ≠ d) (s : State) : rd (Dsv.askEntry d s).dsv.doors j = rd s.dsv.doors j := by
  by_cases unheld : (rd s.dsv.doors d).selfHandle = none
  · rw [dsvAskEntry_asks unheld, changeDoor_door, if_neg (Ne.symm other), openSelf_dsv]
  · rw [dsvAskEntry_held unheld]

theorem supervise_door_other {j : Fin 4} (other : j ≠ d) (s : State) : rd (Dsv.supervise d s).dsv.doors j = rd s.dsv.doors j := by
  have first : rd (s.withSupervision d (s.supervisionOf d)).dsv.doors j = rd s.dsv.doors j := by
    rw [State.withSupervision, changeDoor_door, if_neg (Ne.symm other)]
  unfold Dsv.supervise
  split
  · dsimp only
    split
    · rw [State.post_dsv, dsvAskEntry_door_other other]
      exact first
    · exact first
  · rfl

theorem supervise_supervision (run : s.inRun = true) (fitted : s.fitted d = true) :
    (rd (Dsv.supervise d s).dsv.doors d).supervision = s.supervisionOf d := by
  have first : (rd (s.withSupervision d (s.supervisionOf d)).dsv.doors d).supervision = s.supervisionOf d := by rw [withSupervision_door]
  unfold Dsv.supervise
  rw [if_pos ⟨run, fitted⟩]
  dsimp only
  split
  · rw [State.post_dsv, dsvAskEntry_supervision]
    exact first
  · exact first

theorem supervisionOf_ne_dormant (s : State) (d : Fin 4) : s.supervisionOf d ≠ .dormant := by
  unfold State.supervisionOf
  split
  · simp
  · split
    · simp
    · split <;> simp

/-- Some doors derived, one after the other. -/
def superviseList (l : List (Fin 4)) (s : State) : State := l.foldl (fun s d => Dsv.supervise d s) s

theorem superviseList_evolves (l : List (Fin 4)) (s : State) : Evolves s (superviseList l s) := by
  induction l generalizing s with
  | nil => exact .refl
  | cons d l ih => exact (ev_supervise d .refl).trans (ih _)

theorem superviseList_closed {P : State → Prop} (b : OpenClosed P) (l : List (Fin 4)) (h : P s) : P (superviseList l s) := by
  induction l generalizing s with
  | nil => exact h
  | cons d l ih => exact ih (oc_supervise b d h)

theorem superviseList_moves (l : List (Fin 4)) (s : State) : SteerMoves s (superviseList l s) := by
  induction l generalizing s with
  | nil => exact .refl s
  | cons d l ih => exact (supervise_moves d s).trans (ih _)

theorem superviseList_door_other {l : List (Fin 4)} (out : d ∉ l) (s : State) :
    rd (superviseList l s).dsv.doors d = rd s.dsv.doors d := by
  induction l generalizing s with
  | nil => rfl
  | cons k l ih =>
    obtain ⟨other, rest⟩ := not_or.mp (List.mem_cons.not.mp out)
    exact (ih rest _).trans (supervise_door_other other s)

/-- A door's turn among all four. -/
theorem superviseAll_turn (d : Fin 4) : ∃ before after : List (Fin 4), d ∉ before ∧ d ∉ after ∧ before.length < 4
    ∧ ∀ s, superviseAll s = superviseList after (Dsv.supervise d (superviseList before s)) := by
  obtain ⟨before, after, split⟩ := List.append_of_mem (List.mem_finRange d)
  have once : (before ++ d :: after).Nodup := split ▸ List.nodup_finRange 4
  have length : (before ++ d :: after).length = 4 := by rw [← split, List.length_finRange]
  rw [List.nodup_append, List.nodup_cons] at once
  obtain ⟨-, ⟨last, -⟩, apart⟩ := once
  refine ⟨before, after, fun there => apart d there d (List.mem_cons_self ..) rfl, last, ?_, fun s => ?_⟩
  · rw [List.length_append, List.length_cons] at length
    omega
  · rw [superviseAll, split, List.foldl_append]
    rfl

end

/-! ## From an empty table -/

/-- The slots of the part's own that hold an entry. -/
def State.ownSlots (s : State) : Finset (Fin 24) := Finset.univ.filter fun i => 18 ≤ i.val ∧ (rd s.ilt.slots i).entry ≠ none

/-- Only the part's own entries for the doors derived so far are live, and so many slots of its are taken at the most. -/
structure OwnDoors (l : List (Fin 4)) (s : State) : Prop where
  live : ∀ e ∈ s.live, e.owner = 15 ∧ e.kind = .doorOpen ∧ ∃ d ∈ l, e.scope = .door d
  room : s.ownSlots.card ≤ l.length

section
variable {s : State} {d : Fin 4} {l : List (Fin 4)}

theorem ownDoors_of_empty (empty : ∀ i, (rd s.ilt.slots i).entry = none) : OwnDoors [] s where
  live e there := by
    obtain ⟨i, -, entry⟩ := mem_live_iff.mp there
    rw [empty i] at entry
    exact absurd entry (by simp)
  room := by
    have none : s.ownSlots = ∅ := by simp [State.ownSlots, empty]
    rw [none, Finset.card_empty]
    exact Nat.zero_le _

theorem OwnDoors.free (h : OwnDoors l s) (few : l.length < 6) : ∃ i : Fin 24, 18 ≤ i.val ∧ (rd s.ilt.slots i).entry = none := by
  by_contra full
  push Not at full
  have all : s.ownSlots = Finset.univ.filter fun i : Fin 24 => 18 ≤ i.val :=
    Finset.filter_congr fun i _ => ⟨And.left, fun high => ⟨high, full i high⟩⟩
  have six : (Finset.univ.filter fun i : Fin 24 => 18 ≤ i.val).card = 6 := by decide
  have room := h.room
  rw [all, six] at room
  omega

theorem supervise_ilt (d : Fin 4) (s : State) : (Dsv.supervise d s).ilt = s.ilt ∨ ∃ (slot : Fin 24) (e : Nat → Entry),
    (∀ h, (e h).owner = 15 ∧ (e h).kind = .doorOpen ∧ (e h).scope = .door d) ∧ (Dsv.supervise d s).ilt = (s.placeEntry slot e).ilt := by
  let u := s.withSupervision d (s.supervisionOf d)
  have opened : (openSelf .doorOpen (.door d) none u).1.ilt = s.ilt ∨ ∃ (slot : Fin 24) (e : Nat → Entry),
      (∀ h, (e h).owner = 15 ∧ (e h).kind = .doorOpen ∧ (e h).scope = .door d)
        ∧ (openSelf .doorOpen (.door d) none u).1.ilt = (s.placeEntry slot e).ilt := by
    unfold openSelf
    split
    case isFalse => exact .inl rfl
    case isTrue =>
      split
      · exact .inl rfl
      · split
        · exact .inl rfl
        · next slot _ =>
          exact .inr ⟨slot, u.newEntry .doorOpen 15 0 (.door d) none 0, fun _ => ⟨rfl, rfl, rfl⟩, (handOff_blocks .opened _ _).ilt⟩
  have asked : (Dsv.askEntry d u).ilt = u.ilt ∨ (Dsv.askEntry d u).ilt = (openSelf .doorOpen (.door d) none u).1.ilt := by
    by_cases unheld : (rd u.dsv.doors d).selfHandle = none
    · rw [dsvAskEntry_asks unheld]
      exact .inr rfl
    · rw [dsvAskEntry_held unheld]
      exact .inl rfl
  unfold Dsv.supervise
  split
  · dsimp only
    split
    · rw [State.post_ilt]
      rcases asked with same | same
      · exact .inl same
      · rcases opened with same' | ⟨slot, e, is, same'⟩
        · exact .inl (same.trans same')
        · exact .inr ⟨slot, e, is, same.trans same'⟩
    · exact .inl rfl
  · exact .inl rfl

theorem placeEntry_live_cases {slot : Fin 24} {e : Nat → Entry} {f : Entry} (there : f ∈ (s.placeEntry slot e).live) :
    f ∈ s.live ∨ f = e (s.handleOf slot) := by
  obtain ⟨i, listed, entry⟩ := mem_live_iff.mp there
  rw [placeEntry_slot] at entry
  split at entry
  case isTrue => exact .inr (Option.some.inj entry).symm
  case isFalse other =>
    refine .inl (mem_live_iff.mpr ⟨i, ?_, entry⟩)
    rw [State.placeEntry, State.modIlt_ilt] at listed
    rcases List.mem_append.mp listed with before | last
    · exact before
    · exact absurd (List.mem_singleton.mp last).symm other

theorem OwnDoors.supervise (h : OwnDoors l s) (d : Fin 4) : OwnDoors (l ++ [d]) (Dsv.supervise d s) := by
  have wider : ∀ e : Entry, (∃ k ∈ l, e.scope = .door k) → ∃ k ∈ l ++ [d], e.scope = .door k :=
    fun e ⟨k, there, scope⟩ => ⟨k, List.mem_append_left _ there, scope⟩
  have length : (l ++ [d]).length = l.length + 1 := by rw [List.length_append, List.length_singleton]
  rcases supervise_ilt d s with same | ⟨slot, e, is, same⟩
  · refine ⟨fun f there => ?_, ?_⟩
    · rw [State.live_congr same] at there
      obtain ⟨owner, kind, scope⟩ := h.live f there
      exact ⟨owner, kind, wider f scope⟩
    · have room := h.room
      rw [State.ownSlots, same, length]
      exact Nat.le_succ_of_le room
  · refine ⟨fun f there => ?_, ?_⟩
    · rw [State.live_congr same] at there
      rcases placeEntry_live_cases there with before | rfl
      · obtain ⟨owner, kind, scope⟩ := h.live f before
        exact ⟨owner, kind, wider f scope⟩
      · obtain ⟨owner, kind, scope⟩ := is (s.handleOf slot)
        exact ⟨owner, kind, d, List.mem_append_right _ (List.mem_singleton_self d), scope⟩
    · have sub : (Dsv.supervise d s).ownSlots ⊆ insert slot s.ownSlots := by
        intro i there
        obtain ⟨high, filled⟩ := (Finset.mem_filter.mp there).2
        rw [same, placeEntry_slot] at filled
        split at filled
        case isTrue here => exact Finset.mem_insert.mpr (.inl here.symm)
        case isFalse => exact Finset.mem_insert_of_mem (Finset.mem_filter.mpr ⟨Finset.mem_univ i, high, filled⟩)
      calc (Dsv.supervise d s).ownSlots.card ≤ (insert slot s.ownSlots).card := Finset.card_le_card sub
        _ ≤ s.ownSlots.card + 1 := Finset.card_insert_le _ _
        _ ≤ (l ++ [d]).length := by rw [length]; exact Nat.succ_le_succ h.room

theorem OwnDoors.superviseList (h : OwnDoors l s) (m : List (Fin 4)) : OwnDoors (l ++ m) (superviseList m s) := by
  induction m generalizing l s with
  | nil =>
    rw [List.append_nil]
    exact h
  | cons d m ih =>
    have step := ih (h.supervise d)
    rw [List.append_assoc] at step
    exact step

theorem OwnDoors.partnerClaims (h : OwnDoors l s) (d : Fin 4) : s.partnerClaims d = false := by
  refine Bool.eq_false_iff.mpr fun claims => ?_
  obtain ⟨f, there, is⟩ := List.any_eq_true.mp claims
  exact ((partnerDoor_iff f).mp (Bool.and_eq_true_iff.mp is).1).1 (h.live f there).1

theorem OwnDoors.selfClaims (h : OwnDoors l s) (out : d ∉ l) : s.selfClaims d = false := by
  refine Bool.eq_false_iff.mpr fun claims => ?_
  obtain ⟨f, there, is⟩ := List.any_eq_true.mp claims
  obtain ⟨-, -, k, listed, scope⟩ := h.live f there
  have scope' : f.scope = .door d := (of_decide_eq_true (Bool.and_eq_true_iff.mp is).2).2
  obtain rfl : k = d := Scope.door.inj (scope.symm.trans scope')
  exact out listed

/-- A door derived from an empty table, but for the entries of the doors before it (R68, R72). -/
theorem OwnDoors.derives (h : OwnDoors l s) (out : d ∉ l) (few : l.length < 4) (run : s.inRun = true) (fitted : s.fitted d = true) :
    ((rd s.dsv.doors d).contact.debounced = true → (rd (Dsv.supervise d s).dsv.doors d).supervision = .shut)
      ∧ ((rd s.dsv.doors d).contact.debounced = false → (rd (Dsv.supervise d s).dsv.doors d).supervision = .unclaimed
        ∧ ((rd s.dsv.doors d).supervision ≠ .unclaimed → (Dsv.supervise d s).flagged 2
          ∧ ((rd s.dsv.doors d).selfHandle = none → (Dsv.supervise d s).HoldsDoor d))) := by
  refine ⟨fun shut => ?_, fun unshut => ?_⟩
  · rw [supervise_supervision run fitted, State.supervisionOf, if_neg (by simp [h.partnerClaims d]), if_neg (by simp [shut]),
      if_neg (by simp [h.selfClaims out])]
  · have now := supervisionOf_unclaimed (h.partnerClaims d) unshut
    refine ⟨(supervise_supervision run fitted).trans now, fun before => ?_⟩
    obtain ⟨-, posted, opens⟩ := supervise_becomes run fitted now before
    refine ⟨posted, fun unheld => opens ⟨unheld, h.free (by omega), fun f there _ _ scope => out ?_⟩⟩
    obtain ⟨-, -, k, listed, scope'⟩ := h.live f there
    obtain rfl : k = d := Scope.door.inj (scope'.symm.trans scope)
    exact listed

/-- What a door holds stays through what opens other entries. -/
theorem Gains.holdsDoor {t : State} (h : Gains s t) (same : (rd t.dsv.doors d).selfHandle = (rd s.dsv.doors d).selfHandle)
    (holds : s.HoldsDoor d) : t.HoldsDoor d := by
  obtain ⟨n, f, held, resolved, owner, kind, scope⟩ := holds
  obtain ⟨g, after, reviewed⟩ := h.resolve resolved
  have record := reviewed.record
  simp only [Entry.record, Prod.mk.injEq] at record
  obtain ⟨-, sameKind, sameOwner, -, sameScope, -, -⟩ := record
  exact ⟨n, g, same.trans held, after, sameOwner.trans owner, sameKind.trans kind, sameScope.trans scope⟩

/-- Every fitted door from an empty table (R72). -/
theorem superviseAll_empty (empty : ∀ i, (rd s.ilt.slots i).entry = none) (run : s.inRun = true) (fitted : s.fitted d = true) :
    let t := superviseAll s
    ((rd s.dsv.doors d).contact.debounced = true → (rd t.dsv.doors d).supervision = .shut)
      ∧ ((rd s.dsv.doors d).contact.debounced = false → (rd t.dsv.doors d).supervision = .unclaimed
        ∧ ((rd s.dsv.doors d).supervision ≠ .unclaimed → t.flagged 2 ∧ ((rd s.dsv.doors d).selfHandle = none → t.HoldsDoor d))) := by
  obtain ⟨before, after, earlier, later, few, turn⟩ := superviseAll_turn d
  intro t
  let u := superviseList before s
  have evolves : Evolves s u := superviseList_evolves before s
  have door : rd u.dsv.doors d = rd s.dsv.doors d := superviseList_door_other earlier s
  have runU : u.inRun = true := by
    rw [State.inRun, evolves.base.cfg]
    exact run
  have fittedU : u.fitted d = true := by
    rw [State.fitted, evolves.base.cfg]
    exact fitted
  obtain ⟨shut, unshut⟩ := ((ownDoors_of_empty empty).superviseList before).derives (d := d) (by simpa using earlier) (by simpa using few) runU fittedU
  have ends : t = superviseList after (Dsv.supervise d u) := turn s
  have same : rd t.dsv.doors d = rd (Dsv.supervise d u).dsv.doors d := by
    rw [ends]
    exact superviseList_door_other later _
  have gains : Gains (Dsv.supervise d u) t := by
    rw [ends]
    exact superviseList_closed (gains_openClosed _) after (Gains.refl _)
  have kept : Evolves (Dsv.supervise d u) t := by
    rw [ends]
    exact superviseList_evolves after _
  rw [door] at shut unshut
  rw [same]
  refine ⟨shut, fun unclosed => ⟨(unshut unclosed).1, fun fresh => ?_⟩⟩
  obtain ⟨posted, opens⟩ := (unshut unclosed).2 fresh
  exact ⟨kept.flagged posted, fun unheld => gains.holdsDoor (by rw [same]) (opens unheld)⟩

theorem superviseAll_supervision (run : s.inRun = true) (fitted : s.fitted d = true) :
    (rd (superviseAll s).dsv.doors d).supervision ≠ .dormant := by
  obtain ⟨before, after, -, later, -, turn⟩ := superviseAll_turn d
  have base := (superviseList_evolves before s).base
  rw [turn, superviseList_door_other later, supervise_supervision]
  · exact supervisionOf_ne_dormant _ _
  · rw [State.inRun, base.cfg]
    exact run
  · rw [State.fitted, base.cfg]
    exact fitted

end

end Sys2Proof.Machine
end

