-- ==== Sys2Proof/Proofs/CornersAtStart.lean ====
section
/-! PROOF. The corners judged one after the other at the entry into RUN (R97, R98) -/

namespace Sys2Proof.Machine

/-! ## The corners at the entry into RUN (R97, R99, R100) -/

/-- A corner in FAULT stays there for its cause, one that rests by its reasons stays so, and its load's validity is kept. -/
structure Corner.Stands (b a : Corner) : Prop where
  rests : b.AtRest → a.AtRest
  faulted : a.state = .fault ↔ b.state = .fault
  cause : a.fault = b.fault

theorem Corner.Follows.stands {may : FreezeReason → Prop} {b a : Corner} (h : b.Follows may a) : b.Stands a := ⟨h.rests, h.fault, h.cause.1⟩

theorem Corner.Stands.trans {a b c : Corner} (h : a.Stands b) (k : b.Stands c) : a.Stands c :=
  ⟨k.rests ∘ h.rests, k.faulted.trans h.faulted, k.cause.trans h.cause⟩

theorem Corner.Stands.followsReasons {b a : Corner} (h : b.Stands a) : b.FollowsReasons a :=
  ⟨fun holding some' => h.rests (by rw [Corner.AtRest, if_neg some', holding]), h.faulted.mpr⟩

section
variable {s : State} {c k : Fin 6}

/-- One corner's standing cause judged. -/
def judgeCause (s : State) (c : Fin 6) : State :=
  match s.cornerCause c with
  | some r => Crn.fault c r s
  | none => s

theorem judgeCause_none (quiet : s.cornerCause c = none) : judgeCause s c = s := by rw [judgeCause, quiet]

theorem judgeCause_some {r : CornerFault} (cause : s.cornerCause c = some r) : judgeCause s c = Crn.fault c r s := by rw [judgeCause, cause]

theorem judgeCause_evolves (s : State) (c : Fin 6) : Evolves s (judgeCause s c) := by
  unfold judgeCause
  split
  · exact ev_crnFault _ _ .refl
  · exact .refl

theorem judgeCause_other (other : c ≠ k) : (rd s.crn.corners c).Follows (fun _ => False) (rd (judgeCause s k).crn.corners c) := by
  unfold judgeCause
  split
  · exact crnFault_other other
  · exact .refl _ _

theorem Evolves.cornerCause {t : State} (h : Evolves s t) (c : Fin 6) : t.cornerCause c = s.cornerCause c := by
  have failed (ch : Fin 18) : (t.channelState ch).failed = (s.channelState ch).failed :=
    h.channel (P := fun x => x.state.failed = (s.channelState ch).failed) (fun now v x same => Channel.take_failed now v x same) ch rfl
  have faulty : t.analogFaulty (heightChannel c) = s.analogFaulty (heightChannel c) := by rw [State.analogFaulty, h.base.mot, State.analogFaulty]
  simp only [State.cornerCause, failed, faulty]

theorem crnFault_axles (r : CornerFault) : (Crn.fault k r s).crn.axles = s.crn.axles := by
  unfold Crn.fault
  split
  · rw [State.post_crn, Crn.changeOne, (settle_follows _).axles]
    rfl
  · rfl

theorem crnFault_load (r : CornerFault) : (rd (Crn.fault k r s).crn.corners c).loadValid = (rd s.crn.corners c).loadValid := by
  by_cases other : c = k
  case neg => exact (crnFault_other other).cause.2.1
  case pos =>
    subst other
    unfold Crn.fault
    split
    · have follows := changeOne_corner c (fun x => { x.enter .fault with fault := some r }) s c
      rw [if_pos rfl] at follows
      rw [State.post_crn, follows.cause.2.1]
      rfl
    · rfl

theorem judgeCause_loads (s : State) (k : Fin 6) : (judgeCause s k).crn.axles = s.crn.axles
    ∧ ∀ c, (rd (judgeCause s k).crn.corners c).loadValid = (rd s.crn.corners c).loadValid := by
  unfold judgeCause
  split
  · exact ⟨crnFault_axles _, fun _ => crnFault_load _⟩
  · exact ⟨rfl, fun _ => rfl⟩

theorem judgeCause_keepsOthers (s : State) (k : Fin 6) : (judgeCause s k).ilt = s.ilt ∧ (judgeCause s k).rlu = s.rlu
    ∧ (judgeCause s k).brk = s.brk ∧ (judgeCause s k).stc = s.stc ∧ (judgeCause s k).dsv = s.dsv := by
  unfold judgeCause
  split
  · exact crnFault_beside
  · exact ⟨rfl, rfl, rfl, rfl, rfl⟩

/-- Some corners judged, one after the other. -/
def judgeList (l : List (Fin 6)) (s : State) : State := l.foldl judgeCause s

theorem judgeCauses_eq (s : State) : Crn.judgeCauses s = judgeList (List.finRange 6) s := rfl

theorem judgeList_evolves (l : List (Fin 6)) (s : State) : Evolves s (judgeList l s) := by
  induction l generalizing s with
  | nil => exact .refl
  | cons c l ih => exact (judgeCause_evolves s c).trans (ih _)

theorem judgeList_other {l : List (Fin 6)} (out : c ∉ l) (s : State) :
    (rd s.crn.corners c).Follows (fun _ => False) (rd (judgeList l s).crn.corners c) := by
  induction l generalizing s with
  | nil => exact .refl _ _
  | cons k l ih =>
    obtain ⟨other, rest⟩ := not_or.mp (List.mem_cons.not.mp out)
    exact (judgeCause_other other).trans (ih rest _)

theorem judgeList_loads (l : List (Fin 6)) (s : State) : (judgeList l s).crn.axles = s.crn.axles
    ∧ ∀ c, (rd (judgeList l s).crn.corners c).loadValid = (rd s.crn.corners c).loadValid := by
  induction l generalizing s with
  | nil => exact ⟨rfl, fun _ => rfl⟩
  | cons k l ih =>
    obtain ⟨axles, loads⟩ := judgeCause_loads s k
    obtain ⟨axles', loads'⟩ := ih (judgeCause s k)
    exact ⟨axles'.trans axles, fun c => (loads' c).trans (loads c)⟩

theorem judgeList_keepsOthers (l : List (Fin 6)) (s : State) : (judgeList l s).ilt = s.ilt ∧ (judgeList l s).rlu = s.rlu
    ∧ (judgeList l s).brk = s.brk ∧ (judgeList l s).stc = s.stc ∧ (judgeList l s).dsv = s.dsv := by
  induction l generalizing s with
  | nil => exact ⟨rfl, rfl, rfl, rfl, rfl⟩
  | cons k l ih =>
    obtain ⟨ilt, rlu, brk, stc, dsv⟩ := judgeCause_keepsOthers s k
    obtain ⟨ilt', rlu', brk', stc', dsv'⟩ := ih (judgeCause s k)
    exact ⟨ilt'.trans ilt, rlu'.trans rlu, brk'.trans brk, stc'.trans stc, dsv'.trans dsv⟩

/-- R97: a corner with a standing cause enters FAULT for the first of them, and every other one stands. -/
theorem judgeCauses_corner (run : s.inRun = true) (c : Fin 6) :
    (∀ r, s.cornerCause c = some r → (rd s.crn.corners c).state ≠ .fault →
      (rd (Crn.judgeCauses s).crn.corners c).state = .fault ∧ (rd (Crn.judgeCauses s).crn.corners c).fault = some r
        ∧ (Crn.judgeCauses s).flagged 5)
    ∧ (s.cornerCause c = none ∨ (rd s.crn.corners c).state = .fault →
      (rd s.crn.corners c).Stands (rd (Crn.judgeCauses s).crn.corners c)) := by
  obtain ⟨before, after, split⟩ := List.append_of_mem (List.mem_finRange c)
  have once : (before ++ c :: after).Nodup := split ▸ List.nodup_finRange 6
  rw [List.nodup_append, List.nodup_cons] at once
  obtain ⟨-, ⟨later, -⟩, apart⟩ := once
  have earlier : c ∉ before := fun there => apart c there c (List.mem_cons_self ..) rfl
  let u := judgeList before s
  have turn : Crn.judgeCauses s = judgeList after (judgeCause u c) := by
    rw [judgeCauses_eq, split, judgeList, List.foldl_append]
    rfl
  have evolves : Evolves s u := judgeList_evolves before s
  have runU : u.inRun = true := by
    rw [State.inRun, evolves.base.cfg]
    exact run
  have first : (rd s.crn.corners c).Follows (fun _ => False) (rd u.crn.corners c) := judgeList_other earlier s
  have last := judgeList_other later (judgeCause u c)
  rw [turn]
  refine ⟨fun r cause sound => ?_, fun quiet => ?_⟩
  · have entered := crnFault_entered (r := r) runU (mt first.fault.mp sound)
    rw [← judgeCause_some ((evolves.cornerCause c).trans cause)] at entered
    obtain ⟨state, fault, -, posted, -⟩ := entered
    exact ⟨last.fault.mpr state, last.cause.1.trans fault, (judgeList_evolves after _).flagged posted⟩
  · have stays : judgeCause u c = u := by
      rcases quiet with none | fault
      · exact judgeCause_none ((evolves.cornerCause c).trans none)
      · unfold judgeCause
        split
        · exact crnFault_stays (.inr (first.fault.mpr fault))
        · rfl
    have stands := last.stands
    rw [stays] at stands ⊢
    exact first.stands.trans stands

/-- CRN brought into RUN. -/
def State.levelled (s : State) : State := Crn.fromDevice (Crn.judgeCauses (Crn.forgetLoads s))

theorem levelled_evolves : Evolves s s.levelled := ev_fromDevice (ev_judgeCauses (ev_forgetLoads .refl))

theorem levelled_beside : s.levelled.ilt = s.ilt ∧ s.levelled.brk = s.brk ∧ s.levelled.stc = s.stc ∧ s.levelled.dsv = s.dsv := by
  obtain ⟨ilt, -, brk, stc, dsv⟩ := judgeList_keepsOthers (List.finRange 6) (Crn.forgetLoads s)
  obtain ⟨ilt', -, brk', stc', dsv', -⟩ := change_keepsOthers (fun _ c => c.judge .config (!(Crn.judgeCauses (Crn.forgetLoads s)).inRun))
    (Crn.judgeCauses (Crn.forgetLoads s))
  exact ⟨ilt'.trans ilt, brk'.trans brk, stc'.trans stc, dsv'.trans dsv⟩

theorem forgetLoads_corner (s : State) (c : Fin 6) :
    rd (Crn.forgetLoads s).crn.corners c = { rd s.crn.corners c with loadValid := false } := by
  rw [Crn.forgetLoads, State.modCrn_crn, rd_mapF]

theorem forgetLoads_axle (s : State) (a : Fin 3) : (rd (Crn.forgetLoads s).crn.axles a).valid = false := by
  rw [Crn.forgetLoads, State.modCrn_crn, rd_mapF]

/-- R99: in RUN a corner loses CONFIG. -/
theorem fromDevice_corner (run : s.inRun = true) (c : Fin 6) :
    (rd (Crn.fromDevice s).crn.corners c).reasons.has .config = false
      ∧ (rd (Crn.fromDevice s).crn.corners c).loadValid = (rd s.crn.corners c).loadValid
      ∧ (rd s.crn.corners c).Stands (rd (Crn.fromDevice s).crn.corners c) := by
  have follows : ((rd s.crn.corners c).judge .config (!s.inRun)).Follows (fun _ => False) (rd (Crn.fromDevice s).crn.corners c) :=
    change_corner (fun _ c => c.judge .config (!s.inRun)) s c
  have judged := Corner.judge_follows .config (!s.inRun) (rd s.crn.corners c)
  refine ⟨?_, follows.cause.2.1.trans judged.cause.2.1, judged.stands.trans follows.stands⟩
  rw [follows.reasons _ id, Corner.judge_reasons, FreezeSet.has_put, if_pos rfl, run]
  rfl

theorem fromDevice_axles (s : State) : (Crn.fromDevice s).crn.axles = s.crn.axles := by
  rw [Crn.fromDevice, Crn.change, (settle_follows _).axles]
  rfl

/-- The corners of a bus brought into RUN, against those before. -/
theorem levelled_corner (run : s.inRun = true) (c : Fin 6) :
    (rd s.levelled.crn.corners c).reasons.has .config = false ∧ (rd s.levelled.crn.corners c).loadValid = false
    ∧ (∀ r, s.cornerCause c = some r → (rd s.crn.corners c).state ≠ .fault →
      (rd s.levelled.crn.corners c).state = .fault ∧ (rd s.levelled.crn.corners c).fault = some r ∧ s.levelled.flagged 5)
    ∧ (s.cornerCause c = none ∨ (rd s.crn.corners c).state = .fault → (rd s.crn.corners c).Stands (rd s.levelled.crn.corners c)) := by
  have evolves : Evolves s (Crn.forgetLoads s) := ev_forgetLoads .refl
  have run' : (Crn.forgetLoads s).inRun = true := by
    rw [State.inRun, evolves.base.cfg]
    exact run
  have runJ : (Crn.judgeCauses (Crn.forgetLoads s)).inRun = true := by
    rw [State.inRun, (ev_judgeCauses evolves).base.cfg]
    exact run
  obtain ⟨faults, stands⟩ := judgeCauses_corner run' c
  rw [forgetLoads_corner, evolves.cornerCause c] at faults stands
  obtain ⟨config, load, whole⟩ := fromDevice_corner runJ c
  have loads : (rd (Crn.judgeCauses (Crn.forgetLoads s)).crn.corners c).loadValid = false := by
    rw [judgeCauses_eq, (judgeList_loads (List.finRange 6) (Crn.forgetLoads s)).2 c, forgetLoads_corner]
  refine ⟨config, load.trans loads, fun r is sound => ?_, fun quiet => ?_⟩
  · obtain ⟨state, fault, posted⟩ := faults r is sound
    exact ⟨whole.faulted.mpr state, whole.cause.trans fault, (ev_fromDevice .refl).flagged posted⟩
  · obtain ⟨rests, faulted, kept⟩ := stands quiet
    exact Corner.Stands.trans ⟨rests, faulted, kept⟩ whole

theorem levelled_axles (s : State) (a : Fin 3) : (rd s.levelled.crn.axles a).valid = false := by
  rw [State.levelled, fromDevice_axles, judgeCauses_eq, (judgeList_loads (List.finRange 6) (Crn.forgetLoads s)).1, forgetLoads_axle]

end

end Sys2Proof.Machine
end

