-- ==== Sys2Proof/Proofs/StartStages.lean ====
section
/-! PROOF. The stages of the entry into RUN (R186) -/

namespace Sys2Proof.Machine

/-! ## The stages of the entry into RUN (R186) -/

section
variable {s : State}

/-- In RUN, with the contacts of the fitted doors handed to ILT. -/
def State.manned (s : State) : State := handContacts (s.modCfg fun c => { c with device := .run })

/-- DSV and CRN in RUN. -/
def State.ready (s : State) : State := (superviseAll s.manned).levelled

/-- STC and MOT in RUN, and the rotation of the broadcast at its start. -/
def State.underWay (s : State) : State := (Mot.arm (Stc.enterRun s.ready)).modLnk fun l => { l with rotation := 0 }

theorem oc_enterRun {P : State → Prop} (b : OpenClosed P) {u : State} (h : P u) : P (Stc.enterRun u) := by
  have moved := oc_enterMoving b (b.stc (fun x => { x with
    schedule := some u.scheduleAtStart, command := clampInt (-u.scheduleAtStart.lim) u.scheduleAtStart.lim (u.analogValue 15)
    lower := -u.scheduleAtStart.lim, upper := u.scheduleAtStart.lim }) _ h)
  exact oc_ite (oc_stcAskEntry b moved) moved

/-- MOT armed and the rotation at its start leave the other blocks. -/
theorem armed_beside (u : State) : let t := (Mot.arm u).modLnk fun l => { l with rotation := 0 }
    t.ilt = u.ilt ∧ t.stc = u.stc ∧ t.crn = u.crn ∧ t.vda = u.vda ∧ t.cfg = u.cfg ∧ t.brk = u.brk ∧ t.dsv = u.dsv ∧ t.now = u.now
      ∧ t.lnk.notices = u.lnk.notices := by
  unfold Mot.arm
  split <;> exact ⟨rfl, rfl, rfl, rfl, rfl, rfl, rfl, rfl, rfl⟩

theorem enterRun_stages (s : State) : enterRun s = placeBroadcast (State.finish s.underWay) := rfl

theorem manned_slots (i : Fin 24) : rd s.manned.ilt.slots i = rd s.ilt.slots i := rfl

theorem manned_contacts (d : Fin 4) (fitted : d.val < s.cfg.settings.doorCount) :
    rd s.manned.ilt.contacts d = (rd s.dsv.doors d).contact.debounced := by
  have handed : rd s.manned.ilt.contacts d = if s.manned.fitted d then (rd s.dsv.doors d).contact.debounced else rd s.ilt.contacts d := by
    rw [State.manned, handContacts, State.modIlt_ilt, rd_mapF]
    rfl
  rw [handed]
  exact if_pos (decide_eq_true fitted)

theorem ready_evolves : Evolves s.manned s.ready := (superviseList_evolves (List.finRange 4) s.manned).trans levelled_evolves

theorem ready_keeps : s.ready.stc.latch = s.stc.latch ∧ s.ready.stc.selfHandle = s.stc.selfHandle
    ∧ s.ready.stc.bankInUse = s.stc.bankInUse := by
  have moves : SteerMoves s.manned (superviseAll s.manned) := superviseList_moves (List.finRange 4) s.manned
  obtain ⟨latch, handle, -⟩ := moves.keeps
  rw [State.ready, levelled_beside.2.2.1]
  exact ⟨latch, handle, moves.stands.banks⟩

theorem ready_scheduleAtStart : s.ready.scheduleAtStart = s.scheduleAtStart := by
  have mot : s.ready.mot = s.mot := ready_evolves.base.mot
  rw [State.scheduleAtStart, mot, ready_keeps.2.2, State.scheduleAtStart]

theorem ready_analogValue (c : Fin 21) : s.ready.analogValue c = s.analogValue c := by
  have mot : s.ready.mot = s.mot := ready_evolves.base.mot
  rw [State.analogValue, mot, State.analogValue]

theorem ready_inRun : s.ready.inRun = true := by
  rw [State.inRun, ready_evolves.base.cfg]
  rfl

theorem entered_evolves : Evolves s.manned (Stc.enterRun s.ready) := ready_evolves.trans (ev_stcEnterRun .refl)

theorem underWay_beside : s.underWay.ilt = (Stc.enterRun s.ready).ilt ∧ s.underWay.stc = (Stc.enterRun s.ready).stc
    ∧ s.underWay.crn = (Stc.enterRun s.ready).crn ∧ s.underWay.vda = (Stc.enterRun s.ready).vda ∧ s.underWay.cfg = (Stc.enterRun s.ready).cfg
    ∧ s.underWay.brk = (Stc.enterRun s.ready).brk ∧ s.underWay.dsv = (Stc.enterRun s.ready).dsv ∧ s.underWay.now = (Stc.enterRun s.ready).now
    ∧ s.underWay.lnk.notices = (Stc.enterRun s.ready).lnk.notices := armed_beside (Stc.enterRun s.ready)

theorem underWay_mot : s.underWay.mot = if s.mot.motion = .standstill then { s.mot with armed := true, reference := s.mot.counter } else s.mot := by
  have mot : (Stc.enterRun s.ready).mot = s.mot := entered_evolves.base.mot
  have run : (Stc.enterRun s.ready).inRun = true := by
    rw [State.inRun, entered_evolves.base.cfg]
    rfl
  have standing : (Stc.enterRun s.ready).standing = true ↔ s.mot.motion = .standstill := by rw [standing_iff, mot]
  unfold State.underWay Mot.arm
  by_cases stands : s.mot.motion = .standstill
  · rw [if_pos ⟨run, standing.mpr stands⟩, if_pos stands, State.modLnk_mot, State.modMot_mot, mot]
  · rw [if_neg fun h => stands (standing.mp h.2), if_neg stands, State.modLnk_mot, mot]

/-- The end of START, from the state that the blocks have come to. -/
theorem placeBroadcast_beside (u : State) : (placeBroadcast u).ilt = u.ilt ∧ (placeBroadcast u).stc = u.stc ∧ (placeBroadcast u).crn = u.crn
    ∧ (placeBroadcast u).vda = u.vda ∧ (placeBroadcast u).cfg = u.cfg ∧ (placeBroadcast u).brk = u.brk ∧ (placeBroadcast u).dsv = u.dsv
    ∧ (placeBroadcast u).now = u.now ∧ (placeBroadcast u).mot = u.mot ∧ (placeBroadcast u).lnk.notices = u.lnk.notices :=
  ⟨rfl, rfl, rfl, rfl, rfl, rfl, rfl, rfl, rfl, rfl⟩

/-- What the entry into RUN keeps of the bus, and what it puts in force. -/
theorem enterRun_base : (enterRun s).cfg = { s.cfg with device := .run } ∧ (enterRun s).now = s.now
    ∧ (enterRun s).ilt.registry = s.ilt.registry ∧ (enterRun s).ilt.contacts = s.manned.ilt.contacts
    ∧ (enterRun s).mot = if s.mot.motion = .standstill then { s.mot with armed := true, reference := s.mot.counter } else s.mot := by
  have base : SameBase s.manned (Stc.enterRun s.ready) := entered_evolves.base
  have final : SameBase s.underWay (State.finish s.underWay) := finish_base _
  obtain ⟨ilt, -, -, -, cfg, -, -, now, -⟩ := underWay_beside (s := s)
  obtain ⟨ilt', -, -, -, cfg', -, -, now', mot', -⟩ := placeBroadcast_beside (State.finish s.underWay)
  rw [enterRun_stages, ilt', cfg', now', mot', final.cfg, final.now, final.registry, final.contacts, final.mot, ilt, cfg, now, base.cfg,
    base.now, base.registry, base.contacts, underWay_mot]
  exact ⟨rfl, rfl, rfl, rfl, rfl⟩

theorem enterRun_flagged {i : Fin 14} (raised : (Stc.enterRun s.ready).flagged i) : (enterRun s).flagged i := by
  obtain ⟨-, -, -, -, -, -, -, -, notices⟩ := underWay_beside (s := s)
  obtain ⟨-, -, -, -, -, -, -, -, -, notices'⟩ := placeBroadcast_beside (State.finish s.underWay)
  have ended : (State.finish s.underWay).flagged i := by
    refine finish_flagged ?_
    rw [State.flagged, notices]
    exact raised
  rw [enterRun_stages, State.flagged, notices']
  exact ended

/-- STC from the state that CRN and DSV have left to the end of START. -/
theorem enterRun_steerEnds : SteerEnds (Stc.enterRun s.ready) (enterRun s) := by
  obtain ⟨ilt, stc, -, vda, -⟩ := underWay_beside (s := s)
  obtain ⟨ilt', stc', -, vda', -⟩ := placeBroadcast_beside (State.finish s.underWay)
  have first : SteerEnds (Stc.enterRun s.ready) s.underWay := se_still (.refl _) ilt stc (by rw [State.lockCommand, vda, State.lockCommand])
  rw [enterRun_stages]
  exact se_still (first.trans (finish_steerEnds _)) ilt' stc' (by rw [State.lockCommand, vda', State.lockCommand])

/-- CRN from the state that it is brought into to the end of START. -/
theorem enterRun_follows : CornersFollow tableReason s.ready (enterRun s) := by
  obtain ⟨-, -, crn, -⟩ := underWay_beside (s := s)
  obtain ⟨-, -, crn', -⟩ := placeBroadcast_beside (State.finish s.underWay)
  have opened : CornersFollow tableReason s.ready (Stc.enterRun s.ready) := oc_enterRun (follows_openClosed s.ready) (.refl _ s.ready)
  rw [enterRun_stages]
  exact (opened.trans (cornersFollow_of_same crn)).trans ((finish_follows _).trans (cornersFollow_of_same crn'))

/-- What the table gains between the doors' derivation and the end of START. -/
theorem enterRun_gains : Gains (superviseAll s.manned) (enterRun s) := by
  obtain ⟨ilt, -⟩ := underWay_beside (s := s)
  obtain ⟨ilt', -⟩ := placeBroadcast_beside (State.finish s.underWay)
  have opened : Gains s.ready (Stc.enterRun s.ready) := oc_enterRun (gains_openClosed s.ready) (Gains.refl s.ready)
  have levelled : Gains (superviseAll s.manned) s.ready := gains_of_ilt levelled_beside.1
  rw [enterRun_stages]
  exact ((levelled.trans opened).trans (gains_of_ilt ilt)).trans ((gains_of_reviewed (finish_reviewed _)).trans (gains_of_ilt ilt'))

end

end Sys2Proof.Machine
end

