-- ==== Sys2Proof/Proofs/Started.lean ====
section
/-! PROOF. The state at the end of START -/

namespace Sys2Proof.Machine

/-! ## START (R186) -/

section
variable {x : Sender} {s : State}

theorem requestStart_other (served : s.serves x) (device : s.cfg.device ≠ .config) : requestStart x.partner s = (s, s.configOnly) := by
  rw [requestStart, ifRoot_of_serves served, if_pos device]

theorem requestStart_refused (served : s.serves x) (device : s.cfg.device = .config) {n : Nat} (failure : s.startFailure = some n) :
    requestStart x.partner s = (s, .withDetail .startInvalid n) := by
  rw [requestStart, ifRoot_of_serves served, if_neg (not_not_intro device), failure]

theorem requestStart_starts (served : s.serves x) (device : s.cfg.device = .config) (sound : s.startFailure = none) :
    requestStart x.partner s = (enterRun s, (enterRun s).deviceAnswer) := by
  rw [requestStart, ifRoot_of_serves served, if_neg (not_not_intro device), sound]

/-- R186: the checks in their order. -/
theorem startFailure_checks (s : State) :
    let doors := 2 ≤ s.cfg.settings.doorCount ∧ s.cfg.settings.doorCount ≤ 4
    let shares := rd s.cfg.settings.share 0 + rd s.cfg.settings.share 1 + rd s.cfg.settings.share 2 = 1000
    let bank := (s.stc.bank s.stc.inUse).valid = true
    (¬ doors → s.startFailure = some 1) ∧ (doors → ¬ shares → s.startFailure = some 2)
      ∧ (doors → shares → ¬ bank → s.startFailure = some 3)
      ∧ (doors → shares → bank → s.cfg.settings.inRange = false → s.startFailure = some 4)
      ∧ (doors → shares → bank → s.cfg.settings.inRange = true → s.startFailure = none) := by
  intro doors shares bank
  have first : (s.cfg.settings.doorCount < 2 ∨ 4 < s.cfg.settings.doorCount) ↔ ¬ doors := by
    simp only [doors]
    omega
  have third : s.stc.bankInUse.valid = false ↔ ¬ bank := by rw [← Bool.not_eq_true]; rfl
  have checks : s.startFailure = if ¬ doors then some 1 else if ¬ shares then some 2 else if ¬ bank then some 3
      else if s.cfg.settings.inRange = false then some 4 else none := by
    simp only [State.startFailure, first, third]
    rfl
  rw [checks]
  refine ⟨fun a => if_pos a, fun a b => ?_, fun a b c => ?_, fun a b c d => ?_, fun a b c d => ?_⟩
  · rw [if_neg (not_not_intro a), if_pos b]
  · rw [if_neg (not_not_intro a), if_neg (not_not_intro b), if_pos c]
  · rw [if_neg (not_not_intro a), if_neg (not_not_intro b), if_neg (not_not_intro c), if_pos d]
  · rw [if_neg (not_not_intro a), if_neg (not_not_intro b), if_neg (not_not_intro c), if_neg (by simp [d])]

end

section
variable {s : State}

/-- STC in RUN at the end of START (R148). -/
theorem enterRun_steering : (enterRun s).stc.state ≠ .parked ∧ (enterRun s).stc.schedule = some s.scheduleAtStart
    ∧ (enterRun s).stc.command = max (-s.scheduleAtStart.lim) (min s.scheduleAtStart.lim (s.analogValue 15))
    ∧ (enterRun s).stc.lower = -s.scheduleAtStart.lim ∧ (enterRun s).stc.upper = s.scheduleAtStart.lim
    ∧ (enterRun s).lockCommand = 1 := by
  have stands : SteerStands s.ready.launched (enterRun s) := enterRun_stands.trans enterRun_steerEnds.moves.stands
  have launched := launched_stc s.ready
  rw [ready_scheduleAtStart, ready_analogValue] at launched
  refine ⟨stands.parked ?_, ?_, ?_, ?_, ?_, stands.lock (launched_lock _)⟩
  · rw [launched]
    cases s.ready.standing <;> simp
  · rw [stands.schedule, launched]
  · rw [stands.command, launched]
    rfl
  · rw [stands.lower, launched]
  · rw [stands.upper, launched]

/-- A corner at the end of START, by its standing cause (R97, R98). -/
theorem enterRun_corner (c : Fin 6) :
    ((rd (enterRun s).crn.corners c).reasons.config = false ∧ (rd (enterRun s).crn.corners c).loadValid = false)
    ∧ ((rd s.crn.corners c).state = .fault → (rd (enterRun s).crn.corners c).state = .fault
      ∧ (rd (enterRun s).crn.corners c).fault = (rd s.crn.corners c).fault)
    ∧ (∀ r, s.cornerCause c = some r → (rd s.crn.corners c).state ≠ .fault →
      (rd (enterRun s).crn.corners c).state = .fault ∧ (rd (enterRun s).crn.corners c).fault = some r ∧ (enterRun s).flagged 5)
    ∧ (s.cornerCause c = none → (rd s.crn.corners c).state ≠ .fault → (rd (enterRun s).crn.corners c).state ≠ .fault
      ∧ (rd s.crn.corners c).FollowsReasons (rd (enterRun s).crn.corners c)) := by
  let u := superviseAll s.manned
  have evolves : Evolves s.manned u := superviseList_evolves (List.finRange 4) s.manned
  have run : u.inRun = true := by
    rw [State.inRun, evolves.base.cfg]
    rfl
  have cause : u.cornerCause c = s.cornerCause c := (evolves.cornerCause c).trans rfl
  have opened : CornersFollow tableReason s.manned u := superviseList_closed (follows_openClosed s.manned) (List.finRange 4) (.refl _ _)
  have first : (rd s.crn.corners c).Stands (rd u.crn.corners c) := (opened.corners c).stands
  obtain ⟨config, load, faults, stands⟩ := levelled_corner run c
  rw [cause] at faults stands
  have last : (rd s.ready.crn.corners c).Follows tableReason (rd (enterRun s).crn.corners c) := enterRun_follows.corners c
  refine ⟨⟨?_, last.cause.2.1.trans load⟩, fun faulted => ?_, fun r is sound => ?_, fun quiet sound => ?_⟩
  · exact (last.reasons .config (by simp [tableReason])).trans config
  · have whole := (first.trans (stands (.inr (first.faulted.mpr faulted)))).trans last.stands
    exact ⟨whole.faulted.mpr faulted, whole.cause⟩
  · obtain ⟨state, fault, posted⟩ := faults r is (mt first.faulted.mp sound)
    exact ⟨last.fault.mpr state, last.cause.1.trans fault, enterRun_flagged ((ev_stcEnterRun .refl).flagged posted)⟩
  · have whole := (first.trans (stands (.inl quiet))).trans last.stands
    exact ⟨mt whole.faulted.mp sound, whole.followsReasons⟩

theorem enterRun_axle (a : Fin 3) : (rd (enterRun s).crn.axles a).valid = false := by
  rw [enterRun_follows.axles]
  exact levelled_axles _ a

theorem stcAskEntry_dsv (u : State) : (Stc.askEntry u).dsv = u.dsv := by
  unfold Stc.askEntry
  split
  · exact openSelf_dsv _ _ _ u
  · rfl

theorem setLatch_dsv (q : LatchCause) (u : State) : (Stc.setLatch q u).dsv = u.dsv := by
  unfold Stc.setLatch
  split
  · rfl
  · exact (State.post_dsv _ _).trans (stcAskEntry_dsv _)

/-- STC's entry into RUN leaves DSV as it is. -/
theorem stcEnterRun_dsv (u : State) : (Stc.enterRun u).dsv = u.dsv := by
  have launched : u.launched.dsv = u.dsv := command_dsv _ _ _
  have judged : (Stc.judgeLock u.launched).dsv = u.dsv := by
    unfold Stc.judgeLock
    split
    · exact (setLatch_dsv _ _).trans launched
    · exact launched
  have moving : u.moving.dsv = u.dsv := by
    unfold State.moving Stc.startCentring
    split
    · exact (command_dsv _ _ _).trans judged
    · exact judged
  rw [enterRun_eq]
  split
  · exact (stcAskEntry_dsv _).trans moving
  · exact moving

/-- The doors at the end of START stand as the derivation leaves them. -/
theorem enterRun_door (d : Fin 4) : (rd (enterRun s).dsv.doors d).supervision = (rd (superviseAll s.manned).dsv.doors d).supervision
    ∧ (rd (enterRun s).dsv.doors d).selfHandle = (rd (superviseAll s.manned).dsv.doors d).selfHandle := by
  obtain ⟨-, -, -, -, -, -, dsv, -⟩ := underWay_beside (s := s)
  obtain ⟨-, -, -, -, -, -, dsv', -⟩ := placeBroadcast_beside (State.finish s.underWay)
  have steered : (Stc.enterRun s.ready).dsv = s.ready.dsv := stcEnterRun_dsv _
  obtain ⟨supervision, handle⟩ := finish_door s.underWay d
  have ready : s.ready.dsv = (superviseAll s.manned).dsv := levelled_beside.2.2.2
  rw [dsv, steered, ready] at supervision handle
  rw [enterRun_stages, dsv']
  exact ⟨supervision, handle⟩

theorem enterRun_fitted {d : Fin 4} (fitted : d.val < s.cfg.settings.doorCount) : s.manned.fitted d = true := decide_eq_true fitted

/-- From an empty table: the latch, the doors and the hold at the end of START (R40, R69, R72, R142). -/
theorem enterRun_latch_empty (empty : ∀ i, (rd s.ilt.slots i).entry = none) :
    let sets := s.stc.latch = none ∧ s.mot.motion ≠ .standstill ∧ (s.channelState lockChannel).unusable = true
    (sets → (enterRun s).stc.latch = some .lockChannel ∧ (enterRun s).flagged 7) ∧ (¬ sets → (enterRun s).stc.latch = s.stc.latch)
      ∧ ((enterRun s).stc.latch = none → (enterRun s).stc.state = if s.mot.motion = .standstill then .frozen else .tracking)
      ∧ ((enterRun s).stc.latch ≠ none → s.stc.selfHandle = none → (enterRun s).stc.state = .centring ∧ (enterRun s).stc.centringTimer = 0
        ∧ (enterRun s).HoldsCentre) := by
  intro sets
  have own : OwnDoors (List.finRange 4) (superviseAll s.manned) := (ownDoors_of_empty (s := s.manned) empty).superviseList (List.finRange 4)
  have ilt : s.ready.ilt = (superviseAll s.manned).ilt := levelled_beside.1
  have free : s.ready.anyLive .steerCentre = false := by
    refine Bool.eq_false_iff.mpr fun live => ?_
    obtain ⟨f, there, kind⟩ := anyLive_iff.mp live
    rw [State.live_congr ilt] at there
    exact absurd ((own.live f there).2.1.symm.trans kind) (by simp)
  have room : ∃ i : Fin 24, 18 ≤ i.val ∧ (rd s.ready.ilt.slots i).entry = none := by
    rw [ilt]
    exact own.free (by rw [List.length_finRange]; omega)
  obtain ⟨latch, handle, -⟩ := ready_keeps (s := s)
  have mot : s.ready.mot = s.mot := ready_evolves.base.mot
  have latches : s.ready.LaunchLatches ↔ sets := by
    rw [State.LaunchLatches, latch, mot, ready_evolves.unusable lockChannel]
    exact Iff.rfl
  obtain ⟨set, quiet, clear, holds⟩ := enterRun_latch ready_inRun free
  have ends := enterRun_steerEnds (s := s)
  rw [mot] at clear
  refine ⟨fun is => ⟨ends.latch.trans (set (latches.mpr is)).1, enterRun_flagged (set (latches.mpr is)).2⟩,
    fun isNot => (ends.latch.trans (quiet (mt latches.mp isNot))).trans latch, fun none => ?_, fun latched unheld => ?_⟩
  · obtain ⟨state, free'⟩ := clear (ends.latch.symm.trans none)
    rcases ends.state with ⟨same, -⟩ | ⟨-, live, -⟩
    · exact same.trans state
    · rw [free'] at live
      exact absurd live (by simp)
  · obtain ⟨state, timer, n, e, held, resolved, owner, kind⟩ := holds (ends.latch ▸ latched) (handle.trans unheld) room
    obtain ⟨state', timer', -⟩ := ends.moves.stays (by simp [state])
    obtain ⟨ilt', -⟩ := underWay_beside (s := s)
    obtain ⟨ilt'', -⟩ := placeBroadcast_beside (State.finish s.underWay)
    have gains : Gains (Stc.enterRun s.ready) (enterRun s) := by
      rw [enterRun_stages]
      exact (gains_of_ilt ilt').trans ((gains_of_reviewed (finish_reviewed _)).trans (gains_of_ilt ilt''))
    obtain ⟨g, after, reviewed⟩ := gains.resolve resolved
    have record := reviewed.record
    simp only [Entry.record, Prod.mk.injEq] at record
    obtain ⟨-, sameKind, sameOwner, -⟩ := record
    exact ⟨state'.trans state, timer'.trans timer, n, g, ends.moves.keeps.2.1.trans held, after, sameOwner.trans owner, sameKind.trans kind⟩

theorem enterRun_doors_empty (empty : ∀ i, (rd s.ilt.slots i).entry = none) (d : Fin 4) (fitted : d.val < s.cfg.settings.doorCount) :
    ((rd s.dsv.doors d).contact.debounced = true → (rd (enterRun s).dsv.doors d).supervision = .shut)
      ∧ ((rd s.dsv.doors d).contact.debounced = false → (rd (enterRun s).dsv.doors d).supervision = .unclaimed
        ∧ ((rd s.dsv.doors d).supervision ≠ .unclaimed → (enterRun s).flagged 2
          ∧ ((rd s.dsv.doors d).selfHandle = none → (enterRun s).HoldsDoor d))) := by
  obtain ⟨shut, unshut⟩ := superviseAll_empty (s := s.manned) (d := d) empty rfl (enterRun_fitted fitted)
  obtain ⟨supervision, handle⟩ := enterRun_door (s := s) d
  refine ⟨fun closed => supervision.trans (shut closed), fun opened => ⟨supervision.trans (unshut opened).1, fun fresh => ?_⟩⟩
  obtain ⟨posted, holds⟩ := (unshut opened).2 fresh
  exact ⟨enterRun_flagged ((levelled_evolves.trans (ev_stcEnterRun .refl)).flagged posted),
    fun unheld => enterRun_gains.holdsDoor handle (holds unheld)⟩

theorem enterRun_holdsFit (empty : ∀ i, (rd s.ilt.slots i).entry = none) (released : s.brk.hold = .released) : (enterRun s).HoldsFit := by
  have bare : ∀ e ∈ s.manned.live, False := fun e there => by
    obtain ⟨i, -, entry⟩ := mem_live_iff.mp there
    rw [manned_slots, empty i] at entry
    exact absurd entry (by simp)
  have manned : s.manned.HoldsFit := ⟨fun _ ⟨e, there, _⟩ => (bare e there).elim, fun _ _ => .inl released⟩
  have supervised : (superviseAll s.manned).HoldsFit := superviseList_closed holdsFit_blockFit.openClosed (List.finRange 4) manned
  obtain ⟨ilt, brk, -⟩ := levelled_beside (s := superviseAll s.manned)
  have base := (levelled_evolves (s := superviseAll s.manned)).base
  have ready : s.ready.HoldsFit := holdsFit_of_live supervised (State.live_congr ilt) base.cfg base.mot brk
  have steered : (Stc.enterRun s.ready).HoldsFit := oc_enterRun holdsFit_blockFit.openClosed ready
  obtain ⟨ilt', -, -, -, cfg', brk', -⟩ := underWay_beside (s := s)
  have mot : (Stc.enterRun s.ready).mot = s.mot := entered_evolves.base.mot
  have motion : s.underWay.mot.motion = s.mot.motion ∧ s.underWay.mot.driveReq = s.mot.driveReq := by
    rw [underWay_mot]
    split <;> exact ⟨rfl, rfl⟩
  have underWay : s.underWay.HoldsFit := holdsFit_congr steered cfg' (by rw [motion.1, mot]) (by rw [motion.2, mot])
    (fun _ => by rw [State.live_congr ilt']) (by rw [brk']) (by rw [brk'])
  obtain ⟨ilt'', -, -, -, cfg'', brk'', -, -, mot'', -⟩ := placeBroadcast_beside (State.finish s.underWay)
  rw [enterRun_stages]
  exact holdsFit_of_live (finish_holdsFit underWay) (State.live_congr ilt'') cfg'' mot'' brk''

/-- The content of a broadcast is read from these parts of the state. -/
theorem broadcastContent_congr {u v : State} (cfg : v.cfg = u.cfg) (mot : v.mot = u.mot) (brk : v.brk = u.brk) (rlu : v.rlu = u.rlu)
    (dsv : v.dsv = u.dsv) (stc : v.stc = u.stc) (ilt : v.ilt = u.ilt) (attn : v.lnk.attn = u.lnk.attn)
    (rotation : v.lnk.rotation = u.lnk.rotation) : v.broadcastContent = u.broadcastContent := by
  have live := State.live_congr ilt
  have entry : v.reportedEntry = u.reportedEntry := by
    rw [State.reportedEntry, live, State.reportedPlace, ilt, rotation]
    rfl
  have supervision (d : Fin 4) : v.reportedSupervision d = u.reportedSupervision d := by
    rw [State.reportedSupervision, State.fitted, cfg, dsv]
    rfl
  simp only [State.broadcastContent, entry, supervision, live, cfg, mot, brk, rlu, dsv, stc, attn]

theorem broadcastContent_placed {u : State} (rotation : u.lnk.rotation = 0) :
    State.broadcastContent ((placeBroadcast u).modLnk fun l => { l with rotation := 0 }) = u.broadcastContent :=
  broadcastContent_congr rfl rfl rfl rfl rfl rfl rfl rfl rotation.symm

theorem placeBroadcast_places {u : State} {n : Nat} (rotation : u.lnk.rotation = 0) (base : u.cfg.settings.ansBase = n) :
    ∃ f, (placeBroadcast u).lnk.broadcast = some f ∧ f.identifier = n ∧ f.content = State.broadcastContent ((placeBroadcast u).modLnk fun l => { l with rotation := 0 }) :=
  ⟨{ identifier := u.cfg.settings.ansBase, content := u.broadcastContent }, rfl, base, (broadcastContent_placed rotation).symm⟩

theorem rotation_begins (u : State) : (u.modLnk fun l => { l with rotation := 0 }).lnk.rotation = 0 := rfl

theorem enterRun_broadcast : ∃ f, (enterRun s).lnk.broadcast = some f ∧ f.identifier = s.cfg.settings.ansBase
    ∧ f.content = State.broadcastContent ((enterRun s).modLnk fun l => { l with rotation := 0 }) := by
  have rotation : (State.finish s.underWay).lnk.rotation = 0 :=
    (congrArg Lnk.rotation (finish_lnk _)).trans (rotation_begins (Mot.arm (Stc.enterRun s.ready)))
  obtain ⟨-, -, -, -, cfg, -⟩ := placeBroadcast_beside (State.finish s.underWay)
  have base := (enterRun_base (s := s)).1
  rw [enterRun_stages] at base ⊢
  exact placeBroadcast_places rotation (congrArg (fun c => c.settings.ansBase) (cfg.symm.trans base))

end

end Sys2Proof.Machine
end

