-- ==== Sys2Proof/Proofs/StartStatement.lean ====
section
/-! PROOF. START (R186) -/

namespace Sys2Proof.Machine

/-- Settles O33. -/
theorem startEntersRun : Obligations.StartEntersRun := by
  unfold Obligations.StartEntersRun
  intro x tag s served
  obtain ⟨heard, -⟩ := id served
  refine ⟨fun device => ?_, fun device => ?_⟩
  · rw [exec_start_heard heard, requestStart_other served device]
    rfl
  intro refusedAt doors shares bank
  obtain ⟨first, second, third, fourth, sound⟩ := startFailure_checks s
  have refused {n : Nat} (failure : s.startFailure = some n) : refusedAt n := by
    show exec (.start x tag) s = _
    rw [exec_start_heard heard, requestStart_refused served device failure]
    rfl
  refine ⟨fun a => refused (first a), fun a b => refused (second a b), fun a b c => refused (third a b c),
    fun a b c d => refused (fourth a b c d), fun a b c d => ?_⟩
  have passes := sound a b c d
  obtain ⟨cfg, now, registry, contacts, mot⟩ := enterRun_base (s := s)
  obtain ⟨unparked, schedule, command, lower, upper, lock⟩ := enterRun_steering (s := s)
  have moved : (enterRun s).mot.analog = s.mot.analog ∧ (enterRun s).mot.wheels = s.mot.wheels ∧ (enterRun s).mot.speed = s.mot.speed
      ∧ (enterRun s).mot.motion = s.mot.motion ∧ (enterRun s).mot.counter = s.mot.counter := by
    rw [mot]
    split <;> exact ⟨rfl, rfl, rfl, rfl, rfl⟩
  obtain ⟨analog, wheels, speed, motion, counter⟩ := moved
  have armed (stands : s.mot.motion = .standstill) : (enterRun s).mot.armed = true ∧ (enterRun s).mot.reference = s.mot.counter := by
    rw [mot, if_pos stands]
    exact ⟨rfl, rfl⟩
  have byRow (none : s.mot.speed = none) : s.scheduleAtStart = (rd (s.stc.bank s.stc.inUse).rows 0).schedule := by
    rw [State.scheduleAtStart, none]
    rfl
  have bySpeed (v : Nat) (is : s.mot.speed = some v) : s.scheduleAtStart = (s.stc.bank s.stc.inUse).lookup v := by
    rw [State.scheduleAtStart, is]
    rfl
  have answered : exec (.start x tag) s = .next ((enterRun s).reply x tag (.accepted none none AnswerFlags.none 1 0 0)) := by
    rw [exec_start_heard heard, requestStart_starts served device passes, State.deviceAnswer, cfg]
    rfl
  refine ⟨enterRun s, answered, by rw [cfg], by rw [cfg], now, registry, analog, wheels, speed, motion, counter, armed,
    fun k => (enterRun_corner k).1, enterRun_axle, unparked, schedule, bySpeed, byRow, ⟨command, lower, upper, lock⟩, fun k => ?_,
    fun empty => ⟨enterRun_latch_empty empty, enterRun_doors_empty empty, enterRun_holdsFit empty⟩, ?_, fun k fitted => ⟨?_, ?_⟩,
    enterRun_broadcast⟩
  · intro height failed fill exhaust before after faultsFor
    obtain ⟨-, stays, faults, rests⟩ := enterRun_corner (s := s) k
    have cause := cornerCause_eq (s := s) k
    refine ⟨stays, fun unfaulted => ⟨fun h => ?_, fun h f => ?_, fun h f e => ?_, fun h f e => ?_⟩⟩
    · exact faults .heightSensor (cause.trans (if_pos h)) unfaulted
    · rw [if_neg h, if_pos f] at cause
      exact faults .fillValve cause unfaulted
    · rw [if_neg h, if_neg f, if_pos e] at cause
      exact faults .exhaustValve cause unfaulted
    · rw [if_neg h, if_neg f, if_neg e] at cause
      exact rests cause unfaulted
  · refine Bool.eq_false_iff.mpr fun notRun => ?_
    have outputs := (finish_outputsFit s.underWay).notRun
    have cfg' : (State.finish s.underWay).cfg = (enterRun s).cfg := by rw [enterRun_stages, (placeBroadcast_beside _).2.2.2.2.1]
    rw [enterRun_stages, (placeBroadcast_beside _).2.2.2.2.2.2.1] at notRun
    exact outputs.mp notRun (by rw [cfg', cfg])
  · rw [contacts, manned_contacts k fitted]
  · rw [(enterRun_door k).1]
    exact superviseAll_supervision rfl (enterRun_fitted fitted)

end Sys2Proof.Machine
end

