-- ==== Sys2Proof/Proofs/Ramps.lean ====
section
/-! PROOF. The hold as it ramps and its departure window (R127, R130) -/

namespace Sys2Proof.Machine

/-! ## BRK's window in STC, and the hold as it ramps (R127, R130) -/

section
variable {s : State}

theorem rluFromTable_windowOpen (s : State) : (Rlu.fromTable s).stc.windowOpen = s.stc.windowOpen := by
  have offsets (ride : Nat) (kneel : Vector Nat 6) (u : State) : (Rlu.takeOffsets ride kneel u).stc.windowOpen = u.stc.windowOpen := by
    unfold Rlu.takeOffsets Rlu.deriveKneel Rlu.judgeCurbLow Crn.change
    simp only [State.modRlu_stc, settle_stc, State.modCrn_stc]
  unfold Rlu.fromTable
  dsimp only
  split
  · rfl
  · exact (offsets _ _ _).trans rfl

theorem startCentring_windowOpen (s : State) : (Stc.startCentring s).stc.windowOpen = s.stc.windowOpen := by
  unfold Stc.startCentring
  split
  · rw [Stc.commandLock, command_stc]
    rfl
  · rfl

/-- Where BRK stands as the table gives it, a hand-off moves no window. -/
theorem handOff_windowOpen {e : Entry} {v : EntryEvent} (v' : v ≠ .opened) (h : s.HoldsFit) :
    (handOff v e s).stc.windowOpen = s.stc.windowOpen := by
  have centre {p : Prop} [Decidable p] (u : State) : (if p then Stc.startCentring u else u).stc.windowOpen = u.stc.windowOpen := by
    split
    · exact startCentring_windowOpen u
    · rfl
  have corners {p : Prop} [Decidable p] (u : State) : (if p then Crn.fromTable u else u).stc.windowOpen = u.stc.windowOpen := by
    split
    · rw [Crn.fromTable, Crn.change, settle_stc]
      rfl
    · rfl
  have rides {p : Prop} [Decidable p] (u : State) : (if p then Rlu.fromTable u else u).stc.windowOpen = u.stc.windowOpen := by
    split
    · exact rluFromTable_windowOpen u
    · rfl
  unfold handOff
  rw [if_neg v']
  dsimp only
  rw [centre, corners, rides, brkJudge_of_holdsFit h, ite_self]

theorem handOffs_windowOpen (l : List Entry) (h : s.HoldsFit) :
    (l.foldl (fun s e => handOff .changed e s) s).stc.windowOpen = s.stc.windowOpen := by
  induction l generalizing s with
  | nil => rfl
  | cons e l ih => exact (ih (handOff_holdsFit .changed e (.inr h))).trans (handOff_windowOpen (by simp) h)

theorem evaluateOnce_windowOpen (h : s.HoldsFit) : (evaluateOnce s).stc.windowOpen = s.stc.windowOpen := by
  unfold evaluateOnce
  split
  · rfl
  · exact (handOffs_windowOpen (s.live.filter fun e => decide ((e.evaluated (s.activates e.kind e.scope)).state ≠ e.state))
      (retabled_holdsFit h)).trans (congrArg Stc.windowOpen (State.modIlt_stc _ _))

theorem finish_windowOpen (h : s.HoldsFit) : (State.finish s).stc.windowOpen = s.stc.windowOpen := by
  have settled : (reevaluate s).stc.windowOpen = s.stc.windowOpen := by
    unfold reevaluate
    split
    · have one := evaluateOnce_brk h
      have two := evaluateOnce_brk one.1
      exact (evaluateOnce_windowOpen two.1).trans ((evaluateOnce_windowOpen one.1).trans (evaluateOnce_windowOpen h))
    · rfl
  exact settled

/-- The end of an event leaves a ramp that has begun. -/
theorem State.EntersRamp.finish {t : State} (ramp : s.EntersRamp t) (fits : t.HoldsFit) : s.EntersRamp (State.finish t) := by
  obtain ⟨hold, confirmed, target, seen, unseen⟩ := ramp
  have brk := (finish_brk fits).2
  refine ⟨by rw [brk, hold], by rw [brk, confirmed], by rw [brk, target], fun mark => ?_, fun mark => ?_⟩
  · obtain ⟨isOpen, ref, window⟩ := seen mark
    exact ⟨by rw [brk, isOpen], by rw [brk, finish_mot, ref], (finish_windowOpen fits).trans window⟩
  · rw [brk]
    exact unseen mark

/-- R127: RAMPING is entered. -/
theorem enterRamping_enters (s : State) : s.EntersRamp (Brk.enterRamping s) := by
  unfold Brk.enterRamping State.EntersRamp
  dsimp only
  rw [State.modBrk_brk]
  dsimp only
  cases s.brk.doorSeen with
  | true => exact ⟨rfl, rfl, rfl, fun _ => ⟨rfl, rfl, rfl⟩, fun unseen => absurd unseen (by decide)⟩
  | false => exact ⟨rfl, rfl, rfl, fun mark => absurd mark (by decide), fun _ => ⟨rfl, rfl⟩⟩

theorem leaveWait_enters (waits : s.brk.hold = .waitDrive) (asked : s.mot.driveReq.debounced = true ∨ s.mot.motion = .rolling) :
    s.EntersRamp (Brk.leaveWait s) := by
  rw [Brk.leaveWait, if_pos ⟨waits, asked⟩]
  exact enterRamping_enters s

/-- R127: where the last contributor goes, and the drive is asked for or the bus rolls, the hold ramps. -/
theorem brkJudge_ramps (run : s.inRun = true) (none : ∀ e ∈ s.live, ¬ e.HoldsIn s.mot.motion)
    (hold : s.brk.hold = .applying ∨ s.brk.hold = .held ∨ s.brk.hold = .waitDrive)
    (asked : s.mot.driveReq.debounced = true ∨ s.mot.motion = .rolling) : s.EntersRamp (Brk.judge s) := by
  have waits : s.EntersRamp (Brk.enterWait s) :=
    leaveWait_enters (s := s.modBrk fun b => { b with hold := .waitDrive, confirmTimer := 0, lossTimer := 0 }) rfl asked
  have max := State.contributorMax_none.mpr none
  unfold Brk.judge
  rw [if_pos run]
  rcases hold with hold | hold | hold
  · simp only [max, hold]
    exact waits
  · simp only [max, hold]
    exact waits
  · simp only [max, hold]
    exact leaveWait_enters hold asked

theorem leaveWait_of_holdsFit (run : s.cfg.device = .run) (h : s.HoldsFit) : Brk.leaveWait s = s := by
  refine if_neg fun ⟨waits, asked⟩ => ?_
  by_cases contributes : ∃ e ∈ s.live, e.HoldsIn s.mot.motion
  · rcases (h.held run contributes).1 with hold | hold
    · exact absurd (waits.symm.trans hold) (by simp)
    · exact absurd (waits.symm.trans hold) (by simp)
  · push Not at contributes
    rcases h.free run contributes with hold | hold | ⟨-, drive, motion⟩
    · exact absurd (waits.symm.trans hold) (by simp)
    · exact absurd (waits.symm.trans hold) (by simp)
    · rcases asked with drive' | motion'
      · exact absurd (drive.symm.trans drive') (by simp)
      · exact motion motion'

/-- What RAMPING entered shows does not depend on what the table is at the start. -/
theorem State.EntersRamp.from_brk {u t : State} (brk : u.brk = s.brk) (ramp : u.EntersRamp t) : s.EntersRamp t := by
  unfold State.EntersRamp at ramp ⊢
  rwa [brk] at ramp

/-- What keeps BRK, the distance counter and the window keeps a ramp that has begun. -/
theorem State.EntersRamp.to_same {t u : State} (ramp : s.EntersRamp t) (brk : u.brk.hold = t.brk.hold ∧ u.brk.confirmed = t.brk.confirmed
    ∧ u.brk.target = t.brk.target ∧ u.brk.windowOpen = t.brk.windowOpen ∧ u.brk.windowRef = t.brk.windowRef)
    (counter : u.mot.counter = t.mot.counter) (window : u.stc.windowOpen = t.stc.windowOpen) : s.EntersRamp u := by
  obtain ⟨hold, confirmed, target, isOpen, ref⟩ := brk
  unfold State.EntersRamp at ramp ⊢
  rwa [hold, confirmed, target, isOpen, ref, counter, window]

end

end Sys2Proof.Machine
end

