-- ==== Sys2Proof/Proofs/DriveLines.lean ====
section
/-! PROOF. The driveline lines and the release of BRK's STOP_HOLD (R14, R133) -/

namespace Sys2Proof.Machine

/-! ## The driveline lines (R14) -/

section
variable {line : DriveLine} {m : Mot} {s : State}

theorem changeLine_line (f : InputLine → InputLine) (other : DriveLine) :
    (Mot.changeLine line f m).line other = if other = line then f (m.line line) else m.line other := by
  cases line <;> cases other <;> rfl

theorem changeLine_congr {f g : InputLine → InputLine} (same : f (m.line line) = g (m.line line)) :
    Mot.changeLine line f m = Mot.changeLine line g m := by
  cases line <;> simp only [Mot.changeLine, Mot.line] at same ⊢ <;> rw [same]

theorem changeLine_id : Mot.changeLine line id m = m := by
  cases line <;> rfl

theorem modMot_congr {f g : Mot → Mot} (same : f s.mot = g s.mot) : s.modMot f = s.modMot g := by
  rw [State.modMot, same, State.modMot]

/-- A change of a line's record changes no other signal. -/
theorem changeLine_beside (f : InputLine → InputLine) : let n := Mot.changeLine line f m
    n.analog = m.analog ∧ n.wheels = m.wheels ∧ n.speed = m.speed ∧ n.motion = m.motion ∧ n.counter = m.counter ∧ n.armed = m.armed
      ∧ n.reference = m.reference := by
  cases line <;> exact ⟨rfl, rfl, rfl, rfl, rfl, rfl, rfl⟩

/-- DRIVE_REQ is no part of the selection. -/
theorem selected_changeDrive (f : InputLine → InputLine) : (s.modMot (Mot.changeLine .driveReq f)).selected = s.selected := rfl

theorem selected_congr {t : State} (fwd : t.mot.selFwd.debounced = s.mot.selFwd.debounced) (rev : t.mot.selRev.debounced = s.mot.selRev.debounced) :
    t.selected = s.selected := by
  rw [State.selected, fwd, rev, State.selected]

/-- A line settled at the instant of its debounce, before BRK acts. -/
def State.lineSettled (line : DriveLine) (x : InputLine) (s : State) : State :=
  (s.advanceTo (x.since + 50000)).modMot (Mot.changeLine line InputLine.settle)

/-- What a settled line brings, before the end of the event. -/
def State.lineActed (line : DriveLine) (s u : State) : State :=
  if line = .driveReq then driveChanged u else if u.selected ≠ s.selected then selectionChanged u else u

theorem driveLineDebounce_settles (line : DriveLine) (s : State) (unsettled : (s.mot.line line).level ≠ (s.mot.line line).debounced) :
    exec (.driveLineDebounceExpiry line) s = .next (State.finish (s.lineActed line (s.lineSettled line (s.mot.line line)))) := by
  have due : (s.mot.line line).due = some ((s.mot.line line).since + 50000) := if_neg unsettled
  show execDriveLineDebounceExpiry line s = _
  rw [execDriveLineDebounceExpiry, due]
  rfl

theorem driveLineDebounce_rests (line : DriveLine) (s : State) (settled : (s.mot.line line).level = (s.mot.line line).debounced) :
    exec (.driveLineDebounceExpiry line) s = .next s := by
  have due : (s.mot.line line).due = none := if_pos settled
  show execDriveLineDebounceExpiry line s = _
  rw [execDriveLineDebounceExpiry, due]

theorem driveLineChange_exec (line : DriveLine) (level : Bool) (s : State) : exec (.driveLineChange line level) s =
    .next (s.modMot (Mot.changeLine line (InputLine.setLevel s.now level))) := rfl

end

/-! ## BRK's release of its STOP_HOLD (R133) -/

section
variable {s : State}

/-- DRIVE_REQ is asserted with a gear selected. -/
def State.drives (s : State) : Prop := s.mot.driveReq.debounced = true ∧ s.selected ≠ .neutral

/-- An entry of the part's own that BRK holds in RUN. -/
def State.BrakeHolds (h : Nat) (e : Entry) (s : State) : Prop :=
  s.cfg.device = .run ∧ s.brk.selfHandle = some h ∧ s.resolve h = some e ∧ e.owner = 15

theorem release_quiet (quiet : ¬ s.drives) : Brk.release s = s := if_neg quiet

theorem release_unheld (unheld : s.brk.selfHandle = none) : Brk.release s = s := by
  unfold Brk.release
  split
  · rw [unheld]
  · rfl

theorem release_retires (drives : s.drives) {h : Nat} {e : Entry} (held : s.BrakeHolds h e) :
    Brk.release s = retireEntry none e (s.post (.partRetired e.handle .causeCleared)) := by
  obtain ⟨run, handle, resolved, self⟩ := held
  obtain ⟨asked, geared⟩ := drives
  rw [Brk.release, if_pos ⟨asked, geared⟩, handle]
  dsimp only
  rw [retireSelf, if_pos (inRun_iff.mpr run), resolved]
  dsimp only
  have own : e.isSelf = true := decide_eq_true self
  rw [if_pos own, retireEntry_some]

theorem release_evolves (s : State) : Evolves s (Brk.release s) := by
  unfold Brk.release
  split
  · split
    · exact ev_retireSelf _ .refl
    · exact .refl
  · exact .refl

theorem leaveWait_evolves (s : State) : Evolves s (Brk.leaveWait s) := by
  unfold Brk.leaveWait
  split
  · exact ev_enterRamping .refl
  · exact .refl

/-- The retirement of a STOP_HOLD gives DSV and STC nothing to do. -/
theorem retired_stopHold {e : Entry} (kind : e.kind = .stopHold) : handOffRetired e (s.retiring e) = s.retireHanded e := by
  have plain (u : State) : Dsv.superviseFor e u = u := by
    unfold Dsv.superviseFor
    split
    · exact if_neg (by simp [kind, Kind.isDoor])
    · rfl
  rw [handOffRetired, if_neg (by simp [kind]), plain]
  rfl

theorem retireDrops_brk {e : Entry} : (s.retireDrops e).brk = s.brk := by
  cases covered : e.coveredBy with
  | none => rw [retireDrops_uncovered covered, State.dropEntry_brk]
  | some o => rw [retireDrops_covered covered, State.post_brk, State.dropEntry_brk, State.dropEntry_brk]

/-- R127, R133: the STOP_HOLD retired, the hold ramps where nothing else contributes. -/
theorem retiredStopHold_ramps {e : Entry} (run : s.cfg.device = .run) (fits : s.ilt.Fits) (resolved : s.resolve e.handle = some e)
    (kind : e.kind = .stopHold) (scope : e.scope = .vehicle) (asked : s.mot.driveReq.debounced = true)
    (last : ∀ f ∈ s.live, f.handle ≠ e.handle → ¬ f.HoldsIn s.mot.motion)
    (hold : s.brk.hold = .applying ∨ s.brk.hold = .held ∨ s.brk.hold = .waitDrive) : s.EntersRamp (s.retired e) := by
  let d := s.retireDrops e
  have plain : s.retiring e = d := retireUncovers_plain (by simp [scope]) _
  obtain ⟨-, -, -, cfg, mot, -⟩ := retireDrops_beside (s := s) (e := e)
  have brk : d.brk = s.brk := retireDrops_brk
  have runD : d.inRun = true := by
    rw [State.inRun, cfg]
    exact inRun_iff.mpr run
  have none : ∀ f ∈ d.live, ¬ f.HoldsIn d.mot.motion := fun f there => by
    obtain ⟨live, other, -⟩ := (retireDrops_live fits resolved f).mp there
    rw [mot]
    exact last f live other
  have judged : d.EntersRamp (Brk.judge d) := brkJudge_ramps runD none (by rwa [brk]) (.inl (by rwa [mot]))
  have handed : handOff .retired e d = Brk.judge d := by
    unfold handOff
    simp [kind, Kind.holds, Kind.rides, Kind.freezes]
  have whole : s.EntersRamp (s.retireHanded e) := by
    obtain ⟨brk', stc', -⟩ := forgetHandle_handles e.handle (handOff .retired e (s.retiring e))
    obtain ⟨-, -, -, -, -, mot', -⟩ := forgetHandle_beside e.handle (handOff .retired e (s.retiring e))
    rw [plain, handed] at brk' stc' mot'
    refine (judged.from_brk brk).to_same ?_ ?_ ?_
    · rw [State.retireHanded, plain, handed, brk']
      exact ⟨rfl, rfl, rfl, rfl, rfl⟩
    · rw [State.retireHanded, plain, handed, mot']
    · rw [State.retireHanded, plain, handed, stc']
  have fitsHold : (handOff .retired e (s.retiring e)).HoldsFit := handOff_holdsFit .retired e (.inl (by simp [kind, Kind.holds]))
  have ended : s.retired e = State.finish (s.retireHanded e) := congrArg State.finish (retired_stopHold kind)
  rw [ended]
  exact whole.finish (holdsFit_blockFit.openClosed.forget _ _ fitsHold)

theorem finish_selfHandle (u : State) : (State.finish u).brk.selfHandle = u.brk.selfHandle := by
  have same : (reevaluate u).brk.selfHandle = u.brk.selfHandle := by
    unfold reevaluate
    split
    · rw [evaluateOnce_selfHandle, evaluateOnce_selfHandle, evaluateOnce_selfHandle]
    · rfl
  exact same

theorem retireUncovers_selfHandle (e : Entry) (u : State) : (u.retireUncovers e).brk.selfHandle = u.brk.selfHandle := by
  unfold State.retireUncovers
  split
  · next target _ =>
    obtain same | ⟨g, -, -, same⟩ := uncover_cases target u
    · rw [same]
    · rw [same, handOff_selfHandle, State.updEntry_brk]
  all_goals rfl

/-- BRK forgets the handle of its STOP_HOLD. -/
theorem retiredStopHold_forgotten {e : Entry} (kind : e.kind = .stopHold) (held : s.brk.selfHandle = some e.handle) :
    (s.retired e).brk.selfHandle = none := by
  have ended : s.retired e = State.finish (s.retireHanded e) := congrArg State.finish (retired_stopHold kind)
  rw [ended, finish_selfHandle, State.retireHanded, (forgetHandle_handles _ _).1, handOff_selfHandle, State.retiring,
    retireUncovers_selfHandle, retireDrops_brk, held]
  exact if_pos rfl

end

end Sys2Proof.Machine
end

