-- ==== Sys2Proof/Proofs/DriveStatement.lean ====
section
/-! PROOF. The driveline lines (R14) -/

namespace Sys2Proof.Machine

section
variable {s u : State} {line : DriveLine} {x : InputLine}

/-- R17: the reference of an armed watch moved where the selected direction has changed. -/
def State.watchMoved (s u : State) : State :=
  if u.selected ≠ s.selected ∧ u.mot.armed = true then u.modMot fun m => { m with reference := m.counter } else u

theorem watchMoved_same (same : u.selected = s.selected) : s.watchMoved u = u := if_neg fun h => h.1 same

theorem watchMoved_selected : (s.watchMoved u).selected = u.selected := by
  unfold State.watchMoved
  split <;> rfl

theorem watchMoved_beside : (s.watchMoved u).ilt = u.ilt ∧ (s.watchMoved u).brk = u.brk ∧ (s.watchMoved u).cfg = u.cfg
    ∧ (s.watchMoved u).now = u.now ∧ (s.watchMoved u).lnk = u.lnk := by
  unfold State.watchMoved
  split <;> exact ⟨rfl, rfl, rfl, rfl, rfl⟩

theorem watchMoved_mot : (s.watchMoved u).mot =
    { u.mot with reference := if u.mot.armed = true ∧ u.selected ≠ s.selected then u.mot.counter else u.mot.reference } := by
  unfold State.watchMoved
  by_cases moves : u.selected ≠ s.selected ∧ u.mot.armed = true
  · rw [if_pos moves, if_pos moves.symm]
    rfl
  · rw [if_neg moves, if_neg fun h => moves h.symm]

theorem lineActed_drive (run : u.inRun = true) (asked : u.mot.driveReq.debounced = true) (same : u.selected = s.selected) :
    s.lineActed .driveReq u = Brk.leaveWait (Brk.release (s.watchMoved u)) := by
  rw [State.lineActed, if_pos rfl, driveChanged, if_pos ⟨asked, run⟩, watchMoved_same same]

theorem lineActed_drive_quiet (quiet : ¬ (u.mot.driveReq.debounced = true ∧ u.inRun = true)) (same : u.selected = s.selected) :
    s.lineActed .driveReq u = s.watchMoved u := by
  rw [State.lineActed, if_pos rfl, driveChanged, if_neg quiet, watchMoved_same same]

theorem lineActed_selects (other : line ≠ .driveReq) (moves : u.selected ≠ s.selected) :
    s.lineActed line u = Brk.release (s.watchMoved u) := by
  rw [State.lineActed, if_neg other, if_pos moves, selectionChanged, State.watchMoved]
  by_cases armed : u.mot.armed = true
  · rw [if_pos armed, if_pos ⟨moves, armed⟩]
  · rw [if_neg armed, if_neg fun h => armed h.2]

theorem lineActed_stays (other : line ≠ .driveReq) (same : u.selected = s.selected) : s.lineActed line u = s.watchMoved u := by
  rw [State.lineActed, if_neg other, if_neg (not_not_intro same), watchMoved_same same]

/-- What a line settles of MOT beside its record: nothing of the signals, and of the selection only for a selector line. -/
theorem lineSettled_selected : (s.lineSettled .driveReq x).selected = s.selected := rfl

theorem lineActed_evolves (line : DriveLine) (s : State) (x : InputLine) :
    Evolves (s.watchMoved (s.lineSettled line x)) (s.lineActed line (s.lineSettled line x)) := by
  by_cases drive : line = .driveReq
  · subst drive
    by_cases acts : (s.lineSettled .driveReq x).mot.driveReq.debounced = true ∧ (s.lineSettled .driveReq x).inRun = true
    · rw [lineActed_drive acts.2 acts.1 lineSettled_selected]
      exact (release_evolves _).trans (leaveWait_evolves _)
    · rw [lineActed_drive_quiet acts lineSettled_selected]
      exact .refl
  · by_cases same : (s.lineSettled line x).selected = s.selected
    · rw [lineActed_stays drive same]
      exact .refl
    · rw [lineActed_selects drive same]
      exact release_evolves _

/-- R133: the line's change releases the STOP_HOLD that BRK holds. -/
theorem lineActed_retires {h : Nat} {e : Entry} (changes : line = .driveReq ∨ (s.lineSettled line x).selected ≠ s.selected)
    (drives : (s.watchMoved (s.lineSettled line x)).drives) (held : (s.watchMoved (s.lineSettled line x)).BrakeHolds h e)
    (kind : e.kind = .stopHold) : State.finish (s.lineActed line (s.lineSettled line x))
      = ((s.watchMoved (s.lineSettled line x)).post (.partRetired e.handle .causeCleared)).retired e := by
  let v := s.watchMoved (s.lineSettled line x)
  let p := v.post (.partRetired e.handle .causeCleared)
  have released : Brk.release v = p.retireHanded e := by
    rw [release_retires drives held, retireEntry_eq]
    exact retired_stopHold kind
  have acted : s.lineActed line (s.lineSettled line x) = p.retireHanded e := by
    by_cases drive : line = .driveReq
    · subst drive
      have run : (s.lineSettled .driveReq x).inRun = true := by
        rw [State.inRun, ← (watchMoved_beside (s := s)).2.2.1]
        exact inRun_iff.mpr held.1
      have asked : (s.lineSettled .driveReq x).mot.driveReq.debounced = true := by
        have same := drives.1
        rw [watchMoved_mot] at same
        exact same
      have fits : (p.retireHanded e).HoldsFit :=
        holdsFit_blockFit.openClosed.forget _ _ (handOff_holdsFit .retired e (.inl (by simp [kind, Kind.holds])))
      have runP : (p.retireHanded e).cfg.device = .run := by
        rw [retireHanded_evolves.base.cfg, State.post_cfg]
        exact held.1
      rw [lineActed_drive run asked lineSettled_selected, released, leaveWait_of_holdsFit runP fits]
    · rw [lineActed_selects drive (changes.resolve_left drive), released]
  rw [acted, State.retired]
  exact congrArg State.finish (retired_stopHold kind).symm

end

/-- Settles O45. -/
theorem driveLinesDebounce : Obligations.DriveLinesDebounce := by
  unfold Obligations.DriveLinesDebounce
  intro line s x record
  subst record
  refine ⟨fun level => ⟨fun same => ?_, fun differs => ?_⟩, driveLineDebounce_rests line s, fun unsettled => ?_⟩
  · have still : s.modMot (Mot.changeLine line (InputLine.setLevel s.now level)) = s.modMot (Mot.changeLine line id) :=
      modMot_congr (changeLine_congr (if_pos same))
    rw [driveLineChange_exec, still, modMot_congr (s := s) (f := Mot.changeLine line id) (g := id) changeLine_id]
    rfl
  · rw [driveLineChange_exec]
    exact congrArg Host.Outcome.next (modMot_congr (changeLine_congr (if_neg differs)))
  let x := s.mot.line line
  let u := s.lineSettled line x
  let v := s.watchMoved u
  let t := State.finish (s.lineActed line u)
  have evolves : Evolves v t := ev_finish (lineActed_evolves line s x)
  have base : SameBase v t := evolves.base
  obtain ⟨ilt, brk, cfg, now, lnk⟩ := watchMoved_beside (s := s) (u := u)
  have motU : u.mot = Mot.changeLine line InputLine.settle s.mot := rfl
  have mot : t.mot = { u.mot with reference := if u.mot.armed = true ∧ u.selected ≠ s.selected then u.mot.counter else u.mot.reference } :=
    base.mot.trans watchMoved_mot
  have lines (other : DriveLine) : t.mot.line other = u.mot.line other := by
    rw [mot]
    cases other <;> rfl
  have selected : t.selected = u.selected := selected_congr (by rw [mot]) (by rw [mot])
  obtain ⟨analog, wheels, speed, motion, counter, armed, reference⟩ := changeLine_beside (line := line) (m := s.mot) InputLine.settle
  have driveV : v.mot.driveReq.debounced = t.mot.driveReq.debounced := by rw [base.mot]
  have liveV : v.live = s.live := State.live_congr ilt
  have motionV : v.mot.motion = s.mot.motion := by
    rw [watchMoved_mot]
    exact motion
  refine ⟨t, driveLineDebounce_settles line s unsettled, base.now.trans now, ?_, fun other apart => ?_, ?_, ?_, ?_, ?_, ?_, ?_, ?_, ?_, ?_, ?_, ?_, ?_, ?_⟩
  · rw [lines, motU, changeLine_line, if_pos rfl]
    rfl
  · rw [lines, motU, changeLine_line, if_neg apart]
  · rw [mot]
    exact analog
  · rw [mot]
    exact wheels
  · rw [mot]
    exact speed
  · rw [mot]
    exact motion
  · rw [mot]
    exact counter
  · rw [mot]
    exact armed
  · rw [selected, mot, ← armed, ← counter, ← reference]
    rfl
  · intro h e run fits held resolved self kind asked geared changes
    obtain rfl : e.handle = h := handle_of_resolve fits resolved
    have drives : v.drives := ⟨driveV.trans asked, by rw [watchMoved_selected, ← selected]; exact geared⟩
    have resolvedV : v.resolve e.handle = some e := (resolve_congr ilt _).trans resolved
    have holds : v.BrakeHolds e.handle e := ⟨by rw [cfg]; exact run, by rw [brk]; exact held, resolvedV, self⟩
    let p := v.post (.partRetired e.handle .causeCleared)
    have ended : t = p.retired e := lineActed_retires (by rwa [← selected]) drives holds kind
    have iltP : p.ilt = s.ilt := (State.post_ilt _ _).trans ilt
    have resolvedP : p.resolve e.handle = some e := (resolve_congr iltP _).trans resolved
    rw [ended]
    refine ⟨retired_resolve resolvedP, retiredStopHold_forgotten kind (by rw [State.post_brk]; exact holds.2.1), ?_, fun scope last hold => ?_⟩
    · rw [← retired_eq]
      exact (ev_finish (ev_retireEntry none e .refl)).flagged (post_flagged_self _ _)
    · have brkP : p.brk = s.brk := (State.post_brk _ _).trans brk
      have motP : p.mot = v.mot := State.post_mot _ _
      refine State.EntersRamp.from_brk brkP (retiredStopHold_ramps (by rw [State.post_cfg]; exact holds.1) (by rwa [iltP]) resolvedP kind
        scope (by rw [motP]; exact drives.1) ?_ (by rwa [brkP]))
      rw [State.live_congr iltP, motP, motionV]
      exact last
  · intro unheld asked
    have unheldV : v.brk.selfHandle = none := by rw [brk]; exact unheld
    refine ⟨fun is none => ?_, fun isNot fits => ?_⟩
    · obtain ⟨rfl, level, run, waits⟩ := is
      have askedU : u.mot.driveReq.debounced = true := level
      have acted : s.lineActed .driveReq u = Brk.leaveWait v := by
        rw [lineActed_drive (s := s) (u := u) (inRun_iff.mpr run) askedU lineSettled_selected, release_unheld unheldV]
      have ramp : v.EntersRamp (Brk.leaveWait v) := leaveWait_enters (by rw [brk]; exact waits) (.inl (by rw [watchMoved_mot]; exact askedU))
      have blocks : Blocks v (Brk.leaveWait v) := bl_leaveWait (.refl v)
      have fits : (Brk.leaveWait v).HoldsFit := by
        have bare : ∀ f ∈ (Brk.leaveWait v).live, ¬ f.HoldsIn (Brk.leaveWait v).mot.motion := by
          rw [blocks.live, blocks.mot, liveV, motionV]
          exact none
        exact ⟨fun _ ⟨f, there, is⟩ => absurd is (bare f there), fun _ _ => .inr (.inl ramp.1)⟩
      show s.EntersRamp (State.finish (s.lineActed .driveReq u))
      rw [acted]
      exact (State.EntersRamp.from_brk brk ramp).finish fits
    · have fitsV : v.HoldsFit := by
        refine ⟨fun run => ?_, fun run => ?_⟩
        · rw [liveV, motionV, brk, cfg]
          exact fits.held (by rwa [cfg] at run)
        · rw [liveV, motionV, brk]
          intro bare
          have runS : s.cfg.device = .run := by rwa [cfg] at run
          rcases fits.free runS bare with hold | hold | ⟨hold, drive, moves⟩
          · exact .inl hold
          · exact .inr (.inl hold)
          · refine .inr (.inr ⟨hold, ?_, moves⟩)
            have settled : v.mot.driveReq = u.mot.line .driveReq := by
              rw [watchMoved_mot]
              rfl
            rw [settled, motU, changeLine_line]
            split
            case isTrue same =>
              subst same
              exact Bool.eq_false_iff.mpr fun level => isNot ⟨rfl, level, runS, hold⟩
            case isFalse => exact drive
      have acted : s.lineActed line u = v := by
        by_cases drive : line = .driveReq
        · subst drive
          by_cases acts : u.mot.driveReq.debounced = true ∧ u.inRun = true
          · have runV : v.cfg.device = .run := by
              rw [cfg]
              exact inRun_iff.mp acts.2
            rw [lineActed_drive acts.2 acts.1 lineSettled_selected, release_unheld unheldV, leaveWait_of_holdsFit runV fitsV]
          · exact lineActed_drive_quiet acts lineSettled_selected
        · by_cases same : u.selected = s.selected
          · exact lineActed_stays drive same
          · rw [lineActed_selects drive same, release_unheld unheldV]
      show (State.finish (s.lineActed line u)).brk = s.brk
      rw [acted, (finish_brk fitsV).2, brk]
      rfl
  · exact base.cfg.trans cfg
  · exact base.registry.trans (congrArg Ilt.registry ilt)
  · exact base.queue.trans (congrArg Lnk.queue lnk)
  · exact base.answer.trans (congrArg Lnk.answer lnk)

end Sys2Proof.Machine
end

