-- ==== Sys2Proof/Proofs/Deadlines.lean ====
section
/-! PROOF. A refresh deadline runs out (R31, R34, R35) -/

namespace Sys2Proof.Machine

/-! ## A deadline runs out (R31, R34, R35) -/

section
variable {s : State} {e : Entry} {h due : Nat}

theorem deadlineRunsOut_stale (stale : s.resolve h = none) : deadlineRunsOut h s = s := by
  unfold deadlineRunsOut
  rw [stale]

theorem deadlineRunsOut_outside_run (out : s.cfg.device ≠ .run) : deadlineRunsOut h s = s := by
  have outside : s.inRun = false := Bool.eq_false_iff.mpr (mt inRun_iff.mp out)
  unfold deadlineRunsOut
  split
  · rfl
  · rw [outside]

theorem deadlineRunsOut_stopped (run : s.cfg.device = .run) (resolved : s.resolve h = some e) (stopped : ∀ due, e.deadline ≠ .running due) :
    deadlineRunsOut h s = s := by
  unfold deadlineRunsOut
  rw [resolved, inRun_iff.mpr run]
  dsimp only
  split
  · next deadline => exact absurd deadline (stopped _)
  all_goals rfl

theorem deadlineRunsOut_expires (run : s.cfg.device = .run) (resolved : s.resolve h = some e) (running : e.deadline = .running due) :
    deadlineRunsOut h s = State.finish (expireEntry e (s.advanceTo due)) := by
  unfold deadlineRunsOut
  rw [resolved, inRun_iff.mpr run]
  dsimp only
  rw [running]

/-- R34, R35: a RAISE or an OVERRIDE is retired. -/
theorem expireEntry_retires (kind : e.kind = .raise ∨ e.kind = .override) :
    State.finish (expireEntry e s) = (s.post (.partRetired e.handle .stale)).retired e := by
  rw [expireEntry, if_pos kind, retireEntry_some, retired_eq]

/-- The table with the entry gone STALE. -/
def State.lapsed (e : Entry) (s : State) : State := s.updEntry e.handle fun x => { x with state := .stale, deadline := .stopped 0 }

theorem expireEntry_lapses (raise : e.kind ≠ .raise) (override : e.kind ≠ .override) (shown : e.state = .waiting ∨ e.state = .active) :
    expireEntry e s = (handOff .changed e (s.lapsed e)).post (.staleEntry e.handle) := by
  have follows : e.state.follows = true := decide_eq_true shown
  rw [expireEntry, if_neg (by simp [raise, override]), if_pos follows, State.lapsed]

theorem expireEntry_stays (raise : e.kind ≠ .raise) (override : e.kind ≠ .override) (stopped : ¬(e.state = .waiting ∨ e.state = .active)) :
    expireEntry e s = s := by
  have follows : ¬ e.state.follows = true := mt of_decide_eq_true stopped
  rw [expireEntry, if_neg (by simp [raise, override]), if_neg follows]

/-- The entry as the event leaves it: STALE, its deadline at 0, and its record else as it was. -/
theorem lapsed_ends (resolved : s.resolve e.handle = some e) (raise : e.kind ≠ .raise) (override : e.kind ≠ .override)
    (shown : e.state = .waiting ∨ e.state = .active) :
    let t := State.finish (expireEntry e s)
    t.flagged 0 ∧ t.ilt.order = s.ilt.order
      ∧ (∃ f, t.resolve e.handle = some f ∧ f.state = .stale ∧ f.deadline = .stopped 0 ∧ f.kind = e.kind ∧ f.owner = e.owner
        ∧ f.scope = e.scope ∧ f.parameter = e.parameter)
      ∧ ∀ i : Fin 24, i.val ≠ e.handle / 8 → (rd t.ilt.slots i).record = (rd s.ilt.slots i).record := by
  intro t
  let w := (handOff .changed e (s.lapsed e)).post (.staleEntry e.handle)
  have ilt : w.ilt = (s.lapsed e).ilt := (State.post_ilt _ _).trans (handOff_blocks .changed e (s.lapsed e)).ilt
  have ended : t = State.finish w := congrArg State.finish (expireEntry_lapses raise override shown)
  have reviewed : Reviewed (s.lapsed e) t := by
    rw [ended]
    exact (reviewed_of_same ilt).trans (finish_reviewed w)
  refine ⟨?_, ?_, ?_, fun i other => ?_⟩
  · rw [ended]
    exact finish_flagged (post_flagged_self _ _)
  · rw [reviewed.order]
    exact updEntry_order _ _ _
  · obtain ⟨f, after, is⟩ := reviewed.resolve (updEntry_resolve resolved fun x => { x with state := .stale, deadline := .stopped 0 })
    have record := is.record
    simp only [Entry.record, Prod.mk.injEq] at record
    obtain ⟨-, kind, owner, -, scope, parameter, deadline⟩ := record
    exact ⟨f, after, is.stopped (.inl rfl), deadline, kind, owner, scope, parameter⟩
  · rw [reviewed.slot_record i, State.lapsed, updEntry_slot resolved, if_neg other]

theorem lapsed_keeps {F : State → Prop} {Q : Kind → Bool} (b : BlockFit F Q) (reads : Q e.kind = true) (raise : e.kind ≠ .raise)
    (override : e.kind ≠ .override) (shown : e.state = .waiting ∨ e.state = .active) : F (State.finish (expireEntry e s)) := by
  rw [expireEntry_lapses raise override shown]
  exact b.ended _ (b.openClosed.post _ _ (b.handed _ _ _ (.inl reads)))

end

/-- Settles O47. -/
theorem deadlineRunsOut_settled : Obligations.DeadlineRunsOut := by
  unfold Obligations.DeadlineRunsOut
  intro n s
  have executes : exec (.refreshDeadlineExpiry n) s = .next (deadlineRunsOut n.toNat s) := rfl
  rw [executes]
  refine ⟨fun quiet => ?_, fun e resolved run => ⟨fun stopped => ?_, fun due running fits => ?_⟩⟩
  · rcases quiet with stale | out
    · rw [deadlineRunsOut_stale stale]
    · rw [deadlineRunsOut_outside_run out]
  · rw [deadlineRunsOut_stopped run resolved stopped]
  let u := s.advanceTo due
  let p := u.post (.partRetired e.handle .stale)
  have named := handle_of_resolve fits resolved
  rw [deadlineRunsOut_expires run resolved running]
  refine ⟨State.finish (expireEntry e u), rfl, (ev_finish (ev_expireEntry e (Evolves.refl (s := u)))).base, ?_⟩
  rw [← named] at resolved ⊢
  have resolvedP : p.resolve e.handle = some e := (resolve_congr (State.post_ilt _ _) _).trans resolved
  refine ⟨fun kind => ?_, fun kind => ?_, fun shown => ⟨fun kind => ?_, fun kind => ?_⟩, fun raise override shown => ?_⟩
  · rw [expireEntry_retires kind]
    refine ⟨retired_resolve resolvedP, ?_, fun m g scope there covered other uncovering => ?_⟩
    · rw [← retired_eq]
      exact (ev_finish (ev_retireEntry none e .refl)).flagged (post_flagged_self _ _)
    · have there' : p.resolve m = some g := (resolve_congr (State.post_ilt _ _) _).trans there
      obtain ⟨target, holds⟩ := retired_target scope there' covered other uncovering
      exact ⟨target, fun door => holds ((holds_iff _).mpr (by tauto))⟩
  · rw [expireEntry_retires (.inl kind)]
    exact retired_keeps ridesFit_blockFit (rides_iff.mpr (.inl kind))
  · exact lapsed_keeps holdsFit_blockFit ((holds_iff _).mpr kind) (by rcases kind with k | k | k | k <;> simp [k])
      (by rcases kind with k | k | k | k <;> simp [k]) shown
  · exact lapsed_keeps ridesFit_blockFit (rides_iff.mpr (.inr kind)) (by rcases kind with k | k <;> simp [k])
      (by rcases kind with k | k <;> simp [k]) shown
  · exact lapsed_ends (s := u) resolved raise override shown

end Sys2Proof.Machine
end

