-- ==== Sys2Proof/Proofs/RetireLists.lean ====
section
/-! PROOF. Several entries retired one after the other -/

namespace Sys2Proof.Machine

/-! ## The retirement of an entry that DSV does not supervise -/

section
variable {s : State} {e : Entry}

/-- DSV derives nothing for the entry: it is no door entry, or it names no door. -/
def Entry.Aside (e : Entry) : Prop := e.kind.isDoor = false ∨ e.scope.door? = none

theorem superviseFor_aside (aside : e.Aside) (u : State) : Dsv.superviseFor e u = u := by
  unfold Dsv.superviseFor
  split
  · next d named =>
    refine if_neg ?_
    rcases aside with kind | scope
    · simp [kind]
    · rw [scope] at named
      exact absurd named (by simp)
  · rfl

/-- The state in which STC has yet to judge whether it leaves LOCKED, the notice posted. -/
def State.retireNoticed (r : RetireReason) (e : Entry) (s : State) : State := (s.post (.partRetired e.handle r)).retireHanded e

theorem retireEntry_aside (aside : e.Aside) (r : RetireReason) (s : State) : retireEntry (some r) e s =
    if e.kind = .steerCentre then Stc.leaveLocked (s.retireNoticed r e) else s.retireNoticed r e := by
  rw [retireEntry_some, retireEntry_eq, handOffRetired, superviseFor_aside aside]
  rfl

theorem retireNoticed_evolves (r : RetireReason) (e : Entry) (s : State) : Evolves s (s.retireNoticed r e) :=
  (ev_post _ .refl).trans retireHanded_evolves

theorem retireNoticed_flagged (r : RetireReason) (e : Entry) (s : State) : (s.retireNoticed r e).flagged 1 :=
  (retireHanded_evolves (s := s.post (.partRetired e.handle r)) (e := e)).flagged (post_flagged_self _ _)

theorem retireNoticed_latch (r : RetireReason) (e : Entry) (s : State) : (s.retireNoticed r e).stc.latch = s.stc.latch := by
  obtain ⟨u, moves, stc, -⟩ := retireHanded_moves (s := s.post (.partRetired e.handle r)) (e := e)
  rw [State.retireNoticed, stc]
  exact moves.keeps.1.trans (congrArg Stc.latch (State.post_stc _ _))

theorem judgeLock_dsv (s : State) : (Stc.judgeLock s).dsv = s.dsv := by
  unfold Stc.judgeLock
  split
  · exact setLatch_dsv _ s
  · rfl

theorem startCentring_dsv (s : State) : (Stc.startCentring s).dsv = s.dsv := by
  unfold Stc.startCentring
  split
  · exact command_dsv _ _ _
  · rfl

theorem leaveLocked_dsv (s : State) : (Stc.leaveLocked s).dsv = s.dsv := by
  by_cases leaves : s.stc.state = .locked ∧ s.anyLive .steerCentre = false
  · have leaving : s.leaving.dsv = s.dsv := (command_dsv _ _ _).trans (State.modStc_dsv _ _)
    rw [leaveLocked_leaves leaves.1 leaves.2, startCentring_dsv, judgeLock_dsv, leaving]
  · have stays : Stc.leaveLocked s = s := if_neg leaves
    rw [stays]

theorem retireUncovers_dsv (e : Entry) (s : State) : (s.retireUncovers e).dsv = s.dsv := by
  unfold State.retireUncovers
  split
  · next target _ =>
    obtain same | ⟨g, -, -, same⟩ := uncover_cases target s
    · rw [same]
    · rw [same, (handOff_blocks .changed g _).dsv, State.updEntry_dsv]
  all_goals rfl

theorem retireHanded_door (e : Entry) (s : State) (d : Fin 4) : rd (s.retireHanded e).dsv.doors d =
    { rd s.dsv.doors d with selfHandle := keptHandle e.handle (rd s.dsv.doors d).selfHandle } := by
  have before : (s.retiring e).dsv = s.dsv := (retireUncovers_dsv e _).trans retireDrops_beside.2.2.1
  rw [State.retireHanded, (forgetHandle_handles _ _).2.2 d, (handOff_blocks .retired e _).dsv, before]

theorem retireEntry_door (aside : e.Aside) (r : RetireReason) (s : State) (d : Fin 4) : rd (retireEntry (some r) e s).dsv.doors d =
    { rd s.dsv.doors d with selfHandle := keptHandle e.handle (rd s.dsv.doors d).selfHandle } := by
  have handed : rd (s.retireNoticed r e).dsv.doors d =
      { rd s.dsv.doors d with selfHandle := keptHandle e.handle (rd s.dsv.doors d).selfHandle } := by
    rw [State.retireNoticed, retireHanded_door, State.post_dsv]
  rw [retireEntry_aside aside]
  split
  · rw [leaveLocked_dsv, handed]
  · exact handed

end

/-! ## A handle on its way out of the table -/

/-- The entry of a handle has gone from its slot. What the part opens there since is at most the STEER_CENTRE of a latch, which is set
once. -/
def State.Faded (i : Fin 24) (g : Fin 8) (s : State) : Prop :=
  ((rd s.ilt.slots i).generation = g + 1 ∧ ((rd s.ilt.slots i).entry = none ∨ s.stc.latch ≠ none))
    ∨ ((rd s.ilt.slots i).generation = g + 2 ∧ (rd s.ilt.slots i).entry = none ∧ s.stc.latch ≠ none)

/-- The entry of a handle stands in its slot, or it has gone. -/
def State.Fading (i : Fin 24) (g : Fin 8) (s : State) : Prop :=
  ((rd s.ilt.slots i).generation = g ∧ (rd s.ilt.slots i).entry ≠ none) ∨ s.Faded i g

section
variable {s t : State} {i : Fin 24} {g : Fin 8} {e : Entry}

theorem State.Faded.past (h : s.Faded i g) : s.PastHandle (i.val * 8 + g.val) := by
  intro j place
  obtain rfl : j = i := Fin.ext (by omega)
  have apart : ∀ k : Fin 8, k ≠ k + 1 ∧ k ≠ k + 2 := by decide
  have mod : (j.val * 8 + g.val) % 8 = g.val := by omega
  rw [mod]
  intro same
  rcases h with ⟨generation, -⟩ | ⟨generation, -⟩
  · exact (apart g).1 (Fin.ext (same.trans (congrArg Fin.val generation)))
  · exact (apart g).2 (Fin.ext (same.trans (congrArg Fin.val generation)))

/-- What leaves the slot's generation and occupation, and the latch, leaves both properties. -/
theorem State.Faded.congr (h : s.Faded i g) (generation : (rd t.ilt.slots i).generation = (rd s.ilt.slots i).generation)
    (empty : (rd s.ilt.slots i).entry = none → (rd t.ilt.slots i).entry = none) (latch : s.stc.latch ≠ none → t.stc.latch ≠ none) :
    t.Faded i g := by
  rcases h with ⟨is, gone⟩ | ⟨is, gone, latched⟩
  · exact .inl ⟨generation.trans is, gone.imp empty latch⟩
  · exact .inr ⟨generation.trans is, empty gone, latch latched⟩

theorem dropEntry_faded (h : s.Faded i g) (x : Nat) : (s.dropEntry x).Faded i g := by
  have latch : (s.dropEntry x).stc.latch = s.stc.latch := congrArg Stc.latch (State.dropEntry_stc _ _)
  by_cases here : i.val = x / 8
  case neg => exact h.congr (by rw [dropEntry_slot_other here]) (by rw [dropEntry_slot_other here]; exact id) (by rw [latch]; exact id)
  case pos =>
    cases resolved : s.resolve x with
    | none =>
      rw [dropEntry_unresolved resolved]
      exact h
    | some f =>
      have slot := dropEntry_slot resolved i
      rw [if_pos here] at slot
      obtain ⟨j, place, -, entry⟩ := slot_of_resolve resolved
      obtain rfl : i = j := Fin.ext (here.trans place.symm)
      rcases h with ⟨is, gone⟩ | ⟨-, gone, -⟩
      · have latched : s.stc.latch ≠ none := gone.resolve_left (by rw [entry]; simp)
        have next : g + 1 + 1 = g + 2 := by rw [add_assoc]; rfl
        exact .inr ⟨by rw [slot, is, ← next], by rw [slot], by rwa [latch]⟩
      · rw [entry] at gone
        exact absurd gone (by simp)

theorem dropEntry_fading (h : s.Fading i g) (x : Nat) : (s.dropEntry x).Fading i g := by
  rcases h with ⟨is, there⟩ | faded
  case inr => exact .inr (dropEntry_faded faded x)
  case inl =>
    by_cases here : i.val = x / 8
    case neg => exact .inl (by rw [dropEntry_slot_other here]; exact ⟨is, there⟩)
    case pos =>
      cases resolved : s.resolve x with
      | none =>
        rw [dropEntry_unresolved resolved]
        exact .inl ⟨is, there⟩
      | some f =>
        have slot := dropEntry_slot resolved i
        rw [if_pos here] at slot
        exact .inr (.inl ⟨by rw [slot, is], .inl (by rw [slot])⟩)

theorem dropEntry_fades (h : s.Fading i g) : (s.dropEntry (i.val * 8 + g.val)).Faded i g := by
  rcases h with ⟨is, there⟩ | faded
  case inr => exact dropEntry_faded faded _
  case inl =>
    obtain ⟨f, entry⟩ := Option.ne_none_iff_exists'.mp there
    have place : i.val = (i.val * 8 + g.val) / 8 := by omega
    have resolved : s.resolve (i.val * 8 + g.val) = some f := State.resolve_of_slot place (by rw [is]; omega) entry
    have slot := dropEntry_slot resolved i
    rw [if_pos place] at slot
    exact .inl ⟨by rw [slot, is], .inl (by rw [slot])⟩

theorem faded_of_same (ilt : t.ilt = s.ilt) (latch : t.stc.latch = s.stc.latch) (h : s.Faded i g) : t.Faded i g :=
  h.congr (by rw [ilt]) (by rw [ilt]; exact id) (by rw [latch]; exact id)

theorem fading_of_same (ilt : t.ilt = s.ilt) (latch : t.stc.latch = s.stc.latch) (h : s.Fading i g) : t.Fading i g :=
  h.imp (by rw [ilt]; exact id) (faded_of_same ilt latch)

/-- STC that leaves LOCKED opens an entry only with the latch that it sets. -/
theorem leaveLocked_opens_latched (s : State) (i : Fin 24) : (s.stc.latch ≠ none → (Stc.leaveLocked s).stc.latch ≠ none)
    ∧ ((rd s.ilt.slots i).entry = none → (rd (Stc.leaveLocked s).ilt.slots i).entry = none ∨ (Stc.leaveLocked s).stc.latch ≠ none)
    ∧ (s.stc.latch ≠ none → (Stc.leaveLocked s).ilt = s.ilt) := by
  by_cases leaves : s.stc.state = .locked ∧ s.anyLive .steerCentre = false
  case neg =>
    have stays : Stc.leaveLocked s = s := if_neg leaves
    rw [stays]
    exact ⟨id, .inl, fun _ => rfl⟩
  case pos =>
    have ilt : s.leaving.ilt = s.ilt := (command_ilt _ _ _).trans (State.modStc_ilt _ _)
    have latch : s.leaving.stc.latch = s.stc.latch := by
      rw [leaving_stc]
      split <;> rfl
    have judged : (s.stc.latch ≠ none → Stc.judgeLock s.leaving = s.leaving)
        ∧ (Stc.judgeLock s.leaving = s.leaving ∨ (Stc.judgeLock s.leaving).stc.latch ≠ none) := by
      unfold Stc.judgeLock
      split
      · cases latched : s.leaving.stc.latch with
        | some q =>
          rw [setLatch_stands latched]
          exact ⟨fun _ => rfl, .inl rfl⟩
        | none =>
          refine ⟨fun was => absurd (latch.symm.trans latched) was, .inr ?_⟩
          rw [(setLatch_takes .lockChannel latched).1]
          simp
      · exact ⟨fun _ => rfl, .inl rfl⟩
    have centred := startCentring_steerEnds (Stc.judgeLock s.leaving)
    have tabled : (Stc.startCentring (Stc.judgeLock s.leaving)).ilt = (Stc.judgeLock s.leaving).ilt := (bl_startCentring (.refl _)).ilt
    rw [leaveLocked_leaves leaves.1 leaves.2, centred.latch, tabled]
    refine ⟨fun was => ?_, fun empty => judged.2.imp (fun same => ?_) id, fun was => ?_⟩
    · rwa [judged.1 was, latch]
    · rwa [same, ilt]
    · rw [judged.1 was, ilt]

theorem leaveLocked_gains (s : State) : Gains s (Stc.leaveLocked s) := oc_leaveLocked (gains_openClosed s) (Gains.refl s)

theorem leaveLocked_faded (h : s.Faded i g) : (Stc.leaveLocked s).Faded i g := by
  obtain ⟨latch, opens, still⟩ := leaveLocked_opens_latched s i
  have generation := (leaveLocked_gains s).generation i
  rcases h with ⟨is, gone⟩ | ⟨is, gone, latched⟩
  · exact .inl ⟨generation.trans is, gone.elim opens fun was => .inr (latch was)⟩
  · exact .inr ⟨generation.trans is, by rwa [still latched], latch latched⟩

theorem leaveLocked_fading (h : s.Fading i g) : (Stc.leaveLocked s).Fading i g := by
  rcases h with ⟨is, there⟩ | faded
  case inr => exact .inr (leaveLocked_faded faded)
  case inl =>
    obtain ⟨f, entry⟩ := Option.ne_none_iff_exists'.mp there
    obtain ⟨f', entry', -⟩ := (leaveLocked_gains s).kept i f entry
    exact .inl ⟨((leaveLocked_gains s).generation i).trans is, by rw [entry']; simp⟩

/-- The return of a target keeps what a slot holds. -/
theorem Returns.filled {u v : State} (h : Returns u v) (i : Fin 24) : (rd v.ilt.slots i).entry ≠ none ↔ (rd u.ilt.slots i).entry ≠ none := by
  have same : ((rd v.ilt.slots i).entry.map Entry.record).isSome = ((rd u.ilt.slots i).entry.map Entry.record).isSome :=
    congrArg (fun r => Option.isSome r.2) (h.record i)
  rw [Option.isSome_map, Option.isSome_map] at same
  rw [← Option.isSome_iff_ne_none, ← Option.isSome_iff_ne_none, same]

/-- What a retirement does to a slot once the entries are dropped. -/
theorem retireNoticed_of_drops (r : RetireReason) (e : Entry) (s : State) :
    let p := s.post (.partRetired e.handle r)
    Returns (p.retireDrops e) ((p.retireDrops e).retireUncovers e) ∧ (s.retireNoticed r e).ilt = ((p.retireDrops e).retireUncovers e).ilt
      ∧ (s.retireNoticed r e).stc.latch = (p.retireDrops e).stc.latch := by
  refine ⟨retireUncovers_returns e _, retireHanded_ilt, ?_⟩
  rw [retireNoticed_latch, retireDrops_beside.2.1, State.post_stc]

theorem retireDrops_keeps {P : State → Prop} (drops : ∀ u x, P u → P (u.dropEntry x)) (posts : ∀ u n, P u → P (u.post n))
    (h : P (s.dropEntry e.handle)) : P (s.retireDrops e) := by
  cases covered : e.coveredBy with
  | none =>
    rw [retireDrops_uncovered covered]
    exact h
  | some o =>
    rw [retireDrops_covered covered]
    exact posts _ _ (drops _ o h)

theorem post_faded {n : Notice} (h : s.Faded i g) : (s.post n).Faded i g := faded_of_same (State.post_ilt _ _) (by rw [State.post_stc]) h

theorem post_fading {n : Notice} (h : s.Fading i g) : (s.post n).Fading i g := fading_of_same (State.post_ilt _ _) (by rw [State.post_stc]) h

theorem retireNoticed_faded {r : RetireReason} (h : ((s.post (.partRetired e.handle r)).dropEntry e.handle).Faded i g) :
    (s.retireNoticed r e).Faded i g := by
  obtain ⟨returns, ilt, latch⟩ := retireNoticed_of_drops r e s
  have dropped := retireDrops_keeps (P := State.Faded i g) (fun u x k => dropEntry_faded k x) (fun u n k => post_faded k) h
  exact dropped.congr (by rw [ilt, returns.generation]) (fun empty => by rw [ilt]; exact returns.empty i empty) (by rw [latch]; exact id)

theorem retireNoticed_fading {r : RetireReason} (h : s.Fading i g) : (s.retireNoticed r e).Fading i g := by
  obtain ⟨returns, ilt, latch⟩ := retireNoticed_of_drops r e s
  have dropped := retireDrops_keeps (P := State.Fading i g) (fun u x k => dropEntry_fading k x) (fun u n k => post_fading k)
    (dropEntry_fading (post_fading (n := .partRetired e.handle r) h) e.handle)
  rcases dropped with ⟨is, there⟩ | faded
  · exact .inl ⟨by rw [ilt, returns.generation, is], by rw [ilt]; exact (returns.filled i).mpr there⟩
  · exact .inr (faded.congr (by rw [ilt, returns.generation]) (fun empty => by rw [ilt]; exact returns.empty i empty) (by rw [latch]; exact id))

theorem retireEntry_fading (aside : e.Aside) (r : RetireReason) (h : s.Fading i g) : (retireEntry (some r) e s).Fading i g := by
  rw [retireEntry_aside aside]
  split
  · exact leaveLocked_fading (retireNoticed_fading h)
  · exact retireNoticed_fading h

theorem retireEntry_faded (aside : e.Aside) (r : RetireReason) (h : s.Faded i g) : (retireEntry (some r) e s).Faded i g := by
  have handed : (s.retireNoticed r e).Faded i g := retireNoticed_faded (dropEntry_faded (post_faded h) _)
  rw [retireEntry_aside aside]
  split
  · exact leaveLocked_faded handed
  · exact handed

theorem retireEntry_fades (aside : e.Aside) (r : RetireReason) (named : e.handle = i.val * 8 + g.val) (h : s.Fading i g) :
    (retireEntry (some r) e s).Faded i g := by
  have handed : (s.retireNoticed r e).Faded i g := retireNoticed_faded (by rw [named]; exact dropEntry_fades (post_fading h))
  rw [retireEntry_aside aside]
  split
  · exact leaveLocked_faded handed
  · exact handed

/-- The retirements of a list of entries, one after the other. -/
def retireList (r : RetireReason) (l : List Entry) (s : State) : State := l.foldl (fun s e => retireEntry (some r) e s) s

theorem retireAll_eq (r : RetireReason) (which : Entry → Bool) (s : State) : retireAll r which s = retireList r (s.live.filter which) s := rfl

theorem retireList_closed {P : State → Prop} {r : RetireReason} {l : List Entry} (step : ∀ e ∈ l, ∀ u, P u → P (retireEntry (some r) e u))
    (h : P s) : P (retireList r l s) := by
  induction l generalizing s with
  | nil => exact h
  | cons e l ih => exact ih (fun f there => step f (List.mem_cons_of_mem _ there)) (step e (List.mem_cons_self ..) s h)

theorem retireList_evolves (r : RetireReason) (l : List Entry) (s : State) : Evolves s (retireList r l s) :=
  retireList_closed (P := Evolves s) (fun e _ _ k => ev_retireEntry _ e k) .refl

theorem retireEntry_flagged (r : RetireReason) (e : Entry) (s : State) : (retireEntry (some r) e s).flagged 1 := by
  rw [retireEntry_some]
  exact (ev_retireEntry none e .refl).flagged (post_flagged_self _ _)

/-- Each entry of the list has gone from the table, with its notice. -/
theorem retireList_gone {r : RetireReason} {l : List Entry} (aside : ∀ e ∈ l, e.Aside) {o : Entry} (listed : o ∈ l)
    (named : o.handle = i.val * 8 + g.val) (h : s.Fading i g) : (retireList r l s).Faded i g ∧ (retireList r l s).flagged 1 := by
  obtain ⟨before, after, rfl⟩ := List.append_of_mem listed
  have split : retireList r (before ++ o :: after) s = retireList r after (retireEntry (some r) o (retireList r before s)) := by
    rw [retireList, List.foldl_append]
    rfl
  have reached : (retireList r before s).Fading i g := retireList_closed (P := State.Fading i g)
    (fun e there u k => retireEntry_fading (aside e (List.mem_append_left _ there)) r k) h
  have gone := retireEntry_fades (aside o listed) r named reached
  rw [split]
  refine ⟨retireList_closed (P := State.Faded i g) (fun e there u k => retireEntry_faded
    (aside e (List.mem_append_right _ (List.mem_cons_of_mem _ there))) r k) gone, ?_⟩
  exact (retireList_evolves r after _).flagged (retireEntry_flagged r o _)

end

end Sys2Proof.Machine
end

