-- ==== Sys2Proof/Proofs/Losses.lean ====
section
/-! PROOF. What retirements take from the table, and the door claims at the end of an event -/

namespace Sys2Proof.Machine

/-! ## What retirements take away -/

/-- From the first state to the second the table only loses entries; the others keep their records. -/
structure Loses (u v : State) : Prop where
  order : ∀ i ∈ v.ilt.order, i ∈ u.ilt.order
  empty : ∀ i, (rd u.ilt.slots i).entry = none → (rd v.ilt.slots i).entry = none
  entry : ∀ i f, (rd v.ilt.slots i).entry = some f → ∃ e, (rd u.ilt.slots i).entry = some e ∧ e.record = f.record

section
variable {s t u : State} {e : Entry}

theorem loses_of_same (ilt : t.ilt = s.ilt) : Loses s t := ⟨by rw [ilt]; exact fun _ h => h, by rw [ilt]; exact fun _ h => h,
  by rw [ilt]; exact fun _ f h => ⟨f, h, rfl⟩⟩

theorem Loses.trans (h : Loses s t) (k : Loses t u) : Loses s u where
  order i there := h.order i (k.order i there)
  empty i none := k.empty i (h.empty i none)
  entry i f there := by
    obtain ⟨e, middle, same⟩ := k.entry i f there
    obtain ⟨e', first, same'⟩ := h.entry i e middle
    exact ⟨e', first, same'.trans same⟩

theorem dropEntry_loses (x : Nat) (s : State) : Loses s (s.dropEntry x) where
  order _ := dropEntry_order_sub
  empty i none := by rw [dropEntry_slot_empty none, none]
  entry i f there := by
    by_cases here : i.val = x / 8
    · cases resolved : s.resolve x with
      | none =>
        rw [dropEntry_unresolved resolved] at there
        exact ⟨f, there, rfl⟩
      | some g =>
        rw [dropEntry_slot resolved, if_pos here] at there
        exact absurd there (by simp)
    · rw [dropEntry_slot_other here] at there
      exact ⟨f, there, rfl⟩

theorem Returns.loses {u v : State} (h : Returns u v) : Loses u v where
  order i there := by rwa [h.order] at there
  empty := h.empty
  entry i f there := by
    have same : (rd v.ilt.slots i).entry.map Entry.record = (rd u.ilt.slots i).entry.map Entry.record := congrArg Prod.snd (h.record i)
    rw [there, Option.map_some] at same
    obtain ⟨e, entry, is⟩ := Option.map_eq_some_iff.mp same.symm
    exact ⟨e, entry, is⟩

theorem Reviewed.loses (h : Reviewed s t) : Loses s t where
  order i there := by rwa [h.order] at there
  empty i none := h.entry_none.mpr none
  entry i f there := by
    obtain ⟨e, entry, reviewed⟩ := h.entry_from there
    exact ⟨e, entry, reviewed.record.symm⟩

/-- Each live entry was live with its record. -/
theorem Loses.live (h : Loses s t) {f : Entry} (there : f ∈ t.live) : ∃ e ∈ s.live, e.record = f.record := by
  obtain ⟨i, listed, entry⟩ := mem_live_iff.mp there
  obtain ⟨e, before, same⟩ := h.entry i f entry
  exact ⟨e, mem_live_iff.mpr ⟨i, h.order i listed, before⟩, same⟩

theorem retireEntry_loses (aside : e.Aside) (centre : e.kind ≠ .steerCentre) (r : RetireReason) (s : State) :
    Loses s (retireEntry (some r) e s) := by
  obtain ⟨returns, ilt, -⟩ := retireNoticed_of_drops r e s
  have posted : Loses s (s.post (.partRetired e.handle r)) := loses_of_same (State.post_ilt _ _)
  have dropped : Loses s ((s.post (.partRetired e.handle r)).retireDrops e) := retireDrops_keeps (P := Loses s)
    (fun u x k => k.trans (dropEntry_loses x u)) (fun u n k => k.trans (loses_of_same (State.post_ilt _ _)))
    (posted.trans (dropEntry_loses _ _))
  rw [retireEntry_aside aside, if_neg centre]
  exact (dropped.trans returns.loses).trans (loses_of_same ilt)

end

/-! ## Door claims at the end of an event -/

section
variable {s : State} {d : Fin 4}

theorem partnerClaims_iff : s.partnerClaims d = true ↔
    ∃ e ∈ s.live, e.owner ≠ 15 ∧ (e.kind = .doorOpen ∨ e.kind = .rampOut) ∧ e.scope = .door d := by
  simp only [State.partnerClaims, List.any_eq_true, Bool.and_eq_true, partnerDoor_iff, decide_eq_true_eq, and_assoc]

theorem selfClaims_iff : s.selfClaims d = true ↔ ∃ e ∈ s.live, e.owner = 15 ∧ e.kind = .doorOpen ∧ e.scope = .door d := by
  simp only [State.selfClaims, List.any_eq_true, Bool.and_eq_true, Entry.isSelf, decide_eq_true_eq]

/-- What a property of the record finds among the live entries, it finds at the end of the event. -/
theorem finish_live_record {P : Fin 16 → Kind → Scope → Prop} :
    (∃ e ∈ (State.finish s).live, P e.owner e.kind e.scope) ↔ ∃ e ∈ s.live, P e.owner e.kind e.scope := by
  have reviewed := finish_reviewed s
  constructor
  · rintro ⟨f, there, is⟩
    obtain ⟨e, before, same⟩ := reviewed.loses.live there
    simp only [Entry.record, Prod.mk.injEq] at same
    obtain ⟨-, kind, owner, -, scope, -⟩ := same
    exact ⟨e, before, by rwa [kind, owner, scope]⟩
  · rintro ⟨e, there, is⟩
    obtain ⟨i, listed, entry⟩ := mem_live_iff.mp there
    obtain ⟨f, after, review⟩ := reviewed.entry_some entry
    have same := review.record
    simp only [Entry.record, Prod.mk.injEq] at same
    obtain ⟨-, kind, owner, -, scope, -⟩ := same
    exact ⟨f, mem_live_iff.mpr ⟨i, by rwa [reviewed.order], after⟩, by rwa [kind, owner, scope]⟩

/-- The derivation of a door brings no claim of a partner, and takes none. -/
theorem supervise_partnerClaims (d : Fin 4) (s : State) : (Dsv.supervise d s).partnerClaims d = s.partnerClaims d := by
  have gains : Gains s (Dsv.supervise d s) := oc_supervise (gains_openClosed s) d (Gains.refl s)
  rw [Bool.eq_iff_iff, partnerClaims_iff, partnerClaims_iff]
  constructor
  · rintro ⟨f, there, owner, is⟩
    rcases supervise_ilt d s with same | ⟨slot, e, own, same⟩
    · rw [State.live_congr same] at there
      exact ⟨f, there, owner, is⟩
    · rw [State.live_congr same] at there
      rcases placeEntry_live_cases there with before | rfl
      · exact ⟨f, before, owner, is⟩
      · exact absurd (own _).1 owner
  · rintro ⟨f, there, owner, kind, scope⟩
    obtain ⟨i, listed, entry⟩ := mem_live_iff.mp there
    obtain ⟨g, after, reviewed⟩ := gains.kept i f entry
    have same := reviewed.record
    simp only [Entry.record, Prod.mk.injEq] at same
    obtain ⟨-, sameKind, sameOwner, -, sameScope, -⟩ := same
    exact ⟨g, mem_live_iff.mpr ⟨i, gains.stays i listed, after⟩, by rwa [sameOwner], by rwa [sameKind], by rwa [sameScope]⟩

end

end Sys2Proof.Machine
end

