-- ==== Sys2Proof/Proofs/Contacts.lean ====
section
/-! PROOF. A door contact settles (R53, R63, R66) -/

namespace Sys2Proof.Machine

/-! ## A door contact settles (R53, R63, R66 to R69) -/

section
variable {s : State} {d : Fin 4}

theorem upd_congr {α : Type} {n : Nat} {v : Vector α n} {i : Fin n} {f g : α → α} (same : f (rd v i) = g (rd v i)) : upd v i f = upd v i g := by
  rw [upd, same, upd]

theorem upd_id {α : Type} {n : Nat} (v : Vector α n) (i : Fin n) : upd v i id = v := by
  refine ext_rd fun j => ?_
  rw [rd_upd]
  split
  case isTrue same =>
    subst same
    rfl
  case isFalse => rfl

theorem changeDoor_congr {f g : Door → Door} (same : f (rd s.dsv.doors d) = g (rd s.dsv.doors d)) :
    Dsv.changeDoor d f s = Dsv.changeDoor d g s := by
  have doors : upd s.dsv.doors d f = upd s.dsv.doors d g := upd_congr same
  unfold Dsv.changeDoor State.modDsv
  dsimp only
  rw [doors]

theorem changeDoor_id (d : Fin 4) (s : State) : Dsv.changeDoor d id s = s := by
  have doors : upd s.dsv.doors d id = s.dsv.doors := upd_id _ _
  unfold Dsv.changeDoor State.modDsv
  dsimp only
  rw [doors]

/-- The contact settled at the instant of its debounce. -/
def State.contactSettled (d : Fin 4) (x : InputLine) (s : State) : State :=
  Dsv.changeDoor d (fun y => { y with contact := { x with debounced := x.level } }) (s.advanceTo (x.since + 50000))

/-- The contact with ILT, which takes none in SAFE. -/
def State.contactTaken (d : Fin 4) (closed : Bool) (s : State) : State :=
  if s.cfg.device = .safe then s else s.modIlt fun t => { t with contacts := wr t.contacts d closed }

/-- The overrides on the door retired where the contact has opened in RUN. -/
def State.contactActed (d : Fin 4) (closed : Bool) (s : State) : State :=
  if closed = false ∧ s.inRun = true then retireList .contactOpen (s.live.filter (s.overridesDoor d)) s else s

theorem handContact_eq (d : Fin 4) (s : State) : handContact d s =
    (s.contactTaken d (rd s.dsv.doors d).contact.debounced).contactActed d (rd s.dsv.doors d).contact.debounced := by
  unfold handContact State.contactTaken
  by_cases safe : s.cfg.device = .safe
  · have out : s.inRun = false := by simp [State.inRun, safe]
    rw [if_pos safe, if_pos safe, State.contactActed, if_neg (by simp [out])]
  · rw [if_neg safe, if_neg safe]
    dsimp only
    cases (rd s.dsv.doors d).contact.debounced with
    | true => rfl
    | false =>
      unfold State.contactActed retireOverrides
      by_cases run : (s.modIlt fun t => { t with contacts := wr t.contacts d false }).inRun = true
      · rw [if_neg (by simp), if_pos run, if_pos ⟨rfl, run⟩]
        rfl
      · rw [if_neg (by simp), if_neg run, if_neg fun h => run h.2]

theorem contactSettled_door (x : InputLine) (j : Fin 4) : rd (s.contactSettled d x).dsv.doors j =
    if d = j then { rd s.dsv.doors j with contact := { x with debounced := x.level } } else rd s.dsv.doors j := by
  rw [State.contactSettled, changeDoor_door]
  rfl

theorem contactTaken_beside (d : Fin 4) (closed : Bool) (s : State) : (s.contactTaken d closed).ilt.slots = s.ilt.slots
    ∧ (s.contactTaken d closed).ilt.order = s.ilt.order ∧ (s.contactTaken d closed).ilt.registry = s.ilt.registry
    ∧ (s.contactTaken d closed).dsv = s.dsv ∧ (s.contactTaken d closed).cfg = s.cfg ∧ (s.contactTaken d closed).mot = s.mot
    ∧ (s.contactTaken d closed).lnk = s.lnk ∧ (s.contactTaken d closed).now = s.now := by
  unfold State.contactTaken
  split <;> exact ⟨rfl, rfl, rfl, rfl, rfl, rfl, rfl, rfl⟩

theorem contactTaken_contacts (d : Fin 4) (closed : Bool) (s : State) (i : Fin 4) : rd (s.contactTaken d closed).ilt.contacts i =
    if i = d ∧ s.cfg.device ≠ .safe then closed else rd s.ilt.contacts i := by
  unfold State.contactTaken
  by_cases safe : s.cfg.device = .safe
  · rw [if_pos safe, if_neg fun h => h.2 safe]
  · rw [if_neg safe, State.modIlt_ilt, rd_wr]
    by_cases here : i = d
    · rw [if_pos here.symm, if_pos ⟨here, safe⟩]
    · rw [if_neg (Ne.symm here), if_neg fun h => here h.1]

/-- The state of a fitted door's contact before DSV derives the door. -/
def State.contactHanded (d : Fin 4) (x : InputLine) (s : State) : State := ((s.contactSettled d x).contactTaken d x.level).contactActed d x.level

theorem doorContact_settles (d : Fin 4) (s : State)
    (unsettled : (rd s.dsv.doors d).contact.level ≠ (rd s.dsv.doors d).contact.debounced) :
    exec (.doorContactDebounceExpiry d) s = .next (if s.fitted d
      then State.finish (Dsv.supervise d (s.contactHanded d (rd s.dsv.doors d).contact)) else s.contactSettled d (rd s.dsv.doors d).contact) := by
  have due : (rd s.dsv.doors d).contact.due = some ((rd s.dsv.doors d).contact.since + 50000) := if_neg unsettled
  have settled : Dsv.changeDoor d (fun x => { x with contact := x.contact.settle }) (s.advanceTo ((rd s.dsv.doors d).contact.since + 50000))
      = s.contactSettled d (rd s.dsv.doors d).contact := changeDoor_congr rfl
  have level : (rd (s.contactSettled d (rd s.dsv.doors d).contact).dsv.doors d).contact.debounced = (rd s.dsv.doors d).contact.level := by
    rw [contactSettled_door, if_pos rfl]
  have handed := handContact_eq d (s.contactSettled d (rd s.dsv.doors d).contact)
  rw [level] at handed
  show execDoorContactDebounceExpiry d s = _
  rw [execDoorContactDebounceExpiry, due]
  unfold contactSettles
  dsimp only
  rw [settled, handed]
  rfl

theorem doorContact_rests (d : Fin 4) (s : State) (settled : (rd s.dsv.doors d).contact.level = (rd s.dsv.doors d).contact.debounced) :
    exec (.doorContactDebounceExpiry d) s = .next s := by
  have due : (rd s.dsv.doors d).contact.due = none := if_pos settled
  show execDoorContactDebounceExpiry d s = _
  rw [execDoorContactDebounceExpiry, due]

/-! ### What the opening of a contact retires (R63) -/

theorem overridesDoor_iff (s : State) (d : Fin 4) (e : Entry) :
    s.overridesDoor d e = true ↔ ∃ n g, e.scope = .target n ∧ s.resolve n = some g ∧ g.scope = .door d := by
  unfold State.overridesDoor
  cases e.scope with
  | target n =>
    cases resolved : s.resolve n with
    | none => simp [resolved]
    | some g => simp [resolved]
  | door => simp
  | curb => simp
  | full => simp
  | vehicle => simp

theorem overridesDoor_aside {e : Entry} (named : s.overridesDoor d e = true) : e.Aside := by
  obtain ⟨n, g, scope, -⟩ := (overridesDoor_iff s d e).mp named
  exact .inr (by rw [scope]; rfl)

theorem contactActed_cases (d : Fin 4) (closed : Bool) (s : State) : s.contactActed d closed = s
    ∨ (closed = false ∧ s.inRun = true ∧ s.contactActed d closed = retireList .contactOpen (s.live.filter (s.overridesDoor d)) s) := by
  by_cases acts : closed = false ∧ s.inRun = true
  · exact .inr ⟨acts.1, acts.2, if_pos acts⟩
  · exact .inl (if_neg acts)

theorem contactActed_evolves (d : Fin 4) (closed : Bool) (s : State) : Evolves s (s.contactActed d closed) := by
  rcases contactActed_cases d closed s with same | ⟨-, -, same⟩
  · rw [same]
    exact .refl
  · rw [same]
    exact retireList_evolves _ _ _

/-- A door through the retirements: its contact and supervision stand, and no handle is gained. -/
theorem contactActed_door (d : Fin 4) (closed : Bool) (s : State) (j : Fin 4) :
    (rd (s.contactActed d closed).dsv.doors j).contact = (rd s.dsv.doors j).contact
      ∧ (rd (s.contactActed d closed).dsv.doors j).supervision = (rd s.dsv.doors j).supervision
      ∧ ((rd s.dsv.doors j).selfHandle = none → (rd (s.contactActed d closed).dsv.doors j).selfHandle = none)
      ∧ (∀ h, (rd s.dsv.doors j).selfHandle = some h → (∀ e ∈ s.live, s.overridesDoor d e = true → e.handle ≠ h) →
        (rd (s.contactActed d closed).dsv.doors j).selfHandle = some h) := by
  rcases contactActed_cases d closed s with same | ⟨-, -, same⟩
  · rw [same]
    exact ⟨rfl, rfl, id, fun _ held _ => held⟩
  · rw [same]
    have aside : ∀ e ∈ s.live.filter (s.overridesDoor d), e.Aside := fun e there => overridesDoor_aside (List.mem_filter.mp there).2
    refine retireList_closed (P := fun u => (rd u.dsv.doors j).contact = (rd s.dsv.doors j).contact
      ∧ (rd u.dsv.doors j).supervision = (rd s.dsv.doors j).supervision
      ∧ ((rd s.dsv.doors j).selfHandle = none → (rd u.dsv.doors j).selfHandle = none)
      ∧ (∀ h, (rd s.dsv.doors j).selfHandle = some h → (∀ e ∈ s.live, s.overridesDoor d e = true → e.handle ≠ h) →
        (rd u.dsv.doors j).selfHandle = some h)) (fun e there u ⟨contact, supervision, unheld, held⟩ => ?_)
      ⟨rfl, rfl, id, fun _ held _ => held⟩
    rw [retireEntry_door (aside e there)]
    refine ⟨contact, supervision, fun none => ?_, fun h some' others => ?_⟩
    · rw [unheld none]
      rfl
    · rw [held h some' others]
      obtain ⟨live, named⟩ := List.mem_filter.mp there
      exact if_neg fun same => others e live named (Option.some.inj same).symm

/-- With the scopes of the table fitting, what the opening of a contact retires are OVERRIDEs, and nothing is opened. -/
theorem contactActed_loses (fits : s.ilt.Fits) (scopes : s.ilt.ScopesFit) (d : Fin 4) (closed : Bool) : Loses s (s.contactActed d closed) := by
  rcases contactActed_cases d closed s with same | ⟨-, -, same⟩
  · rw [same]
    exact loses_of_same rfl
  · rw [same]
    refine retireList_closed (P := Loses s) (fun e there u k => k.trans ?_) (loses_of_same rfl)
    obtain ⟨live, named⟩ := List.mem_filter.mp there
    refine retireEntry_loses (overridesDoor_aside named) (fun centre => ?_) _ u
    obtain ⟨n, g, scope, -⟩ := (overridesDoor_iff s d e).mp named
    obtain ⟨i, entry⟩ := (mem_live fits).mp live
    have fitting := scopes i e entry
    rw [centre, scope] at fitting
    exact absurd fitting (by simp [Kind.names])

/-- R63: each OVERRIDE on the opened door has gone. -/
theorem contactActed_gone (run : s.inRun = true) (fits : s.ilt.Fits) {o : Entry} (live : o ∈ s.live) (names : s.overridesDoor d o = true) :
    (s.contactActed d false).PastHandle o.handle ∧ (s.contactActed d false).flagged 1 := by
  obtain ⟨i, entry⟩ := (mem_live fits).mp live
  have named := fits.handle i o entry
  have same : s.contactActed d false = retireList .contactOpen (s.live.filter (s.overridesDoor d)) s := if_pos ⟨rfl, run⟩
  obtain ⟨faded, posted⟩ := retireList_gone (r := .contactOpen) (fun e there => overridesDoor_aside (List.mem_filter.mp there).2)
    (List.mem_filter.mpr ⟨live, names⟩) named (.inl ⟨rfl, by rw [entry]; simp⟩)
  rw [same, named]
  exact ⟨faded.past, posted⟩

end

end Sys2Proof.Machine
end

