-- ==== Sys2Proof/Proofs/ContactStatement.lean ====
section
/-! PROOF. The door contacts (R66 to R69) -/

namespace Sys2Proof.Machine

section
variable {s : State} {d : Fin 4} {x : InputLine}

theorem contactHanded_evolves (d : Fin 4) (x : InputLine) (s : State) :
    Evolves ((s.contactSettled d x).contactTaken d x.level) (s.contactHanded d x) := contactActed_evolves _ _ _

/-- The doors as DSV finds them when it derives the door. -/
theorem contactHanded_door (d : Fin 4) (x : InputLine) (s : State) :
    (rd (s.contactHanded d x).dsv.doors d).contact.debounced = x.level
      ∧ (rd (s.contactHanded d x).dsv.doors d).supervision = (rd s.dsv.doors d).supervision
      ∧ ((rd s.dsv.doors d).selfHandle = none → (rd (s.contactHanded d x).dsv.doors d).selfHandle = none)
      ∧ (∀ h, (rd s.dsv.doors d).selfHandle = some h →
        (∀ e ∈ s.live, ((s.contactSettled d x).contactTaken d x.level).overridesDoor d e = true → e.handle ≠ h) →
        (rd (s.contactHanded d x).dsv.doors d).selfHandle = some h) := by
  obtain ⟨contact, supervision, unheld, held⟩ := contactActed_door d x.level ((s.contactSettled d x).contactTaken d x.level) d
  obtain ⟨slots, order, -, dsv, -⟩ := contactTaken_beside d x.level (s.contactSettled d x)
  have live : ((s.contactSettled d x).contactTaken d x.level).live = s.live := by
    rw [State.live, slots, order]
    rfl
  rw [dsv, contactSettled_door, if_pos rfl] at contact supervision unheld held
  rw [live] at held
  exact ⟨congrArg InputLine.debounced contact, supervision, unheld, held⟩

theorem contactHanded_cfg (d : Fin 4) (x : InputLine) (s : State) : (s.contactHanded d x).cfg = s.cfg :=
  (contactHanded_evolves d x s).base.cfg.trans (contactTaken_beside d x.level (s.contactSettled d x)).2.2.2.2.1

theorem contactTaken_live (d : Fin 4) (x : InputLine) (s : State) : ((s.contactSettled d x).contactTaken d x.level).live = s.live := by
  obtain ⟨slots, order, -⟩ := contactTaken_beside d x.level (s.contactSettled d x)
  rw [State.live, slots, order]
  rfl

theorem contactTaken_resolve (d : Fin 4) (x : InputLine) (s : State) (n : Nat) :
    ((s.contactSettled d x).contactTaken d x.level).resolve n = s.resolve n := by
  obtain ⟨slots, -⟩ := contactTaken_beside d x.level (s.contactSettled d x)
  rw [State.resolve, slots]
  rfl

theorem contactTaken_fits (d : Fin 4) (x : InputLine) (fits : s.ilt.Fits) : ((s.contactSettled d x).contactTaken d x.level).ilt.Fits := by
  obtain ⟨slots, order, -⟩ := contactTaken_beside d x.level (s.contactSettled d x)
  refine ⟨?_, ?_, ?_, ?_, ?_, ?_⟩
  · rw [slots]
    exact fits.handle
  · rw [slots]
    exact fits.owner
  · rw [slots]
    exact fits.parameter
  · rw [slots]
    exact fits.alone
  · rw [order]
    exact fits.once
  · rw [order, slots]
    exact fits.lists

theorem contactTaken_scopesFit (d : Fin 4) (x : InputLine) (scopes : s.ilt.ScopesFit) :
    ((s.contactSettled d x).contactTaken d x.level).ilt.ScopesFit := by
  obtain ⟨slots, -⟩ := contactTaken_beside d x.level (s.contactSettled d x)
  unfold Ilt.ScopesFit
  rw [slots]
  exact scopes

/-- With the table fitting, the settled contact only takes entries from the table. -/
theorem contactHanded_loses (fits : s.ilt.Fits) (scopes : s.ilt.ScopesFit) (d : Fin 4) (x : InputLine) : Loses s (s.contactHanded d x) := by
  obtain ⟨slots, order, -⟩ := contactTaken_beside d x.level (s.contactSettled d x)
  have taken : Loses s ((s.contactSettled d x).contactTaken d x.level) :=
    ⟨by rw [order]; exact fun _ h => h, by rw [slots]; exact fun _ h => h, by rw [slots]; exact fun _ f h => ⟨f, h, rfl⟩⟩
  exact taken.trans (contactActed_loses (contactTaken_fits d x fits) (contactTaken_scopesFit d x scopes) d x.level)

/-- The handle that DSV holds for the door is no OVERRIDE's. -/
theorem contactHanded_held (fits : s.ilt.Fits) {h : Nat} {f : Entry} (held : (rd s.dsv.doors d).selfHandle = some h)
    (resolved : s.resolve h = some f) (scope : f.scope = .door d) : (rd (s.contactHanded d x).dsv.doors d).selfHandle = some h := by
  refine (contactHanded_door d x s).2.2.2 h held fun e live named same => ?_
  obtain ⟨n, g, target, -⟩ := (overridesDoor_iff _ d e).mp named
  have here := resolve_of_live fits live
  rw [same, resolved] at here
  obtain rfl : f = e := Option.some.inj here
  rw [scope] at target
  exact absurd target (by simp)

/-- A door that DSV holds a handle for is derived without an opening. -/
theorem supervise_held (held : (rd s.dsv.doors d).selfHandle ≠ none) : (Dsv.supervise d s).ilt = s.ilt
    ∧ (rd (Dsv.supervise d s).dsv.doors d).selfHandle = (rd s.dsv.doors d).selfHandle := by
  have door := withSupervision_door d (s.supervisionOf d) s
  have asked : Dsv.askEntry d (s.withSupervision d (s.supervisionOf d)) = s.withSupervision d (s.supervisionOf d) :=
    dsvAskEntry_held (by rw [door]; exact held)
  unfold Dsv.supervise
  split
  · dsimp only
    split
    · have same : Dsv.askEntry d (Dsv.changeDoor d (fun y => { y with supervision := s.supervisionOf d }) s)
          = s.withSupervision d (s.supervisionOf d) := asked
      rw [same, State.post_ilt, State.post_dsv, door]
      exact ⟨rfl, rfl⟩
    · refine ⟨rfl, ?_⟩
      have same : rd (Dsv.changeDoor d (fun y => { y with supervision := s.supervisionOf d }) s).dsv.doors d
          = { rd s.dsv.doors d with supervision := s.supervisionOf d } := door
      rw [same]
  · exact ⟨rfl, rfl⟩

/-- A door whose contact is shut is derived without an opening. -/
theorem supervise_shut (shut : (rd s.dsv.doors d).contact.debounced = true) : (Dsv.supervise d s).ilt = s.ilt := by
  have claimed : s.supervisionOf d ≠ .unclaimed := by
    unfold State.supervisionOf
    split
    · simp
    · rw [if_neg (by simp [shut])]
      split <;> simp
  rw [supervise_derives claimed]
  split <;> rfl

end

/-- Settles O48. -/
theorem doorContactsDebounce : Obligations.DoorContactsDebounce := by
  unfold Obligations.DoorContactsDebounce
  intro d s x record
  subst record
  refine ⟨fun level => ⟨fun same => ?_, fun differs => ?_⟩, doorContact_rests d s, fun unsettled above => ?_, fun unsettled fitted => ?_⟩
  · have still : Dsv.changeDoor d (fun y => { y with contact := y.contact.setLevel s.now level }) s = Dsv.changeDoor d id s :=
      changeDoor_congr (by rw [InputLine.setLevel, if_pos same]; rfl)
    show Host.Outcome.next (Dsv.changeDoor d (fun y => { y with contact := y.contact.setLevel s.now level }) s) = _
    rw [still, changeDoor_id]
  · show Host.Outcome.next (Dsv.changeDoor d (fun y => { y with contact := y.contact.setLevel s.now level }) s) = _
    exact congrArg Host.Outcome.next (changeDoor_congr (by rw [InputLine.setLevel, if_neg differs]))
  · have beyond : ¬ s.fitted d = true := fun is => absurd (of_decide_eq_true is) (by omega)
    rw [doorContact_settles d s unsettled, if_neg beyond]
    rfl
  let x := (rd s.dsv.doors d).contact
  let c := (s.contactSettled d x).contactTaken d x.level
  let v := s.contactHanded d x
  let w := Dsv.supervise d v
  let t := State.finish w
  have isFitted : s.fitted d = true := decide_eq_true fitted
  have evolves : Evolves c t := ((contactHanded_evolves d x s).trans (ev_supervise d .refl)).trans (ev_finish .refl)
  have base : SameBase c t := evolves.base
  obtain ⟨slots, order, registry, dsv, cfg, mot, lnk, now⟩ := contactTaken_beside d x.level (s.contactSettled d x)
  have door (j : Fin 4) : rd c.dsv.doors j = if d = j then { rd s.dsv.doors j with contact := { x with debounced := x.level } }
      else rd s.dsv.doors j := by rw [dsv, contactSettled_door]
  obtain ⟨level, supervision, unheld, held⟩ := contactHanded_door d x s
  have cfgV : v.cfg = s.cfg := contactHanded_cfg d x s
  have fittedV : v.fitted d = true := by
    rw [State.fitted, cfgV]
    exact isFitted
  have executes : exec (.doorContactDebounceExpiry d) s = .next t := by rw [doorContact_settles d s unsettled, if_pos isFitted]
  refine ⟨t, executes, base.now.trans now, ?_, fun i other => ?_, fun i => ?_, base.cfg.trans cfg, base.mot.trans mot,
    base.registry.trans registry, base.queue.trans (congrArg Lnk.queue lnk), base.answer.trans (congrArg Lnk.answer lnk), fun out => ?_,
    fun run opened fits o n g live scope resolved named => ?_, fun run => ?_⟩
  · rw [base.contact, door, if_pos rfl]
  · rw [base.contact, door, if_neg (Ne.symm other)]
  · rw [base.contacts, contactTaken_contacts]
    rfl
  · have outC : c.inRun = false := by
      rw [State.inRun, cfg]
      exact decide_eq_false out
    have stays : v = c := if_neg (by simp [c, outC])
    have derived : w = c := by
      show Dsv.supervise d v = c
      rw [stays]
      exact if_neg (by simp [outC])
    have ended : t = Dsv.judge c := by
      show State.finish w = _
      rw [derived, finish_outside_run outC]
    refine ⟨?_, ?_⟩
    · show (rd (State.finish w).dsv.doors d).supervision = _
      rw [(finish_door w d).1, derived, door, if_pos rfl]
    · rw [ended, dsvJudge_ilt]
      exact slots
  · have runC : c.inRun = true := by
      rw [State.inRun, cfg]
      exact inRun_iff.mpr run
    have liveC : o ∈ c.live := by rwa [contactTaken_live]
    have overrides : c.overridesDoor d o = true := by
      refine (overridesDoor_iff c d o).mpr ⟨n, g, scope, ?_, named⟩
      rwa [contactTaken_resolve]
    obtain ⟨past, posted⟩ := contactActed_gone runC (contactTaken_fits d x fits) liveC overrides
    have same : v = c.contactActed d false := congrArg (fun b => c.contactActed d b) opened
    rw [← same] at past posted
    have gains : Gains v t := (oc_supervise (gains_openClosed v) d (Gains.refl v)).trans (gains_of_reviewed (finish_reviewed w))
    exact ⟨PastHandle.resolve_none (pastHandle_gains past gains), (ev_finish (ev_supervise d .refl)).flagged posted⟩
  · have runV : v.inRun = true := by
      rw [State.inRun, cfgV]
      exact inRun_iff.mpr run
    have derived : (rd t.dsv.doors d).supervision = v.supervisionOf d := (finish_door w d).1.trans (supervise_supervision runV fittedV)
    have claims : (∃ e ∈ t.live, e.owner ≠ 15 ∧ (e.kind = .doorOpen ∨ e.kind = .rampOut) ∧ e.scope = .door d) ↔ v.partnerClaims d = true := by
      rw [← supervise_partnerClaims d v, partnerClaims_iff]
      exact finish_live_record (s := w) (P := fun owner kind scope => owner ≠ 15 ∧ (kind = .doorOpen ∨ kind = .rampOut) ∧ scope = .door d)
    refine ⟨fun claimed => derived.trans (supervisionOf_claimed (claims.mp claimed)), fun unclaimed => ?_⟩
    have clear : v.partnerClaims d = false := Bool.eq_false_iff.mpr (mt claims.mpr unclaimed)
    refine ⟨fun opened => ?_, fun shut => ?_⟩
    · have now' : v.supervisionOf d = .unclaimed := supervisionOf_unclaimed clear (level.trans opened)
      refine ⟨derived.trans now', fun fresh => ?_⟩
      obtain ⟨-, posted, opens⟩ := supervise_unclaimed runV fittedV now' (by rw [supervision]; exact fresh)
      refine ⟨posted, fun fits scopes none room alone => opens ⟨unheld none, ?_, fun f there owner kind scope => ?_⟩,
        fun h f fits scopes some' resolved owner kind scope => ?_⟩
      · obtain ⟨i, high, empty⟩ := room
        exact ⟨i, high, (contactHanded_loses fits scopes d x).empty i empty⟩
      · obtain ⟨e, before, same⟩ := (contactHanded_loses fits scopes d x).live there
        simp only [Entry.record, Prod.mk.injEq] at same
        obtain ⟨-, sameKind, sameOwner, -, sameScope, -⟩ := same
        exact alone e before (sameOwner.trans owner) (sameKind.trans kind) (sameScope.trans scope)
      · have stillHeld : (rd v.dsv.doors d).selfHandle = some h := contactHanded_held fits some' resolved scope
        obtain ⟨ilt, handle⟩ := supervise_held (s := v) (d := d) (by rw [stillHeld]; simp)
        refine ⟨(finish_door w d).2.trans (handle.trans stillHeld), fun i empty => ?_⟩
        have lost := (contactHanded_loses fits scopes d x).trans ((loses_of_same ilt).trans (finish_reviewed w).loses)
        exact lost.empty i empty
    · have claims' : (∃ e ∈ t.live, e.owner = 15 ∧ e.kind = .doorOpen ∧ e.scope = .door d) ↔ v.selfClaims d = true := by
        rw [selfClaims_iff, ← State.live_congr (supervise_shut (level.trans shut))]
        exact finish_live_record (s := w) (P := fun owner kind scope => owner = 15 ∧ kind = .doorOpen ∧ scope = .door d)
      have closed : (rd v.dsv.doors d).contact.debounced = true := level.trans shut
      rw [derived, State.supervisionOf, if_neg (by simp [clear]), if_neg (by simp [closed])]
      by_cases self : v.selfClaims d = true
      · rw [if_pos self, if_pos (claims'.mpr self)]
      · rw [if_neg self, if_neg (mt claims'.mp self)]

end Sys2Proof.Machine
end

