-- ==== Sys2Proof/Proofs/FallbackLine.lean ====
section
/-! PROOF. The console fallback line: its edges, its run-outs and its toggles (R78 to R80) -/

namespace Sys2Proof.Machine

/-! ## Edges -/

section
variable {s : State}

theorem Fbl.overdue_of_short {now : Nat} {f : Fbl} (running : f.state ≠ .idle)
    (start : f.state = .start → f.phase now ≤ 400) (gap : f.state = .gap ∨ f.state = .pulse → f.phase now ≤ 150)
    (space : f.state = .space → f.phase now < 600) (recover : f.state = .recover → f.level = true → f.phase now < 600) :
    f.overdue now = false := by
  unfold Fbl.overdue
  cases state : f.state with
  | idle => exact absurd state running
  | start => simpa using start state
  | gap => simpa using gap (.inl state)
  | pulse => simpa using gap (.inr state)
  | space => simpa using space state
  | recover => cases level : f.level <;> simp; exact recover state level

theorem lineEdge_same {level : Bool} (same : s.dsv.fbl.level = level) : lineEdge level s = s := if_pos same

theorem lineEdge_falls (high : s.dsv.fbl.level = true) (short : s.dsv.fbl.overdue s.now = false) : lineEdge false s = lineFalls s := by
  simp [lineEdge, high, short]

theorem lineEdge_rises (low : s.dsv.fbl.level = false) (short : s.dsv.fbl.overdue s.now = false) : lineEdge true s = lineRises s := by
  simp [lineEdge, low, short]

/-- The decoder's record after an edge. -/
def State.edged (level : Bool) (st : FblState) (n : Nat) (s : State) : State :=
  s.modDsv fun x => { x with fbl := { level := level, state := st, since := s.now, count := n } }

theorem lineFalls_cases (high : s.dsv.fbl.level = true) :
    lineFalls s = match s.dsv.fbl.state with
      | .idle => s.edged false .start 0
      | .gap => if s.dsv.fbl.phase s.now < 80 then (s.edged false .recover s.dsv.fbl.count).post (.fallbackMalformed .gap s.dsv.fbl.count)
        else s.edged false .pulse s.dsv.fbl.count
      | .space => if 80 ≤ s.dsv.fbl.phase s.now ∧ s.dsv.fbl.phase s.now ≤ 150 then s.edged false .pulse s.dsv.fbl.count
        else (s.edged false .recover s.dsv.fbl.count).post (.fallbackMalformed .space s.dsv.fbl.count)
      | .recover => s.edged false .recover s.dsv.fbl.count
      | _ => Dsv.changeFbl (fun f => { f with level := false }) s := by
  unfold lineFalls
  cases state : s.dsv.fbl.state <;> rfl

theorem lineRises_cases : lineRises s = match s.dsv.fbl.state with
      | .start => if s.dsv.fbl.phase s.now ≤ 50 then s.edged true .idle s.dsv.fbl.count
        else if s.dsv.fbl.phase s.now < 200 then
          (s.edged true .recover s.dsv.fbl.count).post (.fallbackMalformed .start s.dsv.fbl.count)
        else s.edged true .gap 0
      | .pulse => if s.dsv.fbl.phase s.now < 80 then
          (s.edged true .recover s.dsv.fbl.count).post (.fallbackMalformed .pulse s.dsv.fbl.count)
        else s.edged true .space (min 15 (s.dsv.fbl.count + 1))
      | .recover => s.edged true .recover s.dsv.fbl.count
      | _ => Dsv.changeFbl (fun f => { f with level := true }) s := by
  unfold lineRises
  cases state : s.dsv.fbl.state <;> rfl

theorem exec_fblEdge (level : Bool) (s : State) : exec (.fblEdge level) s = .next (lineEdge level s) := rfl

theorem fallingEdges (high : s.dsv.fbl.level = true) :
    let f := s.dsv.fbl
    let long := (s.now - f.since) / 100
    let falls := exec (.fblEdge false) s
    (f.state = .idle → falls = .next (s.edged false .start 0))
      ∧ (f.state = .gap → 80 ≤ long → long ≤ 150 → falls = .next (s.edged false .pulse f.count))
      ∧ (f.state = .gap → long < 80 →
        falls = .next ((s.edged false .recover f.count).post (.fallbackMalformed .gap f.count)))
      ∧ (f.state = .space → 80 ≤ long → long ≤ 150 → falls = .next (s.edged false .pulse f.count))
      ∧ (f.state = .space → long < 80 ∨ (150 < long ∧ long < 600) →
        falls = .next ((s.edged false .recover f.count).post (.fallbackMalformed .space f.count)))
      ∧ (f.state = .recover → long < 600 → falls = .next (s.edged false .recover f.count)) := by
  dsimp only
  have taken (short : s.dsv.fbl.overdue s.now = false) : exec (.fblEdge false) s = .next (lineFalls s) := by
    rw [exec_fblEdge, lineEdge_falls high short]
  have phase : s.dsv.fbl.phase s.now = (s.now - s.dsv.fbl.since) / 100 := rfl
  refine ⟨fun state => ?_, fun state least most => ?_, fun state short => ?_, fun state least most => ?_, fun state off => ?_,
    fun state short => ?_⟩
  · rw [taken (by simp [Fbl.overdue, state]), lineFalls_cases high, state]
  · rw [taken (by simp [Fbl.overdue, state, phase, most]), lineFalls_cases high, state]
    exact congrArg _ (if_neg (by omega))
  · rw [taken (by simp [Fbl.overdue, state, phase]; omega), lineFalls_cases high, state]
    exact congrArg _ (if_pos short)
  · rw [taken (by simp [Fbl.overdue, state, phase]; omega), lineFalls_cases high, state]
    exact congrArg _ (if_pos ⟨least, most⟩)
  · rw [taken (by simp [Fbl.overdue, state, phase]; omega), lineFalls_cases high, state]
    exact congrArg _ (if_neg (by omega))
  · rw [taken (by simp [Fbl.overdue, state, phase]; omega), lineFalls_cases high, state]

theorem risingEdges (low : s.dsv.fbl.level = false) :
    let f := s.dsv.fbl
    let long := (s.now - f.since) / 100
    let rises := exec (.fblEdge true) s
    (f.state = .start → long ≤ 50 → rises = .next (s.edged true .idle f.count))
      ∧ (f.state = .start → 50 < long → long < 200 →
        rises = .next ((s.edged true .recover f.count).post (.fallbackMalformed .start f.count)))
      ∧ (f.state = .start → 200 ≤ long → long ≤ 400 → rises = .next (s.edged true .gap 0))
      ∧ (f.state = .pulse → 80 ≤ long → long ≤ 150 → rises = .next (s.edged true .space (min 15 (f.count + 1))))
      ∧ (f.state = .pulse → long < 80 →
        rises = .next ((s.edged true .recover f.count).post (.fallbackMalformed .pulse f.count)))
      ∧ (f.state = .recover → rises = .next (s.edged true .recover f.count)) := by
  dsimp only
  have taken (short : s.dsv.fbl.overdue s.now = false) : exec (.fblEdge true) s = .next (lineRises s) := by
    rw [exec_fblEdge, lineEdge_rises low short]
  have phase : s.dsv.fbl.phase s.now = (s.now - s.dsv.fbl.since) / 100 := rfl
  refine ⟨fun state most => ?_, fun state least most => ?_, fun state least most => ?_, fun state least most => ?_,
    fun state short => ?_, fun state => ?_⟩
  · rw [taken (by simp [Fbl.overdue, state, phase]; omega), lineRises_cases, state]
    exact congrArg _ (if_pos most)
  · rw [taken (by simp [Fbl.overdue, state, phase]; omega), lineRises_cases, state]
    exact congrArg _ ((if_neg (by omega)).trans (if_pos most))
  · rw [taken (by simp [Fbl.overdue, state, phase]; omega), lineRises_cases, state]
    exact congrArg _ ((if_neg (by omega)).trans (if_neg (by omega)))
  · rw [taken (by simp [Fbl.overdue, state, phase]; omega), lineRises_cases, state]
    exact congrArg _ (if_neg (by omega))
  · rw [taken (by simp [Fbl.overdue, state, phase]; omega), lineRises_cases, state]
    exact congrArg _ (if_pos short)
  · rw [taken (by simp [Fbl.overdue, state, low]), lineRises_cases, state]

/-! ## Run-outs -/

/-- The decoder after the bound of its phase. -/
def State.phaseEnded (bound : Nat) (st : FblState) (s : State) : State :=
  State.modDsv { s with now := max s.now (s.dsv.fbl.since + bound) } fun x =>
    { x with fbl := { s.dsv.fbl with state := st, since := max s.now (s.dsv.fbl.since + bound) } }

theorem phaseEnded_live (bound : Nat) (st : FblState) (s : State) : (s.phaseEnded bound st).live = s.live := State.live_congr rfl

theorem phaseTimeout_cases (s : State) : phaseTimeout s = match s.dsv.fbl.state with
    | .idle => s
    | .start => (s.phaseEnded 40000 .recover).post (.fallbackMalformed .start s.dsv.fbl.count)
    | .gap => (s.phaseEnded 15000 .recover).post (.fallbackMalformed .gap s.dsv.fbl.count)
    | .pulse => (s.phaseEnded 15000 .recover).post (.fallbackMalformed .pulse s.dsv.fbl.count)
    | .space => if 5 ≤ s.dsv.fbl.count then (s.phaseEnded 60000 .idle).post (.fallbackMalformed .count s.dsv.fbl.count)
      else carryOut s.dsv.fbl.count (s.phaseEnded 60000 .idle)
    | .recover => if s.dsv.fbl.level then s.phaseEnded 60000 .idle else s := by
  unfold phaseTimeout Fbl.bound
  cases state : s.dsv.fbl.state with
  | idle => rfl
  | recover => cases s.dsv.fbl.level <;> simp [runOut, State.advanceTo, state] <;> rfl
  | start => simp only [runOut, State.advanceTo, state]; rfl
  | gap => simp only [runOut, State.advanceTo, state]; rfl
  | pulse => simp only [runOut, State.advanceTo, state]; rfl
  | space => simp only [runOut, State.advanceTo, state]; rfl

theorem takeFromLine_submit {i : Instr} {n : Nat} {c : Content} (request : i.request? = some (.line n, c)) (u : State) :
    exec i u = .next (takeFromLine n c u) := exec_request request u

/-- R80: a toggle is the retirement of the line's own entry of the kind, or its opening. -/
theorem toggle_cases {command : Nat} {k : Kind} {scope : Scope} {u : State} :
    (u.lineEntry k = none → exec (.openEntry (.line command) 0 (BitVec.ofNat 8 k.code) (BitVec.ofNat 8 scope.code) 65535 0) u
      = .next (toggle command k scope u))
    ∧ ∀ e, u.lineEntry k = some e → exec (.retire (.line command) 0 (BitVec.ofNat 8 e.handle)) u = .next (toggle command k scope u) := by
  refine ⟨fun nowhere => ?_, fun e there => ?_⟩
  · rw [takeFromLine_submit rfl, toggle, nowhere]
  · rw [takeFromLine_submit rfl, toggle, there]

theorem lineToggles (n : Nat) (k : Kind) (kind scope : Byte)
    (named : (n = 1 ∧ k = .kneel ∧ kind = 2 ∧ scope = 8) ∨ (n = 2 ∧ k = .stopHold ∧ kind = 3 ∧ scope = 10)
      ∨ (n = 4 ∧ k = .steerCentre ∧ kind = 5 ∧ scope = 10)) (u : State) :
    (u.lineEntry k = none → exec (.openEntry (.line n) 0 kind scope 65535 0) u = .next (carryOut n u))
    ∧ ∀ e, u.lineEntry k = some e → exec (.retire (.line n) 0 (BitVec.ofNat 8 e.handle)) u = .next (carryOut n u) := by
  rcases named with ⟨rfl, rfl, rfl, rfl⟩ | ⟨rfl, rfl, rfl, rfl⟩ | ⟨rfl, rfl, rfl, rfl⟩
  · exact toggle_cases (scope := .curb)
  · exact toggle_cases (scope := .vehicle)
  · exact toggle_cases (scope := .vehicle)

theorem exec_fblPhaseTimeout (s : State) : exec .fblPhaseTimeout s = .next (phaseTimeout s) := rfl

theorem phaseRunOuts (s : State) : let f := s.dsv.fbl
    let runs := exec .fblPhaseTimeout s
    let u := s.phaseEnded 60000 .idle
    (f.state = .idle → runs = .next s) ∧ (f.state = .recover → f.level = false → runs = .next s)
    ∧ (f.state = .start → runs = .next ((s.phaseEnded 40000 .recover).post (.fallbackMalformed .start f.count)))
    ∧ (f.state = .gap → runs = .next ((s.phaseEnded 15000 .recover).post (.fallbackMalformed .gap f.count)))
    ∧ (f.state = .pulse → runs = .next ((s.phaseEnded 15000 .recover).post (.fallbackMalformed .pulse f.count)))
    ∧ (f.state = .recover → f.level = true → runs = .next u)
    ∧ (f.state = .space → 5 ≤ f.count → runs = .next (u.post (.fallbackMalformed .count f.count)))
    ∧ (f.state = .space → ∀ (k : Kind) (kind scope : Byte),
      (f.count = 1 ∧ k = .kneel ∧ kind = 2 ∧ scope = 8) ∨ (f.count = 2 ∧ k = .stopHold ∧ kind = 3 ∧ scope = 10)
        ∨ (f.count = 4 ∧ k = .steerCentre ∧ kind = 5 ∧ scope = 10) →
      (s.lineEntry k = none → runs = exec (.openEntry (.line f.count) 0 kind scope 65535 0) u)
      ∧ ∀ e, s.lineEntry k = some e → runs = exec (.retire (.line f.count) 0 (BitVec.ofNat 8 e.handle)) u)
    ∧ (f.state = .space → f.count = 3 → runs = .next ((List.finRange 4).foldl (fun s d => acknowledgeDoor d s) u)) := by
  dsimp only
  rw [exec_fblPhaseTimeout, phaseTimeout_cases]
  refine ⟨fun state => ?_, fun state low => ?_, fun state => ?_, fun state => ?_, fun state => ?_, fun state high => ?_,
    fun state many => ?_, fun state k kind scope named => ?_, fun state three => ?_⟩
  · rw [state]
  · rw [state]
    exact congrArg _ (if_neg (by simp [low]))
  · rw [state]
  · rw [state]
  · rw [state]
  · rw [state]
    exact congrArg _ (if_pos high)
  · rw [state]
    exact congrArg _ (if_pos many)
  · have few : ¬ 5 ≤ s.dsv.fbl.count := by
      rcases named with ⟨n, -⟩ | ⟨n, -⟩ | ⟨n, -⟩ <;> omega
    have same : (s.phaseEnded 60000 .idle).lineEntry k = s.lineEntry k := by
      rw [State.lineEntry, phaseEnded_live, State.lineEntry]
    obtain ⟨opens, retires⟩ := lineToggles s.dsv.fbl.count k kind scope named (s.phaseEnded 60000 .idle)
    rw [same] at opens retires
    rw [state]
    dsimp only
    rw [if_neg few]
    exact ⟨fun nowhere => (opens nowhere).symm, fun e there => (retires e there).symm⟩
  · rw [state]
    dsimp only
    rw [if_neg (by omega), three]
    rfl

end
end Sys2Proof.Machine
end

