-- ==== Sys2Proof/Proofs/ShutDoors.lean ====
section
/-! PROOF. The part's own entry retires at a shut door -/

namespace Sys2Proof.Machine

/-! ## The retirement of the part's own entry at a shut door -/

/-- The handle is a live entry of the part's own, which no OVERRIDE covers, at this door. -/
def State.OwnDoor (d : Fin 4) (h : Nat) (s : State) : Prop :=
  ∃ e, s.resolve h = some e ∧ e.owner = 15 ∧ e.kind = .doorOpen ∧ e.scope = .door d ∧ e.coveredBy = none

theorem dropEntry_beside (h : Nat) (s : State) : (s.dropEntry h).ilt.contacts = s.ilt.contacts
    ∧ (s.dropEntry h).ilt.registry = s.ilt.registry := by
  unfold State.dropEntry
  split
  · split <;> exact ⟨rfl, rfl⟩
  · exact ⟨rfl, rfl⟩

theorem Reviewed.beside {s t : State} (h : Reviewed s t) : t.ilt.contacts = s.ilt.contacts ∧ t.ilt.registry = s.ilt.registry := by
  obtain ⟨g, -, same⟩ := h
  constructor <;> rw [same, Ilt.review]

theorem finish_contact (s : State) (d : Fin 4) : (rd (State.finish s).dsv.doors d).contact = (rd s.dsv.doors d).contact := by
  rw [State.finish, (dsvJudge_frame _).2.2 d, reevaluate_dsv]

theorem dropEntry_resolve_gone {s : State} (fits : s.ilt.Fits) {h k : Nat} (gone : s.resolve h = none) : (s.dropEntry k).resolve h = none := by
  refine Option.eq_none_iff_forall_ne_some.mpr fun f resolved => ?_
  have fits' : (s.dropEntry k).ilt.Fits := (ev_drop k (.refl (s := s))).fits fits
  have there := resolve_of_live fits (dropEntry_live_sub (live_of_resolve fits' resolved))
  rw [handle_of_resolve fits' resolved, gone] at there
  exact absurd there (by simp)

section
variable {s : State} {e : Entry} {d : Fin 4}

/-- What the retirement of an entry of the part's own at a shut door leaves. -/
structure Acknowledged (d : Fin 4) (h : Nat) (s t : State) : Prop where
  table : Reviewed (s.dropEntry h) t
  lnk : t.lnk = s.lnk
  base : SameBase s t
  fits : t.ilt.Fits
  contact : ∀ j, (rd t.dsv.doors j).contact = (rd s.dsv.doors j).contact
  other : ∀ j, j ≠ d → (rd t.dsv.doors j).supervision = (rd s.dsv.doors j).supervision
    ∧ (rd t.dsv.doors j).selfHandle = keptHandle h (rd s.dsv.doors j).selfHandle
  forgotten : (rd t.dsv.doors d).selfHandle = keptHandle h (rd s.dsv.doors d).selfHandle
  supervision : (rd t.dsv.doors d).supervision = .shut ∨ (rd t.dsv.doors d).supervision = .authorised

theorem retired_shut_door (run : s.cfg.device = .run) (fits : s.ilt.Fits) (resolved : s.resolve e.handle = some e)
    (self : e.owner = 15) (kind : e.kind = .doorOpen) (scope : e.scope = .door d) (uncovered : e.coveredBy = none)
    (fitted : d.val < s.cfg.settings.doorCount) (shut : (rd s.dsv.doors d).contact.debounced = true) :
    Acknowledged d e.handle s (s.retired e) := by
  let w := s.retireHanded e
  have retiring : s.retiring e = s.dropEntry e.handle := by
    rw [State.retiring, retireUncovers_plain (by simp [scope]), retireDrops_uncovered uncovered]
  have ended : s.retired e = State.finish (Dsv.supervise d w) := by
    rw [State.retired, handOffRetired, if_neg (by simp [kind]), Dsv.superviseFor, scope]
    exact congrArg State.finish (if_pos (isDoor_iff.mpr (.inl kind)))
  have ilt : w.ilt = (s.dropEntry e.handle).ilt := retireHanded_ilt.trans (by rw [retiring])
  have base : SameBase s w := retireHanded_evolves.base
  have blocks : Blocks (s.dropEntry e.handle) (handOff .retired e (s.dropEntry e.handle)) := handOff_blocks _ _ _
  have handed : w = forgetHandle e.handle (handOff .retired e (s.dropEntry e.handle)) := by rw [← retiring]; rfl
  have lnk : w.lnk = s.lnk := by
    rw [handed, (forgetHandle_beside _ _).2.1, blocks.lnk, State.dropEntry_lnk]
  have door (j : Fin 4) : rd w.dsv.doors j =
      { rd s.dsv.doors j with selfHandle := keptHandle e.handle (rd s.dsv.doors j).selfHandle } := by
    rw [handed, (forgetHandle_handles _ _).2.2 j, blocks.dsv, State.dropEntry_dsv]
  have unclaimed : w.selfClaims d = false := by
    refine Bool.eq_false_iff.mpr fun claims => ?_
    obtain ⟨f, live, self', kind', scope'⟩ := selfClaims_iff.mp claims
    rw [State.live_congr ilt] at live
    obtain ⟨live, apart⟩ := dropEntry_live_other fits resolved live
    obtain ⟨i, -, there⟩ := mem_live_iff.mp live
    obtain ⟨j, -, -, there'⟩ := slot_of_resolve resolved
    obtain rfl := fits.alone i j f e there there' (kind'.trans kind.symm) (self'.trans self.symm) (scope'.trans scope.symm)
    rw [there] at there'
    exact apart (congrArg Entry.handle (Option.some.inj there'))
  have shutW : (rd w.dsv.doors d).contact.debounced = true := by rw [door]; exact shut
  have derived : w.supervisionOf d = .shut ∨ w.supervisionOf d = .authorised := by
    unfold State.supervisionOf
    rw [unclaimed, shutW]
    split <;> simp
  have claimed : w.supervisionOf d ≠ .unclaimed := by rcases derived with is | is <;> simp [is]
  have runs : w.inRun = true ∧ w.fitted d = true := by
    rw [State.inRun, State.fitted, base.cfg]
    exact ⟨inRun_iff.mpr run, decide_eq_true fitted⟩
  have supervised : Dsv.supervise d w = w.withSupervision d (w.supervisionOf d) := by
    rw [supervise_derives claimed, if_pos runs]
    rfl
  have doorEnd (j : Fin 4) : rd (w.withSupervision d (w.supervisionOf d)).dsv.doors j =
      if d = j then { rd w.dsv.doors j with supervision := w.supervisionOf d } else rd w.dsv.doors j := changeDoor_door _ _ _ j
  rw [ended, supervised]
  refine ⟨?_, ?_, ?_, ?_, fun j => ?_, fun j apart => ?_, ?_, ?_⟩
  · exact (reviewed_of_same (s := s.dropEntry e.handle) (t := w.withSupervision d (w.supervisionOf d)) ilt).trans (finish_reviewed _)
  · rw [finish_lnk]
    exact lnk
  · rw [← supervised, ← ended, ← retired_eq]
    exact (ev_finish (ev_retireEntry none e .refl)).base
  · rw [← supervised, ← ended, ← retired_eq]
    exact (ev_finish (ev_retireEntry none e .refl)).fits fits
  · rw [finish_contact, doorEnd, door]
    split <;> rfl
  · obtain ⟨supervision, selfHandle⟩ := finish_door (w.withSupervision d (w.supervisionOf d)) j
    rw [supervision, selfHandle, doorEnd, if_neg fun same => apart same.symm, door]
    exact ⟨rfl, rfl⟩
  · rw [(finish_door _ d).2, doorEnd, if_pos rfl, door]
  · rw [(finish_door _ d).1, doorEnd, if_pos rfl]
    exact derived

end
end Sys2Proof.Machine
end

