-- ==== Sys2Proof/Proofs/FallbackStatement.lean ====
section
/-! PROOF. The acknowledgement and the console fallback line (R78 to R83) -/

namespace Sys2Proof.Machine

/-! ## The acknowledgement (R81) -/

/-- The door is fitted and shut, and the part holds its entry there. -/
def State.AcknowledgesAt (d : Fin 4) (h : Nat) (s : State) : Prop :=
  d.val < s.cfg.settings.doorCount ∧ (rd s.dsv.doors d).contact.debounced = true ∧ (rd s.dsv.doors d).selfHandle = some h

/-- The fallback line may retire the entries that the part holds at the doors. -/
structure State.LineRetires (s : State) : Prop where
  run : s.cfg.device = .run
  fits : s.ilt.Fits
  enabled : (rd s.ilt.registry 14).enabled = true
  rank : (rd s.ilt.registry 14).authority = 1
  contacts : ∀ d : Fin 4, d.val < s.cfg.settings.doorCount → rd s.ilt.contacts d = (rd s.dsv.doors d).contact.debounced
  held : ∀ d h, (rd s.dsv.doors d).selfHandle = some h → s.OwnDoor d h

theorem keptHandle_of_ne {n h : Nat} (apart : h ≠ n) : keptHandle n (some h) = some h := if_neg (by simpa using apart)

theorem keptHandle_same (n : Nat) : keptHandle n (some n) = none := if_pos rfl

theorem keptHandle_none (n : Nat) : keptHandle n none = none := by
  unfold keptHandle
  split <;> rfl

section
variable {s : State} {d : Fin 4} {h : Nat}

theorem acknowledgeDoor_idle (idle : ∀ h, ¬ s.AcknowledgesAt d h) : acknowledgeDoor d s = s := by
  unfold acknowledgeDoor
  split
  · next h held => exact if_neg fun both => idle h ⟨of_decide_eq_true both.1, both.2, held⟩
  · rfl

theorem acknowledgeDoor_takes (at' : s.AcknowledgesAt d h) :
    acknowledgeDoor d s = takeFromLine 3 (requestBytes 4 0 0 0 0 (BitVec.ofNat 8 h)) s := by
  obtain ⟨fitted, shut, held⟩ := at'
  rw [acknowledgeDoor, held]
  exact if_pos ⟨decide_eq_true fitted, shut⟩

theorem exec_retire_acknowledges (at' : s.AcknowledgesAt d h) :
    exec (.retire (.line 3) 0 (BitVec.ofNat 8 h)) s = .next (acknowledgeDoor d s) := by
  rw [takeFromLine_submit rfl, acknowledgeDoor_takes at']

theorem acknowledgeDoor_retires (may : s.LineRetires) (at' : s.AcknowledgesAt d h) : Acknowledged d h s (acknowledgeDoor d s) := by
  have acts := exec_retire_acknowledges at'
  obtain ⟨fitted, shut, held⟩ := at'
  obtain ⟨e, resolved, self, kind, scope, uncovered⟩ := may.held d h held
  have named := handle_of_resolve may.fits resolved
  have small : h < 256 := by
    obtain ⟨i, place, -⟩ := slot_of_resolve resolved
    omega
  have byte : (BitVec.ofNat 8 h).toNat = h := by simp [Nat.mod_eq_of_lt small]
  have right : s.retireRight (Sender.line 3).partner e = none := by
    have rank : (s.record (Sender.line 3).partner).authority = 1 := may.rank
    rw [retireRight_self self, rank, selfRight_doorOpen kind, if_neg (by omega),
      if_pos (contactClosed_of ⟨d, scope, by rw [may.contacts d fitted]; exact shut⟩)]
  have hears : s.hears (.line 3) := ⟨rfl, trivial⟩
  rw [exec_retire_heard hears, byte, requestRetire_taken (x := .line 3) may.enabled may.run resolved right] at acts
  have same : acknowledgeDoor d s = s.retired e := (Host.Outcome.next.inj acts).symm
  rw [same, ← named]
  exact retired_shut_door may.run may.fits (by rw [named]; exact resolved) self kind scope uncovered fitted shut

theorem State.OwnDoor.apart {j : Fin 4} {k : Nat} (own : s.OwnDoor j k) (own' : s.OwnDoor d h) (other : j ≠ d) : k ≠ h := by
  rintro rfl
  obtain ⟨e, resolved, -, -, scope, -⟩ := own
  obtain ⟨f, resolved', -, -, scope', -⟩ := own'
  obtain rfl := Option.some.inj (resolved.symm.trans resolved')
  exact other (Scope.door.inj (scope.symm.trans scope'))

theorem Entry.Reviewed.ownDoor {e f : Entry} (h : e.Reviewed f) : f.owner = e.owner ∧ f.kind = e.kind ∧ f.scope = e.scope := by
  have record := h.record
  simp only [Entry.record, Prod.mk.injEq] at record
  obtain ⟨-, kind, owner, -, scope, -, -⟩ := record
  exact ⟨owner, kind, scope⟩

theorem Acknowledged.handle_other {t : State} (done : Acknowledged d h s t) (may : s.LineRetires) (held : s.OwnDoor d h) {j : Fin 4}
    (other : j ≠ d) : (rd t.dsv.doors j).selfHandle = (rd s.dsv.doors j).selfHandle := by
  rw [(done.other j other).2]
  cases there : (rd s.dsv.doors j).selfHandle with
  | none => exact keptHandle_none h
  | some k => exact keptHandle_of_ne ((may.held j k there).apart held other)

theorem Acknowledged.handle_gone {t : State} (done : Acknowledged d h s t) (held : (rd s.dsv.doors d).selfHandle = some h) :
    (rd t.dsv.doors d).selfHandle = none := by
  rw [done.forgotten, held, keptHandle_same]

theorem Acknowledged.lineRetires {t : State} (done : Acknowledged d h s t) (may : s.LineRetires)
    (held : (rd s.dsv.doors d).selfHandle = some h) : t.LineRetires := by
  obtain ⟨contacts, registry⟩ := done.table.beside
  obtain ⟨contacts', registry'⟩ := dropEntry_beside h s
  refine ⟨by rw [done.base.cfg]; exact may.run, done.fits, ?_, ?_, fun j fitted => ?_, fun j k there => ?_⟩
  · rw [registry, registry']
    exact may.enabled
  · rw [registry, registry']
    exact may.rank
  · rw [contacts, contacts', done.contact]
    exact may.contacts j (by rwa [done.base.cfg] at fitted)
  · by_cases other : j = d
    · subst other
      rw [done.handle_gone held] at there
      exact absurd there (by simp)
    · have own := may.held d h held
      rw [done.handle_other may own other] at there
      have apart := (may.held j k there).apart own other
      obtain ⟨e, resolved, self, kind, scope, uncovered⟩ := may.held j k there
      obtain ⟨f, resolved', reviewed⟩ := done.table.resolve (dropEntry_resolve_other (fun same => apart same.symm) resolved)
      obtain ⟨owner, kind', scope'⟩ := reviewed.ownDoor
      exact ⟨f, resolved', owner.trans self, kind'.trans kind, scope'.trans scope, reviewed.coveredBy.trans uncovered⟩

end

/-- What the acknowledgement at these doors leaves. -/
structure AcknowledgedAt (l : List (Fin 4)) (u t : State) : Prop where
  may : t.LineRetires
  lnk : t.lnk = u.lnk
  base : SameBase u t
  contact : ∀ j, (rd t.dsv.doors j).contact = (rd u.dsv.doors j).contact
  gone : ∀ d ∈ l, ∀ h, u.AcknowledgesAt d h → t.resolve h = none ∧ (rd t.dsv.doors d).selfHandle = none
    ∧ ((rd t.dsv.doors d).supervision = .shut ∨ (rd t.dsv.doors d).supervision = .authorised)
  other : ∀ d, (d ∉ l ∨ ∀ h, ¬ u.AcknowledgesAt d h) → (rd t.dsv.doors d).selfHandle = (rd u.dsv.doors d).selfHandle
  slots : ∀ i : Fin 24, (∀ d h, u.AcknowledgesAt d h → i.val ≠ h / 8) → (rd t.ilt.slots i).record = (rd u.ilt.slots i).record

section
variable {u t : State} {l : List (Fin 4)} {d : Fin 4}

theorem AcknowledgedAt.acknowledges (done : AcknowledgedAt l u t) (out : d ∉ l) (h : Nat) : t.AcknowledgesAt d h ↔ u.AcknowledgesAt d h := by
  rw [State.AcknowledgesAt, State.AcknowledgesAt, done.base.cfg, done.contact, done.other d (.inl out)]

theorem AcknowledgedAt.step (done : AcknowledgedAt l u t) (out : d ∉ l) : AcknowledgedAt (l ++ [d]) u (acknowledgeDoor d t) := by
  by_cases acts : ∃ h, t.AcknowledgesAt d h
  · obtain ⟨h, at'⟩ := acts
    have step := acknowledgeDoor_retires done.may at'
    have held := at'.2.2
    have own := done.may.held d h held
    refine ⟨step.lineRetires done.may held, step.lnk.trans done.lnk, done.base.trans step.base,
      fun j => (step.contact j).trans (done.contact j), fun j there k was => ?_, fun j cause => ?_, fun i apart => ?_⟩
    · by_cases same : j = d
      · subst same
        obtain rfl : k = h := Option.some.inj ((((done.acknowledges out k).mpr was).2.2).symm.trans held)
        exact ⟨step.table.resolve_none (dropEntry_resolve k t), step.handle_gone held, step.supervision⟩
      · have before : j ∈ l := by
          rcases List.mem_append.mp there with there | there
          · exact there
          · exact absurd (List.mem_singleton.mp there) same
        obtain ⟨gone, handle, supervision⟩ := done.gone j before k was
        exact ⟨step.table.resolve_none (dropEntry_resolve_gone done.may.fits gone), (step.handle_other done.may own same).trans handle,
          by rw [(step.other j same).1]; exact supervision⟩
    · have apart : j ≠ d := by
        rintro rfl
        rcases cause with cause | cause
        · exact cause (by simp)
        · exact cause h ((done.acknowledges out h).mp at')
      exact (step.handle_other done.may own apart).trans
        (done.other j (cause.imp_left fun out there => out (List.mem_append_left _ there)))
    · rw [step.table.slot_record, dropEntry_slot_other (apart d h ((done.acknowledges out h).mp at')), done.slots i apart]
  · have idle : ∀ h, ¬ t.AcknowledgesAt d h := fun h at' => acts ⟨h, at'⟩
    rw [acknowledgeDoor_idle idle]
    have clear : ∀ h, ¬ u.AcknowledgesAt d h := fun h at' => idle h ((done.acknowledges out h).mpr at')
    refine ⟨done.may, done.lnk, done.base, done.contact, fun j there k was => ?_, fun j cause => ?_, done.slots⟩
    · rcases List.mem_append.mp there with there | there
      · exact done.gone j there k was
      · obtain rfl := List.mem_singleton.mp there
        exact absurd was (clear k)
    · exact done.other j (cause.imp_left fun out there => out (List.mem_append_left _ there))

theorem acknowledge_list (may : u.LineRetires) (l : List (Fin 4)) (once : l.Nodup) :
    AcknowledgedAt l u (l.foldl (fun s d => acknowledgeDoor d s) u) := by
  induction l using List.reverseRecOn with
  | nil => exact ⟨may, rfl, .refl u, fun _ => rfl, fun d there => absurd there (by simp), fun _ _ => rfl, fun _ _ => rfl⟩
  | append_singleton l d ih =>
    obtain ⟨front, -, apart⟩ := List.nodup_append.mp once
    rw [List.foldl_append]
    exact (ih front).step fun there => apart d there d (by simp) rfl

end

/-- Settles O50. -/
theorem fallbackLineDecodes : Obligations.FallbackLineDecodes := by
  unfold Obligations.FallbackLineDecodes
  refine ⟨?_, ?_, fun u => ⟨fun d => acknowledgeDoor_idle, fun d h => exec_retire_acknowledges, ?_⟩⟩
  · rintro s f long rfl rfl
    exact ⟨by rw [exec_fblEdge, lineEdge_same rfl], fallingEdges, risingEdges⟩
  · rintro s f rfl
    exact phaseRunOuts s
  · rintro t rfl run fits registry contacts held
    have may : u.LineRetires := ⟨run, fits, by rw [registry.line], by rw [registry.line], contacts, held⟩
    have done := acknowledge_list may (List.finRange 4) (List.nodup_finRange 4)
    exact ⟨done.lnk, done.base, fun d h at' => done.gone d (List.mem_finRange d) h at', fun d clear => done.other d (.inr clear),
      done.slots⟩

end Sys2Proof.Machine
end

