-- ==== Sys2Proof/Proofs/DemandStep.lean ====
section
/-! PROOF. The demands of a brake update (R116 to R119, R128) -/

namespace Sys2Proof.Machine

/-! ## The demands of a brake update (R116 to R119, R128) -/

/-- The demands formed and commanded, and the values reported, before the hold is judged. -/
def State.demandsFormed (s : State) : State := Brk.snapshot (Brk.command (Brk.formDemands (Brk.ramp (Brk.takeShares s))))

/-- The hold and H after the ramp's step. -/
def State.rampedHold (s : State) : HoldState :=
  if s.inRun ∧ s.brk.hold = .ramping then (if s.brk.target ≤ 6 then .released else .ramping) else s.brk.hold

def State.rampedTarget (s : State) : Nat :=
  if s.inRun ∧ s.brk.hold = .ramping then (if s.brk.target ≤ 6 then 0 else s.brk.target - 6) else s.brk.target

def State.rampedConfirmed (s : State) : Bool :=
  if s.inRun ∧ s.brk.hold = .ramping ∧ s.brk.target ≤ 6 then false else s.brk.confirmed

/-- The blended share of an axle now, and its demand. -/
def State.shareNow (s : State) (a : Fin 3) : Nat :=
  blendedShare s.cfg.settings.weight (s.loadSharesNow.map fun v => rd v a) (rd s.cfg.settings.share a)

def State.demandNow (s : State) (a : Fin 3) : Nat :=
  flooredDemand s.rampedHold s.rampedTarget a (axleDemand (s.driverDemand * 850 / 1000) (s.shareNow a) (rd s.cfg.settings.share a))

section
variable {s : State}

theorem brkCommand_command (s : State) (a : Fin 3) : (rd (Brk.command s).vda.channels (brakeChannel a)).command = (rd s.brk.axles a).demand := by
  have apart : ∀ b c : Fin 3, brakeChannel b = brakeChannel c ↔ b = c := by decide
  simp only [Brk.command, rd_command, apart]
  fin_cases a <;> simp [Channel.take_command]

theorem brkRamp_brk (s : State) : (Brk.ramp s).brk = { s.brk with hold := s.rampedHold, target := s.rampedTarget, confirmed := s.rampedConfirmed } := by
  unfold Brk.ramp State.rampedHold State.rampedTarget State.rampedConfirmed
  by_cases ramps : s.inRun = true ∧ s.brk.hold = .ramping
  · by_cases low : s.brk.target ≤ 6
    · simp [Brk.rampStep, ramps.1, ramps.2, low]
    · simp [Brk.rampStep, ramps.1, ramps.2, low]
  · rw [if_neg ramps, if_neg ramps, if_neg ramps, if_neg fun all => ramps ⟨all.1, all.2.1⟩]

/-- From the first state to the second only BRK and the valve channels change. -/
structure BrakesOnly (s t : State) : Prop where
  cfg : t.cfg = s.cfg
  mot : t.mot = s.mot
  ilt : t.ilt = s.ilt
  lnk : t.lnk = s.lnk
  stc : t.stc = s.stc
  now : t.now = s.now

theorem BrakesOnly.trans {t u : State} (h : BrakesOnly s t) (k : BrakesOnly t u) : BrakesOnly s u :=
  ⟨k.cfg.trans h.cfg, k.mot.trans h.mot, k.ilt.trans h.ilt, k.lnk.trans h.lnk, k.stc.trans h.stc, k.now.trans h.now⟩

theorem modBrk_only (f : Brk → Brk) (s : State) : BrakesOnly s (s.modBrk f) := ⟨rfl, rfl, rfl, rfl, rfl, rfl⟩
theorem brkCommand_only (s : State) : BrakesOnly s (Brk.command s) := ⟨rfl, rfl, rfl, rfl, rfl, rfl⟩
theorem brkRamp_only (s : State) : BrakesOnly s (Brk.ramp s) := by
  unfold Brk.ramp
  split
  · exact modBrk_only _ s
  · exact ⟨rfl, rfl, rfl, rfl, rfl, rfl⟩

theorem takeShares_only (s : State) : BrakesOnly s (Brk.takeShares s) := ⟨rfl, rfl, rfl, rfl, rfl, rfl⟩
theorem formDemands_only (s : State) : BrakesOnly s (Brk.formDemands s) := modBrk_only _ s
theorem snapshot_only (s : State) : BrakesOnly s (Brk.snapshot s) := modBrk_only _ s

theorem demandsFormed_only (s : State) : BrakesOnly s s.demandsFormed :=
  (takeShares_only s).trans ((brkRamp_only _).trans ((formDemands_only _).trans ((brkCommand_only _).trans (snapshot_only _))))

theorem BrakesOnly.analogValue {t : State} (h : BrakesOnly s t) (c : Fin 21) : t.analogValue c = s.analogValue c := by
  rw [State.analogValue, h.mot, State.analogValue]

/-- The record of an axle after the demands are formed. -/
def State.axleNow (s : State) (a : Fin 3) : AxleBrake where
  loadShare := s.loadSharesNow.map fun v => rd v a
  blended := some (s.shareNow a)
  demand := s.demandNow a
  demandAtUpdate := s.demandNow a
  measured := s.analogValue ⟨a.val + 16, by omega⟩
  validity := (rd s.mot.analog ⟨a.val + 16, by omega⟩).validity

theorem takeShares_ramped (s : State) : (Brk.takeShares s).rampedHold = s.rampedHold ∧ (Brk.takeShares s).rampedTarget = s.rampedTarget
    ∧ (Brk.takeShares s).rampedConfirmed = s.rampedConfirmed := ⟨rfl, rfl, rfl⟩

theorem demandsFormed_brk (s : State) : s.demandsFormed.brk =
    { s.brk with
      driver := s.driverDemand
      base := s.driverDemand * 850 / 1000
      hold := s.rampedHold
      target := s.rampedTarget
      confirmed := s.rampedConfirmed
      axles := mapF s.brk.axles fun a _ => s.axleNow a } := by
  obtain ⟨hold, target, confirmed⟩ := takeShares_ramped s
  have shared : (Brk.takeShares s).brk = _ := State.modBrk_brk _ _
  have ramped := brkRamp_brk (Brk.takeShares s)
  rw [hold, target, confirmed, shared] at ramped
  have only : BrakesOnly s (Brk.ramp (Brk.takeShares s)) := (takeShares_only s).trans (brkRamp_only _)
  have commanded : BrakesOnly s (Brk.command (Brk.formDemands (Brk.ramp (Brk.takeShares s)))) :=
    only.trans ((formDemands_only _).trans (brkCommand_only _))
  rw [State.demandsFormed, Brk.snapshot, State.modBrk_brk, brkCommand_brk]
  simp only [commanded.analogValue, commanded.mot]
  rw [Brk.formDemands, State.modBrk_brk, ramped, only.cfg]
  simp only [Brk.mk.injEq, true_and, and_true]
  refine ext_rd fun a => ?_
  simp only [rd_mapF, Option.getD_some]
  rfl

theorem demandsFormed_axle (s : State) (a : Fin 3) : rd s.demandsFormed.brk.axles a = s.axleNow a := by
  rw [demandsFormed_brk, rd_mapF]

theorem demandsFormed_command (s : State) (a : Fin 3) :
    (rd s.demandsFormed.vda.channels (brakeChannel a)).command = s.demandNow a := by
  have commanded := brkCommand_command (Brk.formDemands (Brk.ramp (Brk.takeShares s))) a
  have same : (rd s.demandsFormed.brk.axles a).demand = (rd (Brk.formDemands (Brk.ramp (Brk.takeShares s))).brk.axles a).demand := by
    rw [State.demandsFormed, Brk.snapshot, State.modBrk_brk, brkCommand_brk, rd_mapF]
  rw [demandsFormed_axle] at same
  exact commanded.trans same.symm

end
end Sys2Proof.Machine
end

