-- ==== Sys2Proof/Proofs/LoadShares.lean ====
section
/-! PROOF. The load shares of an update (R117, R118) -/

namespace Sys2Proof.Machine

/-! ## The load shares (R117, R118) -/

/-- The truncated share of an axle's load. -/
def loadPart (load : Vector Nat 3) (a : Fin 3) : Nat := 1000 * rd load a / (rd load 0 + rd load 1 + rd load 2)

/-- What the truncated shares leave of 1,000. -/
def loadRest (load : Vector Nat 3) : Nat := 1000 - (loadPart load 0 + loadPart load 1 + loadPart load 2)

section
variable (load : Vector Nat 3)

theorem loadParts_le : loadPart load 0 + loadPart load 1 + loadPart load 2 ≤ 1000 := by
  unfold loadPart
  generalize rd load 0 = x
  generalize rd load 1 = y
  generalize rd load 2 = z
  rcases Nat.eq_zero_or_pos (x + y + z) with none | some
  · simp [none]
  · calc 1000 * x / (x + y + z) + 1000 * y / (x + y + z) + 1000 * z / (x + y + z)
        ≤ (1000 * x + 1000 * y + 1000 * z) / (x + y + z) :=
          (Nat.add_le_add_right (Nat.div_add_div_le_add_div) _).trans (Nat.div_add_div_le_add_div)
      _ = 1000 := by rw [← Nat.mul_add, ← Nat.mul_add, Nat.mul_div_cancel _ some]

theorem loadShares_share (a : Fin 3) : rd (loadShares load) a = loadPart load a + if largestAxle load = a then loadRest load else 0 := by
  rw [loadShares]
  rw [rd_upd]
  simp only [rd_mapF]
  split
  · next is => rw [is]; rfl
  · rfl

theorem largestAxle_iff (a : Fin 3) : largestAxle load = a ↔ (∀ b, rd load b ≤ rd load a) ∧ ∀ b, b < a → rd load b < rd load a := by
  have three (P : Fin 3 → Prop) : (∀ b, P b) ↔ P 0 ∧ P 1 ∧ P 2 := by simp [Fin.forall_fin_succ]
  simp only [three]
  unfold largestAxle
  fin_cases a
  · split_ifs <;> simp <;> omega
  · split_ifs <;> simp <;> omega
  · split_ifs <;> simp <;> omega

theorem loadShares_sum : rd (loadShares load) 0 + rd (loadShares load) 1 + rd (loadShares load) 2 = 1000 := by
  have most := loadParts_le load
  have rest : loadRest load = 1000 - (loadPart load 0 + loadPart load 1 + loadPart load 2) := rfl
  simp only [loadShares_share]
  generalize largestAxle load = a
  fin_cases a
  · simp
    omega
  · simp
    omega
  · simp
    omega

end

section
variable {s : State}

/-- All three axle loads are VALID, with a sum above 0. -/
def State.SharesFormed (s : State) : Prop := (∀ a : Fin 3, (rd s.crn.axles a).valid = true)
  ∧ 0 < (rd s.crn.axles 0).load + (rd s.crn.axles 1).load + (rd s.crn.axles 2).load

/-- The three axle loads. -/
def State.axleLoads (s : State) : Vector Nat 3 := mapF s.crn.axles fun _ a => a.load

theorem rd_axleLoads (a : Fin 3) : rd s.axleLoads a = (rd s.crn.axles a).load := rd_mapF _ _ a

theorem loadSharesNow_formed (formed : s.SharesFormed) : s.loadSharesNow = some (loadShares s.axleLoads) := by
  obtain ⟨valid, positive⟩ := formed
  rw [State.loadSharesNow]
  rw [if_pos (by simp [valid]; omega)]
  rfl

theorem loadSharesNow_unformed (unformed : ¬ s.SharesFormed) : s.loadSharesNow = none := by
  refine if_neg fun all => unformed ?_
  simp only [Bool.and_eq_true, decide_eq_true_eq, rd_mapF] at all
  obtain ⟨⟨⟨zero, one⟩, two⟩, positive⟩ := all
  refine ⟨fun a => ?_, positive⟩
  fin_cases a
  · exact zero
  · exact one
  · exact two

end
end Sys2Proof.Machine
end

