-- ==== Sys2Proof/Proofs/HoldJudgement.lean ====
section
/-! PROOF. The judgement of the hold at a brake update (R124, R125, R131) -/

namespace Sys2Proof.Machine

/-! ## The judgement of the hold at a brake update (R124, R125, R131) -/

section
variable {m s : State}

theorem holdBuilt_iff : m.holdBuilt = true ↔ ∀ c : Fin 21, c = 17 ∨ c = 18 → (rd m.mot.analog c).validity ≠ .faulty
    ∧ 9 * (m.brk.target : Int) ≤ 10 * (rd m.mot.analog c).value := by
  simp only [State.holdBuilt, AnalogChannel.atLeast90, Bool.and_eq_true, decide_eq_true_eq]
  exact ⟨fun both c which => by rcases which with rfl | rfl <;> tauto, fun all => ⟨all 17 (.inl rfl), all 18 (.inr rfl)⟩⟩

theorem holdFallen_iff : m.holdFallen = true ↔ ∃ c : Fin 21, (c = 17 ∨ c = 18) ∧ ((rd m.mot.analog c).validity = .faulty
    ∨ 10 * (rd m.mot.analog c).value < 8 * (m.brk.target : Int)) := by
  simp only [State.holdFallen, AnalogChannel.below80, Bool.or_eq_true, decide_eq_true_eq]
  constructor
  · rintro (one | two)
    · exact ⟨17, .inl rfl, one⟩
    · exact ⟨18, .inr rfl, two⟩
  · rintro ⟨c, rfl | rfl, low⟩
    · exact .inl low
    · exact .inr low

/-- The departure window closes at a brake update (R131). -/
def State.windowShuts (s : State) : Prop :=
  s.brk.windowOpen = true ∧ (1200 ≤ (s.mot.counter - s.brk.windowRef).toInt ∨ ∃ v, s.mot.speed = some v ∧ 150 < v)

theorem speedAbove_iff (n : Nat) : m.speedAbove n = true ↔ ∃ v, m.mot.speed = some v ∧ n < v := by
  unfold State.speedAbove
  cases m.mot.speed <;> simp

theorem judgeWindow_shuts (shuts : m.windowShuts) : Brk.judgeWindow m = Brk.setWindow false m := by
  obtain ⟨opened, cause⟩ := shuts
  refine if_pos ?_
  rw [opened, Bool.true_and, Bool.or_eq_true, decide_eq_true_eq, speedAbove_iff]
  exact cause

theorem judgeWindow_stays (stays : ¬ m.windowShuts) : Brk.judgeWindow m = m := by
  refine if_neg fun all => stays ?_
  rw [Bool.and_eq_true, Bool.or_eq_true, decide_eq_true_eq, speedAbove_iff] at all
  exact all

/-- The window's judgement changes the two windows alone. -/
theorem judgeWindow_beside (m : State) : ∃ b w : Bool, (Brk.judgeWindow m).brk = { m.brk with windowOpen := b }
    ∧ (Brk.judgeWindow m).stc = { m.stc with windowOpen := w } ∧ (Brk.judgeWindow m).vda = m.vda ∧ (Brk.judgeWindow m).lnk = m.lnk
    ∧ (Brk.judgeWindow m).ilt = m.ilt ∧ (Brk.judgeWindow m).cfg = m.cfg ∧ (Brk.judgeWindow m).mot = m.mot := by
  by_cases shuts : m.windowShuts
  · rw [judgeWindow_shuts shuts]
    exact ⟨false, false, rfl, rfl, rfl, rfl, rfl, rfl, rfl⟩
  · rw [judgeWindow_stays shuts]
    exact ⟨m.brk.windowOpen, m.stc.windowOpen, rfl, rfl, rfl, rfl, rfl, rfl, rfl⟩

/-- An axle's record with A2 and A3 raised to H. -/
def AxleBrake.raised (target : Nat) (a : Fin 3) (x : AxleBrake) : AxleBrake :=
  { x with demand := if a = 0 then x.demand else max x.demand target }

theorem raiseFloor_brk (m : State) : (Brk.raiseFloor m).brk = { m.brk with axles := mapF m.brk.axles (AxleBrake.raised m.brk.target) } := by
  rw [Brk.raiseFloor, brkCommand_brk]
  rfl

theorem raiseFloor_only (m : State) : BrakesOnly m (Brk.raiseFloor m) := ⟨rfl, rfl, rfl, rfl, rfl, rfl⟩

theorem raiseFloor_command (m : State) (a : Fin 3) : (rd (Brk.raiseFloor m).vda.channels (brakeChannel a)).command
    = (rd (Brk.raiseFloor m).brk.axles a).demand := by
  rw [Brk.raiseFloor, brkCommand_brk]
  exact brkCommand_command _ a

theorem enterApplying_brk (t : Nat) (m : State) : (Brk.enterApplying t m).brk =
    { m.brk with
      hold := .applying
      target := t
      confirmed := false
      confirmTimer := 0
      unconfirmed := 0
      unconfirmedPosted := false
      doorSeen := m.live.any Entry.partnerDoor
      windowOpen := false
      axles := mapF m.brk.axles (AxleBrake.raised t) } := by
  rw [Brk.enterApplying, raiseFloor_brk]
  rfl

theorem setWindow_beside (b : Bool) (m : State) : (Brk.setWindow b m).brk = { m.brk with windowOpen := b }
    ∧ (Brk.setWindow b m).stc = { m.stc with windowOpen := b } ∧ (Brk.setWindow b m).vda = m.vda ∧ (Brk.setWindow b m).lnk = m.lnk
    ∧ (Brk.setWindow b m).ilt = m.ilt ∧ (Brk.setWindow b m).cfg = m.cfg ∧ (Brk.setWindow b m).mot = m.mot :=
  ⟨rfl, rfl, rfl, rfl, rfl, rfl, rfl⟩

theorem enterApplying_beside (t : Nat) (m : State) : (Brk.enterApplying t m).stc = { m.stc with windowOpen := false }
    ∧ (Brk.enterApplying t m).lnk = m.lnk ∧ (Brk.enterApplying t m).ilt = m.ilt ∧ (Brk.enterApplying t m).cfg = m.cfg
    ∧ (Brk.enterApplying t m).mot = m.mot := by
  unfold Brk.enterApplying
  obtain ⟨cfg, mot, ilt, lnk, stc, -⟩ := raiseFloor_only (Brk.setWindow false (m.modBrk fun b =>
    { b with
      hold := .applying
      target := t
      confirmed := false
      confirmTimer := 0
      unconfirmed := 0
      unconfirmedPosted := false
      doorSeen := m.live.any Entry.partnerDoor }))
  exact ⟨stc, lnk, ilt, cfg, mot⟩

theorem enterApplying_command (t : Nat) (m : State) (a : Fin 3) : (rd (Brk.enterApplying t m).vda.channels (brakeChannel a)).command
    = (rd (Brk.enterApplying t m).brk.axles a).demand := raiseFloor_command _ a

/-! ### In APPLYING -/

/-- R124: the hold is confirmed at this update. -/
def State.confirmsHold (m : State) : Prop := m.holdBuilt = true ∧ 100 ≤ m.brk.confirmTimer + 10

/-- R125: the hold is lost at this update. -/
def State.losesHold (m : State) : Prop := m.holdFallen = true ∧ 100 ≤ m.brk.lossTimer + 10

theorem judgeHold_rests (rests : m.brk.hold = .released ∨ m.brk.hold = .waitDrive ∨ m.brk.hold = .ramping) : Brk.judgeHold m = m := by
  unfold Brk.judgeHold
  rcases rests with hold | hold | hold <;> rw [hold]

theorem judgeHold_confirms (hold : m.brk.hold = .applying) (confirms : m.confirmsHold) :
    Brk.judgeHold m = m.modBrk fun b => { b with confirmTimer := 100, hold := .held, confirmed := true, lossTimer := 0 } := by
  obtain ⟨built, timer⟩ := confirms
  have grown : grow 10 100 m.brk.confirmTimer = 100 := by
    unfold grow
    omega
  unfold Brk.judgeHold
  rw [hold]
  dsimp only
  rw [Brk.judgeApplying]
  rw [if_pos built, grown, if_pos le_rfl]
  rfl

theorem judgeHold_watches (hold : m.brk.hold = .applying) (unconfirmed : ¬ m.confirmsHold) :
    Brk.judgeHold m = Brk.watchUnconfirmed (m.modBrk fun b =>
      { b with confirmTimer := if m.holdBuilt = true then b.confirmTimer + 10 else 0 }) := by
  unfold Brk.judgeHold
  rw [hold]
  dsimp only
  rw [Brk.judgeApplying]
  by_cases built : m.holdBuilt = true
  · have short : ¬ 100 ≤ m.brk.confirmTimer + 10 := fun long => unconfirmed ⟨built, long⟩
    have grown : grow 10 100 m.brk.confirmTimer = m.brk.confirmTimer + 10 := by
      unfold grow
      omega
    rw [if_pos built, grown, if_neg short]
    simp only [if_pos built]
    rfl
  · simp only [if_neg built]
    rw [if_neg (by omega)]

theorem watchUnconfirmed_posted (posted : m.brk.unconfirmedPosted = true) : Brk.watchUnconfirmed m = m := if_pos posted

theorem watchUnconfirmed_grows (unposted : m.brk.unconfirmedPosted = false) (short : m.brk.unconfirmed + 10 < 1000) :
    Brk.watchUnconfirmed m = m.modBrk fun b => { b with unconfirmed := b.unconfirmed + 10 } := by
  unfold Brk.watchUnconfirmed
  rw [if_neg (by simp [unposted]), if_neg (by omega)]

theorem watchUnconfirmed_reports (unposted : m.brk.unconfirmedPosted = false) (long : 1000 ≤ m.brk.unconfirmed + 10) :
    Brk.watchUnconfirmed m = Brk.reportTimeout m := by
  unfold Brk.watchUnconfirmed
  rw [if_neg (by simp [unposted]), if_pos long]

/-! ### In HELD -/

theorem judgeHold_loses (hold : m.brk.hold = .held) (loses : m.losesHold) :
    Brk.judgeHold m = Brk.lose (m.modBrk fun b => { b with lossTimer := 100 }) := by
  obtain ⟨fallen, timer⟩ := loses
  have grown : grow 10 100 m.brk.lossTimer = 100 := by
    unfold grow
    omega
  unfold Brk.judgeHold
  rw [hold]
  dsimp only
  rw [Brk.judgeHeld]
  rw [if_pos fallen, grown, if_pos le_rfl]

theorem judgeHold_keeps (hold : m.brk.hold = .held) (keeps : ¬ m.losesHold) :
    Brk.judgeHold m = m.modBrk fun b => { b with lossTimer := if m.holdFallen = true then b.lossTimer + 10 else 0 } := by
  unfold Brk.judgeHold
  rw [hold]
  dsimp only
  rw [Brk.judgeHeld]
  by_cases fallen : m.holdFallen = true
  · have short : ¬ 100 ≤ m.brk.lossTimer + 10 := fun long => keeps ⟨fallen, long⟩
    have grown : grow 10 100 m.brk.lossTimer = m.brk.lossTimer + 10 := by
      unfold grow
      omega
    rw [if_pos fallen, grown, if_neg short]
    simp only [if_pos fallen]
    rfl
  · simp only [if_neg fallen]
    rw [if_neg (by omega)]

end
end Sys2Proof.Machine
end

