-- ==== Sys2Proof/Proofs/BrakeBegins.lean ====
section
/-! PROOF. A brake update at its time -/

namespace Sys2Proof.Machine

/-! ## A brake update -/

section
variable {s m : State}

theorem watchUnconfirmed_quiet (u : State) : let t := Brk.watchUnconfirmed u
    t.vda = u.vda ∧ t.brk.axles = u.brk.axles ∧ t.brk.windowOpen = u.brk.windowOpen ∧ t.brk.windowRef = u.brk.windowRef
      ∧ t.stc = u.stc ∧ t.ilt = u.ilt ∧ t.cfg = u.cfg ∧ t.mot = u.mot := by
  dsimp only
  unfold Brk.watchUnconfirmed
  split
  · exact ⟨rfl, rfl, rfl, rfl, rfl, rfl, rfl, rfl⟩
  · split
    · exact ⟨rfl, rfl, rfl, rfl, rfl, rfl, rfl, rfl⟩
    · exact ⟨rfl, rfl, rfl, rfl, rfl, rfl, rfl, rfl⟩

/-- The hold's judgement where it is not lost. -/
theorem judgeHold_quiet (quiet : ¬ (m.brk.hold = .held ∧ m.losesHold)) : (Brk.judgeHold m).vda = m.vda
    ∧ (Brk.judgeHold m).brk.axles = m.brk.axles ∧ (Brk.judgeHold m).brk.windowOpen = m.brk.windowOpen
    ∧ (Brk.judgeHold m).brk.windowRef = m.brk.windowRef ∧ (Brk.judgeHold m).stc = m.stc ∧ (Brk.judgeHold m).ilt = m.ilt
    ∧ (Brk.judgeHold m).cfg = m.cfg ∧ (Brk.judgeHold m).mot = m.mot := by
  cases hold : m.brk.hold with
  | released => rw [judgeHold_rests (.inl hold)]; exact ⟨rfl, rfl, rfl, rfl, rfl, rfl, rfl, rfl⟩
  | waitDrive => rw [judgeHold_rests (.inr (.inl hold))]; exact ⟨rfl, rfl, rfl, rfl, rfl, rfl, rfl, rfl⟩
  | ramping => rw [judgeHold_rests (.inr (.inr hold))]; exact ⟨rfl, rfl, rfl, rfl, rfl, rfl, rfl, rfl⟩
  | held =>
    rw [judgeHold_keeps hold fun loses => quiet ⟨hold, loses⟩]
    exact ⟨rfl, rfl, rfl, rfl, rfl, rfl, rfl, rfl⟩
  | applying =>
    by_cases confirms : m.confirmsHold
    · rw [judgeHold_confirms hold confirms]
      exact ⟨rfl, rfl, rfl, rfl, rfl, rfl, rfl, rfl⟩
    · rw [judgeHold_watches hold confirms]
      exact watchUnconfirmed_quiet _

/-- The target that a lost hold applies. -/
def State.lostTarget (m : State) : Nat := m.contributorMax.getD m.brk.target

/-- A lost hold applies again, and is reported. -/
theorem brkLose_after (m : State) : (Brk.lose m).brk = (Brk.enterApplying m.lostTarget m).brk
    ∧ (Brk.lose m).vda = (Brk.enterApplying m.lostTarget m).vda ∧ (Brk.lose m).stc = { m.stc with windowOpen := false }
    ∧ (Brk.lose m).ilt = m.ilt ∧ (Brk.lose m).cfg = m.cfg ∧ (Brk.lose m).mot = m.mot ∧ (Brk.lose m).flagged 3 := by
  obtain ⟨stc, -, ilt, cfg, mot⟩ := enterApplying_beside m.lostTarget m
  exact ⟨State.post_brk _ _, State.post_vda _ _, (State.post_stc _ _).trans stc, (State.post_ilt _ _).trans ilt,
    (State.post_cfg _ _).trans cfg, (State.post_mot _ _).trans mot, post_flagged_self _ _⟩

theorem lostTarget_lossTimer (n : Nat) (m : State) : (m.modBrk fun b => { b with lossTimer := n }).lostTarget = m.lostTarget := rfl

/-- BRK at its time, before the update. -/
def State.brakeBegins (s : State) : State :=
  (s.advanceTo (s.brk.lastUpdate + 10000)).modBrk fun b => { b with lastUpdate := max s.now (s.brk.lastUpdate + 10000) }

/-- The demands of the update that comes. -/
def State.brakesFormed (s : State) : State := s.brakeBegins.demandsFormed

theorem brakesMove_eq (s : State) : brakesMove s = if s.inRun then Brk.judgeWindow (Brk.judgeHold s.brakesFormed) else s.brakesFormed := by
  have run : s.brakesFormed.inRun = s.inRun := by rw [State.inRun, State.brakesFormed, (demandsFormed_only _).cfg]; rfl
  rw [← run]
  rfl

theorem brakesFormed_only (s : State) : s.brakesFormed.cfg = s.cfg ∧ s.brakesFormed.mot = s.mot ∧ s.brakesFormed.ilt = s.ilt
    ∧ s.brakesFormed.lnk = s.lnk ∧ s.brakesFormed.stc = s.stc := by
  obtain ⟨cfg, mot, ilt, lnk, stc, -⟩ := demandsFormed_only s.brakeBegins
  exact ⟨cfg, mot, ilt, lnk, stc⟩

theorem brakeBegins_reads (s : State) : s.brakeBegins.rampedHold = s.rampedHold ∧ s.brakeBegins.rampedTarget = s.rampedTarget
    ∧ s.brakeBegins.rampedConfirmed = s.rampedConfirmed ∧ s.brakeBegins.driverDemand = s.driverDemand
    ∧ (∀ a, s.brakeBegins.demandNow a = s.demandNow a) ∧ ∀ a, s.brakeBegins.axleNow a = s.axleNow a :=
  ⟨rfl, rfl, rfl, rfl, fun _ => rfl, fun _ => rfl⟩

theorem brakesFormed_brk (s : State) : s.brakesFormed.brk =
    { s.brk with
      lastUpdate := max s.now (s.brk.lastUpdate + 10000)
      driver := s.driverDemand
      base := s.driverDemand * 850 / 1000
      hold := s.rampedHold
      target := s.rampedTarget
      confirmed := s.rampedConfirmed
      axles := mapF s.brk.axles fun a _ => s.axleNow a } := by
  obtain ⟨hold, target, confirmed, driver, -, axle⟩ := brakeBegins_reads s
  rw [State.brakesFormed, demandsFormed_brk, hold, target, confirmed, driver]
  simp only [axle]
  rfl

theorem brakesFormed_axle (s : State) (a : Fin 3) : rd s.brakesFormed.brk.axles a = s.axleNow a := by rw [brakesFormed_brk, rd_mapF]

theorem brakesFormed_command (s : State) (a : Fin 3) : (rd s.brakesFormed.vda.channels (brakeChannel a)).command = s.demandNow a :=
  (demandsFormed_command _ a).trans ((brakeBegins_reads s).2.2.2.2.1 a)

theorem ramped_unramping (calm : ¬ (s.inRun = true ∧ s.brk.hold = .ramping)) : s.rampedHold = s.brk.hold
    ∧ s.rampedTarget = s.brk.target ∧ s.rampedConfirmed = s.brk.confirmed :=
  ⟨if_neg calm, if_neg calm, if_neg fun all => calm ⟨all.1, all.2.1⟩⟩

theorem ramped_ends (run : s.inRun = true) (hold : s.brk.hold = .ramping) (low : s.brk.target ≤ 6) : s.rampedHold = .released
    ∧ s.rampedTarget = 0 ∧ s.rampedConfirmed = false := by
  simp [State.rampedHold, State.rampedTarget, State.rampedConfirmed, run, hold, low]

theorem ramped_steps (run : s.inRun = true) (hold : s.brk.hold = .ramping) (high : 6 < s.brk.target) : s.rampedHold = .ramping
    ∧ s.rampedTarget = s.brk.target - 6 := by
  simp [State.rampedHold, State.rampedTarget, run, hold, Nat.not_le.mpr high]

/-- The pressures and the timers of the judgement are those of the state before. -/
theorem brakesFormed_judges (calm : s.brk.hold ≠ .ramping) : (s.brakesFormed.holdBuilt = true ↔ s.holdBuilt = true)
    ∧ (s.brakesFormed.holdFallen = true ↔ s.holdFallen = true) ∧ (s.brakesFormed.confirmsHold ↔ s.confirmsHold)
    ∧ (s.brakesFormed.losesHold ↔ s.losesHold) := by
  obtain ⟨-, target, -⟩ := ramped_unramping (s := s) fun all => calm all.2
  have brk := brakesFormed_brk s
  have mot : s.brakesFormed.mot = s.mot := (brakesFormed_only s).2.1
  have built : s.brakesFormed.holdBuilt = s.holdBuilt := by rw [State.holdBuilt, brk, mot, target, State.holdBuilt]
  have fallen : s.brakesFormed.holdFallen = s.holdFallen := by rw [State.holdFallen, brk, mot, target, State.holdFallen]
  simp only [State.confirmsHold, State.losesHold, built, fallen, brk, and_self]

theorem brakesFormed_lostTarget (calm : s.brk.hold ≠ .ramping) : s.brakesFormed.lostTarget = s.lostTarget := by
  obtain ⟨-, target, -⟩ := ramped_unramping (s := s) fun all => calm all.2
  obtain ⟨cfg, mot, ilt, -⟩ := brakesFormed_only s
  rw [State.lostTarget, State.contributorMax_congr (State.live_congr ilt) mot cfg, brakesFormed_brk, target, State.lostTarget]

end
end Sys2Proof.Machine
end

