-- ==== Sys2Proof/Proofs/BrakeMoves.lean ====
section
/-! PROOF. What a brake update makes of each hold (R124, R125, R128) -/

namespace Sys2Proof.Machine

theorem post_lnk_congr {u v : State} (n : Notice) (same : u.lnk = v.lnk) : (u.post n).lnk = (v.post n).lnk := by
  rw [State.post, State.modLnk_lnk, same, State.post, State.modLnk_lnk]

section
variable {s : State}

theorem brakesMove_out (out : ¬ s.inRun = true) : brakesMove s = s.brakesFormed := by rw [brakesMove_eq, if_neg out]

/-- In RUN the hold is judged on the demands formed, and then the window. -/
theorem brakesMove_run (run : s.inRun = true) : ∃ b w : Bool, (brakesMove s).brk = { (Brk.judgeHold s.brakesFormed).brk with windowOpen := b }
    ∧ (brakesMove s).stc = { (Brk.judgeHold s.brakesFormed).stc with windowOpen := w }
    ∧ (brakesMove s).vda = (Brk.judgeHold s.brakesFormed).vda ∧ (brakesMove s).lnk = (Brk.judgeHold s.brakesFormed).lnk := by
  rw [brakesMove_eq, if_pos run]
  obtain ⟨b, w, brk, stc, vda, lnk, -⟩ := judgeWindow_beside (Brk.judgeHold s.brakesFormed)
  exact ⟨b, w, brk, stc, vda, lnk⟩

theorem brakesMove_evolves (s : State) : Evolves { s with now := max s.now (s.brk.lastUpdate + 10000) } (brakesMove s) :=
  ev_brkUpdate (ev_brk _ .refl)

theorem brakesFormed_hold (calm : s.brk.hold ≠ .ramping) : s.brakesFormed.brk.hold = s.brk.hold := by
  rw [brakesFormed_brk]
  exact (ramped_unramping fun all => calm all.2).1

theorem brakesFormed_out (out : ¬ s.inRun = true) : s.brakesFormed.brk.hold = s.brk.hold ∧ s.brakesFormed.brk.target = s.brk.target
    ∧ s.brakesFormed.brk.confirmed = s.brk.confirmed := by
  rw [brakesFormed_brk]
  exact ramped_unramping fun all => out all.1

/-! ### Out of the holds that are judged -/

theorem brakesMove_rests (run : s.inRun = true) (rests : s.brk.hold = .released ∨ s.brk.hold = .waitDrive) :
    (brakesMove s).brk.hold = s.brk.hold ∧ (brakesMove s).brk.target = s.brk.target ∧ (brakesMove s).brk.confirmed = s.brk.confirmed
      ∧ (brakesMove s).brk.confirmTimer = s.brk.confirmTimer ∧ (brakesMove s).brk.lossTimer = s.brk.lossTimer
      ∧ (brakesMove s).brk.unconfirmedPosted = s.brk.unconfirmedPosted := by
  obtain ⟨b, w, brk, -⟩ := brakesMove_run run
  have calm : s.brk.hold ≠ .ramping := by rcases rests with hold | hold <;> simp [hold]
  obtain ⟨hold, target, confirmed⟩ := ramped_unramping (s := s) fun all => calm all.2
  have stays : s.brakesFormed.brk.hold = .released ∨ s.brakesFormed.brk.hold = .waitDrive ∨ s.brakesFormed.brk.hold = .ramping := by
    rw [brakesFormed_hold calm]
    tauto
  rw [brk, judgeHold_rests stays, brakesFormed_brk]
  exact ⟨hold, target, confirmed, rfl, rfl, rfl⟩

theorem brakesMove_ramps (run : s.inRun = true) (hold : s.brk.hold = .ramping) :
    (brakesMove s).brk.hold = s.rampedHold ∧ (brakesMove s).brk.target = s.rampedTarget
      ∧ (brakesMove s).brk.confirmed = s.rampedConfirmed ∧ (brakesMove s).brk.unconfirmedPosted = s.brk.unconfirmedPosted
      ∧ (brakesMove s).lnk = s.lnk ∧ (brakesMove s).brk.base = s.driverDemand * 850 / 1000 := by
  obtain ⟨b, w, brk, -, -, lnk⟩ := brakesMove_run run
  have after : s.rampedHold = .released ∨ s.rampedHold = .ramping := by
    rw [State.rampedHold, if_pos ⟨run, hold⟩]
    split
    · exact .inl rfl
    · exact .inr rfl
  have stays : s.brakesFormed.brk.hold = .released ∨ s.brakesFormed.brk.hold = .waitDrive ∨ s.brakesFormed.brk.hold = .ramping := by
    rw [brakesFormed_brk]
    exact after.imp_right .inr
  rw [brk, lnk, judgeHold_rests stays, (brakesFormed_only s).2.2.2.1, brakesFormed_brk]
  exact ⟨rfl, rfl, rfl, rfl, rfl, rfl⟩

/-! ### In APPLYING -/

section
variable (run : s.inRun = true) (hold : s.brk.hold = .applying)
include run hold

omit run in
theorem applying_formed : s.brakesFormed.brk.hold = .applying ∧ s.brakesFormed.brk.target = s.brk.target
    ∧ s.brakesFormed.brk.confirmed = s.brk.confirmed := by
  rw [brakesFormed_brk, ← hold]
  exact ramped_unramping (by simp [hold])

theorem brakesMove_confirms (confirms : s.confirmsHold) : (brakesMove s).brk.hold = .held ∧ (brakesMove s).brk.confirmed = true
    ∧ (brakesMove s).brk.lossTimer = 0 ∧ (brakesMove s).brk.target = s.brk.target
    ∧ (brakesMove s).brk.unconfirmedPosted = s.brk.unconfirmedPosted ∧ (brakesMove s).lnk = s.lnk := by
  obtain ⟨b, w, brk, -, -, lnk⟩ := brakesMove_run run
  obtain ⟨formed, target, -⟩ := applying_formed hold
  obtain ⟨-, -, same, -⟩ := brakesFormed_judges (s := s) (by simp [hold])
  rw [brk, lnk, judgeHold_confirms formed (same.mpr confirms)]
  exact ⟨rfl, rfl, rfl, target, by rw [State.modBrk_brk, brakesFormed_brk], (brakesFormed_only s).2.2.2.1⟩

/-- The judgement that does not confirm the hold. -/
theorem brakesMove_watches (unconfirmed : ¬ s.confirmsHold) : ∃ u, (brakesMove s).brk.hold = (Brk.watchUnconfirmed u).brk.hold
    ∧ (brakesMove s).brk.target = (Brk.watchUnconfirmed u).brk.target ∧ (brakesMove s).brk.confirmed = (Brk.watchUnconfirmed u).brk.confirmed
    ∧ (brakesMove s).brk.confirmTimer = (Brk.watchUnconfirmed u).brk.confirmTimer
    ∧ (brakesMove s).brk.unconfirmed = (Brk.watchUnconfirmed u).brk.unconfirmed
    ∧ (brakesMove s).brk.unconfirmedPosted = (Brk.watchUnconfirmed u).brk.unconfirmedPosted
    ∧ (brakesMove s).lnk = (Brk.watchUnconfirmed u).lnk
    ∧ u.brk.hold = .applying ∧ u.brk.target = s.brk.target ∧ u.brk.confirmed = s.brk.confirmed
    ∧ u.brk.confirmTimer = (if s.holdBuilt = true then s.brk.confirmTimer + 10 else 0)
    ∧ u.brk.unconfirmed = s.brk.unconfirmed ∧ u.brk.unconfirmedPosted = s.brk.unconfirmedPosted ∧ u.lnk = s.lnk ∧ u.mot = s.mot := by
  obtain ⟨b, w, brk, -, -, lnk⟩ := brakesMove_run run
  obtain ⟨formed, target, confirmed⟩ := applying_formed hold
  obtain ⟨built, -, same, -⟩ := brakesFormed_judges (s := s) (by simp [hold])
  refine ⟨s.brakesFormed.modBrk fun b =>
      { b with confirmTimer := if s.brakesFormed.holdBuilt = true then b.confirmTimer + 10 else 0 }, ?_⟩
  rw [brk, lnk, judgeHold_watches formed (fun confirms => unconfirmed (same.mp confirms))]
  refine ⟨rfl, rfl, rfl, rfl, rfl, rfl, rfl, formed, target, confirmed, ?_, ?_, ?_, (brakesFormed_only s).2.2.2.1, (brakesFormed_only s).2.1⟩
  · simp only [State.modBrk_brk, built, brakesFormed_brk]
  · rw [State.modBrk_brk, brakesFormed_brk]
  · rw [State.modBrk_brk, brakesFormed_brk]

theorem brakesMove_applying (unconfirmed : ¬ s.confirmsHold) : (brakesMove s).brk.hold = .applying
    ∧ (brakesMove s).brk.target = s.brk.target ∧ (brakesMove s).brk.confirmed = s.brk.confirmed
    ∧ (brakesMove s).brk.confirmTimer = (if s.holdBuilt = true then s.brk.confirmTimer + 10 else 0)
    ∧ (s.brk.unconfirmedPosted = true → (brakesMove s).brk.unconfirmed = s.brk.unconfirmed
      ∧ (brakesMove s).brk.unconfirmedPosted = true ∧ (brakesMove s).lnk = s.lnk)
    ∧ (s.brk.unconfirmedPosted = false → s.brk.unconfirmed + 10 < 1000 → (brakesMove s).brk.unconfirmed = s.brk.unconfirmed + 10
      ∧ (brakesMove s).brk.unconfirmedPosted = false ∧ (brakesMove s).lnk = s.lnk)
    ∧ (s.brk.unconfirmedPosted = false → 1000 ≤ s.brk.unconfirmed + 10 → (brakesMove s).brk.unconfirmed = 1000
      ∧ (brakesMove s).brk.unconfirmedPosted = true
      ∧ (brakesMove s).lnk = (s.post (.holdUnconfirmed .timeout s.brk.target (s.analogValue 17) (s.analogValue 18))).lnk) := by
  obtain ⟨u, hold', target', confirmed', timer', watch', posted', lnk', holdU, targetU, confirmedU, timerU, watchU, postedU, lnkU, motU⟩ :=
    brakesMove_watches run hold unconfirmed
  rw [hold', target', confirmed', timer', watch', posted', lnk', ← targetU, ← confirmedU, ← timerU, ← watchU, ← postedU, ← lnkU, ← holdU]
  have reads (c : Fin 21) : u.analogValue c = s.analogValue c := by rw [State.analogValue, motU, State.analogValue]
  cases posted : u.brk.unconfirmedPosted with
  | true =>
    rw [watchUnconfirmed_posted posted]
    exact ⟨rfl, rfl, rfl, rfl, fun _ => ⟨rfl, posted, rfl⟩, fun not => absurd not (by simp), fun not => absurd not (by simp)⟩
  | false =>
    by_cases long : 1000 ≤ u.brk.unconfirmed + 10
    · rw [watchUnconfirmed_reports posted long]
      refine ⟨rfl, rfl, rfl, rfl, fun not => absurd not (by simp), fun _ short => absurd long (by omega), fun _ _ => ⟨rfl, rfl, ?_⟩⟩
      have report : (Brk.reportTimeout u).lnk =
          (u.post (.holdUnconfirmed .timeout u.brk.target (u.analogValue 17) (u.analogValue 18))).lnk := rfl
      rw [report, reads, reads]
      exact post_lnk_congr _ lnkU
    · rw [watchUnconfirmed_grows posted (by omega)]
      exact ⟨rfl, rfl, rfl, rfl, fun not => absurd not (by simp), fun _ _ => ⟨rfl, posted, rfl⟩, fun _ not => absurd not long⟩

end

/-! ### In HELD -/

section
variable (run : s.inRun = true) (hold : s.brk.hold = .held)
include run hold

omit run in
theorem held_formed : s.brakesFormed.brk.hold = .held ∧ s.brakesFormed.brk.target = s.brk.target
    ∧ s.brakesFormed.brk.confirmed = s.brk.confirmed := by
  rw [brakesFormed_brk, ← hold]
  exact ramped_unramping (by simp [hold])

theorem brakesMove_held (keeps : ¬ s.losesHold) : (brakesMove s).brk.hold = .held ∧ (brakesMove s).brk.target = s.brk.target
    ∧ (brakesMove s).brk.confirmed = s.brk.confirmed ∧ (brakesMove s).lnk = s.lnk
    ∧ (brakesMove s).brk.lossTimer = (if s.holdFallen = true then s.brk.lossTimer + 10 else 0)
    ∧ (brakesMove s).brk.unconfirmedPosted = s.brk.unconfirmedPosted := by
  obtain ⟨b, w, brk, -, -, lnk⟩ := brakesMove_run run
  obtain ⟨formed, target, confirmed⟩ := held_formed hold
  obtain ⟨-, fallen, -, same⟩ := brakesFormed_judges (s := s) (by simp [hold])
  rw [brk, lnk, judgeHold_keeps formed (fun loses => keeps (same.mp loses))]
  refine ⟨formed, target, confirmed, (brakesFormed_only s).2.2.2.1, ?_, ?_⟩
  · simp only [State.modBrk_brk, fallen, brakesFormed_brk]
  · rw [State.modBrk_brk, brakesFormed_brk]

theorem brakesMove_loses (loses : s.losesHold) : (brakesMove s).brk.hold = .applying ∧ (brakesMove s).brk.confirmed = false
    ∧ (brakesMove s).brk.target = s.lostTarget ∧ (brakesMove s).brk.confirmTimer = 0 ∧ (brakesMove s).brk.unconfirmed = 0
    ∧ (brakesMove s).brk.unconfirmedPosted = false ∧ (brakesMove s).flagged 3
    ∧ (∀ a, rd (brakesMove s).brk.axles a = (s.axleNow a).raised s.lostTarget a)
    ∧ ∀ a, (rd (brakesMove s).vda.channels (brakeChannel a)).command = (rd (brakesMove s).brk.axles a).demand := by
  obtain ⟨b, w, brk, -, vda, lnk⟩ := brakesMove_run run
  obtain ⟨formed, -⟩ := held_formed hold
  obtain ⟨-, -, -, same⟩ := brakesFormed_judges (s := s) (by simp [hold])
  have target := brakesFormed_lostTarget (s := s) (by simp [hold])
  have lost : Brk.judgeHold s.brakesFormed = _ := judgeHold_loses formed (same.mpr loses)
  let v := s.brakesFormed.modBrk fun b => { b with lossTimer := 100 }
  have targetV : v.lostTarget = s.lostTarget := target
  have axlesV (a : Fin 3) : rd v.brk.axles a = s.axleNow a := brakesFormed_axle s a
  obtain ⟨brk', vda', -, -, -, -, flagged⟩ := brkLose_after v
  have entered := enterApplying_brk v.lostTarget v
  have command := enterApplying_command v.lostTarget v
  have after : (brakesMove s).brk = { (Brk.enterApplying v.lostTarget v).brk with windowOpen := b } := by rw [brk, lost, brk']
  have notices : (brakesMove s).flagged 3 := by
    rw [State.flagged, lnk, lost]
    exact flagged
  have axles : (brakesMove s).brk.axles = (Brk.enterApplying v.lostTarget v).brk.axles := by rw [after]
  refine ⟨by rw [after, entered], by rw [after, entered], by rw [after, entered]; exact targetV, by rw [after, entered],
    by rw [after, entered], by rw [after, entered], notices, fun a => ?_, fun a => ?_⟩
  · rw [axles, entered]
    dsimp only
    rw [rd_mapF, axlesV, targetV]
  · rw [axles, vda, lost, vda']
    exact command a

end
end
end Sys2Proof.Machine
end

