-- ==== Sys2Proof/Proofs/HoldTimers.lean ====
section
/-! PROOF. The rows for one moment of a brake update -/

namespace Sys2Proof.Machine

section
variable {s : State}

/-- The brake update that comes loses the hold. -/
def State.holdLoses (s : State) : Prop := s.inRun = true ∧ s.brk.hold = .held ∧ s.losesHold

theorem brakesFormed_quiet (quiet : ¬ s.holdLoses) (run : s.inRun = true) :
    ¬ (s.brakesFormed.brk.hold = .held ∧ s.brakesFormed.losesHold) := by
  rintro ⟨hold, loses⟩
  have calm : s.brk.hold ≠ .ramping := by
    intro ramps
    rw [brakesFormed_brk] at hold
    dsimp only at hold
    rw [State.rampedHold, if_pos ⟨run, ramps⟩] at hold
    split at hold <;> exact absurd hold (by simp)
  rw [brakesFormed_hold calm] at hold
  obtain ⟨-, -, -, same⟩ := brakesFormed_judges calm
  exact quiet ⟨run, hold, same.mp loses⟩

/-- The demands that stand after an update that does not lose the hold. -/
theorem brakesMove_axles (quiet : ¬ s.holdLoses) (a : Fin 3) : rd (brakesMove s).brk.axles a = s.axleNow a
    ∧ (rd (brakesMove s).vda.channels (brakeChannel a)).command = s.demandNow a := by
  by_cases run : s.inRun = true
  · obtain ⟨b, w, brk, -, vda, -⟩ := brakesMove_run run
    obtain ⟨vda', axles, -⟩ := judgeHold_quiet (brakesFormed_quiet quiet run)
    have same : (brakesMove s).brk.axles = s.brakesFormed.brk.axles := by rw [brk]; exact axles
    rw [same, vda, vda']
    exact ⟨brakesFormed_axle s a, brakesFormed_command s a⟩
  · rw [brakesMove_out run]
    exact ⟨brakesFormed_axle s a, brakesFormed_command s a⟩

theorem brakesMove_beside (s : State) : (brakesMove s).ilt = s.ilt ∧ (brakesMove s).cfg = s.cfg ∧ (brakesMove s).mot = s.mot := by
  obtain ⟨cfg, mot, ilt, -⟩ := brakesFormed_only s
  have base := (brakesMove_evolves s).base
  refine ⟨?_, base.cfg, base.mot⟩
  rw [brakesMove_eq]
  split
  · obtain ⟨b, w, -, -, -, -, window, -⟩ := judgeWindow_beside (Brk.judgeHold s.brakesFormed)
    rw [window, ← ilt]
    by_cases lost : s.brakesFormed.brk.hold = .held ∧ s.brakesFormed.losesHold
    · rw [judgeHold_loses lost.1 lost.2]
      obtain ⟨-, -, -, same, -⟩ := brkLose_after (s.brakesFormed.modBrk fun b => { b with lossTimer := 100 })
      exact same
    · exact (judgeHold_quiet lost).2.2.2.2.2.1
  · exact ilt

/-- The departure window at an update in RUN (R125, R131). -/
theorem brakesMove_windows (run : s.inRun = true) :
    (s.windowShuts ∨ s.holdLoses → (brakesMove s).brk.windowOpen = false ∧ (brakesMove s).stc.windowOpen = false)
    ∧ (¬ s.windowShuts → ¬ s.holdLoses → (brakesMove s).brk.windowOpen = s.brk.windowOpen
      ∧ (brakesMove s).stc.windowOpen = s.stc.windowOpen) := by
  have moved : brakesMove s = Brk.judgeWindow (Brk.judgeHold s.brakesFormed) := by rw [brakesMove_eq, if_pos run]
  obtain ⟨-, mot, -, -, stc⟩ := brakesFormed_only s
  rw [moved]
  by_cases loses : s.holdLoses
  · refine ⟨fun _ => ?_, fun _ not => absurd loses not⟩
    obtain ⟨formed, -⟩ := held_formed loses.2.1
    obtain ⟨-, -, -, same⟩ := brakesFormed_judges (s := s) (by simp [loses.2.1])
    obtain ⟨brk, -, stc', -⟩ := brkLose_after (s.brakesFormed.modBrk fun b => { b with lossTimer := 100 })
    have shut : (Brk.judgeHold s.brakesFormed).brk.windowOpen = false ∧ (Brk.judgeHold s.brakesFormed).stc.windowOpen = false := by
      rw [judgeHold_loses formed (same.mpr loses.2.2), brk, stc', enterApplying_brk]
      exact ⟨rfl, rfl⟩
    rw [judgeWindow_stays fun shuts => by rw [State.windowShuts, shut.1] at shuts; exact absurd shuts.1 (by simp)]
    exact shut
  · obtain ⟨-, -, opened, ref, stc', -, -, mot'⟩ := judgeHold_quiet (brakesFormed_quiet loses run)
    have before : s.brakesFormed.brk.windowOpen = s.brk.windowOpen ∧ s.brakesFormed.brk.windowRef = s.brk.windowRef := by
      rw [brakesFormed_brk]
      exact ⟨rfl, rfl⟩
    have same : (Brk.judgeHold s.brakesFormed).windowShuts ↔ s.windowShuts := by
      rw [State.windowShuts, State.windowShuts, opened, ref, mot', mot, before.1, before.2]
    constructor
    · intro cause
      rw [judgeWindow_shuts (same.mpr (cause.resolve_right loses))]
      exact ⟨rfl, rfl⟩
    · intro stays _
      rw [judgeWindow_stays fun shuts => stays (same.mp shuts), opened, stc', before.1, stc]
      exact ⟨rfl, rfl⟩

theorem brakesMove_out_keeps (out : ¬ s.inRun = true) : (brakesMove s).brk.hold = s.brk.hold ∧ (brakesMove s).brk.target = s.brk.target
    ∧ (brakesMove s).brk.confirmed = s.brk.confirmed ∧ (brakesMove s).brk.confirmTimer = s.brk.confirmTimer
    ∧ (brakesMove s).brk.lossTimer = s.brk.lossTimer ∧ (brakesMove s).brk.unconfirmed = s.brk.unconfirmed
    ∧ (brakesMove s).brk.unconfirmedPosted = s.brk.unconfirmedPosted
    ∧ (brakesMove s).brk.windowOpen = s.brk.windowOpen ∧ (brakesMove s).lnk = s.lnk := by
  obtain ⟨hold, target, confirmed⟩ := brakesFormed_out out
  rw [brakesMove_out out]
  refine ⟨hold, target, confirmed, ?_, ?_, ?_, ?_, ?_, (brakesFormed_only s).2.2.2.1⟩
  · rw [brakesFormed_brk]
  · rw [brakesFormed_brk]
  · rw [brakesFormed_brk]
  · rw [brakesFormed_brk]
  · rw [brakesFormed_brk]

/-- The demand of A2 and A3 is at least H after a lost hold, and the demands are commanded. -/
theorem brakesMove_lost_demand (loses : s.holdLoses) (a : Fin 3) :
    (rd (brakesMove s).brk.axles a).demand = (if a = 0 then s.demandNow a else max (s.demandNow a) s.lostTarget)
      ∧ (rd (brakesMove s).brk.axles a).demandAtUpdate = s.demandNow a := by
  obtain ⟨-, -, -, -, -, -, -, axles, -⟩ := brakesMove_loses loses.1 loses.2.1 loses.2.2
  rw [axles]
  exact ⟨rfl, rfl⟩

theorem brakesMove_command (s : State) (a : Fin 3) :
    (rd (brakesMove s).vda.channels (brakeChannel a)).command = (rd (brakesMove s).brk.axles a).demand := by
  by_cases loses : s.holdLoses
  · obtain ⟨-, -, -, -, -, -, -, -, command⟩ := brakesMove_loses loses.1 loses.2.1 loses.2.2
    exact command a
  · obtain ⟨axle, command⟩ := brakesMove_axles loses a
    rw [axle, command]
    rfl

/-! ## The rows for one moment of a brake update (R124, R125, R128) -/

theorem exec_brakeUpdate (s : State) : exec .brakeUpdate s = .next (State.finish (brakesMove s)) := rfl

theorem exec_of_turn {before after : HoldState} {i : Instr} (row : ∀ s, exec i s = .next (if holdTurns before after s then State.finish (brakesMove s) else s))
    {turns : Prop} (iff : (s.brk.hold = before ∧ (brakesMove s).brk.hold = after) ↔ turns) :
    (turns → exec i s = .next (State.finish (brakesMove s))) ∧ (¬ turns → exec i s = .next s) := by
  rw [row]
  constructor
  · intro turn
    have is : holdTurns before after s = true := decide_eq_true (iff.mpr turn)
    rw [if_pos is]
  · intro stays
    rw [if_neg (by rw [holdTurns, decide_eq_true_eq, iff]; exact stays)]

theorem turns_held : (s.brk.hold = .applying ∧ (brakesMove s).brk.hold = .held) ↔ (s.inRun = true ∧ s.brk.hold = .applying ∧ s.confirmsHold) := by
  constructor
  · rintro ⟨hold, held⟩
    by_cases run : s.inRun = true
    · refine ⟨run, hold, by_contra fun unconfirmed => ?_⟩
      rw [(brakesMove_applying run hold unconfirmed).1] at held
      exact absurd held (by simp)
    · rw [(brakesMove_out_keeps run).1, hold] at held
      exact absurd held (by simp)
  · rintro ⟨run, hold, confirms⟩
    exact ⟨hold, (brakesMove_confirms run hold confirms).1⟩

theorem turns_applying : (s.brk.hold = .held ∧ (brakesMove s).brk.hold = .applying) ↔ s.holdLoses := by
  constructor
  · rintro ⟨hold, applying⟩
    by_cases run : s.inRun = true
    · refine ⟨run, hold, by_contra fun keeps => ?_⟩
      rw [(brakesMove_held run hold keeps).1] at applying
      exact absurd applying (by simp)
    · rw [(brakesMove_out_keeps run).1, hold] at applying
      exact absurd applying (by simp)
  · rintro ⟨run, hold, loses⟩
    exact ⟨hold, (brakesMove_loses run hold loses).1⟩

theorem turns_released : (s.brk.hold = .ramping ∧ (brakesMove s).brk.hold = .released)
    ↔ (s.inRun = true ∧ s.brk.hold = .ramping ∧ s.brk.target ≤ 6) := by
  constructor
  · rintro ⟨hold, released⟩
    by_cases run : s.inRun = true
    · refine ⟨run, hold, by_contra fun high => ?_⟩
      rw [(brakesMove_ramps run hold).1, (ramped_steps run hold (by omega)).1] at released
      exact absurd released (by simp)
    · rw [(brakesMove_out_keeps run).1, hold] at released
      exact absurd released (by simp)
  · rintro ⟨run, hold, low⟩
    exact ⟨hold, by rw [(brakesMove_ramps run hold).1, (ramped_ends run hold low).1]⟩

theorem watchEnds_iff : s.watchEnds = true ↔ (s.inRun = true ∧ s.brk.hold = .applying ∧ ¬ s.confirmsHold
    ∧ s.brk.unconfirmedPosted = false ∧ 1000 ≤ s.brk.unconfirmed + 10) := by
  rw [State.watchEnds, Bool.and_eq_true, Bool.not_eq_true']
  constructor
  · rintro ⟨unposted, posted⟩
    have changes (same : (brakesMove s).brk.unconfirmedPosted = s.brk.unconfirmedPosted) : False := by
      rw [same, unposted] at posted
      exact absurd posted (by simp)
    by_cases run : s.inRun = true
    · cases hold : s.brk.hold with
      | released => exact (changes (brakesMove_rests run (.inl hold)).2.2.2.2.2).elim
      | waitDrive => exact (changes (brakesMove_rests run (.inr hold)).2.2.2.2.2).elim
      | ramping => exact (changes (brakesMove_ramps run hold).2.2.2.1).elim
      | held =>
        by_cases loses : s.losesHold
        · rw [(brakesMove_loses run hold loses).2.2.2.2.2.1] at posted
          exact absurd posted (by simp)
        · exact (changes (brakesMove_held run hold loses).2.2.2.2.2).elim
      | applying =>
        by_cases confirms : s.confirmsHold
        · exact (changes (brakesMove_confirms run hold confirms).2.2.2.2.1).elim
        · refine ⟨run, rfl, confirms, unposted, by_contra fun short => ?_⟩
          obtain ⟨-, -, -, -, -, grows, -⟩ := brakesMove_applying run hold confirms
          rw [(grows unposted (by omega)).2.1] at posted
          exact absurd posted (by simp)
    · exact (changes (brakesMove_out_keeps run).2.2.2.2.2.2.1).elim
  · rintro ⟨run, hold, unconfirmed, unposted, long⟩
    obtain ⟨-, -, -, -, -, -, reports⟩ := brakesMove_applying run hold unconfirmed
    exact ⟨unposted, (reports unposted long).2.1⟩

end

/-- Settles O54. -/
theorem holdTimersRunOut : Obligations.HoldTimersRunOut := by
  unfold Obligations.HoldTimersRunOut
  rintro s u built fallen rfl rfl rfl
  simp only [← holdBuilt_iff, ← holdFallen_iff, ← inRun_iff]
  have applies : (s.inRun = true ∧ s.brk.hold = .applying ∧ s.holdBuilt = true ∧ 100 ≤ s.brk.confirmTimer + 10)
      ↔ (s.inRun = true ∧ s.brk.hold = .applying ∧ s.confirmsHold) := Iff.rfl
  obtain ⟨confirmed, unconfirmed⟩ := exec_of_turn (i := .holdConfirmed) (fun _ => rfl) (turns_held (s := s))
  obtain ⟨lost, kept⟩ := exec_of_turn (i := .holdLost) (fun _ => rfl) (turns_applying (s := s))
  obtain ⟨ended, ramping⟩ := exec_of_turn (i := .holdRampEnd) (fun _ => rfl) (turns_released (s := s))
  have timeout : exec .holdUnconfirmedTimeout s = .next (if s.watchEnds then State.finish (brakesMove s) else s) := rfl
  refine ⟨exec_brakeUpdate s, (brakesMove_beside s).1, (brakesMove_evolves s).base, fun confirms => ?_, unconfirmed, fun reports => ?_,
    fun quiet => ?_, fun loses => ?_, kept, fun ends => ?_, ramping⟩
  · obtain ⟨run, hold, is⟩ := applies.mp confirms
    obtain ⟨held, sure, timer, -⟩ := brakesMove_confirms run hold is
    exact ⟨confirmed confirms, held, sure, timer⟩
  · obtain ⟨run, hold, not, unposted, long⟩ := reports
    have unconfirmed' : ¬ s.confirmsHold := fun is => not ⟨run, hold, is⟩
    obtain ⟨applying, -, -, -, -, -, posts⟩ := brakesMove_applying run hold unconfirmed'
    obtain ⟨watch, posted, lnk⟩ := posts unposted long
    exact ⟨by rw [timeout, if_pos (watchEnds_iff.mpr ⟨run, hold, unconfirmed', unposted, long⟩)], applying, watch, posted, lnk⟩
  · rw [timeout, if_neg]
    intro ends
    obtain ⟨run, hold, not, unposted, long⟩ := watchEnds_iff.mp ends
    exact quiet ⟨run, hold, fun is => not is.2.2, unposted, long⟩
  · have loses' : s.holdLoses := loses
    obtain ⟨run, hold, is⟩ := loses'
    obtain ⟨applying, unsure, target, timer, watch, -, flagged, -, command⟩ := brakesMove_loses run hold is
    refine ⟨lost loses, applying, unsure, target, timer, watch, ((brakesMove_windows run).1 (.inr loses)).1, flagged, fun a rear => ?_⟩
    rw [command, (brakesMove_lost_demand loses a).1, if_neg rear, target]
    exact ⟨le_max_right _ _, rfl⟩
  · obtain ⟨run, hold, low⟩ := ends
    obtain ⟨released, target, unsure⟩ := ramped_ends run hold low
    obtain ⟨hold', target', confirmed', -, lnk, base⟩ := brakesMove_ramps run hold
    refine ⟨ended ⟨run, hold, low⟩, hold'.trans released, target'.trans target, confirmed'.trans unsure, lnk, fun a => ?_⟩
    have quiet : ¬ s.holdLoses := fun loses => by
      have held := loses.2.1
      rw [hold] at held
      exact absurd held (by simp)
    obtain ⟨axle, command⟩ := brakesMove_axles quiet a
    rw [axle, command, base]
    refine ⟨?_, rfl⟩
    show s.demandNow a = _
    rw [State.demandNow, released]
    rfl

end Sys2Proof.Machine
end

