-- ==== Sys2Proof/Proofs/ContributorSets.lean ====
section
/-! PROOF. What BRK makes of the contributors (R120 to R130) -/

namespace Sys2Proof.Machine

/-! ## What BRK makes of the contributors (R120, R121, R123, R126, R127, R129, R130) -/

section
variable {s : State}

theorem brkJudge_out (out : ¬ s.inRun = true) : Brk.judge s = s := if_neg out

theorem brkJudge_none (run : s.inRun = true) (none : s.contributorMax = .none) : Brk.judge s =
    match s.brk.hold with
    | .applying => Brk.enterWait s
    | .held => Brk.enterWait s
    | .waitDrive => Brk.leaveWait s
    | .released => s
    | .ramping => s := by
  unfold Brk.judge
  rw [if_pos run, none]
  cases s.brk.hold <;> rfl

theorem brkJudge_some {h : Nat} (run : s.inRun = true) (max : s.contributorMax = some h) : Brk.judge s =
    match s.brk.hold with
    | .released => Brk.enterApplying h s
    | .applying => Brk.moveTarget h s
    | .held => Brk.moveTarget h s
    | .waitDrive => Brk.reapply h s
    | .ramping => Brk.reapply h s := by
  unfold Brk.judge
  rw [if_pos run, max]
  cases s.brk.hold <;> rfl

theorem contributorMax_of {h : Nat} (some : ∃ e ∈ s.live, e.HoldsIn s.mot.motion ∧ e.pressure s.cfg.settings.doorHold = h)
    (bound : ∀ e ∈ s.live, e.HoldsIn s.mot.motion → e.pressure s.cfg.settings.doorHold ≤ h) : s.contributorMax = .some h := by
  obtain ⟨e, there, holds, is⟩ := some
  cases max : s.contributorMax with
  | none => exact absurd holds (State.contributorMax_none.mp max e there)
  | some m =>
    obtain ⟨above, f, there', holds', is'⟩ := State.contributorMax_some max
    have low : m ≤ h := is' ▸ bound f there' holds'
    have high : h ≤ m := is ▸ above e there holds
    rw [le_antisymm low high]

/-! ### With no contributor -/

/-- The departure window stands as it was. -/
def State.KeepsWindow (s u : State) : Prop := u.brk.windowOpen = s.brk.windowOpen ∧ u.brk.windowRef = s.brk.windowRef
  ∧ u.stc.windowOpen = s.stc.windowOpen

/-- From the first state to the second the hold ramps. -/
def State.Ramps (s u : State) : Prop := u.brk.hold = .ramping ∧ u.brk.confirmed = false ∧ u.brk.target = s.brk.target
  ∧ (s.brk.doorSeen = true → u.brk.windowOpen = true ∧ u.brk.windowRef = s.mot.counter ∧ u.stc.windowOpen = true)
  ∧ (s.brk.doorSeen = false → s.KeepsWindow u)

theorem enterRamping_ramps (s : State) : s.Ramps (Brk.enterRamping s) ∧ (Brk.enterRamping s).brk.axles = s.brk.axles
    ∧ (Brk.enterRamping s).vda = s.vda ∧ (Brk.enterRamping s).brk.confirmTimer = s.brk.confirmTimer
    ∧ (Brk.enterRamping s).brk.lossTimer = s.brk.lossTimer := by
  let w := s.modBrk fun b => { b with hold := .ramping, confirmed := false }
  cases seen : s.brk.doorSeen with
  | true =>
    have is : Brk.enterRamping s = Brk.setWindow true (w.modBrk fun b => { b with windowRef := s.mot.counter }) := if_pos seen
    rw [is]
    exact ⟨⟨rfl, rfl, rfl, fun _ => ⟨rfl, rfl, rfl⟩, fun not => absurd (seen.symm.trans not) (by simp)⟩, rfl, rfl, rfl, rfl⟩
  | false =>
    have is : Brk.enterRamping s = w := if_neg fun is => absurd (seen.symm.trans is) (by simp)
    rw [is]
    exact ⟨⟨rfl, rfl, rfl, fun is => absurd (seen.symm.trans is) (by simp), fun _ => ⟨rfl, rfl, rfl⟩⟩, rfl, rfl, rfl, rfl⟩

/-- DRIVE_REQ is asserted, or the bus rolls. -/
def State.departs (s : State) : Prop := s.mot.driveReq.debounced = true ∨ s.mot.motion = .rolling

theorem leaveWait_waits (hold : s.brk.hold = .waitDrive) : (s.departs → Brk.leaveWait s = Brk.enterRamping s)
    ∧ (¬ s.departs → Brk.leaveWait s = s) := ⟨fun departs => if_pos ⟨hold, departs⟩, fun stays => if_neg fun both => stays both.2⟩

theorem enterWait_cases (s : State) : let u := Brk.enterWait s
    u.brk.axles = s.brk.axles ∧ u.vda = s.vda ∧ u.brk.confirmTimer = 0 ∧ u.brk.lossTimer = 0 ∧ (s.departs → s.Ramps u)
      ∧ (¬ s.departs → u.brk.hold = .waitDrive ∧ u.brk.target = s.brk.target ∧ u.brk.confirmed = s.brk.confirmed ∧ s.KeepsWindow u) := by
  let w := s.modBrk fun b => { b with hold := .waitDrive, confirmTimer := 0, lossTimer := 0 }
  obtain ⟨leaves, waits⟩ := leaveWait_waits (s := w) rfl
  have is : Brk.enterWait s = Brk.leaveWait w := rfl
  dsimp only
  rw [is]
  by_cases departs : s.departs
  · rw [leaves departs]
    obtain ⟨ramps, axles, vda, confirm, loss⟩ := enterRamping_ramps w
    exact ⟨axles, vda, confirm, loss, fun _ => ramps, fun not => absurd departs not⟩
  · rw [waits departs]
    exact ⟨rfl, rfl, rfl, rfl, fun is => absurd is departs, fun _ => ⟨rfl, rfl, rfl, rfl, rfl, rfl⟩⟩

/-! ### With a contributor -/

/-- A2 and A3 are raised to H, and the demands are commanded. -/
def State.RaisedTo (h : Nat) (s u : State) : Prop := ∀ a, a ≠ 0 → (rd u.brk.axles a).demand = max (rd s.brk.axles a).demand h
  ∧ (rd u.vda.channels (brakeChannel a)).command = (rd u.brk.axles a).demand

theorem enterApplying_raises (h : Nat) (s : State) : s.RaisedTo h (Brk.enterApplying h s) := fun a rear => by
  refine ⟨?_, enterApplying_command h s a⟩
  rw [enterApplying_brk]
  dsimp only
  rw [rd_mapF]
  exact if_neg rear

theorem moveTarget_cases (h : Nat) (s : State) : let u := Brk.moveTarget h s
    u.brk.target = h ∧ u.brk.hold = s.brk.hold ∧ u.brk.confirmed = s.brk.confirmed ∧ u.brk.doorSeen = s.brk.doorSeen ∧ s.KeepsWindow u
      ∧ (h = s.brk.target → u = s) ∧ (h ≠ s.brk.target → u.brk.confirmTimer = 0 ∧ u.brk.lossTimer = 0)
      ∧ (s.brk.target < h → s.RaisedTo h u) ∧ (h ≤ s.brk.target → u.brk.axles = s.brk.axles ∧ u.vda = s.vda) := by
  dsimp only
  by_cases same : h = s.brk.target
  · have is : Brk.moveTarget h s = s := if_pos same
    rw [is]
    exact ⟨same.symm, rfl, rfl, rfl, ⟨rfl, rfl, rfl⟩, fun _ => rfl, fun not => absurd same not, fun low => by omega, fun _ => ⟨rfl, rfl⟩⟩
  · let v := s.modBrk fun b => { b with target := h, confirmTimer := 0, lossTimer := 0 }
    by_cases low : s.brk.target < h
    · have is : Brk.moveTarget h s = Brk.raiseFloor v := (if_neg same).trans (if_pos low)
      have brk : (Brk.raiseFloor v).brk =
          { s.brk with target := h, confirmTimer := 0, lossTimer := 0, axles := mapF s.brk.axles (AxleBrake.raised h) } := raiseFloor_brk v
      have stc : (Brk.raiseFloor v).stc = s.stc := (raiseFloor_only v).stc
      have command := raiseFloor_command v
      rw [is, State.KeepsWindow, State.RaisedTo, stc]
      refine ⟨by rw [brk], by rw [brk], by rw [brk], by rw [brk], ⟨by rw [brk], by rw [brk], rfl⟩, fun not => absurd not same,
        fun _ => ⟨by rw [brk], by rw [brk]⟩, fun _ a rear => ⟨?_, command a⟩, fun high => by omega⟩
      rw [brk]
      dsimp only
      rw [rd_mapF]
      exact if_neg rear
    · have is : Brk.moveTarget h s = v := (if_neg same).trans (if_neg low)
      rw [is]
      exact ⟨rfl, rfl, rfl, rfl, ⟨rfl, rfl, rfl⟩, fun not => absurd not same, fun _ => ⟨rfl, rfl⟩, fun high => absurd high low,
        fun _ => ⟨rfl, rfl⟩⟩

/-- The pressures stand at 90 % of a target. -/
def State.standsAt (h : Nat) (s : State) : Prop := ∀ c : Fin 21, c = 17 ∨ c = 18 → (rd s.mot.analog c).validity ≠ .faulty
  ∧ 9 * (h : Int) ≤ 10 * (rd s.mot.analog c).value

/-- The hold applied with H = h, and HELD when it is passed on. -/
structure State.Applied (h : Nat) (s u : State) (held : Prop) : Prop where
  target : u.brk.target = h
  timers : u.brk.confirmTimer = 0 ∧ u.brk.unconfirmed = 0 ∧ u.brk.unconfirmedPosted = false
  window : u.brk.windowOpen = false ∧ u.stc.windowOpen = false
  raised : s.RaisedTo h u
  doorSeen : u.brk.doorSeen = s.live.any Entry.partnerDoor
  passed : held → u.brk.hold = .held ∧ u.brk.confirmed = true ∧ u.brk.lossTimer = 0
  applies : ¬ held → u.brk.hold = .applying ∧ u.brk.confirmed = false

theorem enterApplying_applied (h : Nat) (s : State) : s.Applied h (Brk.enterApplying h s) False := by
  have brk := enterApplying_brk h s
  obtain ⟨stc, -⟩ := enterApplying_beside h s
  exact ⟨by rw [brk], ⟨by rw [brk], by rw [brk], by rw [brk]⟩, ⟨by rw [brk], by rw [stc]⟩, enterApplying_raises h s, by rw [brk], False.elim,
    fun _ => ⟨by rw [brk], by rw [brk]⟩⟩

theorem reapply_applied (h : Nat) (s : State) : s.Applied h (Brk.reapply h s) (s.standsAt h) := by
  have applied := enterApplying_applied h s
  obtain ⟨-, -, -, -, mot⟩ := enterApplying_beside h s
  have built : (Brk.enterApplying h s).holdBuilt = true ↔ s.standsAt h := by rw [holdBuilt_iff, mot, applied.target, State.standsAt]
  by_cases stands : s.standsAt h
  · have is : Brk.reapply h s = Brk.enterHeld (Brk.enterApplying h s) := if_pos (built.mpr stands)
    rw [is]
    exact ⟨applied.target, applied.timers, applied.window, applied.raised, applied.doorSeen, fun _ => ⟨rfl, rfl, rfl⟩,
      fun not => absurd stands not⟩
  · have is : Brk.reapply h s = Brk.enterApplying h s := if_neg fun is => stands (built.mp is)
    rw [is]
    exact ⟨applied.target, applied.timers, applied.window, applied.raised, applied.doorSeen, fun is => absurd is stands,
      fun _ => applied.applies id⟩

theorem partnerDoor_any : s.live.any Entry.partnerDoor = true ↔ ∃ e ∈ s.live, e.owner ≠ 15 ∧ (e.kind = .doorOpen ∨ e.kind = .rampOut) := by
  simp only [List.any_eq_true, partnerDoor_iff]

end
end Sys2Proof.Machine
end

