-- ==== Sys2Proof/Proofs/DemandsKept.lean ====
section
/-! PROOF. The demands from an update to the end of its event -/

namespace Sys2Proof.Machine

/-! ## The demands at the end of an event -/

/-- The command of an axle's brake channel. -/
def State.brakeCommand (s : State) (a : Fin 3) : Nat := (rd s.vda.channels (brakeChannel a)).command

section
variable {s x : State} (a : Fin 3)

theorem settle_brakeCommand (s : State) : (Crn.settle s).brakeCommand a = s.brakeCommand a :=
  commandCorners_other _ (brakeChannel a) (by simp [brakeChannel])

theorem modCrn_brakeCommand (f : Crn → Crn) (s : State) : (s.modCrn f).brakeCommand a = s.brakeCommand a := rfl
theorem modRlu_brakeCommand (f : Rlu → Rlu) (s : State) : (s.modRlu f).brakeCommand a = s.brakeCommand a := rfl

theorem change_brakeCommand (f : Fin 6 → Corner → Corner) (s : State) : (Crn.change f s).brakeCommand a = s.brakeCommand a :=
  (settle_brakeCommand a _).trans (modCrn_brakeCommand a _ s)

theorem takeOffsets_brakeCommand (ride : Nat) (kneel : Vector Nat 6) (s : State) :
    (Rlu.takeOffsets ride kneel s).brakeCommand a = s.brakeCommand a :=
  (modRlu_brakeCommand a _ _).trans ((modRlu_brakeCommand a _ _).trans ((change_brakeCommand a _ _).trans (modRlu_brakeCommand a _ s)))

theorem rluFromTable_brakeCommand (s : State) : (Rlu.fromTable s).brakeCommand a = s.brakeCommand a := by
  unfold Rlu.fromTable
  dsimp only
  split
  · rfl
  · exact (takeOffsets_brakeCommand a _ _ _).trans (modRlu_brakeCommand a _ s)

theorem startCentring_brakeCommand (s : State) : (Stc.startCentring s).brakeCommand a = s.brakeCommand a := by
  have other : lockChannel ≠ brakeChannel a := by revert a; decide
  unfold Stc.startCentring
  split
  · simp only [State.brakeCommand, Stc.commandLock, rd_command, if_neg other]
    rfl
  · rfl

/-- A change of the table reaches the brake channels through BRK alone. -/
theorem handOff_brakeCommand (e : Entry) (s : State) : (handOff .changed e s).brakeCommand a
    = (if e.kind.holds then Brk.judge s else s).brakeCommand a := by
  have centring : ∀ {p : Prop} [Decidable p] (u : State), (if p then Stc.startCentring u else u).brakeCommand a = u.brakeCommand a :=
    fun u => by split <;> simp [startCentring_brakeCommand]
  have corners : ∀ {p : Prop} [Decidable p] (u : State), (if p then Crn.fromTable u else u).brakeCommand a = u.brakeCommand a := fun u => by
    split
    · exact settle_brakeCommand a _
    · rfl
  have rides : ∀ {p : Prop} [Decidable p] (u : State), (if p then Rlu.fromTable u else u).brakeCommand a = u.brakeCommand a := fun u => by
    split
    · exact rluFromTable_brakeCommand a u
    · rfl
  unfold handOff
  rw [centring, corners, rides]
  rfl

end

/-- Every demand is the one of the last update, or was raised to H after it. -/
structure State.Demanded (x s : State) : Prop where
  lastUpdate : s.brk.lastUpdate = x.brk.lastUpdate
  driver : s.brk.driver = x.brk.driver
  base : s.brk.base = x.brk.base
  axle : ∀ a, { rd s.brk.axles a with demand := 0 } = { rd x.brk.axles a with demand := 0 }
  command : ∀ a, s.brakeCommand a = (rd s.brk.axles a).demand
  demand : (∀ a, (rd s.brk.axles a).demand = (rd s.brk.axles a).demandAtUpdate)
    ∨ ((∀ a, (rd s.brk.axles a).demand = (if a = 0 then (rd s.brk.axles a).demandAtUpdate
        else max (rd s.brk.axles a).demandAtUpdate s.brk.target))
      ∧ (s.inRun = true → ∀ m, s.contributorMax = some m → s.brk.target = m ∧ (s.brk.hold = .applying ∨ s.brk.hold = .held)))

section
variable {s t x : State}

theorem State.Demanded.of_same (h : x.Demanded s) (brk : t.brk = s.brk) (command : ∀ a, t.brakeCommand a = s.brakeCommand a)
    (run : t.inRun = s.inRun) (max : t.contributorMax = s.contributorMax) : x.Demanded t := by
  refine ⟨?_, ?_, ?_, ?_, fun a => ?_, ?_⟩
  · rw [brk]; exact h.lastUpdate
  · rw [brk]; exact h.driver
  · rw [brk]; exact h.base
  · rw [brk]; exact h.axle
  · rw [brk, command]; exact h.command a
  · rw [brk, run, max]; exact h.demand

theorem AxleBrake.raised_beside (n : Nat) (a : Fin 3) (y : AxleBrake) : { y.raised n a with demand := 0 } = { y with demand := 0 } := rfl

/-- The hold applied at an event keeps the demands of the update, with A2 and A3 raised. -/
theorem State.Demanded.applied {m : Nat} (h : x.Demanded s) (max : s.contributorMax = some m)
    (unsettled : ¬ (s.brk.target = m ∧ (s.brk.hold = .applying ∨ s.brk.hold = .held))) (run : s.inRun = true)
    (brk : t.brk.lastUpdate = s.brk.lastUpdate ∧ t.brk.driver = s.brk.driver ∧ t.brk.base = s.brk.base)
    (axles : t.brk.axles = mapF s.brk.axles (AxleBrake.raised m) ∨ (t.brk.axles = s.brk.axles))
    (command : ∀ a, t.brakeCommand a = (rd t.brk.axles a).demand) (target : t.brk.target = m)
    (hold : t.brk.hold = .applying ∨ t.brk.hold = .held) (max' : t.contributorMax = s.contributorMax) : x.Demanded t := by
  have fresh : ∀ a, (rd s.brk.axles a).demand = (rd s.brk.axles a).demandAtUpdate :=
    h.demand.resolve_right fun settled => unsettled (settled.2 run m max)
  obtain ⟨lastUpdate, driver, base⟩ := brk
  refine ⟨lastUpdate.trans h.lastUpdate, driver.trans h.driver, base.trans h.base, fun a => ?_, command, ?_⟩
  · rw [← h.axle a]
    rcases axles with raised | same
    · rw [raised, rd_mapF, AxleBrake.raised_beside]
    · rw [same]
  · rcases axles with raised | same
    · refine .inr ⟨fun a => ?_, fun _ k max'' => ?_⟩
      · rw [raised, rd_mapF, target]
        simp only [AxleBrake.raised, fresh]
      · rw [max', max] at max''
        rw [target, Option.some.inj max'']
        exact ⟨rfl, hold⟩
    · rw [same]
      exact .inl fresh

/-- The update's inputs stand. -/
def SameInputs (s t : State) : Prop := t.brk.lastUpdate = s.brk.lastUpdate ∧ t.brk.driver = s.brk.driver ∧ t.brk.base = s.brk.base

theorem enterApplying_inputs (m : Nat) (s : State) : SameInputs s (Brk.enterApplying m s) := by
  rw [SameInputs, enterApplying_brk]
  exact ⟨rfl, rfl, rfl⟩

theorem reapply_inputs (m : Nat) (s : State) : SameInputs s (Brk.reapply m s) := by
  have inputs := enterApplying_inputs m s
  unfold Brk.reapply
  dsimp only
  split
  · exact inputs
  · exact inputs

theorem moveTarget_inputs (m : Nat) (s : State) : SameInputs s (Brk.moveTarget m s) := by
  unfold Brk.moveTarget
  split
  · exact ⟨rfl, rfl, rfl⟩
  · dsimp only
    split
    · rw [SameInputs, raiseFloor_brk]
      exact ⟨rfl, rfl, rfl⟩
    · exact ⟨rfl, rfl, rfl⟩

theorem enterRamping_inputs (s : State) : SameInputs s (Brk.enterRamping s) := by
  unfold Brk.enterRamping
  dsimp only
  split
  · exact ⟨rfl, rfl, rfl⟩
  · exact ⟨rfl, rfl, rfl⟩

theorem leaveWait_inputs (s : State) : SameInputs s (Brk.leaveWait s) := by
  unfold Brk.leaveWait
  split
  · exact enterRamping_inputs s
  · exact ⟨rfl, rfl, rfl⟩

theorem brkJudge_inputs (s : State) : SameInputs s (Brk.judge s) := by
  unfold Brk.judge
  split
  · split
    · exact enterApplying_inputs _ s
    · exact moveTarget_inputs _ s
    · exact moveTarget_inputs _ s
    · exact reapply_inputs _ s
    · exact reapply_inputs _ s
    · exact leaveWait_inputs _
    · exact leaveWait_inputs _
    · exact leaveWait_inputs s
    · exact ⟨rfl, rfl, rfl⟩
    · exact ⟨rfl, rfl, rfl⟩
  · exact ⟨rfl, rfl, rfl⟩

/-- Without a contributor the demands and H stand. -/
theorem brkJudge_none_stands (run : s.inRun = true) (none : s.contributorMax = .none) : (Brk.judge s).brk.axles = s.brk.axles
    ∧ (Brk.judge s).vda = s.vda ∧ (Brk.judge s).brk.target = s.brk.target := by
  have waits : let u := Brk.enterWait s
      u.brk.axles = s.brk.axles ∧ u.vda = s.vda ∧ u.brk.target = s.brk.target := by
    obtain ⟨axles, vda, -, -, ramps, stays⟩ := enterWait_cases s
    refine ⟨axles, vda, ?_⟩
    by_cases departs : s.departs
    · exact (ramps departs).2.2.1
    · exact (stays departs).2.1
  rw [brkJudge_none run none]
  cases hold : s.brk.hold with
  | released => exact ⟨rfl, rfl, rfl⟩
  | ramping => exact ⟨rfl, rfl, rfl⟩
  | applying => exact waits
  | held => exact waits
  | waitDrive =>
    obtain ⟨leaves, stays⟩ := leaveWait_waits hold
    by_cases departs : s.departs
    · obtain ⟨ramps, axles, vda, -⟩ := enterRamping_ramps s
      dsimp only
      rw [leaves departs]
      exact ⟨axles, vda, ramps.2.2.1⟩
    · dsimp only
      rw [stays departs]
      exact ⟨rfl, rfl, rfl⟩

/-- With contributors the hold stands at their maximum, and the demands are raised or stand. -/
theorem brkJudge_some_applies {m : Nat} (run : s.inRun = true) (max : s.contributorMax = some m)
    (unsettled : ¬ (s.brk.target = m ∧ (s.brk.hold = .applying ∨ s.brk.hold = .held))) :
    ((Brk.judge s).brk.axles = mapF s.brk.axles (AxleBrake.raised m) ∧ (∀ a, (Brk.judge s).brakeCommand a = (rd (Brk.judge s).brk.axles a).demand)
      ∨ ((Brk.judge s).brk.axles = s.brk.axles ∧ (Brk.judge s).vda = s.vda))
    ∧ (Brk.judge s).brk.target = m ∧ ((Brk.judge s).brk.hold = .applying ∨ (Brk.judge s).brk.hold = .held) := by
  have moves (hold : s.brk.hold = .applying ∨ s.brk.hold = .held) : let u := Brk.moveTarget m s
      (u.brk.axles = mapF s.brk.axles (AxleBrake.raised m) ∧ (∀ a, u.brakeCommand a = (rd u.brk.axles a).demand)
        ∨ (u.brk.axles = s.brk.axles ∧ u.vda = s.vda)) ∧ u.brk.target = m ∧ (u.brk.hold = .applying ∨ u.brk.hold = .held) := by
    obtain ⟨target, hold', -, -, -, -, -, -, stands⟩ := moveTarget_cases m s
    refine ⟨?_, target, by rw [hold']; exact hold⟩
    by_cases low : s.brk.target < m
    · have is : Brk.moveTarget m s = Brk.raiseFloor (s.modBrk fun b => { b with target := m, confirmTimer := 0, lossTimer := 0 }) :=
        (if_neg (by omega)).trans (if_pos low)
      rw [is]
      exact .inl ⟨by rw [raiseFloor_brk]; rfl, raiseFloor_command _⟩
    · exact .inr (stands (by omega))
  have applies : let u := Brk.enterApplying m s
      (u.brk.axles = mapF s.brk.axles (AxleBrake.raised m) ∧ (∀ a, u.brakeCommand a = (rd u.brk.axles a).demand)
        ∨ (u.brk.axles = s.brk.axles ∧ u.vda = s.vda)) ∧ u.brk.target = m ∧ (u.brk.hold = .applying ∨ u.brk.hold = .held) := by
    have brk := enterApplying_brk m s
    exact ⟨.inl ⟨by rw [brk], enterApplying_command m s⟩, by rw [brk], .inl (by rw [brk])⟩
  have passes : let u := Brk.reapply m s
      (u.brk.axles = mapF s.brk.axles (AxleBrake.raised m) ∧ (∀ a, u.brakeCommand a = (rd u.brk.axles a).demand)
        ∨ (u.brk.axles = s.brk.axles ∧ u.vda = s.vda)) ∧ u.brk.target = m ∧ (u.brk.hold = .applying ∨ u.brk.hold = .held) := by
    obtain ⟨axles, target, hold⟩ := applies
    unfold Brk.reapply
    dsimp only
    split
    · exact ⟨axles, target, .inr rfl⟩
    · exact ⟨axles, target, hold⟩
  rw [brkJudge_some run max]
  cases hold : s.brk.hold with
  | released => exact applies
  | applying => exact moves (.inl hold)
  | held => exact moves (.inr hold)
  | waitDrive => exact passes
  | ramping => exact passes

theorem brkJudge_demanded (h : x.Demanded s) : x.Demanded (Brk.judge s) := by
  by_cases run : s.inRun = true
  case neg =>
    rw [brkJudge_out run]
    exact h
  have blocks := brkJudge_blocks s
  have max' : (Brk.judge s).contributorMax = s.contributorMax := State.contributorMax_congr blocks.live blocks.mot blocks.cfg
  obtain ⟨lastUpdate, driver, base⟩ := brkJudge_inputs s
  cases max : s.contributorMax with
  | none =>
    obtain ⟨axles, vda, target⟩ := brkJudge_none_stands run max
    refine ⟨lastUpdate.trans h.lastUpdate, driver.trans h.driver, base.trans h.base, fun a => ?_, fun a => ?_, ?_⟩
    · rw [axles]
      exact h.axle a
    · rw [State.brakeCommand, vda, axles]
      exact h.command a
    · rw [axles, target]
      refine h.demand.imp_right fun settled => ⟨settled.1, fun _ m some => ?_⟩
      rw [max', max] at some
      exact absurd some (by simp)
  | some m =>
    by_cases settled : s.brk.target = m ∧ (s.brk.hold = .applying ∨ s.brk.hold = .held)
    · have same : Brk.judge s = s := by
        rw [brkJudge_some run max]
        obtain ⟨target, hold | hold⟩ := settled
        · rw [hold]
          exact if_pos target.symm
        · rw [hold]
          exact if_pos target.symm
      rw [same]
      exact h
    · obtain ⟨axles, target, hold⟩ := brkJudge_some_applies run max settled
      refine h.applied max settled run ⟨lastUpdate, driver, base⟩ (axles.imp And.left And.left) (fun a => ?_) target hold max'
      rcases axles with ⟨-, command⟩ | ⟨same, vda⟩
      · exact command a
      · rw [State.brakeCommand, vda, same]
        exact h.command a

theorem handOff_demanded (e : Entry) (h : x.Demanded s) : x.Demanded (handOff .changed e s) := by
  have judged : x.Demanded (if e.kind.holds then Brk.judge s else s) := by
    split
    · exact brkJudge_demanded h
    · exact h
  have blocks := handOff_blocks .changed e s
  have same : (if e.kind.holds then Brk.judge s else s).inRun = s.inRun
      ∧ (if e.kind.holds then Brk.judge s else s).contributorMax = s.contributorMax := by
    split
    · have blocks := brkJudge_blocks s
      exact ⟨blocks.inRun, State.contributorMax_congr blocks.live blocks.mot blocks.cfg⟩
    · exact ⟨rfl, rfl⟩
  refine judged.of_same ?_ (fun a => handOff_brakeCommand a e s) (by rw [blocks.inRun, same.1])
    (by rw [State.contributorMax_congr blocks.live blocks.mot blocks.cfg, same.2])
  rw [handOff_brk_after]
  simp only [reduceCtorEq, if_false]

theorem retabled_contributorMax (s : State) : s.retabled.contributorMax = s.contributorMax := by
  have pressure : ∀ (b : Bool) (n : Nat) (e : Entry), (e.evaluated b).holdPressure n = e.holdPressure n := fun _ _ _ => rfl
  obtain ⟨mot, cfg, -⟩ := retabled_beside s
  unfold State.contributorMax State.contributors
  rw [retabled_live, List.filter_map]
  simp only [Function.comp_def, contributes_evaluated, List.foldl_map, pressure, List.isEmpty_map, mot, cfg]

theorem evaluateOnce_demanded (h : x.Demanded s) : x.Demanded (evaluateOnce s) := by
  have handed (l : List Entry) (u : State) (h : x.Demanded u) : x.Demanded (l.foldl (fun s e => handOff .changed e s) u) := by
    induction l generalizing u with
    | nil => exact h
    | cons e l ih => exact ih _ (handOff_demanded e h)
  obtain ⟨-, cfg, -, brk, -⟩ := retabled_beside s
  have vda : s.retabled.vda = s.vda := State.modIlt_vda _ _
  unfold evaluateOnce
  split
  · exact h
  · exact handed _ s.retabled (h.of_same brk (fun a => by rw [State.brakeCommand, vda, State.brakeCommand]) (by rw [State.inRun, cfg, State.inRun]) (retabled_contributorMax s))

theorem finish_demanded (h : x.Demanded s) : x.Demanded (State.finish s) := by
  have settled : x.Demanded (reevaluate s) := by
    unfold reevaluate
    split
    · exact evaluateOnce_demanded (evaluateOnce_demanded (evaluateOnce_demanded h))
    · exact h
  have judged (u : State) (h : x.Demanded u) : x.Demanded (Dsv.judge u) := h.of_same rfl (fun _ => rfl) rfl rfl
  exact judged _ settled

end
end Sys2Proof.Machine
end

