-- ==== Sys2Proof/Proofs/BrakeStatement.lean ====
section
/-! PROOF. A brake update (R116 to R138) -/

namespace Sys2Proof.Machine

/-! ## The end of a brake update -/

section
variable {s m : State}

theorem judgeHold_inputs (m : State) : SameInputs m (Brk.judgeHold m) := by
  cases hold : m.brk.hold with
  | released => rw [judgeHold_rests (.inl hold)]; exact ⟨rfl, rfl, rfl⟩
  | waitDrive => rw [judgeHold_rests (.inr (.inl hold))]; exact ⟨rfl, rfl, rfl⟩
  | ramping => rw [judgeHold_rests (.inr (.inr hold))]; exact ⟨rfl, rfl, rfl⟩
  | held =>
    by_cases loses : m.losesHold
    · obtain ⟨brk, -⟩ := brkLose_after (m.modBrk fun b => { b with lossTimer := 100 })
      rw [judgeHold_loses hold loses, SameInputs, brk]
      exact enterApplying_inputs _ (m.modBrk fun b => { b with lossTimer := 100 })
    · rw [judgeHold_keeps hold loses]
      exact ⟨rfl, rfl, rfl⟩
  | applying =>
    by_cases confirms : m.confirmsHold
    · rw [judgeHold_confirms hold confirms]
      exact ⟨rfl, rfl, rfl⟩
    · have watched (u : State) : SameInputs u (Brk.watchUnconfirmed u) := by
        unfold Brk.watchUnconfirmed
        split
        · exact ⟨rfl, rfl, rfl⟩
        · split
          · exact ⟨rfl, rfl, rfl⟩
          · exact ⟨rfl, rfl, rfl⟩
      rw [judgeHold_watches hold confirms]
      exact watched _

theorem brakesMove_inputs (s : State) : (brakesMove s).brk.lastUpdate = max s.now (s.brk.lastUpdate + 10000)
    ∧ (brakesMove s).brk.driver = s.driverDemand ∧ (brakesMove s).brk.base = s.driverDemand * 850 / 1000 := by
  have formed : s.brakesFormed.brk.lastUpdate = max s.now (s.brk.lastUpdate + 10000) ∧ s.brakesFormed.brk.driver = s.driverDemand
      ∧ s.brakesFormed.brk.base = s.driverDemand * 850 / 1000 := by
    rw [brakesFormed_brk]
    exact ⟨rfl, rfl, rfl⟩
  by_cases run : s.inRun = true
  · obtain ⟨b, w, brk, -⟩ := brakesMove_run run
    obtain ⟨lastUpdate, driver, base⟩ := judgeHold_inputs s.brakesFormed
    rw [brk]
    exact ⟨lastUpdate.trans formed.1, driver.trans formed.2.1, base.trans formed.2.2⟩
  · rw [brakesMove_out run]
    exact formed

/-- The demands of an update, as they stand when it ends. -/
theorem brakesMove_axle (s : State) (a : Fin 3) : { rd (brakesMove s).brk.axles a with demand := 0 } = { s.axleNow a with demand := 0 } := by
  by_cases loses : s.holdLoses
  · obtain ⟨-, -, -, -, -, -, -, axles, -⟩ := brakesMove_loses loses.1 loses.2.1 loses.2.2
    rw [axles, AxleBrake.raised_beside]
  · rw [(brakesMove_axles loses a).1]

theorem brakesMove_demanded (s : State) : (brakesMove s).Demanded (brakesMove s) := by
  refine ⟨rfl, rfl, rfl, fun _ => rfl, brakesMove_command s, ?_⟩
  by_cases loses : s.holdLoses
  · obtain ⟨applying, -, target, -⟩ := brakesMove_loses loses.1 loses.2.1 loses.2.2
    obtain ⟨ilt, cfg, mot⟩ := brakesMove_beside s
    refine .inr ⟨fun a => ?_, fun _ m max => ?_⟩
    · obtain ⟨demand, update⟩ := brakesMove_lost_demand loses a
      rw [demand, update, target]
    · rw [State.contributorMax_congr (State.live_congr ilt) mot cfg] at max
      exact ⟨by rw [target, State.lostTarget, max]; rfl, .inl applying⟩
  · refine .inl fun a => ?_
    rw [(brakesMove_axles loses a).1]
    rfl

/-- What the statement says of an axle's demand. -/
theorem finish_axle (s : State) (a : Fin 3) : let t := State.finish (brakesMove s)
    (rd t.brk.axles a).loadShare = s.loadSharesNow.map (fun v => rd v a) ∧ (rd t.brk.axles a).blended = some (s.shareNow a)
      ∧ (rd t.brk.axles a).demandAtUpdate = s.demandNow a ∧ (rd t.vda.channels (brakeChannel a)).command = (rd t.brk.axles a).demand
      ∧ ((rd t.brk.axles a).demand = (rd t.brk.axles a).demandAtUpdate
        ∨ (a ≠ 0 ∧ (rd t.brk.axles a).demand = max (rd t.brk.axles a).demandAtUpdate t.brk.target))
      ∧ (rd t.brk.axles a).measured = s.analogValue ⟨a.val + 16, by omega⟩ := by
  have ended := finish_demanded (brakesMove_demanded s)
  have axle := (ended.axle a).trans (brakesMove_axle s a)
  refine ⟨congrArg AxleBrake.loadShare axle, congrArg AxleBrake.blended axle, congrArg AxleBrake.demandAtUpdate axle, ended.command a, ?_,
    congrArg AxleBrake.measured axle⟩
  rcases ended.demand with fresh | ⟨raised, -⟩
  · exact .inl (fresh a)
  · have is := raised a
    by_cases front : a = 0
    · rw [if_pos front] at is
      exact .inl is
    · rw [if_neg front] at is
      exact .inr ⟨front, is⟩

theorem demandNow_eq (s : State) (a : Fin 3) : s.demandNow a = (if a = 0 ∨ s.rampedHold = .released
    then min 850 (s.driverDemand * 850 / 1000 * s.shareNow a / rd s.cfg.settings.share a)
    else max s.rampedTarget (min 850 (s.driverDemand * 850 / 1000 * s.shareNow a / rd s.cfg.settings.share a))) := by
  rw [State.demandNow, flooredDemand]
  by_cases low : a = 0 ∨ s.rampedHold = .released
  · rw [if_pos low, if_neg]
    · rfl
    · rintro ⟨floors, rear⟩
      simp only [HoldState.floors, decide_eq_true_eq] at floors
      exact low.elim rear floors
  · rw [if_neg low, if_pos, max_comm]
    · rfl
    · exact ⟨by simpa [HoldState.floors] using fun released => low (.inr released), fun front => low (.inl front)⟩

theorem driverDemand_eq (s : State) : s.driverDemand = (if (rd s.mot.analog 20).validity = .faulty then 0
    else (max 0 (min 1000 (rd s.mot.analog 20).value)).toNat) := by
  simp only [State.driverDemand, State.analogFaulty, decide_eq_true_eq]
  rfl

theorem ramped_pair {hold : HoldState} {target : Nat} (pair : (hold, target) = (if s.cfg.device = .run ∧ s.brk.hold = .ramping then
      (if s.brk.target ≤ 6 then (.released, 0) else (.ramping, s.brk.target - 6)) else (s.brk.hold, s.brk.target))) :
    hold = s.rampedHold ∧ target = s.rampedTarget := by
  rw [State.rampedHold, State.rampedTarget]
  simp only [inRun_iff]
  split at pair
  · next ramps =>
    rw [if_pos ramps, if_pos ramps]
    split at pair
    · next low =>
      rw [if_pos low, if_pos low]
      exact Prod.mk.inj pair
    · next high =>
      rw [if_neg high, if_neg high]
      exact Prod.mk.inj pair
  · next calm =>
    rw [if_neg calm, if_neg calm]
    exact Prod.mk.inj pair

/-- The share of an axle at an update, by the loads. -/
theorem shareNow_cases (s : State) (a : Fin 3) :
    (¬ s.SharesFormed → s.loadSharesNow.map (fun v => rd v a) = none ∧ s.shareNow a = rd s.cfg.settings.share a)
    ∧ (s.SharesFormed → ∃ own : Nat, s.loadSharesNow.map (fun v => rd v a) = some own
      ∧ own = loadPart s.axleLoads a + (if largestAxle s.axleLoads = a then loadRest s.axleLoads else 0)
      ∧ (s.cfg.settings.weight = 63 → s.shareNow a = own)
      ∧ (s.cfg.settings.weight ≠ 63 →
        s.shareNow a = (s.cfg.settings.weight * own + (64 - s.cfg.settings.weight) * rd s.cfg.settings.share a + 32) / 64)) := by
  constructor
  · intro unformed
    rw [State.shareNow, loadSharesNow_unformed unformed]
    exact ⟨rfl, rfl⟩
  · intro formed
    rw [State.shareNow, loadSharesNow_formed formed]
    exact ⟨_, rfl, loadShares_share _ a, fun all => if_pos all, fun part => if_neg part⟩

end

/-- What BRK makes of a table without a contributor. -/
theorem brkJudge_without {s : State} (run : s.inRun = true) (none : ∀ e ∈ s.live, ¬ e.HoldsIn s.mot.motion) : let u := Brk.judge s
    u.brk.axles = s.brk.axles ∧ u.vda = s.vda ∧ (s.brk.hold = .released ∨ s.brk.hold = .ramping → u = s)
      ∧ (s.brk.hold = .waitDrive → (s.departs → s.Ramps u) ∧ (¬ s.departs → u = s))
      ∧ (s.brk.hold = .applying ∨ s.brk.hold = .held → u.brk.confirmTimer = 0 ∧ u.brk.lossTimer = 0 ∧ (s.departs → s.Ramps u)
        ∧ (¬ s.departs → u.brk.hold = .waitDrive ∧ u.brk.target = s.brk.target ∧ u.brk.confirmed = s.brk.confirmed ∧ s.KeepsWindow u)) := by
  have max := State.contributorMax_none.mpr none
  obtain ⟨axles, vda, -⟩ := brkJudge_none_stands run max
  have judged := brkJudge_none run max
  refine ⟨axles, vda, fun hold => ?_, fun hold => ?_, fun hold => ?_⟩
  · rw [judged]
    rcases hold with hold | hold <;> rw [hold]
  · rw [judged, hold]
    obtain ⟨leaves, stays⟩ := leaveWait_waits hold
    refine ⟨fun departs => ?_, stays⟩
    dsimp only
    rw [leaves departs]
    exact (enterRamping_ramps s).1
  · have waits : Brk.judge s = Brk.enterWait s := by
      rw [judged]
      rcases hold with hold | hold <;> rw [hold]
    obtain ⟨-, -, confirm, loss, ramps, stays⟩ := enterWait_cases s
    rw [waits]
    exact ⟨confirm, loss, ramps, stays⟩

/-- What BRK makes of a table whose contributors' largest pressure is h. -/
theorem brkJudge_with {s : State} {h : Nat} (run : s.inRun = true) (max : s.contributorMax = some h) : let u := Brk.judge s
    u.brk.target = h
      ∧ (s.brk.hold = .applying ∨ s.brk.hold = .held → u.brk.hold = s.brk.hold ∧ u.brk.confirmed = s.brk.confirmed
        ∧ u.brk.doorSeen = s.brk.doorSeen ∧ s.KeepsWindow u ∧ (h = s.brk.target → u = s)
        ∧ (h ≠ s.brk.target → u.brk.confirmTimer = 0 ∧ u.brk.lossTimer = 0) ∧ (s.brk.target < h → s.RaisedTo h u)
        ∧ (h ≤ s.brk.target → u.brk.axles = s.brk.axles ∧ u.vda = s.vda))
      ∧ (s.brk.hold = .released ∨ s.brk.hold = .waitDrive ∨ s.brk.hold = .ramping →
        u.brk.confirmTimer = 0 ∧ u.brk.unconfirmed = 0 ∧ u.brk.unconfirmedPosted = false ∧ u.brk.windowOpen = false
        ∧ u.stc.windowOpen = false ∧ s.RaisedTo h u
        ∧ (u.brk.doorSeen = true ↔ ∃ e ∈ s.live, e.owner ≠ 15 ∧ (e.kind = .doorOpen ∨ e.kind = .rampOut))
        ∧ (s.brk.hold ≠ .released → s.standsAt h → u.brk.hold = .held ∧ u.brk.confirmed = true ∧ u.brk.lossTimer = 0)
        ∧ (s.brk.hold = .released ∨ ¬ s.standsAt h → u.brk.hold = .applying ∧ u.brk.confirmed = false)) := by
  have judged := brkJudge_some run max
  dsimp only
  by_cases holds : s.brk.hold = .applying ∨ s.brk.hold = .held
  · have moves : Brk.judge s = Brk.moveTarget h s := by
      rw [judged]
      rcases holds with hold | hold <;> rw [hold]
    obtain ⟨target, hold, confirmed, doorSeen, window, rests, timers, raises, stands⟩ := moveTarget_cases h s
    rw [moves]
    refine ⟨target, fun _ => ⟨hold, confirmed, doorSeen, window, rests, timers, raises, stands⟩, fun other => ?_⟩
    rcases holds with is | is <;> rw [is] at other <;> simp at other
  · have applied : ∃ held : Prop, s.Applied h (Brk.judge s) held ∧ (s.brk.hold = .released → ¬ held)
        ∧ (s.brk.hold ≠ .released → (held ↔ s.standsAt h)) := by
      rw [judged]
      cases hold : s.brk.hold with
      | released => exact ⟨False, enterApplying_applied h s, fun _ => id, fun not => absurd rfl not⟩
      | waitDrive => exact ⟨_, reapply_applied h s, fun not => absurd not (by simp), fun _ => Iff.rfl⟩
      | ramping => exact ⟨_, reapply_applied h s, fun not => absurd not (by simp), fun _ => Iff.rfl⟩
      | applying => exact absurd (.inl hold) holds
      | held => exact absurd (.inr hold) holds
    obtain ⟨held, applied, unheld, stands⟩ := applied
    refine ⟨applied.target, fun is => absurd is holds, fun _ => ⟨applied.timers.1, applied.timers.2.1, applied.timers.2.2, applied.window.1,
      applied.window.2, applied.raised, ?_, fun out at' => applied.passed ((stands out).mpr at'), fun cause => applied.applies ?_⟩⟩
    · rw [applied.doorSeen]
      exact partnerDoor_any
    · by_cases released : s.brk.hold = .released
      · exact unheld released
      · exact fun is => cause.resolve_left released ((stands released).mp is)

/-- What an update in RUN makes of the hold. -/
theorem brakesMove_inRun {s : State} (run : s.inRun = true) : let u := brakesMove s
    (s.brk.hold = .released ∨ s.brk.hold = .waitDrive → u.brk.hold = s.brk.hold ∧ u.brk.target = s.brk.target
        ∧ u.brk.confirmed = s.brk.confirmed ∧ u.brk.confirmTimer = s.brk.confirmTimer ∧ u.brk.lossTimer = s.brk.lossTimer)
      ∧ (s.brk.hold = .ramping → s.brk.target ≤ 6 → u.brk.hold = .released ∧ u.brk.target = 0 ∧ u.brk.confirmed = false)
      ∧ (s.brk.hold = .ramping → 6 < s.brk.target → u.brk.hold = .ramping ∧ u.brk.target = s.brk.target - 6)
      ∧ (s.brk.hold = .applying → u.brk.target = s.brk.target
        ∧ (s.confirmsHold → u.brk.hold = .held ∧ u.brk.confirmed = true ∧ u.brk.lossTimer = 0 ∧ u.lnk = s.lnk)
        ∧ (¬ s.confirmsHold → u.brk.hold = .applying ∧ u.brk.confirmed = s.brk.confirmed
          ∧ (s.holdBuilt = true → u.brk.confirmTimer = s.brk.confirmTimer + 10) ∧ (¬ s.holdBuilt = true → u.brk.confirmTimer = 0)
          ∧ (s.brk.unconfirmedPosted = true → u.brk.unconfirmed = s.brk.unconfirmed ∧ u.brk.unconfirmedPosted = true ∧ u.lnk = s.lnk)
          ∧ (s.brk.unconfirmedPosted = false → s.brk.unconfirmed + 10 < 1000 →
            u.brk.unconfirmed = s.brk.unconfirmed + 10 ∧ u.brk.unconfirmedPosted = false ∧ u.lnk = s.lnk)
          ∧ (s.brk.unconfirmedPosted = false → 1000 ≤ s.brk.unconfirmed + 10 →
            u.brk.unconfirmed = 1000 ∧ u.brk.unconfirmedPosted = true
            ∧ u.lnk = (s.post (.holdUnconfirmed .timeout s.brk.target (s.analogValue 17) (s.analogValue 18))).lnk)))
      ∧ (s.brk.hold = .held →
        (¬ s.losesHold → u.brk.hold = .held ∧ u.brk.target = s.brk.target ∧ u.brk.confirmed = s.brk.confirmed ∧ u.lnk = s.lnk
          ∧ (s.holdFallen = true → u.brk.lossTimer = s.brk.lossTimer + 10) ∧ (¬ s.holdFallen = true → u.brk.lossTimer = 0))
        ∧ (s.losesHold → u.brk.hold = .applying ∧ u.brk.confirmed = false ∧ u.brk.target = s.contributorMax.getD s.brk.target
          ∧ u.brk.confirmTimer = 0 ∧ u.brk.unconfirmed = 0 ∧ u.brk.unconfirmedPosted = false ∧ u.brk.windowOpen = false
          ∧ u.stc.windowOpen = false ∧ u.flagged 3))
      ∧ (s.windowShuts → u.brk.windowOpen = false ∧ u.stc.windowOpen = false)
      ∧ (¬ s.windowShuts → ¬ (s.brk.hold = .held ∧ s.losesHold) → u.brk.windowOpen = s.brk.windowOpen
        ∧ u.stc.windowOpen = s.stc.windowOpen) := by
  obtain ⟨shut, stays⟩ := brakesMove_windows run
  refine ⟨fun hold => ?_, fun hold low => ?_, fun hold high => ?_, fun hold => ⟨?_, fun confirms => ?_, fun unconfirmed => ?_⟩,
    fun hold => ⟨fun keeps => ?_, fun loses => ?_⟩, fun shuts => shut (.inl shuts),
    fun opened quiet => stays opened fun lost => quiet ⟨lost.2.1, lost.2.2⟩⟩
  · obtain ⟨hold', target, confirmed, timer, loss, -⟩ := brakesMove_rests run hold
    exact ⟨hold', target, confirmed, timer, loss⟩
  · obtain ⟨hold', target, confirmed, -⟩ := brakesMove_ramps run hold
    rw [hold', target, confirmed]
    exact ramped_ends run hold low
  · obtain ⟨hold', target, -⟩ := brakesMove_ramps run hold
    rw [hold', target]
    exact ramped_steps run hold high
  · by_cases confirms : s.confirmsHold
    · exact (brakesMove_confirms run hold confirms).2.2.2.1
    · exact (brakesMove_applying run hold confirms).2.1
  · obtain ⟨held, sure, loss, -, -, lnk⟩ := brakesMove_confirms run hold confirms
    exact ⟨held, sure, loss, lnk⟩
  · obtain ⟨applying, -, confirmed, timer, posted, grows, reports⟩ := brakesMove_applying run hold unconfirmed
    exact ⟨applying, confirmed, fun built => by rw [timer, if_pos built], fun not => by rw [timer, if_neg not], posted, grows, reports⟩
  · obtain ⟨held, target, confirmed, lnk, loss, -⟩ := brakesMove_held run hold keeps
    exact ⟨held, target, confirmed, lnk, fun fallen => by rw [loss, if_pos fallen], fun not => by rw [loss, if_neg not]⟩
  · obtain ⟨applying, unsure, target, timer, watch, posted, flagged, -⟩ := brakesMove_loses run hold loses
    obtain ⟨window, window'⟩ := shut (.inr ⟨run, hold, loses⟩)
    exact ⟨applying, unsure, target, timer, watch, posted, window, window', flagged⟩

/-- Settles O53. -/
theorem brakeUpdateForms : Obligations.BrakeUpdateForms := by
  unfold Obligations.BrakeUpdateForms
  refine ⟨fun s driver base hold target driver' base' pair => ?_, ?_, ?_, ?_⟩
  · obtain ⟨rfl, rfl⟩ := ramped_pair pair
    rw [← driverDemand_eq] at driver'
    subst driver' base'
    have ended := finish_demanded (brakesMove_demanded s)
    have same : SameBase { s with now := max s.now (s.brk.lastUpdate + 10000) } (State.finish (brakesMove s)) :=
      (ev_finish (brakesMove_evolves s)).base
    obtain ⟨lastUpdate, driver, base⟩ := brakesMove_inputs s
    refine ⟨State.finish (brakesMove s), exec_brakeUpdate s, same, ?_, ended.driver.trans driver, ended.base.trans base, ?_, ?_⟩
    · rw [same.now]
      exact ended.lastUpdate.trans lastUpdate
    · intro load total part formed largest a
      have isFormed : formed ↔ s.SharesFormed := Iff.rfl
      have isLargest : largest a ↔ largestAxle s.axleLoads = a := by
        rw [largestAxle_iff]
        simp only [rd_axleLoads]
        exact Iff.rfl
      have isPart (b : Fin 3) : part b = loadPart s.axleLoads b := by
        simp only [loadPart, rd_axleLoads]
        rfl
      obtain ⟨loadShare, blended, update, command, demand, measured⟩ := finish_axle s a
      obtain ⟨unformed, shares⟩ := shareNow_cases s a
      refine ⟨s.shareNow a, rd s.cfg.settings.share a, rfl, blended, fun not => ?_, fun is => ?_, ?_, command, demand, measured⟩
      · rw [loadShare]
        exact unformed (fun is => not (isFormed.mpr is))
      · obtain ⟨own, some, value, full, mixed⟩ := shares (isFormed.mp is)
        refine ⟨own, loadShare.trans some, fun most => ?_, fun not => ?_, full, mixed⟩
        · rw [value, if_pos (isLargest.mp most), isPart, isPart, isPart, isPart]
          rfl
        · rw [value, if_neg fun most => not (isLargest.mpr most), isPart, Nat.add_zero]
      · rw [update, demandNow_eq]
    · intro x y z one two three
      obtain ⟨zero', -⟩ := finish_axle s 0
      obtain ⟨one', -⟩ := finish_axle s 1
      obtain ⟨two', -⟩ := finish_axle s 2
      rw [zero'] at one
      rw [one'] at two
      rw [two'] at three
      by_cases formed : s.SharesFormed
      · rw [loadSharesNow_formed formed] at one two three
        rw [← Option.some.inj one, ← Option.some.inj two, ← Option.some.inj three]
        exact loadShares_sum _
      · rw [loadSharesNow_unformed formed] at one
        exact absurd one (by simp)
  · rintro s u built fallen rfl rfl rfl
    simp only [← holdBuilt_iff, ← holdFallen_iff]
    obtain ⟨ilt, cfg, mot⟩ := brakesMove_beside s
    refine ⟨exec_brakeUpdate s, ilt, cfg, mot, fun a => ⟨brakesMove_command s a, fun run hold lost rear => ?_, fun quiet => ?_⟩,
      fun out => ?_, fun run => ?_⟩
    · obtain ⟨demand, update⟩ := brakesMove_lost_demand ⟨inRun_iff.mpr run, hold, lost⟩ a
      obtain ⟨-, -, target, -⟩ := brakesMove_loses (inRun_iff.mpr run) hold lost
      rw [demand, update, if_neg rear, target]
    · by_cases lost : s.holdLoses
      · obtain ⟨demand, update⟩ := brakesMove_lost_demand lost a
        have front : a = 0 := by_contra fun rear => quiet ⟨inRun_iff.mp lost.1, lost.2.1, lost.2.2, rear⟩
        rw [demand, update, if_pos front]
      · rw [(brakesMove_axles lost a).1]
        rfl
    · obtain ⟨hold, target, confirmed, timer, loss, watch, -, window, lnk⟩ := brakesMove_out_keeps fun run => out (inRun_iff.mp run)
      exact ⟨hold, target, confirmed, timer, loss, watch, window, lnk⟩
    · exact brakesMove_inRun (inRun_iff.mpr run)
  · rintro s u rfl out
    exact brkJudge_out fun run => out (inRun_iff.mp run)
  · rintro s u rfl run
    intro contributes pressure departs keeps ramps
    have run' := inRun_iff.mpr run
    have blocks := brkJudge_blocks s
    refine ⟨(ev_brkJudge .refl).base, blocks.ilt, blocks.lnk, brk_judge_holdsFit s, brkJudge_without run', fun h some bound => ?_⟩
    exact brkJudge_with run' (contributorMax_of some bound)

end Sys2Proof.Machine
end

