-- ==== Sys2Proof/Proofs/CornerSettling.lean ====
section
/-! PROOF. What a settling leaves of a corner (R90 to R92) -/

namespace Sys2Proof.Machine

/-! ## What a settling leaves of a corner (R90 to R92) -/

/-- The second record is the first, or the first as it is granted from FILL_WAIT. -/
def Corner.Settled (b a : Corner) : Prop := a = b ∨ (b.state = .fillWait ∧ a = b.enter .filling)

theorem Corner.Settled.refl (b : Corner) : b.Settled b := .inl rfl

section
variable {a b : Corner}

theorem Corner.Settled.eq (h : b.Settled a) (acts : b.state ≠ .fillWait) : a = b := h.resolve_right fun granted => acts granted.1

theorem Corner.Settled.reasons (h : b.Settled a) : a.reasons = b.reasons := by
  rcases h with rfl | ⟨-, rfl⟩
  · rfl
  · rfl

theorem Corner.Settled.beside (h : b.Settled a) : a.measured = b.measured ∧ a.target = b.target ∧ a.load = b.load
    ∧ a.loadValid = b.loadValid ∧ a.lastUpdate = b.lastUpdate ∧ a.fault = b.fault := by
  rcases h with rfl | ⟨-, rfl⟩
  · exact ⟨rfl, rfl, rfl, rfl, rfl, rfl⟩
  · exact ⟨rfl, rfl, rfl, rfl, rfl, rfl⟩

end

/-- Between the grants of one settling: the queue waits in the first record, and each corner is settled from it. -/
structure Crn.Granting (x y : Crn) : Prop where
  waits : ∀ c ∈ y.queue, (rd x.corners c).state = .fillWait
  corners : ∀ c, (rd x.corners c).Settled (rd y.corners c)

theorem grantOne_granting {x y : Crn} (h : x.Granting y) : x.Granting y.grantOne := by
  unfold Crn.grantOne
  split
  · exact h
  · next c rest queue =>
    split
    · refine ⟨fun i there => h.waits i (by rw [queue]; exact List.mem_cons_of_mem _ there), fun i => ?_⟩
      dsimp only
      rw [rd_upd]
      by_cases same : c = i
      · subst same
        rw [if_pos rfl]
        have waits := h.waits c (by rw [queue]; exact List.mem_cons_self)
        rcases h.corners c with is | ⟨-, is⟩
        · rw [is]
          exact .inr ⟨waits, rfl⟩
        · rw [is]
          exact .inr ⟨waits, rfl⟩
      · rw [if_neg same]
        exact h.corners i
    · exact h

theorem settle_granting (s : State) : s.crn.Granting (Crn.settle s).crn := by
  have start : s.crn.Granting s.crn.leaveQueue := by
    refine ⟨fun c there => ?_, fun c => .refl _⟩
    simp only [Crn.leaveQueue, List.mem_filter, decide_eq_true_eq] at there
    exact there.2
  rw [settle_crn]
  exact grantOne_granting (grantOne_granting (grantOne_granting start))

theorem settle_settled (s : State) (c : Fin 6) : (rd s.crn.corners c).Settled (rd (Crn.settle s).crn.corners c) :=
  (settle_granting s).corners c

theorem change_settled (f : Fin 6 → Corner → Corner) (s : State) (c : Fin 6) :
    (f c (rd s.crn.corners c)).Settled (rd (Crn.change f s).crn.corners c) := by
  have settled := settle_settled (s.modCrn fun x => { x with corners := mapF x.corners f }) c
  rwa [State.modCrn_crn, rd_mapF] at settled

theorem changeOne_settled (k : Fin 6) (f : Corner → Corner) (s : State) (c : Fin 6) :
    (if k = c then f (rd s.crn.corners c) else rd s.crn.corners c).Settled (rd (Crn.changeOne k f s).crn.corners c) := by
  have settled := settle_settled (s.modCrn fun x => { x with corners := upd x.corners k f }) c
  rw [State.modCrn_crn, rd_upd] at settled
  rw [Crn.changeOne]
  split at settled
  case isTrue same =>
    subst same
    rwa [if_pos rfl]
  case isFalse other => rwa [if_neg other]

/-! ## One reason judged (R95) -/

section
variable {r : FreezeReason} {c : Corner}

theorem Corner.gain_has (r : FreezeReason) (c : Corner) : (c.gain r).reasons.has r = true := by
  unfold Corner.gain
  split
  · assumption
  · dsimp only
    split <;> exact (FreezeSet.has_put _ _ _ _).trans (if_pos rfl)

theorem Corner.lose_has (r : FreezeReason) (c : Corner) : (c.lose r).reasons.has r = false := by
  unfold Corner.lose
  split
  · dsimp only
    split <;> exact (FreezeSet.has_put _ _ _ _).trans (if_pos rfl)
  · next lacks => exact Bool.eq_false_iff.mpr lacks

theorem Corner.judge_has (r : FreezeReason) (b : Bool) (c : Corner) : (c.judge r b).reasons.has r = b := by
  unfold Corner.judge
  cases b with
  | true => exact c.gain_has r
  | false => exact c.lose_has r

theorem Corner.gain_id (has : c.reasons.has r = true) : c.gain r = c := if_pos has
theorem Corner.lose_id (lacks : c.reasons.has r = false) : c.lose r = c := if_neg (by simp [lacks])

/-- A judgement that leaves its reason as it was changes nothing. -/
theorem Corner.judge_id {b : Bool} (same : c.reasons.has r = b) : c.judge r b = c := by
  unfold Corner.judge
  cases b with
  | true => exact Corner.gain_id same
  | false => exact Corner.lose_id same

/-- A corner that holds stays HOLDING while a reason is left, and goes IN_BAND with the last that is lost. -/
theorem Corner.judge_holding {b : Bool} (holding : c.state = .holding) :
    ((c.judge r b).reasons ≠ FreezeSet.empty → (c.judge r b).state = .holding)
    ∧ ((c.judge r b).reasons = FreezeSet.empty → c.reasons ≠ FreezeSet.empty → (c.judge r b).state = .inBand) := by
  cases b with
  | true =>
    have stays : (c.judge r true).state = .holding := by
      have is : c.judge r true = c.gain r := rfl
      rw [is]
      by_cases has : c.reasons.has r = true
      · rw [Corner.gain_id has]
        exact holding
      · exact Corner.gain_holds (Bool.eq_false_iff.mpr has) (by simp [holding])
    exact ⟨fun _ => stays, fun empty => absurd empty (FreezeSet.has_ne_empty (c.gain_has r))⟩
  | false =>
    have is : c.judge r false = c.lose r := rfl
    rw [is]
    by_cases has : c.reasons.has r = true
    · by_cases empty : c.reasons.put r false = FreezeSet.empty
      · have last : c.lose r = ({ c with reasons := c.reasons.put r false } : Corner).enter .inBand := (if_pos has).trans (if_pos ⟨holding, empty⟩)
        rw [last]
        exact ⟨fun some => absurd empty some, fun _ _ => rfl⟩
      · have more : c.lose r = { c with reasons := c.reasons.put r false } := (if_pos has).trans (if_neg fun both => empty both.2)
        rw [more]
        exact ⟨fun _ => holding, fun none => absurd none empty⟩
    · rw [Corner.lose_id (Bool.eq_false_iff.mpr has)]
      exact ⟨fun _ => holding, fun empty some => absurd empty some⟩

theorem Corner.judge_gains {b : Bool} (lacks : c.reasons.has r = false) (sound : c.state ≠ .fault) (present : b = true) :
    (c.judge r b).state = .holding := by
  rw [present]
  exact Corner.gain_holds lacks sound

theorem Corner.judge_other {b : Bool} {q : FreezeReason} (other : q ≠ r) : (c.judge r b).reasons.has q = c.reasons.has q :=
  (c.judge_follows r b).reasons q other

end
end Sys2Proof.Machine
end

