-- ==== Sys2Proof/Proofs/SupplyGate.lean ====
section
/-! PROOF. The supply gate and the measuring of a corner (R84, R93 to R95) -/

namespace Sys2Proof.Machine

/-! ## The supply gate at a corner update (R93, R96) -/

/-- From the first state to the second only the corners, their channels and the notices change. -/
structure CornersOnly (s t : State) : Prop where
  ilt : t.ilt = s.ilt
  rlu : t.rlu = s.rlu
  brk : t.brk = s.brk
  stc : t.stc = s.stc
  mot : t.mot = s.mot
  cfg : t.cfg = s.cfg
  now : t.now = s.now

section
variable {s t u : State}

theorem CornersOnly.refl (s : State) : CornersOnly s s := ⟨rfl, rfl, rfl, rfl, rfl, rfl, rfl⟩

theorem CornersOnly.trans (h : CornersOnly s t) (k : CornersOnly t u) : CornersOnly s u :=
  ⟨k.ilt.trans h.ilt, k.rlu.trans h.rlu, k.brk.trans h.brk, k.stc.trans h.stc, k.mot.trans h.mot, k.cfg.trans h.cfg, k.now.trans h.now⟩

theorem modCrn_only (f : Crn → Crn) (s : State) : CornersOnly s (s.modCrn f) := ⟨rfl, rfl, rfl, rfl, rfl, rfl, rfl⟩
theorem post_only (n : Notice) (s : State) : CornersOnly s (s.post n) := ⟨rfl, rfl, rfl, rfl, rfl, rfl, rfl⟩
theorem settle_only (s : State) : CornersOnly s (Crn.settle s) :=
  ⟨settle_ilt s, settle_rlu s, settle_brk s, settle_stc s, settle_mot s, settle_cfg s, settle_now s⟩
theorem change_only (f : Fin 6 → Corner → Corner) (s : State) : CornersOnly s (Crn.change f s) := (modCrn_only _ s).trans (settle_only _)
theorem changeOne_only (c : Fin 6) (f : Corner → Corner) (s : State) : CornersOnly s (Crn.changeOne c f s) :=
  (modCrn_only _ s).trans (settle_only _)

/-- The reservoir is low, or AN19 is FAULTY. -/
def State.supplyLow (s : State) : Prop := s.analogValue 19 < 650 ∨ s.analogFaulty 19 = true

/-- The gate closes at a judgement. -/
def State.gateCloses (s : State) : Prop := s.crn.gateOpen = true ∧ (s.supplyLow ∨ (s.channelState supplyChannel).unusable = true)

/-- The gate opens at a judgement. -/
def State.gateOpens (s : State) : Prop := s.crn.gateOpen = false ∧ 700 ≤ s.analogValue 19 ∧ s.analogFaulty 19 = false
  ∧ (s.channelState supplyChannel).unusable = false

theorem judgeGate_closes (closes : s.gateCloses) : Crn.judgeGate s = Crn.closeGate s := by
  obtain ⟨opened, cause⟩ := closes
  rw [Crn.judgeGate, if_pos opened, if_pos]
  rcases cause with (low | faulty) | unusable
  · simp [low]
  · simp [faulty]
  · simp [State.supplyUsable, unusable]

theorem judgeGate_opens (opens : s.gateOpens) : Crn.judgeGate s = Crn.openGate s := by
  obtain ⟨shut, high, sound, usable⟩ := opens
  rw [Crn.judgeGate, if_neg (by simp [shut]), if_pos]
  simp [high, sound, State.supplyUsable, usable]

theorem judgeGate_stays (closes : ¬ s.gateCloses) (opens : ¬ s.gateOpens) : Crn.judgeGate s = s := by
  cases gate : s.crn.gateOpen with
  | true =>
    rw [Crn.judgeGate, if_pos gate, if_neg]
    intro cause
    refine closes ⟨gate, ?_⟩
    simpa [State.supplyLow, State.supplyUsable] using cause
  | false =>
    rw [Crn.judgeGate, if_neg (by simp [gate]), if_neg]
    intro cause
    refine opens ⟨gate, ?_⟩
    simpa [State.supplyUsable, and_assoc] using cause

/-- What a judgement of the gate makes of a corner before the settling. -/
def State.GateStep (s : State) (b a : Corner) : Prop :=
  (s.gateCloses → a = if b.state = .fillWait ∨ b.state = .filling then b.gain .supply else b)
    ∧ (s.gateOpens → a = b.lose .supply) ∧ (¬ s.gateCloses → ¬ s.gateOpens → a = b)

theorem gates_apart (closes : s.gateCloses) (opens : s.gateOpens) : False := by
  have opened := closes.1
  rw [opens.1] at opened
  exact absurd opened (by simp)

theorem closeGate_crn (s : State) : (Crn.closeGate s).crn =
    (Crn.change (fun _ c => if c.state = .fillWait ∨ c.state = .filling then c.gain .supply else c)
      (s.modCrn fun x => { x with gateOpen := false })).crn := by
  unfold Crn.closeGate
  dsimp only
  split
  · exact State.post_crn _ _
  · rfl

theorem closeGate_only (s : State) : CornersOnly s (Crn.closeGate s) := by
  have changed := (modCrn_only (fun x => { x with gateOpen := false }) s).trans
    (change_only (fun _ c => if c.state = .fillWait ∨ c.state = .filling then c.gain .supply else c) _)
  unfold Crn.closeGate
  dsimp only
  split
  · exact changed.trans (post_only _ _)
  · exact changed

theorem judgeGate_only (s : State) : CornersOnly s (Crn.judgeGate s) := by
  by_cases closes : s.gateCloses
  · rw [judgeGate_closes closes]
    exact closeGate_only s
  · by_cases opens : s.gateOpens
    · rw [judgeGate_opens opens]
      exact (modCrn_only _ s).trans (change_only _ _)
    · rw [judgeGate_stays closes opens]
      exact .refl s

theorem judgeGate_corner (s : State) (i : Fin 6) : ∃ x, s.GateStep (rd s.crn.corners i) x
    ∧ x.Settled (rd (Crn.judgeGate s).crn.corners i) := by
  by_cases closes : s.gateCloses
  · have settled := change_settled (fun _ c => if c.state = .fillWait ∨ c.state = .filling then c.gain .supply else c)
      (s.modCrn fun x => { x with gateOpen := false }) i
    rw [judgeGate_closes closes, closeGate_crn]
    exact ⟨_, ⟨fun _ => rfl, fun opens => (gates_apart closes opens).elim, fun not => absurd closes not⟩, settled⟩
  · by_cases opens : s.gateOpens
    · rw [judgeGate_opens opens]
      exact ⟨_, ⟨fun is => absurd is closes, fun _ => rfl, fun _ not => absurd opens not⟩, change_settled _ _ i⟩
    · rw [judgeGate_stays closes opens]
      exact ⟨_, ⟨fun is => absurd is closes, fun is => absurd is opens, fun _ _ => rfl⟩, .refl _⟩

theorem change_beside (f : Fin 6 → Corner → Corner) (s : State) : (Crn.change f s).crn.gateOpen = s.crn.gateOpen
    ∧ (Crn.change f s).crn.axles = s.crn.axles :=
  have follows := settle_follows (s.modCrn fun x => { x with corners := mapF x.corners f })
  ⟨follows.gateOpen, follows.axles⟩

theorem changeOne_beside (c : Fin 6) (f : Corner → Corner) (s : State) : (Crn.changeOne c f s).crn.gateOpen = s.crn.gateOpen
    ∧ (Crn.changeOne c f s).crn.axles = s.crn.axles :=
  have follows := settle_follows (s.modCrn fun x => { x with corners := upd x.corners c f })
  ⟨follows.gateOpen, follows.axles⟩

theorem judgeGate_gate (s : State) : (s.gateCloses → (Crn.judgeGate s).crn.gateOpen = false)
    ∧ (s.gateOpens → (Crn.judgeGate s).crn.gateOpen = true)
    ∧ (¬ s.gateCloses → ¬ s.gateOpens → (Crn.judgeGate s).crn.gateOpen = s.crn.gateOpen)
    ∧ (Crn.judgeGate s).crn.axles = s.crn.axles := by
  by_cases closes : s.gateCloses
  · obtain ⟨gate, axles⟩ := change_beside (fun _ c => if c.state = .fillWait ∨ c.state = .filling then c.gain .supply else c)
      (s.modCrn fun x => { x with gateOpen := false })
    rw [judgeGate_closes closes, closeGate_crn]
    exact ⟨fun _ => gate, fun opens => (gates_apart closes opens).elim, fun not => absurd closes not, axles⟩
  · by_cases opens : s.gateOpens
    · obtain ⟨gate, axles⟩ := change_beside (fun _ c => c.lose .supply) (s.modCrn fun x => { x with gateOpen := true })
      rw [judgeGate_opens opens]
      exact ⟨fun is => absurd is closes, fun _ => gate, fun _ not => absurd opens not, axles⟩
    · rw [judgeGate_stays closes opens]
      exact ⟨fun is => absurd is closes, fun is => absurd is opens, fun _ _ => rfl, rfl⟩

theorem judgeGate_posts (opened : s.crn.gateOpen = true) (low : s.supplyLow) : (Crn.judgeGate s).flagged 10 := by
  rw [judgeGate_closes ⟨opened, .inl low⟩, Crn.closeGate]
  rw [if_pos]
  · exact post_flagged_self _ _
  · rcases low with low | faulty
    · simp [low]
    · simp [faulty]

/-! ## The heights, ARTIC and BRAKE (R84, R94) -/

/-- The record of the corner with its height and target taken. -/
def State.heightTaken (s : State) (c : Fin 6) (x : Corner) : Corner :=
  { x with measured := s.analogValue (heightChannel c), target := rd s.rlu.targets c }

/-- ARTIC and BRAKE judged. -/
def State.motionJudged (s : State) (x : Corner) : Corner := (x.judge .artic s.articulated).judge .brake s.braking

/-- What the measuring of a corner makes of its record. -/
structure State.Measures (s : State) (c : Fin 6) (b a : Corner) : Prop where
  steps : ∃ x y, s.GateStep b x ∧ x.Settled y ∧ (s.motionJudged (s.heightTaken c y)).Settled a

/-- What it makes of another's. -/
structure State.MeasuresOther (s : State) (b a : Corner) : Prop where
  steps : ∃ x y, s.GateStep b x ∧ x.Settled y ∧ y.Settled a

theorem CornersOnly.reads (h : CornersOnly s t) : t.articulated = s.articulated ∧ t.braking = s.braking
    ∧ (∀ c, t.analogValue c = s.analogValue c) ∧ (∀ c, t.analogFaulty c = s.analogFaulty c) := by
  simp only [State.articulated, State.braking, State.analogValue, State.analogFaulty, h.mot, h.stc, h.brk]
  exact ⟨trivial, trivial, fun _ => trivial, fun _ => trivial⟩

theorem takeHeights_only (c : Fin 6) (s : State) : CornersOnly s (Crn.takeHeights c s) := modCrn_only _ s

theorem measure_only (c : Fin 6) (s : State) : CornersOnly s (Crn.measure c s) :=
  (judgeGate_only s).trans ((takeHeights_only c _).trans (changeOne_only c _ _))

theorem measure_beside (c : Fin 6) (s : State) : (Crn.measure c s).crn.gateOpen = (Crn.judgeGate s).crn.gateOpen
    ∧ (Crn.measure c s).crn.axles = (Crn.judgeGate s).crn.axles := changeOne_beside c _ (Crn.takeHeights c (Crn.judgeGate s))

theorem takeHeights_corner (c i : Fin 6) (s : State) : rd (Crn.takeHeights c s).crn.corners i =
    if c = i then s.heightTaken c (rd s.crn.corners i) else rd s.crn.corners i := by
  rw [Crn.takeHeights, State.modCrn_crn, rd_upd]
  split
  · next same => rw [same]; rfl
  · rfl

theorem measure_corner (c : Fin 6) (s : State) : s.Measures c (rd s.crn.corners c) (rd (Crn.measure c s).crn.corners c) := by
  obtain ⟨x, step, settled⟩ := judgeGate_corner s c
  have only := judgeGate_only s
  have heights := only.trans (takeHeights_only c _)
  obtain ⟨artic, brake, -, -⟩ := heights.reads
  have after := changeOne_settled c (Crn.takeHeights c (Crn.judgeGate s)).motionJudged (Crn.takeHeights c (Crn.judgeGate s)) c
  rw [if_pos rfl, takeHeights_corner, if_pos rfl] at after
  refine ⟨x, _, step, settled, ?_⟩
  rw [State.motionJudged, artic, brake] at after
  rw [State.heightTaken, only.reads.2.2.1, only.rlu] at after
  exact after

theorem measure_other {c i : Fin 6} (other : i ≠ c) (s : State) :
    s.MeasuresOther (rd s.crn.corners i) (rd (Crn.measure c s).crn.corners i) := by
  obtain ⟨x, step, settled⟩ := judgeGate_corner s i
  have after := changeOne_settled c (Crn.takeHeights c (Crn.judgeGate s)).motionJudged (Crn.takeHeights c (Crn.judgeGate s)) i
  rw [if_neg fun same => other same.symm, takeHeights_corner, if_neg fun same => other same.symm] at after
  exact ⟨x, _, step, settled, after⟩

end
end Sys2Proof.Machine
end

