-- ==== Sys2Proof/Proofs/CornerMeasures.lean ====
section
/-! PROOF. What the measuring makes of a corner's record (R84, R93 to R96) -/

namespace Sys2Proof.Machine

/-! ## What a corner update measures (R84, R93 to R96) -/

/-- A corner that holds, or has lost its last reason. -/
def Corner.Calm (c : Corner) : Prop := c.state = .holding ∨ (c.state = .inBand ∧ c.reasons = FreezeSet.empty)

section
variable {a b c : Corner} {r : FreezeReason} {p : Bool}

theorem Corner.Calm.judge (h : c.Calm) : (c.judge r p).Calm := by
  rcases h with holding | ⟨inBand, empty⟩
  · obtain ⟨stays, leaves⟩ := c.judge_holding (r := r) (b := p) holding
    by_cases last : (c.judge r p).reasons = FreezeSet.empty
    · by_cases before : c.reasons = FreezeSet.empty
      · have none : p = false := by
          rw [← c.judge_has r p, last]
          cases r <;> rfl
        rw [Corner.judge_id (by rw [before, none]; cases r <;> rfl)]
        exact .inl holding
      · exact .inr ⟨leaves last before, last⟩
    · exact .inl (stays last)
  · cases p with
    | true => exact .inl (Corner.judge_gains (by rw [empty]; cases r <;> rfl) (by simp [inBand]) rfl)
    | false =>
      rw [Corner.judge_id (by rw [empty]; cases r <;> rfl)]
      exact .inr ⟨inBand, empty⟩

theorem Corner.Calm.acts (h : c.Calm) : c.state ≠ .fillWait := by
  rcases h with holding | ⟨inBand, -⟩
  · simp [holding]
  · simp [inBand]

theorem Corner.Calm.settled (h : b.Calm) (s : b.Settled a) : a.Calm := by rwa [s.eq h.acts]

theorem Corner.Calm.holds (h : c.Calm) (some : c.reasons ≠ FreezeSet.empty) : c.state = .holding :=
  h.resolve_right fun last => some last.2

theorem Corner.Settled.follows (h : b.Settled a) : b.Follows (fun _ => False) a := by
  rcases h with rfl | ⟨waits, rfl⟩
  · exact .refl _ _
  · refine ⟨⟨_, _, _, _, _, rfl⟩, fun rest => ?_, iff_of_false (by simp [Corner.enter]) (by simp [waits]), fun _ _ => rfl⟩
    rw [Corner.AtRest, waits] at rest
    split at rest <;> exact absurd rest (by simp)

theorem Corner.judge_acts (h : (c.judge r p).state = .fillWait) : c.state = .fillWait := by
  unfold Corner.judge at h
  cases p with
  | true =>
    simp only [if_true] at h
    unfold Corner.gain at h
    split at h
    · exact h
    · dsimp only at h
      split at h
      · exact h
      · exact absurd h (by simp [Corner.enter])
  | false =>
    simp only [Bool.false_eq_true, if_false] at h
    unfold Corner.lose at h
    split at h
    · dsimp only at h
      split at h
      · exact absurd h (by simp [Corner.enter])
      · exact h
    · exact h

theorem Corner.judge_beside (r : FreezeReason) (p : Bool) (c : Corner) : (c.judge r p).measured = c.measured
    ∧ (c.judge r p).target = c.target ∧ (c.judge r p).load = c.load ∧ (c.judge r p).loadValid = c.loadValid
    ∧ (c.judge r p).lastUpdate = c.lastUpdate := by
  obtain ⟨st, rs, sd, q, n, same⟩ := (c.judge_follows r p).frame
  rw [same]
  exact ⟨rfl, rfl, rfl, rfl, rfl⟩

end

section
variable {s : State} {k : Fin 6} {b a : Corner}

theorem State.GateStep.judges (h : s.GateStep b a) : ∃ p, a = b.judge .supply p := by
  by_cases closes : s.gateCloses
  · have is := h.1 closes
    split at is
    · exact ⟨true, is⟩
    · exact ⟨b.reasons.has .supply, is.trans (Corner.judge_id rfl).symm⟩
  · by_cases opens : s.gateOpens
    · exact ⟨false, h.2.1 opens⟩
    · exact ⟨b.reasons.has .supply, (h.2.2 closes opens).trans (Corner.judge_id rfl).symm⟩

/-- The measuring of a corner, as three judgements of its reasons. -/
theorem State.Measures.judges (h : s.Measures k b a) : ∃ p y, (b.judge .supply p).Settled y
    ∧ (((s.heightTaken k y).judge .artic s.articulated).judge .brake s.braking).Settled a := by
  obtain ⟨x, y, step, settled, judged⟩ := h.steps
  obtain ⟨p, rfl⟩ := step.judges
  exact ⟨p, y, settled, judged⟩

theorem heightTaken_reasons (k : Fin 6) (s : State) (y : Corner) : (s.heightTaken k y).reasons = y.reasons
    ∧ (s.heightTaken k y).state = y.state := ⟨rfl, rfl⟩

theorem State.Measures.reads (h : s.Measures k b a) : a.measured = s.analogValue (heightChannel k) ∧ a.target = rd s.rlu.targets k
    ∧ a.load = b.load ∧ a.loadValid = b.loadValid ∧ a.lastUpdate = b.lastUpdate := by
  obtain ⟨p, y, settled, judged⟩ := h.judges
  obtain ⟨measured, target, load, valid, last, -⟩ := judged.beside
  obtain ⟨measured', target', load', valid', last'⟩ := Corner.judge_beside .brake s.braking ((s.heightTaken k y).judge .artic s.articulated)
  obtain ⟨measured'', target'', load'', valid'', last''⟩ := Corner.judge_beside .artic s.articulated (s.heightTaken k y)
  obtain ⟨-, -, load0, valid0, last0, -⟩ := settled.beside
  obtain ⟨-, -, load1, valid1, last1⟩ := Corner.judge_beside .supply p b
  exact ⟨measured.trans (measured'.trans measured''), target.trans (target'.trans target''),
    load.trans (load'.trans (load''.trans (load0.trans load1))), valid.trans (valid'.trans (valid''.trans (valid0.trans valid1))),
    last.trans (last'.trans (last''.trans (last0.trans last1)))⟩

theorem State.Measures.has_artic (h : s.Measures k b a) : a.reasons.has .artic = s.articulated := by
  obtain ⟨p, y, -, judged⟩ := h.judges
  rw [judged.reasons, Corner.judge_other (by simp), Corner.judge_has]

theorem State.Measures.has_brake (h : s.Measures k b a) : a.reasons.has .brake = s.braking := by
  obtain ⟨p, y, -, judged⟩ := h.judges
  rw [judged.reasons, Corner.judge_has]

theorem State.Measures.fault (h : s.Measures k b a) : a.state = .fault ↔ b.state = .fault := by
  obtain ⟨p, y, settled, judged⟩ := h.judges
  rw [judged.follows.fault, Corner.judge_fault, Corner.judge_fault]
  exact settled.follows.fault.trans (Corner.judge_fault _ _ _)

/-- With the reasons it had, the corner keeps its record but for the height and the target. -/
theorem State.Measures.keeps (h : s.Measures k b a) (same : a.reasons = b.reasons) (acts : b.state ≠ .fillWait) : a = s.heightTaken k b := by
  obtain ⟨p, y, settled, judged⟩ := h.judges
  have supply : b.judge .supply p = b := by
    refine Corner.judge_id ?_
    rw [← same, judged.reasons, Corner.judge_other (by simp), Corner.judge_other (by simp), (heightTaken_reasons k s y).1,
      settled.reasons, Corner.judge_has]
  rw [supply] at settled
  obtain rfl := settled.eq acts
  have artic : (s.heightTaken k y).judge .artic s.articulated = s.heightTaken k y :=
    Corner.judge_id (by rw [← h.has_artic, same]; rfl)
  rw [artic] at judged
  have brake : (s.heightTaken k y).judge .brake s.braking = s.heightTaken k y :=
    Corner.judge_id (by rw [← h.has_brake, same]; rfl)
  rw [brake] at judged
  exact judged.eq acts

theorem heightTaken_calm {y : Corner} (h : y.Calm) : (s.heightTaken k y).Calm := h

theorem State.Measures.calm (h : s.Measures k b a) (calm : b.Calm) : a.Calm := by
  obtain ⟨p, y, settled, judged⟩ := h.judges
  exact (heightTaken_calm (calm.judge.settled settled)).judge.judge.settled judged

theorem State.Measures.rests (h : s.Measures k b a) (rests : b.AtRest) : a.AtRest := by
  obtain ⟨p, y, settled, judged⟩ := h.judges
  have taken : (s.heightTaken k y).AtRest := settled.follows.rests ((Corner.judge_follows _ _ _).rests rests)
  exact judged.follows.rests ((Corner.judge_follows _ _ _).rests ((Corner.judge_follows _ _ _).rests taken))

/-- A corner that gains ARTIC, BRAKE or SUPPLY holds. -/
theorem State.Measures.gains (h : s.Measures k b a) (sound : b.state ≠ .fault)
    (gains : (a.reasons.has .artic = true ∧ b.reasons.has .artic = false) ∨ (a.reasons.has .brake = true ∧ b.reasons.has .brake = false)
      ∨ (a.reasons.has .supply = true ∧ b.reasons.has .supply = false)) : a.state = .holding := by
  have artic := h.has_artic
  have brake := h.has_brake
  obtain ⟨p, y, settled, judged⟩ := h.judges
  have sound' : (s.heightTaken k y).state ≠ .fault := fun fault =>
    sound (((settled.follows.fault.trans (Corner.judge_fault _ _ _))).mp fault)
  have before (r : FreezeReason) (other : r ≠ .supply) : (s.heightTaken k y).reasons.has r = b.reasons.has r := by
    rw [(heightTaken_reasons k s y).1, settled.reasons, Corner.judge_other other]
  rcases gains with ⟨now, lacks⟩ | ⟨now, lacks⟩ | ⟨now, lacks⟩
  · have holds := Corner.judge_gains (r := .artic) (by rw [before _ (by simp), lacks]) sound' (artic.symm.trans now)
    exact (Corner.Calm.settled (Corner.Calm.judge (.inl holds)) judged).holds (FreezeSet.has_ne_empty now)
  · have holds := Corner.judge_gains (r := .brake) (c := (s.heightTaken k y).judge .artic s.articulated)
      (by rw [Corner.judge_other (by simp), before _ (by simp), lacks]) (fun fault => sound' ((Corner.judge_fault _ _ _).mp fault))
      (brake.symm.trans now)
    exact (Corner.Calm.settled (.inl holds) judged).holds (FreezeSet.has_ne_empty now)
  · have present : p = true := by
      rw [judged.reasons, Corner.judge_other (by simp), Corner.judge_other (by simp), (heightTaken_reasons k s y).1, settled.reasons,
        Corner.judge_has] at now
      exact now
    have holds := Corner.judge_gains lacks sound present
    exact (Corner.Calm.settled (heightTaken_calm (Corner.Calm.settled (.inl holds) settled)).judge.judge judged).holds
      (FreezeSet.has_ne_empty now)

/-- A gate that closes holds a corner that waits or fills. -/
theorem GateStep.holds {x : Corner} (step : s.GateStep b x) (closes : s.gateCloses) (fills : b.state = .fillWait ∨ b.state = .filling)
    (lacks : b.reasons.has .supply = false) : x.state = .holding ∧ x.reasons.has .supply = true := by
  have is := step.1 closes
  rw [if_pos fills] at is
  rw [is]
  exact ⟨Corner.gain_holds lacks (by rcases fills with f | f <;> simp [f]), b.gain_has .supply⟩

theorem State.Measures.closes (h : s.Measures k b a) (closes : s.gateCloses) (fills : b.state = .fillWait ∨ b.state = .filling)
    (lacks : b.reasons.has .supply = false) : a.state = .holding ∧ a.reasons.has .supply = true := by
  obtain ⟨x, y, step, settled, judged⟩ := h.steps
  obtain ⟨holds, has⟩ := GateStep.holds step closes fills lacks
  have supply : a.reasons.has .supply = true := by
    rw [judged.reasons, State.motionJudged, Corner.judge_other (by simp), Corner.judge_other (by simp), (heightTaken_reasons k s y).1,
      settled.reasons, has]
  exact ⟨(Corner.Calm.settled (heightTaken_calm (Corner.Calm.settled (.inl holds) settled)).judge.judge judged).holds
    (FreezeSet.has_ne_empty supply), supply⟩

theorem State.MeasuresOther.closes (h : s.MeasuresOther b a) (closes : s.gateCloses) (fills : b.state = .fillWait ∨ b.state = .filling)
    (lacks : b.reasons.has .supply = false) : a.state = .holding ∧ a.reasons.has .supply = true := by
  obtain ⟨x, y, step, settled, settled'⟩ := h.steps
  obtain ⟨holds, has⟩ := GateStep.holds step closes fills lacks
  obtain rfl := settled.eq (by simp [holds])
  rw [settled'.eq (by simp [holds])]
  exact ⟨holds, has⟩

theorem State.Measures.opens (h : s.Measures k b a) (opens : s.gateOpens) : a.reasons.has .supply = false := by
  obtain ⟨x, y, step, settled, judged⟩ := h.steps
  rw [judged.reasons, State.motionJudged, Corner.judge_other (by simp), Corner.judge_other (by simp), (heightTaken_reasons k s y).1,
    settled.reasons, step.2.1 opens, Corner.lose_has]

theorem State.MeasuresOther.opens (h : s.MeasuresOther b a) (opens : s.gateOpens) : a.reasons.has .supply = false := by
  obtain ⟨x, y, step, settled, settled'⟩ := h.steps
  rw [settled'.reasons, settled.reasons, step.2.1 opens, Corner.lose_has]

theorem State.MeasuresOther.beside (h : s.MeasuresOther b a) : a.measured = b.measured ∧ a.target = b.target ∧ a.load = b.load
    ∧ a.loadValid = b.loadValid := by
  obtain ⟨x, y, step, settled, settled'⟩ := h.steps
  obtain ⟨p, rfl⟩ := step.judges
  obtain ⟨measured, target, load, valid, -⟩ := settled'.beside
  obtain ⟨measured', target', load', valid', -⟩ := settled.beside
  obtain ⟨measured0, target0, load0, valid0, -⟩ := Corner.judge_beside .supply p b
  exact ⟨measured.trans (measured'.trans measured0), target.trans (target'.trans target0), load.trans (load'.trans load0),
    valid.trans (valid'.trans valid0)⟩

end
end Sys2Proof.Machine
end

