-- ==== Sys2Proof/Proofs/CornerStep.lean ====
section
/-! PROOF. The step of the corner machine (R86 to R89, R96) -/

namespace Sys2Proof.Machine

/-! ## The step of a corner's machine (R86 to R89, R96) -/

/-- The values that a corner's machine does not move. -/
structure Corner.Framed (b a : Corner) : Prop where
  measured : a.measured = b.measured
  target : a.target = b.target
  load : a.load = b.load
  loadValid : a.loadValid = b.loadValid
  lastUpdate : a.lastUpdate = b.lastUpdate
  reasons : ∀ r, r ≠ .supply → a.reasons.has r = b.reasons.has r

section
variable {a b c : Corner}

theorem Corner.Framed.refl (b : Corner) : b.Framed b := ⟨rfl, rfl, rfl, rfl, rfl, fun _ _ => rfl⟩

theorem Corner.Framed.trans (h : a.Framed b) (k : b.Framed c) : a.Framed c :=
  ⟨k.measured.trans h.measured, k.target.trans h.target, k.load.trans h.load, k.loadValid.trans h.loadValid,
    k.lastUpdate.trans h.lastUpdate, fun r other => (k.reasons r other).trans (h.reasons r other)⟩

theorem Corner.Settled.framed (h : b.Settled a) : b.Framed a := by
  obtain ⟨measured, target, load, valid, last, -⟩ := h.beside
  exact ⟨measured, target, load, valid, last, fun _ _ => by rw [h.reasons]⟩

theorem Corner.enter_framed (st : CornerState) (b : Corner) : b.Framed (b.enter st) := ⟨rfl, rfl, rfl, rfl, rfl, fun _ _ => rfl⟩

theorem Corner.judge_framed (p : Bool) (b : Corner) : b.Framed (b.judge .supply p) := by
  obtain ⟨measured, target, load, valid, last⟩ := Corner.judge_beside .supply p b
  exact ⟨measured, target, load, valid, last, fun r other => Corner.judge_other other⟩

theorem Corner.qualify_framed (d : Int) (b : Corner) : b.Framed (b.qualify d) := by
  unfold Corner.qualify
  split
  · exact ⟨rfl, rfl, rfl, rfl, rfl, fun _ _ => rfl⟩
  · split
    · exact ⟨rfl, rfl, rfl, rfl, rfl, fun _ _ => rfl⟩
    · exact ⟨rfl, rfl, rfl, rfl, rfl, fun _ _ => rfl⟩

end

/-- From the first state to the second each corner keeps those values, with the gate and the axle loads. -/
structure CornersFramed (s t : State) : Prop where
  only : CornersOnly s t
  corners : ∀ i, (rd s.crn.corners i).Framed (rd t.crn.corners i)
  gateOpen : t.crn.gateOpen = s.crn.gateOpen
  axles : t.crn.axles = s.crn.axles

section
variable {s t u : State} {k : Fin 6}

theorem CornersFramed.refl (s : State) : CornersFramed s s := ⟨.refl s, fun _ => .refl _, rfl, rfl⟩

theorem CornersFramed.trans (h : CornersFramed s t) (j : CornersFramed t u) : CornersFramed s u :=
  ⟨h.only.trans j.only, fun i => (h.corners i).trans (j.corners i), j.gateOpen.trans h.gateOpen, j.axles.trans h.axles⟩

theorem changeOne_framed {f : Corner → Corner} (frame : ∀ x : Corner, x.Framed (f x)) (s : State) : CornersFramed s (Crn.changeOne k f s) := by
  obtain ⟨gate, axles⟩ := changeOne_beside k f s
  refine ⟨changeOne_only k f s, fun i => ?_, gate, axles⟩
  refine Corner.Framed.trans ?_ (changeOne_settled k f s i).framed
  split
  · exact frame _
  · exact .refl _

theorem updCorner_framed {f : Corner → Corner} (frame : ∀ x : Corner, x.Framed (f x)) (s : State) :
    CornersFramed s (s.modCrn fun x => { x with corners := upd x.corners k f }) := by
  refine ⟨modCrn_only _ s, fun i => ?_, rfl, rfl⟩
  rw [State.modCrn_crn, rd_upd]
  split
  · next same =>
    subst same
    exact frame _
  · exact .refl _

theorem act_framed (s : State) : CornersFramed s (Crn.act k s) := by
  unfold Crn.act
  split
  · exact .refl s
  · exact changeOne_framed (fun x => x.enter_framed _) s
  · split
    · have queued : CornersFramed s (s.modCrn fun x => { x with queue := x.queue ++ [k] }) :=
        ⟨modCrn_only _ s, fun _ => .refl _, rfl, rfl⟩
      exact queued.trans (changeOne_framed (fun x => x.enter_framed _) _)
    · exact changeOne_framed (fun x => x.judge_framed true) s

theorem post_framed (n : Notice) (s : State) : CornersFramed s (s.post n) := by
  refine ⟨post_only n s, fun i => ?_, ?_, ?_⟩
  · rw [State.post_crn]
    exact .refl _
  · rw [State.post_crn]
  · rw [State.post_crn]

theorem fault_framed (r : CornerFault) (s : State) : CornersFramed s (Crn.fault k r s) := by
  unfold Crn.fault
  split
  · exact (changeOne_framed (f := fun x => { x.enter .fault with fault := some r }) (fun x => ⟨rfl, rfl, rfl, rfl, rfl, fun _ _ => rfl⟩) s).trans
      (post_framed _ _)
  · exact .refl s

theorem growAction_framed (r : CornerFault) (s : State) : CornersFramed s (Crn.growAction k r s) := by
  have grown : CornersFramed s (s.modCrn fun x =>
      { x with corners := upd x.corners k fun y => { y with actionTimer := grow 20 8000 y.actionTimer } }) :=
    updCorner_framed (f := fun y => { y with actionTimer := grow 20 8000 y.actionTimer }) (fun x => ⟨rfl, rfl, rfl, rfl, rfl, fun _ _ => rfl⟩) s
  unfold Crn.growAction
  dsimp only
  split
  · exact grown.trans (fault_framed r _)
  · exact grown

theorem judgeNeed_framed (s : State) : CornersFramed s (Crn.judgeNeed k s) := by
  unfold Crn.judgeNeed
  split
  · exact changeOne_framed (fun x => x.judge_framed false) s
  · exact .refl s

theorem step_framed (k : Fin 6) (s : State) : CornersFramed s (Crn.step k s) := by
  have inBand : CornersFramed s (Crn.changeOne k (Corner.enter .inBand) s) := changeOne_framed (fun x => x.enter_framed _) s
  unfold Crn.step
  split
  · have qualified : CornersFramed s (s.modCrn fun x => { x with corners := upd x.corners k (Corner.qualify ((rd s.cfg.settings.halfWidth k : Nat) : Int)) }) :=
      updCorner_framed (fun x => x.qualify_framed _) s
    unfold Crn.stepInBand
    dsimp only
    split
    · exact qualified.trans (act_framed _)
    · exact qualified
  · split
    · exact inBand
    · exact .refl s
  · split
    · exact inBand
    · exact growAction_framed _ s
  · split
    · exact inBand
    · exact growAction_framed _ s
  · exact judgeNeed_framed s
  · exact judgeNeed_framed s

/-! ### Where the corner does not act -/

/-- The half width and the stop margin of a corner. -/
def State.halfBand (s : State) (k : Fin 6) : Int := (rd s.cfg.settings.halfWidth k : Nat)

/-- The corner with its side and timer judged. -/
def State.qualified (s : State) (k : Fin 6) : State :=
  s.modCrn fun x => { x with corners := upd x.corners k (Corner.qualify (s.halfBand k)) }

theorem qualified_corner (s : State) (k : Fin 6) : rd (s.qualified k).crn.corners k = (rd s.crn.corners k).qualify (s.halfBand k) := by
  rw [State.qualified, State.modCrn_crn, rd_upd, if_pos rfl]

theorem step_inBand (state : (rd s.crn.corners k).state = .inBand) : Crn.step k s =
    if s.qualifySpan ≤ ((rd s.crn.corners k).qualify (s.halfBand k)).qualifyTimer then Crn.act k (s.qualified k) else s.qualified k := by
  have is : Crn.step k s = Crn.stepInBand k s := by rw [Crn.step, state]
  have stepped : Crn.stepInBand k s = if (s.qualified k).qualifySpan ≤ (rd (s.qualified k).crn.corners k).qualifyTimer then
      Crn.act k (s.qualified k) else s.qualified k := rfl
  rw [is, stepped, qualified_corner]
  rfl

/-- The corner with its action timer grown. -/
def State.actionGrown (s : State) (k : Fin 6) : State :=
  s.modCrn fun x => { x with corners := upd x.corners k fun y => { y with actionTimer := grow 20 8000 y.actionTimer } }

theorem actionGrown_corner (s : State) (k : Fin 6) : rd (s.actionGrown k).crn.corners k =
    { rd s.crn.corners k with actionTimer := grow 20 8000 (rd s.crn.corners k).actionTimer } := by
  rw [State.actionGrown, State.modCrn_crn, rd_upd, if_pos rfl]

theorem growAction_eq (r : CornerFault) : Crn.growAction k r s =
    if 8000 ≤ (rd s.crn.corners k).actionTimer + 20 then Crn.fault k r (s.actionGrown k) else s.actionGrown k := by
  have is : Crn.growAction k r s = if 8000 ≤ (rd (s.actionGrown k).crn.corners k).actionTimer then Crn.fault k r (s.actionGrown k)
      else s.actionGrown k := rfl
  have grown : 8000 ≤ grow 20 8000 (rd s.crn.corners k).actionTimer ↔ 8000 ≤ (rd s.crn.corners k).actionTimer + 20 := by
    unfold grow
    omega
  rw [is, actionGrown_corner]
  simp only [grown]

theorem changeOne_corner_acts {f : Corner → Corner} (acts : (f (rd s.crn.corners k)).state ≠ .fillWait) :
    rd (Crn.changeOne k f s).crn.corners k = f (rd s.crn.corners k) := by
  have settled := changeOne_settled k f s k
  rw [if_pos rfl] at settled
  exact settled.eq acts

theorem step_fillWait (state : (rd s.crn.corners k).state = .fillWait) :
    Crn.step k s = if s.fillDone k then Crn.changeOne k (Corner.enter .inBand) s else s := by rw [Crn.step, state]

theorem step_filling (state : (rd s.crn.corners k).state = .filling) :
    Crn.step k s = if s.fillDone k then Crn.changeOne k (Corner.enter .inBand) s else Crn.growAction k .fillTimeout s := by
  rw [Crn.step, state]

theorem step_exhausting (state : (rd s.crn.corners k).state = .exhausting) :
    Crn.step k s = if s.exhaustDone k then Crn.changeOne k (Corner.enter .inBand) s else Crn.growAction k .exhaustTimeout s := by
  rw [Crn.step, state]

theorem step_still (state : (rd s.crn.corners k).state = .holding ∨ (rd s.crn.corners k).state = .fault) :
    Crn.step k s = Crn.judgeNeed k s := by
  rcases state with state | state <;> rw [Crn.step, state]

theorem fillDone_iff : s.fillDone k = true ↔ -(s.stopMargin k) ≤ (rd s.crn.corners k).measured - (rd s.crn.corners k).target :=
  decide_eq_true_iff

theorem exhaustDone_iff : s.exhaustDone k = true ↔ (rd s.crn.corners k).measured - (rd s.crn.corners k).target ≤ s.stopMargin k :=
  decide_eq_true_iff

/-! ### The qualify side (R86) -/

section
variable {y : Corner} {d : Int}

theorem qualify_within (low : -d ≤ y.measured - y.target) (high : y.measured - y.target ≤ d) :
    y.qualify d = { y with side := .none, qualifyTimer := 0 } := by
  have error : y.error = y.measured - y.target := rfl
  unfold Corner.qualify
  rw [if_neg (by omega), if_neg (by omega)]

theorem qualify_low (low : y.measured - y.target < -d) :
    y.qualify d = { y with side := .low, qualifyTimer := if y.side = .low then min 2000 (y.qualifyTimer + 20) else 0 } := if_pos low

theorem qualify_high (positive : 0 ≤ d) (high : d < y.measured - y.target) :
    y.qualify d = { y with side := .high, qualifyTimer := if y.side = .high then min 2000 (y.qualifyTimer + 20) else 0 } := by
  have error : y.error = y.measured - y.target := rfl
  exact (if_neg (by omega)).trans (if_pos high)

end

theorem qualifySpan_pos (s : State) : 0 < s.qualifySpan ∧ s.qualifySpan ≤ 2000 := by
  unfold State.qualifySpan
  split <;> decide

end
end Sys2Proof.Machine
end

