-- ==== Sys2Proof/Proofs/CornerLoads.lean ====
section
/-! PROOF. The cases of a corner's step and the loads (R86 to R92, R100, R101) -/

namespace Sys2Proof.Machine

/-! ## A corner update to the hand-off to RLU -/

section
variable {s m : State} {k : Fin 6} {y z : Corner}

/-- The step of a corner that does not come to act, as the statements say it. -/
theorem step_cases (k : Fin 6) (m : State) {y z : Corner} (y' : y = rd m.crn.corners k) (z' : z = rd (Crn.step k m).crn.corners k) :
    let e := y.measured - y.target
    let d := m.halfBand k
    let needless := y.reasons = { FreezeSet.empty with supply := true } ∧ -m.stopMargin k ≤ e
    (y.state = .inBand →
      (-d ≤ e → e ≤ d → z.state = .inBand ∧ z.side = .none ∧ z.qualifyTimer = 0)
      ∧ (∀ q, e < -d → q = (if y.side = .low then min 2000 (y.qualifyTimer + 20) else 0) → q < m.qualifySpan →
        z.state = .inBand ∧ z.side = .low ∧ z.qualifyTimer = q)
      ∧ ∀ q, d < e → q = (if y.side = .high then min 2000 (y.qualifyTimer + 20) else 0) → q < m.qualifySpan →
        z.state = .inBand ∧ z.side = .high ∧ z.qualifyTimer = q)
    ∧ (y.state = .fillWait → (-m.stopMargin k ≤ e → z.state = .inBand) ∧ (e < -m.stopMargin k → z.state = .fillWait))
    ∧ (y.state = .filling → (-m.stopMargin k ≤ e → z.state = .inBand)
      ∧ (e < -m.stopMargin k → y.actionTimer + 20 < 8000 → z.state = .filling ∧ z.actionTimer = y.actionTimer + 20))
    ∧ (y.state = .exhausting → (e ≤ m.stopMargin k → z.state = .inBand)
      ∧ (m.stopMargin k < e → y.actionTimer + 20 < 8000 → z.state = .exhausting ∧ z.actionTimer = y.actionTimer + 20))
    ∧ (y.state = .holding → (needless → z.state = .inBand ∧ z.reasons = FreezeSet.empty)
      ∧ (¬ needless → z.state = .holding ∧ z.reasons = y.reasons))
    ∧ (y.state = .fault → z.state = .fault ∧ (needless → z.reasons = FreezeSet.empty) ∧ (¬ needless → z.reasons = y.reasons)) := by
  subst y' z'
  intro e d needless
  have positive : 0 ≤ d := Int.natCast_nonneg _
  have span := qualifySpan_pos m
  have entered : rd (Crn.changeOne k (Corner.enter .inBand) m).crn.corners k = (rd m.crn.corners k).enter .inBand :=
    changeOne_corner_acts (by simp [Corner.enter])
  have waits (state : (rd m.crn.corners k).state = .inBand) (short : ((rd m.crn.corners k).qualify d).qualifyTimer < m.qualifySpan) :
      rd (Crn.step k m).crn.corners k = (rd m.crn.corners k).qualify d := by
    rw [step_inBand state]
    have short' : ¬ m.qualifySpan ≤ ((rd m.crn.corners k).qualify (m.halfBand k)).qualifyTimer := by
      have same : m.halfBand k = d := rfl
      rw [same]
      omega
    rw [if_neg short', qualified_corner]
  have grows (r : CornerFault) (short : (rd m.crn.corners k).actionTimer + 20 < 8000) : rd (Crn.growAction k r m).crn.corners k =
      { rd m.crn.corners k with actionTimer := (rd m.crn.corners k).actionTimer + 20 } := by
    have grown : grow 20 8000 (rd m.crn.corners k).actionTimer = (rd m.crn.corners k).actionTimer + 20 := by
      unfold grow
      omega
    rw [growAction_eq, if_neg (by omega), actionGrown_corner, grown]
  have needs : ((rd m.crn.corners k).reasons = FreezeSet.empty.put .supply true ∧ m.fillDone k = true) ↔ needless := by
    rw [fillDone_iff]
    exact Iff.rfl
  have loses (is : needless) : (rd m.crn.corners k).lose .supply = (if (rd m.crn.corners k).state = .holding then
      ({ rd m.crn.corners k with reasons := FreezeSet.empty } : Corner).enter .inBand else { rd m.crn.corners k with reasons := FreezeSet.empty }) := by
    have has : (rd m.crn.corners k).reasons.has .supply = true := by rw [is.1]; rfl
    have last : (rd m.crn.corners k).reasons.put .supply false = FreezeSet.empty := by rw [is.1]; rfl
    have unfolded : (rd m.crn.corners k).lose .supply = if (rd m.crn.corners k).state = .holding
        ∧ (rd m.crn.corners k).reasons.put .supply false = FreezeSet.empty then
        ({ rd m.crn.corners k with reasons := (rd m.crn.corners k).reasons.put .supply false } : Corner).enter .inBand
        else { rd m.crn.corners k with reasons := (rd m.crn.corners k).reasons.put .supply false } := if_pos has
    rw [unfolded, last]
    simp only [and_true]
  refine ⟨fun state => ⟨fun low high => ?_, fun q low q' short => ?_, fun q high q' short => ?_⟩, fun state => ⟨fun done => ?_, fun needed => ?_⟩,
    fun state => ⟨fun done => ?_, fun needed short => ?_⟩, fun state => ⟨fun done => ?_, fun needed short => ?_⟩,
    fun state => ⟨fun is => ?_, fun not => ?_⟩, fun state => ⟨?_, fun is => ?_, fun not => ?_⟩⟩
  · have is := qualify_within low high
    rw [waits state (by rw [is]; exact span.1), is]
    exact ⟨state, rfl, rfl⟩
  · have is := qualify_low low
    rw [← q'] at is
    rw [waits state (by rw [is]; exact short), is]
    exact ⟨state, rfl, rfl⟩
  · have is := qualify_high positive high
    rw [← q'] at is
    rw [waits state (by rw [is]; exact short), is]
    exact ⟨state, rfl, rfl⟩
  · rw [step_fillWait state, if_pos (fillDone_iff.mpr done), entered]
    rfl
  · rw [step_fillWait state, if_neg (by rw [fillDone_iff]; omega), state]
  · rw [step_filling state, if_pos (fillDone_iff.mpr done), entered]
    rfl
  · rw [step_filling state, if_neg (by rw [fillDone_iff]; omega), grows _ short]
    exact ⟨state, rfl⟩
  · rw [step_exhausting state, if_pos (exhaustDone_iff.mpr done), entered]
    rfl
  · rw [step_exhausting state, if_neg (by rw [exhaustDone_iff]; omega), grows _ short]
    exact ⟨state, rfl⟩
  · have lost := loses is
    rw [if_pos state] at lost
    rw [step_still (.inl state), Crn.judgeNeed, if_pos (needs.mpr is), changeOne_corner_acts (by rw [lost]; simp [Corner.enter]), lost]
    exact ⟨rfl, rfl⟩
  · rw [step_still (.inl state), Crn.judgeNeed, if_neg fun is => not (needs.mp is)]
    exact ⟨state, rfl⟩
  · rw [step_still (.inr state), Crn.judgeNeed]
    split
    · next is =>
      have lost := loses (needs.mp is)
      rw [if_neg (by simp [state])] at lost
      rw [changeOne_corner_acts (by rw [lost]; simp [state]), lost]
      exact state
    · exact state
  · have lost := loses is
    rw [if_neg (by simp [state])] at lost
    rw [step_still (.inr state), Crn.judgeNeed, if_pos (needs.mpr is), changeOne_corner_acts (by rw [lost]; simp [state]), lost]
  · rw [step_still (.inr state), Crn.judgeNeed, if_neg fun is => not (needs.mp is)]

/-! ### The loads (R100, R101) -/

/-- The corner load is formed at this update. -/
def State.loadForms (s : State) (k : Fin 6) : Prop := s.cfg.device = .run ∧ (rd s.crn.corners k).state = .inBand
  ∧ (rd s.mot.analog (pressureChannel k)).validity = .valid ∧ s.rlu.kneelState = .level

/-- The load that it forms. -/
def State.loadNow (s : State) (k : Fin 6) : Nat := (s.analogValue (pressureChannel k)).toNat * rd s.cfg.settings.area (cornerAxle k) / 10

theorem takeLoad_only (k : Fin 6) (s : State) : CornersOnly s (Crn.takeLoad k s) := by
  unfold Crn.takeLoad
  split
  · exact modCrn_only _ s
  · exact .refl s

theorem takeAxle_only (a : Fin 3) (s : State) : CornersOnly s (Crn.takeAxle a s) := modCrn_only _ s

theorem takeLoad_beside (k : Fin 6) (s : State) : (Crn.takeLoad k s).vda = s.vda ∧ (Crn.takeLoad k s).lnk = s.lnk
    ∧ (Crn.takeLoad k s).crn.queue = s.crn.queue ∧ (Crn.takeLoad k s).crn.gateOpen = s.crn.gateOpen
    ∧ (Crn.takeLoad k s).crn.axles = s.crn.axles := by
  unfold Crn.takeLoad
  split
  · exact ⟨rfl, rfl, rfl, rfl, rfl⟩
  · exact ⟨rfl, rfl, rfl, rfl, rfl⟩

theorem takeLoad_corner (k i : Fin 6) (s : State) : (s.loadForms k → rd (Crn.takeLoad k s).crn.corners i =
      if k = i then { rd s.crn.corners i with load := s.loadNow k, loadValid := true } else rd s.crn.corners i)
    ∧ (¬ s.loadForms k → rd (Crn.takeLoad k s).crn.corners i = rd s.crn.corners i) := by
  have forms : (s.inRun = true ∧ (rd s.crn.corners k).state = .inBand ∧ (rd s.mot.analog (pressureChannel k)).validity = .valid
      ∧ s.rlu.kneelState = .level) ↔ s.loadForms k := by
    rw [State.loadForms, inRun_iff]
  unfold Crn.takeLoad
  refine ⟨fun is => ?_, fun not => by rw [if_neg fun is => not (forms.mp is)]⟩
  rw [if_pos (forms.mpr is)]
  dsimp only
  rw [State.modCrn_crn, rd_upd]
  split
  · next same =>
    subst same
    rfl
  · rfl

theorem takeAxle_corners (a : Fin 3) (s : State) : (Crn.takeAxle a s).crn.corners = s.crn.corners
    ∧ (Crn.takeAxle a s).crn.queue = s.crn.queue ∧ (Crn.takeAxle a s).crn.gateOpen = s.crn.gateOpen ∧ (Crn.takeAxle a s).vda = s.vda
    ∧ (Crn.takeAxle a s).lnk = s.lnk := ⟨rfl, rfl, rfl, rfl, rfl⟩

theorem takeAxle_axle (a b : Fin 3) (s : State) : rd (Crn.takeAxle a s).crn.axles b = if a = b then
    { load := min 15000 ((rd s.crn.corners (leftCorner a)).load + (rd s.crn.corners (rightCorner a)).load + rd s.cfg.settings.unsprung a)
      valid := (rd s.crn.corners (leftCorner a)).loadValid && (rd s.crn.corners (rightCorner a)).loadValid }
    else rd s.crn.axles b := by
  rw [Crn.takeAxle, State.modCrn_crn]
  exact rd_wr _ _ _ _

end
end Sys2Proof.Machine
end

