-- ==== Sys2Proof/Proofs/StallWatch.lean ====
section
/-! PROOF. The stall watch and the kneel state (R107 to R110) -/

namespace Sys2Proof.Machine

/-! ## The stall watch and the kneel state (R107 to R110) -/

section
variable {s u w : State} {c : Fin 6}

theorem watched_iff : s.watched c = true ↔ (rd s.crn.corners c).state = .exhausting ∧ 0 < rd s.rlu.kneel c
    ∧ (rd s.rlu.watches c).mark = false := by
  simp [State.watched, and_assoc]

theorem changeWatch_watch (f : StallWatch → StallWatch) (s : State) (i : Fin 6) : rd (Rlu.changeWatch c f s).rlu.watches i =
    if c = i then f (rd s.rlu.watches i) else rd s.rlu.watches i := by
  rw [Rlu.changeWatch, State.modRlu_rlu, rd_upd]
  split
  · next same => rw [same]
  · rfl

/-- The values of RLU that the stall watch does not move. -/
structure RideStands (s t : State) : Prop where
  ride : t.rlu.ride = s.rlu.ride
  kneel : t.rlu.kneel = s.rlu.kneel
  targets : t.rlu.targets = s.rlu.targets
  held : t.rlu.held = s.rlu.held
  ilt : t.ilt = s.ilt
  cfg : t.cfg = s.cfg

theorem changeWatch_stands (f : StallWatch → StallWatch) (s : State) : RideStands s (Rlu.changeWatch c f s)
    ∧ (Rlu.changeWatch c f s).crn = s.crn ∧ (Rlu.changeWatch c f s).lnk = s.lnk ∧ (Rlu.changeWatch c f s).vda = s.vda :=
  ⟨⟨rfl, rfl, rfl, rfl, rfl, rfl⟩, rfl, rfl, rfl⟩

theorem watch_unwatched (quiet : ¬ s.watched c = true) : Rlu.watch c s = Rlu.changeWatch c StallWatch.stop s := if_neg quiet

theorem watch_starts (watched : s.watched c = true) (stopped : (rd s.rlu.watches c).running = false) : Rlu.watch c s =
    Rlu.changeWatch c (fun w => { w with running := true, reference := (rd s.crn.corners c).measured, timer := 0 }) s :=
  (if_pos watched).trans (if_neg (by simp [stopped]))

theorem watch_grows (watched : s.watched c = true) (running : (rd s.rlu.watches c).running = true)
    (short : (rd s.rlu.watches c).timer + 20 < 1000) :
    Rlu.watch c s = Rlu.changeWatch c (fun w => { w with timer := w.timer + 20 }) s :=
  (if_pos watched).trans ((if_pos running).trans (if_pos short))

theorem watch_ends (ends : s.spanEnds c = true) : Rlu.watch c s = Rlu.endSpan c s := by
  simp only [State.spanEnds, Bool.and_eq_true, decide_eq_true_eq] at ends
  obtain ⟨⟨watched, running⟩, long⟩ := ends
  exact (if_pos watched).trans ((if_pos running).trans (if_neg (by omega)))

/-- The state in which a stall is marked. -/
def State.stallMarked (c : Fin 6) (s : State) : State := Rlu.changeWatch c (fun w => { w.stop with mark := true }) s

theorem stall_eq (s : State) : Rlu.stall c s = Rlu.deriveKneel ((Crn.changeOne c (Corner.gain .stall) (s.stallMarked c)).post
    (.kneelStall c (rd (Crn.changeOne c (Corner.gain .stall) (s.stallMarked c)).rlu.kneel c)
      (rd (Crn.changeOne c (Corner.gain .stall) (s.stallMarked c)).crn.corners c).measured)) := rfl

theorem deriveKneel_beside (s : State) : (Rlu.deriveKneel s).crn = s.crn ∧ (Rlu.deriveKneel s).lnk = s.lnk ∧ (Rlu.deriveKneel s).vda = s.vda
    ∧ (Rlu.deriveKneel s).rlu = { s.rlu with kneelState := s.kneelNow } ∧ (Rlu.deriveKneel s).ilt = s.ilt
    ∧ (Rlu.deriveKneel s).cfg = s.cfg := ⟨rfl, rfl, rfl, rfl, rfl, rfl⟩

theorem stall_after (s : State) : (Rlu.stall c s).crn = (Crn.changeOne c (Corner.gain .stall) (s.stallMarked c)).crn
    ∧ (Rlu.stall c s).vda = (Crn.changeOne c (Corner.gain .stall) (s.stallMarked c)).vda
    ∧ (Rlu.stall c s).rlu.watches = (s.stallMarked c).rlu.watches ∧ (Rlu.stall c s).flagged 6 ∧ RideStands s (Rlu.stall c s) := by
  let v := Crn.changeOne c (Corner.gain .stall) (s.stallMarked c)
  let p := v.post (.kneelStall c (rd v.rlu.kneel c) (rd v.crn.corners c).measured)
  obtain ⟨crn, lnk, vda, rlu, ilt, cfg⟩ := deriveKneel_beside p
  have only : CornersOnly (s.stallMarked c) v := changeOne_only c _ _
  have posted : CornersOnly v p := post_only _ v
  have rlu' : p.rlu = (s.stallMarked c).rlu := posted.rlu.trans only.rlu
  have after : (Rlu.deriveKneel p).rlu = { (s.stallMarked c).rlu with kneelState := p.kneelNow } := by rw [rlu, rlu']
  have is : Rlu.stall c s = Rlu.deriveKneel p := stall_eq s
  rw [is]
  refine ⟨crn.trans (State.post_crn _ _), vda.trans (State.post_vda _ _), by rw [after], ?_, ?_⟩
  · rw [State.flagged, lnk]
    exact post_flagged_self _ _
  · refine ⟨?_, ?_, ?_, ?_, ilt.trans (posted.ilt.trans only.ilt), cfg.trans (posted.cfg.trans only.cfg)⟩
    · rw [after]; rfl
    · rw [after]; rfl
    · rw [after]; rfl
    · rw [after]; rfl

theorem stall_follows (c : Fin 6) (s : State) : CornersFollow (· = .stall) s (Rlu.stall c s) := by
  have changed : CornersFollow (· = .stall) (s.stallMarked c) (Crn.changeOne c (Corner.gain .stall) (s.stallMarked c)) := by
    obtain ⟨gate, axles⟩ := changeOne_beside c (Corner.gain .stall) (s.stallMarked c)
    refine ⟨fun i => ?_, axles, gate⟩
    refine Corner.Follows.trans ?_ ((changeOne_settled c (Corner.gain .stall) (s.stallMarked c) i).follows.mono fun _ => False.elim)
    split
    · exact Corner.gain_follows _ _
    · exact .refl _ _
  have marked : CornersFollow (· = .stall) s (s.stallMarked c) := cornersFollow_of_same rfl
  exact (marked.trans changed).trans (cornersFollow_of_same (stall_after s).1)

theorem watch_follows (c : Fin 6) (s : State) : CornersFollow (· = .stall) s (Rlu.watch c s) ∧ RideStands s (Rlu.watch c s) := by
  have still (f : StallWatch → StallWatch) : CornersFollow (· = .stall) s (Rlu.changeWatch c f s) ∧ RideStands s (Rlu.changeWatch c f s) :=
    ⟨cornersFollow_of_same rfl, (changeWatch_stands f s).1⟩
  unfold Rlu.watch
  dsimp only
  split
  · split
    · split
      · exact still _
      · unfold Rlu.endSpan
        dsimp only
        split
        · exact still _
        · exact ⟨stall_follows c s, (stall_after s).2.2.2.2⟩
    · exact still _
  · exact still _

/-! ### The hand-off that ends an update -/

/-- The state whose kneel state is derived. -/
def State.curbJudged (c : Fin 6) (u : State) : State :=
  if curbSide (Rlu.watch c u).cfg.settings.curbRight c then Rlu.judgeCurbLow (Rlu.watch c u) else Rlu.watch c u

theorem afterUpdate_eq (c : Fin 6) (u : State) : Rlu.afterUpdate c u = Rlu.deriveKneel (u.curbJudged c) := rfl

theorem curbJudged_beside (c : Fin 6) (u : State) : (u.curbJudged c).crn = (Rlu.watch c u).crn ∧ (u.curbJudged c).lnk = (Rlu.watch c u).lnk
    ∧ (u.curbJudged c).vda = (Rlu.watch c u).vda ∧ (u.curbJudged c).rlu.watches = (Rlu.watch c u).rlu.watches
    ∧ RideStands (Rlu.watch c u) (u.curbJudged c) := by
  unfold State.curbJudged
  split
  · exact ⟨rfl, rfl, rfl, rfl, ⟨rfl, rfl, rfl, rfl, rfl, rfl⟩⟩
  · exact ⟨rfl, rfl, rfl, rfl, ⟨rfl, rfl, rfl, rfl, rfl, rfl⟩⟩

theorem RideStands.trans {t : State} (h : RideStands s t) (k : RideStands t u) : RideStands s u :=
  ⟨k.ride.trans h.ride, k.kneel.trans h.kneel, k.targets.trans h.targets, k.held.trans h.held, k.ilt.trans h.ilt, k.cfg.trans h.cfg⟩

theorem afterUpdate_beside (c : Fin 6) (u : State) : (Rlu.afterUpdate c u).crn = (Rlu.watch c u).crn
    ∧ (Rlu.afterUpdate c u).lnk = (Rlu.watch c u).lnk ∧ (Rlu.afterUpdate c u).vda = (Rlu.watch c u).vda
    ∧ (Rlu.afterUpdate c u).rlu.watches = (Rlu.watch c u).rlu.watches ∧ RideStands u (Rlu.afterUpdate c u)
    ∧ CornersFollow (· = .stall) u (Rlu.afterUpdate c u) := by
  obtain ⟨crn, lnk, vda, watches, stands⟩ := curbJudged_beside c u
  obtain ⟨follows, stands'⟩ := watch_follows c u
  rw [afterUpdate_eq]
  have derived : RideStands (u.curbJudged c) (Rlu.deriveKneel (u.curbJudged c)) := ⟨rfl, rfl, rfl, rfl, rfl, rfl⟩
  exact ⟨crn, lnk, vda, watches, stands'.trans (stands.trans derived), follows.trans (cornersFollow_of_same crn)⟩

/-- The kneel state stands as the state gives it. -/
theorem afterUpdate_kneel (c : Fin 6) (u : State) : (Rlu.afterUpdate c u).rlu.kneelState = (Rlu.afterUpdate c u).kneelNow := rfl

theorem finRange_any {n : Nat} (p : Fin n → Bool) : (List.finRange n).any p = true ↔ ∃ i, p i = true := by
  simp [List.any_eq_true]

/-- R107, as the statements say it. -/
theorem kneelNow_cases (w : State) :
    let marked := ∃ i, (rd w.rlu.watches i).mark = true
    let rests := fun i => ((rd w.crn.corners i).state = .inBand ∨ (rd w.crn.corners i).state = .holding)
      ∧ ((rd w.crn.corners i).measured - rd w.rlu.targets i).natAbs ≤ rd w.cfg.settings.halfWidth i
    (marked → w.kneelNow = .stalled)
    ∧ (¬ marked → (∃ i, 0 < rd w.rlu.kneel i) → ((∀ i, 0 < rd w.rlu.kneel i → rests i) → w.kneelNow = .kneeled)
      ∧ (¬ (∀ i, 0 < rd w.rlu.kneel i → rests i) → w.kneelNow = .lowering))
    ∧ (¬ marked → (∀ i, rd w.rlu.kneel i = 0) →
      ((∃ i, (rd w.crn.corners i).measured < (w.rlu.ride : Int) - rd w.cfg.settings.halfWidth i) → w.kneelNow = .raising)
      ∧ ((∀ i, (w.rlu.ride : Int) - rd w.cfg.settings.halfWidth i ≤ (rd w.crn.corners i).measured) → w.kneelNow = .level)) := by
  intro marked rests
  have isMarked : ((List.finRange 6).any fun c => (rd w.rlu.watches c).mark) = true ↔ marked := finRange_any _
  have kneels : w.kneeling = true ↔ ∃ i, 0 < rd w.rlu.kneel i := by
    rw [State.kneeling, finRange_any]
    simp
  have rest (i : Fin 6) : w.atRest i = true ↔ rests i := by simp [State.atRest, rests]
  have all : ((List.finRange 6).all fun c => !decide (0 < rd w.rlu.kneel c) || w.atRest c) = true ↔ ∀ i, 0 < rd w.rlu.kneel i → rests i := by
    simp only [List.all_eq_true, List.mem_finRange, forall_const, Bool.or_eq_true, Bool.not_eq_true', decide_eq_false_iff_not, rest]
    exact forall_congr' fun i => (imp_iff_not_or).symm
  have low : ((List.finRange 6).any fun c =>
      decide ((rd w.crn.corners c).measured < (w.rlu.ride : Int) - (rd w.cfg.settings.halfWidth c : Nat))) = true
      ↔ ∃ i, (rd w.crn.corners i).measured < (w.rlu.ride : Int) - rd w.cfg.settings.halfWidth i := by
    rw [finRange_any]
    simp
  refine ⟨fun is => if_pos (isMarked.mpr is), fun unmarked kneeling => ⟨fun at' => ?_, fun not => ?_⟩,
    fun unmarked flat => ⟨fun below => ?_, fun level => ?_⟩⟩
  · exact (if_neg fun is => unmarked (isMarked.mp is)).trans ((if_pos (kneels.mpr kneeling)).trans (if_pos (all.mpr at')))
  · exact (if_neg fun is => unmarked (isMarked.mp is)).trans ((if_pos (kneels.mpr kneeling)).trans (if_neg fun is => not (all.mp is)))
  · have stands : ¬ w.kneeling = true := fun is => by
      obtain ⟨i, some⟩ := kneels.mp is
      rw [flat i] at some
      exact absurd some (by simp)
    exact (if_neg fun is => unmarked (isMarked.mp is)).trans ((if_neg stands).trans (if_pos (low.mpr below)))
  · have stands : ¬ w.kneeling = true := fun is => by
      obtain ⟨i, some⟩ := kneels.mp is
      rw [flat i] at some
      exact absurd some (by simp)
    refine (if_neg fun is => unmarked (isMarked.mp is)).trans ((if_neg stands).trans (if_neg fun is => ?_))
    obtain ⟨i, below⟩ := low.mp is
    exact absurd (level i) (by omega)

end
end Sys2Proof.Machine
end

