-- ==== Sys2Proof/Proofs/CurbLow.lean ====
section
/-! PROOF. Curb-low and the offsets into force (R103 to R105, R111, R112) -/

namespace Sys2Proof.Machine

/-! ## Curb-low at the end of a corner update (R112) -/

/-- Curb-low stands as the heights and the ride give it. -/
def State.CurbFits (s : State) : Prop := s.rlu.curbLow = s.curbLowNow

section
variable {s t u : State} {c : Fin 6}

theorem State.CurbFits.of_same (h : s.CurbFits) (cfg : t.cfg = s.cfg) (curb : t.rlu.curbLow = s.rlu.curbLow) (ride : t.rlu.ride = s.rlu.ride)
    (measured : ∀ i, (rd t.crn.corners i).measured = (rd s.crn.corners i).measured) : t.CurbFits := by
  rw [State.CurbFits, curb, h]
  simp only [State.curbLowNow, cfg, ride, measured]

theorem CornersFollow.measured {may : FreezeReason → Prop} (h : CornersFollow may s t) (i : Fin 6) :
    (rd t.crn.corners i).measured = (rd s.crn.corners i).measured := (h.corners i).cause.2.2.2.1

theorem judgeCurbLow_fits (s : State) : (Rlu.judgeCurbLow s).CurbFits := rfl

theorem deriveKneel_curbFits (h : s.CurbFits) : (Rlu.deriveKneel s).CurbFits := h.of_same rfl rfl rfl fun _ => rfl

theorem takeOffsets_curbFits (ride : Nat) (kneel : Vector Nat 6) (s : State) : (Rlu.takeOffsets ride kneel s).CurbFits :=
  deriveKneel_curbFits (judgeCurbLow_fits _)

theorem rluFromTable_curbFits (h : s.CurbFits) : (Rlu.fromTable s).CurbFits := by
  unfold Rlu.fromTable
  dsimp only
  split
  · exact h.of_same rfl rfl rfl fun _ => rfl
  · exact takeOffsets_curbFits _ _ _

theorem handOff_curbFits (e : Entry) (h : s.CurbFits) : (handOff .changed e s).CurbFits := by
  have judged : (if e.kind.holds then Brk.judge s else s).CurbFits := by
    split
    · have blocks := brkJudge_blocks s
      obtain ⟨rlu, crn⟩ := brk_judge_beside s
      exact h.of_same blocks.cfg (by rw [rlu]) (by rw [rlu]) fun i => by rw [crn]
    · exact h
  have rides (u : State) (k : u.CurbFits) : (if e.kind.rides then Rlu.fromTable u else u).CurbFits := by
    split
    · exact rluFromTable_curbFits k
    · exact k
  have corners (u : State) (k : u.CurbFits) : (if e.kind.freezes then Crn.fromTable u else u).CurbFits := by
    split
    · have only := change_only (fun _ c => (c.judge .ramp (u.anyLive .rampOut)).judge .service (u.anyLive .serviceLock)) u
      exact k.of_same only.cfg (congrArg Rlu.curbLow only.rlu) (congrArg Rlu.ride only.rlu) (crnFromTable_follows u).measured
    · exact k
  have centres (u : State) (k : u.CurbFits) : (if e.kind = .steerCentre then Stc.startCentring u else u).CurbFits := by
    split
    · unfold Stc.startCentring
      split
      · exact k.of_same rfl rfl rfl fun _ => rfl
      · exact k
    · exact k
  exact centres _ (corners _ (rides _ judged))

theorem finish_curbFits (h : s.CurbFits) : (State.finish s).CurbFits := by
  have handed (l : List Entry) (u : State) (k : u.CurbFits) : (l.foldl (fun s e => handOff .changed e s) u).CurbFits := by
    induction l generalizing u with
    | nil => exact k
    | cons e l ih => exact ih _ (handOff_curbFits e k)
  have once (u : State) (k : u.CurbFits) : (evaluateOnce u).CurbFits := by
    obtain ⟨-, cfg, crn, -, rlu⟩ := retabled_beside u
    unfold evaluateOnce
    split
    · exact k
    · exact handed _ u.retabled (k.of_same cfg (by rw [rlu]) (by rw [rlu]) fun i => by rw [crn])
  have settled : (reevaluate s).CurbFits := by
    unfold reevaluate
    split
    · exact once _ (once _ (once _ h))
    · exact h
  have judged (u : State) (k : u.CurbFits) : (Dsv.judge u).CurbFits := k.of_same rfl rfl rfl fun _ => rfl
  exact judged _ settled

/-- A corner update on the curb side leaves curb-low as the heights give it. -/
theorem afterUpdate_curbFits (side : curbSide u.cfg.settings.curbRight c = true) : (Rlu.afterUpdate c u).CurbFits := by
  have cfg : (Rlu.watch c u).cfg = u.cfg := (watch_follows c u).2.cfg
  have judged : u.curbJudged c = Rlu.judgeCurbLow (Rlu.watch c u) := if_pos (by rw [cfg]; exact side)
  rw [afterUpdate_eq, judged]
  exact deriveKneel_curbFits (judgeCurbLow_fits _)

/-! ## What RLU makes of the table (R103 to R105, R111) -/

/-- The offsets in force, with the watches of the corners whose kneel offset changes. -/
def State.offsetsPut (ride : Nat) (kneel : Vector Nat 6) (s : State) : State := s.modRlu fun r =>
  { r with
    ride := ride
    kneel := kneel
    targets := mapF kneel fun _ k => cornerTarget ride k
    watches := mapF r.watches fun c w => if rd kneel c = rd s.rlu.kneel c then w else { w.stop with mark := false } }

/-- A corner whose kneel offset changes loses its STALL. -/
def State.stallDropped (kneel : Vector Nat 6) (s : State) (c : Fin 6) (x : Corner) : Corner :=
  if rd kneel c = rd s.rlu.kneel c then x else x.lose .stall

theorem takeOffsets_eq (ride : Nat) (kneel : Vector Nat 6) (s : State) : Rlu.takeOffsets ride kneel s =
    Rlu.deriveKneel (Rlu.judgeCurbLow (Crn.change (s.stallDropped kneel) (s.offsetsPut ride kneel))) := rfl

theorem derivedRide_beside (u : State) : (Rlu.deriveKneel (Rlu.judgeCurbLow u)).rlu.watches = u.rlu.watches
    ∧ (Rlu.deriveKneel (Rlu.judgeCurbLow u)).rlu.held = u.rlu.held ∧ (Rlu.deriveKneel (Rlu.judgeCurbLow u)).rlu.kneel = u.rlu.kneel
    ∧ (Rlu.deriveKneel (Rlu.judgeCurbLow u)).crn = u.crn := ⟨rfl, rfl, rfl, rfl⟩

section
variable (ride : Nat) (kneel : Vector Nat 6) (s : State)

theorem takeOffsets_rlu : (Rlu.takeOffsets ride kneel s).rlu.held = s.rlu.held ∧ (Rlu.takeOffsets ride kneel s).rlu.kneel = kneel
    ∧ (Rlu.takeOffsets ride kneel s).rlu.watches = (s.offsetsPut ride kneel).rlu.watches := by
  obtain ⟨watches, held, kneel', -⟩ := derivedRide_beside (Crn.change (s.stallDropped kneel) (s.offsetsPut ride kneel))
  have only := change_only (s.stallDropped kneel) (s.offsetsPut ride kneel)
  rw [takeOffsets_eq, watches, held, kneel', only.rlu]
  exact ⟨rfl, rfl, rfl⟩

variable (c : Fin 6) (changes : rd kneel c ≠ rd s.rlu.kneel c)
include changes

theorem takeOffsets_corner : (rd (Rlu.takeOffsets ride kneel s).rlu.watches c).mark = false
    ∧ (rd (Rlu.takeOffsets ride kneel s).rlu.watches c).running = false
    ∧ (rd (Rlu.takeOffsets ride kneel s).crn.corners c).reasons.has .stall = false := by
  have watch : rd (s.offsetsPut ride kneel).rlu.watches c = { (rd s.rlu.watches c).stop with mark := false } := by
    rw [State.offsetsPut, State.modRlu_rlu, rd_mapF, if_neg changes]
  have settled := change_settled (s.stallDropped kneel) (s.offsetsPut ride kneel) c
  obtain ⟨-, -, -, crn⟩ := derivedRide_beside (Crn.change (s.stallDropped kneel) (s.offsetsPut ride kneel))
  rw [(takeOffsets_rlu ride kneel s).2.2, watch, takeOffsets_eq, crn, settled.reasons, State.stallDropped, if_neg changes, Corner.lose_has]
  exact ⟨rfl, rfl, rfl⟩

end

theorem rluFromTable_stays (s : State) (stays : s.offsetsHeld = true ∨ (s.rideOffset = s.rlu.ride ∧ (Vector.ofFn fun c : Fin 6 => s.kneelOffset c) = s.rlu.kneel)) :
    Rlu.fromTable s = s.modRlu fun r => { r with held := s.offsetsHeld } := if_pos stays

theorem rluFromTable_takes (s : State) (takes : ¬ (s.offsetsHeld = true ∨ (s.rideOffset = s.rlu.ride ∧ (Vector.ofFn fun c : Fin 6 => s.kneelOffset c) = s.rlu.kneel))) :
    Rlu.fromTable s = Rlu.takeOffsets s.rideOffset (Vector.ofFn fun c : Fin 6 => s.kneelOffset c) (s.modRlu fun r => { r with held := s.offsetsHeld }) :=
  if_neg takes

theorem rluFromTable_held (s : State) (held : (Rlu.fromTable s).rlu.held = true) :
    (Rlu.fromTable s).rlu = { s.rlu with held := true } ∧ (Rlu.fromTable s).crn = s.crn := by
  by_cases is : s.offsetsHeld = true
  · rw [rluFromTable_stays s (.inl is), is]
    exact ⟨rfl, rfl⟩
  · have now : (Rlu.fromTable s).rlu.held = s.offsetsHeld := by
      by_cases stays : s.offsetsHeld = true ∨ (s.rideOffset = s.rlu.ride ∧ (Vector.ofFn fun c : Fin 6 => s.kneelOffset c) = s.rlu.kneel)
      · rw [rluFromTable_stays s stays]
        rfl
      · rw [rluFromTable_takes s stays, (takeOffsets_rlu _ _ _).1]
        rfl
    exact absurd (now.symm.trans held) is

theorem rluFromTable_changes (s : State) (c : Fin 6) (changes : rd (Rlu.fromTable s).rlu.kneel c ≠ rd s.rlu.kneel c) :
    (rd (Rlu.fromTable s).rlu.watches c).mark = false ∧ (rd (Rlu.fromTable s).rlu.watches c).running = false
      ∧ (rd (Rlu.fromTable s).crn.corners c).reasons.stall = false := by
  by_cases stays : s.offsetsHeld = true ∨ (s.rideOffset = s.rlu.ride ∧ (Vector.ofFn fun c : Fin 6 => s.kneelOffset c) = s.rlu.kneel)
  · rw [rluFromTable_stays s stays] at changes
    exact absurd rfl changes
  · rw [rluFromTable_takes s stays] at changes ⊢
    rw [(takeOffsets_rlu _ _ _).2.1] at changes
    exact takeOffsets_corner _ _ _ c changes

end
end Sys2Proof.Machine
end

