-- ==== Sys2Proof/Proofs/CornerUpdateWhole.lean ====
section
/-! PROOF. A corner update to the hand-off to RLU (R84 to R101) -/

namespace Sys2Proof.Machine

theorem Evolves.targetsFit {s t : State} (h : Evolves s t) (fits : s.rlu.TargetsFit) : t.rlu.TargetsFit := by
  induction h with
  | refl => exact fits
  | tail _ m ih => exact raw_targetsFit (lk := false) (fit := true) (.move m) ih

/-! ## A corner update, whole -/

section
variable (c : Fin 6) (s : State)

/-- The corner's machine stepped, before its load is formed. -/
def State.cornerStepped : State := Crn.step c (Crn.measure c (cornerBegins c s))

theorem cornerBegins_beside : (cornerBegins c s).ilt = s.ilt ∧ (cornerBegins c s).rlu = s.rlu ∧ (cornerBegins c s).brk = s.brk
    ∧ (cornerBegins c s).stc = s.stc ∧ (cornerBegins c s).mot = s.mot ∧ (cornerBegins c s).cfg = s.cfg
    ∧ (cornerBegins c s).vda = s.vda ∧ (cornerBegins c s).lnk = s.lnk ∧ (cornerBegins c s).crn.gateOpen = s.crn.gateOpen
    ∧ (cornerBegins c s).crn.axles = s.crn.axles ∧ (cornerBegins c s).now = max s.now ((rd s.crn.corners c).lastUpdate + 20000) :=
  ⟨rfl, rfl, rfl, rfl, rfl, rfl, rfl, rfl, rfl, rfl, rfl⟩

theorem cornerBegins_corner (i : Fin 6) : rd (cornerBegins c s).crn.corners i = if c = i then
    { rd s.crn.corners i with lastUpdate := max s.now ((rd s.crn.corners c).lastUpdate + 20000) } else rd s.crn.corners i := by
  rw [cornerBegins, State.modCrn_crn, rd_upd]
  split
  · next same =>
    subst same
    rfl
  · rfl

theorem cornerBegins_gates : ((cornerBegins c s).gateCloses ↔ s.gateCloses) ∧ ((cornerBegins c s).gateOpens ↔ s.gateOpens)
    ∧ ((cornerBegins c s).supplyLow ↔ s.supplyLow) := ⟨Iff.rfl, Iff.rfl, Iff.rfl⟩

theorem cornerBegins_evolves : Evolves { s with now := max s.now ((rd s.crn.corners c).lastUpdate + 20000) } (cornerBegins c s) := by
  refine ev_crn (fun x => { x with corners := upd x.corners c fun y =>
    { y with lastUpdate := max s.now ((rd s.crn.corners c).lastUpdate + 20000) } }) (fun x => ⟨rfl, fun i => ?_⟩) .refl
  dsimp only
  rw [rd_upd]
  split
  · next same => rw [same]
  · rfl

theorem cornerUpdate_base : SameBase { s with now := max s.now ((rd s.crn.corners c).lastUpdate + 20000) } (cornerUpdateAt c s) :=
  (ev_finish (ev_afterUpdate c (ev_crnUpdate c (cornerBegins_evolves c s)))).base

theorem exec_cornerUpdate : exec (.cornerUpdate c) s = .next (cornerUpdateAt c s) := rfl

/-! ### The record of the corner, to the hand-off -/

/-- The state that the corner's height and reasons were taken in. -/
def State.cornerMeasured : State := Crn.measure c (cornerBegins c s)

/-- The state handed to RLU. -/
def State.cornerUpdated : State := Crn.update c (cornerBegins c s)

theorem cornerUpdated_eq : s.cornerUpdated c = Crn.takeAxle (cornerAxle c) (Crn.takeLoad c (s.cornerStepped c)) := rfl

theorem measured_only : CornersOnly (cornerBegins c s) (s.cornerMeasured c) := measure_only c _

theorem stepped_framed : CornersFramed (s.cornerMeasured c) (s.cornerStepped c) := step_framed c _

theorem updated_only : CornersOnly (cornerBegins c s) (s.cornerUpdated c) :=
  (measured_only c s).trans ((stepped_framed c s).only.trans ((takeLoad_only c _).trans (takeAxle_only _ _)))

theorem measured_spans : (s.cornerMeasured c).halfBand c = (rd s.cfg.settings.halfWidth c : Nat)
    ∧ (s.cornerMeasured c).stopMargin c = ((rd s.cfg.settings.halfWidth c * rd s.cfg.settings.stopLevel c / 4 : Nat) : Int)
    ∧ (s.cornerMeasured c).qualifySpan = (if s.mot.motion = .settling ∨ s.mot.motion = .standstill then 200 else 2000) := by
  have only := measured_only c s
  simp only [State.halfBand, State.stopMargin, State.qualifySpan, only.cfg, only.mot]
  exact ⟨rfl, rfl, rfl⟩

/-- The load is formed by the record after the step. -/
def State.loadsAt : Prop := s.cfg.device = .run ∧ (rd (s.cornerStepped c).crn.corners c).state = .inBand
  ∧ (rd s.mot.analog (pressureChannel c)).validity = .valid ∧ s.rlu.kneelState = .level

theorem stepped_loads : ((s.cornerStepped c).loadForms c ↔ s.loadsAt c) ∧ (s.cornerStepped c).loadNow c = s.loadNow c := by
  have only := (measured_only c s).trans (stepped_framed c s).only
  simp only [State.loadForms, State.loadsAt, State.loadNow, State.analogValue, only.cfg, only.mot, only.rlu]
  exact ⟨Iff.rfl, rfl⟩

/-- The record of the corner is the one after the step, but for its load. -/
theorem updated_corner : ∃ l v, rd (s.cornerUpdated c).crn.corners c = { rd (s.cornerStepped c).crn.corners c with load := l, loadValid := v }
    ∧ (s.loadsAt c → v = true ∧ l = s.loadNow c)
    ∧ (¬ s.loadsAt c → v = (rd (s.cornerStepped c).crn.corners c).loadValid ∧ l = (rd (s.cornerStepped c).crn.corners c).load) := by
  obtain ⟨forms, value⟩ := stepped_loads c s
  obtain ⟨taken, kept⟩ := takeLoad_corner c c (s.cornerStepped c)
  rw [cornerUpdated_eq, (takeAxle_corners _ _).1]
  by_cases loads : s.loadsAt c
  · rw [taken (forms.mpr loads), if_pos rfl, value]
    exact ⟨_, _, rfl, fun _ => ⟨rfl, rfl⟩, fun not => absurd loads not⟩
  · rw [kept fun is => loads (forms.mp is)]
    exact ⟨_, _, rfl, fun is => absurd is loads, fun _ => ⟨rfl, rfl⟩⟩

theorem updated_other {i : Fin 6} (other : i ≠ c) : rd (s.cornerUpdated c).crn.corners i = rd (s.cornerStepped c).crn.corners i := by
  obtain ⟨taken, kept⟩ := takeLoad_corner c i (s.cornerStepped c)
  rw [cornerUpdated_eq, (takeAxle_corners _ _).1]
  by_cases loads : (s.cornerStepped c).loadForms c
  · rw [taken loads, if_neg fun same => other same.symm]
  · rw [kept loads]

theorem updated_beside : (s.cornerUpdated c).crn.gateOpen = (Crn.judgeGate (cornerBegins c s)).crn.gateOpen
    ∧ ∀ a, rd (s.cornerUpdated c).crn.axles a = if cornerAxle c = a then
      { load := min 15000 ((rd (s.cornerUpdated c).crn.corners (leftCorner (cornerAxle c))).load
          + (rd (s.cornerUpdated c).crn.corners (rightCorner (cornerAxle c))).load + rd s.cfg.settings.unsprung (cornerAxle c))
        valid := (rd (s.cornerUpdated c).crn.corners (leftCorner (cornerAxle c))).loadValid
          && (rd (s.cornerUpdated c).crn.corners (rightCorner (cornerAxle c))).loadValid } else rd s.crn.axles a := by
  obtain ⟨corners, -, gate, -⟩ := takeAxle_corners (cornerAxle c) (Crn.takeLoad c (s.cornerStepped c))
  obtain ⟨-, -, -, gate', axles'⟩ := takeLoad_beside c (s.cornerStepped c)
  have framed := stepped_framed c s
  obtain ⟨gate'', axles''⟩ := measure_beside c (cornerBegins c s)
  have cfg : (Crn.takeLoad c (s.cornerStepped c)).cfg = s.cfg := ((measured_only c s).trans (framed.only.trans (takeLoad_only c _))).cfg
  refine ⟨gate.trans (gate'.trans (framed.gateOpen.trans gate'')), fun a => ?_⟩
  rw [cornerUpdated_eq, corners, takeAxle_axle, cfg]
  split
  · rfl
  · rw [axles', framed.axles]
    exact congrArg (fun v => rd v a) (axles''.trans (judgeGate_gate _).2.2.2)

end
end Sys2Proof.Machine
end

