-- ==== Sys2Proof/Proofs/CornerUpdateEnds.lean ====
section
/-! PROOF. The end of a corner update (R84 to R112) -/

namespace Sys2Proof.Machine

/-! ## The end of a corner update -/

section
variable (c : Fin 6) (s : State)

/-- After RLU. -/
def State.cornerHanded : State := Rlu.afterUpdate c (s.cornerUpdated c)

theorem cornerUpdateAt_eq : cornerUpdateAt c s = State.finish (s.cornerHanded c) := rfl

theorem handed_follows : CornersFollow (· = .stall) (s.cornerUpdated c) (s.cornerHanded c) := (afterUpdate_beside c _).2.2.2.2.2

theorem ended_follows : CornersFollow tableReason (s.cornerUpdated c) (cornerUpdateAt c s) :=
  ((handed_follows c s).mono fun _ is => .inr (.inr is)).trans (finish_follows _)

theorem gatePosts_kept (posted : (Crn.judgeGate (cornerBegins c s)).flagged 10) : (cornerUpdateAt c s).flagged 10 := by
  have judged : Evolves (Crn.judgeGate (cornerBegins c s)) (s.cornerMeasured c) :=
    ev_changeOne c _ (fun x fills => Corner.judge_filling _ _ _ (Corner.judge_filling _ _ _ fills)) (ev_takeHeights c .refl)
  have updated : Evolves (Crn.judgeGate (cornerBegins c s)) (s.cornerUpdated c) := ev_takeAxle _ (ev_takeLoad c (ev_crnStep c judged))
  exact (ev_finish (ev_afterUpdate c updated)).flagged posted

/-- The corner at the end, as measured and stepped. -/
theorem ended_corner : (rd (cornerUpdateAt c s).crn.corners c).measured = s.analogValue (heightChannel c)
    ∧ (rd (cornerUpdateAt c s).crn.corners c).target = rd s.rlu.targets c
    ∧ (rd (cornerUpdateAt c s).crn.corners c).lastUpdate = max s.now ((rd s.crn.corners c).lastUpdate + 20000)
    ∧ (rd (cornerUpdateAt c s).crn.corners c).reasons.artic = s.articulated
    ∧ (rd (cornerUpdateAt c s).crn.corners c).reasons.brake = s.braking := by
  have measures := measure_corner c (cornerBegins c s)
  rw [cornerBegins_corner, if_pos rfl] at measures
  have framed := (stepped_framed c s).corners c
  obtain ⟨l, v, updated, -⟩ := updated_corner c s
  have follows := (ended_follows c s).corners c
  obtain ⟨measured, target, -, -, last⟩ := measures.reads
  obtain ⟨-, -, -, measured', target'⟩ := follows.cause
  have last' : (rd (cornerUpdateAt c s).crn.corners c).lastUpdate = (rd (s.cornerUpdated c).crn.corners c).lastUpdate := by
    obtain ⟨_, _, _, _, _, same⟩ := follows.frame
    rw [same]
  have reason (r : FreezeReason) (out : ¬ tableReason r) (other : r ≠ .supply) : (rd (cornerUpdateAt c s).crn.corners c).reasons.has r
      = (rd (s.cornerMeasured c).crn.corners c).reasons.has r := by
    rw [follows.reasons r out, updated, ← framed.reasons r other]
  rw [measured', target', last', updated]
  refine ⟨framed.measured.trans measured, framed.target.trans target, framed.lastUpdate.trans last, ?_, ?_⟩
  · exact (reason .artic (by simp [tableReason]) (by simp)).trans measures.has_artic
  · exact (reason .brake (by simp [tableReason]) (by simp)).trans measures.has_brake

theorem ended_gate : (s.crn.gateOpen = true → ((cornerUpdateAt c s).crn.gateOpen = false ↔ s.gateCloses))
    ∧ (s.crn.gateOpen = false → ((cornerUpdateAt c s).crn.gateOpen = true ↔ s.gateOpens))
    ∧ (s.crn.gateOpen = true → s.supplyLow → (cornerUpdateAt c s).flagged 10) := by
  have gate : (cornerUpdateAt c s).crn.gateOpen = (Crn.judgeGate (cornerBegins c s)).crn.gateOpen :=
    (ended_follows c s).gateOpen.trans (updated_beside c s).1
  obtain ⟨closes, opens, stays, -⟩ := judgeGate_gate (cornerBegins c s)
  have apart := gates_apart (s := s)
  obtain ⟨isCloses, isOpens, isLow⟩ := cornerBegins_gates c s
  rw [isCloses] at closes stays
  rw [isOpens] at opens stays
  have begun : (cornerBegins c s).crn.gateOpen = s.crn.gateOpen := rfl
  rw [begun] at stays
  rw [gate]
  refine ⟨fun opened => ⟨fun shut => by_contra fun not => ?_, closes⟩, fun shut => ⟨fun opened => by_contra fun not => ?_, opens⟩,
    fun opened low => gatePosts_kept c s (judgeGate_posts (begun.trans opened) (isLow.mpr low))⟩
  · have kept := stays not fun is => by rw [is.1] at opened; exact absurd opened (by simp)
    rw [kept, opened] at shut
    exact absurd shut (by simp)
  · have kept := stays (fun is => by rw [is.1] at shut; exact absurd shut (by simp)) not
    rw [kept, shut] at opened
    exact absurd opened (by simp)

theorem measured_supply (i : Fin 6) : (s.gateCloses → (rd s.crn.corners i).state = .fillWait ∨ (rd s.crn.corners i).state = .filling →
      (rd s.crn.corners i).reasons.supply = false →
      (rd (s.cornerMeasured c).crn.corners i).state = .holding ∧ (rd (s.cornerMeasured c).crn.corners i).reasons.supply = true)
    ∧ (s.gateOpens → (rd (s.cornerMeasured c).crn.corners i).reasons.supply = false) := by
  obtain ⟨isCloses, isOpens, -⟩ := cornerBegins_gates c s
  by_cases same : i = c
  · subst same
    have measures := measure_corner i (cornerBegins i s)
    rw [cornerBegins_corner, if_pos rfl] at measures
    exact ⟨fun closes fills lacks => measures.closes (isCloses.mpr closes) fills lacks, fun opens => measures.opens (isOpens.mpr opens)⟩
  · have measures := measure_other same (cornerBegins c s)
    rw [cornerBegins_corner, if_neg fun is => same is.symm] at measures
    exact ⟨fun closes fills lacks => measures.closes (isCloses.mpr closes) fills lacks, fun opens => measures.opens (isOpens.mpr opens)⟩

theorem ended_other {i : Fin 6} (other : i ≠ c) : (rd (cornerUpdateAt c s).crn.corners i).measured = (rd s.crn.corners i).measured
    ∧ (rd (cornerUpdateAt c s).crn.corners i).target = (rd s.crn.corners i).target
    ∧ (rd (cornerUpdateAt c s).crn.corners i).load = (rd s.crn.corners i).load
    ∧ (rd (cornerUpdateAt c s).crn.corners i).loadValid = (rd s.crn.corners i).loadValid := by
  obtain ⟨-, valid, load, measured, target⟩ := ((ended_follows c s).corners i).cause
  have framed := (stepped_framed c s).corners i
  have measures := measure_other other (cornerBegins c s)
  rw [cornerBegins_corner, if_neg fun is => other is.symm] at measures
  obtain ⟨measured', target', load', valid'⟩ := measures.beside
  rw [measured, target, load, valid, updated_other c s other]
  exact ⟨framed.measured.trans measured', framed.target.trans target', framed.load.trans load', framed.loadValid.trans valid'⟩

theorem ended_axles : (rd (cornerUpdateAt c s).crn.axles (cornerAxle c)).load = min 15000
      ((rd (cornerUpdateAt c s).crn.corners (leftCorner (cornerAxle c))).load
        + (rd (cornerUpdateAt c s).crn.corners (rightCorner (cornerAxle c))).load + rd s.cfg.settings.unsprung (cornerAxle c))
    ∧ (rd (cornerUpdateAt c s).crn.axles (cornerAxle c)).valid = ((rd (cornerUpdateAt c s).crn.corners (leftCorner (cornerAxle c))).loadValid
        && (rd (cornerUpdateAt c s).crn.corners (rightCorner (cornerAxle c))).loadValid)
    ∧ ∀ a, a ≠ cornerAxle c → rd (cornerUpdateAt c s).crn.axles a = rd s.crn.axles a := by
  have follows := ended_follows c s
  have load (i : Fin 6) : (rd (cornerUpdateAt c s).crn.corners i).load = (rd (s.cornerUpdated c).crn.corners i).load := (follows.corners i).cause.2.2.1
  have valid (i : Fin 6) : (rd (cornerUpdateAt c s).crn.corners i).loadValid = (rd (s.cornerUpdated c).crn.corners i).loadValid :=
    (follows.corners i).cause.2.1
  have axle := (updated_beside c s).2
  rw [follows.axles, axle, if_pos rfl, load, load, valid, valid]
  refine ⟨rfl, rfl, fun a other => ?_⟩
  rw [axle, if_neg fun is => other is.symm]

theorem ended_curbLow (side : curbSide s.cfg.settings.curbRight c = true) : (cornerUpdateAt c s).rlu.curbLow = true ↔ ∃ i,
    curbSide s.cfg.settings.curbRight i = true ∧ (rd (cornerUpdateAt c s).crn.corners i).measured < ((cornerUpdateAt c s).rlu.ride : Int) - 30 := by
  have cfg : (s.cornerUpdated c).cfg = s.cfg := (updated_only c s).cfg
  have side' : curbSide (s.cornerUpdated c).cfg.settings.curbRight c = true := by rw [cfg]; exact side
  have fits : (cornerUpdateAt c s).CurbFits := finish_curbFits (afterUpdate_curbFits (u := s.cornerUpdated c) side')
  have ended : (cornerUpdateAt c s).cfg = s.cfg := (cornerUpdate_base c s).cfg
  rw [fits, curbLowNow_iff, ended]

end
end Sys2Proof.Machine
end

