-- ==== Sys2Proof/Proofs/CornerStatement.lean ====
section
/-! PROOF. The corner update, measured, stepped and handed over (R84 to R110) -/

namespace Sys2Proof.Machine

/-! ## The corner update, measured, stepped and handed over (R84 to R110) -/

section
variable (c : Fin 6) (s : State)

/-- What the measuring makes of the record of the corner (R84, R95). -/
theorem measured_record {x y : Corner} (x' : x = rd s.crn.corners c) (y' : y = rd (s.cornerMeasured c).crn.corners c) :
    y.measured = s.analogValue (heightChannel c) ∧ y.target = rd s.rlu.targets c
    ∧ (x.state = .fault → y.state = .fault)
    ∧ (y.reasons = x.reasons → x.state ≠ .fillWait →
      y = { x with measured := y.measured, target := y.target, lastUpdate := max s.now (x.lastUpdate + 20000) })
    ∧ (x.state ≠ .fault → (y.reasons.artic = true ∧ x.reasons.artic = false) ∨ (y.reasons.brake = true ∧ x.reasons.brake = false)
      ∨ (y.reasons.supply = true ∧ x.reasons.supply = false) → y.state = .holding)
    ∧ (x.state = .holding → (y.reasons = FreezeSet.empty → x.reasons ≠ FreezeSet.empty → y.state = .inBand)
      ∧ (y.reasons ≠ FreezeSet.empty → y.state = .holding)) := by
  have measures := measure_corner c (cornerBegins c s)
  rw [cornerBegins_corner, if_pos rfl, ← x', ← show y = rd (Crn.measure c (cornerBegins c s)).crn.corners c from y'] at measures
  obtain ⟨measured, target, -⟩ := measures.reads
  refine ⟨measured, target, fun fault => measures.fault.mpr fault, fun same acts => ?_, fun sound gains => measures.gains sound gains,
    fun holding => ⟨fun none some => ?_, fun some => (measures.calm (.inl holding)).holds some⟩⟩
  · rw [measures.keeps same acts]
    rfl
  · have rests : y.AtRest := measures.rests (by rw [Corner.AtRest, if_neg some]; exact holding)
    rw [rests, if_pos none]

/-- The load of the corner after the update (R100). -/
theorem updated_load {x z : Corner} (x' : x = rd s.crn.corners c) (z' : z = rd (s.cornerUpdated c).crn.corners c) :
    let loads := s.cfg.device = .run ∧ z.state = .inBand ∧ (rd s.mot.analog (pressureChannel c)).validity = .valid
      ∧ s.rlu.kneelState = .level
    (loads → z.loadValid = true
      ∧ z.load = (s.analogValue (pressureChannel c)).toNat * rd s.cfg.settings.area (cornerAxle c) / 10)
    ∧ (¬ loads → z.loadValid = x.loadValid ∧ z.load = x.load) := by
  obtain ⟨l, v, updated, formed, kept⟩ := updated_corner c s
  have measures := measure_corner c (cornerBegins c s)
  rw [cornerBegins_corner, if_pos rfl] at measures
  obtain ⟨-, -, load, valid, -⟩ := measures.reads
  have framed := (stepped_framed c s).corners c
  rw [← z'] at updated
  rw [updated, x']
  exact ⟨formed, fun not => ⟨(kept not).1.trans (framed.loadValid.trans valid), (kept not).2.trans (framed.load.trans load)⟩⟩

/-- What the step makes of the record, as it stands after the update (R86 to R92). -/
theorem updated_steps {y z : Corner} {d k e : Int} (y' : y = rd (s.cornerMeasured c).crn.corners c)
    (z' : z = rd (s.cornerUpdated c).crn.corners c) (d' : d = (rd s.cfg.settings.halfWidth c : Nat))
    (k' : k = ((rd s.cfg.settings.halfWidth c * rd s.cfg.settings.stopLevel c / 4 : Nat) : Int)) (e' : e = y.measured - y.target) :
    let span := if s.mot.motion = .settling ∨ s.mot.motion = .standstill then 200 else 2000
    let needless := y.reasons = { FreezeSet.empty with supply := true } ∧ -k ≤ e
    (y.state = .inBand →
      (-d ≤ e → e ≤ d → z.state = .inBand ∧ z.side = .none ∧ z.qualifyTimer = 0)
      ∧ (∀ q, e < -d → q = (if y.side = .low then min 2000 (y.qualifyTimer + 20) else 0) → q < span →
        z.state = .inBand ∧ z.side = .low ∧ z.qualifyTimer = q)
      ∧ ∀ q, d < e → q = (if y.side = .high then min 2000 (y.qualifyTimer + 20) else 0) → q < span →
        z.state = .inBand ∧ z.side = .high ∧ z.qualifyTimer = q)
    ∧ (y.state = .fillWait → (-k ≤ e → z.state = .inBand) ∧ (e < -k → z.state = .fillWait))
    ∧ (y.state = .filling → (-k ≤ e → z.state = .inBand)
      ∧ (e < -k → y.actionTimer + 20 < 8000 → z.state = .filling ∧ z.actionTimer = y.actionTimer + 20))
    ∧ (y.state = .exhausting → (e ≤ k → z.state = .inBand)
      ∧ (k < e → y.actionTimer + 20 < 8000 → z.state = .exhausting ∧ z.actionTimer = y.actionTimer + 20))
    ∧ (y.state = .holding → (needless → z.state = .inBand ∧ z.reasons = FreezeSet.empty)
      ∧ (¬ needless → z.state = .holding ∧ z.reasons = y.reasons))
    ∧ (y.state = .fault → z.state = .fault ∧ (needless → z.reasons = FreezeSet.empty) ∧ (¬ needless → z.reasons = y.reasons)) := by
  have steps := step_cases c (s.cornerMeasured c) y' rfl
  obtain ⟨half, margin, span⟩ := measured_spans c s
  obtain ⟨l, v, updated, -⟩ := updated_corner c s
  rw [half, margin, span, ← d', ← k', ← e'] at steps
  rw [z', updated]
  exact steps

/-- The stall watch of the corner after its update (R109). -/
theorem handed_watches {z : Corner} (z' : z = rd (s.cornerUpdated c).crn.corners c) :
    let u := s.cornerUpdated c
    let w := s.cornerHanded c
    let watches := z.state = .exhausting ∧ 0 < rd u.rlu.kneel c ∧ (rd u.rlu.watches c).mark = false
    (¬ watches → (rd w.rlu.watches c).running = false ∧ (rd w.rlu.watches c).timer = 0)
    ∧ (watches → (rd u.rlu.watches c).running = false →
      rd w.rlu.watches c = { running := true, reference := z.measured, timer := 0, mark := false })
    ∧ (watches → (rd u.rlu.watches c).running = true → (rd u.rlu.watches c).timer + 20 < 1000 →
      rd w.rlu.watches c = { rd u.rlu.watches c with timer := (rd u.rlu.watches c).timer + 20 }) := by
  intro u w watches
  have watched : u.watched c = true ↔ watches := by
    rw [watched_iff, ← show z = rd u.crn.corners c from z']
  have after : w.rlu.watches = (Rlu.watch c u).rlu.watches := (afterUpdate_beside c u).2.2.2.1
  rw [after]
  refine ⟨fun quiet => ?_, fun is stopped => ?_, fun is running short => ?_⟩
  · rw [watch_unwatched fun is => quiet (watched.mp is), changeWatch_watch, if_pos rfl]
    exact ⟨rfl, rfl⟩
  · rw [watch_starts (watched.mpr is) stopped, changeWatch_watch, if_pos rfl, z', is.2.2]
  · rw [watch_grows (watched.mpr is) running short, changeWatch_watch, if_pos rfl]

/-- The kneel state after the update (R107). -/
theorem handed_kneel : let w := s.cornerHanded c
    let marked := ∃ i, (rd w.rlu.watches i).mark = true
    let rests := fun i => ((rd w.crn.corners i).state = .inBand ∨ (rd w.crn.corners i).state = .holding)
      ∧ ((rd w.crn.corners i).measured - rd w.rlu.targets i).natAbs ≤ rd s.cfg.settings.halfWidth i
    (marked → w.rlu.kneelState = .stalled)
    ∧ (¬ marked → (∃ i, 0 < rd w.rlu.kneel i) →
      ((∀ i, 0 < rd w.rlu.kneel i → rests i) → w.rlu.kneelState = .kneeled)
      ∧ (¬ (∀ i, 0 < rd w.rlu.kneel i → rests i) → w.rlu.kneelState = .lowering))
    ∧ (¬ marked → (∀ i, rd w.rlu.kneel i = 0) →
      ((∃ i, (rd w.crn.corners i).measured < (w.rlu.ride : Int) - rd s.cfg.settings.halfWidth i) → w.rlu.kneelState = .raising)
      ∧ ((∀ i, (w.rlu.ride : Int) - rd s.cfg.settings.halfWidth i ≤ (rd w.crn.corners i).measured) →
        w.rlu.kneelState = .level)) := by
  have cfg : (s.cornerHanded c).cfg = s.cfg := (afterUpdate_beside c (s.cornerUpdated c)).2.2.2.2.1.cfg.trans (updated_only c s).cfg
  have cases' := kneelNow_cases (s.cornerHanded c)
  rw [cfg, ← show (s.cornerHanded c).rlu.kneelState = (s.cornerHanded c).kneelNow from afterUpdate_kneel c _] at cases'
  exact cases'

end

/-- Settles O51: the stages of the update one after another, each by what it makes of the record of the corner. -/
theorem cornerUpdateMeasures : Obligations.CornerUpdateMeasures := by
  unfold Obligations.CornerUpdateMeasures
  refine ⟨?_, ?_⟩
  · intro c s m u w t x y z d k e m' u' w' t' x' y' z' d' k' e' low closes opens span needless loads watches
    obtain rfl : m = s.cornerMeasured c := m'
    obtain rfl : u = s.cornerUpdated c := u'
    obtain rfl : w = s.cornerHanded c := w'
    obtain rfl : t = cornerUpdateAt c s := t'
    have base := cornerUpdate_base c s
    rw [← x'] at base
    have now : (cornerUpdateAt c s).now = max s.now (x.lastUpdate + 20000) := base.now
    obtain ⟨measured, target, last, artic, brake⟩ := ended_corner c s
    rw [← x', ← now] at last
    obtain ⟨closing, opening, posts⟩ := ended_gate c s
    obtain ⟨yMeasured, yTarget, faults, keeps, gains, holds⟩ := measured_record c s x' y'
    rw [← now] at keeps
    obtain ⟨inBand, fillWait, filling, exhausting, holding, fault⟩ := updated_steps c s y' z' d' k' e'
    obtain ⟨formed, kept⟩ := updated_load c s x' z'
    obtain ⟨-, valid, load, -⟩ := ((ended_follows c s).corners c).cause
    rw [← z'] at valid load
    obtain ⟨axle, axleValid, axles⟩ := ended_axles c s
    obtain ⟨quiet, starts, grows⟩ := handed_watches c s z'
    exact ⟨exec_cornerUpdate c s, base, last, measured, target, artic, brake, closing, opening, posts,
      fun is i => (measured_supply c s i).1 is, fun is i => (measured_supply c s i).2 is, yMeasured, yTarget, faults, keeps, gains, holds,
      inBand, fillWait, filling, exhausting, holding, fault, formed, kept, load, valid, fun i other => ended_other c s other,
      axle, axleValid, axles, quiet, starts, grows, handed_kneel c s, ended_curbLow c s⟩
  · intro s w w'
    subst w'
    exact ⟨rluFromTable_ridesFit s, fun fits => (ev_rluFromTable .refl).targetsFit fits, (ev_rluFromTable .refl).base, rlu_fromTable_ilt s,
      rluFromTable_held s, rluFromTable_changes s⟩

end Sys2Proof.Machine
end

