-- ==== Sys2Proof/Proofs/CornerMoments.lean ====
section
/-! PROOF. The fill queue and a corner that comes to act (R86 to R92, R96, R97) -/

namespace Sys2Proof.Machine

/-! ## The rows for one moment of a corner update (R86 to R92, R96, R97, R109, R110; log 4) -/

/-! ### The fill queue -/

section
variable {x y : Crn} {c : Fin 6}

theorem grantOne_full (full : ¬ x.fillingCount < 3) : x.grantOne = x := by
  unfold Crn.grantOne
  split
  · rfl
  · rw [if_neg full]

theorem grantOne_none (none : x.queue = []) : x.grantOne = x := by
  unfold Crn.grantOne
  rw [none]

theorem grantOne_front {rest : List (Fin 6)} (queue : x.queue = c :: rest) (room : x.fillingCount < 3) :
    x.grantOne = { x with corners := upd x.corners c (Corner.enter .filling), queue := rest } := by
  unfold Crn.grantOne
  rw [queue]
  exact if_pos room

theorem fillingCount_congr (same : ∀ i, (rd x.corners i).state = .filling ↔ (rd y.corners i).state = .filling) :
    x.fillingCount = y.fillingCount := by
  unfold Crn.fillingCount
  congr 2
  funext i
  simp only [same i]

/-- No corner stands in the queue after a settling but one that waited before it. -/
theorem settle_queue {s : State} {i : Fin 6} (there : i ∈ (Crn.settle s).crn.queue) :
    (rd (Crn.settle s).crn.corners i).state = .fillWait ∨ (rd (Crn.settle s).crn.corners i).state = .filling := by
  obtain ⟨waits, corners⟩ := settle_granting s
  have before := waits i there
  rcases corners i with same | ⟨-, granted⟩
  · exact .inl (by rw [same]; exact before)
  · exact .inr (by rw [granted]; rfl)

/-- The second record is the first with the corner put to wait at the end of the queue. -/
structure Crn.Asks (x : Crn) (c : Fin 6) (y : Crn) : Prop where
  still : (rd x.corners c).state = .inBand
  asks : (rd y.corners c).state = .fillWait
  others : ∀ i, i ≠ c → rd y.corners i = rd x.corners i
  queue : y.queue = x.queue ++ [c]
  absent : c ∉ x.queue

theorem Crn.Asks.leaves (h : x.Asks c y) :
    y.leaveQueue.queue = (x.queue.filter fun i => decide ((rd x.corners i).state = .fillWait)) ++ [c] := by
  have kept : (x.queue.filter fun i => decide ((rd y.corners i).state = .fillWait))
      = x.queue.filter fun i => decide ((rd x.corners i).state = .fillWait) := by
    refine List.filter_congr fun i there => ?_
    rw [h.others i fun same => h.absent (same ▸ there)]
  have last : ([c].filter fun i => decide ((rd y.corners i).state = .fillWait)) = [c] := by simp [h.asks]
  have left : y.leaveQueue.queue = y.queue.filter fun i => decide ((rd y.corners i).state = .fillWait) := rfl
  rw [left, h.queue, List.filter_append, kept, last]

theorem Crn.Asks.count (h : x.Asks c y) : y.leaveQueue.fillingCount = x.fillingCount := by
  refine fillingCount_congr fun i => ?_
  have left : y.leaveQueue.corners = y.corners := rfl
  rw [left]
  by_cases same : i = c
  · rw [same, h.asks, h.still]
    simp
  · rw [h.others i same]

theorem Crn.Asks.waits (h : x.Asks c y) (full : ¬ x.fillingCount < 3) : y.leaveQueue.grant = y.leaveQueue := by
  have stays := grantOne_full (x := y.leaveQueue) (by rw [h.count]; exact full)
  rw [Crn.grant, stays, stays, stays]

theorem Crn.Asks.fills (h : x.Asks c y) (first : x.queue = []) (room : x.fillingCount < 3) :
    y.leaveQueue.grant = { y.leaveQueue with corners := upd y.corners c (Corner.enter .filling), queue := [] } := by
  have front : y.leaveQueue.queue = [c] := by rw [h.leaves, first]; rfl
  rw [Crn.grant, grantOne_front front (by rw [h.count]; exact room), grantOne_none rfl, grantOne_none rfl]
  rfl

end

/-! ### A corner that comes to act -/

section
variable {m : State} {c : Fin 6}

/-- The corner that qualifies (R86). -/
def State.Qualifies (m : State) (c : Fin 6) : Prop := (rd m.crn.corners c).state = .inBand
  ∧ m.qualifySpan ≤ ((rd m.crn.corners c).qualify (m.halfBand c)).qualifyTimer

theorem step_qualifies (h : m.Qualifies c) : Crn.step c m = Crn.act c (m.qualified c) := by
  rw [step_inBand h.1, if_pos h.2]

theorem qualify_beside (d : Int) (y : Corner) : (y.qualify d).state = y.state ∧ (y.qualify d).reasons = y.reasons := by
  unfold Corner.qualify
  split
  · exact ⟨rfl, rfl⟩
  · split
    · exact ⟨rfl, rfl⟩
    · exact ⟨rfl, rfl⟩

theorem act_high {s : State} (side : (rd s.crn.corners c).side = .high) : Crn.act c s = Crn.changeOne c (Corner.enter .exhausting) s := by
  rw [Crn.act, side]

/-- The corner queued. -/
def State.queued (s : State) (c : Fin 6) : State := s.modCrn fun x => { x with queue := x.queue ++ [c] }

theorem act_low_open {s : State} (side : (rd s.crn.corners c).side = .low) (opened : s.crn.gateOpen = true) :
    Crn.act c s = Crn.changeOne c (Corner.enter .fillWait) (s.queued c) := by
  rw [Crn.act, side]
  exact if_pos opened

theorem act_low_closed {s : State} (side : (rd s.crn.corners c).side = .low) (closed : s.crn.gateOpen = false) :
    Crn.act c s = Crn.changeOne c (Corner.gain .supply) s := by
  rw [Crn.act, side]
  exact if_neg (by simp [closed])

/-- The state that the corner's ask for a fill is settled in. -/
def State.asking (m : State) (c : Fin 6) : State :=
  ((m.qualified c).queued c).modCrn fun x => { x with corners := upd x.corners c (Corner.enter .fillWait) }

theorem asking_asks (still : (rd m.crn.corners c).state = .inBand) (absent : c ∉ m.crn.queue) : m.crn.Asks c (m.asking c).crn := by
  refine ⟨still, ?_, fun i other => ?_, rfl, absent⟩
  · rw [State.asking, State.modCrn_crn, rd_upd, if_pos rfl]
    rfl
  · rw [State.asking, State.modCrn_crn, rd_upd, if_neg fun same => other same.symm]
    have queued : ((m.qualified c).queued c).crn.corners = (m.qualified c).crn.corners := rfl
    rw [queued, State.qualified, State.modCrn_crn, rd_upd, if_neg fun same => other same.symm]

theorem settled_supply (s : State) : (rd (Crn.settle s).vda.channels supplyChannel).command = bit (decide (0 < (Crn.settle s).crn.fillingCount)) := by
  rw [settle_crn]
  exact (commandCorners_commands (s.modCrn fun x => x.leaveQueue.grant)).2.2

theorem step_exhausts (h : m.Qualifies c) (high : m.halfBand c < (rd m.crn.corners c).measured - (rd m.crn.corners c).target) :
    (rd (Crn.step c m).crn.corners c).state = .exhausting ∧ (rd (Crn.step c m).crn.corners c).actionTimer = 0
    ∧ (rd (Crn.step c m).vda.channels (exhaustChannel c)).command = 1 := by
  have side : (rd (m.qualified c).crn.corners c).side = .high := by rw [qualified_corner, qualify_high (d := m.halfBand c) (Int.natCast_nonneg _) high]
  have entered : rd (Crn.changeOne c (Corner.enter .exhausting) (m.qualified c)).crn.corners c
      = (rd (m.qualified c).crn.corners c).enter .exhausting := changeOne_corner_acts (by simp [Corner.enter])
  have state : (rd (Crn.changeOne c (Corner.enter .exhausting) (m.qualified c)).crn.corners c).state = .exhausting := by rw [entered]; rfl
  rw [step_qualifies h, act_high side]
  refine ⟨state, by rw [entered]; rfl, ?_⟩
  rw [Crn.changeOne, (settle_commands _ c).2, ← Crn.changeOne, state]
  rfl

theorem step_fills (h : m.Qualifies c) (low : (rd m.crn.corners c).measured - (rd m.crn.corners c).target < -m.halfBand c)
    (opened : m.crn.gateOpen = true) (first : m.crn.queue = []) (room : m.crn.fillingCount < 3) :
    (rd (Crn.step c m).crn.corners c).state = .filling ∧ (rd (Crn.step c m).crn.corners c).actionTimer = 0
    ∧ (rd (Crn.step c m).vda.channels (fillChannel c)).command = 1 ∧ (rd (Crn.step c m).vda.channels supplyChannel).command = 1 := by
  have side : (rd (m.qualified c).crn.corners c).side = .low := by rw [qualified_corner, qualify_low low]
  have is : Crn.step c m = Crn.settle (m.asking c) := (step_qualifies h).trans (act_low_open side opened)
  have asks := asking_asks h.1 (c := c) (by rw [first]; simp)
  have corner : rd (Crn.settle (m.asking c)).crn.corners c = (rd (m.asking c).crn.corners c).enter .filling := by
    rw [settle_crn, asks.fills first room, rd_upd, if_pos rfl]
  have state : (rd (Crn.settle (m.asking c)).crn.corners c).state = .filling := by rw [corner]; rfl
  rw [is]
  refine ⟨state, by rw [corner]; rfl, ?_, ?_⟩
  · rw [(settle_commands _ c).1, state]
    rfl
  · rw [settled_supply, decide_eq_true (fillingCount_pos.mpr ⟨c, state⟩)]
    rfl

theorem step_waits (h : m.Qualifies c) (low : (rd m.crn.corners c).measured - (rd m.crn.corners c).target < -m.halfBand c)
    (opened : m.crn.gateOpen = true) (full : ¬ m.crn.fillingCount < 3) (absent : c ∉ m.crn.queue) :
    (rd (Crn.step c m).crn.corners c).state = .fillWait
    ∧ (Crn.step c m).crn.queue = (m.crn.queue.filter fun i => decide ((rd m.crn.corners i).state = .fillWait)) ++ [c] := by
  have side : (rd (m.qualified c).crn.corners c).side = .low := by rw [qualified_corner, qualify_low low]
  have is : Crn.step c m = Crn.settle (m.asking c) := (step_qualifies h).trans (act_low_open side opened)
  have asks := asking_asks h.1 absent
  rw [is, settle_crn, asks.waits full]
  exact ⟨asks.asks, asks.leaves⟩

theorem step_held (h : m.Qualifies c) (low : (rd m.crn.corners c).measured - (rd m.crn.corners c).target < -m.halfBand c)
    (closed : m.crn.gateOpen = false) (none : (rd m.crn.corners c).reasons = FreezeSet.empty) :
    (rd (Crn.step c m).crn.corners c).state = .holding
    ∧ (rd (Crn.step c m).crn.corners c).reasons = { FreezeSet.empty with supply := true } := by
  have side : (rd (m.qualified c).crn.corners c).side = .low := by rw [qualified_corner, qualify_low low]
  obtain ⟨state, reasons⟩ := qualify_beside (m.halfBand c) (rd m.crn.corners c)
  rw [← qualified_corner] at state reasons
  have lacks : (rd (m.qualified c).crn.corners c).reasons.has .supply = false := by rw [reasons, none]; rfl
  have free : ¬ ((rd (m.qualified c).crn.corners c).state = .holding ∨ (rd (m.qualified c).crn.corners c).state = .fault) := by
    rw [state, h.1]
    simp
  have gained : (rd (m.qualified c).crn.corners c).gain .supply
      = Corner.enter .holding { rd (m.qualified c).crn.corners c with reasons := (rd (m.qualified c).crn.corners c).reasons.put .supply true } :=
    (if_neg (by simp [lacks])).trans (if_neg free)
  have corner : rd (Crn.changeOne c (Corner.gain .supply) (m.qualified c)).crn.corners c = (rd (m.qualified c).crn.corners c).gain .supply :=
    changeOne_corner_acts (by rw [gained]; simp [Corner.enter])
  rw [step_qualifies h, act_low_closed side closed, corner, gained, reasons, none]
  exact ⟨rfl, rfl⟩

/-- The action of the corner reaches its bound (R88). -/
def State.Late (m : State) (c : Fin 6) (r : CornerFault) : Prop := 8000 ≤ (rd m.crn.corners c).actionTimer + 20 ∧
  ((r = .fillTimeout ∧ (rd m.crn.corners c).state = .filling ∧ m.fillDone c = false)
  ∨ (r = .exhaustTimeout ∧ (rd m.crn.corners c).state = .exhausting ∧ m.exhaustDone c = false))

theorem step_late {r : CornerFault} (h : m.Late c r) : Crn.step c m = Crn.fault c r (m.actionGrown c) := by
  obtain ⟨late, ⟨rfl, state, needed⟩ | ⟨rfl, state, needed⟩⟩ := h
  · rw [step_filling state, needed, if_neg (by simp), growAction_eq, if_pos late]
  · rw [step_exhausting state, needed, if_neg (by simp), growAction_eq, if_pos late]

theorem State.Late.sound {r : CornerFault} (h : m.Late c r) : (rd (m.actionGrown c).crn.corners c).state ≠ .fault := by
  rw [actionGrown_corner]
  obtain ⟨-, ⟨-, state, -⟩ | ⟨-, state, -⟩⟩ := h
  · simp [state]
  · simp [state]

end
end Sys2Proof.Machine
end

