-- ==== Sys2Proof/Proofs/CornerTimers.lean ====
section
/-! PROOF. The rows for one moment of a corner update (R86 to R110, log 4) -/

namespace Sys2Proof.Machine

/-! ### The moments, as the statement says them -/

section
variable {m : State} {c : Fin 6} {x : Corner}

theorem qualifies_iff_qualifies : m.qualifies c = true ↔ m.Qualifies c := by
  simp only [State.qualifies, Bool.and_eq_true, decide_eq_true_eq]
  exact Iff.rfl

/-- R86: what the qualifying of a corner is, on its side. -/
theorem qualifies_iff (x' : x = rd m.crn.corners c) : m.Qualifies c ↔ x.state = .inBand
    ∧ ((x.side = .low ∧ x.measured - x.target < -m.halfBand c) ∨ (x.side = .high ∧ m.halfBand c < x.measured - x.target))
    ∧ m.qualifySpan ≤ x.qualifyTimer + 20 := by
  obtain ⟨positive, bound⟩ := qualifySpan_pos m
  have half : (0 : Int) ≤ m.halfBand c := Int.natCast_nonneg _
  rw [State.Qualifies, ← x']
  refine and_congr_right fun _ => ?_
  rcases lt_or_ge (x.measured - x.target) (-m.halfBand c) with low | aboveLow
  · rw [qualify_low low]
    by_cases side : x.side = .low
    · simp only [side, if_true, low, true_and, and_self, true_or]
      omega
    · simp only [side, if_false, false_and, false_or]
      constructor
      · intro reached
        omega
      · rintro ⟨⟨-, high⟩, -⟩
        omega
  · rcases le_or_gt (x.measured - x.target) (m.halfBand c) with within | high
    · rw [qualify_within aboveLow within]
      constructor
      · intro reached
        exact absurd reached (Nat.not_le.mpr positive)
      · rintro ⟨⟨-, low⟩ | ⟨-, high⟩, -⟩
        · omega
        · omega
    · rw [qualify_high half high]
      by_cases side : x.side = .high
      · simp only [side, if_true, high, true_and, and_self, or_true]
        omega
      · simp only [side, if_false, false_and, or_false]
        constructor
        · intro reached
          omega
        · rintro ⟨⟨-, low⟩, -⟩
          omega

theorem timedOut_iff : m.timedOut c = true ↔ ∃ r, m.Late c r := by
  simp only [State.timedOut, State.Late, Bool.and_eq_true, Bool.or_eq_true, decide_eq_true_eq, Bool.not_eq_true']
  constructor
  · rintro ⟨late, fills | exhausts⟩
    · exact ⟨.fillTimeout, late, .inl ⟨rfl, fills⟩⟩
    · exact ⟨.exhaustTimeout, late, .inr ⟨rfl, exhausts⟩⟩
  · rintro ⟨r, late, ⟨-, fills⟩ | ⟨-, exhausts⟩⟩
    · exact ⟨late, .inl fills⟩
    · exact ⟨late, .inr exhausts⟩

theorem late_iff (x' : x = rd m.crn.corners c) (r : CornerFault) : m.Late c r ↔ 8000 ≤ x.actionTimer + 20 ∧
    ((r = .fillTimeout ∧ x.state = .filling ∧ x.measured - x.target < -m.stopMargin c)
      ∨ (r = .exhaustTimeout ∧ x.state = .exhausting ∧ m.stopMargin c < x.measured - x.target)) := by
  rw [State.Late, ← Bool.not_eq_true, ← Bool.not_eq_true, fillDone_iff, exhaustDone_iff, ← x', not_le, not_le]

theorem spanEnds_iff (u : State) : u.spanEnds c = true ↔ (rd u.crn.corners c).state = .exhausting ∧ 0 < rd u.rlu.kneel c
    ∧ (rd u.rlu.watches c).mark = false ∧ (rd u.rlu.watches c).running = true ∧ 1000 ≤ (rd u.rlu.watches c).timer + 20 := by
  simp only [State.spanEnds, Bool.and_eq_true, decide_eq_true_eq, watched_iff, and_assoc]

end

section
variable {c : Fin 6} {u : State}

/-- A corner that has fallen 5 mm by the end of the span (R109). -/
theorem endSpan_falls (fallen : 5 ≤ (rd u.rlu.watches c).reference - (rd u.crn.corners c).measured) : Rlu.endSpan c u =
    Rlu.changeWatch c (fun w => { w with reference := (rd u.crn.corners c).measured, timer := 0 }) u := if_pos fallen

theorem endSpan_stalls (stalled : (rd u.rlu.watches c).reference - (rd u.crn.corners c).measured < 5) : Rlu.endSpan c u = Rlu.stall c u :=
  if_neg (by omega)

theorem handOver_falls (ends : u.spanEnds c = true) (fallen : 5 ≤ (rd u.rlu.watches c).reference - (rd u.crn.corners c).measured) :
    rd (Rlu.afterUpdate c u).rlu.watches c = { rd u.rlu.watches c with reference := (rd u.crn.corners c).measured, timer := 0 }
    ∧ (Rlu.afterUpdate c u).crn = u.crn ∧ (Rlu.afterUpdate c u).lnk = u.lnk := by
  obtain ⟨crn, lnk, -, watches, -⟩ := afterUpdate_beside c u
  have is := (watch_ends ends).trans (endSpan_falls fallen)
  obtain ⟨-, crn', lnk', -⟩ := changeWatch_stands (c := c) (fun w => { w with reference := (rd u.crn.corners c).measured, timer := 0 }) u
  rw [crn, lnk, watches, is, changeWatch_watch, if_pos rfl]
  exact ⟨rfl, crn', lnk'⟩

theorem handOver_stalls (ends : u.spanEnds c = true) (stalled : (rd u.rlu.watches c).reference - (rd u.crn.corners c).measured < 5)
    (lacks : (rd u.crn.corners c).reasons.stall = false) :
    (rd (Rlu.afterUpdate c u).rlu.watches c).mark = true ∧ (rd (Rlu.afterUpdate c u).rlu.watches c).running = false
    ∧ (rd (Rlu.afterUpdate c u).crn.corners c).state = .holding ∧ (rd (Rlu.afterUpdate c u).crn.corners c).reasons.stall = true
    ∧ (Rlu.afterUpdate c u).rlu.kneelState = .stalled ∧ (Rlu.afterUpdate c u).flagged 6
    ∧ (rd (Rlu.afterUpdate c u).vda.channels (exhaustChannel c)).command = 0 ∧ (Rlu.afterUpdate c u).ilt = u.ilt := by
  obtain ⟨crn, lnk, vda, watches, stands, -⟩ := afterUpdate_beside c u
  have is : Rlu.watch c u = Rlu.stall c u := (watch_ends ends).trans (endSpan_stalls stalled)
  obtain ⟨crn', vda', watches', flagged, -⟩ := stall_after (c := c) u
  have exhausts := ((spanEnds_iff u).mp ends).1
  have watch : rd (Rlu.afterUpdate c u).rlu.watches c = { (rd u.rlu.watches c).stop with mark := true } := by
    rw [watches, is, watches', State.stallMarked, changeWatch_watch, if_pos rfl]
  have kept : (u.stallMarked c).crn = u.crn := rfl
  have gained : (rd u.crn.corners c).gain .stall
      = Corner.enter .holding { rd u.crn.corners c with reasons := (rd u.crn.corners c).reasons.put .stall true } := by
    refine (if_neg ?_).trans (if_neg ?_)
    · rw [show (rd u.crn.corners c).reasons.has .stall = false from lacks]
      simp
    · simp [exhausts]
  have corner : rd (Crn.changeOne c (Corner.gain .stall) (u.stallMarked c)).crn.corners c = (rd u.crn.corners c).gain .stall :=
    changeOne_corner_acts (s := u.stallMarked c) (by rw [kept, gained]; simp [Corner.enter])
  have state : (rd (Crn.changeOne c (Corner.gain .stall) (u.stallMarked c)).crn.corners c).state = .holding := by rw [corner, gained]; rfl
  refine ⟨by rw [watch], by rw [watch]; rfl, by rw [crn, is, crn', state], ?_, ?_, ?_, ?_, stands.ilt⟩
  · rw [crn, is, crn', corner, gained]
    rfl
  · rw [afterUpdate_kneel]
    exact (kneelNow_cases _).1 ⟨c, by rw [watch]⟩
  · rw [State.flagged, lnk, is]
    exact flagged
  · rw [vda, is, vda', Crn.changeOne, (settle_commands _ c).2, ← Crn.changeOne, state]
    rfl

end

section
variable (c : Fin 6) (s : State)

/-- What the stages after the step leave of its outcome. -/
theorem updated_stepped : (rd (s.cornerUpdated c).crn.corners c).state = (rd (s.cornerStepped c).crn.corners c).state
    ∧ (rd (s.cornerUpdated c).crn.corners c).actionTimer = (rd (s.cornerStepped c).crn.corners c).actionTimer
    ∧ (rd (s.cornerUpdated c).crn.corners c).reasons = (rd (s.cornerStepped c).crn.corners c).reasons
    ∧ (rd (s.cornerUpdated c).crn.corners c).fault = (rd (s.cornerStepped c).crn.corners c).fault
    ∧ (s.cornerUpdated c).crn.queue = (s.cornerStepped c).crn.queue ∧ (s.cornerUpdated c).vda = (s.cornerStepped c).vda
    ∧ (s.cornerUpdated c).lnk = (s.cornerStepped c).lnk := by
  obtain ⟨l, v, updated, -⟩ := updated_corner c s
  obtain ⟨vda, lnk, queue, -⟩ := takeLoad_beside c (s.cornerStepped c)
  obtain ⟨-, queue', -, vda', lnk'⟩ := takeAxle_corners (cornerAxle c) (Crn.takeLoad c (s.cornerStepped c))
  rw [← cornerUpdated_eq] at queue' vda' lnk'
  rw [updated]
  exact ⟨rfl, rfl, rfl, rfl, queue'.trans queue, vda'.trans vda, lnk'.trans lnk⟩

theorem measured_absent (still : (rd (s.cornerMeasured c).crn.corners c).state = .inBand) : c ∉ (s.cornerMeasured c).crn.queue := by
  intro there
  have waits : (rd (s.cornerMeasured c).crn.corners c).state = .fillWait ∨ (rd (s.cornerMeasured c).crn.corners c).state = .filling :=
    settle_queue there
  rw [still] at waits
  rcases waits with waits | fills
  · exact nomatch waits
  · exact nomatch fills

theorem updated_late {r : CornerFault} (late : (s.cornerMeasured c).Late c r) (run : s.cfg.device = .run) :
    (rd (s.cornerUpdated c).crn.corners c).state = .fault ∧ (rd (s.cornerUpdated c).crn.corners c).fault = some r
    ∧ (s.cornerUpdated c).flagged 5 ∧ (rd (s.cornerUpdated c).vda.channels (fillChannel c)).command = 0
    ∧ (rd (s.cornerUpdated c).vda.channels (exhaustChannel c)).command = 0 := by
  have stepped : s.cornerStepped c = Crn.fault c r ((s.cornerMeasured c).actionGrown c) := step_late late
  have grown : CornersOnly (s.cornerMeasured c) ((s.cornerMeasured c).actionGrown c) := modCrn_only _ _
  have cfg : ((s.cornerMeasured c).actionGrown c).cfg = s.cfg := grown.cfg.trans (measured_only c s).cfg
  have inRun : ((s.cornerMeasured c).actionGrown c).inRun = true := by
    rw [State.inRun, cfg, run]
    rfl
  obtain ⟨faulted, cause, -, flagged, fill, exhaust⟩ := crnFault_entered (r := r) inRun late.sound
  obtain ⟨state, -, -, fault, -, vda, lnk⟩ := updated_stepped c s
  rw [State.flagged, lnk, state, fault, vda, stepped]
  exact ⟨faulted, cause, flagged, fill, exhaust⟩

theorem updated_exhausts (h : (s.cornerMeasured c).Qualifies c) (high : (s.cornerMeasured c).halfBand c
      < (rd (s.cornerMeasured c).crn.corners c).measured - (rd (s.cornerMeasured c).crn.corners c).target) :
    (rd (s.cornerUpdated c).crn.corners c).state = .exhausting ∧ (rd (s.cornerUpdated c).crn.corners c).actionTimer = 0
    ∧ (rd (s.cornerUpdated c).vda.channels (exhaustChannel c)).command = 1 := by
  obtain ⟨state, timer, -, -, -, vda, -⟩ := updated_stepped c s
  rw [state, timer, vda]
  exact step_exhausts h high

section
variable (h : (s.cornerMeasured c).Qualifies c) (low : (rd (s.cornerMeasured c).crn.corners c).measured
  - (rd (s.cornerMeasured c).crn.corners c).target < -(s.cornerMeasured c).halfBand c)
include h low

theorem updated_fills (opened : (s.cornerMeasured c).crn.gateOpen = true) (first : (s.cornerMeasured c).crn.queue = [])
    (room : (s.cornerMeasured c).crn.fillingCount < 3) :
    (rd (s.cornerUpdated c).crn.corners c).state = .filling ∧ (rd (s.cornerUpdated c).crn.corners c).actionTimer = 0
    ∧ (rd (s.cornerUpdated c).vda.channels (fillChannel c)).command = 1
    ∧ (rd (s.cornerUpdated c).vda.channels supplyChannel).command = 1 := by
  obtain ⟨state, timer, -, -, -, vda, -⟩ := updated_stepped c s
  rw [state, timer, vda]
  exact step_fills h low opened first room

theorem updated_waits (opened : (s.cornerMeasured c).crn.gateOpen = true) (full : (s.cornerMeasured c).crn.fillingCount = 3) :
    (rd (s.cornerUpdated c).crn.corners c).state = .fillWait ∧ (s.cornerUpdated c).crn.queue =
      ((s.cornerMeasured c).crn.queue.filter fun i => decide ((rd (s.cornerMeasured c).crn.corners i).state = .fillWait)) ++ [c] := by
  obtain ⟨state, -, -, -, queue, -⟩ := updated_stepped c s
  have noRoom : ¬ (s.cornerMeasured c).crn.fillingCount < 3 := by omega
  rw [state, queue]
  exact step_waits h low opened noRoom (measured_absent c s h.1)

theorem updated_held (closed : (s.cornerMeasured c).crn.gateOpen = false)
    (none : (rd (s.cornerMeasured c).crn.corners c).reasons = FreezeSet.empty) :
    (rd (s.cornerUpdated c).crn.corners c).state = .holding
    ∧ (rd (s.cornerUpdated c).crn.corners c).reasons = { FreezeSet.empty with supply := true } := by
  obtain ⟨state, -, reasons, -⟩ := updated_stepped c s
  rw [state, reasons]
  exact step_held h low closed none

end
end

/-- Settles O52: each moment is a case of the step of the corner machine, or of the end of the stall watch's span. -/
theorem cornerTimersRunOut : Obligations.CornerTimersRunOut := by
  unfold Obligations.CornerTimersRunOut
  intro c s m u v x w d k m' u' v' x' w' d' k' runs span low high qualifies late ends
  obtain rfl : m = s.cornerMeasured c := m'
  obtain rfl : u = s.cornerUpdated c := u'
  obtain rfl : v = s.cornerHanded c := v'
  obtain ⟨half, margin, span'⟩ := measured_spans c s
  rw [← d'] at half
  rw [← k'] at margin
  have isQualified : (s.cornerMeasured c).Qualifies c ↔ qualifies := by rw [qualifies_iff x', half, span']
  have isLate (r : CornerFault) : (s.cornerMeasured c).Late c r ↔ late r := by rw [late_iff x', margin]
  have isEnd : (s.cornerUpdated c).spanEnds c = true ↔ ends := by rw [spanEnds_iff, ← w']
  subst x'
  refine ⟨rfl, fun is => ?_, fun not => ?_, fun r is => ?_, fun not => ?_, fun is => ?_, fun not => ?_, fun is isHigh => ?_,
    fun is isLow opened first room => ?_, fun is isLow opened full => ?_, fun is isLow closed none => ?_, fun r is run => ?_,
    fun is fallen => ?_, fun is stalled lacks => ?_⟩
  · exact congrArg Host.Outcome.next (if_pos (qualifies_iff_qualifies.mpr (isQualified.mpr is)))
  · exact congrArg Host.Outcome.next (if_neg fun is => not (isQualified.mp (qualifies_iff_qualifies.mp is)))
  · exact congrArg Host.Outcome.next (if_pos (timedOut_iff.mpr ⟨r, (isLate r).mpr is⟩))
  · refine congrArg Host.Outcome.next (if_neg fun is => ?_)
    obtain ⟨r, is⟩ := timedOut_iff.mp is
    exact not r ((isLate r).mp is)
  · exact congrArg Host.Outcome.next (if_pos (isEnd.mpr is))
  · exact congrArg Host.Outcome.next (if_neg fun is => not (isEnd.mp is))
  · exact updated_exhausts c s (isQualified.mpr is) (by rw [half]; exact isHigh.2)
  · exact updated_fills c s (isQualified.mpr is) (by rw [half]; exact isLow.2) opened first room
  · exact updated_waits c s (isQualified.mpr is) (by rw [half]; exact isLow.2) opened full
  · exact updated_held c s (isQualified.mpr is) (by rw [half]; exact isLow.2) closed none
  · exact updated_late c s ((isLate r).mpr is) run
  · rw [w'] at fallen ⊢
    exact handOver_falls (isEnd.mpr is) fallen
  · rw [w'] at stalled
    obtain ⟨mark, stopped, holds, has, kneel, flagged, command, ilt⟩ := handOver_stalls (isEnd.mpr is) stalled lacks
    exact ⟨mark, stopped, holds, has, kneel, flagged, command, ilt.trans (updated_only c s).ilt⟩

end Sys2Proof.Machine
end

