-- ==== Sys2Proof/Proofs/LatchCauses.lean ====
section
/-! PROOF. What a latch leaves of the steering, and its causes (R140 to R142, R150; log 39) -/

namespace Sys2Proof.Machine

/-! ## What a latch leaves of the steering (R141, R142, R150) -/

section
variable {s t u : State}

/-- A STEER_CENTRE that is live stays live while entries are only gained. -/
theorem Gains.anyLive (h : Gains s t) {k : Kind} (live : s.anyLive k = true) : t.anyLive k = true := by
  obtain ⟨f, there, kind⟩ := anyLive_iff.mp live
  obtain ⟨i, ordered, entry⟩ := mem_live_iff.mp there
  obtain ⟨g, entry', reviewed⟩ := h.kept i f entry
  have same : g.kind = f.kind := congrArg (fun r => r.2.1) reviewed.record
  exact anyLive_iff.mpr ⟨g, mem_live_iff.mpr ⟨i, h.stays i ordered, entry'⟩, same.trans kind⟩

/-- From the first state to the second STC keeps all but its latch and its handle, or has entered CENTRING too. -/
structure LatchMoves (s t : State) : Prop where
  stc : ∃ l h, (t.stc = { s.stc with latch := l, selfHandle := h } ∧ t.lockCommand = s.lockCommand)
    ∨ ((s.stc.state = .frozen ∨ s.stc.state = .tracking)
      ∧ t.stc = { s.stc with latch := l, selfHandle := h, state := .centring, centringTimer := 0 } ∧ t.lockCommand = 1)

theorem LatchMoves.of_same (stc : t.stc = { s.stc with latch := t.stc.latch, selfHandle := t.stc.selfHandle })
    (lock : t.lockCommand = s.lockCommand) : LatchMoves s t := ⟨_, _, .inl ⟨stc, lock⟩⟩

theorem LatchMoves.refl (s : State) : LatchMoves s s := .of_same rfl rfl

theorem LatchMoves.trans (h : LatchMoves s t) (k : LatchMoves t u) : LatchMoves s u := by
  obtain ⟨l, a, ⟨same, lock⟩ | ⟨from', entered, lock⟩⟩ := h
  · obtain ⟨l', a', ⟨same', lock'⟩ | ⟨from', entered, lock'⟩⟩ := k
    · exact ⟨l', a', .inl ⟨by rw [same', same], lock'.trans lock⟩⟩
    · exact ⟨l', a', .inr ⟨by rwa [same] at from', by rw [entered, same], lock'⟩⟩
  · obtain ⟨l', a', ⟨same', lock'⟩ | ⟨from'', -, -⟩⟩ := k
    · exact ⟨l', a', .inr ⟨from', by rw [same', entered], lock'.trans lock⟩⟩
    · rw [entered] at from''
      exact absurd from'' (by simp)

theorem post_latchMoves (n : Notice) (s : State) : LatchMoves s (s.post n) := by
  refine .of_same ?_ ?_
  · rw [State.post_stc]
  · rw [State.lockCommand, State.post_vda, State.lockCommand]

theorem startCentring_latchMoves (s : State) : LatchMoves s (Stc.startCentring s) := by
  by_cases enters : (s.stc.state = .frozen ∨ s.stc.state = .tracking) ∧ s.anyLive .steerCentre = true
  · rw [startCentring_enters enters.1 enters.2]
    exact ⟨s.stc.latch, s.stc.selfHandle, .inr ⟨enters.1, by rw [Stc.commandLock, command_stc, State.modStc_stc], commandLock_lockCommand _⟩⟩
  · have stays : Stc.startCentring s = s := if_neg enters
    rw [stays]
    exact .refl s

theorem openSelf_latchMoves (s : State) : LatchMoves s (openSelf .steerCentre .vehicle none s).1 := by
  unfold openSelf
  split
  · split
    · exact .refl s
    · split
      · exact .refl s
      · next slot free =>
        dsimp only
        rw [handOff_steerCentre (by rfl)]
        refine LatchMoves.trans (.of_same ?_ ?_) (startCentring_latchMoves _)
        · rw [State.placeEntry_stc]
        · rw [State.lockCommand, State.placeEntry_vda, State.lockCommand]
  · exact .refl s

theorem askEntry_latchMoves (s : State) : LatchMoves s (Stc.askEntry s) := by
  unfold Stc.askEntry
  split
  · exact (openSelf_latchMoves s).trans (.of_same rfl rfl)
  · exact .refl s

theorem setLatch_latchMoves (c : LatchCause) (s : State) : LatchMoves s (Stc.setLatch c s) := by
  cases latched : s.stc.latch with
  | some q =>
    rw [setLatch_stands latched]
    exact .refl s
  | none =>
    have put : LatchMoves s (s.modStc fun x => { x with latch := some c }) := .of_same rfl rfl
    rw [setLatch_eq latched]
    exact put.trans ((askEntry_latchMoves _).trans (post_latchMoves _ _))

theorem judgeLock_latchMoves (s : State) : LatchMoves s (Stc.judgeLock s) := by
  unfold Stc.judgeLock
  split
  · exact setLatch_latchMoves _ s
  · exact .refl s

/-- What no latch moves. -/
theorem LatchMoves.keeps (h : LatchMoves s t) : t.stc.disagreeTimer = s.stc.disagreeTimer ∧ t.stc.trackTimer = s.stc.trackTimer
    ∧ t.stc.command = s.stc.command ∧ t.stc.schedule = s.stc.schedule ∧ t.stc.windowOpen = s.stc.windowOpen := by
  obtain ⟨l, a, ⟨same, -⟩ | ⟨-, entered, -⟩⟩ := h.stc
  · rw [same]
    exact ⟨rfl, rfl, rfl, rfl, rfl⟩
  · rw [entered]
    exact ⟨rfl, rfl, rfl, rfl, rfl⟩

/-- STC outside FROZEN and TRACKING stays where it is. -/
theorem LatchMoves.stays (h : LatchMoves s t) (still : s.stc.state ≠ .frozen ∧ s.stc.state ≠ .tracking) :
    t.stc = { s.stc with latch := t.stc.latch, selfHandle := t.stc.selfHandle } ∧ t.lockCommand = s.lockCommand := by
  obtain ⟨l, a, ⟨same, lock⟩ | ⟨frozen | tracking, -⟩⟩ := h.stc
  · refine ⟨?_, lock⟩
    rw [same]
  · exact absurd frozen still.1
  · exact absurd tracking still.2

end

/-! ## The causes of a steering update (R140, R141; log 39 for their order) -/

section
variable {s : State}

/-- The disagreement timer after this update. -/
def State.disagreeNext (s : State) : Nat :=
  if s.analogFaulty 12 = false ∧ s.analogFaulty 13 = false ∧ 20 < (s.analogValue 12 - s.analogValue 13).natAbs
  then min 100 (s.stc.disagreeTimer + 10) else 0

/-- The state with the timer put. -/
def State.disagreed (n : Nat) (s : State) : State := s.modStc fun x => { x with disagreeTimer := n }

theorem judgeDisagreement_eq (s : State) : Stc.judgeDisagreement s =
    if 100 ≤ s.disagreeNext then Stc.setLatch .disagree (s.disagreed s.disagreeNext) else s.disagreed s.disagreeNext := by
  have timer : (if !s.analogFaulty 12 && !s.analogFaulty 13 && s.anglesDisagree then grow 10 100 s.stc.disagreeTimer else 0) = s.disagreeNext := by
    unfold State.disagreeNext State.anglesDisagree grow
    simp only [Bool.and_eq_true, Bool.not_eq_true', decide_eq_true_eq, and_assoc]
  rw [← timer]
  rfl

/-- R141: the first cause that this update finds. -/
def State.steerCause (s : State) : Option LatchCause :=
  if s.analogFaulty 12 = true then some .artASensor
  else if s.analogFaulty 13 = true then some .artBSensor
  else if s.analogFaulty 14 = true then some .frontSensor
  else if s.analogFaulty 15 = true then some .actuatorSensor
  else if 100 ≤ s.disagreeNext then some .disagree
  else if s.inRun = true ∧ s.stc.state = .tracking ∧ s.mot.speed = none then some .speedInvalid
  else none

theorem judgeSensor_sound {c : Fin 21} (sound : s.analogFaulty c = false) : Stc.judgeSensor c s = s := if_neg (by simp [sound])

theorem judgeSensor_faulty {c : Fin 21} (faulty : s.analogFaulty c = true) : Stc.judgeSensor c s = Stc.setLatch (sensorCause c) s :=
  if_pos faulty

theorem judgeSensor_latched {c : Fin 21} {q : LatchCause} (latched : s.stc.latch = some q) : Stc.judgeSensor c s = s := by
  unfold Stc.judgeSensor
  split
  · exact setLatch_stands latched
  · rfl

theorem judgeSpeed_latched {q : LatchCause} (latched : s.stc.latch = some q) : Stc.judgeSpeed s = s := by
  unfold Stc.judgeSpeed
  split
  · exact setLatch_stands latched
  · rfl

theorem judgeDisagreement_latched {q : LatchCause} (latched : s.stc.latch = some q) : Stc.judgeDisagreement s = s.disagreed s.disagreeNext := by
  rw [judgeDisagreement_eq]
  split
  · exact setLatch_stands (s := s.disagreed s.disagreeNext) latched
  · rfl

theorem setLatch_disagreeNext (c : LatchCause) (s : State) : (Stc.setLatch c s).disagreeNext = s.disagreeNext := by
  have mot : (Stc.setLatch c s).mot = s.mot := (ev_setLatch c (.refl (s := s))).base.mot
  have timer := (setLatch_latchMoves c s).keeps.1
  have faulty (c' : Fin 21) : (Stc.setLatch c s).analogFaulty c' = s.analogFaulty c' := by rw [State.analogFaulty, mot, State.analogFaulty]
  have value (c' : Fin 21) : (Stc.setLatch c s).analogValue c' = s.analogValue c' := by rw [State.analogValue, mot, State.analogValue]
  unfold State.disagreeNext
  rw [faulty, faulty, value, value, timer]

theorem judgePlausibility_latched {q : LatchCause} (latched : s.stc.latch = some q) :
    Stc.judgePlausibility s = s.disagreed s.disagreeNext := by
  unfold Stc.judgePlausibility
  dsimp only
  rw [judgeSensor_latched latched, judgeSensor_latched latched, judgeSensor_latched latched, judgeSensor_latched latched,
    judgeDisagreement_latched latched]
  exact judgeSpeed_latched (s := s.disagreed s.disagreeNext) latched

/-- With a cause already latched the rest of the judgement only puts the timer. -/
theorem disagreement_after (c : LatchCause) (clear : s.stc.latch = none) : Stc.judgeSpeed (Stc.judgeDisagreement (Stc.setLatch c s))
    = (Stc.setLatch c s).disagreed s.disagreeNext := by
  have latched := (setLatch_takes c clear).1
  rw [judgeDisagreement_latched latched, setLatch_disagreeNext]
  exact judgeSpeed_latched (s := (Stc.setLatch c s).disagreed s.disagreeNext) latched

/-- The outcomes of the judgement. -/
inductive State.Judged (s : State) : State → Prop
  | sensor (c : LatchCause) (cause : s.steerCause = some c) : s.Judged ((Stc.setLatch c s).disagreed s.disagreeNext)
  | after (c : LatchCause) (cause : s.steerCause = some c) : s.Judged (Stc.setLatch c (s.disagreed s.disagreeNext))
  | quiet (none : s.steerCause = none) : s.Judged (s.disagreed s.disagreeNext)

theorem judgePlausibility_judged (clear : s.stc.latch = none) : s.Judged (Stc.judgePlausibility s) := by
  have latched (c : LatchCause) := (setLatch_takes c clear).1
  unfold Stc.judgePlausibility
  dsimp only
  cases artA : s.analogFaulty 12 with
  | true =>
    rw [judgeSensor_faulty artA, judgeSensor_latched (latched _), judgeSensor_latched (latched _), judgeSensor_latched (latched _),
      disagreement_after _ clear]
    exact .sensor _ (if_pos artA)
  | false =>
  rw [judgeSensor_sound artA]
  cases artB : s.analogFaulty 13 with
  | true =>
    rw [judgeSensor_faulty artB, judgeSensor_latched (latched _), judgeSensor_latched (latched _), disagreement_after _ clear]
    exact .sensor _ (by simp [State.steerCause, artA, artB, sensorCause])
  | false =>
  rw [judgeSensor_sound artB]
  cases front : s.analogFaulty 14 with
  | true =>
    rw [judgeSensor_faulty front, judgeSensor_latched (latched _), disagreement_after _ clear]
    exact .sensor _ (by simp [State.steerCause, artA, artB, front, sensorCause])
  | false =>
  rw [judgeSensor_sound front]
  cases actuator : s.analogFaulty 15 with
  | true =>
    rw [judgeSensor_faulty actuator, disagreement_after _ clear]
    exact .sensor _ (by simp [State.steerCause, artA, artB, front, actuator, sensorCause])
  | false =>
  rw [judgeSensor_sound actuator, judgeDisagreement_eq]
  by_cases apart : 100 ≤ s.disagreeNext
  · rw [if_pos apart, judgeSpeed_latched (setLatch_takes (s := s.disagreed s.disagreeNext) _ clear).1]
    exact .after _ (by simp [State.steerCause, artA, artB, front, actuator, apart])
  · rw [if_neg apart]
    by_cases lost : s.inRun = true ∧ s.stc.state = .tracking ∧ s.mot.speed = none
    · have sets : Stc.judgeSpeed (s.disagreed s.disagreeNext) = Stc.setLatch .speedInvalid (s.disagreed s.disagreeNext) := if_pos lost
      rw [sets]
      exact .after _ (by simp only [State.steerCause, artA, artB, front, actuator, apart, lost]; simp)
    · have quiet : Stc.judgeSpeed (s.disagreed s.disagreeNext) = s.disagreed s.disagreeNext := if_neg lost
      rw [quiet]
      refine .quiet ?_
      simp only [State.steerCause, artA, artB, front, actuator, apart, lost]
      simp

end
end Sys2Proof.Machine
end

