-- ==== Sys2Proof/Proofs/SteeringInputs.lean ====
section
/-! PROOF. A steering update to its command (R139 to R144) -/

namespace Sys2Proof.Machine

/-! ## A steering update, stage by stage (R139 to R147) -/

section
variable {s t u : State}

/-- A latch moves the same fields beside a value put into others. -/
theorem LatchMoves.disagreed (h : LatchMoves s t) (n : Nat) : LatchMoves (s.disagreed n) (t.disagreed n) := by
  obtain ⟨l, a, ⟨same, lock⟩ | ⟨from', entered, lock⟩⟩ := h
  · exact ⟨l, a, .inl ⟨by rw [State.disagreed, State.modStc_stc, same, State.disagreed, State.modStc_stc], lock⟩⟩
  · exact ⟨l, a, .inr ⟨from', by rw [State.disagreed, State.modStc_stc, entered, State.disagreed, State.modStc_stc], lock⟩⟩

/-- The state with a schedule put. -/
def State.scheduled (u : Option Schedule) (s : State) : State := s.modStc fun x => { x with schedule := u }

theorem LatchMoves.scheduled (h : LatchMoves s t) (u : Option Schedule) : LatchMoves (s.scheduled u) (t.scheduled u) := by
  obtain ⟨l, a, ⟨same, lock⟩ | ⟨from', entered, lock⟩⟩ := h
  · exact ⟨l, a, .inl ⟨by rw [State.scheduled, State.modStc_stc, same, State.scheduled, State.modStc_stc], lock⟩⟩
  · exact ⟨l, a, .inr ⟨from', by rw [State.scheduled, State.modStc_stc, entered, State.scheduled, State.modStc_stc], lock⟩⟩

/-- R144: the schedule after the update. -/
def State.scheduleNext (s : State) : Option Schedule :=
  match s.mot.speed with
  | some v => if s.inRun then some (s.stc.bankInUse.lookup v) else s.stc.schedule
  | none => s.stc.schedule

theorem lookUp_eq (s : State) : Stc.lookUp s = s.scheduled s.scheduleNext := by
  unfold Stc.lookUp State.scheduleNext
  cases s.mot.speed with
  | none => rfl
  | some v =>
    dsimp only
    split
    · rfl
    · rfl

theorem scheduleNext_speed {v : Nat} (run : s.inRun = true) (speed : s.mot.speed = some v) :
    s.scheduleNext = some ((s.stc.bank s.stc.inUse).lookup v) := by
  unfold State.scheduleNext
  rw [speed]
  exact if_pos run

theorem scheduleNext_none (out : s.inRun = false ∨ s.mot.speed = none) : s.scheduleNext = s.stc.schedule := by
  unfold State.scheduleNext
  split
  · next v speed =>
    rcases out with out | none
    · exact if_neg (by simp [out])
    · rw [speed] at none
      exact nomatch none
  · rfl

theorem LatchMoves.bank (h : LatchMoves s t) : t.stc.bankInUse = s.stc.bankInUse := by
  obtain ⟨l, a, ⟨same, -⟩ | ⟨-, entered, -⟩⟩ := h.stc
  · rw [same]
    rfl
  · rw [entered]
    rfl

end

section
variable (s : State)

/-- The update as it begins. -/
def State.steerBegun : State :=
  (s.advanceTo (s.stc.lastUpdate + 10000)).modStc fun x => { x with lastUpdate := (s.advanceTo (s.stc.lastUpdate + 10000)).now }

/-- With the inputs taken. -/
def State.steerTaken : State := Stc.takeInputs s.steerBegun

/-- And with the disagreement timer and the schedule put. -/
def State.steerPut : State := (s.steerTaken.disagreed s.disagreeNext).scheduled s.scheduleNext

/-- After the plausibility and the lookup. -/
def State.steerLooked : State := Stc.lookUp (Stc.judgePlausibility s.steerTaken)

/-- After the command. -/
def State.steerSteered : State := Stc.steer s.steerLooked

/-- The damper, the frame and the report of a steering update. -/
def State.steerFramed (r : State) : State := Stc.takeReport (Stc.placeFrame (Stc.damp (Stc.judgeJoint r)))

theorem steeringMoves_eq : steeringMoves s = State.steerFramed s.steerSteered := rfl

theorem steerTaken_beside : s.steerTaken.ilt = s.ilt ∧ s.steerTaken.cfg = s.cfg ∧ s.steerTaken.mot = s.mot ∧ s.steerTaken.vda = s.vda
    ∧ s.steerTaken.lnk = s.lnk ∧ s.steerTaken.dsv = s.dsv ∧ s.steerTaken.now = max s.now (s.stc.lastUpdate + 10000) :=
  ⟨rfl, rfl, rfl, rfl, rfl, rfl, rfl⟩

theorem steerTaken_stc : s.steerTaken.stc = { s.stc with
    lastUpdate := max s.now (s.stc.lastUpdate + 10000)
    prevGamma := if s.stc.gammaFormed then some s.stc.gamma else none
    gamma := s.gammaNow
    gammaFormed := true
    delta1 := s.analogValue 14
    delta3 := s.analogValue 15 } := rfl

theorem steerTaken_cause : s.steerTaken.steerCause = s.steerCause ∧ s.steerTaken.disagreeNext = s.disagreeNext
    ∧ s.steerTaken.scheduleNext = s.scheduleNext := ⟨rfl, rfl, rfl⟩

theorem steerTaken_evolves : Evolves { s with now := max s.now (s.stc.lastUpdate + 10000) } s.steerTaken :=
  ev_takeInputs (ev_stc (fun x => { x with lastUpdate := max s.now (s.stc.lastUpdate + 10000) }) (fun _ => ⟨rfl, rfl⟩) .refl)

theorem steerLooked_evolves : Evolves { s with now := max s.now (s.stc.lastUpdate + 10000) } s.steerLooked :=
  ev_lookUp (ev_judgePlausibility (steerTaken_evolves s))

theorem steeringMoves_evolves : Evolves s.steerLooked s.steerSteered := ev_steer .refl

end

/-! ### To the command -/

section
variable {a : State}

/-- The state with the disagreement timer and the schedule put. -/
def State.inputsPut (a : State) : State := (a.disagreed a.disagreeNext).scheduled a.scheduleNext

/-- The lookup reads nothing that a latch moves. -/
theorem scheduleNext_of_moves {b : State} (h : LatchMoves a b) (evolves : Evolves a b) : b.scheduleNext = a.scheduleNext := by
  have schedule := h.keeps.2.2.2.1
  unfold State.scheduleNext State.inRun
  rw [evolves.base.mot, evolves.base.cfg, h.bank, schedule]

theorem disagreed_scheduleNext (n : Nat) (a : State) : (a.disagreed n).scheduleNext = a.scheduleNext := rfl

theorem lookedUp_latched (latched : a.stc.latch ≠ none) : Stc.lookUp (Stc.judgePlausibility a) = a.inputsPut := by
  obtain ⟨q, latch⟩ := Option.ne_none_iff_exists'.mp latched
  rw [judgePlausibility_latched latch, lookUp_eq]
  rfl

theorem lookedUp_quiet (clear : a.stc.latch = none) (quiet : a.steerCause = none) :
    Stc.lookUp (Stc.judgePlausibility a) = a.inputsPut := by
  have judged := judgePlausibility_judged clear
  generalize Stc.judgePlausibility a = b at judged
  rw [lookUp_eq]
  cases judged with
  | sensor c cause => exact absurd (quiet.symm.trans cause) (by simp)
  | after c cause => exact absurd (quiet.symm.trans cause) (by simp)
  | quiet => rfl

/-- STC holds the entry of its latch, and has entered CENTRING from where it may. -/
structure CentreEntered (a b : State) : Prop where
  holds : b.HoldsCentre
  live : b.anyLive .steerCentre = true
  enters : a.stc.state = .frozen ∨ a.stc.state = .tracking → b.stc.state = .centring ∧ b.stc.centringTimer = 0 ∧ b.lockCommand = 1

theorem CentreEntered.same {b c : State} (h : CentreEntered a b) (ilt : c.ilt = b.ilt) (handle : c.stc.selfHandle = b.stc.selfHandle)
    (state : c.stc.state = b.stc.state) (timer : c.stc.centringTimer = b.stc.centringTimer) (vda : c.vda = b.vda) : CentreEntered a c := by
  obtain ⟨n, e, held, resolved, entry⟩ := h.holds
  refine ⟨⟨n, e, handle.trans held, by rwa [resolve_congr ilt], entry⟩, by rw [anyLive_congr (State.live_congr ilt)]; exact h.live, fun from' => ?_⟩
  rw [state, timer, State.lockCommand, vda]
  exact h.enters from'

theorem setLatch_centreEntered (c : LatchCause) (clear : a.stc.latch = none) (run : a.inRun = true) (opens : a.CentreOpens) :
    CentreEntered a (Stc.setLatch c a) := by
  obtain ⟨holds, turns, live⟩ := setLatch_opens c clear run opens
  refine ⟨holds, live, fun from' => ?_⟩
  obtain ⟨stc, lock⟩ := turns.entered from'
  rw [stc]
  exact ⟨rfl, rfl, lock⟩

/-- What a cause found at this update does. -/
structure State.LatchesInto (c : LatchCause) (a b : State) : Prop where
  latch : b.stc.latch = some c
  flagged : b.flagged 7
  moves : LatchMoves a.inputsPut b
  opens : a.inRun = true → a.CentreOpens → CentreEntered a b

theorem lookedUp_latches {c : LatchCause} (clear : a.stc.latch = none) (cause : a.steerCause = some c) :
    State.LatchesInto c a (Stc.lookUp (Stc.judgePlausibility a)) := by
  have judged := judgePlausibility_judged clear
  generalize Stc.judgePlausibility a = b at judged
  rw [lookUp_eq]
  cases judged with
  | quiet none => exact absurd (cause.symm.trans none) (by simp)
  | sensor c' cause' =>
    obtain rfl : c' = c := Option.some.inj (cause'.symm.trans cause)
    have moves := setLatch_latchMoves c' a
    have schedule : ((Stc.setLatch c' a).disagreed a.disagreeNext).scheduleNext = a.scheduleNext :=
      (disagreed_scheduleNext _ _).trans (scheduleNext_of_moves moves (ev_setLatch c' .refl))
    obtain ⟨latch, flagged⟩ := setLatch_takes c' clear
    rw [schedule]
    exact ⟨latch, flagged, (moves.disagreed a.disagreeNext).scheduled _,
      fun run opens => (setLatch_centreEntered c' clear run opens).same rfl rfl rfl rfl rfl⟩
  | after c' cause' =>
    obtain rfl : c' = c := Option.some.inj (cause'.symm.trans cause)
    have moves := setLatch_latchMoves c' (a.disagreed a.disagreeNext)
    have schedule : (Stc.setLatch c' (a.disagreed a.disagreeNext)).scheduleNext = a.scheduleNext :=
      (scheduleNext_of_moves moves (ev_setLatch c' .refl)).trans (disagreed_scheduleNext _ a)
    obtain ⟨latch, flagged⟩ := setLatch_takes (s := a.disagreed a.disagreeNext) c' clear
    rw [schedule]
    refine ⟨latch, flagged, moves.scheduled _, fun run opens => ?_⟩
    have entered := setLatch_centreEntered (a := a.disagreed a.disagreeNext) c' clear run (centreOpens_congr opens rfl rfl)
    exact (CentreEntered.mk entered.holds entered.live entered.enters : CentreEntered a _).same rfl rfl rfl rfl rfl

end

section
variable {s : State}

theorem steerPut_eq (s : State) : s.steerPut = s.steerTaken.inputsPut := rfl

theorem steerLooked_latched (latched : s.stc.latch ≠ none) : s.steerLooked = s.steerPut := lookedUp_latched (a := s.steerTaken) latched

theorem steerLooked_quiet (clear : s.stc.latch = none) (quiet : s.steerCause = none) : s.steerLooked = s.steerPut :=
  lookedUp_quiet (a := s.steerTaken) clear quiet

theorem steerLooked_latches {c : LatchCause} (clear : s.stc.latch = none) (cause : s.steerCause = some c) :
    State.LatchesInto c s.steerTaken s.steerLooked := lookedUp_latches (a := s.steerTaken) clear cause

theorem steerLooked_moves (s : State) : LatchMoves s.steerPut s.steerLooked := by
  by_cases clear : s.stc.latch = none
  · cases cause : s.steerCause with
    | none =>
      rw [steerLooked_quiet clear cause]
      exact .refl _
    | some c => exact (steerLooked_latches clear cause).moves
  · rw [steerLooked_latched clear]
    exact .refl _

theorem oc_judgePlausibility {P : State → Prop} (b : OpenClosed P) {a : State} (h : P a) : P (Stc.judgePlausibility a) := by
  have sensor (c : Fin 21) (u : State) (h : P u) : P (Stc.judgeSensor c u) := oc_ite (oc_setLatch b _ h) h
  have sensors := sensor 15 _ (sensor 14 _ (sensor 13 _ (sensor 12 _ h)))
  have apart (u : State) (h : P u) : P (Stc.judgeDisagreement u) := oc_ite (oc_setLatch b _ (b.stc _ _ h)) (b.stc _ _ h)
  have speed (u : State) (h : P u) : P (Stc.judgeSpeed u) := oc_ite (oc_setLatch b _ h) h
  exact speed _ (apart _ sensors)

/-- No entry is lost to a steering update's latch. -/
theorem steerLooked_gains (s : State) : Gains s s.steerLooked := by
  have taken : Gains s s.steerTaken := gains_of_ilt rfl
  have put (u : State) (x : Option Schedule) (h : Gains s u) : Gains s (u.scheduled x) := h.trans (gains_of_ilt rfl)
  rw [State.steerLooked, lookUp_eq]
  exact put _ _ (oc_judgePlausibility (gains_openClosed s) taken)

end
end Sys2Proof.Machine
end

