-- ==== Sys2Proof/Proofs/SteeringCommand.lean ====
section
/-! PROOF. The command's part of a steering update (R141, R145 to R147, R150, R151) -/

namespace Sys2Proof.Machine

/-! ## The command's part of a steering update, by the state (R141, R145 to R147, R150, R151) -/

section
variable {p r w : State} {u : Schedule}

/-- What the command's part of the update may move of STC. -/
def SteersOn (p r : State) : Prop := ∃ st cm lo up tr ce l h, r.stc = { p.stc with
  state := st, command := cm, lower := lo, upper := up, trackTimer := tr, centringTimer := ce, latch := l, selfHandle := h }

theorem SteersOn.refl (p : State) : SteersOn p p := ⟨_, _, _, _, _, _, _, _, rfl⟩

theorem SteersOn.trans (h : SteersOn p r) (k : SteersOn r w) : SteersOn p w := by
  obtain ⟨_, _, _, _, _, _, _, _, h⟩ := h
  obtain ⟨_, _, _, _, _, _, _, _, k⟩ := k
  exact ⟨_, _, _, _, _, _, _, _, by rw [k, h]⟩

theorem LatchMoves.steersOn (h : LatchMoves p r) : SteersOn p r := by
  obtain ⟨_, _, ⟨same, -⟩ | ⟨-, entered, -⟩⟩ := h.stc
  · exact ⟨_, _, _, _, _, _, _, _, same⟩
  · exact ⟨_, _, _, _, _, _, _, _, entered⟩

/-- R146: the bounds of the command. -/
def State.lowerBound (u : Schedule) (s : State) : Int :=
  if s.stc.windowOpen = true ∧ s.cfg.settings.curbRight = false then -(min u.lim (s.cfg.settings.curbGuard : Nat)) else -u.lim

def State.upperBound (u : Schedule) (s : State) : Int :=
  if s.stc.windowOpen = true ∧ s.cfg.settings.curbRight = true then min u.lim (s.cfg.settings.curbGuard : Nat) else u.lim

/-- R147: the command toward a target. -/
def State.commandToward (target : Int) (u : Schedule) (s : State) : Int :=
  max (s.lowerBound u) (min (s.upperBound u) (s.stc.command + max (-u.slew) (min u.slew (target - s.stc.command))))

theorem steerBounds_eq (u : Schedule) (s : State) :
    steerBounds s.stc.windowOpen s.cfg.settings.curbRight u.lim (s.cfg.settings.curbGuard : Nat) = (s.lowerBound u, s.upperBound u) := by
  unfold steerBounds State.lowerBound State.upperBound
  cases s.stc.windowOpen with
  | false => rfl
  | true =>
    cases s.cfg.settings.curbRight with
    | false => rfl
    | true => rfl

theorem formCommand_eq (target : Int) (u : Schedule) (s : State) : Stc.formCommand target u s = s.modStc fun x =>
    { x with command := s.commandToward target u, lower := s.lowerBound u, upper := s.upperBound u } := by
  unfold Stc.formCommand
  dsimp only
  rw [steerBounds_eq]
  rfl

theorem steer_none (none : p.stc.schedule = none) : Stc.steer p = p := by
  unfold Stc.steer
  rw [none]

theorem steer_still (still : p.stc.state ≠ .tracking ∧ p.stc.state ≠ .centring) : Stc.steer p = p := by
  unfold Stc.steer
  split
  · rfl
  · split
    · next tracking => exact absurd tracking still.1
    · next centring => exact absurd centring still.2
    · rfl
    · rfl
    · rfl
    · rfl

theorem steer_tracking (schedule : p.stc.schedule = some u) (tracking : p.stc.state = .tracking) :
    Stc.steer p = Stc.judgeTracking (Stc.formCommand (p.kinematicTarget u) u p) := by
  unfold Stc.steer
  rw [schedule]
  dsimp only
  rw [tracking]

theorem steer_centring (schedule : p.stc.schedule = some u) (centring : p.stc.state = .centring) :
    Stc.steer p = Stc.judgeCentring (Stc.formCommand 0 u p) := by
  unfold Stc.steer
  rw [schedule]
  dsimp only
  rw [centring]

/-- R141: the tracking error timer after this update. -/
def State.trackNext (w : State) : Nat :=
  if 30 < (w.stc.report.command - w.stc.delta3).natAbs then min 300 (w.stc.trackTimer + 10) else 0

/-- The state with the timer put. -/
def State.tracked (w : State) : State := w.modStc fun x => { x with trackTimer := w.trackNext }

theorem judgeTracking_eq (w : State) : Stc.judgeTracking w =
    if 300 ≤ w.trackNext then Stc.setLatch .trackingError w.tracked else w.tracked := by
  have timer : (if w.trackingOff then grow 10 300 w.stc.trackTimer else 0) = w.trackNext := by
    simp only [State.trackingOff, State.trackNext, grow, decide_eq_true_eq]
  have is : Stc.judgeTracking w = if 300 ≤ (if w.trackingOff then grow 10 300 w.stc.trackTimer else 0) then
      Stc.setLatch .trackingError (w.modStc fun x => { x with trackTimer := if w.trackingOff then grow 10 300 w.stc.trackTimer else 0 })
      else w.modStc fun x => { x with trackTimer := if w.trackingOff then grow 10 300 w.stc.trackTimer else 0 } := rfl
  rw [is, timer]
  rfl

theorem tracked_steersOn (w : State) : SteersOn w w.tracked := ⟨_, _, _, _, _, _, _, _, rfl⟩

theorem formCommand_steersOn (target : Int) (u : Schedule) (s : State) : SteersOn s (Stc.formCommand target u s) := by
  rw [formCommand_eq]
  exact ⟨_, _, _, _, _, _, _, _, rfl⟩

theorem judgeTracking_moves (w : State) : LatchMoves w.tracked (Stc.judgeTracking w) := by
  rw [judgeTracking_eq]
  split
  · exact setLatch_latchMoves _ _
  · exact .refl _

/-- R151: the centring timer after this update. -/
def State.centringNext (w : State) : Nat := min 2000 (w.stc.centringTimer + 10)

/-- The state with the timer put. -/
def State.centringGrown (w : State) : State := w.modStc fun x => { x with centringTimer := w.centringNext }

/-- The state put in LOCKED. -/
def State.lockedPut (w : State) : State := w.modStc fun x => { x with state := .locked, command := 0 }

theorem centred_iff (w : State) : w.centred = true ↔ w.analogFaulty 15 = false ∧ w.stc.delta3.natAbs ≤ 5 := by
  simp only [State.centred, Bool.and_eq_true, Bool.not_eq_true', decide_eq_true_eq]

theorem judgeCentring_centred (centred : w.centred = true) : Stc.judgeCentring w = Stc.commandLock (Stc.leaveLocked w.lockedPut) :=
  if_pos centred

theorem judgeCentring_grows (off : ¬ w.centred = true) (short : w.stc.centringTimer + 10 < 2000) : Stc.judgeCentring w = w.centringGrown := by
  have short' : ¬ 2000 ≤ w.centringNext := by
    unfold State.centringNext
    omega
  exact (if_neg off).trans (if_neg short')

theorem judgeCentring_passes (off : ¬ w.centred = true) (long : 2000 ≤ w.stc.centringTimer + 10) :
    Stc.judgeCentring w = Stc.enterPassive w.centringGrown := by
  have long' : 2000 ≤ w.centringNext := by
    unfold State.centringNext
    omega
  exact (if_neg off).trans (if_pos long')

end
end Sys2Proof.Machine
end

