-- ==== Sys2Proof/Proofs/CentringEnds.lean ====
section
/-! PROOF. The end of a centring (R150, R151) -/

namespace Sys2Proof.Machine

/-! ## The end of a centring (R150, R151) -/

section
variable {w r : State}

theorem commandLock_moves (r : State) : LatchMoves r r ∧ (Stc.commandLock r).stc = r.stc ∧ (Stc.commandLock r).ilt = r.ilt
    ∧ (Stc.commandLock r).lnk = r.lnk := ⟨.refl r, command_stc _ _ _, command_ilt _ _ _, command_lnk _ _ _⟩

/-- The centring of an axle at its centre, with a STEER_CENTRE live: LOCKED. -/
theorem judgeCentring_locks (centred : w.centred = true) (live : w.anyLive .steerCentre = true) :
    (Stc.judgeCentring w).stc = { w.stc with state := .locked, command := 0 } ∧ (Stc.judgeCentring w).lockCommand = 0
    ∧ (Stc.judgeCentring w).ilt = w.ilt ∧ (Stc.judgeCentring w).lnk = w.lnk := by
  have stays : Stc.leaveLocked w.lockedPut = w.lockedPut := leaveLocked_stays (s := w.lockedPut) (.inr live)
  rw [judgeCentring_centred centred, stays]
  obtain ⟨-, stc, ilt, lnk⟩ := commandLock_moves w.lockedPut
  refine ⟨stc, ?_, ilt, lnk⟩
  rw [commandLock_lockCommand]
  rfl

/-- The state in which CL1 is judged, where no STEER_CENTRE is live. -/
def State.centreLeft (w : State) : State := w.lockedPut.leaving

theorem centreLeft_stc (w : State) : w.centreLeft.stc = if w.standing then { w.stc with state := .frozen, command := 0 }
    else { w.stc with state := .tracking, command := 0, trackTimer := 0 } := by
  rw [State.centreLeft, leaving_stc]
  rfl

theorem judgeCentring_leaves (centred : w.centred = true) (free : w.anyLive .steerCentre = false) :
    Stc.judgeCentring w = Stc.commandLock (Stc.startCentring (Stc.judgeLock w.centreLeft)) := by
  rw [judgeCentring_centred centred, leaveLocked_leaves (s := w.lockedPut) rfl free]
  rfl

/-- STC moves on from LOCKED, whatever CL1 is found to be. -/
theorem judgeCentring_left (centred : w.centred = true) (free : w.anyLive .steerCentre = false) :
    (∃ r, LatchMoves w.centreLeft r ∧ (Stc.judgeCentring w).stc = r.stc) ∧ (Stc.judgeCentring w).lockCommand = 1 := by
  have moves : LatchMoves w.centreLeft (Stc.startCentring (Stc.judgeLock w.centreLeft)) :=
    (judgeLock_latchMoves _).trans (startCentring_latchMoves _)
  rw [judgeCentring_leaves centred free]
  generalize Stc.startCentring (Stc.judgeLock w.centreLeft) = r at moves
  refine ⟨⟨r, moves, (commandLock_moves r).2.1⟩, ?_⟩
  rw [commandLock_lockCommand]
  have state : r.stc.state = .frozen ∨ r.stc.state = .tracking ∨ r.stc.state = .centring := by
    obtain ⟨l, h, ⟨same, -⟩ | ⟨-, entered, -⟩⟩ := moves.stc
    · rw [same, centreLeft_stc]
      split
      · exact .inl rfl
      · exact .inr (.inl rfl)
    · rw [entered]
      exact .inr (.inr rfl)
  rw [SteerState.lockOn, decide_eq_true state]
  rfl

theorem centreLeft_anyLive (w : State) : w.centreLeft.anyLive .steerCentre = w.anyLive .steerCentre := leaving_anyLive w.lockedPut _

/-- Where CL1 has nothing to latch, the state is the one by the motion. -/
theorem judgeCentring_returns (centred : w.centred = true) (free : w.anyLive .steerCentre = false)
    (quiet : w.stc.latch ≠ none ∨ w.standing = true ∨ (w.channelState lockChannel).unusable = false) :
    (Stc.judgeCentring w).stc = w.centreLeft.stc := by
  have stc := centreLeft_stc w
  have still : Stc.judgeLock w.centreLeft = w.centreLeft := by
    rcases quiet with latched | standing | usable
    · obtain ⟨q, latched⟩ := Option.ne_none_iff_exists'.mp latched
      have latched' : w.centreLeft.stc.latch = some q := by
        rw [stc]
        split
        · exact latched
        · exact latched
      unfold Stc.judgeLock
      split
      · exact setLatch_stands latched'
      · rfl
    · exact judgeLock_quiet (by rw [stc, if_pos standing]; simp)
    · have unusable : (w.centreLeft.channelState lockChannel).unusable = (w.channelState lockChannel).unusable := leaving_unusable w.lockedPut
      exact judgeLock_quiet (by rw [unusable, usable]; simp)
  rw [judgeCentring_leaves centred free, still, startCentring_free (by rw [centreLeft_anyLive, free])]
  exact (commandLock_moves _).2.1

/-- In motion an unusable CL1 sets a clear latch. -/
theorem judgeCentring_latches (centred : w.centred = true) (free : w.anyLive .steerCentre = false) (run : w.inRun = true)
    (clear : w.stc.latch = none) (moving : w.standing = false) (unusable : (w.channelState lockChannel).unusable = true) :
    (Stc.judgeCentring w).stc.latch = some .lockChannel ∧ (Stc.judgeCentring w).flagged 7 := by
  have stc := centreLeft_stc w
  rw [if_neg (by simp [moving])] at stc
  have unusable' : (w.centreLeft.channelState lockChannel).unusable = true := (leaving_unusable w.lockedPut).trans unusable
  have cfg : w.centreLeft.cfg = w.cfg := command_cfg _ _ _
  have running : w.centreLeft.inRun = true := by
    rw [State.inRun, cfg]
    exact run
  have sets := judgeLock_sets running (by rw [stc]) unusable'
  obtain ⟨latch, flagged⟩ := setLatch_takes (s := w.centreLeft) .lockChannel (by rw [stc]; exact clear)
  have ends := startCentring_steerEnds (Stc.setLatch .lockChannel w.centreLeft)
  have flagged' : (Stc.startCentring (Stc.setLatch .lockChannel w.centreLeft)).flagged 7 := (ev_startCentring .refl).flagged flagged
  rw [judgeCentring_leaves centred free, sets]
  obtain ⟨-, stc', -, lnk'⟩ := commandLock_moves (Stc.startCentring (Stc.setLatch .lockChannel w.centreLeft))
  refine ⟨by rw [stc', ends.latch, latch], flagged_congr lnk' flagged'⟩

/-! ### PASSIVE (R151) -/

/-- The state put in PASSIVE. -/
def State.passivePut (w : State) : State := Stc.commandLock (w.modStc fun x => { x with state := .passive, command := 0 })

theorem passivePut_stc (w : State) : w.passivePut.stc = { w.stc with state := .passive, command := 0 } := command_stc _ _ _

theorem passivePut_lock (w : State) : w.passivePut.lockCommand = 0 := commandLock_lockCommand _

/-- With its latch set. -/
def State.passiveLatched (w : State) : State :=
  if w.passivePut.stc.latch.isSome then w.passivePut
  else Stc.askEntry (w.passivePut.modStc fun x => { x with latch := some .centringTimeout })

theorem enterPassive_eq (w : State) : Stc.enterPassive w = w.passiveLatched.post
    (.steerFault .centringTimeout .passive w.passiveLatched.stc.selfHandle) := rfl

theorem passiveLatched_moves (w : State) : LatchMoves w.passivePut w.passiveLatched
    ∧ w.passiveLatched.stc.latch = if w.stc.latch.isSome then w.stc.latch else some .centringTimeout := by
  have latch : w.passivePut.stc.latch = w.stc.latch := by rw [passivePut_stc]
  unfold State.passiveLatched
  rw [latch]
  split
  · exact ⟨.refl _, latch⟩
  · have put : LatchMoves w.passivePut (w.passivePut.modStc fun x => { x with latch := some .centringTimeout }) := .of_same rfl rfl
    exact ⟨put.trans (askEntry_latchMoves _), askEntry_latch _⟩

theorem enterPassive_after (w : State) : (∃ l h, (Stc.enterPassive w).stc = { w.stc with state := .passive, command := 0, latch := l, selfHandle := h })
    ∧ (Stc.enterPassive w).stc.latch = (if w.stc.latch.isSome then w.stc.latch else some .centringTimeout)
    ∧ (Stc.enterPassive w).lockCommand = 0 ∧ (Stc.enterPassive w).flagged 7 := by
  obtain ⟨moves, latch⟩ := passiveLatched_moves w
  obtain ⟨same, lock⟩ := moves.stays (by rw [passivePut_stc]; simp)
  rw [enterPassive_eq]
  refine ⟨⟨w.passiveLatched.stc.latch, w.passiveLatched.stc.selfHandle, ?_⟩, ?_, ?_, post_flagged_self _ _⟩
  · rw [State.post_stc, same, passivePut_stc]
  · rw [State.post_stc, latch]
  · rw [State.lockCommand, State.post_vda]
    exact lock.trans (passivePut_lock w)

end

section
variable {w p : State} {u : Schedule}

theorem judgeCentring_steersOn (w : State) : SteersOn w (Stc.judgeCentring w) := by
  by_cases centred : w.centred = true
  · cases live : w.anyLive .steerCentre with
    | true => exact ⟨_, _, _, _, _, _, _, _, (judgeCentring_locks centred live).1⟩
    | false =>
      obtain ⟨⟨r, moves, same⟩, -⟩ := judgeCentring_left centred live
      have left : SteersOn w w.centreLeft := by
        unfold SteersOn
        rw [centreLeft_stc]
        split
        · exact ⟨_, _, _, _, _, _, _, _, rfl⟩
        · exact ⟨_, _, _, _, _, _, _, _, rfl⟩
      obtain ⟨_, _, _, _, _, _, _, _, is⟩ := left.trans moves.steersOn
      exact ⟨_, _, _, _, _, _, _, _, same.trans is⟩
  · by_cases long : 2000 ≤ w.stc.centringTimer + 10
    · rw [judgeCentring_passes centred long]
      obtain ⟨⟨l, h, is⟩, -⟩ := enterPassive_after w.centringGrown
      exact ⟨_, _, _, _, _, _, _, _, is⟩
    · rw [judgeCentring_grows centred (by omega)]
      exact ⟨_, _, _, _, _, _, _, _, rfl⟩

/-- The command's part moves only what `SteersOn` names. -/
theorem steer_steersOn (p : State) : SteersOn p (Stc.steer p) := by
  cases schedule : p.stc.schedule with
  | none =>
    rw [steer_none schedule]
    exact .refl p
  | some u =>
    by_cases tracking : p.stc.state = .tracking
    · rw [steer_tracking schedule tracking]
      exact (formCommand_steersOn _ u p).trans ((tracked_steersOn _).trans (judgeTracking_moves _).steersOn)
    · by_cases centring : p.stc.state = .centring
      · rw [steer_centring schedule centring]
        exact (formCommand_steersOn _ u p).trans (judgeCentring_steersOn _)
      · rw [steer_still ⟨tracking, centring⟩]
        exact .refl p

end
end Sys2Proof.Machine
end

