-- ==== Sys2Proof/Proofs/SteeringFrame.lean ====
section
/-! PROOF. The damper, the frame and the report of a steering update (R147, R152, R153, R159) -/

namespace Sys2Proof.Machine

/-! ## The damper, the frame and the report of a steering update (R147, R152, R153, R159) -/

section
variable (r : State)

/-- R153: the joint limit after this update. -/
def State.jointNext : Bool :=
  if 480 ≤ r.stc.gamma.natAbs then true else if r.stc.gamma.natAbs < 450 then false else r.stc.jointLimit

/-- The state with the joint limit put. -/
def State.jointPut : State := r.modStc fun x => { x with jointLimit := r.jointNext }

theorem judgeJoint_eq : Stc.judgeJoint r =
    if 480 ≤ r.stc.gamma.natAbs ∧ r.stc.jointLimit = false then r.jointPut.post (.jointLimit r.stc.gamma) else r.jointPut := by
  have is : Stc.judgeJoint r = if (decide (480 ≤ r.stc.gamma.natAbs) && !r.stc.jointLimit) = true then r.jointPut.post (.jointLimit r.stc.gamma)
      else r.jointPut := rfl
  rw [is]
  simp only [Bool.and_eq_true, decide_eq_true_eq, Bool.not_eq_true']

theorem judgeJoint_beside : (Stc.judgeJoint r).stc = r.jointPut.stc ∧ (Stc.judgeJoint r).ilt = r.ilt ∧ (Stc.judgeJoint r).vda = r.vda
    ∧ (Stc.judgeJoint r).cfg = r.cfg ∧ (Stc.judgeJoint r).mot = r.mot ∧ (Stc.judgeJoint r).lnk.steerCount = r.lnk.steerCount := by
  rw [judgeJoint_eq]
  split
  · exact ⟨State.post_stc _ _, State.post_ilt _ _, State.post_vda _ _, State.post_cfg _ _, State.post_mot _ _, rfl⟩
  · exact ⟨rfl, rfl, rfl, rfl, rfl, rfl⟩

theorem judgeJoint_posts (at' : 480 ≤ r.stc.gamma.natAbs) (clear : r.stc.jointLimit = false) : (Stc.judgeJoint r).flagged 8 := by
  rw [judgeJoint_eq, if_pos ⟨at', clear⟩]
  exact post_flagged_self _ _

/-- R152: the damper after this update. -/
def State.damperNext : Nat := r.jointPut.damperNow

theorem damperNext_eq : r.damperNext = if r.stc.state = .parked ∨ r.analogFaulty 12 = true ∨ r.analogFaulty 13 = true
    ∨ r.jointNext = true ∨ r.mot.speed = none then 1000
    else match r.stc.schedule with
      | none => 1000
      | some u => min 1000 (u.damp.toNat + r.cfg.settings.rateGain * r.stc.gammaRate) := by
  have is : r.damperNext = if r.stc.state = .parked then 1000 else if r.analogFaulty 12 = true ∨ r.analogFaulty 13 = true then 1000
      else if r.jointNext = true then 1000 else if r.mot.speed = none then 1000
      else match r.stc.schedule with
        | some u => min 1000 (u.damp.toNat + r.cfg.settings.rateGain * r.stc.gammaRate)
        | none => 1000 := rfl
  rw [is]
  by_cases parked : r.stc.state = .parked
  · rw [if_pos parked, if_pos (.inl parked)]
  rw [if_neg parked]
  by_cases faulty : r.analogFaulty 12 = true ∨ r.analogFaulty 13 = true
  · rw [if_pos faulty, if_pos (by tauto)]
  rw [if_neg faulty]
  by_cases limit : r.jointNext = true
  · rw [if_pos limit, if_pos (by tauto)]
  rw [if_neg limit]
  by_cases none : r.mot.speed = none
  · rw [if_pos none, if_pos (by tauto)]
  rw [if_neg none, if_neg (by tauto)]
  cases r.stc.schedule with
  | none => rfl
  | some u => rfl

/-- The state with the damper put and handed on. -/
def State.damped : State := Stc.damp (Stc.judgeJoint r)

theorem damped_stc : r.damped.stc = { r.stc with jointLimit := r.jointNext, damper := r.damperNext } := by
  obtain ⟨stc, -, -, cfg, mot, -⟩ := judgeJoint_beside r
  have now : (Stc.judgeJoint r).damperNow = r.damperNext := by
    unfold State.damperNext State.damperNow State.analogFaulty
    rw [stc, cfg, mot]
    rfl
  rw [State.damped, Stc.damp, command_stc, State.modStc_stc, stc, now]
  rfl

theorem damped_beside : r.damped.ilt = r.ilt ∧ r.damped.cfg = r.cfg ∧ r.damped.mot = r.mot ∧ r.damped.lnk = (Stc.judgeJoint r).lnk
    ∧ r.damped.lockCommand = r.lockCommand ∧ (rd r.damped.vda.channels damperChannel).command = r.damped.stc.damper := by
  obtain ⟨stc, ilt, vda, cfg, mot, -⟩ := judgeJoint_beside r
  have stc' : r.damped.stc.damper = (Stc.judgeJoint r).damperNow := by rw [State.damped, Stc.damp, command_stc, State.modStc_stc]
  rw [stc']
  refine ⟨(command_ilt _ _ _).trans ilt, (command_cfg _ _ _).trans cfg, (command_mot _ _ _).trans mot, command_lnk _ _ _, ?_, ?_⟩
  · rw [State.damped, Stc.damp, State.lockCommand, rd_command, if_neg (by decide), State.modStc_vda, vda, State.lockCommand]
  · rw [State.damped, Stc.damp, rd_command, if_pos rfl, Channel.take_command]

theorem steerFramed_eq : State.steerFramed r = Stc.takeReport (Stc.placeFrame r.damped) := rfl

/-- R159: the report at the end of the update. -/
def State.reportNext (d : State) : SteerReport where
  state := d.stc.state
  command := d.stc.command
  delta3 := d.stc.delta3
  gamma := d.stc.gamma
  delta1 := d.stc.delta1
  lower := d.stc.lower
  upper := d.stc.upper
  damper := d.stc.damper
  jointLimit := d.stc.jointLimit
  windowOpen := d.stc.windowOpen

theorem steerFramed_stc : (State.steerFramed r).stc = { r.stc with
    jointLimit := r.jointNext, damper := r.damperNext, report := r.damped.reportNext } := by
  have is : (State.steerFramed r).stc = { r.damped.stc with report := r.damped.reportNext } := rfl
  rw [is, damped_stc]

theorem steerFramed_beside : (State.steerFramed r).ilt = r.ilt ∧ (State.steerFramed r).cfg = r.cfg ∧ (State.steerFramed r).mot = r.mot
    ∧ (State.steerFramed r).lockCommand = r.lockCommand
    ∧ (rd (State.steerFramed r).vda.channels damperChannel).command = r.damperNext
    ∧ (State.steerFramed r).lnk.steering = some r.damped.steeringFrame
    ∧ (State.steerFramed r).lnk.steerCount = r.lnk.steerCount + 1 := by
  obtain ⟨ilt, cfg, mot, lnk, lock, damper⟩ := damped_beside r
  have vda : (State.steerFramed r).vda = r.damped.vda := rfl
  have count : (State.steerFramed r).lnk.steerCount = r.damped.lnk.steerCount + 1 := rfl
  obtain ⟨-, -, -, -, -, kept⟩ := judgeJoint_beside r
  refine ⟨ilt, cfg, mot, lock, ?_, rfl, ?_⟩
  · rw [vda, damper, damped_stc]
  · rw [count, lnk, kept]

theorem steerFramed_flagged {i : Fin 14} (raised : r.flagged i) : (State.steerFramed r).flagged i := by
  have joint : (Stc.judgeJoint r).flagged i := (ev_judgeJoint .refl).flagged raised
  have damped : r.damped.flagged i := flagged_congr (damped_beside r).2.2.2.1 joint
  exact damped

theorem steerFramed_joint (at' : 480 ≤ r.stc.gamma.natAbs) (clear : r.stc.jointLimit = false) : (State.steerFramed r).flagged 8 := by
  have damped : r.damped.flagged 8 := flagged_congr (damped_beside r).2.2.2.1 (judgeJoint_posts r at' clear)
  exact damped

theorem damped_frame : r.damped.steeringFrame.identifier = r.cfg.settings.ansBase + 15
    ∧ r.damped.steeringFrame.content.b0 ++ r.damped.steeringFrame.content.b1 = BitVec.ofInt 16 r.stc.command
    ∧ r.damped.steeringFrame.content.b2 = BitVec.ofNat 8 r.stc.state.code
    ∧ r.damped.steeringFrame.content.b3 = (if r.stc.state = .frozen ∨ r.stc.state = .tracking ∨ r.stc.state = .centring then 1 else 0)
    ∧ r.damped.steeringFrame.content.b4 = r.lnk.steerCount := by
  obtain ⟨-, cfg, -, lnk, -⟩ := damped_beside r
  obtain ⟨-, -, -, -, -, count⟩ := judgeJoint_beside r
  have command : r.damped.stc.command = r.stc.command := by rw [damped_stc]
  have state : r.damped.stc.state = r.stc.state := by rw [damped_stc]
  have joined (v : Int) : (hiLo v).1 ++ (hiLo v).2 = BitVec.ofInt 16 v := by
    unfold hiLo
    dsimp only
    rw [BitVec.extractLsb'_append_extractLsb'_eq_extractLsb' (by rfl)]
    exact BitVec.extractLsb'_eq_self
  refine ⟨by rw [State.steeringFrame, cfg], ?_, ?_, ?_, ?_⟩
  · exact (joined r.damped.stc.command).trans (by rw [command])
  · exact congrArg (fun st : SteerState => BitVec.ofNat 8 st.code) state
  · have lock : r.damped.steeringFrame.content.b3 = BitVec.ofNat 8 (bit r.damped.stc.state.lockOn) := rfl
    rw [lock, state, SteerState.lockOn]
    split
    · next on => rw [decide_eq_true on]; rfl
    · next off => rw [decide_eq_false off]; rfl
  · have sent : r.damped.steeringFrame.content.b4 = r.damped.lnk.steerCount := rfl
    rw [sent, lnk, count]

end
end Sys2Proof.Machine
end

