-- ==== Sys2Proof/Proofs/SteeringTimers.lean ====
section
/-! PROOF. The timers and the latch after a steering update (R141, R142, R151) -/

namespace Sys2Proof.Machine

/-! ## The timers and the latch after a steering update (R141, R142, R151; log 4, log 39) -/

section
variable {p w : State} {u : Schedule}

theorem judgeTracking_latched (latched : w.stc.latch ≠ none) : Stc.judgeTracking w = w.tracked := by
  obtain ⟨q, latch⟩ := Option.ne_none_iff_exists'.mp latched
  rw [judgeTracking_eq]
  split
  · exact setLatch_stands (s := w.tracked) latch
  · rfl

theorem judgeCentring_latched {q : LatchCause} (latched : w.stc.latch = some q) : (Stc.judgeCentring w).stc.latch = some q := by
  by_cases centred : w.centred = true
  · cases live : w.anyLive .steerCentre with
    | true =>
      rw [(judgeCentring_locks centred live).1]
      exact latched
    | false =>
      rw [judgeCentring_returns centred live (.inl (by simp [latched])), centreLeft_stc]
      split
      · exact latched
      · exact latched
  · by_cases long : 2000 ≤ w.stc.centringTimer + 10
    · obtain ⟨-, latch, -⟩ := enterPassive_after w.centringGrown
      have latched' : w.centringGrown.stc.latch = some q := latched
      rw [judgeCentring_passes centred long, latch, latched']
      rfl
    · rw [judgeCentring_grows centred (by omega)]
      exact latched

/-- R142: a latch stays through the command's part of the update. -/
theorem steer_latched {q : LatchCause} (latched : p.stc.latch = some q) : (Stc.steer p).stc.latch = some q := by
  cases schedule : p.stc.schedule with
  | none => rwa [steer_none schedule]
  | some u =>
    have formed (target : Int) : (Stc.formCommand target u p).stc.latch = some q := by rwa [formCommand_eq]
    by_cases tracking : p.stc.state = .tracking
    · rw [steer_tracking schedule tracking, judgeTracking_latched (by simp [formed])]
      exact formed (p.kinematicTarget u)
    · by_cases centring : p.stc.state = .centring
      · rw [steer_centring schedule centring]
        exact judgeCentring_latched (formed 0)
      · rwa [steer_still ⟨tracking, centring⟩]

theorem LatchMoves.centringTimer {r : State} (h : LatchMoves p r) :
    r.stc.centringTimer = p.stc.centringTimer ∨ r.stc.centringTimer = 0 := by
  obtain ⟨_, _, ⟨same, -⟩ | ⟨-, entered, -⟩⟩ := h.stc
  · exact .inl (by rw [same])
  · exact .inr (by rw [entered])

theorem centreLeft_timers (w : State) : w.centreLeft.stc.centringTimer = w.stc.centringTimer
    ∧ (w.centreLeft.stc.trackTimer = w.stc.trackTimer ∨ w.centreLeft.stc.trackTimer = 0) := by
  rw [centreLeft_stc]
  split
  · exact ⟨rfl, .inl rfl⟩
  · exact ⟨rfl, .inr rfl⟩

/-- A centring moves no tracking error timer but to 0, and its own timer only where the axle is off its centre. -/
theorem judgeCentring_timers (w : State) :
    ((Stc.judgeCentring w).stc.trackTimer = w.stc.trackTimer ∨ (Stc.judgeCentring w).stc.trackTimer = 0)
    ∧ (w.centred = true → (Stc.judgeCentring w).stc.centringTimer = w.stc.centringTimer ∨ (Stc.judgeCentring w).stc.centringTimer = 0)
    ∧ (¬ w.centred = true → (Stc.judgeCentring w).stc.centringTimer = min 2000 (w.stc.centringTimer + 10)) := by
  by_cases centred : w.centred = true
  · cases live : w.anyLive .steerCentre with
    | true =>
      rw [(judgeCentring_locks centred live).1]
      exact ⟨.inl rfl, fun _ => .inl rfl, fun off => absurd centred off⟩
    | false =>
      obtain ⟨⟨r, moves, same⟩, -⟩ := judgeCentring_left centred live
      obtain ⟨timer, track⟩ := centreLeft_timers w
      rw [same, moves.keeps.2.1, ← timer]
      exact ⟨track, fun _ => moves.centringTimer, fun off => absurd centred off⟩
  · by_cases long : 2000 ≤ w.stc.centringTimer + 10
    · obtain ⟨⟨l, h, is⟩, -⟩ := enterPassive_after w.centringGrown
      rw [judgeCentring_passes centred long, is]
      exact ⟨.inl rfl, fun is => absurd is centred, fun _ => rfl⟩
    · have short : w.stc.centringTimer + 10 < 2000 := by omega
      rw [judgeCentring_grows centred short]
      exact ⟨.inl rfl, fun is => absurd is centred, fun _ => rfl⟩

theorem formCommand_stc (target : Int) (u : Schedule) (s : State) : (Stc.formCommand target u s).stc = { s.stc with
    command := s.commandToward target u, lower := s.lowerBound u, upper := s.upperBound u } := by rw [formCommand_eq, State.modStc_stc]

theorem formCommand_beside (target : Int) (u : Schedule) (s : State) : (Stc.formCommand target u s).ilt = s.ilt
    ∧ (Stc.formCommand target u s).mot = s.mot ∧ (Stc.formCommand target u s).cfg = s.cfg ∧ (Stc.formCommand target u s).vda = s.vda
    ∧ (Stc.formCommand target u s).lnk = s.lnk := by
  rw [formCommand_eq]
  exact ⟨rfl, rfl, rfl, rfl, rfl⟩

/-- Out of TRACKING the tracking error timer stays or goes to 0. -/
theorem steer_trackTimer (still : p.stc.state ≠ .tracking) :
    (Stc.steer p).stc.trackTimer = p.stc.trackTimer ∨ (Stc.steer p).stc.trackTimer = 0 := by
  cases schedule : p.stc.schedule with
  | none => exact .inl (by rw [steer_none schedule])
  | some u =>
    by_cases centring : p.stc.state = .centring
    · have timers := (judgeCentring_timers (Stc.formCommand 0 u p)).1
      rwa [formCommand_stc, ← steer_centring schedule centring] at timers
    · exact .inl (by rw [steer_still ⟨still, centring⟩])

/-- In TRACKING: the timer by the error, and the latch by the timer. -/
theorem steer_tracks (schedule : p.stc.schedule = some u) (tracking : p.stc.state = .tracking) :
    (Stc.steer p).stc.trackTimer = p.trackNext
    ∧ (300 ≤ p.trackNext → (Stc.steer p).stc.latch = (if p.stc.latch.isSome then p.stc.latch else some .trackingError)
      ∧ (p.stc.latch = none → (Stc.steer p).flagged 7))
    ∧ (¬ 300 ≤ p.trackNext → (Stc.steer p).stc.latch = p.stc.latch) := by
  let w := Stc.formCommand (p.kinematicTarget u) u p
  have stc : w.stc = _ := formCommand_stc (p.kinematicTarget u) u p
  have next : w.trackNext = p.trackNext := by
    unfold State.trackNext
    rw [stc]
  have latch : w.tracked.stc.latch = p.stc.latch := by
    have kept : w.tracked.stc.latch = w.stc.latch := rfl
    rw [kept, stc]
  have steered : Stc.steer p = Stc.judgeTracking w := steer_tracking schedule tracking
  have timer := (judgeTracking_moves w).keeps.2.1
  rw [steered]
  refine ⟨timer.trans next, fun reached => ?_, fun short => ?_⟩
  · rw [judgeTracking_eq, next, if_pos reached]
    cases latched : p.stc.latch with
    | some q =>
      rw [setLatch_stands (latch.trans latched), latch, latched]
      exact ⟨rfl, fun none => nomatch none⟩
    | none =>
      obtain ⟨takes, flagged⟩ := setLatch_takes (s := w.tracked) .trackingError (latch.trans latched)
      exact ⟨takes, fun _ => flagged⟩
  · rw [judgeTracking_eq, next, if_neg short, latch]

end

section
variable (s : State)

theorem steerPut_stc : s.steerPut.stc = { s.steerTaken.stc with disagreeTimer := s.disagreeNext, schedule := s.scheduleNext } := rfl

theorem scheduled_beside (n : Nat) (u : Option Schedule) (a : State) : ((a.disagreed n).scheduled u).ilt = a.ilt
    ∧ ((a.disagreed n).scheduled u).cfg = a.cfg ∧ ((a.disagreed n).scheduled u).mot = a.mot ∧ ((a.disagreed n).scheduled u).vda = a.vda
    ∧ ((a.disagreed n).scheduled u).lnk = a.lnk ∧ ((a.disagreed n).scheduled u).dsv = a.dsv := ⟨rfl, rfl, rfl, rfl, rfl, rfl⟩

theorem steerPut_beside : s.steerPut.ilt = s.ilt ∧ s.steerPut.cfg = s.cfg ∧ s.steerPut.mot = s.mot ∧ s.steerPut.vda = s.vda
    ∧ s.steerPut.lnk = s.lnk ∧ s.steerPut.dsv = s.dsv :=
  scheduled_beside _ _ _

theorem steerLooked_same : s.steerLooked.cfg = s.cfg ∧ s.steerLooked.mot = s.mot :=
  ⟨(steerLooked_evolves s).base.cfg, (steerLooked_evolves s).base.mot⟩

theorem steerSteered_eq : s.steerSteered = Stc.steer s.steerLooked := rfl

theorem steerFramed_keeps (r : State) : (State.steerFramed r).stc.disagreeTimer = r.stc.disagreeTimer
    ∧ (State.steerFramed r).stc.trackTimer = r.stc.trackTimer ∧ (State.steerFramed r).stc.centringTimer = r.stc.centringTimer
    ∧ (State.steerFramed r).stc.latch = r.stc.latch ∧ (State.steerFramed r).stc.state = r.stc.state
    ∧ (State.steerFramed r).stc.command = r.stc.command := by
  rw [steerFramed_stc]
  exact ⟨rfl, rfl, rfl, rfl, rfl, rfl⟩

/-- The timers, the latch, the state and the command are those that the command's part leaves. -/
theorem steeringMoves_keeps : (steeringMoves s).stc.disagreeTimer = s.steerSteered.stc.disagreeTimer
    ∧ (steeringMoves s).stc.trackTimer = s.steerSteered.stc.trackTimer ∧ (steeringMoves s).stc.centringTimer = s.steerSteered.stc.centringTimer
    ∧ (steeringMoves s).stc.latch = s.steerSteered.stc.latch ∧ (steeringMoves s).stc.state = s.steerSteered.stc.state
    ∧ (steeringMoves s).stc.command = s.steerSteered.stc.command := by
  rw [steeringMoves_eq]
  exact steerFramed_keeps _

theorem SteersOn.disagreeTimer {p r : State} (h : SteersOn p r) : r.stc.disagreeTimer = p.stc.disagreeTimer := by
  obtain ⟨_, _, _, _, _, _, _, _, is⟩ := h
  rw [is]

theorem steerLooked_disagreeTimer : s.steerLooked.stc.disagreeTimer = s.disagreeNext := by
  rw [(steerLooked_moves s).keeps.1, steerPut_stc]

theorem steeringMoves_disagreeTimer : (steeringMoves s).stc.disagreeTimer = s.disagreeNext := by
  rw [(steeringMoves_keeps s).1, steerSteered_eq, (steer_steersOn s.steerLooked).disagreeTimer, steerLooked_disagreeTimer]

theorem steeringMoves_same : (steeringMoves s).cfg = s.cfg ∧ (steeringMoves s).mot = s.mot := by
  obtain ⟨-, cfg, mot, -⟩ := steerFramed_beside s.steerSteered
  rw [steeringMoves_eq]
  have evolves := steeringMoves_evolves s
  obtain ⟨cfg', mot'⟩ := steerLooked_same s
  exact ⟨cfg.trans (evolves.base.cfg.trans cfg'), mot.trans (evolves.base.mot.trans mot')⟩

variable {s}

/-- Where the inputs are plausible no cause is found. -/
theorem steerCause_sound (sound : ∀ c : Fin 21, 12 ≤ c.val → c.val ≤ 15 → s.analogFaulty c = false)
    (agree : (s.analogValue 12 - s.analogValue 13).natAbs ≤ 20 ∨ s.stc.disagreeTimer + 10 < 100)
    (speed : s.inRun = true ∧ s.stc.state = .tracking → s.mot.speed ≠ none) : s.steerCause = none := by
  have short : ¬ 100 ≤ s.disagreeNext := by
    unfold State.disagreeNext
    split <;> omega
  have known : ¬ (s.inRun = true ∧ s.stc.state = .tracking ∧ s.mot.speed = none) := fun is => speed ⟨is.1, is.2.1⟩ is.2.2
  unfold State.steerCause
  rw [sound 12 (by decide) (by decide), sound 13 (by decide) (by decide), sound 14 (by decide) (by decide), sound 15 (by decide) (by decide),
    if_neg short, if_neg known]
  simp

/-- With a latch set, or without a cause, the update changes no latch before its command. -/
theorem steerLooked_plain (sound : s.stc.latch ≠ none ∨ s.steerCause = none) : s.steerLooked = s.steerPut := by
  by_cases clear : s.stc.latch = none
  · exact steerLooked_quiet clear (sound.resolve_left fun latched => latched clear)
  · exact steerLooked_latched clear

theorem steeringMoves_latched {q : LatchCause} (latched : s.steerLooked.stc.latch = some q) : (steeringMoves s).stc.latch = some q := by
  rw [(steeringMoves_keeps s).2.2.2.1, steerSteered_eq]
  exact steer_latched latched

theorem steeringMoves_flagged {i : Fin 14} (raised : s.steerLooked.flagged i) : (steeringMoves s).flagged i := by
  rw [steeringMoves_eq]
  exact steerFramed_flagged _ ((steeringMoves_evolves s).flagged raised)

theorem LatchMoves.state {a b : State} (h : LatchMoves a b) : b.stc.state = a.stc.state ∨ b.stc.state = .centring := by
  obtain ⟨_, _, ⟨same, -⟩ | ⟨-, entered, -⟩⟩ := h.stc
  · exact .inl (by rw [same])
  · exact .inr (by rw [entered])

theorem steeringMoves_trackTimer (still : s.stc.state ≠ .tracking) :
    (steeringMoves s).stc.trackTimer = s.stc.trackTimer ∨ (steeringMoves s).stc.trackTimer = 0 := by
  have moves := steerLooked_moves s
  have state : s.steerLooked.stc.state ≠ .tracking := by
    rcases moves.state with same | centring
    · rw [same]
      exact still
    · rw [centring]
      simp
  have timer : s.steerLooked.stc.trackTimer = s.stc.trackTimer := moves.keeps.2.1
  have steered := steer_trackTimer state
  rw [timer] at steered
  rw [(steeringMoves_keeps s).2.1, steerSteered_eq]
  exact steered

end
end Sys2Proof.Machine
end

