-- ==== Sys2Proof/Proofs/SteeringMoments.lean ====
section
/-! PROOF. The rows for one moment of a steering update (R141, R142, R151; log 4) -/

namespace Sys2Proof.Machine

/-! ## The rows for one moment of a steering update (R141, R142, R151; log 4) -/

section
variable {s : State}

theorem steeringTimerEnds_iff (timer : Stc → Nat) (bound : Nat) (s : State) :
    steeringTimerEnds timer bound s = true ↔ timer s.stc < bound ∧ bound ≤ timer (steeringMoves s).stc := decide_eq_true_iff

section
variable {timer : Stc → Nat} {bound : Nat}

/-- The outcome of a row that ends a timer. -/
theorem ends_runs (before : timer s.stc < bound) (after : bound ≤ timer (steeringMoves s).stc) :
    (Host.Outcome.next (if steeringTimerEnds timer bound s then State.finish (steeringMoves s) else s) : Host.Outcome State Fault Refusal)
    = .next (State.finish (steeringMoves s)) :=
  congrArg Host.Outcome.next (if_pos ((steeringTimerEnds_iff timer bound s).mpr ⟨before, after⟩))

theorem ends_not (not : ¬ (timer s.stc < bound ∧ bound ≤ timer (steeringMoves s).stc)) :
    (Host.Outcome.next (if steeringTimerEnds timer bound s then State.finish (steeringMoves s) else s) : Host.Outcome State Fault Refusal)
    = .next s :=
  congrArg Host.Outcome.next (if_neg fun is => not ((steeringTimerEnds_iff timer bound s).mp is))

end

/-- The angles have been apart for 100 ms with this update. -/
def State.apart (s : State) : Prop := s.analogFaulty 12 = false ∧ s.analogFaulty 13 = false
  ∧ 20 < (s.analogValue 12 - s.analogValue 13).natAbs ∧ s.stc.disagreeTimer < 100 ∧ 100 ≤ s.stc.disagreeTimer + 10

theorem apart_iff : s.apart ↔ s.stc.disagreeTimer < 100 ∧ 100 ≤ s.disagreeNext := by
  unfold State.apart State.disagreeNext
  split
  · next is =>
    obtain ⟨artA, artB, diff⟩ := is
    simp only [artA, artB, diff, true_and]
    omega
  · next not =>
    constructor
    · rintro ⟨artA, artB, diff, -⟩
      exact absurd ⟨artA, artB, diff⟩ not
    · intro is
      omega

theorem steerCause_apart (apart : s.apart) : ∃ c, s.steerCause = some c
    ∧ ((∀ c : Fin 21, 12 ≤ c.val → c.val ≤ 15 → s.analogFaulty c = false) → c = .disagree) := by
  have reached := (apart_iff.mp apart).2
  obtain ⟨artA, artB, -⟩ := apart
  unfold State.steerCause
  rw [artA, artB, if_neg (by simp), if_neg (by simp)]
  by_cases front : s.analogFaulty 14 = true
  · refine ⟨_, if_pos front, fun sound => ?_⟩
    rw [sound 14 (by decide) (by decide)] at front
    exact nomatch front
  · rw [if_neg front]
    by_cases actuator : s.analogFaulty 15 = true
    · refine ⟨_, if_pos actuator, fun sound => ?_⟩
      rw [sound 15 (by decide) (by decide)] at actuator
      exact nomatch actuator
    · rw [if_neg actuator, if_pos reached]
      exact ⟨_, rfl, fun _ => rfl⟩

theorem apart_latches (apart : s.apart) : (steeringMoves s).stc.disagreeTimer = 100 ∧ (steeringMoves s).stc.latch ≠ none
    ∧ (s.stc.latch = none → (∀ c : Fin 21, 12 ≤ c.val → c.val ≤ 15 → s.analogFaulty c = false) →
      (steeringMoves s).stc.latch = some .disagree ∧ (steeringMoves s).flagged 7) := by
  obtain ⟨c, cause, isDisagree⟩ := steerCause_apart apart
  have timer : s.disagreeNext = 100 := by
    have reached := (apart_iff.mp apart).2
    have bound : s.disagreeNext ≤ 100 := by
      unfold State.disagreeNext
      split <;> omega
    omega
  refine ⟨(steeringMoves_disagreeTimer s).trans timer, ?_, fun clear sound => ?_⟩
  · by_cases clear : s.stc.latch = none
    · rw [steeringMoves_latched (steerLooked_latches clear cause).latch]
      simp
    · obtain ⟨q, latched⟩ := Option.ne_none_iff_exists'.mp clear
      have looked : s.steerLooked.stc.latch = some q := by
        rw [steerLooked_latched clear]
        exact latched
      rw [steeringMoves_latched looked]
      simp
  · obtain ⟨latch, flagged, -⟩ := steerLooked_latches clear cause
    rw [isDisagree sound] at latch
    exact ⟨steeringMoves_latched latch, steeringMoves_flagged flagged⟩

/-! ### TRACKING -/

/-- The tracking error lasts 300 ms with this update. -/
def State.astray (s : State) : Prop := 30 < (s.stc.report.command - s.analogValue 15).natAbs ∧ s.stc.trackTimer < 300
  ∧ 300 ≤ s.stc.trackTimer + 10

section
variable (run : s.inRun = true) (tracking : s.stc.state = .tracking) (speed : s.mot.speed ≠ none)
  (sound : ∀ c : Fin 21, 12 ≤ c.val → c.val ≤ 15 → s.analogFaulty c = false) (agree : (s.analogValue 12 - s.analogValue 13).natAbs ≤ 20)
include run tracking speed sound agree

theorem steeringMoves_tracks : (steeringMoves s).stc.trackTimer = s.steerPut.trackNext
    ∧ (300 ≤ s.steerPut.trackNext → (steeringMoves s).stc.latch = (if s.stc.latch.isSome then s.stc.latch else some .trackingError)
      ∧ (s.stc.latch = none → (steeringMoves s).flagged 7)) := by
  obtain ⟨v, known⟩ := Option.ne_none_iff_exists'.mp speed
  have looked : s.steerLooked = s.steerPut := steerLooked_plain (.inr (steerCause_sound sound (.inl agree) fun _ => speed))
  have schedule : s.steerPut.stc.schedule = some ((s.stc.bank s.stc.inUse).lookup v) := scheduleNext_speed run known
  obtain ⟨timer, late, -⟩ := steer_tracks schedule tracking
  obtain ⟨-, timer', -, latch', -⟩ := steeringMoves_keeps s
  rw [steerSteered_eq, looked] at timer' latch'
  refine ⟨timer'.trans timer, fun reached => ⟨latch'.trans (late reached).1, fun clear => ?_⟩⟩
  rw [steeringMoves_eq, steerSteered_eq, looked]
  exact steerFramed_flagged _ ((late reached).2 clear)

end

theorem trackNext_put (s : State) : s.steerPut.trackNext =
    if 30 < (s.stc.report.command - s.analogValue 15).natAbs then min 300 (s.stc.trackTimer + 10) else 0 := rfl

theorem astray_iff : s.astray ↔ s.stc.trackTimer < 300 ∧ 300 ≤ s.steerPut.trackNext := by
  rw [trackNext_put, State.astray]
  split <;> omega

/-! ### CENTRING -/

/-- The centring lasts 2,000 ms with this update. -/
def State.stuck (s : State) : Prop := (s.analogFaulty 15 = true ∨ 5 < (s.analogValue 15).natAbs) ∧ s.stc.centringTimer < 2000
  ∧ 2000 ≤ s.stc.centringTimer + 10

section
variable {p : State} {u : Schedule}

theorem formed_centred : (Stc.formCommand 0 u p).centred = p.centred := by
  unfold State.centred State.analogFaulty
  rw [(formCommand_beside 0 u p).2.1, formCommand_stc]

/-- In CENTRING, by the axle. -/
theorem steer_centres (schedule : p.stc.schedule = some u) (centring : p.stc.state = .centring) :
    (p.centred = true → (Stc.steer p).stc.centringTimer = p.stc.centringTimer ∨ (Stc.steer p).stc.centringTimer = 0)
    ∧ (¬ p.centred = true → (Stc.steer p).stc.centringTimer = min 2000 (p.stc.centringTimer + 10))
    ∧ (¬ p.centred = true → 2000 ≤ p.stc.centringTimer + 10 → (Stc.steer p).stc.state = .passive ∧ (Stc.steer p).stc.command = 0
      ∧ (Stc.steer p).lockCommand = 0 ∧ (Stc.steer p).flagged 7
      ∧ (Stc.steer p).stc.latch = if p.stc.latch.isSome then p.stc.latch else some .centringTimeout) := by
  obtain ⟨-, at', off⟩ := judgeCentring_timers (Stc.formCommand 0 u p)
  have timer : (Stc.formCommand 0 u p).stc.centringTimer = p.stc.centringTimer := by rw [formCommand_stc]
  have latch : (Stc.formCommand 0 u p).stc.latch = p.stc.latch := by rw [formCommand_stc]
  rw [formed_centred, timer] at at' off
  rw [steer_centring schedule centring]
  refine ⟨at', off, fun away long => ?_⟩
  obtain ⟨⟨l, h, is⟩, latch', lock, flagged⟩ := enterPassive_after (Stc.formCommand 0 u p).centringGrown
  have grown : (Stc.formCommand 0 u p).centringGrown.stc.latch = p.stc.latch := latch
  rw [judgeCentring_passes (by rwa [formed_centred]) (by rwa [timer])]
  rw [grown] at latch'
  exact ⟨by rw [is], by rw [is], lock, flagged, latch'⟩

end

section
variable (run : s.inRun = true) (centring : s.stc.state = .centring) (speed : s.mot.speed ≠ none)
include run centring speed

theorem steerLooked_centring : ∃ u, s.steerLooked.stc.schedule = some u ∧ s.steerLooked.stc.state = .centring
    ∧ s.steerLooked.stc.centringTimer = s.stc.centringTimer
    ∧ (s.steerLooked.centred = true ↔ s.analogFaulty 15 = false ∧ (s.analogValue 15).natAbs ≤ 5) := by
  obtain ⟨v, known⟩ := Option.ne_none_iff_exists'.mp speed
  have schedule : s.steerPut.stc.schedule = some ((s.stc.bank s.stc.inUse).lookup v) := scheduleNext_speed run known
  have state : s.steerPut.stc.state = .centring := centring
  obtain ⟨stc, -⟩ := (steerLooked_moves s).stays (by rw [state]; simp)
  have delta : s.steerLooked.stc.delta3 = s.analogValue 15 := by
    rw [stc]
    rfl
  refine ⟨_, by rw [stc]; exact schedule, by rw [stc]; exact state, by rw [stc]; rfl, ?_⟩
  rw [centred_iff, delta, State.analogFaulty, (steerLooked_same s).2]
  rfl

theorem steeringMoves_centres : ((steeringMoves s).stc.centringTimer = s.stc.centringTimer ∨ (steeringMoves s).stc.centringTimer = 0
      ∨ (s.analogFaulty 15 = true ∨ 5 < (s.analogValue 15).natAbs) ∧ (steeringMoves s).stc.centringTimer = min 2000 (s.stc.centringTimer + 10))
    ∧ (s.stuck → (steeringMoves s).stc.state = .passive ∧ (steeringMoves s).stc.command = 0 ∧ (steeringMoves s).stc.centringTimer = 2000
      ∧ (steeringMoves s).lockCommand = 0 ∧ (steeringMoves s).flagged 7
      ∧ (steeringMoves s).stc.latch = if s.steerLooked.stc.latch.isSome then s.steerLooked.stc.latch else some .centringTimeout) := by
  obtain ⟨u, schedule, state, timer, centred⟩ := steerLooked_centring run centring speed
  obtain ⟨at', off, passes⟩ := steer_centres schedule state
  obtain ⟨-, -, timer', latch', state', command'⟩ := steeringMoves_keeps s
  rw [steerSteered_eq] at timer' latch' state' command'
  rw [timer] at at' off passes
  rw [timer', latch', state', command']
  have away : s.analogFaulty 15 = true ∨ 5 < (s.analogValue 15).natAbs ↔ ¬ s.steerLooked.centred = true := by
    rw [centred, not_and_or, Bool.not_eq_false, not_le]
  rw [State.stuck, away]
  refine ⟨?_, fun ⟨is, short, long⟩ => ?_⟩
  · by_cases is : s.steerLooked.centred = true
    · rcases at' is with same | zero
      · exact .inl same
      · exact .inr (.inl zero)
    · exact .inr (.inr ⟨is, off is⟩)
  · obtain ⟨passive, command, lock, flagged, latch⟩ := passes is long
    have grown := off is
    obtain ⟨-, -, -, lock', -⟩ := steerFramed_beside s.steerSteered
    rw [← steeringMoves_eq, steerSteered_eq] at lock'
    refine ⟨passive, command, by omega, lock'.trans lock, ?_, latch⟩
    rw [steeringMoves_eq, steerSteered_eq]
    exact steerFramed_flagged _ flagged

end
end

/-- Settles O57: each timer after the update is what its stage makes of it, and no later stage moves it but to 0. -/
theorem steeringTimersRunOut : Obligations.SteeringTimersRunOut := by
  unfold Obligations.SteeringTimersRunOut
  intro s u u'
  subst u'
  intro runs sound apart astray stuck
  have isApart : s.apart ↔ apart := Iff.rfl
  have isAstray : s.astray ↔ astray := Iff.rfl
  have isStuck : s.stuck ↔ stuck := Iff.rfl
  have run (is : s.cfg.device = .run) : s.inRun = true := decide_eq_true is
  have disagree := steeringMoves_disagreeTimer s
  refine ⟨rfl, (steeringMoves_same s).1, (steeringMoves_same s).2, fun is => ?_, fun not => ?_, fun before after => ?_, fun still => ?_,
    fun still => ?_, fun device tracking speed isSound agree => ⟨fun is => ?_, fun not => ?_⟩, fun before after => ?_, fun still => ?_,
    fun device centring speed => ⟨fun is => ?_, fun not => ?_⟩⟩
  · obtain ⟨before, after⟩ := apart_iff.mp (isApart.mpr is)
    exact ⟨ends_runs (timer := fun x => x.disagreeTimer) before (disagree.symm ▸ after), apart_latches (isApart.mpr is)⟩
  · refine ends_not (timer := fun x => x.disagreeTimer) fun ⟨before, after⟩ => not (isApart.mp (apart_iff.mpr ⟨before, ?_⟩))
    rwa [← disagree]
  · exact ends_runs (timer := fun x => x.trackTimer) before after
  · exact ends_not (timer := fun x => x.trackTimer) (by omega)
  · have timer := steeringMoves_trackTimer still
    exact ends_not (timer := fun x => x.trackTimer) (by omega)
  · obtain ⟨before, after⟩ := astray_iff.mp (isAstray.mpr is)
    obtain ⟨timer, late⟩ := steeringMoves_tracks (run device) tracking speed isSound agree
    obtain ⟨latch, flagged⟩ := late after
    have bound : s.steerPut.trackNext ≤ 300 := by
      rw [trackNext_put]
      split <;> omega
    exact ⟨ends_runs (timer := fun x => x.trackTimer) before (timer.symm ▸ after), by omega, latch, flagged⟩
  · obtain ⟨timer, -⟩ := steeringMoves_tracks (run device) tracking speed isSound agree
    refine ends_not (timer := fun x => x.trackTimer) fun ⟨before, after⟩ => not (isAstray.mp (astray_iff.mpr ⟨before, ?_⟩))
    rwa [← timer]
  · exact ends_runs (timer := fun x => x.centringTimer) before after
  · exact ends_not (timer := fun x => x.centringTimer) (by omega)
  · obtain ⟨passive, command, timer, lock, flagged, latch⟩ := (steeringMoves_centres (run device) centring speed).2 (isStuck.mpr is)
    refine ⟨ends_runs (timer := fun x => x.centringTimer) is.2.1 (by omega), passive, command, timer, lock, flagged, ?_,
      fun clear isSound agree => ?_⟩
    · rw [latch]
      split
      · next some => exact fun none => by rw [none] at some; exact nomatch some
      · simp
    · have plain : s.steerLooked = s.steerPut := steerLooked_plain (.inr (steerCause_sound isSound (.inl agree) fun _ => speed))
      have clear' : s.steerPut.stc.latch = none := clear
      rw [latch, plain, clear']
      rfl
  · refine ends_not (timer := fun x => x.centringTimer) fun ⟨before, after⟩ => not (isStuck.mp ?_)
    rcases (steeringMoves_centres (run device) centring speed).1 with same | zero | ⟨away, grown⟩
    · omega
    · omega
    · exact ⟨away, before, by omega⟩

end Sys2Proof.Machine
end

