-- ==== Sys2Proof/Proofs/DamperStands.lean ====
section
/-! PROOF. PD1 and the steering at the end of an event (R152, R161) -/

namespace Sys2Proof.Machine

/-! ## PD1 at the end of an event: no block but STC hands a damper on (R152, R161) -/

/-- PD1's command. -/
def State.damperCommand (s : State) : Nat := (rd s.vda.channels damperChannel).command

theorem brkCommand_damperCommand (s : State) : (Brk.command s).damperCommand = s.damperCommand := by
  have other : ∀ a : Fin 3, brakeChannel a ≠ damperChannel := by decide
  simp only [State.damperCommand, Brk.command, rd_command, if_neg (other _)]

theorem settle_damperCommand (s : State) : (Crn.settle s).damperCommand = s.damperCommand :=
  commandCorners_other _ damperChannel (by decide)

/-- From the first state to the second PD1's command stands. -/
def DampStands (a s : State) : Prop := s.damperCommand = a.damperCommand

section
variable {a s : State}

theorem ds_same {t : State} (h : DampStands a s) (vda : t.vda = s.vda) : DampStands a t := by
  rw [DampStands, State.damperCommand, vda]
  exact h

theorem ds_brk (f : Brk → Brk) (h : DampStands a s) : DampStands a (s.modBrk f) := h
theorem ds_rlu (f : Rlu → Rlu) (h : DampStands a s) : DampStands a (s.modRlu f) := h

theorem ds_ite {p : Prop} [Decidable p] {t u : State} (h : DampStands a t) (k : DampStands a u) : DampStands a (if p then t else u) := by
  split
  · exact h
  · exact k

theorem ds_setWindow (b : Bool) (h : DampStands a s) : DampStands a (Brk.setWindow b s) := h
theorem ds_raiseFloor (h : DampStands a s) : DampStands a (Brk.raiseFloor s) := (brkCommand_damperCommand _).trans h
theorem ds_enterApplying (m : Nat) (h : DampStands a s) : DampStands a (Brk.enterApplying m s) :=
  ds_raiseFloor (ds_setWindow _ (ds_brk _ h))
theorem ds_enterRamping (h : DampStands a s) : DampStands a (Brk.enterRamping s) := ds_ite (ds_setWindow _ (ds_brk _ (ds_brk _ h))) (ds_brk _ h)
theorem ds_leaveWait (h : DampStands a s) : DampStands a (Brk.leaveWait s) := ds_ite (ds_enterRamping h) h
theorem ds_enterWait (h : DampStands a s) : DampStands a (Brk.enterWait s) := ds_leaveWait (ds_brk _ h)
theorem ds_reapply (m : Nat) (h : DampStands a s) : DampStands a (Brk.reapply m s) :=
  ds_ite (ds_brk _ (ds_enterApplying m h)) (ds_enterApplying m h)
theorem ds_moveTarget (m : Nat) (h : DampStands a s) : DampStands a (Brk.moveTarget m s) :=
  ds_ite h (ds_ite (ds_raiseFloor (ds_brk _ h)) (ds_brk _ h))

theorem ds_brkJudge (h : DampStands a s) : DampStands a (Brk.judge s) := by
  unfold Brk.judge
  refine ds_ite ?_ h
  cases s.contributorMax with
  | none =>
    cases s.brk.hold with
    | released => exact h
    | applying => exact ds_enterWait h
    | held => exact ds_enterWait h
    | waitDrive => exact ds_leaveWait h
    | ramping => exact h
  | some m =>
    cases s.brk.hold with
    | released => exact ds_enterApplying m h
    | applying => exact ds_moveTarget m h
    | held => exact ds_moveTarget m h
    | waitDrive => exact ds_reapply m h
    | ramping => exact ds_reapply m h

theorem ds_change (f : Fin 6 → Corner → Corner) (h : DampStands a s) : DampStands a (Crn.change f s) := (settle_damperCommand _).trans h

theorem ds_rluFromTable (h : DampStands a s) : DampStands a (Rlu.fromTable s) := by
  have taken (ride : Nat) (kneel : Vector Nat 6) {u : State} (h : DampStands a u) : DampStands a (Rlu.takeOffsets ride kneel u) :=
    ds_rlu _ (ds_rlu _ (ds_change _ (ds_rlu _ h)))
  exact ds_ite (ds_rlu _ h) (taken _ _ (ds_rlu _ h))

theorem ds_startCentring (h : DampStands a s) : DampStands a (Stc.startCentring s) := by
  refine ds_ite ?_ h
  rw [DampStands, State.damperCommand, Stc.commandLock, rd_command, if_neg (by decide)]
  exact h

theorem ds_when {p : Prop} [Decidable p] (f : State → State) (hf : ∀ u, DampStands a u → DampStands a (f u)) (h : DampStands a s) :
    DampStands a (if p then f s else s) := ds_ite (hf s h) h

theorem ds_handOff (v : EntryEvent) (e : Entry) (h : DampStands a s) : DampStands a (handOff v e s) := by
  unfold handOff
  exact ds_when Stc.startCentring (fun _ => ds_startCentring) (ds_when Crn.fromTable (fun _ => ds_change _)
    (ds_when Rlu.fromTable (fun _ => ds_rluFromTable) (ds_when Brk.judge (fun _ => ds_brkJudge)
      (ds_when (Brk.markDoor e) (fun _ k => ds_ite (ds_brk _ k) k) h))))

theorem ds_foldl {α : Type} (l : List α) (f : State → α → State) (hf : ∀ s x, DampStands a s → DampStands a (f s x))
    (h : DampStands a s) : DampStands a (l.foldl f s) := by
  induction l generalizing s with
  | nil => exact h
  | cons x l ih => exact ih (hf s x h)

theorem ds_evaluateOnce (h : DampStands a s) : DampStands a (evaluateOnce s) := by
  have retabled : DampStands a s.retabled := ds_same h (by rw [State.retabled, State.modIlt_vda])
  have evaluated : DampStands a (evaluate s) := ds_foldl _ _ (fun _ _ k => ds_handOff _ _ k) retabled
  unfold evaluateOnce
  exact ds_ite h evaluated

end

theorem finish_damperCommand (s : State) : (State.finish s).damperCommand = s.damperCommand := by
  have judged : (State.finish s).damperCommand = (reevaluate s).damperCommand := rfl
  have once {u : State} (h : DampStands s u) : DampStands s (evaluateOnce u) := ds_evaluateOnce h
  rw [judged]
  unfold reevaluate
  exact ds_ite (once (once (once rfl))) rfl

/-! ## What the end of an event leaves of the steering -/

theorem finish_holdsCentre {s : State} (h : s.HoldsCentre) : (State.finish s).HoldsCentre := by
  obtain ⟨n, e, held, resolved, owner, kind⟩ := h
  obtain ⟨f, resolved', reviewed⟩ := (finish_reviewed s).resolve resolved
  have same := reviewed.record
  have handle : (State.finish s).stc.selfHandle = s.stc.selfHandle := (finish_steerEnds s).moves.keeps.2.1
  refine ⟨n, f, handle.trans held, resolved', ?_, ?_⟩
  · exact (congrArg (fun r => r.2.2.1) same).trans owner
  · exact (congrArg (fun r => r.2.1) same).trans kind

/-- At the end of an event STC keeps all but its window, or has entered CENTRING from FROZEN or TRACKING. -/
theorem finish_stc (s : State) : ∃ st ce w, (State.finish s).stc = { s.stc with state := st, centringTimer := ce, windowOpen := w } := by
  obtain ⟨w, ⟨same, -⟩ | ⟨-, -, same, -⟩⟩ := (finish_steerEnds s).stc
  · exact ⟨_, _, _, same⟩
  · exact ⟨_, _, _, same⟩

theorem finish_stands {s : State} (still : s.stc.state ≠ .frozen ∧ s.stc.state ≠ .tracking) :
    (State.finish s).stc.centringTimer = s.stc.centringTimer ∧ (State.finish s).lockCommand = s.lockCommand :=
  ⟨((finish_steerEnds s).moves.stays still).2.1, ((finish_steerEnds s).moves.stays still).2.2⟩

theorem finish_lockOn {s : State} (on : s.lockCommand = 1) : (State.finish s).lockCommand = 1 :=
  (finish_steerEnds s).keepsCommand.2.2 on

end Sys2Proof.Machine
end

