-- ==== Sys2Proof/Proofs/SteeringEnds.lean ====
section
/-! PROOF. The end of a steering update (R139 to R153, R159) -/

namespace Sys2Proof.Machine

/-! ## The end of a steering update (R139 to R153, R159) -/

section
variable {p w : State} {u : Schedule}

/-- R146: no end of a centring moves the limits in force. -/
theorem judgeCentring_bounds (w : State) : (Stc.judgeCentring w).stc.lower = w.stc.lower ∧ (Stc.judgeCentring w).stc.upper = w.stc.upper := by
  by_cases centred : w.centred = true
  · cases live : w.anyLive .steerCentre with
    | true =>
      rw [(judgeCentring_locks centred live).1]
      exact ⟨rfl, rfl⟩
    | false =>
      obtain ⟨⟨r, moves, same⟩, -⟩ := judgeCentring_left centred live
      obtain ⟨_, _, ⟨is, -⟩ | ⟨-, is, -⟩⟩ := moves.stc
      · rw [same, is, centreLeft_stc]
        split
        · exact ⟨rfl, rfl⟩
        · exact ⟨rfl, rfl⟩
      · rw [same, is, centreLeft_stc]
        split
        · exact ⟨rfl, rfl⟩
        · exact ⟨rfl, rfl⟩
  · by_cases long : 2000 ≤ w.stc.centringTimer + 10
    · obtain ⟨⟨l, h, is⟩, -⟩ := enterPassive_after w.centringGrown
      rw [judgeCentring_passes centred long, is]
      exact ⟨rfl, rfl⟩
    · rw [judgeCentring_grows centred (by omega)]
      exact ⟨rfl, rfl⟩

/-- With a latch set and its entry live, the command's part moves no entry. -/
theorem judgeCentring_holds (latched : w.stc.latch ≠ none) (live : w.anyLive .steerCentre = true) :
    (Stc.judgeCentring w).ilt = w.ilt ∧ (Stc.judgeCentring w).stc.selfHandle = w.stc.selfHandle := by
  by_cases centred : w.centred = true
  · obtain ⟨stc, -, ilt, -⟩ := judgeCentring_locks centred live
    rw [stc]
    exact ⟨ilt, rfl⟩
  · by_cases long : 2000 ≤ w.stc.centringTimer + 10
    · have is : (w.centringGrown.passivePut).stc.latch.isSome = true := by
        rw [passivePut_stc, Option.isSome_iff_ne_none]
        exact latched
      have stands : w.centringGrown.passiveLatched = w.centringGrown.passivePut := if_pos is
      rw [judgeCentring_passes centred long, enterPassive_eq, stands, State.post_ilt, State.post_stc, passivePut_stc]
      exact ⟨command_ilt _ _ _, rfl⟩
    · rw [judgeCentring_grows centred (by omega)]
      exact ⟨rfl, rfl⟩

theorem steer_holds (latched : p.stc.latch ≠ none) (live : p.anyLive .steerCentre = true) :
    (Stc.steer p).ilt = p.ilt ∧ (Stc.steer p).stc.selfHandle = p.stc.selfHandle := by
  cases schedule : p.stc.schedule with
  | none =>
    rw [steer_none schedule]
    exact ⟨rfl, rfl⟩
  | some u =>
    have formed (target : Int) : (Stc.formCommand target u p).stc.latch ≠ none := by rwa [formCommand_stc]
    have handle (target : Int) : (Stc.formCommand target u p).stc.selfHandle = p.stc.selfHandle := by rw [formCommand_stc]
    have ilt (target : Int) : (Stc.formCommand target u p).ilt = p.ilt := (formCommand_beside target u p).1
    by_cases tracking : p.stc.state = .tracking
    · rw [steer_tracking schedule tracking, judgeTracking_latched (formed (p.kinematicTarget u))]
      exact ⟨ilt (p.kinematicTarget u), handle (p.kinematicTarget u)⟩
    · by_cases centring : p.stc.state = .centring
      · obtain ⟨ilt', handle'⟩ := judgeCentring_holds (formed 0) (by rw [anyLive_congr (State.live_congr (ilt 0))]; exact live)
        rw [steer_centring schedule centring]
        exact ⟨ilt'.trans (ilt 0), handle'.trans (handle 0)⟩
      · rw [steer_still ⟨tracking, centring⟩]
        exact ⟨rfl, rfl⟩

end

section
variable (s : State)

/-- The end of a steering update. -/
def steeringUpdateAt (s : State) : State := State.finish (steeringMoves s)

theorem exec_steeringUpdate : exec .steeringUpdate s = .next (steeringUpdateAt s) := rfl

theorem damped_evolves : Evolves { s with now := max s.now (s.stc.lastUpdate + 10000) } s.steerSteered.damped :=
  ev_damp (ev_judgeJoint (ev_steer (steerLooked_evolves s)))

/-- The frame and the report move nothing else. -/
theorem steerFramed_damped (r : State) : State.steerFramed r = (r.damped.modLnk fun l =>
    { l with steering := some r.damped.steeringFrame, steerCount := l.steerCount + 1 }).modStc fun x =>
    { x with report := r.damped.reportNext } := rfl

/-- STC at the end of the update, by what its stages put. -/
theorem steeringUpdateAt_stc : ∃ st ce w tr h, (steeringUpdateAt s).stc = { s.steerTaken.stc with
    disagreeTimer := s.disagreeNext, schedule := s.scheduleNext, state := st, centringTimer := ce, windowOpen := w, trackTimer := tr
    selfHandle := h, latch := s.steerSteered.stc.latch, command := s.steerSteered.stc.command, lower := s.steerSteered.stc.lower
    upper := s.steerSteered.stc.upper, jointLimit := s.steerSteered.jointNext, damper := s.steerSteered.damperNext
    report := s.steerSteered.damped.reportNext } := by
  obtain ⟨st, ce, w, ended⟩ := finish_stc (steeringMoves s)
  obtain ⟨_, _, _, _, _, _, _, _, steered⟩ := (steerLooked_moves s).steersOn.trans (steer_steersOn s.steerLooked)
  have framed := steerFramed_stc s.steerSteered
  rw [← steeringMoves_eq] at framed
  rw [← steerSteered_eq, steerPut_stc] at steered
  refine ⟨st, ce, w, s.steerSteered.stc.trackTimer, s.steerSteered.stc.selfHandle, ?_⟩
  rw [steeringUpdateAt, ended, framed, steered]

end
end Sys2Proof.Machine
end

