-- ==== Sys2Proof/Proofs/SteeringOutputs.lean ====
section
/-! PROOF. The inputs, the frame, the joint and the damper of a steering update (R139 to R159) -/

namespace Sys2Proof.Machine

/-! ## The inputs, the frame, the joint and the damper after a steering update (R139, R140, R144, R147, R152, R153, R159) -/

section
variable (r : State)

theorem steerFramed_base : (State.steerFramed r).now = r.damped.now ∧ (State.steerFramed r).cfg = r.damped.cfg
    ∧ (State.steerFramed r).mot = r.damped.mot ∧ (State.steerFramed r).ilt = r.damped.ilt ∧ (State.steerFramed r).lnk.queue = r.damped.lnk.queue
    ∧ (State.steerFramed r).lnk.answer = r.damped.lnk.answer ∧ (State.steerFramed r).lnk.broadcast = r.damped.lnk.broadcast
    ∧ (State.steerFramed r).stc.bankA = r.damped.stc.bankA ∧ (State.steerFramed r).stc.bankB = r.damped.stc.bankB := by
  rw [steerFramed_damped]
  exact ⟨rfl, rfl, rfl, rfl, rfl, rfl, rfl, rfl, rfl⟩

theorem damped_report : r.damped.reportNext = {
    state := r.stc.state, command := r.stc.command, delta3 := r.stc.delta3, gamma := r.stc.gamma,
    delta1 := r.stc.delta1, lower := r.stc.lower, upper := r.stc.upper, damper := r.damperNext, jointLimit := r.jointNext,
    windowOpen := r.stc.windowOpen } := by
  unfold State.reportNext
  rw [damped_stc]

end

section
variable (s : State)

theorem steeringUpdateAt_beside : (steeringUpdateAt s).now = max s.now (s.stc.lastUpdate + 10000) ∧ (steeringUpdateAt s).cfg = s.cfg
    ∧ (steeringUpdateAt s).mot = s.mot ∧ (steeringUpdateAt s).ilt.registry = s.ilt.registry ∧ (steeringUpdateAt s).lnk.queue = s.lnk.queue
    ∧ (steeringUpdateAt s).lnk.answer = s.lnk.answer ∧ (steeringUpdateAt s).lnk.broadcast = s.lnk.broadcast
    ∧ (steeringUpdateAt s).stc.bankA = s.stc.bankA ∧ (steeringUpdateAt s).stc.bankB = s.stc.bankB := by
  have base := (damped_evolves s).base
  have ends := finish_base (steeringMoves s)
  obtain ⟨now, cfg, mot, ilt, queue, answer, broadcast, bankA, bankB⟩ := steerFramed_base s.steerSteered
  rw [← steeringMoves_eq] at now cfg mot ilt queue answer broadcast bankA bankB
  exact ⟨ends.now.trans (now.trans base.now), ends.cfg.trans (cfg.trans base.cfg), ends.mot.trans (mot.trans base.mot),
    ends.registry.trans ((congrArg (·.registry) ilt).trans base.registry), ends.queue.trans (queue.trans base.queue),
    ends.answer.trans (answer.trans base.answer), ends.broadcast.trans (broadcast.trans base.broadcast),
    ends.bankA.trans (bankA.trans base.bankA), ends.bankB.trans (bankB.trans base.bankB)⟩

/-- What the command's part leaves of the inputs. -/
theorem steered_inputs : s.steerSteered.stc.gamma = s.gammaNow ∧ s.steerSteered.stc.delta3 = s.analogValue 15
    ∧ s.steerSteered.stc.prevGamma = (if s.stc.gammaFormed then some s.stc.gamma else none)
    ∧ s.steerSteered.stc.jointLimit = s.stc.jointLimit ∧ s.steerSteered.stc.schedule = s.scheduleNext
    ∧ s.steerSteered.cfg = s.cfg ∧ s.steerSteered.mot = s.mot ∧ s.steerSteered.lnk.steerCount = s.lnk.steerCount := by
  obtain ⟨_, _, _, _, _, _, _, _, steered⟩ := (steerLooked_moves s).steersOn.trans (steer_steersOn s.steerLooked)
  rw [← steerSteered_eq, steerPut_stc] at steered
  have base := ((steerLooked_evolves s).trans (steeringMoves_evolves s)).base
  rw [steered]
  exact ⟨rfl, rfl, rfl, rfl, rfl, base.cfg, base.mot, base.steerCount⟩

theorem steeringUpdateAt_inputs : (steeringUpdateAt s).stc.lastUpdate = max s.now (s.stc.lastUpdate + 10000)
    ∧ (steeringUpdateAt s).stc.gamma = s.gammaNow ∧ (steeringUpdateAt s).stc.delta1 = s.analogValue 14
    ∧ (steeringUpdateAt s).stc.delta3 = s.analogValue 15 ∧ (steeringUpdateAt s).stc.schedule = s.scheduleNext
    ∧ (steeringUpdateAt s).stc.command = s.steerSteered.stc.command ∧ (steeringUpdateAt s).stc.lower = s.steerSteered.stc.lower
    ∧ (steeringUpdateAt s).stc.upper = s.steerSteered.stc.upper ∧ (steeringUpdateAt s).stc.latch = s.steerSteered.stc.latch
    ∧ (steeringUpdateAt s).stc.jointLimit = s.steerSteered.jointNext ∧ (steeringUpdateAt s).stc.damper = s.steerSteered.damperNext
    ∧ (steeringUpdateAt s).stc.report = s.steerSteered.damped.reportNext := by
  obtain ⟨_, _, _, _, _, is⟩ := steeringUpdateAt_stc s
  exact ⟨by rw [is, steerTaken_stc], by rw [is, steerTaken_stc], by rw [is, steerTaken_stc], by rw [is, steerTaken_stc],
    by rw [is], by rw [is], by rw [is], by rw [is], by rw [is], by rw [is], by rw [is], by rw [is]⟩

theorem gammaNow_eq : s.gammaNow = if s.analogFaulty 12 = true ∧ s.analogFaulty 13 = false then s.analogValue 13
    else if s.analogFaulty 13 = true ∧ s.analogFaulty 12 = false then s.analogValue 12
    else Int.tdiv (s.analogValue 12 + s.analogValue 13) 2 := rfl

/-- R159: the report is of the values at the end of the update. -/
theorem steeringUpdateAt_report : (steeringUpdateAt s).stc.report.state = s.steerSteered.stc.state
    ∧ (steeringUpdateAt s).stc.report.command = (steeringUpdateAt s).stc.command
    ∧ (steeringUpdateAt s).stc.report.delta3 = (steeringUpdateAt s).stc.delta3 ∧ (steeringUpdateAt s).stc.report.gamma = (steeringUpdateAt s).stc.gamma
    ∧ (steeringUpdateAt s).stc.report.lower = (steeringUpdateAt s).stc.lower ∧ (steeringUpdateAt s).stc.report.upper = (steeringUpdateAt s).stc.upper
    ∧ (steeringUpdateAt s).stc.report.damper = (steeringUpdateAt s).stc.damper := by
  obtain ⟨-, gamma, -, delta3, -, command, lower, upper, -, -, damper, report⟩ := steeringUpdateAt_inputs s
  obtain ⟨gamma', delta3', -⟩ := steered_inputs s
  rw [report, gamma, delta3, command, lower, upper, damper, damped_report]
  exact ⟨by dsimp only, by dsimp only, by dsimp only; exact delta3', by dsimp only; exact gamma', by dsimp only, by dsimp only, by dsimp only⟩

/-- R147, R175: the steering frame and its counter. -/
theorem steeringUpdateAt_frame (f : TxFrame) (is : f = s.steerSteered.damped.steeringFrame) : (steeringUpdateAt s).lnk.steering = some f
    ∧ f.identifier = s.cfg.settings.ansBase + 15 ∧ f.content.b0 ++ f.content.b1 = BitVec.ofInt 16 (steeringUpdateAt s).stc.command
    ∧ f.content.b2 = BitVec.ofNat 8 (steeringUpdateAt s).stc.report.state.code
    ∧ f.content.b3 = (if (steeringUpdateAt s).stc.report.state = .frozen ∨ (steeringUpdateAt s).stc.report.state = .tracking
      ∨ (steeringUpdateAt s).stc.report.state = .centring then 1 else 0)
    ∧ f.content.b4 = s.lnk.steerCount ∧ (steeringUpdateAt s).lnk.steerCount = s.lnk.steerCount + 1 := by
  have ends := finish_base (steeringMoves s)
  obtain ⟨-, -, -, -, -, steering, count⟩ := steerFramed_beside s.steerSteered
  rw [← steeringMoves_eq] at steering count
  obtain ⟨identifier, command, code, lock, sent⟩ := damped_frame s.steerSteered
  obtain ⟨-, -, -, -, -, cfg, -, count'⟩ := steered_inputs s
  obtain ⟨-, -, -, -, -, command', -⟩ := steeringUpdateAt_inputs s
  rw [cfg] at identifier
  rw [count'] at sent count
  rw [is, (steeringUpdateAt_report s).1, command']
  exact ⟨ends.steering.trans steering, identifier, command, code, lock, sent, ends.steerCount.trans count⟩

/-- R153: the joint limit after the update. -/
theorem steeringUpdateAt_joint : ((steeringUpdateAt s).stc.jointLimit = true ↔ 480 ≤ (steeringUpdateAt s).stc.gamma.natAbs
      ∨ (450 ≤ (steeringUpdateAt s).stc.gamma.natAbs ∧ s.stc.jointLimit = true))
    ∧ ((steeringUpdateAt s).stc.jointLimit = true → s.stc.jointLimit = false → (steeringUpdateAt s).flagged 8) := by
  obtain ⟨-, gamma, -, -, -, -, -, -, -, joint, -⟩ := steeringUpdateAt_inputs s
  obtain ⟨gamma', -, -, limit, -⟩ := steered_inputs s
  have next : s.steerSteered.jointNext = true ↔ 480 ≤ s.gammaNow.natAbs ∨ (450 ≤ s.gammaNow.natAbs ∧ s.stc.jointLimit = true) := by
    unfold State.jointNext
    rw [gamma', limit]
    split
    · next above => simp [above]
    · split
      · next above below => simp only [Bool.false_eq_true, false_iff]; omega
      · next below within =>
        constructor
        · exact fun held => .inr ⟨by omega, held⟩
        · rintro (above | ⟨-, held⟩)
          · exact absurd above below
          · exact held
  rw [joint, gamma, next]
  refine ⟨.rfl, fun is clear => ?_⟩
  have above : 480 ≤ s.steerSteered.stc.gamma.natAbs := by
    rw [gamma']
    rcases is with above | ⟨-, held⟩
    · exact above
    · rw [clear] at held
      exact nomatch held
  have posted : (steeringMoves s).flagged 8 := by
    rw [steeringMoves_eq]
    exact steerFramed_joint _ above (limit.trans clear)
  exact finish_flagged posted

/-- What makes the damping full (R152). -/
def State.fullDamping (s : State) : Prop := (steeringUpdateAt s).stc.report.state = .parked ∨ s.analogFaulty 12 = true
  ∨ s.analogFaulty 13 = true ∨ (steeringUpdateAt s).stc.jointLimit = true ∨ s.mot.speed = none

/-- R152: the damper after the update, handed to PD1. -/
theorem steeringUpdateAt_damper : (rd (steeringUpdateAt s).vda.channels damperChannel).command = (steeringUpdateAt s).stc.damper
    ∧ (s.fullDamping → (steeringUpdateAt s).stc.damper = 1000)
    ∧ (¬ s.fullDamping → (steeringUpdateAt s).stc.schedule = none → (steeringUpdateAt s).stc.damper = 1000)
    ∧ (¬ s.fullDamping → ∀ u, (steeringUpdateAt s).stc.schedule = some u → (steeringUpdateAt s).stc.damper =
      min 1000 (u.damp.toNat + s.cfg.settings.rateGain
        * (if s.stc.gammaFormed then ((steeringUpdateAt s).stc.gamma - s.stc.gamma).natAbs else 0))) := by
  obtain ⟨-, gamma, -, -, schedule, -, -, -, -, joint, damper, -⟩ := steeringUpdateAt_inputs s
  obtain ⟨gamma', -, previous, -, schedule', cfg, mot, -⟩ := steered_inputs s
  obtain ⟨-, -, -, -, handed, -⟩ := steerFramed_beside s.steerSteered
  have faulty (c : Fin 21) : s.steerSteered.analogFaulty c = s.analogFaulty c := by rw [State.analogFaulty, mot, State.analogFaulty]
  have rate : s.steerSteered.stc.gammaRate = if s.stc.gammaFormed then (s.gammaNow - s.stc.gamma).natAbs else 0 := by
    unfold Stc.gammaRate
    rw [previous, gamma']
    cases s.stc.gammaFormed with
    | false => rfl
    | true => rfl
  have full : s.fullDamping ↔ s.steerSteered.stc.state = .parked ∨ s.steerSteered.analogFaulty 12 = true
      ∨ s.steerSteered.analogFaulty 13 = true ∨ s.steerSteered.jointNext = true ∨ s.steerSteered.mot.speed = none := by
    rw [State.fullDamping, (steeringUpdateAt_report s).1, joint, faulty, faulty, mot]
  rw [← steeringMoves_eq] at handed
  refine ⟨(finish_damperCommand (steeringMoves s)).trans (handed.trans damper.symm), fun is => ?_, fun not none => ?_, fun not u known => ?_⟩
  · rw [damper, damperNext_eq, if_pos (full.mp is)]
  · rw [schedule] at none
    rw [damper, damperNext_eq, if_neg fun is => not (full.mpr is), schedule', none]
  · rw [schedule] at known
    rw [damper, damperNext_eq, if_neg fun is => not (full.mpr is), schedule', known, cfg, rate, gamma]

end
end Sys2Proof.Machine
end

