-- ==== Sys2Proof/Proofs/SteeringCases.lean ====
section
/-! PROOF. A steering update by the state and the cause (R139, R141 to R149) -/

namespace Sys2Proof.Machine

/-! ## The command of a steering update, by the state (R139, R141 to R151) -/

section
variable {s : State}

/-- The inputs are plausible at this update. -/
def State.plausible (s : State) : Prop := (∀ c : Fin 21, 12 ≤ c.val → c.val ≤ 15 → s.analogFaulty c = false)
  ∧ ((s.analogValue 12 - s.analogValue 13).natAbs ≤ 20 ∨ s.stc.disagreeTimer + 10 < 100)

/-- R139: where STC does not steer, the update leaves its command. -/
theorem steered_still (still : s.stc.state = .parked ∨ s.stc.state = .locked ∨ s.stc.state = .passive
    ∨ (s.stc.state = .frozen ∧ (s.stc.latch ≠ none ∨ s.plausible))) : s.steerSteered.stc.command = s.stc.command
    ∧ s.steerSteered.stc.lower = s.stc.lower ∧ s.steerSteered.stc.upper = s.stc.upper ∧ s.steerSteered.stc.state = s.stc.state := by
  have looked : ∃ l h, s.steerLooked.stc = { s.steerPut.stc with latch := l, selfHandle := h } := by
    have fixed (away : s.stc.state ≠ .frozen ∧ s.stc.state ≠ .tracking) : ∃ l h, s.steerLooked.stc =
        { s.steerPut.stc with latch := l, selfHandle := h } := ⟨_, _, ((steerLooked_moves s).stays away).1⟩
    rcases still with state | state | state | ⟨state, plain⟩
    · exact fixed (by simp [state])
    · exact fixed (by simp [state])
    · exact fixed (by simp [state])
    · have sound : s.stc.latch ≠ none ∨ s.steerCause = none :=
        plain.imp_right fun plausible => steerCause_sound plausible.1 plausible.2 fun is => by rw [state] at is; exact nomatch is.2
      rw [steerLooked_plain sound]
      exact ⟨_, _, rfl⟩
  obtain ⟨l, h, is⟩ := looked
  have state : s.steerLooked.stc.state = s.stc.state := by rw [is, steerPut_stc, steerTaken_stc]
  have stays : Stc.steer s.steerLooked = s.steerLooked := by
    refine steer_still ?_
    rw [state]
    rcases still with state | state | state | ⟨state, -⟩ <;> simp [state]
  rw [steerSteered_eq, stays]
  refine ⟨?_, ?_, ?_, state⟩
  · rw [is, steerPut_stc, steerTaken_stc]
  · rw [is, steerPut_stc, steerTaken_stc]
  · rw [is, steerPut_stc, steerTaken_stc]

/-- What a latch found at this update comes to at its end. -/
theorem steeringUpdateAt_latches {c : LatchCause} (clear : s.stc.latch = none) (cause : s.steerCause = some c) :
    (steeringUpdateAt s).stc.latch = some c ∧ (steeringUpdateAt s).flagged 7
    ∧ (s.inRun = true → s.CentreOpens → (steeringUpdateAt s).HoldsCentre) := by
  obtain ⟨latch, flagged, -, opens⟩ := steerLooked_latches clear cause
  refine ⟨((finish_steerEnds _).latch).trans (steeringMoves_latched latch), finish_flagged (steeringMoves_flagged flagged), fun run opened => ?_⟩
  obtain ⟨⟨n, e, held, resolved, entry⟩, live, -⟩ := opens run (centreOpens_congr opened rfl rfl)
  obtain ⟨ilt, handle⟩ := steer_holds (by rw [latch]; simp) live
  rw [← steerSteered_eq] at ilt handle
  have framed := steerFramed_stc s.steerSteered
  obtain ⟨ilt', -⟩ := steerFramed_beside s.steerSteered
  rw [← steeringMoves_eq] at framed ilt'
  refine finish_holdsCentre ⟨n, e, ?_, ?_, entry⟩
  · rw [framed]
    dsimp only
    exact handle.trans held
  · rw [resolve_congr (ilt'.trans ilt)]
    exact resolved

theorem steeringUpdateAt_latched {q : LatchCause} (latched : s.stc.latch = some q) : (steeringUpdateAt s).stc.latch = some q := by
  have looked : s.steerLooked.stc.latch = some q := by
    rw [steerLooked_latched (by simp [latched])]
    exact latched
  exact (finish_steerEnds _).latch.trans (steeringMoves_latched looked)

/-- R141: the cause of the first FAULTY sensor. -/
theorem steerCause_sensor (c : Fin 21) (low : 12 ≤ c.val) (high : c.val ≤ 15) (faulty : s.analogFaulty c = true)
    (first : ∀ b : Fin 21, 12 ≤ b.val → b.val < c.val → s.analogFaulty b = false) : s.steerCause = some (if c = 12 then LatchCause.artASensor
      else if c = 13 then .artBSensor else if c = 14 then .frontSensor else .actuatorSensor) := by
  have is : c = 12 ∨ c = 13 ∨ c = 14 ∨ c = 15 := by omega
  unfold State.steerCause
  rcases is with rfl | rfl | rfl | rfl
  · rw [if_pos faulty]
    rfl
  · rw [first 12 (by decide) (by decide), if_neg (by simp), if_pos faulty]
    rfl
  · rw [first 12 (by decide) (by decide), first 13 (by decide) (by decide), if_neg (by simp), if_neg (by simp), if_pos faulty]
    rfl
  · rw [first 12 (by decide) (by decide), first 13 (by decide) (by decide), first 14 (by decide) (by decide), if_neg (by simp),
      if_neg (by simp), if_neg (by simp), if_pos faulty]
    rfl

theorem steerCause_speed (plausible : s.plausible) (run : s.inRun = true) (tracking : s.stc.state = .tracking) (lost : s.mot.speed = none) :
    s.steerCause = some .speedInvalid := by
  obtain ⟨sound, agree⟩ := plausible
  have short : ¬ 100 ≤ s.disagreeNext := by
    unfold State.disagreeNext
    split <;> omega
  unfold State.steerCause
  rw [sound 12 (by decide) (by decide), sound 13 (by decide) (by decide), sound 14 (by decide) (by decide), sound 15 (by decide) (by decide)]
  simp [short, run, tracking, lost]

/-- R141: what makes the inputs of an update implausible. -/
theorem steerCause_implausible (run : s.inRun = true) (implausible : (∃ c : Fin 21, 12 ≤ c.val ∧ c.val ≤ 15 ∧ s.analogFaulty c = true)
    ∨ (20 < (s.analogValue 12 - s.analogValue 13).natAbs ∧ 100 ≤ s.stc.disagreeTimer + 10)
    ∨ (s.stc.state = .tracking ∧ s.mot.speed = none)) : ∃ c, s.steerCause = some c := by
  by_contra no
  have none : s.steerCause = none := by
    cases cause : s.steerCause with
    | none => rfl
    | some c => exact absurd ⟨c, cause⟩ no
  unfold State.steerCause at none
  split at none
  · exact nomatch none
  · next artA =>
  split at none
  · exact nomatch none
  · next artB =>
  split at none
  · exact nomatch none
  · next front =>
  split at none
  · exact nomatch none
  · next actuator =>
  split at none
  · exact nomatch none
  · next short =>
  split at none
  · exact nomatch none
  · next known =>
  rw [Bool.not_eq_true] at artA artB front actuator
  rcases implausible with ⟨c, low, high, faulty⟩ | ⟨diff, long⟩ | ⟨tracking, lost⟩
  · have is : c = 12 ∨ c = 13 ∨ c = 14 ∨ c = 15 := by omega
    rcases is with rfl | rfl | rfl | rfl <;> simp_all
  · refine short ?_
    unfold State.disagreeNext
    rw [if_pos ⟨artA, artB, diff⟩]
    omega
  · exact known ⟨run, tracking, lost⟩

end
end Sys2Proof.Machine
end

