-- ==== Sys2Proof/Proofs/CentringTracking.lean ====
section
/-! PROOF. CENTRING and TRACKING at a steering update (R145 to R151) -/

namespace Sys2Proof.Machine

/-! ## CENTRING and TRACKING at a steering update (R145 to R147, R149 to R151) -/

section
variable {p : State} {u : Schedule} (schedule : p.stc.schedule = some u)
include schedule

section
variable (centring : p.stc.state = .centring)
include centring

/-- The limits in force of a centring, and where it has neither an end nor come to its bound. -/
theorem steer_centring_grows : (Stc.steer p).stc.lower = p.lowerBound u ∧ (Stc.steer p).stc.upper = p.upperBound u
    ∧ (¬ p.centred = true → p.stc.centringTimer + 10 < 2000 → (Stc.steer p).stc.command = p.commandToward 0 u
      ∧ (Stc.steer p).stc.state = .centring ∧ (Stc.steer p).stc.centringTimer = p.stc.centringTimer + 10) := by
  obtain ⟨lower, upper⟩ := judgeCentring_bounds (Stc.formCommand 0 u p)
  have stc := formCommand_stc 0 u p
  rw [steer_centring schedule centring, lower, upper]
  refine ⟨by rw [stc], by rw [stc], fun off short => ?_⟩
  have timer : (Stc.formCommand 0 u p).stc.centringTimer = p.stc.centringTimer := by rw [stc]
  have grown : (Stc.formCommand 0 u p).centringGrown.stc = { (Stc.formCommand 0 u p).stc with
    centringTimer := min 2000 (p.stc.centringTimer + 10) } := by rw [State.centringGrown, State.modStc_stc, State.centringNext, timer]
  rw [judgeCentring_grows (by rwa [formed_centred]) (by rwa [timer]), grown, stc]
  dsimp only
  exact ⟨rfl, centring, by omega⟩

theorem steer_centring_locks (centred : p.centred = true) (live : p.anyLive .steerCentre = true) :
    (Stc.steer p).stc.state = .locked ∧ (Stc.steer p).stc.command = 0 ∧ (Stc.steer p).lockCommand = 0 := by
  have live' : (Stc.formCommand 0 u p).anyLive .steerCentre = true := by
    rw [anyLive_congr (State.live_congr (formCommand_beside 0 u p).1)]
    exact live
  obtain ⟨stc, lock, -⟩ := judgeCentring_locks (by rwa [formed_centred]) live'
  rw [steer_centring schedule centring, stc]
  exact ⟨rfl, rfl, lock⟩

/-- A centring left with no STEER_CENTRE live. -/
theorem steer_centring_leaves (centred : p.centred = true) (free : p.anyLive .steerCentre = false) :
    (Stc.steer p).stc.command = 0 ∧ (Stc.steer p).lockCommand = 1
    ∧ (p.stc.latch ≠ none ∨ p.standing = true ∨ (p.channelState lockChannel).unusable = false →
      (Stc.steer p).stc.state = (if p.standing then .frozen else .tracking) ∧ (Stc.steer p).stc.latch = p.stc.latch)
    ∧ (p.inRun = true → p.stc.latch = none → p.standing = false → (p.channelState lockChannel).unusable = true →
      (Stc.steer p).stc.latch = some .lockChannel ∧ (Stc.steer p).flagged 7) := by
  let w := Stc.formCommand 0 u p
  obtain ⟨ilt, mot, cfg, vda, -⟩ := formCommand_beside 0 u p
  have free' : w.anyLive .steerCentre = false := by
    rw [anyLive_congr (State.live_congr ilt)]
    exact free
  have centred' : w.centred = true := by rwa [formed_centred]
  have latch : w.stc.latch = p.stc.latch := by rw [formCommand_stc]
  have standing : w.standing = p.standing := by rw [State.standing, mot, State.standing]
  have channel : w.channelState lockChannel = p.channelState lockChannel := by rw [State.channelState, vda, State.channelState]
  have run : w.inRun = p.inRun := by rw [State.inRun, cfg, State.inRun]
  obtain ⟨⟨r, moves, same⟩, lock⟩ := judgeCentring_left centred' free'
  have command : w.centreLeft.stc.command = 0 := by
    rw [centreLeft_stc]
    split
    · rfl
    · rfl
  rw [steer_centring schedule centring]
  refine ⟨by rw [same, moves.keeps.2.2.1, command], lock, fun quiet => ?_, fun running clear moving unusable => ?_⟩
  · rw [judgeCentring_returns centred' free' (by rw [latch, standing, channel]; exact quiet), centreLeft_stc, standing]
    split
    · exact ⟨rfl, latch⟩
    · exact ⟨rfl, latch⟩
  · exact judgeCentring_latches centred' free' (run.trans running) (latch.trans clear) (standing.trans moving) (by rw [channel]; exact unusable)

end

theorem steer_tracking_commands (tracking : p.stc.state = .tracking) :
    (Stc.steer p).stc.command = p.commandToward (p.kinematicTarget u) u ∧ (Stc.steer p).stc.lower = p.lowerBound u
    ∧ (Stc.steer p).stc.upper = p.upperBound u := by
  have kept : (Stc.formCommand (p.kinematicTarget u) u p).tracked.stc = { (Stc.formCommand (p.kinematicTarget u) u p).stc with
    trackTimer := (Stc.formCommand (p.kinematicTarget u) u p).trackNext } := rfl
  rw [formCommand_stc] at kept
  rw [steer_tracking schedule tracking]
  obtain ⟨_, _, ⟨same, -⟩ | ⟨-, same, -⟩⟩ := (judgeTracking_moves (Stc.formCommand (p.kinematicTarget u) u p)).stc
  · rw [same, kept]
    exact ⟨rfl, rfl, rfl⟩
  · rw [same, kept]
    exact ⟨rfl, rfl, rfl⟩

end

section
variable {s : State}

/-- R149: an update whose implausible inputs bring STC to centre. -/
def State.brought (s : State) : Prop := (s.stc.state = .frozen ∨ s.stc.state = .tracking) ∧ s.stc.latch = none
  ∧ ((∃ c : Fin 21, 12 ≤ c.val ∧ c.val ≤ 15 ∧ s.analogFaulty c = true)
    ∨ (20 < (s.analogValue 12 - s.analogValue 13).natAbs ∧ 100 ≤ s.stc.disagreeTimer + 10)
    ∨ (s.stc.state = .tracking ∧ s.mot.speed = none))
  ∧ s.stc.selfHandle = none ∧ (∃ i : Fin 24, 18 ≤ i.val ∧ (rd s.ilt.slots i).entry = none)
  ∧ ∀ e ∈ s.live, ¬(e.owner = 15 ∧ e.kind = .steerCentre)

theorem brought_enters (run : s.inRun = true) (brought : s.brought) : s.steerLooked.stc.state = .centring
    ∧ s.steerLooked.stc.centringTimer = 0 ∧ s.steerLooked.anyLive .steerCentre = true := by
  obtain ⟨from', clear, implausible, unheld, free, none⟩ := brought
  obtain ⟨c, cause⟩ := steerCause_implausible run implausible
  obtain ⟨-, live, enters⟩ := (steerLooked_latches clear cause).opens run (centreOpens_congr ⟨unheld, free, none⟩ rfl rfl)
  obtain ⟨state, timer, -⟩ := enters from'
  exact ⟨state, timer, live⟩

theorem steerLooked_live (live : ∃ e ∈ s.live, e.kind = .steerCentre) : s.steerLooked.anyLive .steerCentre = true :=
  (steerLooked_gains s).anyLive (anyLive_iff.mpr live)

/-- What the command's part reads of STC, as the update finds it. -/
theorem steerLooked_reads (s : State) : s.steerLooked.stc.command = s.stc.command ∧ s.steerLooked.stc.schedule = s.scheduleNext
    ∧ s.steerLooked.stc.windowOpen = s.stc.windowOpen ∧ s.steerLooked.stc.delta3 = s.analogValue 15 := by
  obtain ⟨-, -, command, schedule, window⟩ := (steerLooked_moves s).keeps
  have put := (steerPut_stc s).trans (by rw [steerTaken_stc])
  refine ⟨command.trans (by rw [put]), schedule.trans (by rw [put]), window.trans (by rw [put]), ?_⟩
  obtain ⟨_, _, ⟨same, -⟩ | ⟨-, same, -⟩⟩ := (steerLooked_moves s).stc
  · rw [same, put]
  · rw [same, put]

theorem steerLooked_centred (s : State) : s.steerLooked.centred = true ↔ s.analogFaulty 15 = false ∧ (s.analogValue 15).natAbs ≤ 5 := by
  rw [centred_iff, (steerLooked_reads s).2.2.2, State.analogFaulty, (steerLooked_same s).2]
  rfl

theorem steerLooked_bounds (s : State) (u : Schedule) : s.steerLooked.lowerBound u = s.lowerBound u
    ∧ s.steerLooked.upperBound u = s.upperBound u ∧ ∀ target, s.steerLooked.commandToward target u = s.commandToward target u := by
  obtain ⟨command, -, window, -⟩ := steerLooked_reads s
  have cfg := (steerLooked_same s).1
  have lower : s.steerLooked.lowerBound u = s.lowerBound u := by rw [State.lowerBound, window, cfg, State.lowerBound]
  have upper : s.steerLooked.upperBound u = s.upperBound u := by rw [State.upperBound, window, cfg, State.upperBound]
  exact ⟨lower, upper, fun target => by rw [State.commandToward, lower, upper, command, State.commandToward]⟩

/-- The schedule of the update, as the statement says it. -/
theorem scheduleNext_eq {u : Schedule} (run : s.inRun = true) (known : ∀ v, s.mot.speed = some v → u = (s.stc.bank s.stc.inUse).lookup v)
    (lost : s.mot.speed = none → s.stc.schedule = some u) : s.scheduleNext = some u := by
  cases speed : s.mot.speed with
  | some v => rw [scheduleNext_speed run speed, known v speed]
  | none => rw [scheduleNext_none (.inr speed), lost speed]

end
end Sys2Proof.Machine
end

