-- ==== Sys2Proof/Proofs/SteeringStatement.lean ====
section
/-! PROOF. The steering update (R139 to R159) -/

namespace Sys2Proof.Machine

/-! ## The steering update (R139 to R159) -/

section
variable {s : State}

/-- What the end of the event leaves of the command's part. -/
theorem steeringUpdateAt_keeps (s : State) : (steeringUpdateAt s).stc.command = s.steerSteered.stc.command
    ∧ (steeringUpdateAt s).stc.lower = s.steerSteered.stc.lower ∧ (steeringUpdateAt s).stc.upper = s.steerSteered.stc.upper
    ∧ (steeringUpdateAt s).stc.latch = s.steerSteered.stc.latch ∧ (steeringUpdateAt s).stc.report.state = s.steerSteered.stc.state
    ∧ (s.steerSteered.lockCommand = 1 → (steeringUpdateAt s).lockCommand = 1)
    ∧ (s.steerSteered.stc.state ≠ .frozen ∧ s.steerSteered.stc.state ≠ .tracking →
      (steeringUpdateAt s).stc.centringTimer = s.steerSteered.stc.centringTimer ∧ (steeringUpdateAt s).lockCommand = s.steerSteered.lockCommand)
    ∧ ∀ i, s.steerSteered.flagged i → (steeringUpdateAt s).flagged i := by
  obtain ⟨-, -, -, -, -, command, lower, upper, latch, -⟩ := steeringUpdateAt_inputs s
  obtain ⟨-, -, timer, -, state, -⟩ := steeringMoves_keeps s
  obtain ⟨-, -, -, lock, -⟩ := steerFramed_beside s.steerSteered
  rw [← steeringMoves_eq] at lock
  refine ⟨command, lower, upper, latch, (steeringUpdateAt_report s).1, fun on => finish_lockOn (lock.trans on), fun still => ?_, fun i raised => ?_⟩
  · obtain ⟨timer', lock'⟩ := finish_stands (s := steeringMoves s) (by rw [state]; exact still)
    exact ⟨timer'.trans timer, lock'.trans lock⟩
  · refine finish_flagged ?_
    rw [steeringMoves_eq]
    exact steerFramed_flagged _ raised

/-- An update in CENTRING, or one that enters it with the timer at 0. -/
def State.Centres (s : State) (from' : Nat) : Prop := (s.stc.state = .centring ∧ from' = s.stc.centringTimer) ∨ (s.brought ∧ from' = 0)

section
variable {u : Schedule} {from' : Nat} (run : s.inRun = true) (schedule : s.scheduleNext = some u)

theorem steerLooked_centres (run : s.inRun = true) (enters : s.Centres from') :
    s.steerLooked.stc.state = .centring ∧ s.steerLooked.stc.centringTimer = from' := by
  rcases enters with ⟨state, rfl⟩ | ⟨brought, rfl⟩
  · have state' : s.steerPut.stc.state = .centring := state
    obtain ⟨same, -⟩ := (steerLooked_moves s).stays (by rw [state']; simp)
    rw [same, steerPut_stc, steerTaken_stc]
    exact ⟨state, rfl⟩
  · obtain ⟨state, timer, -⟩ := brought_enters run brought
    exact ⟨state, timer⟩

include run schedule

theorem steeringUpdateAt_grows (enters : s.Centres from') : (steeringUpdateAt s).stc.lower = s.lowerBound u
    ∧ (steeringUpdateAt s).stc.upper = s.upperBound u
    ∧ (¬ (s.analogFaulty 15 = false ∧ (s.analogValue 15).natAbs ≤ 5) → from' + 10 < 2000 →
      (steeringUpdateAt s).stc.command = s.commandToward 0 u ∧ (steeringUpdateAt s).stc.report.state = .centring
      ∧ (steeringUpdateAt s).stc.centringTimer = from' + 10) := by
  obtain ⟨state, timer⟩ := steerLooked_centres run enters
  have known := (steerLooked_reads s).2.1.trans schedule
  obtain ⟨lowerIs, upperIs, commandIs⟩ := steerLooked_bounds s u
  obtain ⟨lower, upper, grows⟩ := steer_centring_grows known state
  obtain ⟨tCommand, tLower, tUpper, -, tState, -, tStill, -⟩ := steeringUpdateAt_keeps s
  rw [← steerSteered_eq] at lower upper grows
  rw [tLower, tUpper, tCommand, tState, lower, upper, lowerIs, upperIs]
  refine ⟨rfl, rfl, fun off short => ?_⟩
  obtain ⟨command, state', timer'⟩ := grows (fun is => off ((steerLooked_centred s).mp is)) (by rw [timer]; exact short)
  rw [timer] at timer'
  obtain ⟨tTimer, -⟩ := tStill (by rw [state']; simp)
  rw [command, commandIs, tTimer, timer']
  exact ⟨rfl, state', rfl⟩

theorem steeringUpdateAt_locks (enters : s.Centres from') (centred : s.analogFaulty 15 = false ∧ (s.analogValue 15).natAbs ≤ 5)
    (live : s.brought ∨ ∃ e ∈ s.live, e.kind = .steerCentre) : (steeringUpdateAt s).stc.report.state = .locked
    ∧ (steeringUpdateAt s).stc.command = 0 ∧ (steeringUpdateAt s).lockCommand = 0 := by
  obtain ⟨state, -⟩ := steerLooked_centres run enters
  have known := (steerLooked_reads s).2.1.trans schedule
  have live' : s.steerLooked.anyLive .steerCentre = true := by
    rcases live with brought | live
    · exact (brought_enters run brought).2.2
    · exact steerLooked_live live
  obtain ⟨tCommand, -, -, -, tState, -, tStill, -⟩ := steeringUpdateAt_keeps s
  obtain ⟨state', command, lock⟩ := steer_centring_locks known state ((steerLooked_centred s).mpr centred) live'
  rw [← steerSteered_eq] at state' command lock
  obtain ⟨-, tLock⟩ := tStill (by rw [state']; simp)
  rw [tState, tCommand, tLock, state', command, lock]
  exact ⟨rfl, rfl, rfl⟩

variable (here : s.stc.state = .centring) (centred : s.analogFaulty 15 = false ∧ (s.analogValue 15).natAbs ≤ 5)
  (free : ∀ e ∈ s.live, e.kind ≠ .steerCentre)
include here centred free

/-- A centring left in an update that finds nothing to latch before it. -/
theorem steeringUpdateAt_leaves (sound : s.stc.latch ≠ none ∨ s.plausible) :
    (steeringUpdateAt s).stc.command = 0 ∧ (steeringUpdateAt s).lockCommand = 1
    ∧ (s.stc.latch ≠ none ∨ s.mot.motion = .standstill ∨ ¬ (s.channelState lockChannel).unusable = true →
      (steeringUpdateAt s).stc.report.state = (if s.mot.motion = .standstill then .frozen else .tracking)
      ∧ (steeringUpdateAt s).stc.latch = s.stc.latch)
    ∧ (s.stc.latch = none → s.mot.motion ≠ .standstill → (s.channelState lockChannel).unusable = true →
      (steeringUpdateAt s).stc.latch = some .lockChannel ∧ (steeringUpdateAt s).flagged 7) := by
  have looked : s.steerLooked = s.steerPut :=
    steerLooked_plain (sound.imp_right fun is => steerCause_sound is.1 is.2 fun is => by rw [here] at is; exact nomatch is.2)
  obtain ⟨ilt, cfg, mot, vda, -⟩ := steerPut_beside s
  have free' : s.steerPut.anyLive .steerCentre = false := by
    rw [anyLive_congr (State.live_congr ilt), Bool.eq_false_iff, Ne, anyLive_iff]
    exact fun ⟨e, there, kind⟩ => free e there kind
  have standing : s.steerPut.standing = decide (s.mot.motion = .standstill) := by rw [State.standing, mot]
  have channel : s.steerPut.channelState lockChannel = s.channelState lockChannel := by rw [State.channelState, vda, State.channelState]
  have latch : s.steerPut.stc.latch = s.stc.latch := by rw [steerPut_stc, steerTaken_stc]
  have running : s.steerPut.inRun = true := by rw [State.inRun, cfg]; exact run
  have state : s.steerPut.stc.state = .centring := here
  have known : s.steerPut.stc.schedule = some u := schedule
  have isCentred := (steerLooked_centred s).mpr centred
  rw [looked] at isCentred
  obtain ⟨command, lock, returns, latches⟩ := steer_centring_leaves known state isCentred free'
  rw [latch, standing, channel] at returns latches
  obtain ⟨tCommand, -, -, tLatch, tState, tLock, -, tFlagged⟩ := steeringUpdateAt_keeps s
  have steered : s.steerSteered = Stc.steer s.steerPut := by rw [steerSteered_eq, looked]
  rw [← steered] at command lock returns latches
  rw [tCommand, tLatch, tState, command]
  refine ⟨rfl, tLock lock, fun quiet => ?_, fun clear moving unusable => ?_⟩
  · obtain ⟨state', latch'⟩ := returns (by rw [decide_eq_true_iff, ← Bool.not_eq_true]; exact quiet)
    rw [state', latch']
    simp only [decide_eq_true_iff, and_self]
  · obtain ⟨latch', flagged⟩ := latches running clear (decide_eq_false moving) unusable
    exact ⟨latch', tFlagged 7 flagged⟩

end

/-- R145 to R147: an update in TRACKING. -/
theorem steeringUpdateAt_tracking {v : Nat} {u : Schedule} (run : s.inRun = true) (tracking : s.stc.state = .tracking)
    (speed : s.mot.speed = some v) (sound : ∀ c : Fin 21, c = 12 ∨ c = 13 ∨ c = 14 ∨ c = 15 → s.analogFaulty c = false)
    (agree : (s.analogValue 12 - s.analogValue 13).natAbs ≤ 20) (known : u = (s.stc.bank s.stc.inUse).lookup v) :
    (steeringUpdateAt s).stc.command = s.commandToward (if s.selected = .reverse ∧ s.mot.motion = .rolling then 0
      else Int.tdiv (u.gArt * Int.tdiv (s.analogValue 12 + s.analogValue 13) 2 + u.gFront * s.analogValue 14) 1024) u
    ∧ (steeringUpdateAt s).stc.lower = s.lowerBound u ∧ (steeringUpdateAt s).stc.upper = s.upperBound u := by
  have sound' (c : Fin 21) (low : 12 ≤ c.val) (high : c.val ≤ 15) : s.analogFaulty c = false := sound c (by omega)
  have looked : s.steerLooked = s.steerPut := steerLooked_plain (.inr (steerCause_sound sound' (.inl agree) fun _ => by rw [speed]; simp))
  have schedule : s.steerLooked.stc.schedule = some u := by rw [(steerLooked_reads s).2.1, scheduleNext_speed run speed, known]
  have state : s.steerLooked.stc.state = .tracking := by rw [looked, steerPut_stc, steerTaken_stc]; exact tracking
  obtain ⟨command, lower, upper⟩ := steer_tracking_commands schedule state
  obtain ⟨tCommand, tLower, tUpper, -⟩ := steeringUpdateAt_keeps s
  obtain ⟨lowerIs, upperIs, commandIs⟩ := steerLooked_bounds s u
  have gamma : s.steerPut.stc.gamma = Int.tdiv (s.analogValue 12 + s.analogValue 13) 2 := by
    rw [steerPut_stc, steerTaken_stc, gammaNow_eq, sound 12 (by simp), sound 13 (by simp)]
    simp
  have target : s.steerPut.kinematicTarget u = if s.selected = .reverse ∧ s.mot.motion = .rolling then 0
      else Int.tdiv (u.gArt * s.steerPut.stc.gamma + u.gFront * s.analogValue 14) 1024 := rfl
  rw [gamma, ← looked] at target
  rw [← steerSteered_eq] at command lower upper
  rw [commandIs, target] at command
  exact ⟨tCommand.trans command, tLower.trans (lower.trans lowerIs), tUpper.trans (upper.trans upperIs)⟩

end

/-- Settles O55: the inputs, the latch, the schedule, the command by the state, the joint, the damper, the frame and the report of a
steering update, one stage after another. -/
theorem steeringUpdateSteers : Obligations.SteeringUpdateSteers := by
  unfold Obligations.SteeringUpdateSteers
  intro s
  obtain ⟨now, cfg, mot, registry, queue, answer, broadcast, bankA, bankB⟩ := steeringUpdateAt_beside s
  obtain ⟨last, gamma, delta1, delta3, schedule, -⟩ := steeringUpdateAt_inputs s
  obtain ⟨steering, identifier, sent, code, lockOn, counted, count⟩ := steeringUpdateAt_frame s _ rfl
  obtain ⟨-, rCommand, rDelta, rGamma, rLower, rUpper, rDamper⟩ := steeringUpdateAt_report s
  obtain ⟨joint, posted⟩ := steeringUpdateAt_joint s
  obtain ⟨handed, full, unknown, damper⟩ := steeringUpdateAt_damper s
  obtain ⟨tCommand, tLower, tUpper, -, tState, -⟩ := steeringUpdateAt_keeps s
  have still (is : s.stc.state = .parked ∨ s.stc.state = .locked ∨ s.stc.state = .passive
      ∨ (s.stc.state = .frozen ∧ (s.stc.latch ≠ none ∨ s.plausible))) : (steeringUpdateAt s).stc.command = s.stc.command
      ∧ (steeringUpdateAt s).stc.lower = s.stc.lower ∧ (steeringUpdateAt s).stc.upper = s.stc.upper
      ∧ (steeringUpdateAt s).stc.report.state = s.stc.state := by
    obtain ⟨command, lower, upper, state⟩ := steered_still is
    exact ⟨tCommand.trans command, tLower.trans lower, tUpper.trans upper, tState.trans state⟩
  have run (is : s.cfg.device = .run) : s.inRun = true := decide_eq_true is
  refine ⟨steeringUpdateAt s, s.steerSteered.damped.steeringFrame, exec_steeringUpdate s, now, last.trans now.symm, cfg, mot, registry, queue, answer, broadcast, bankA, bankB,
    gamma.trans (gammaNow_eq s), delta1, delta3, steering, identifier, sent, code, lockOn, counted, count, rCommand, rDelta, rGamma, rLower,
    rUpper, rDamper, handed, joint, posted, fun parked => ?_, fun v device speed => ?_, fun out => ?_, still,
    fun q latched => steeringUpdateAt_latched latched, ?_, ?_, ?_, ?_⟩
  · obtain ⟨command, -, -, state⟩ := still (.inl parked)
    exact ⟨command, full (.inl (state.trans parked))⟩
  · rw [schedule, scheduleNext_speed (run device) speed]
  · rw [schedule, scheduleNext_none (out.imp_left fun out => decide_eq_false out)]
  · intro cause clear
    refine ⟨fun c low high faulty first => ?_, fun sound agree device tracking lost => ?_⟩
    · obtain ⟨latch, flagged, opens⟩ := steeringUpdateAt_latches clear (steerCause_sensor c low high faulty first)
      exact ⟨latch, flagged, fun device _ unheld free none => opens (run device) ⟨unheld, free, none⟩⟩
    · obtain ⟨latch, flagged, -⟩ := steeringUpdateAt_latches clear (steerCause_speed ⟨sound, agree⟩ (run device) tracking lost)
      exact ⟨latch, flagged⟩
  · by_cases is : s.fullDamping
    · exact (full is).trans (if_pos is).symm
    · refine Eq.trans ?_ (if_neg is).symm
      cases known : (steeringUpdateAt s).stc.schedule with
      | none => exact unknown is known
      | some u => exact damper is u known
  · intro u lower upper guard next from' implausible brought device enters known lost guard' lower' upper' next' centred
    subst guard'
    have enters' : s.Centres from' := enters
    have known' : s.scheduleNext = some u := scheduleNext_eq (run device) known lost
    obtain ⟨tLow, tHigh, grows⟩ := steeringUpdateAt_grows (run device) known' enters'
    have lowerIs : s.lowerBound u = lower := lower'.symm
    have upperIs : s.upperBound u = upper := upper'.symm
    have nextIs : s.commandToward 0 u = next := by rw [State.commandToward, lowerIs, upperIs, next']
    rw [nextIs] at grows
    refine ⟨tLow.trans lowerIs, tHigh.trans upperIs, grows, steeringUpdateAt_locks (run device) known' enters', ?_⟩
    intro plausible unusable at' here free
    have leaves := steeringUpdateAt_leaves (run device) known' here at' free
    refine ⟨fun quiet => ?_, fun clear isPlausible moving isUnusable => ?_⟩
    · obtain ⟨command, lock, returns, -⟩ := leaves (quiet.imp_right fun is => is.1)
      obtain ⟨state, latch⟩ := returns (quiet.imp_right fun is => is.2)
      exact ⟨state, command, latch, lock⟩
    · obtain ⟨command, lock, -, latches⟩ := leaves (.inr isPlausible)
      obtain ⟨latch, flagged⟩ := latches clear moving isUnusable
      exact ⟨latch, flagged, command, lock⟩
  · intro v u target lower upper guard device tracking speed sound agree known target' guard' lower' upper'
    subst guard'
    obtain ⟨command, tLow, tHigh⟩ := steeringUpdateAt_tracking (run device) tracking speed sound agree known
    have lowerIs : s.lowerBound u = lower := lower'.symm
    have upperIs : s.upperBound u = upper := upper'.symm
    rw [← target', State.commandToward, lowerIs, upperIs] at command
    exact ⟨command, tLow.trans lowerIs, tHigh.trans upperIs⟩

end Sys2Proof.Machine
end

