-- ==== Sys2Proof/Proofs/SpeedTimersRefuted.lean ====
section
/-! PROOF. A COVERED SELF STOP_HOLD and the rollback (R8, R120, R132) -/

namespace Sys2Proof.Machine

/-! ## A COVERED SELF STOP_HOLD and the rollback (R8, R120, R132) -/

/-- A SELF STOP_HOLD in slot 18 that some other entry has COVERED: it does not contribute, and an instruction to open a SELF STOP_HOLD
refreshes it. -/
def coveredHold : Entry where
  handle := 144
  kind := .stopHold
  owner := 15
  authority := 0
  scope := .vehicle
  parameter := some 450
  state := .covered
  underlying := true
  deadline := .none
  coveredBy := none

/-- A bus in RUN at ROLLING with the wheels at 0, the rollback watch armed 1.00 m away, no hold in force, and the one entry
`coveredHold`: the speed update enters SETTLING and finds the rollback. -/
def rollingCovered : State := { State.reset with
  cfg := { device := .run, settings := Settings.default }
  mot := { Mot.initial 0 false false false with motion := .rolling, armed := true, reference := 100 }
  ilt := { Ilt.initial with
    slots := wr (Vector.replicate 24 { generation := 0, entry := none }) 18 { generation := 0, entry := some coveredHold }
    order := [18] } }

theorem rollingCovered_slot (i : Fin 24) :
    rd rollingCovered.ilt.slots i = if 18 = i then { generation := 0, entry := some coveredHold } else { generation := 0, entry := none } := by
  simp [rollingCovered, rd_wr]

theorem rollingCovered_entry {i : Fin 24} {e : Entry} (he : (rd rollingCovered.ilt.slots i).entry = some e) : i = 18 ∧ e = coveredHold := by
  rw [rollingCovered_slot] at he
  split at he
  next is => exact ⟨is.symm, (Option.some.inj he).symm⟩
  next => simp at he

theorem rollingCovered_live : rollingCovered.live = [coveredHold] := by decide +kernel

/-- The speed update changes the motion state. -/
theorem rollingCovered_settles : (speedUpdateAt rollingCovered).mot.motion = .settling := by decide +kernel

/-- No entry contributes after it. -/
theorem rollingCovered_holdsNothing :
    ((speedUpdateAt rollingCovered).live.all fun e => !e.contributes (speedUpdateAt rollingCovered).mot.motion) = true := by decide +kernel

/-- The rollback has given BRK the handle of the COVERED entry. -/
theorem rollingCovered_opens : (speedUpdateAt rollingCovered).brk.selfHandle = some 144 := by decide +kernel

/-- Its instruction table is one that R19 to R25 allow. -/
theorem rollingCovered_fits : rollingCovered.ilt.Fits where
  handle i e he := by
    obtain ⟨rfl, rfl⟩ := rollingCovered_entry he
    rw [rollingCovered_slot]
    rfl
  owner i e he := by
    obtain ⟨rfl, rfl⟩ := rollingCovered_entry he
    decide
  parameter i e he := by
    obtain ⟨-, rfl⟩ := rollingCovered_entry he
    exact ⟨450, rfl, by decide, by decide⟩
  alone i j e f he hf _ _ _ := (rollingCovered_entry he).1.trans (rollingCovered_entry hf).1.symm
  once := List.nodup_singleton _
  lists i := by
    rw [rollingCovered_slot]
    by_cases is : 18 = i
    · simp [rollingCovered, ← is]
    · simp [rollingCovered, is, Ne.symm is]

/-- Refutes O44: the statement has BRK unchanged over a change of the motion state that leaves a RELEASED hold without a contributor.
From `rollingCovered` the update that enters SETTLING also finds the rollback; the SELF STOP_HOLD it opens is the COVERED entry, which
does not contribute, and BRK has its handle afterwards and had none before. -/
theorem not_speedTimersRunOut : ¬ Obligations.SpeedTimersRunOut := by
  unfold Obligations.SpeedTimersRunOut
  intro every
  obtain ⟨t, ran, -, -, -, -, -, -, brake, -⟩ := every rollingCovered
  obtain rfl : speedUpdateAt rollingCovered = t := Host.Outcome.next.inj ran
  have changed : (speedUpdateAt rollingCovered).mot.motion ≠ rollingCovered.mot.motion := by rw [rollingCovered_settles]; decide
  have uncovered : ∀ e ∈ rollingCovered.live, e.kind = .kneel ∨ e.kind = .raise → e.coveredBy = none := by
    rw [rollingCovered_live]; decide
  obtain ⟨-, -, idle⟩ := brake rfl changed rollingCovered_fits uncovered
  have none_holds : ∀ e ∈ (speedUpdateAt rollingCovered).live, ¬ e.HoldsIn (speedUpdateAt rollingCovered).mot.motion := fun e he holds => by
    have not := List.all_eq_true.mp rollingCovered_holdsNothing e he
    rw [(Entry.contributes_iff e _).mpr holds] at not
    cases not
  have same : (speedUpdateAt rollingCovered).brk = rollingCovered.brk := (idle none_holds).1 (.inl rfl)
  have handle := rollingCovered_opens
  rw [same] at handle
  exact absurd handle (by decide)

end Sys2Proof.Machine
end

