-- ==== Sys2Proof/Proofs/SteeringForm.lean ====
section
/-! PROOF. What the steering and the brakes keep through the work of a command -/

namespace Sys2Proof.Machine

/-! ## What the steering and the brakes keep through the work of a command

`Kept` is the relation that each operation of the blocks has to the state before it, and `kp_` lemmas say so, in the order of the
operations. The device state, the banks and the settings stand under it; the rest of the work is below. -/

/-- The steering command is 0 in PARKED, LOCKED and PASSIVE (R147 to R151). -/
def State.StillFits (s : State) : Prop :=
  s.stc.state = .parked ∨ s.stc.state = .locked ∨ s.stc.state = .passive → s.stc.command = 0

/-- STC's departure window is BRK's (R130, R131). -/
def State.WindowFits (s : State) : Prop := s.brk.windowOpen = s.stc.windowOpen

/-- STC's form, in RUN or out of it. -/
structure State.SteeringAt (running : Bool) (s : State) : Prop where
  parked : s.stc.state = .parked ↔ running = false
  schedule : s.stc.schedule.isSome = running
  values : ∀ u, s.stc.schedule = some u → u.inRange
  bounds : -150 ≤ s.stc.lower ∧ s.stc.lower ≤ 0 ∧ 0 ≤ s.stc.upper ∧ s.stc.upper ≤ 150
  command : s.stc.lower ≤ s.stc.command ∧ s.stc.command ≤ s.stc.upper
  still : s.StillFits
  lock : (rd s.vda.channels lockChannel).command = bit s.stc.state.lockOn
  bank : running = true → (s.stc.bank s.stc.inUse).valid = true

theorem lockOn_command (st : SteerState) :
    bit st.lockOn = if st = .frozen ∨ st = .tracking ∨ st = .centring then 1 else 0 := by
  rw [bit_eq, SteerState.lockOn]
  simp

theorem steeringFits_iff (s : State) : s.SteeringFits ↔ s.SteeringAt s.inRun := by
  have runs : s.inRun = true ↔ s.cfg.device = .run := decide_eq_true_iff
  have out : s.inRun = false ↔ s.cfg.device ≠ .run := decide_eq_false_iff_not
  constructor
  · intro h
    exact ⟨h.parked.trans out.symm, Bool.eq_iff_iff.mpr (h.schedule.trans runs.symm), h.values, h.bounds, h.command, h.still,
      h.lock.trans (lockOn_command _).symm, fun run => h.bank (runs.mp run)⟩
  · intro h
    exact ⟨h.parked.trans out, (Bool.eq_iff_iff.mp h.schedule).trans runs, h.values, h.bounds, h.command, h.still,
      h.lock.trans (lockOn_command _), fun run => h.bank (runs.mpr run)⟩

/-- The parameter of every entry lies in its range (R25). -/
def State.ParametersFit (s : State) : Prop := ∀ i e, (rd s.ilt.slots i).entry = some e → e.parameterFits

/-- BRK's form, with what bounds H: the parameters of the entries and the door hold pressure. -/
structure State.BrakesSound (s : State) : Prop where
  parameters : s.ParametersFit
  doorHold : s.cfg.settings.doorHold ≤ 500
  fits : s.BrakesFit

/-- What every operation of the blocks keeps. -/
structure Kept (s t : State) : Prop where
  cfg : t.cfg = s.cfg
  banks : t.stc.bankA = s.stc.bankA ∧ t.stc.bankB = s.stc.bankB
  valid : (s.stc.bank s.stc.inUse).valid = true → (t.stc.bank t.stc.inUse).valid = true
  still : s.StillFits → t.StillFits
  window : s.WindowFits → t.WindowFits
  steering : ∀ running, s.SteeringAt running → t.SteeringAt running
  parameters : s.ParametersFit → t.ParametersFit
  brakes : s.BrakesSound → t.BrakesSound

theorem Kept.refl (s : State) : Kept s s := ⟨rfl, ⟨rfl, rfl⟩, id, id, id, fun _ => id, id, id⟩

theorem Kept.trans {s t u : State} (h : Kept s t) (k : Kept t u) : Kept s u where
  cfg := k.cfg.trans h.cfg
  banks := ⟨k.banks.1.trans h.banks.1, k.banks.2.trans h.banks.2⟩
  valid v := k.valid (h.valid v)
  still v := k.still (h.still v)
  window v := k.window (h.window v)
  steering r v := k.steering r (h.steering r v)
  parameters v := k.parameters (h.parameters v)
  brakes v := k.brakes (h.brakes v)

/-! ### The operations that neither STC nor BRK sees -/

/-- The channels that STC and BRK command by their states. -/
def drivenByState (ch : Fin 18) : Prop := ch = lockChannel ∨ ∃ a, ch = brakeChannel a

theorem steeringAt_congr {r : Bool} {s t : State} (h : s.SteeringAt r) (stc : t.stc = s.stc)
    (lock : (rd t.vda.channels lockChannel).command = (rd s.vda.channels lockChannel).command) : t.SteeringAt r := by
  obtain ⟨parked, schedule, values, bounds, command, still, locked, bank⟩ := h
  unfold State.StillFits at still
  rw [← stc] at parked schedule values bounds command still locked bank
  exact ⟨parked, schedule, values, bounds, command, still, lock.trans locked, bank⟩

theorem brakesFit_congr {s t : State} (h : s.BrakesFit) (brk : t.brk = s.brk)
    (channels : ∀ a, (rd t.vda.channels (brakeChannel a)).command = (rd s.vda.channels (brakeChannel a)).command) : t.BrakesFit := by
  obtain ⟨command, demand, target, floor, confirmed, released⟩ := h
  rw [← brk] at command demand target floor confirmed released
  exact ⟨fun a => (channels a).trans (command a), demand, target, floor, confirmed, released⟩

theorem kept_beside {s t : State} (cfg : t.cfg = s.cfg) (brk : t.brk = s.brk) (stc : t.stc = s.stc)
    (channels : ∀ ch, drivenByState ch → (rd t.vda.channels ch).command = (rd s.vda.channels ch).command)
    (parameters : s.ParametersFit → t.ParametersFit) : Kept s t where
  cfg := cfg
  banks := by rw [stc]; exact ⟨rfl, rfl⟩
  valid v := by rw [stc]; exact v
  still v := by unfold State.StillFits; rw [stc]; exact v
  window v := by unfold State.WindowFits; rw [stc, brk]; exact v
  steering r v := steeringAt_congr v stc (channels _ (.inl rfl))
  parameters := parameters
  brakes v := ⟨parameters v.parameters, cfg ▸ v.doorHold, brakesFit_congr v.fits brk fun a => channels _ (.inr ⟨a, rfl⟩)⟩

theorem parametersFit_congr {s t : State} (ilt : t.ilt = s.ilt) (h : s.ParametersFit) : t.ParametersFit := by
  unfold State.ParametersFit
  rw [ilt]
  exact h

/-- An operation that leaves the table, the settings, STC, BRK and the channels. -/
theorem kept_of_same {s t : State} (cfg : t.cfg = s.cfg) (ilt : t.ilt = s.ilt) (brk : t.brk = s.brk) (stc : t.stc = s.stc)
    (vda : t.vda = s.vda) : Kept s t :=
  kept_beside cfg brk stc (fun ch _ => by rw [vda]) (parametersFit_congr ilt)

section
variable {a s : State}

theorem kp_lnk (f : Lnk → Lnk) (h : Kept a s) : Kept a (s.modLnk f) := h.trans (kept_of_same rfl rfl rfl rfl rfl)
theorem kp_mot (f : Mot → Mot) (h : Kept a s) : Kept a (s.modMot f) := h.trans (kept_of_same rfl rfl rfl rfl rfl)
theorem kp_dsv (f : Dsv → Dsv) (h : Kept a s) : Kept a (s.modDsv f) := h.trans (kept_of_same rfl rfl rfl rfl rfl)
theorem kp_crn (f : Crn → Crn) (h : Kept a s) : Kept a (s.modCrn f) := h.trans (kept_of_same rfl rfl rfl rfl rfl)
theorem kp_rlu (f : Rlu → Rlu) (h : Kept a s) : Kept a (s.modRlu f) := h.trans (kept_of_same rfl rfl rfl rfl rfl)
theorem kp_clock (now fresh : Nat) (h : Kept a s) : Kept a { s with now := now, fresh := fresh } :=
  h.trans (kept_of_same rfl rfl rfl rfl rfl)
theorem kp_advance (n : Nat) (h : Kept a s) : Kept a (s.advanceTo n) := kp_clock _ _ h
theorem kp_post (n : Notice) (h : Kept a s) : Kept a (s.post n) := kp_lnk _ h

theorem kp_command (ch : Fin 18) (v : Nat) (free : ¬ drivenByState ch) (h : Kept a s) : Kept a (s.command ch v) := by
  refine h.trans (kept_beside rfl rfl rfl (fun d driven => ?_) (parametersFit_congr rfl))
  have other : ch ≠ d := by
    rintro rfl
    exact free driven
  rw [rd_command, if_neg other]

theorem kp_ite {p : Prop} [Decidable p] {t u : State} (h : p → Kept a t) (k : ¬ p → Kept a u) : Kept a (if p then t else u) := by
  split
  · exact h ‹_›
  · exact k ‹_›

theorem kp_foldl {α : Type} (l : List α) (f : State → α → State) (hf : ∀ s x, Kept a s → Kept a (f s x))
    (h : Kept a s) : Kept a (l.foldl f s) := by
  induction l generalizing s with
  | nil => exact h
  | cons x l ih => exact ih (hf s x h)

theorem kp_vda (f : Vda → Vda)
    (same : ∀ ch, drivenByState ch → (rd (f s.vda).channels ch).command = (rd s.vda.channels ch).command)
    (h : Kept a s) : Kept a (s.modVda f) := h.trans (kept_beside rfl rfl rfl same (parametersFit_congr rfl))

/-! ### The table -/

theorem kp_touch (f : Fin 24 → Entry → Entry)
    (hf : ∀ i (e : Entry), (rd s.ilt.slots i).entry = some e → e.SameIdentity (f i e)) (h : Kept a s) : Kept a (s.touch f) := by
  refine h.trans (kept_beside (State.touch_cfg _ _) (State.touch_brk _ _) (State.touch_stc _ _) (fun ch _ => ?_) fun fits i e there => ?_)
  · rw [State.touch_vda]
  · rw [rd_touch, Option.map_eq_some_iff] at there
    obtain ⟨x, hx, rfl⟩ := there
    exact (hf i x hx).parameter (fits i x hx)

theorem kp_drop (handle : Nat) (h : Kept a s) : Kept a (s.dropEntry handle) := by
  unfold State.dropEntry
  split
  case isFalse => exact h
  case isTrue =>
    refine kp_ite (fun _ => ?_) (fun _ => h)
    refine h.trans (kept_beside rfl rfl rfl (fun ch _ => rfl) fun fits i e there => fits i e ?_)
    rw [State.modIlt_ilt, rd_upd] at there
    split at there
    case isTrue => exact nomatch there
    case isFalse => exact there

theorem kp_place (slot : Fin 24) (e : Nat → Entry) (fit : ∀ h, (e h).parameterFits) (h : Kept a s) :
    Kept a (s.placeEntry slot e) := by
  refine h.trans (kept_beside rfl rfl rfl (fun ch _ => rfl) fun fits i x there => ?_)
  rw [State.placeEntry, State.modIlt_ilt, rd_upd] at there
  split at there
  case isTrue =>
    obtain rfl := Option.some.inj there
    exact fit _
  case isFalse => exact fits i x there

end

end Sys2Proof.Machine
end

