-- ==== Sys2Proof/Proofs/BrakeForm.lean ====
section
/-! PROOF. BRK keeps its form (R119 to R131) -/

namespace Sys2Proof.Machine

/-! ## BRK keeps its form (R119 to R131) -/

/-- BRK's form without the commands to VDA. -/
structure Brk.Fits (b : Brk) : Prop where
  demand : ∀ a, (rd b.axles a).demand ≤ 850
  target : b.target ≤ 500
  floor : b.hold ≠ .released → ∀ a, a ≠ 0 → b.target ≤ (rd b.axles a).demand
  confirmed : (b.hold = .held → b.confirmed = true) ∧ (b.confirmed = true → b.hold = .held ∨ b.hold = .waitDrive)
  released : b.hold = .released → b.target = 0

/-- PB1 to PB3 are commanded at the demands (R119). -/
def State.DemandsHanded (s : State) : Prop := ∀ a, (rd s.vda.channels (brakeChannel a)).command = (rd s.brk.axles a).demand

theorem brakesFit_iff (s : State) : s.BrakesFit ↔ s.DemandsHanded ∧ s.brk.Fits :=
  ⟨fun ⟨command, demand, target, floor, confirmed, released⟩ => ⟨command, demand, target, floor, confirmed, released⟩,
    fun ⟨command, demand, target, floor, confirmed, released⟩ => ⟨command, demand, target, floor, confirmed, released⟩⟩

theorem State.BrakesSound.brk {s : State} (h : s.BrakesSound) : s.brk.Fits := ((brakesFit_iff s).mp h.fits).2
theorem State.BrakesSound.handed {s : State} (h : s.BrakesSound) : s.DemandsHanded := ((brakesFit_iff s).mp h.fits).1

/-- The pressure of a contributor is at most 500 kPa (R121). -/
theorem pressure_le {e : Entry} {m : MotionState} {d : Nat} (fits : e.parameterFits) (holds : e.HoldsIn m) (low : d ≤ 500) :
    e.pressure d ≤ 500 := by
  obtain ⟨k | k | k | k, -⟩ := holds
  · simpa [Entry.pressure, k] using low
  · simpa [Entry.pressure, k] using low
  · unfold Entry.parameterFits at fits
    rw [k] at fits
    obtain ⟨p, is, -, high⟩ := fits
    simpa [Entry.pressure, k, is] using high
  · simp [Entry.pressure, k]

theorem contributorMax_le {s : State} (h : s.BrakesSound) {m : Nat} (is : s.contributorMax = some m) : m ≤ 500 := by
  obtain ⟨-, e, there, holds, rfl⟩ := State.contributorMax_some is
  obtain ⟨i, -, slot⟩ := List.mem_filterMap.mp there
  exact pressure_le (h.parameters i e slot) holds h.doorHold

/-- BRK with the window moved. -/
theorem brkFits_window {b : Brk} (h : b.Fits) (w : Bool) : Brk.Fits { b with windowOpen := w } :=
  ⟨h.demand, h.target, h.floor, h.confirmed, h.released⟩

theorem raised_demand {t : Nat} {a : Fin 3} {x : AxleBrake} : (x.raised t a).demand = if a = 0 then x.demand else max x.demand t := rfl

/-- BRK that has raised its demands to H. -/
theorem brkFits_raised {b : Brk} (demand : ∀ a, (rd b.axles a).demand ≤ 850) (target : b.target ≤ 500)
    (confirmed : (b.hold = .held → b.confirmed = true) ∧ (b.confirmed = true → b.hold = .held ∨ b.hold = .waitDrive))
    (released : b.hold = .released → b.target = 0) :
    Brk.Fits { b with axles := mapF b.axles (AxleBrake.raised b.target) } where
  demand a := by
    have low := demand a
    simp only [rd_mapF, raised_demand]
    split <;> omega
  target := target
  floor _ a other := by
    simp only [rd_mapF, raised_demand, if_neg other]
    omega
  confirmed := confirmed
  released := released

/-! ### What BRK's operations leave of the rest -/

/-- From the first state to the second BRK, its channels and at most STC's window have moved. -/
structure BrakesMoved (s t : State) : Prop where
  cfg : t.cfg = s.cfg
  ilt : t.ilt = s.ilt
  stc : ∃ w, t.stc = { s.stc with windowOpen := w }
  lock : t.lockCommand = s.lockCommand
  window : s.WindowFits → t.WindowFits

theorem BrakesMoved.kept {s t : State} (h : BrakesMoved s t) (fits : s.BrakesSound → t.DemandsHanded ∧ t.brk.Fits) : Kept s t := by
  obtain ⟨cfg, ilt, ⟨w, stc⟩, lock, window⟩ := h
  refine ⟨cfg, by rw [stc]; exact ⟨rfl, rfl⟩, fun valid => by rw [stc]; exact valid, fun still => ?_, window, fun r at' => ?_,
    parametersFit_congr ilt, fun sound => ⟨parametersFit_congr ilt sound.parameters, cfg ▸ sound.doorHold, (brakesFit_iff t).mpr (fits sound)⟩⟩
  · unfold State.StillFits
    rw [stc]
    exact still
  · obtain ⟨parked, schedule, values, bounds, command, still, locked, bank⟩ := at'
    constructor
    case still => unfold State.StillFits; rw [stc]; exact still
    case lock => exact lock.trans (by rw [stc]; exact locked)
    all_goals rw [stc]
    · exact parked
    · exact schedule
    · exact values
    · exact bounds
    · exact command
    · exact bank

theorem BrakesMoved.post {s t : State} (h : BrakesMoved s t) (n : Notice) : BrakesMoved s (t.post n) :=
  ⟨h.cfg, h.ilt, h.stc, h.lock, h.window⟩

/-- A change of BRK that leaves the window. -/
theorem modBrk_moved (f : Brk → Brk) (s : State) (window : (f s.brk).windowOpen = s.brk.windowOpen) : BrakesMoved s (s.modBrk f) :=
  ⟨rfl, rfl, ⟨_, rfl⟩, rfl, fun same => window.trans same⟩

section
variable {a s : State}

/-- A change of BRK beside the hold, H, the confirmation, the window and the demands. -/
theorem kp_brk (f : Brk → Brk) (hold : (f s.brk).hold = s.brk.hold) (target : (f s.brk).target = s.brk.target)
    (confirmed : (f s.brk).confirmed = s.brk.confirmed) (window : (f s.brk).windowOpen = s.brk.windowOpen)
    (axles : (f s.brk).axles = s.brk.axles) (h : Kept a s) : Kept a (s.modBrk f) := by
  refine h.trans ((modBrk_moved f s window).kept fun sound => ?_)
  obtain ⟨demand, low, floor, shown, released⟩ := sound.brk
  rw [← axles] at demand floor
  rw [← hold] at floor shown released
  rw [← target] at low floor released
  rw [← confirmed] at shown
  refine ⟨fun i => ?_, demand, low, floor, shown, released⟩
  rw [State.modBrk_brk, axles]
  exact sound.handed i

theorem setWindow_moved (b : Bool) (s : State) : BrakesMoved s (Brk.setWindow b s) := ⟨rfl, rfl, ⟨b, rfl⟩, rfl, fun _ => rfl⟩

theorem kp_setWindow (b : Bool) (h : Kept a s) : Kept a (Brk.setWindow b s) :=
  h.trans ((setWindow_moved b s).kept fun sound => ⟨sound.handed, brkFits_window sound.brk b⟩)

theorem raiseFloor_lock (s : State) : (Brk.raiseFloor s).lockCommand = s.lockCommand := brkCommand_lockCommand _

theorem enterApplying_moved (m : Nat) (s : State) : BrakesMoved s (Brk.enterApplying m s) := by
  obtain ⟨stc, -, ilt, cfg, -⟩ := enterApplying_beside m s
  refine ⟨cfg, ilt, ⟨false, stc⟩, raiseFloor_lock _, fun _ => ?_⟩
  unfold State.WindowFits
  rw [enterApplying_brk, stc]

theorem kp_enterApplying (m : Nat) (low : s.BrakesSound → m ≤ 500) (h : Kept a s) : Kept a (Brk.enterApplying m s) := by
  refine h.trans ((enterApplying_moved m s).kept fun sound => ⟨enterApplying_command m s, ?_⟩)
  rw [enterApplying_brk]
  refine brkFits_raised (b := { s.brk with
    hold := .applying, target := m, confirmed := false, confirmTimer := 0, unconfirmed := 0, unconfirmedPosted := false,
    doorSeen := s.live.any Entry.partnerDoor, windowOpen := false }) sound.brk.demand (low sound) ⟨?_, ?_⟩ ?_
  all_goals exact fun no => nomatch no

/-- A change of the hold that leaves H and the demands, from one that is not RELEASED. -/
theorem brkFits_turned {x y : Brk} (h : x.Fits) (axles : y.axles = x.axles) (target : y.target = x.target) (from' : x.hold ≠ .released)
    (into : y.hold ≠ .released) (held : y.hold = .held → y.confirmed = true)
    (confirmed : y.confirmed = true → y.hold = .held ∨ y.hold = .waitDrive) : y.Fits where
  demand := by rw [axles]; exact h.demand
  target := by rw [target]; exact h.target
  floor _ := by rw [axles, target]; exact h.floor from'
  confirmed := ⟨held, confirmed⟩
  released is := absurd is into

theorem kp_enterHeld (from' : s.brk.hold ≠ .released) (h : Kept a s) : Kept a (Brk.enterHeld s) :=
  h.trans ((modBrk_moved _ s rfl).kept fun sound => ⟨sound.handed,
    brkFits_turned sound.brk rfl rfl from' (fun no => (nomatch no)) (fun _ => rfl) fun _ => .inl rfl⟩)

theorem enterRamping_moved (s : State) : BrakesMoved s (Brk.enterRamping s) := by
  unfold Brk.enterRamping
  dsimp only
  split
  · exact ⟨rfl, rfl, ⟨true, rfl⟩, rfl, fun _ => rfl⟩
  · exact modBrk_moved _ s rfl

theorem enterRamping_confirmed (s : State) : (Brk.enterRamping s).brk.confirmed = false
    ∧ (Brk.enterRamping s).brk.target = s.brk.target := by
  unfold Brk.enterRamping
  dsimp only
  split <;> exact ⟨rfl, rfl⟩

theorem kp_enterRamping (from' : s.brk.hold ≠ .released) (h : Kept a s) : Kept a (Brk.enterRamping s) := by
  refine h.trans ((enterRamping_moved s).kept fun sound => ?_)
  obtain ⟨-, axles, vda, -⟩ := enterRamping_ramps s
  obtain ⟨unconfirmed, target⟩ := enterRamping_confirmed s
  have hold := brk_enterRamping_hold s
  refine ⟨fun i => by rw [vda, axles]; exact sound.handed i, brkFits_turned sound.brk axles target from' ?_ ?_ ?_⟩
  · rw [hold]; exact fun no => nomatch no
  · rw [hold]; exact fun no => nomatch no
  · rw [unconfirmed]; exact fun no => nomatch no

theorem kp_leaveWait (h : Kept a s) : Kept a (Brk.leaveWait s) :=
  kp_ite (fun leaves => kp_enterRamping (by rw [leaves.1]; exact fun no => nomatch no) h) fun _ => h

theorem kp_enterWait (from' : s.brk.hold ≠ .released) (h : Kept a s) : Kept a (Brk.enterWait s) :=
  kp_leaveWait (h.trans ((modBrk_moved _ s rfl).kept fun sound => ⟨sound.handed,
    brkFits_turned sound.brk rfl rfl from' (fun no => (nomatch no)) (fun no => (nomatch no)) fun _ => .inr rfl⟩))

theorem kp_reapply (m : Nat) (low : s.BrakesSound → m ≤ 500) (h : Kept a s) : Kept a (Brk.reapply m s) :=
  kp_ite (fun _ => kp_enterHeld (by rw [brk_enterApplying_hold]; exact fun no => nomatch no) (kp_enterApplying m low h))
    fun _ => kp_enterApplying m low h

theorem raised_moved (f : Brk → Brk) (s : State) (window : (f s.brk).windowOpen = s.brk.windowOpen) :
    BrakesMoved s (Brk.raiseFloor (s.modBrk f)) := by
  obtain ⟨cfg, -, ilt, -, stc, -⟩ := raiseFloor_only (s.modBrk f)
  refine ⟨cfg, ilt, ⟨s.stc.windowOpen, stc⟩, raiseFloor_lock _, fun same => ?_⟩
  unfold State.WindowFits
  rw [raiseFloor_brk, stc]
  exact window.trans same

theorem kp_moveTarget (m : Nat) (low : s.BrakesSound → m ≤ 500) (from' : s.brk.hold ≠ .released) (h : Kept a s) :
    Kept a (Brk.moveTarget m s) := by
  unfold Brk.moveTarget
  refine kp_ite (fun _ => h) fun _ => kp_ite (fun _ => ?_) fun less => ?_
  · refine h.trans ((raised_moved _ s rfl).kept fun sound => ⟨raiseFloor_command _, ?_⟩)
    rw [raiseFloor_brk]
    exact brkFits_raised sound.brk.demand (low sound) sound.brk.confirmed fun is => absurd is from'
  · refine h.trans ((modBrk_moved _ s rfl).kept fun sound => ⟨sound.handed, sound.brk.demand, low sound, fun held a other => ?_,
      sound.brk.confirmed, fun is => absurd is from'⟩)
    exact (Nat.le_of_not_lt less).trans (sound.brk.floor held a other)

theorem kp_brkJudge (h : Kept a s) : Kept a (Brk.judge s) := by
  by_cases run : s.inRun = true
  case neg => rw [brkJudge_out run]; exact h
  case pos =>
    cases max : s.contributorMax with
    | none =>
      rw [brkJudge_none run max]
      cases hold : s.brk.hold with
      | released => exact h
      | applying => exact kp_enterWait (by rw [hold]; exact fun no => nomatch no) h
      | held => exact kp_enterWait (by rw [hold]; exact fun no => nomatch no) h
      | waitDrive => exact kp_leaveWait h
      | ramping => exact h
    | some m =>
      have low : s.BrakesSound → m ≤ 500 := fun sound => contributorMax_le sound max
      rw [brkJudge_some run max]
      cases hold : s.brk.hold with
      | released => exact kp_enterApplying m low h
      | applying => exact kp_moveTarget m low (by rw [hold]; exact fun no => nomatch no) h
      | held => exact kp_moveTarget m low (by rw [hold]; exact fun no => nomatch no) h
      | waitDrive => exact kp_reapply m low h
      | ramping => exact kp_reapply m low h

theorem kp_markDoor (e : Entry) (h : Kept a s) : Kept a (Brk.markDoor e s) := kp_ite (fun _ => kp_brk _ rfl rfl rfl rfl rfl h) fun _ => h

/-! ### The brake update -/

theorem kp_reportTimeout (h : Kept a s) : Kept a (Brk.reportTimeout s) := kp_post _ (kp_brk _ rfl rfl rfl rfl rfl h)

theorem kp_watchUnconfirmed (h : Kept a s) : Kept a (Brk.watchUnconfirmed s) :=
  kp_ite (fun _ => h) fun _ => kp_ite (fun _ => kp_reportTimeout h) fun _ => kp_brk _ rfl rfl rfl rfl rfl h

theorem kp_judgeApplying (hold : s.brk.hold = .applying) (h : Kept a s) : Kept a (Brk.judgeApplying s) := by
  have timed := kp_brk (fun b => { b with confirmTimer := if s.holdBuilt then grow 10 100 s.brk.confirmTimer else 0 }) rfl rfl rfl rfl rfl h
  exact kp_ite (fun _ => kp_enterHeld (by rw [State.modBrk_brk, hold]; exact fun no => nomatch no) timed) fun _ => kp_watchUnconfirmed timed

theorem lostTarget_le (sound : s.BrakesSound) : s.lostTarget ≤ 500 := by
  rw [State.lostTarget]
  cases max : s.contributorMax with
  | none => exact sound.brk.target
  | some m => exact contributorMax_le sound max

theorem kp_brkLose (h : Kept a s) : Kept a (Brk.lose s) := kp_post _ (kp_enterApplying s.lostTarget lostTarget_le h)

theorem kp_judgeHeld (h : Kept a s) : Kept a (Brk.judgeHeld s) := by
  have timed := kp_brk (fun b => { b with lossTimer := if s.holdFallen then grow 10 100 s.brk.lossTimer else 0 }) rfl rfl rfl rfl rfl h
  exact kp_ite (fun _ => kp_brkLose timed) fun _ => timed

theorem kp_judgeHold (h : Kept a s) : Kept a (Brk.judgeHold s) := by
  unfold Brk.judgeHold
  cases hold : s.brk.hold with
  | applying => exact kp_judgeApplying hold h
  | held => exact kp_judgeHeld h
  | released => exact h
  | waitDrive => exact h
  | ramping => exact h

theorem kp_judgeWindow (h : Kept a s) : Kept a (Brk.judgeWindow s) := kp_ite (fun _ => kp_setWindow _ h) fun _ => h

theorem demandNow_le (s : State) (i : Fin 3) (low : s.rampedTarget ≤ 500) : s.demandNow i ≤ 850 := by
  unfold State.demandNow flooredDemand axleDemand
  split <;> omega

theorem demandNow_floor (s : State) {i : Fin 3} (held : s.rampedHold ≠ .released) (other : i ≠ 0) : s.rampedTarget ≤ s.demandNow i := by
  unfold State.demandNow flooredDemand
  rw [if_pos ⟨decide_eq_true held, other⟩]
  exact le_max_right _ _

/-- The ramp's step keeps H's bound and what goes with the hold (R128). -/
theorem ramped_fits (h : s.brk.Fits) : s.rampedTarget ≤ 500
    ∧ ((s.rampedHold = .held → s.rampedConfirmed = true) ∧ (s.rampedConfirmed = true → s.rampedHold = .held ∨ s.rampedHold = .waitDrive))
    ∧ (s.rampedHold = .released → s.rampedTarget = 0) := by
  have low := h.target
  by_cases ramps : s.inRun = true ∧ s.brk.hold = .ramping
  · obtain ⟨run, hold⟩ := ramps
    by_cases ends : s.brk.target ≤ 6
    · obtain ⟨turned, zero, unconfirmed⟩ := ramped_ends run hold ends
      rw [turned, zero, unconfirmed]
      exact ⟨Nat.zero_le _, ⟨fun no => (nomatch no), fun no => (nomatch no)⟩, fun _ => rfl⟩
    · obtain ⟨stays, less⟩ := ramped_steps run hold (by omega)
      have unconfirmed : s.rampedConfirmed = s.brk.confirmed := if_neg fun all => ends all.2.2
      rw [stays, less, unconfirmed]
      refine ⟨by omega, ⟨fun no => (nomatch no), fun is => ?_⟩, fun no => (nomatch no)⟩
      have only := h.confirmed.2 is
      rwa [hold] at only
  · obtain ⟨hold, target, confirmed⟩ := ramped_unramping ramps
    rw [hold, target, confirmed]
    exact ⟨low, h.confirmed, h.released⟩

theorem brakesFormed_moved (s : State) : BrakesMoved s s.brakesFormed := by
  obtain ⟨cfg, -, ilt, -, stc⟩ := brakesFormed_only s
  refine ⟨cfg, ilt, ⟨s.stc.windowOpen, stc⟩, ?_, fun same => ?_⟩
  · exact (brkCommand_lockCommand _).trans (by unfold Brk.formDemands Brk.ramp; split <;> rfl)
  · unfold State.WindowFits
    rw [brakesFormed_brk, stc]
    exact same

theorem kp_brakesFormed (h : Kept a s) : Kept a s.brakesFormed := by
  refine h.trans ((brakesFormed_moved s).kept fun sound => ⟨fun i => ?_, ?_⟩)
  · rw [brakesFormed_command, brakesFormed_axle]
    rfl
  · obtain ⟨low, confirmed, released⟩ := ramped_fits sound.brk
    rw [brakesFormed_brk]
    refine ⟨fun i => ?_, low, fun held i other => ?_, confirmed, released⟩
    · simp only [rd_mapF]
      exact demandNow_le s i low
    · simp only [rd_mapF]
      exact demandNow_floor s held other

theorem kp_brakesMove (h : Kept a s) : Kept a (brakesMove s) := by
  rw [brakesMove_eq]
  exact kp_ite (fun _ => kp_judgeWindow (kp_judgeHold (kp_brakesFormed h))) fun _ => kp_brakesFormed h

end

end Sys2Proof.Machine
end

