-- ==== Sys2Proof/Proofs/SteeringReposed.lean ====
section
/-! PROOF. STC keeps its form (R141 to R151) -/

namespace Sys2Proof.Machine

/-! ## STC keeps its form (R141 to R151) -/

/-- STC has moved at most its state, not into or out of PARKED, and with it the command to 0, beside what has no part in its form. -/
structure Stc.Reposed (x y : Stc) : Prop where
  parked : y.state = .parked ↔ x.state = .parked
  command : y.command = x.command ∨ y.command = 0
  still : (x.state = .parked ∨ x.state = .locked ∨ x.state = .passive → x.command = 0) →
    (y.state = .parked ∨ y.state = .locked ∨ y.state = .passive → y.command = 0)
  limits : y.lower = x.lower ∧ y.upper = x.upper
  schedule : y.schedule = x.schedule
  banks : y.bankA = x.bankA ∧ y.bankB = x.bankB
  valid : (x.bank x.inUse).valid = true → (y.bank y.inUse).valid = true
  window : y.windowOpen = x.windowOpen

/-- STC with the same state, command, limits, schedule, banks and window. -/
theorem reposed_of_same {x y : Stc} (state : y.state = x.state) (command : y.command = x.command)
    (limits : y.lower = x.lower ∧ y.upper = x.upper) (schedule : y.schedule = x.schedule)
    (banks : y.bankA = x.bankA ∧ y.bankB = x.bankB) (inUse : y.inUse = x.inUse) (window : y.windowOpen = x.windowOpen) : x.Reposed y where
  parked := by rw [state]
  command := .inl command
  still := by rw [state, command]; exact id
  limits := limits
  schedule := schedule
  banks := banks
  valid := by
    have bank : y.bank y.inUse = x.bank x.inUse := by
      rw [inUse]
      unfold Stc.bank
      rw [banks.1, banks.2]
    rw [bank]
    exact id
  window := window

theorem kept_steering {s t : State} (cfg : t.cfg = s.cfg) (ilt : t.ilt = s.ilt) (brk : t.brk = s.brk)
    (channels : ∀ a, (rd t.vda.channels (brakeChannel a)).command = (rd s.vda.channels (brakeChannel a)).command)
    (moved : s.stc.Reposed t.stc) (lock : s.lockCommand = bit s.stc.state.lockOn → t.lockCommand = bit t.stc.state.lockOn) : Kept s t where
  cfg := cfg
  banks := moved.banks
  valid := moved.valid
  still := moved.still
  window same := (congrArg Brk.windowOpen brk).trans (same.trans moved.window.symm)
  steering r := by
    rintro ⟨parked, schedule, values, bounds, command, still, locked, bank⟩
    obtain ⟨lower, upper⟩ := moved.limits
    refine ⟨moved.parked.trans parked, by rw [moved.schedule]; exact schedule, by rw [moved.schedule]; exact values,
      by rw [lower, upper]; exact bounds, ?_, moved.still still, lock locked, fun run => moved.valid (bank run)⟩
    rw [lower, upper]
    rcases moved.command with same | zero
    · rw [same]; exact command
    · rw [zero]; exact ⟨bounds.2.1, bounds.2.2.1⟩
  parameters := parametersFit_congr ilt
  brakes sound := ⟨parametersFit_congr ilt sound.parameters, cfg ▸ sound.doorHold, brakesFit_congr sound.fits brk channels⟩

theorem commandLock_brake (s : State) (a : Fin 3) : (rd (Stc.commandLock s).vda.channels (brakeChannel a)).command
    = (rd s.vda.channels (brakeChannel a)).command := by
  have other : ∀ a : Fin 3, lockChannel ≠ brakeChannel a := by decide
  rw [Stc.commandLock, rd_command, if_neg (other a)]

/-- The channels of the corners, of the supply and of the damper are not driven by a state of STC or BRK. -/
theorem low_undriven {ch : Fin 18} (low : ch.val ≤ 12) : ¬ drivenByState ch := by
  have others : ∀ ch : Fin 18, ch.val ≤ 12 → ¬ (ch = lockChannel ∨ ∃ a, ch = brakeChannel a) := by decide
  exact others ch low

theorem damper_undriven : ¬ drivenByState damperChannel := by
  unfold drivenByState
  decide

section
variable {a s : State}

theorem kp_stc (f : Stc → Stc) (moved : s.stc.Reposed (f s.stc)) (on : (f s.stc).state.lockOn = s.stc.state.lockOn) (h : Kept a s) :
    Kept a (s.modStc f) :=
  h.trans (kept_steering rfl rfl rfl (fun _ => rfl) moved fun lock => lock.trans (congrArg bit on.symm))

/-- A change of STC beside its form. -/
theorem kp_stcBeside (f : Stc → Stc) (state : (f s.stc).state = s.stc.state) (command : (f s.stc).command = s.stc.command)
    (limits : (f s.stc).lower = s.stc.lower ∧ (f s.stc).upper = s.stc.upper) (schedule : (f s.stc).schedule = s.stc.schedule)
    (banks : (f s.stc).bankA = s.stc.bankA ∧ (f s.stc).bankB = s.stc.bankB) (inUse : (f s.stc).inUse = s.stc.inUse)
    (window : (f s.stc).windowOpen = s.stc.windowOpen) (h : Kept a s) : Kept a (s.modStc f) :=
  kp_stc f (reposed_of_same state command limits schedule banks inUse window) (by rw [state]) h

/-- A change of STC's state, and CL1 handed to VDA. -/
theorem kp_repose (f : Stc → Stc) (moved : s.stc.Reposed (f s.stc)) (h : Kept a s) : Kept a (Stc.commandLock (s.modStc f)) :=
  h.trans (kept_steering rfl rfl rfl (fun i => commandLock_brake _ i) moved fun _ => commandLock_lockCommand _)

theorem kp_commandLock (h : Kept a s) : Kept a (Stc.commandLock s) :=
  h.trans (kept_steering rfl rfl rfl (fun i => commandLock_brake _ i) (reposed_of_same rfl rfl ⟨rfl, rfl⟩ rfl ⟨rfl, rfl⟩ rfl rfl)
    fun _ => commandLock_lockCommand _)

/-! ### Entries, hand-offs and the latch -/

theorem kp_settle (h : Kept a s) : Kept a (Crn.settle s) := by
  refine h.trans (kept_beside (settle_cfg s) (settle_brk s) (settle_stc s) (fun ch driven => ?_) (parametersFit_congr (settle_ilt s)))
  exact commandCorners_other _ ch (by
    by_contra low
    exact low_undriven (by omega) driven)

theorem kp_change (f : Fin 6 → Corner → Corner) (h : Kept a s) : Kept a (Crn.change f s) := kp_settle (kp_crn _ h)
theorem kp_changeOne (c : Fin 6) (f : Corner → Corner) (h : Kept a s) : Kept a (Crn.changeOne c f s) := kp_settle (kp_crn _ h)
theorem kp_deriveKneel (h : Kept a s) : Kept a (Rlu.deriveKneel s) := kp_rlu _ h
theorem kp_judgeCurbLow (h : Kept a s) : Kept a (Rlu.judgeCurbLow s) := kp_rlu _ h
theorem kp_takeOffsets (ride : Nat) (kneel : Vector Nat 6) (h : Kept a s) : Kept a (Rlu.takeOffsets ride kneel s) :=
  kp_deriveKneel (kp_judgeCurbLow (kp_change _ (kp_rlu _ h)))
theorem kp_rluFromTable (h : Kept a s) : Kept a (Rlu.fromTable s) :=
  kp_ite (fun _ => kp_rlu _ h) fun _ => kp_takeOffsets _ _ (kp_rlu _ h)

theorem kp_startCentring (h : Kept a s) : Kept a (Stc.startCentring s) := by
  refine kp_ite (fun centres => kp_repose _ ?_ h) fun _ => h
  have moving : s.stc.state ≠ .parked := by
    rcases centres.1 with is | is <;> rw [is] <;> exact fun no => nomatch no
  exact ⟨⟨fun no => (nomatch no), fun is => absurd is moving⟩, .inl rfl, fun _ => by rintro (no | no | no) <;> exact (nomatch no),
    ⟨rfl, rfl⟩, rfl, ⟨rfl, rfl⟩, id, rfl⟩

theorem kp_when {p : Prop} [Decidable p] (f : State → State) (hf : ∀ u, Kept a u → Kept a (f u)) (h : Kept a s) :
    Kept a (if p then f s else s) := kp_ite (fun _ => hf s h) fun _ => h

theorem kp_handOff (v : EntryEvent) (e : Entry) (h : Kept a s) : Kept a (handOff v e s) := by
  unfold handOff
  exact kp_when Stc.startCentring (fun _ => kp_startCentring) (kp_when Crn.fromTable (fun _ => kp_change _)
    (kp_when Rlu.fromTable (fun _ => kp_rluFromTable) (kp_when Brk.judge (fun _ => kp_brkJudge)
      (kp_when (Brk.markDoor e) (fun _ => kp_markDoor e) h))))

theorem kp_updResolved (handle : Nat) (f : Entry → Entry) (hf : ∀ e, s.resolve handle = some e → e.SameIdentity (f e)) (h : Kept a s) :
    Kept a (s.updEntry handle f) := by
  rw [State.updEntry_eq_touch]
  refine kp_touch _ (fun i e he => ?_) h
  split
  case isTrue here => exact hf e (State.resolve_of_slot here.1 here.2 he)
  case isFalse => exact .refl e

theorem kp_updEntry (handle : Nat) (f : Entry → Entry) (hf : ∀ e : Entry, e.SameIdentity (f e)) (h : Kept a s) :
    Kept a (s.updEntry handle f) := kp_updResolved handle f (fun e _ => hf e) h

theorem kp_openSelf (k : Kind) (scope : Scope) (parameter : Option Nat) (fits : selfParameterFits k parameter) (h : Kept a s) :
    Kept a (openSelf k scope parameter s).1 := by
  unfold openSelf
  split
  case isFalse => exact h
  case isTrue =>
    split
    · exact h
    · split
      · exact h
      · exact kp_handOff _ _ (kp_place _ _ (fun _ => fits) h)

theorem kp_stcAskEntry (h : Kept a s) : Kept a (Stc.askEntry s) :=
  kp_ite (fun _ => kp_stcBeside _ rfl rfl ⟨rfl, rfl⟩ rfl ⟨rfl, rfl⟩ rfl rfl (kp_openSelf _ _ _ rfl h)) fun _ => h

theorem kp_latch (c : Option LatchCause) (h : Kept a s) : Kept a (s.modStc fun x => { x with latch := c }) :=
  kp_stcBeside _ rfl rfl ⟨rfl, rfl⟩ rfl ⟨rfl, rfl⟩ rfl rfl h

theorem kp_setLatch (c : LatchCause) (h : Kept a s) : Kept a (Stc.setLatch c s) :=
  kp_ite (fun _ => h) fun _ => kp_post _ (kp_stcAskEntry (kp_latch _ h))

theorem kp_judgeLock (h : Kept a s) : Kept a (Stc.judgeLock s) := kp_ite (fun _ => kp_setLatch _ h) fun _ => h

/-- STC in FROZEN or TRACKING, from another moving state or from LOCKED. -/
theorem reposed_moving {x y : Stc} (from' : x.state ≠ .parked) (into : y.state = .frozen ∨ y.state = .tracking)
    (command : y.command = x.command ∨ y.command = 0) (limits : y.lower = x.lower ∧ y.upper = x.upper) (schedule : y.schedule = x.schedule)
    (banks : y.bankA = x.bankA ∧ y.bankB = x.bankB) (valid : (x.bank x.inUse).valid = true → (y.bank y.inUse).valid = true)
    (window : y.windowOpen = x.windowOpen) : x.Reposed y where
  parked := ⟨fun is => by rcases into with at' | at' <;> rw [at'] at is <;> exact (nomatch is), fun is => absurd is from'⟩
  command := command
  still _ is := by rcases into with at' | at' <;> rw [at'] at is <;> simp at is
  limits := limits
  schedule := schedule
  banks := banks
  valid := valid
  window := window

/-- STC's record as it enters FROZEN or TRACKING by the motion state. -/
def Stc.toMoving (standing : Bool) (x : Stc) : Stc :=
  if standing then { x with state := .frozen } else { x with state := .tracking, trackTimer := 0 }

theorem toMoving_state (b : Bool) (x : Stc) : (x.toMoving b).state = .frozen ∨ (x.toMoving b).state = .tracking := by
  cases b
  · exact .inr rfl
  · exact .inl rfl

theorem toMoving_form (b : Bool) (x : Stc) : (x.toMoving b).command = x.command
    ∧ ((x.toMoving b).lower = x.lower ∧ (x.toMoving b).upper = x.upper) ∧ (x.toMoving b).schedule = x.schedule
    ∧ ((x.toMoving b).bankA = x.bankA ∧ (x.toMoving b).bankB = x.bankB) ∧ (x.toMoving b).inUse = x.inUse
    ∧ (x.toMoving b).windowOpen = x.windowOpen := by
  cases b <;> exact ⟨rfl, ⟨rfl, rfl⟩, rfl, ⟨rfl, rfl⟩, rfl, rfl⟩

theorem toMoving_valid (b : Bool) (x : Stc) : ((x.toMoving b).bank (x.toMoving b).inUse).valid = (x.bank x.inUse).valid := by
  cases b <;> rfl

theorem enterMoving_eq (s : State) :
    Stc.enterMoving s = Stc.startCentring (Stc.judgeLock (Stc.commandLock (s.modStc (Stc.toMoving s.standing)))) := rfl

theorem kp_enterMoving (from' : s.stc.state ≠ .parked) (h : Kept a s) : Kept a (Stc.enterMoving s) := by
  obtain ⟨command, limits, schedule, banks, -, window⟩ := toMoving_form s.standing s.stc
  rw [enterMoving_eq]
  refine kp_startCentring (kp_judgeLock (kp_repose _ ?_ h))
  exact reposed_moving from' (toMoving_state _ _) (.inl command) limits schedule banks (by rw [toMoving_valid]; exact id) window

theorem kp_zeroCommand (h : Kept a s) : Kept a (s.modStc fun x => { x with command := 0 }) :=
  kp_stc _ ⟨.rfl, .inr rfl, fun _ _ => rfl, ⟨rfl, rfl⟩, rfl, ⟨rfl, rfl⟩, id, rfl⟩ rfl h

theorem kp_leaveLocked (h : Kept a s) : Kept a (Stc.leaveLocked s) :=
  kp_ite (fun leaves => kp_enterMoving (by
    show s.stc.state ≠ .parked
    rw [leaves.1]
    exact fun no => nomatch no) (kp_zeroCommand h)) fun _ => h

end

end Sys2Proof.Machine
end

