-- ==== Sys2Proof/Proofs/TableForm.lean ====
section
/-! PROOF. The table at work and the end of an event keep the forms of STC and BRK -/

namespace Sys2Proof.Machine

/-! ## The table at work, and the end of an event, keep both forms -/

section
variable {a s : State}

theorem kp_changeDoor (d : Fin 4) (f : Door → Door) (h : Kept a s) : Kept a (Dsv.changeDoor d f s) := kp_dsv _ h

theorem kp_dsvAskEntry (d : Fin 4) (h : Kept a s) : Kept a (Dsv.askEntry d s) :=
  kp_ite (fun _ => kp_changeDoor _ _ (kp_openSelf _ _ _ rfl h)) fun _ => h

theorem kp_supervise (d : Fin 4) (h : Kept a s) : Kept a (Dsv.supervise d s) :=
  kp_ite (fun _ => kp_ite (fun _ => kp_post _ (kp_dsvAskEntry d (kp_changeDoor _ _ h))) fun _ => kp_changeDoor _ _ h) fun _ => h

theorem kp_superviseFor (e : Entry) (h : Kept a s) : Kept a (Dsv.superviseFor e s) := by
  unfold Dsv.superviseFor
  split
  · exact kp_ite (fun _ => kp_supervise _ h) fun _ => h
  · exact h

theorem kp_forgetHandle (n : Nat) (h : Kept a s) : Kept a (forgetHandle n s) := by
  have doors := kp_dsv (fun x =>
    { x with doors := mapF x.doors fun _ d => if d.selfHandle = some n then { d with selfHandle := none } else d }) h
  have brk := kp_brk (fun b => if b.selfHandle = some n then { b with selfHandle := none } else b) (by split <;> rfl) (by split <;> rfl)
    (by split <;> rfl) (by split <;> rfl) (by split <;> rfl) doors
  exact kp_stcBeside (fun x => if x.selfHandle = some n then { x with selfHandle := none } else x) (by split <;> rfl) (by split <;> rfl)
    (by split <;> exact ⟨rfl, rfl⟩) (by split <;> rfl) (by split <;> exact ⟨rfl, rfl⟩) (by split <;> rfl) (by split <;> rfl) brk

theorem kp_handOffRetired (e : Entry) (h : Kept a s) : Kept a (handOffRetired e s) := by
  unfold handOffRetired
  exact kp_superviseFor e (kp_when Stc.leaveLocked (fun _ => kp_leaveLocked) (kp_forgetHandle _ (kp_handOff _ e h)))

theorem kp_uncover (target : Nat) (h : Kept a s) : Kept a (uncover target s) := by
  unfold uncover
  split
  · exact kp_ite (fun _ => kp_handOff _ _ (kp_updEntry _ _ (fun e => sameIdentity_of_fields e _ _ _ _) h)) fun _ => h
  · exact h

theorem kp_dropOverride (n : Nat) (r : RetireReason) (h : Kept a s) : Kept a (dropOverride n r s) := kp_post _ (kp_drop _ h)

theorem kp_retireEntry (r : Option RetireReason) (e : Entry) (h : Kept a s) : Kept a (retireEntry r e s) := by
  unfold retireEntry
  refine kp_handOffRetired e ?_
  have posted : Kept a (match r with
      | some r => (s.dropEntry e.handle).post (.partRetired e.handle r)
      | none => s.dropEntry e.handle) := by
    cases r with
    | none => exact kp_drop _ h
    | some r => exact kp_post _ (kp_drop _ h)
  have released : ∀ u, Kept a u → Kept a (match e.coveredBy with
      | some o => dropOverride o .targetGone u
      | none => u) := by
    intro u k
    cases e.coveredBy with
    | none => exact k
    | some o => exact kp_dropOverride _ _ k
  cases e.scope with
  | target t => exact kp_uncover _ (released _ posted)
  | door d => exact released _ posted
  | curb => exact released _ posted
  | full => exact released _ posted
  | vehicle => exact released _ posted

theorem kp_retireSelf (n : Nat) (h : Kept a s) : Kept a (retireSelf n s) := by
  unfold retireSelf
  refine kp_ite (fun _ => ?_) fun _ => h
  split
  · exact kp_ite (fun _ => kp_retireEntry _ _ h) fun _ => h
  · exact h

theorem kp_claim (e : Entry) (h : Kept a s) : Kept a (Dsv.claim e s) := by
  unfold Dsv.claim
  split
  case h_1 d _ =>
    refine kp_ite (fun _ => ?_) fun _ => kp_superviseFor e h
    dsimp only
    split
    · exact kp_retireSelf _ (kp_supervise d h)
    · exact kp_supervise d h
  case h_2 => exact h

theorem kp_handOffOpened (e : Entry) (h : Kept a s) : Kept a (handOffOpened e s) := kp_claim e (kp_handOff _ e h)

theorem kp_evaluate (h : Kept a s) : Kept a (evaluate s) :=
  kp_foldl _ _ (fun _ e k => kp_handOff _ e k)
    (kp_touch (fun _ e => e.evaluated (s.activates e.kind e.scope)) (fun _ _ _ => ⟨rfl, rfl, rfl, rfl, rfl, id⟩) h)

theorem kp_evaluateOnce (h : Kept a s) : Kept a (evaluateOnce s) := kp_ite (fun _ => h) fun _ => kp_evaluate h

theorem kp_reevaluate (h : Kept a s) : Kept a (reevaluate s) :=
  kp_ite (fun _ => kp_evaluateOnce (kp_evaluateOnce (kp_evaluateOnce h))) fun _ => h

theorem kp_dsvJudge (h : Kept a s) : Kept a (Dsv.judge s) := kp_dsv _ h

theorem kp_finish (h : Kept a s) : Kept a (State.finish s) := kp_dsvJudge (kp_reevaluate h)

theorem kp_expireEntry (e : Entry) (h : Kept a s) : Kept a (expireEntry e s) :=
  kp_ite (fun _ => kp_retireEntry _ e h) fun _ =>
    kp_ite (fun _ => kp_post _ (kp_handOff _ e (kp_updEntry _ _ (fun e => sameIdentity_of_fields e _ _ _ _) h))) fun _ => h

theorem kp_retireAll (r : RetireReason) (w : Entry → Bool) (h : Kept a s) : Kept a (retireAll r w s) :=
  kp_foldl _ _ (fun _ e k => kp_retireEntry _ e k) h

theorem kp_retireForSpeed (h : Kept a s) : Kept a (retireForSpeed s) := kp_ite (fun _ => kp_retireAll _ _ h) fun _ => h

theorem kp_retireOverrides (d : Fin 4) (h : Kept a s) : Kept a (retireOverrides d s) := kp_ite (fun _ => kp_retireAll _ _ h) fun _ => h

/-! ### Corners, ride level and valve channels -/

theorem kp_crnFault (c : Fin 6) (r : CornerFault) (h : Kept a s) : Kept a (Crn.fault c r s) :=
  kp_ite (fun _ => kp_post _ (kp_changeOne _ _ h)) fun _ => h

theorem kp_closeGate (h : Kept a s) : Kept a (Crn.closeGate s) :=
  kp_ite (fun _ => kp_post _ (kp_change _ (kp_crn _ h))) fun _ => kp_change _ (kp_crn _ h)

theorem kp_judgeGate (h : Kept a s) : Kept a (Crn.judgeGate s) :=
  kp_ite (fun _ => kp_ite (fun _ => kp_closeGate h) fun _ => h) fun _ => kp_ite (fun _ => kp_change _ (kp_crn _ h)) fun _ => h

theorem kp_judgeCauses (h : Kept a s) : Kept a (Crn.judgeCauses s) := by
  refine kp_foldl _ _ (fun s c k => ?_) h
  split
  · exact kp_crnFault _ _ k
  · exact k

theorem kp_crnAct (c : Fin 6) (h : Kept a s) : Kept a (Crn.act c s) := by
  unfold Crn.act
  split
  · exact h
  · exact kp_changeOne _ _ h
  · exact kp_ite (fun _ => kp_settle (kp_crn _ (kp_crn _ h))) fun _ => kp_changeOne _ _ h

theorem kp_stepInBand (c : Fin 6) (h : Kept a s) : Kept a (Crn.stepInBand c s) :=
  kp_ite (fun _ => kp_crnAct _ (kp_crn _ h)) fun _ => kp_crn _ h

theorem kp_growAction (c : Fin 6) (r : CornerFault) (h : Kept a s) : Kept a (Crn.growAction c r s) :=
  kp_ite (fun _ => kp_crnFault _ _ (kp_crn _ h)) fun _ => kp_crn _ h

theorem kp_judgeNeed (c : Fin 6) (h : Kept a s) : Kept a (Crn.judgeNeed c s) := kp_ite (fun _ => kp_changeOne _ _ h) fun _ => h

theorem kp_crnStep (c : Fin 6) (h : Kept a s) : Kept a (Crn.step c s) := by
  unfold Crn.step
  split
  · exact kp_stepInBand c h
  · exact kp_ite (fun _ => kp_changeOne _ _ h) fun _ => h
  · exact kp_ite (fun _ => kp_changeOne _ _ h) fun _ => kp_growAction c _ h
  · exact kp_ite (fun _ => kp_changeOne _ _ h) fun _ => kp_growAction c _ h
  · exact kp_judgeNeed c h
  · exact kp_judgeNeed c h

theorem kp_crnMeasure (c : Fin 6) (h : Kept a s) : Kept a (Crn.measure c s) := kp_changeOne _ _ (kp_crn _ (kp_judgeGate h))

theorem kp_takeLoad (c : Fin 6) (h : Kept a s) : Kept a (Crn.takeLoad c s) := kp_ite (fun _ => kp_crn _ h) fun _ => h
theorem kp_takeAxle (i : Fin 3) (h : Kept a s) : Kept a (Crn.takeAxle i s) := kp_crn _ h

theorem kp_crnUpdate (c : Fin 6) (h : Kept a s) : Kept a (Crn.update c s) := kp_takeAxle _ (kp_takeLoad _ (kp_crnStep _ (kp_crnMeasure _ h)))

theorem kp_changeWatch (c : Fin 6) (f : StallWatch → StallWatch) (h : Kept a s) : Kept a (Rlu.changeWatch c f s) := kp_rlu _ h

theorem kp_stall (c : Fin 6) (h : Kept a s) : Kept a (Rlu.stall c s) :=
  kp_deriveKneel (kp_post _ (kp_changeOne _ _ (kp_changeWatch _ _ h)))

theorem kp_endSpan (c : Fin 6) (h : Kept a s) : Kept a (Rlu.endSpan c s) :=
  kp_ite (fun _ => kp_changeWatch _ _ h) fun _ => kp_stall _ h

theorem kp_watch (c : Fin 6) (h : Kept a s) : Kept a (Rlu.watch c s) :=
  kp_ite (fun _ => kp_ite (fun _ => kp_ite (fun _ => kp_changeWatch _ _ h) fun _ => kp_endSpan _ h) fun _ => kp_changeWatch _ _ h)
    fun _ => kp_changeWatch _ _ h

theorem kp_afterUpdate (c : Fin 6) (h : Kept a s) : Kept a (Rlu.afterUpdate c s) :=
  kp_deriveKneel (kp_ite (fun _ => kp_judgeCurbLow (kp_watch _ h)) fun _ => kp_watch _ h)

theorem kp_reportChannel (ch : Fin 18) (h : Kept a s) : Kept a (reportChannel ch s) :=
  kp_ite (fun _ => kp_post _ h) fun _ => kp_ite (fun _ => kp_post _ h) fun _ => h

theorem kp_faultFromChannel (ch : Fin 18) (h : Kept a s) : Kept a (faultFromChannel ch s) := by
  unfold faultFromChannel
  refine kp_ite (fun _ => ?_) fun _ => h
  split
  · exact kp_crnFault _ _ h
  · split
    · exact kp_crnFault _ _ h
    · exact h

theorem kp_handToOwner (ch : Fin 18) (h : Kept a s) : Kept a (handToOwner ch s) :=
  kp_ite (fun _ => kp_faultFromChannel _ (kp_change _ h)) fun _ => kp_ite (fun _ => kp_judgeLock h) fun _ => h

theorem kp_atChannel (ch : Fin 18) (f : Channel → Channel) (same : (f (rd s.vda.channels ch)).command = (rd s.vda.channels ch).command)
    (h : Kept a s) : Kept a (atChannel ch f s) := by
  have moved : Kept a (s.modVda fun v => { v with channels := upd v.channels ch f }) := by
    refine kp_vda _ (fun d _ => ?_) h
    rw [rd_upd]
    split
    case isTrue is => rw [← is]; exact same
    case isFalse => rfl
  exact kp_ite (fun _ => moved) fun _ => kp_handToOwner _ (kp_reportChannel _ moved)

theorem kp_atGate (g : Fin 18 → Bool) {f : Channel → Channel} (proper : Channel.Proper f) (h : Kept a s) : Kept a (atGate g f s) := by
  refine kp_judgeLock (kp_change _ (kp_vda _ (fun ch _ => ?_) h))
  rw [rd_mapF]
  split
  · exact proper.command _
  · rfl

theorem kp_vdaGates (f : Vda → Vda) (same : (f s.vda).channels = s.vda.channels) (h : Kept a s) : Kept a (s.modVda f) :=
  kp_vda f (fun _ _ => by rw [same]) h

theorem kp_sampleTemperature (d : Int) (h : Kept a s) : Kept a (sampleTemperature d s) :=
  kp_ite (fun _ => kp_post _ (kp_atGate _ proper_markThermal (kp_vdaGates _ rfl h))) fun _ =>
    kp_ite (fun _ => kp_atGate _ (proper_unmarkThermal _) (kp_vdaGates _ rfl h)) fun _ => h

theorem kp_sampleSupply (n : Nat) (h : Kept a s) : Kept a (sampleSupply n s) := by
  have counted := kp_vdaGates (countSupply n) rfl h
  exact kp_ite (fun _ => kp_post _ (kp_atGate _ proper_markUnder (kp_vdaGates _ rfl counted))) fun _ =>
    kp_ite (fun _ => kp_atGate _ (proper_unmarkUnder _) (kp_vdaGates _ rfl counted)) fun _ => counted

end

end Sys2Proof.Machine
end

