-- ==== Sys2Proof/Proofs/UpdateForm.lean ====
section
/-! PROOF. The steering update, the motion and the requests keep the forms of STC and BRK -/

namespace Sys2Proof.Machine

/-! ## The steering update, the motion and the device states keep both forms -/

section
variable {a s : State}

/-! ### The steering update beside its schedule -/

theorem kp_takeInputs (h : Kept a s) : Kept a (Stc.takeInputs s) := kp_stcBeside _ rfl rfl ⟨rfl, rfl⟩ rfl ⟨rfl, rfl⟩ rfl rfl h

theorem kp_judgeSensor (c : Fin 21) (h : Kept a s) : Kept a (Stc.judgeSensor c s) := kp_ite (fun _ => kp_setLatch _ h) fun _ => h

theorem kp_disagreeTimer (n : Nat) (h : Kept a s) : Kept a (s.modStc fun x => { x with disagreeTimer := n }) :=
  kp_stcBeside _ rfl rfl ⟨rfl, rfl⟩ rfl ⟨rfl, rfl⟩ rfl rfl h

theorem kp_judgeDisagreement (h : Kept a s) : Kept a (Stc.judgeDisagreement s) :=
  kp_ite (fun _ => kp_setLatch _ (kp_disagreeTimer _ h)) fun _ => kp_disagreeTimer _ h

theorem kp_judgeSpeed (h : Kept a s) : Kept a (Stc.judgeSpeed s) := kp_ite (fun _ => kp_setLatch _ h) fun _ => h

theorem kp_judgePlausibility (h : Kept a s) : Kept a (Stc.judgePlausibility s) :=
  kp_judgeSpeed (kp_judgeDisagreement (kp_judgeSensor _ (kp_judgeSensor _ (kp_judgeSensor _ (kp_judgeSensor _ h)))))

/-- The limit in force lies around 0, and within 15.0° (R146). -/
theorem steerBounds_fit (w right : Bool) {lim guard : Int} (low : 0 ≤ lim) (high : lim ≤ 150) (positive : 0 ≤ guard) :
    -150 ≤ (steerBounds w right lim guard).1 ∧ (steerBounds w right lim guard).1 ≤ 0
      ∧ 0 ≤ (steerBounds w right lim guard).2 ∧ (steerBounds w right lim guard).2 ≤ 150 := by
  unfold steerBounds
  cases w <;> cases right <;> simp only [if_true, if_false, Bool.false_eq_true] <;> omega

theorem kp_formCommand (target : Int) {u : Schedule} (is : s.stc.schedule = some u) (moves : s.stc.state = .tracking ∨ s.stc.state = .centring)
    (h : Kept a s) : Kept a (Stc.formCommand target u s) := by
  refine h.trans ⟨rfl, ⟨rfl, rfl⟩, id, fun _ still => ?_, id, fun r => ?_, id,
    fun sound => ⟨sound.parameters, sound.doorHold, brakesFit_congr sound.fits rfl fun _ => rfl⟩⟩
  · rcases moves with at' | at' <;> exact absurd still (by show ¬ (s.stc.state = .parked ∨ s.stc.state = .locked ∨ s.stc.state = .passive); simp [at'])
  · rintro ⟨parked, schedule, values, bounds, command, still, locked, bank⟩
    obtain ⟨-, -, ⟨low, high⟩, -⟩ := values u is
    have fits := steerBounds_fit s.stc.windowOpen s.cfg.settings.curbRight low high (Int.natCast_nonneg s.cfg.settings.curbGuard)
    refine ⟨parked, schedule, values, fits, ?_, fun still => ?_, locked, bank⟩
    · exact clampInt_mem (fits.2.1.trans fits.2.2.1) _
    · rcases moves with at' | at' <;>
        exact absurd still (by show ¬ (s.stc.state = .parked ∨ s.stc.state = .locked ∨ s.stc.state = .passive); simp [at'])

theorem kp_trackTimer (n : Nat) (h : Kept a s) : Kept a (s.modStc fun x => { x with trackTimer := n }) :=
  kp_stcBeside _ rfl rfl ⟨rfl, rfl⟩ rfl ⟨rfl, rfl⟩ rfl rfl h

theorem kp_judgeTracking (h : Kept a s) : Kept a (Stc.judgeTracking s) :=
  kp_ite (fun _ => kp_setLatch _ (kp_trackTimer _ h)) fun _ => kp_trackTimer _ h

/-- STC's record in a state that commands 0, from one that is not PARKED. -/
theorem reposed_zero {x : Stc} (st : SteerState) (from' : x.state ≠ .parked) (into : st ≠ .parked) :
    x.Reposed { x with state := st, command := 0 } :=
  ⟨⟨fun is => absurd is into, fun is => absurd is from'⟩, .inr rfl, fun _ _ => rfl, ⟨rfl, rfl⟩, rfl, ⟨rfl, rfl⟩, id, rfl⟩

/-- STC's record as it enters LOCKED. -/
def Stc.toLocked (x : Stc) : Stc := { x with state := .locked, command := 0 }

theorem enterLocked_eq (s : State) : Stc.enterLocked s = Stc.commandLock (Stc.leaveLocked (s.modStc Stc.toLocked)) := rfl

theorem kp_enterLocked (from' : s.stc.state ≠ .parked) (h : Kept a s) : Kept a (Stc.enterLocked s) := by
  rw [enterLocked_eq]
  by_cases free : (s.modStc Stc.toLocked).anyLive .steerCentre = false
  · have leaves : Stc.leaveLocked (s.modStc Stc.toLocked) = Stc.enterMoving (s.modStc Stc.toLocked) := if_pos ⟨rfl, free⟩
    have once : (s.modStc Stc.toLocked).modStc (Stc.toMoving (s.modStc Stc.toLocked).standing)
      = s.modStc fun x => x.toLocked.toMoving s.standing := rfl
    obtain ⟨command, limits, schedule, banks, -, window⟩ := toMoving_form s.standing s.stc.toLocked
    rw [leaves, enterMoving_eq, once]
    refine kp_commandLock (kp_startCentring (kp_judgeLock (kp_repose _ ?_ h)))
    exact reposed_moving from' (toMoving_state _ _) (.inr command) limits schedule banks (by rw [toMoving_valid]; exact id) window
  · have stays : Stc.leaveLocked (s.modStc Stc.toLocked) = s.modStc Stc.toLocked := if_neg fun all => free all.2
    rw [stays]
    exact kp_repose _ (reposed_zero .locked from' fun no => nomatch no) h

theorem kp_enterPassive (from' : s.stc.state ≠ .parked) (h : Kept a s) : Kept a (Stc.enterPassive s) := by
  have entered := kp_repose (fun x => { x with state := .passive, command := 0 }) (reposed_zero .passive from' fun no => nomatch no) h
  exact kp_post _ (kp_ite (fun _ => entered) fun _ => kp_stcAskEntry (kp_latch _ entered))

theorem kp_judgeCentring (from' : s.stc.state ≠ .parked) (h : Kept a s) : Kept a (Stc.judgeCentring s) := by
  refine kp_ite (fun _ => kp_enterLocked from' h) fun _ => ?_
  have timed : Kept a (s.modStc fun x => { x with centringTimer := grow 10 2000 s.stc.centringTimer }) :=
    kp_stcBeside _ rfl rfl ⟨rfl, rfl⟩ rfl ⟨rfl, rfl⟩ rfl rfl h
  exact kp_ite (fun _ => kp_enterPassive from' timed) fun _ => timed

theorem kp_steer (h : Kept a s) : Kept a (Stc.steer s) := by
  unfold Stc.steer
  cases is : s.stc.schedule with
  | none => exact h
  | some u =>
    cases at' : s.stc.state with
    | tracking => exact kp_judgeTracking (kp_formCommand _ is (.inl at') h)
    | centring =>
      refine kp_judgeCentring ?_ (kp_formCommand _ is (.inr at') h)
      show s.stc.state ≠ .parked
      rw [at']
      exact fun no => nomatch no
    | parked => exact h
    | frozen => exact h
    | locked => exact h
    | passive => exact h

theorem kp_jointLimit (b : Bool) (h : Kept a s) : Kept a (s.modStc fun x => { x with jointLimit := b }) :=
  kp_stcBeside _ rfl rfl ⟨rfl, rfl⟩ rfl ⟨rfl, rfl⟩ rfl rfl h

theorem kp_judgeJoint (h : Kept a s) : Kept a (Stc.judgeJoint s) :=
  kp_ite (fun _ => kp_post _ (kp_jointLimit _ h)) fun _ => kp_jointLimit _ h

theorem kp_damp (h : Kept a s) : Kept a (Stc.damp s) :=
  kp_command _ _ damper_undriven (kp_stcBeside _ rfl rfl ⟨rfl, rfl⟩ rfl ⟨rfl, rfl⟩ rfl rfl h)

theorem kp_placeFrame (h : Kept a s) : Kept a (Stc.placeFrame s) := kp_lnk _ h

theorem kp_takeReport (h : Kept a s) : Kept a (Stc.takeReport s) := kp_stcBeside _ rfl rfl ⟨rfl, rfl⟩ rfl ⟨rfl, rfl⟩ rfl rfl h

/-! ### The motion state, the rollback and the drive lines -/

theorem kp_judgeSwap (h : Kept a s) : Kept a (Stc.judgeSwap s) := by
  unfold Stc.judgeSwap
  split
  · exact h
  · refine kp_ite (fun valid => kp_post _ ?_) fun _ => kp_post _ ?_
    · exact kp_stc _ ⟨.rfl, .inl rfl, id, ⟨rfl, rfl⟩, rfl, ⟨rfl, rfl⟩, fun _ => valid, rfl⟩ rfl h
    · exact kp_stcBeside _ rfl rfl ⟨rfl, rfl⟩ rfl ⟨rfl, rfl⟩ rfl rfl h

theorem kp_onMotion (h : Kept a s) : Kept a (Stc.onMotion s) := by
  refine kp_ite (fun _ => ?_) fun _ => h
  have judged := kp_when (p := s.standing = true) Stc.judgeSwap (fun _ => kp_judgeSwap) h
  refine kp_ite (fun moves => kp_enterMoving ?_ judged) fun _ => judged
  rcases moves with ⟨at', -⟩ | ⟨at', -⟩ <;> rw [at'] <;> exact fun no => nomatch no

theorem kp_arm (h : Kept a s) : Kept a (Mot.arm s) := kp_ite (fun _ => kp_mot _ h) fun _ => h

theorem kp_motionChanged (h : Kept a s) : Kept a (motionChanged s) := kp_onMotion (kp_brkJudge (kp_arm h))

theorem kp_rollback (h : Kept a s) : Kept a (Brk.rollback s) :=
  kp_post _ (kp_ite (fun _ => kp_brk _ rfl rfl rfl rfl rfl (kp_openSelf _ _ _ ⟨450, rfl, by decide, by decide⟩ h)) fun _ => h)

theorem kp_judgeRollback (h : Kept a s) : Kept a (Mot.judgeRollback s) :=
  kp_ite (fun _ => kp_ite (fun _ => kp_rollback (kp_mot _ (kp_mot _ h))) fun _ => kp_mot _ h) fun _ => h

theorem kp_release (h : Kept a s) : Kept a (Brk.release s) := by
  unfold Brk.release
  refine kp_ite (fun _ => ?_) fun _ => h
  split
  · exact kp_retireSelf _ h
  · exact h

theorem kp_reportWheels (b : Vector WheelChannel 4) (h : Kept a s) : Kept a (reportWheels b s) :=
  kp_foldl _ _ (fun _ _ k => kp_ite (fun _ => kp_post _ k) fun _ => k) h

theorem kp_judgeWheels (h : Kept a s) : Kept a (Mot.judgeWheels s) := h.trans (kept_of_same rfl rfl rfl rfl rfl)

theorem kp_speedUpdate (h : Kept a s) : Kept a (speedUpdate s) := by
  have formed : Kept a (Mot.formMotion (Mot.formDistance (Mot.formSpeed s.mot.wheels (Mot.judgeWheels s)))) :=
    kp_mot _ (kp_mot _ (kp_mot _ (kp_judgeWheels h)))
  have reported := kp_reportWheels s.mot.wheels formed
  exact kp_finish (kp_retireForSpeed (kp_judgeRollback (kp_ite (fun _ => kp_motionChanged reported) fun _ => reported)))

theorem kp_selectionChanged (h : Kept a s) : Kept a (selectionChanged s) := kp_release (kp_ite (fun _ => kp_mot _ h) fun _ => h)

theorem kp_driveChanged (h : Kept a s) : Kept a (driveChanged s) := kp_ite (fun _ => kp_leaveWait (kp_release h)) fun _ => h

theorem kp_lineSettles (l : DriveLine) (h : Kept a s) : Kept a (lineSettles l s) := by
  have settled := kp_mot (Mot.changeLine l InputLine.settle) h
  exact kp_finish (kp_ite (fun _ => kp_driveChanged settled) fun _ =>
    kp_ite (fun _ => kp_selectionChanged settled) fun _ => settled)

theorem kp_analogFails (c : Fin 21) (h : Kept a s) : Kept a (analogFails c s) := by
  have faulted : Kept a (if h : c.val < 6 then Crn.fault ⟨c.val, h⟩ .heightSensor (s.post (.channelFault .analog c.val .faulty 0))
      else s.post (.channelFault .analog c.val .faulty 0)) := by
    split
    · exact kp_crnFault _ _ (kp_post _ h)
    · exact kp_post _ h
  exact kp_ite (fun _ => kp_setLatch _ faulted) fun _ => faulted

theorem kp_sampleAnalog (c : Fin 21) (raw : BitVec 12) (h : Kept a s) : Kept a (sampleAnalog c raw s) := by
  have sampled : Kept a (Mot.sample c raw s) := h.trans (kept_of_same rfl rfl rfl rfl rfl)
  exact kp_finish (kp_ite (fun _ => kp_analogFails c sampled) fun _ => sampled)

/-! ### The doors and the requests -/

/-- A change of the table beside its slots. -/
theorem kp_ilt (f : Ilt → Ilt) (slots : (f s.ilt).slots = s.ilt.slots) (h : Kept a s) : Kept a (s.modIlt f) :=
  h.trans (kept_beside rfl rfl rfl (fun _ _ => rfl) fun fits i e there => fits i e (by rw [← slots]; exact there))

theorem kp_handContact (d : Fin 4) (h : Kept a s) : Kept a (handContact d s) :=
  kp_ite (fun _ => h) fun _ => kp_ite (fun _ => kp_ilt _ rfl h) fun _ => kp_retireOverrides d (kp_ilt _ rfl h)

theorem kp_superviseAll (h : Kept a s) : Kept a (superviseAll s) := kp_foldl _ _ (fun _ d k => kp_supervise d k) h

theorem kp_handContacts (h : Kept a s) : Kept a (handContacts s) := kp_ilt _ rfl h

theorem kp_releaseDrive (h : Kept a s) : Kept a (releaseDrive s) := by
  unfold releaseDrive
  split
  · exact kp_ite (fun _ => kp_dsv _ (kp_advance _ h)) fun _ => kp_advance _ h
  · exact h
  · exact h

theorem kp_coverTarget (scope : Scope) (n : Nat) (h : Kept a s) : Kept a (coverTarget scope n s) := by
  unfold coverTarget
  split
  · split
    · exact kp_handOff _ _ (kp_updEntry _ _ (fun e => sameIdentity_of_fields e _ _ _ _) h)
    · exact h
  all_goals exact h

theorem kp_carryOpen (p : Fin 16) (k : Kind) (scope : Scope) (given : Nat) (slot : Fin 24) (h : Kept a s) :
    Kept a (carryOpen p k scope given slot s).1 :=
  kp_finish (kp_coverTarget _ _ (kp_handOffOpened _ (kp_place _ _ (fun _ => fitParameter_fits k given) h)))

theorem kp_handAmended (e : Entry) (h : Kept a s) : Kept a (handAmended e s) :=
  kp_ite (fun _ => kp_brkJudge h) fun _ => kp_rluFromTable h

theorem kp_amended {e : Entry} {handle : Nat} (given : Nat) (there : s.resolve handle = some e) (h : Kept a s) :
    Kept a (s.updEntry handle fun x => { x with parameter := (e.kind.fitParameter given).1 }) := by
  refine kp_updResolved _ _ (fun x is => ?_) h
  obtain rfl := Option.some.inj (there.symm.trans is)
  exact ⟨rfl, rfl, rfl, rfl, rfl, fun _ => fitParameter_fits e.kind given⟩

theorem kp_revive (e : Entry) (h : Kept a s) : Kept a (revive e s) := by
  have changed := kp_updEntry e.handle (fun x => { x with
    state := shownState (s.activates e.kind e.scope), underlying := s.activates e.kind e.scope, deadline := s.fullWindow e, coveredBy := none })
    (fun x => sameIdentity_of_fields x _ _ _ _) h
  refine kp_finish (kp_handOff _ e ?_)
  split
  · exact kp_dropOverride _ _ changed
  · exact changed

theorem kp_clearLatch (h : Kept a s) : Kept a (Stc.clearLatch s) := by
  have cleared : Kept a (s.modStc fun x => { x with latch := none, disagreeTimer := 0, trackTimer := 0 }) :=
    kp_stcBeside _ rfl rfl ⟨rfl, rfl⟩ rfl ⟨rfl, rfl⟩ rfl rfl h
  have centred : Kept a (if s.stc.state = .passive then
        Stc.commandLock ((s.modStc fun x => { x with latch := none, disagreeTimer := 0, trackTimer := 0 }).modStc
          fun x => { x with state := .centring, centringTimer := 0 })
      else s.modStc fun x => { x with latch := none, disagreeTimer := 0, trackTimer := 0 }) := by
    refine kp_ite (fun passive => kp_repose _ ⟨⟨fun no => (nomatch no), fun is => ?_⟩, .inl rfl, fun _ => ?_, ⟨rfl, rfl⟩, rfl, ⟨rfl, rfl⟩, id,
      rfl⟩ cleared) fun _ => cleared
    · exact absurd (passive.symm.trans is) fun no => nomatch no
    · rintro (no | no | no) <;> exact (nomatch no)
  unfold Stc.clearLatch
  dsimp only
  split
  · exact kp_retireSelf _ centred
  · exact centred

end

end Sys2Proof.Machine
end

