-- ==== Sys2Proof/Proofs/WorkForm.lean ====
section
/-! PROOF. The schedule from rows in their ranges, and the work that resets or writes (R144, R154, R184) -/

namespace Sys2Proof.Machine

/-! ## The schedule from rows in their ranges (R144, R154) -/

theorem share_of_span {x d n : Int} (positive : 0 ≤ x) (low : 0 ≤ d) (high : d < n) : 0 ≤ Int.tdiv (x * d) n ∧ Int.tdiv (x * d) n ≤ x := by
  have product : 0 ≤ x * d := Int.mul_nonneg positive low
  rw [Int.tdiv_eq_ediv_of_nonneg product]
  exact ⟨Int.ediv_nonneg product (by omega),
    Int.ediv_le_of_le_mul (by omega) (Int.mul_le_mul_of_nonneg_left (by omega) positive)⟩

/-- A value between two rows lies between their values. -/
theorem interpolate_mem {v v0 v1 x0 x1 lo hi : Int} (low : v0 ≤ v) (high : v < v1) (first : lo ≤ x0 ∧ x0 ≤ hi) (second : lo ≤ x1 ∧ x1 ≤ hi) :
    lo ≤ interpolate v v0 v1 x0 x1 ∧ interpolate v v0 v1 x0 x1 ≤ hi := by
  unfold interpolate
  by_cases rises : 0 ≤ x1 - x0
  · obtain ⟨more, less⟩ := share_of_span rises (d := v - v0) (n := v1 - v0) (by omega) (by omega)
    omega
  · obtain ⟨more, less⟩ := share_of_span (x := x0 - x1) (d := v - v0) (n := v1 - v0) (by omega) (by omega) (by omega)
    have mirrored : (x1 - x0) * (v - v0) = -((x0 - x1) * (v - v0)) := by ring
    rw [mirrored, Int.neg_tdiv]
    omega

theorem between_inRange {v : Int} {r0 r1 : Row} (first : r0.inRange) (second : r1.inRange) (low : r0.v ≤ v) (high : v < r1.v) :
    (Row.between v r0 r1).inRange := by
  obtain ⟨-, art, front, lim, slew, damp⟩ := first
  obtain ⟨-, art', front', lim', slew', damp'⟩ := second
  exact ⟨interpolate_mem low high art art', interpolate_mem low high front front', interpolate_mem low high lim lim',
    interpolate_mem low high slew slew', interpolate_mem low high damp damp'⟩

theorem schedule_inRange {r : Row} (fits : r.inRange) : r.schedule.inRange := by
  obtain ⟨-, rest⟩ := fits
  exact rest

theorem lookup_inRange {b : Bank} (fits : b.inRange) (v : Int) : (b.lookup v).inRange := by
  obtain ⟨-, rows⟩ := fits
  unfold Bank.lookup
  split
  · exact schedule_inRange (rows _)
  · split
    case h_1 i found =>
      have between := List.find?_some found
      simp only [decide_eq_true_eq] at between
      exact between_inRange (rows _) (rows _) between.2.1 between.2.2
    case h_2 => exact schedule_inRange (rows _)

/-! ## What each piece of work leaves of both forms -/

/-- The forms of STC and BRK are kept from the first state to the second. -/
structure Sound (s t : State) : Prop where
  still : s.StillFits → t.StillFits
  window : s.WindowFits → t.WindowFits
  ranges : s.RangesFit → t.RangesFit
  steering : s.RangesFit → s.SteeringFits → t.SteeringFits
  parameters : s.ParametersFit → t.ParametersFit
  brakes : s.RangesFit → s.ParametersFit → s.BrakesFit → t.BrakesFit

theorem Sound.trans {s t u : State} (h : Sound s t) (k : Sound t u) : Sound s u where
  still fits := k.still (h.still fits)
  window fits := k.window (h.window fits)
  ranges fits := k.ranges (h.ranges fits)
  steering ranges fits := k.steering (h.ranges ranges) (h.steering ranges fits)
  parameters fits := k.parameters (h.parameters fits)
  brakes ranges table fits := k.brakes (h.ranges ranges) (h.parameters table) (h.brakes ranges table fits)

theorem doorHold_le {s : State} (fits : s.RangesFit) : s.cfg.settings.doorHold ≤ 500 := by
  have range := fits.1
  simp only [Settings.inRange, Bool.and_eq_true, decide_eq_true_eq] at range
  obtain ⟨⟨⟨⟨⟨-, door⟩, -⟩, -⟩, -⟩, -⟩ := range
  exact door.2

theorem Kept.sound {s t : State} (h : Kept s t) : Sound s t where
  still := h.still
  window := h.window
  ranges fits := by
    obtain ⟨settings, bankA, bankB⟩ := fits
    exact ⟨h.cfg ▸ settings, h.banks.1 ▸ bankA, h.banks.2 ▸ bankB⟩
  steering _ fits := by
    have run : t.inRun = s.inRun := by rw [State.inRun, h.cfg, State.inRun]
    rw [steeringFits_iff] at fits ⊢
    rw [run]
    exact h.steering _ fits
  parameters := h.parameters
  brakes ranges table fits := (h.brakes ⟨table, doorHold_le ranges, fits⟩).fits

/-- Work that BRK, the table and the settings stand through. -/
theorem sound_beside {s t : State} (settings : t.cfg.settings = s.cfg.settings) (ilt : t.ilt = s.ilt) (brk : t.brk = s.brk) (vda : t.vda = s.vda)
    (still : s.StillFits → t.StillFits) (window : t.stc.windowOpen = s.stc.windowOpen)
    (banks : s.RangesFit → t.stc.bankA.inRange ∧ t.stc.bankB.inRange) (steering : s.RangesFit → s.SteeringFits → t.SteeringFits) : Sound s t where
  still := still
  window same := by unfold State.WindowFits; rw [brk, window]; exact same
  ranges fits := ⟨settings ▸ fits.1, banks fits⟩
  steering := steering
  parameters := parametersFit_congr ilt
  brakes _ _ fits := brakesFit_congr fits brk fun a => by rw [vda]

section
variable {s : State}

/-! ### The schedule at a steering update -/

theorem bankInUse_inRange (fits : s.RangesFit) : s.stc.bankInUse.inRange := by
  unfold Stc.bankInUse Stc.bank
  split
  · exact fits.2.1
  · exact fits.2.2

theorem lookUp_sound (s : State) : Sound s (Stc.lookUp s) := by
  unfold Stc.lookUp
  cases s.mot.speed with
  | none => exact (Kept.refl s).sound
  | some v =>
    by_cases run : s.inRun = true
    case neg => simpa only [if_neg run] using (Kept.refl s).sound
    case pos =>
      simp only [if_pos run]
      refine sound_beside rfl rfl rfl rfl id rfl (fun fits => fits.2) fun ranges fits => ?_
      obtain ⟨parked, -, -, bounds, command, still, lock, bank⟩ := fits
      refine ⟨parked, ?_, fun u is => ?_, bounds, command, still, lock, bank⟩
      · exact ⟨fun _ => of_decide_eq_true run, fun _ => rfl⟩
      · obtain rfl := Option.some.inj is
        exact lookup_inRange (bankInUse_inRange ranges) v

theorem steeringMoves_sound (s : State) : Sound s (steeringMoves s) := by
  have begun : Kept s s.steerBegun := kp_stcBeside _ rfl rfl ⟨rfl, rfl⟩ rfl ⟨rfl, rfl⟩ rfl rfl (kp_advance _ (.refl s))
  have judged := (kp_judgePlausibility (kp_takeInputs begun)).sound
  exact (judged.trans (lookUp_sound _)).trans (kp_takeReport (kp_placeFrame (kp_damp (kp_judgeJoint (kp_steer (.refl _)))))).sound

/-! ### The banks and the settings -/

theorem bank_setBank (x : Stc) (id' id : BankId) (b : Bank) : (x.setBank id b).bank id' = if id' = id then b else x.bank id' := by
  cases id <;> cases id' <;> rfl

theorem setBank_sound (id : BankId) (b : Bank) (fits : s.RangesFit → b.inRange) (unused : ¬ (s.inRun = true ∧ s.stc.inUse = id)) :
    Sound s (s.modStc fun x => x.setBank id b) := by
  have form : ∀ x : Stc, (x.setBank id b).state = x.state ∧ (x.setBank id b).command = x.command ∧ (x.setBank id b).windowOpen = x.windowOpen
      ∧ (x.setBank id b).schedule = x.schedule ∧ (x.setBank id b).lower = x.lower ∧ (x.setBank id b).upper = x.upper
      ∧ (x.setBank id b).inUse = x.inUse := by
    intro x
    cases id <;> exact ⟨rfl, rfl, rfl, rfl, rfl, rfl, rfl⟩
  obtain ⟨state, command, window, schedule, lower, upper, inUse⟩ := form s.stc
  refine sound_beside rfl rfl rfl rfl (fun still => ?_) window (fun ranges => ?_) fun ranges steering => ?_
  · unfold State.StillFits
    rw [State.modStc_stc, state, command]
    exact still
  · have bank := fits ranges
    obtain ⟨-, bankA, bankB⟩ := ranges
    cases id
    · exact ⟨bank, bankB⟩
    · exact ⟨bankA, bank⟩
  · obtain ⟨parked, some', values, bounds, within, still, lock, valid⟩ := steering
    constructor
    case bank =>
      intro run
      rw [State.modStc_stc, inUse, bank_setBank, if_neg fun same => unused ⟨decide_eq_true run, same⟩]
      exact valid run
    all_goals rw [State.modStc_stc]
    · rw [state]; exact parked
    · rw [schedule]; exact some'
    · rw [schedule]; exact values
    · rw [lower, upper]; exact bounds
    · rw [lower, upper, command]; exact within
    · rw [state, command]; exact still
    · rw [state]; exact lock

/-- A write of a setting is taken in CONFIG, where no bank is in use by STC. -/
theorem setting_sound {number place : Nat} {w : Word16} {g : Settings} {v : Int} (device : s.cfg.device = .config)
    (write : s.cfg.settings.write number place w = some (g, v)) :
    Sound s (settingWritten number (s.modCfg fun c => { c with settings := g })) := by
  have stored : Sound s (s.modCfg fun c => { c with settings := g }) :=
    ⟨id, id, fun ranges => ⟨Settings.write_inRange write ranges.1, ranges.2⟩, fun _ ⟨parked, schedule, values, bounds, command, still, lock, bank⟩ =>
      ⟨parked, schedule, values, bounds, command, still, lock, bank⟩, id, fun _ _ fits => brakesFit_congr fits rfl fun _ => rfl⟩
  unfold settingWritten
  split
  · refine stored.trans (sound_beside rfl rfl rfl rfl id rfl (fun ranges => ranges.2) fun _ steering => ?_)
    obtain ⟨parked, schedule, values, bounds, command, still, lock, -⟩ := steering
    refine ⟨parked, schedule, values, bounds, command, still, lock, fun run => ?_⟩
    exact absurd (device.symm.trans run) fun no => nomatch no
  · split
    · exact stored.trans (kp_dsvJudge (.refl _)).sound
    · split
      · exact stored.trans (kp_dsvJudge (kp_judgeCurbLow (.refl _))).sound
      · exact stored

/-! ### The resets -/

theorem atReset_steeringFits {t : State} (h : t.AtReset) : t.SteeringFits := by
  obtain ⟨device, -, -, -, -, -, -, -, ⟨now, bankA, bankB, inUse, stc⟩, ⟨now', current, vda⟩⟩ := h
  have out : t.cfg.device ≠ .run := by rw [device]; exact fun no => nomatch no
  constructor
  case bank => exact fun run => absurd run out
  case lock => rw [stc, vda]; simp [Vda.initial, Channel.initial, Stc.initial]
  all_goals rw [stc]
  case parked => exact ⟨fun _ => out, fun _ => rfl⟩
  case schedule => exact ⟨fun no => (nomatch no), fun run => absurd run out⟩
  case values => exact fun u no => nomatch no
  case bounds => simp [Stc.initial]
  case command => simp [Stc.initial]
  case still => exact fun _ => rfl

theorem atReset_brakesFit {t : State} (h : t.AtReset) : t.BrakesFit := by
  obtain ⟨-, -, -, -, -, -, -, ⟨now, brk⟩, -, ⟨now', current, vda⟩⟩ := h
  constructor
  case command => intro a; rw [vda, brk]; simp [Vda.initial, Channel.initial, Brk.initial]
  all_goals rw [brk]
  case demand => intro a; simp [Brk.initial]
  case target => exact Nat.zero_le _
  case floor => exact fun held => absurd rfl held
  case confirmed => exact ⟨fun no => (nomatch no), fun no => (nomatch no)⟩
  case released => exact fun _ => rfl

theorem atReset_sound {t : State} (h : t.AtReset) (ranges : s.RangesFit → t.RangesFit) : Sound s t where
  still _ := (atReset_steeringFits h).still
  window _ := by
    obtain ⟨-, -, -, -, -, -, -, ⟨now, brk⟩, ⟨now', bankA, bankB, inUse, stc⟩, -⟩ := h
    unfold State.WindowFits
    rw [brk, stc]
    rfl
  ranges := ranges
  steering _ _ := atReset_steeringFits h
  parameters _ i e there := by
    rw [h.table.2.1 i] at there
    exact nomatch there
  brakes _ _ _ := atReset_brakesFit h

theorem coldReset_sound (s : State) : Sound s s.coldReset :=
  atReset_sound (coldReset_atReset s) fun _ => ⟨settings_default_inRange, bank_initial_inRange, bank_initial_inRange⟩

theorem warmRestart_sound (s : State) : Sound s s.warmRestart := atReset_sound (warmRestart_atReset s) fun ranges => ranges

end

end Sys2Proof.Machine
end

