-- ==== Sys2Proof/Proofs/StepKeepsForms.lean ====
section
/-! PROOF. The entries into RUN and SAFE, and the statement StepKeepsSteering -/

namespace Sys2Proof.Machine

/-! ## The entries into RUN and SAFE, and the statement (R119 to R156) -/

section
variable {s u : State}

/-! ### The entry into RUN (R148, R186) -/

theorem scheduleAtStart_inRange (fits : s.RangesFit) : s.scheduleAtStart.inRange := by
  have bank := bankInUse_inRange fits
  unfold State.scheduleAtStart
  cases s.mot.speed with
  | none => exact schedule_inRange (bank.2 0)
  | some v => exact lookup_inRange bank v

theorem launched_state (u : State) : u.launched.stc.state = .frozen ∨ u.launched.stc.state = .tracking := by
  rw [launched_stc]
  cases u.standing
  · exact .inr rfl
  · exact .inl rfl

theorem launched_still (u : State) : u.launched.StillFits := by
  unfold State.StillFits
  rcases launched_state u with is | is <;> rw [is] <;> simp

theorem launched_steering (ranges : u.RangesFit) (valid : (u.stc.bank u.stc.inUse).valid = true) : u.launched.SteeringAt true := by
  obtain ⟨-, -, ⟨low, high⟩, -⟩ := scheduleAtStart_inRange ranges
  have moving := launched_state u
  constructor
  case parked => exact ⟨fun is => by rcases moving with at' | at' <;> rw [at'] at is <;> exact (nomatch is), fun no => (nomatch no)⟩
  case still => exact launched_still u
  case lock =>
    rw [← State.lockCommand, launched_lock]
    rcases moving with at' | at' <;> rw [at'] <;> rfl
  all_goals rw [launched_stc]
  case schedule => rfl
  case values =>
    intro x is
    obtain rfl := Option.some.inj is
    exact scheduleAtStart_inRange ranges
  case bounds =>
    dsimp only
    omega
  case command =>
    have wide : -u.scheduleAtStart.lim ≤ u.scheduleAtStart.lim := by omega
    exact clampInt_mem wide _
  case bank => exact fun _ => valid

theorem launched_brakes (fits : u.BrakesFit) : u.launched.BrakesFit :=
  brakesFit_congr fits rfl fun a => commandLock_brake _ a

theorem kp_moving {a : State} (h : Kept a u.launched) : Kept a (Stc.enterRun u) := by
  have moving : Kept a u.moving := kp_startCentring (kp_judgeLock h)
  rw [enterRun_eq]
  exact kp_ite (fun _ => kp_stcAskEntry moving) fun _ => moving

/-- DSV and CRN as they enter RUN. -/
theorem kp_levelled {a : State} (h : Kept a u) : Kept a u.levelled := kp_change _ (kp_judgeCauses (kp_crn _ h))

theorem ready_kept (s : State) : Kept (s.modCfg fun c => { c with device := .run }) s.ready :=
  kp_levelled (kp_superviseAll (kp_handContacts (.refl _)))

theorem kp_placeBroadcast {a : State} (h : Kept a u) : Kept a (placeBroadcast u) := kp_lnk _ h

theorem kp_underWay {a : State} (h : Kept a u) : Kept a ((Mot.arm u).modLnk fun l => { l with rotation := 0 }) := kp_lnk _ (kp_arm h)

theorem enterRun_kept (s : State) : Kept (Stc.enterRun s.ready) (enterRun s) := by
  have begun : Kept (Stc.enterRun s.ready) s.underWay := kp_underWay (.refl _)
  rw [enterRun_stages]
  exact kp_placeBroadcast (kp_finish begun)

/-- The form of a state that RUN is entered to, with STC launched between two stages that keep the form. -/
theorem sound_of_launch {t : State} (valid : (s.stc.bank s.stc.inUse).valid = true)
    (before : Kept (s.modCfg fun c => { c with device := .run }) u) (after : Kept u.launched t) : Sound s t where
  still _ := after.still (launched_still u)
  window same := by
    have kept : u.WindowFits := before.window same
    refine after.window ?_
    unfold State.WindowFits
    rw [launched_stc]
    exact kept
  ranges fits := after.sound.ranges (before.sound.ranges fits)
  steering ranges _ := by
    have run : t.inRun = true := by
      rw [State.inRun, after.cfg.trans before.cfg]
      rfl
    rw [steeringFits_iff, run]
    exact after.steering true (launched_steering (before.sound.ranges ranges) (before.valid valid))
  parameters fits := after.parameters (before.parameters fits)
  brakes ranges table fits := by
    have sound : u.BrakesSound := before.brakes ⟨table, doorHold_le ranges, brakesFit_congr fits rfl fun _ => rfl⟩
    exact (after.brakes ⟨sound.parameters, sound.doorHold, launched_brakes sound.fits⟩).fits

theorem valid_of_checked (checked : s.startFailure = none) : (s.stc.bank s.stc.inUse).valid = true := by
  by_contra no
  have invalid : s.stc.bankInUse.valid = false := by simpa [Stc.bankInUse] using no
  unfold State.startFailure at checked
  rw [if_pos invalid] at checked
  split at checked
  · exact nomatch checked
  · split at checked <;> exact nomatch checked

theorem enterRun_sound (checked : s.startFailure = none) : Sound s (enterRun s) :=
  sound_of_launch (valid_of_checked checked) (ready_kept s) ((kp_moving (.refl _)).trans (enterRun_kept s))

/-! ### The entry into SAFE (R148, R187) -/

theorem exitRun_stc (u : State) : (Stc.exitRun u).stc.state = .parked ∧ (Stc.exitRun u).stc.command = 0
    ∧ (Stc.exitRun u).stc.windowOpen = false ∧ (Stc.exitRun u).stc.schedule = none ∧ (Stc.exitRun u).stc.lower = u.stc.lower
    ∧ (Stc.exitRun u).stc.upper = u.stc.upper := ⟨rfl, rfl, rfl, rfl, rfl, rfl⟩

theorem exitRun_brake (u : State) (a : Fin 3) : (rd (Stc.exitRun u).vda.channels (brakeChannel a)).command
    = (rd u.vda.channels (brakeChannel a)).command := by
  have other : ∀ a : Fin 3, damperChannel ≠ brakeChannel a := by decide
  rw [Stc.exitRun, rd_command, if_neg (other a), commandLock_brake]
  rfl

theorem exitRun_still (u : State) : (Stc.exitRun u).StillFits := fun _ => rfl

theorem exitRun_steering {r : Bool} (fits : u.SteeringAt r) : (Stc.exitRun u).SteeringAt false := by
  obtain ⟨state, command, -, schedule, lower, upper⟩ := exitRun_stc u
  obtain ⟨-, -, -, bounds, -⟩ := fits
  constructor
  case parked => exact ⟨fun _ => rfl, fun _ => state⟩
  case schedule => rw [schedule]; rfl
  case values => rw [schedule]; exact fun x no => nomatch no
  case bounds => rw [lower, upper]; exact bounds
  case command => rw [lower, upper, command]; exact ⟨bounds.2.1, bounds.2.2.1⟩
  case still => exact exitRun_still u
  case lock => rw [state]; exact (exitRun_lock u).1
  case bank => exact fun no => nomatch no

/-- ENTER_SAFE in RUN, up to STC's part. -/
def State.stopped (s : State) : State := Brk.setWindow false (freezeTable (s.modCfg fun c => { c with device := .safe }))

theorem stopped_kept (s : State) : Kept (s.modCfg fun c => { c with device := .safe }) s.stopped :=
  kp_setWindow _ (kp_touch (fun _ e => { e with deadline := e.deadline.stop s.now }) (fun _ e _ => sameIdentity_of_fields e _ _ _ _) (.refl _))

theorem enterSafe_kept (s : State) : Kept (Stc.exitRun s.stopped) (enterSafe s) := kp_finish (kp_change _ (kp_mot _ (.refl _)))

theorem enterSafe_sound (s : State) : Sound s (enterSafe s) := by
  have before := stopped_kept s
  have after := enterSafe_kept s
  have out : (enterSafe s).inRun = false := by
    have cfg : (enterSafe s).cfg = (s.modCfg fun c => { c with device := .safe }).cfg := after.cfg.trans before.cfg
    rw [State.inRun, cfg]
    rfl
  constructor
  case still => exact fun _ => after.still (exitRun_still _)
  case window => exact fun _ => after.window rfl
  case ranges => exact fun fits => after.sound.ranges (before.sound.ranges fits)
  case steering =>
    intro _ steering
    have stopped : s.stopped.SteeringAt s.inRun := before.steering _ (steeringAt_congr ((steeringFits_iff s).mp steering) rfl rfl)
    rw [steeringFits_iff, out]
    exact after.steering false (exitRun_steering stopped)
  case parameters => exact fun fits => after.parameters (before.parameters fits)
  case brakes =>
    intro ranges table fits
    have sound : s.stopped.BrakesSound := before.brakes ⟨table, doorHold_le ranges, brakesFit_congr fits rfl fun _ => rfl⟩
    exact (after.brakes ⟨sound.parameters, sound.doorHold, brakesFit_congr sound.fits rfl fun a => exitRun_brake _ a⟩).fits

/-! ### Every piece of work -/

theorem work_sound {s t : State} (work : Work s t) : Sound s t := by
  have r : Kept s s := .refl s
  cases work with
  | link f => exact (kp_lnk f r).sound
  | clock now fresh => exact (kp_clock now fresh r).sound
  | registry => exact (kp_ilt _ rfl r).sound
  | signals f => exact (kp_mot f r).sound
  | doors f => exact (kp_dsv f r).sound
  | refreshed handle d => exact (kp_updEntry _ _ (fun e => sameIdentity_of_fields e _ _ _ _) r).sound
  | pendingSwap => exact (kp_stcBeside _ rfl rfl ⟨rfl, rfl⟩ rfl ⟨rfl, rfl⟩ rfl rfl r).sound
  | swap id _ valid => exact (kp_stc _ ⟨.rfl, .inl rfl, fun h => h, ⟨rfl, rfl⟩, rfl, ⟨rfl, rfl⟩, fun _ => valid, rfl⟩ rfl r).sound
  | bank id b _ fits unused => exact setBank_sound id b fits unused
  | setting number place w g v _ device write => exact setting_sound device write
  | cold => exact coldReset_sound s
  | warm => exact warmRestart_sound s
  | start _ _ checked => exact enterRun_sound checked
  | safe => exact enterSafe_sound s
  | opens p k scope given slot => exact (kp_carryOpen p k scope given slot r).sound
  | amend e handle given _ there => exact (kp_finish (kp_handAmended e (kp_amended given there r))).sound
  | revive e => exact (kp_revive e r).sound
  | retire e => exact (kp_finish (kp_retireEntry none e r)).sound
  | clearCorner c => exact (kp_finish (kp_changeOne c _ r)).sound
  | clearLatch => exact (kp_finish (kp_clearLatch r)).sound
  | channel ch f _ same => exact (kp_finish (kp_atChannel ch f same r)).sound
  | temperature d => exact (kp_finish (kp_sampleTemperature d (kp_vdaGates _ rfl r))).sound
  | supply n => exact (kp_finish (kp_sampleSupply n (kp_vdaGates _ rfl r))).sound
  | sample c raw => exact (kp_sampleAnalog c raw r).sound
  | speedUpdate => exact (kp_speedUpdate r).sound
  | lineSettles l => exact (kp_lineSettles l r).sound
  | expire e => exact (kp_finish (kp_expireEntry e r)).sound
  | contactSettles d => exact (kp_finish (kp_supervise d (kp_handContact d (kp_changeDoor d _ r)))).sound
  | releaseDrive => exact (kp_releaseDrive r).sound
  | cornerUpdate c => exact (kp_finish (kp_afterUpdate c (kp_crnUpdate c (kp_crn _ (kp_advance _ r))))).sound
  | brakeUpdate => exact (kp_finish (kp_brakesMove r)).sound
  | steeringUpdate => exact (steeringMoves_sound s).trans (kp_finish (.refl _)).sound

end

/-- Settles O11: both forms are kept by every piece of work (`work_sound`): most of it keeps them as it stands (`Kept`); the schedule is
looked up in rows that lie in their ranges, and a reset, START and ENTER_SAFE put STC into the form of the device state they enter. -/
theorem stepKeepsSteering : Obligations.StepKeepsSteering := by
  unfold Obligations.StepKeepsSteering
  intro s t stepped
  have kept := step_keeps_work (P := fun u => Sound s u) stepped ?queue (fun work h => h.trans (work_sound work)) (Kept.refl s).sound
  case queue => exact fun rest _ => (kept_of_same (s := s) (t := { s with pending := rest }) rfl rfl rfl rfl rfl).sound
  exact ⟨kept.still, kept.window, kept.steering, fun _ table ranges fits => kept.brakes ranges table.parameter fits⟩

end Sys2Proof.Machine
end
